-- ==== Sys2Proof/Word.lean ====
section
/-! DEFINITION. The word types of the CW-880 (R3, R42, R114) and their plainest readings. -/

namespace Sys2Proof

/-- A byte of memory or of scratchpad. -/
abbrev Byte := BitVec 8
/-- A 32-bit register (R114). -/
abbrev Word := BitVec 32
/-- A 64-bit value, an instruction word or a clause header (R42, R47, R114). -/
abbrev DWord := BitVec 64
/-- One bit per lane of a warp, lane l at bit l (R267). -/
abbrev Mask := BitVec 64

end Sys2Proof
end

