-- ==== Sys2Proof/Syntax.lean ====
section
/-! DEFINITION. The steps of the CW-880, one constructor per row of the opcode table: the program words of R63 with their
operands (R47, R48), and the steps that its units take by themselves, with what the outside or the schedule brings to each. -/

namespace Sys2Proof

/-- A register operand (R48): `v0`–`v511` per thread, `s0`–`s511` per warp. -/
inductive Reg where
  | v (i : Fin 512)
  | s (i : Fin 512)
  deriving DecidableEq, Repr

/-- The predicate field (R32, R50): `q7` not negated selects every lane. -/
structure Guard where
  neg : Bool
  q   : Fin 8
  deriving DecidableEq, Repr

/-- What every word carries besides its operands: predicate and stall count (R47). -/
structure Tail where
  guard : Guard
  stall : Fin 16
  deriving DecidableEq, Repr

/-- The V format's tail: predicate, hold (R51), stall. -/
structure VTail where
  guard : Guard
  hold  : Fin 4
  stall : Fin 16
  deriving DecidableEq, Repr

/-- The tail of M, A and X words: predicate, dependency counter (R47, R61), stall. -/
structure CTail where
  guard : Guard
  ctr   : Option (Fin 8)
  stall : Fin 16
  deriving DecidableEq, Repr

/-- The type codes 0 to 12 of R53. -/
inductive Ty where
  | i32 | n32 | i64 | n64 | i16 | n16 | i8 | n8 | f32 | f16 | bf16 | f64 | t5
  deriving DecidableEq, Repr

/-- The float types of [14:12] (R53). -/
inductive FTy where
  | f32 | f16 | bf16 | f64
  deriving DecidableEq, Repr

/-- The size-and-type codes 0 to 11 of the M format (R54). -/
inductive MTy where
  | n8 | i8 | n16 | i16 | n32 | i32 | n64 | i64 | f16 | bf16 | f32 | f64
  deriving DecidableEq, Repr

/-- Rounding modes (R120). -/
inductive Rnd where
  | rn | rz | rd | ru
  deriving DecidableEq, Repr

/-- Comparisons (R52). -/
inductive Cmp where
  | eq | ne | lt | le | gt | ge
  deriving DecidableEq, Repr

/-- Scopes (R55). -/
inductive Scope where
  | core | die | dev | sys | rmt
  deriving DecidableEq, Repr

/-- Memory orders (R55). -/
inductive Order where
  | rlx | acq | rel | acqrel
  deriving DecidableEq, Repr

/-- Cache hints (R55). -/
inductive Hint where
  | normal | ef | keep | stream | nc
  deriving DecidableEq, Repr

/-- Atomic operations (R56). -/
inductive AtomOp where
  | add | minS | minU | maxS | maxU | and | or | xor | xchg | fadd | inc | dec
  deriving DecidableEq, Repr

/-- Width and type of an atomic (R56). -/
inductive AWidth where
  | w32 | w64 | w128 | bf2
  deriving DecidableEq, Repr

/-- Modes of `shfl` (R165). -/
inductive ShflMode where
  | abs | add | wrap | flip
  deriving DecidableEq, Repr

/-- Operations of `scan` and `redux` (R165). -/
inductive ScanOp where
  | add | min | max | or
  deriving DecidableEq, Repr

/-- Modes of `lanes` (R165). -/
inductive LanesMode where
  | mask | count | rank | first
  deriving DecidableEq, Repr

/-- Conditions of `brc` (R262). -/
inductive BrCond where
  | nz | z | lt | ge
  deriving DecidableEq, Repr

/-- What the protection codes find in data that is consumed (R382). -/
inductive Ecc where
  | clean | corrected | poison
  deriving DecidableEq, Repr

/-- A request that waits at a queue head or a port (R207): one of a core's vigil store, a copy engine's command, or the
command of a matrix engine. -/
inductive Waiter where
  | request (id : Nat)
  | copy (core cmd : Nat)
  | matrix (core : Nat)
  deriving DecidableEq, Repr

/-- The queue a dispatched record comes from (R284, R339). -/
inductive LaunchSource where
  | queue (q : Nat)
  | device (ctx : Nat)
  deriving DecidableEq, Repr

/-- How a fabric peer answers (R203, R207). -/
inductive PeerAnswer where
  | done (data : List Byte)   -- the value, or the acknowledgement of a write
  | retry
  | refuse
  deriving DecidableEq, Repr

/-- A host or fabric access to device memory (R360, R363). -/
inductive OuterAccess where
  | read (len : Nat)
  | write (data : List Byte)
  | atomic (op : AtomOp) (w : AWidth) (cas : Bool) (data : List Byte)
  deriving DecidableEq, Repr

/-- A message of another collective member (R370 to R372). -/
inductive GroupMessage where
  | opened (tag : Nat) (stations : List Nat)       -- the member has opened the tag, with these members' stations in their order
  | live (ranks : List Nat)                        -- the members that it counts as live (R372)
  | contribution (data : List Byte)                -- its source elements, or the root's bytes
  | error                                          -- it answered with an error
  deriving DecidableEq, Repr

/-- An image of the boot flash (R388). That its signature verifies under its public key is FIPS 205's to say, and is given with it (log 77). -/
structure BootImage where
  signed  : Bool                -- its SLH-DSA-SHAKE-256s signature verifies under `key`
  key     : List (BitVec 8)     -- the public key
  kind    : Nat                 -- the die kind it names: 0 the I/O die, 1 a compute die
  version : Nat                 -- its security version
  bytes   : List (BitVec 8)
  deriving DecidableEq, Repr

/-- What the Calends die finds at boot (R386): whether its ROM's self-test passes, and the images of the I/O die and of each compute die. -/
structure BootResult where
  romOk : Bool
  io    : BootImage
  dies  : List BootImage
  deriving DecidableEq, Repr

/-- The steps of the part. -/
inductive Instr where
  -- integer arithmetic (R145)
  | iadd (t : Ty) (d a b : Reg) (x : VTail)
  | isub (t : Ty) (d a b : Reg) (x : VTail)
  | imul (t : Ty) (d a b : Reg) (x : VTail)
  | imulh (t : Ty) (d a b : Reg) (x : VTail)
  | imad (t : Ty) (d a b c : Reg) (x : VTail)
  | imadw (t : Ty) (d a b c : Reg) (x : VTail)
  | iaddc (t : Ty) (d a b c : Reg) (x : VTail)
  | imin (t : Ty) (d a b : Reg) (x : VTail)
  | imax (t : Ty) (d a b : Reg) (x : VTail)
  | iabs (t : Ty) (d a : Reg) (x : VTail)
  | ineg (t : Ty) (d a : Reg) (x : VTail)
  | isad (t : Ty) (d a b c : Reg) (x : VTail)
  -- logic, shifts and bit fields (R146 to R150); `wide` is the extension that selects 64 bits
  | land (wide : Bool) (d a b : Reg) (x : VTail)
  | lor (wide : Bool) (d a b : Reg) (x : VTail)
  | lxor (wide : Bool) (d a b : Reg) (x : VTail)
  | landn (wide : Bool) (d a b : Reg) (x : VTail)
  | lnot (wide : Bool) (d a : Reg) (x : VTail)
  | lsel (f g : Fin 16) (d a b c : Reg) (x : Tail)
  | shl (t : Ty) (d a b : Reg) (x : VTail)
  | shr (t : Ty) (d a b : Reg) (x : VTail)
  | sar (t : Ty) (d a b : Reg) (x : VTail)
  | rot (t : Ty) (d a b : Reg) (x : VTail)
  | bfx (t : Ty) (d a b c : Reg) (x : VTail)
  | bfi (t : Ty) (d a b c : Reg) (x : VTail)
  | popc (t : Ty) (d a : Reg) (x : VTail)
  | clz (t : Ty) (d a : Reg) (x : VTail)
  | ctz (t : Ty) (d a : Reg) (x : VTail)
  | brev (t : Ty) (d a : Reg) (x : VTail)
  -- moves, selection, addresses and comparisons (R151 to R153)
  | lea (t : Ty) (d a b c : Reg) (x : VTail)
  | icmp (k : Cmp) (t : Ty) (q : Fin 8) (a b : Reg) (x : VTail)
  | sel (t : Ty) (d a b : Reg) (q : Fin 8) (neg : Bool) (x : VTail)
  | mov (t : Ty) (d a : Reg) (x : VTail)
  | movi (d : Reg) (imm : Word) (stall : Fin 16)
  | movhi (d a : Reg) (imm : Word) (stall : Fin 16)
  -- floating arithmetic (R154 to R159)
  | fadd (t : FTy) (ftz : Bool) (r : Rnd) (d a b : Reg) (x : VTail)
  | fsub (t : FTy) (ftz : Bool) (r : Rnd) (d a b : Reg) (x : VTail)
  | fmul (t : FTy) (ftz : Bool) (r : Rnd) (d a b : Reg) (x : VTail)
  | ffma (t : FTy) (ftz : Bool) (r : Rnd) (d a b c : Reg) (x : VTail)
  | fmin (t : FTy) (ftz : Bool) (d a b : Reg) (x : VTail)
  | fmax (t : FTy) (ftz : Bool) (d a b : Reg) (x : VTail)
  | fneg (t : FTy) (d a : Reg) (x : VTail)
  | fabs (t : FTy) (d a : Reg) (x : VTail)
  | fcmp (k : Cmp) (t : FTy) (ftz : Bool) (q : Fin 8) (a b : Reg) (x : VTail)
  | fclass (t : FTy) (d a : Reg) (x : VTail)
  | frcp (ftz : Bool) (r : Rnd) (d a : Reg) (x : VTail)
  | frsq (ftz : Bool) (d a : Reg) (x : VTail)
  | fsqrt (ftz : Bool) (r : Rnd) (d a : Reg) (x : VTail)
  | fexp2 (ftz : Bool) (d a : Reg) (x : VTail)
  | flog2 (ftz : Bool) (d a : Reg) (x : VTail)
  | fsin (ftz : Bool) (d a : Reg) (x : VTail)
  | fcos (ftz : Bool) (d a : Reg) (x : VTail)
  | dadd (r : Rnd) (d a b : Reg) (x : VTail)
  | dmul (r : Rnd) (d a b : Reg) (x : VTail)
  | dfma (r : Rnd) (d a b c : Reg) (x : VTail)
  | dcmp (k : Cmp) (q : Fin 8) (a b : Reg) (x : VTail)
  | hadd2 (t : FTy) (r : Rnd) (d a b : Reg) (x : VTail)
  | hmul2 (t : FTy) (r : Rnd) (d a b : Reg) (x : VTail)
  | hfma2 (t : FTy) (r : Rnd) (d a b c : Reg) (x : VTail)
  -- conversions (R160 to R164)
  | cvt (dt st : Ty) (d a : Reg) (x : VTail)
  | cvtq (slot : Fin 8) (d a b : Reg) (x : VTail)
  | cvtd (slot : Fin 8) (d a b : Reg) (x : VTail)
  | trpack (d a : Reg) (x : VTail)
  | trunpack (d a : Reg) (x : VTail)
  | pack2 (t : Ty) (d a b : Reg) (x : VTail)
  -- lane instructions (R165 to R169)
  | shfl (m : ShflMode) (t : Ty) (d a b c : Reg) (x : VTail)
  | voteBallot (t : Ty) (d : Reg) (q : Fin 8) (x : VTail)
  | voteAny (qd q : Fin 8) (x : VTail)
  | voteAll (qd q : Fin 8) (x : VTail)
  | voteEq (t : Ty) (qd : Fin 8) (a : Reg) (x : VTail)
  | scan (o : ScanOp) (t : Ty) (d a : Reg) (x : VTail)
  | redux (o : ScanOp) (t : Ty) (d a : Reg) (x : VTail)
  | lanes (m : LanesMode) (t : Ty) (d : Reg) (x : VTail)
  -- control (R261 to R269)
  | bra (off : Word) (x : Tail)
  | brc (k : BrCond) (c : Reg) (off : Word) (x : Tail)
  | brx (t : Reg) (x : Tail)
  | call (l : Reg) (off : Word) (x : Tail)
  | callx (t : Reg) (x : Tail)
  | ret (l : Reg) (x : Tail)
  | exit (x : Tail)
  | yield (x : Tail)
  | nop (x : Tail)
  | jenter (j : Fin 12) (x : Tail)
  | jquit (j : Fin 12) (x : Tail)
  | jwait (j : Fin 12) (x : Tail)
  | jread (d : Reg) (j : Fin 12) (x : Tail)
  | jwrite (j : Fin 12) (a : Reg) (x : Tail)
  | jclear (j : Fin 12) (x : Tail)
  -- memory and cache (R87 to R95)
  | ld (t : MTy) (d addr : Reg) (off : BitVec 12) (sc : Scope) (o : Order) (h : Hint) (x : CTail)
  | st (t : MTy) (d addr : Reg) (off : BitVec 12) (sc : Scope) (o : Order) (h : Hint) (x : CTail)
  | ldc (t : MTy) (d addr : Reg) (off : BitVec 12) (x : CTail)
  | pf (addr : Reg) (off : BitVec 12) (h : Hint) (x : CTail)
  | cflush (addr : Reg) (off : BitVec 12) (x : CTail)
  | cinval (addr : Reg) (off : BitVec 12) (x : CTail)
  | ckeep (k b l w : Reg) (x : Tail)
  | cunkeep (k : Reg) (x : Tail)
  -- barrier objects (R107, R109)
  | binit (e addr : Reg) (off : BitVec 12) (x : CTail)
  | barrive (d addr : Reg) (off : BitVec 12) (x : CTail)
  | bwait (t addr : Reg) (off : BitVec 12) (x : CTail)
  | btest (d addr : Reg) (off : BitVec 12) (x : CTail)
  | bexpect (c addr : Reg) (off : BitVec 12) (x : CTail)
  | bsync (stall : Fin 16)
  -- copy commands (R97); `out` is the counting side
  | xcopy (d s n b : Reg) (out : Bool) (x : CTail)
  | xgather (d s n b : Reg) (out : Bool) (x : CTail)
  | xscatter (d s n b : Reg) (out : Bool) (x : CTail)
  | xmcast (d s n l : Reg) (x : CTail)
  | xfill (d p n b : Reg) (out : Bool) (x : CTail)
  -- atomics and fences (R198, R223)
  | atom (o : AtomOp) (w : AWidth) (d addr v : Reg) (sc : Scope) (ord : Order) (h : Hint) (x : CTail)
  | atomx (w : AWidth) (d addr v : Reg) (sc : Scope) (ord : Order) (h : Hint) (x : CTail)
  | red (o : AtomOp) (w : AWidth) (addr v : Reg) (sc : Scope) (ord : Order) (h : Hint) (x : CTail)
  | fence (f : Fin 8) (ord : Order) (sc : Scope) (x : Tail)
  | fwait (f : Fin 8) (x : Tail)
  | fpoll (q f : Fin 8) (x : Tail)
  -- the matrix engine (R173)
  | macq (t : Fin 64) (x : Tail)
  | mrel (t : Fin 64) (x : Tail)
  | mzero (t : Fin 64) (x : CTail)
  | mload (t : Fin 64) (src shape : Reg) (slot : Fin 8) (x : CTail)
  | mloadRaw (t : Fin 64) (src shape : Reg) (x : CTail)
  | mma (t : Fin 64) (a b shape : Reg) (slot : Fin 8) (x : CTail)
  | mmaSet (t : Fin 64) (a b shape : Reg) (slot : Fin 8) (x : CTail)
  | mdrain (t : Fin 64) (dst scale shape : Reg) (slot : Fin 8) (x : CTail)
  | mdrainRaw (t : Fin 64) (dst shape : Reg) (x : CTail)
  | mread (d : Reg) (t : Fin 64) (pos scale : Reg) (slot : Fin 8) (x : CTail)
  | mcommit (d : Reg) (x : Tail)
  | mwait (a : Reg) (x : Tail)
  | mprog (d : Reg) (x : Tail)
  | mbtake (x : Tail)
  | mbpass (x : Tail)
  -- tasks, pipelines and migration (R292, R310, R364)
  | spawn (e args : Reg) (x : CTail)
  | rpush (src : Reg) (x : CTail)
  | rpushRing (r src n : Reg) (x : CTail)
  | rpop (dst st : Reg) (x : CTail)
  | rpopRing (r dst st : Reg) (x : CTail)
  | reos (x : CTail)
  | reosRing (r n : Reg) (x : CTail)
  | pbind (d p : Reg) (x : CTail)
  | punbind (h : Reg) (x : CTail)
  | pquery (d h q : Reg) (x : CTail)
  | migr (q : Fin 8) (addr : Reg) (x : Tail)
  -- collectives (R369); the three rows of `cmemb` are one word, told apart by the operation word when it issues (R370)
  | creduce (st quad c h : Reg) (x : CTail)
  | cbcast (quad c h : Reg) (x : CTail)
  | cmembOpen (d p o h : Reg) (x : CTail)
  | cmembQuery (d p o h : Reg) (x : CTail)
  | cmembClose (d p o h : Reg) (x : CTail)
  -- system (R331)
  | sread (sel : BitVec 20) (wide : Bool) (d : Reg) (x : Tail)
  | swrite (sel : BitVec 20) (wide : Bool) (a : Reg) (x : Tail)
  | trap (code : Fin 2048) (a : Reg) (x : Tail)
  | rte (x : Tail)
  | resumeRetry (a : Reg) (x : Tail)
  | resumeDeliver (a : Reg) (x : Tail)
  | resumeEnd (a : Reg) (x : Tail)
  -- the four rows of `preempt` are one word, told apart by the descriptor's mode when it issues (R342)
  | preemptSliceEnd (p : Reg) (x : Tail)
  | preemptAdaptive (p : Reg) (x : Tail)
  | preemptSave (p : Reg) (x : Tail)
  | preemptRestore (p : Reg) (x : Tail)
  | tlbinvPage (c a : Reg) (x : Tail)
  | tlbinvCtx (c : Reg) (x : Tail)
  | tlbinvAll (x : Tail)
  | launch (d r : Reg) (x : CTail)
  | halt (c : Reg) (x : Tail)
  -- trust (R396)
  | assign (d r : Reg) (x : CTail)
  | kzero (c : Reg) (x : Tail)
  | lstart (c : Reg) (x : Tail)
  -- register steps with an effect of their own: reads and writes of one selector (R284, R285, R382)
  | lqerrRead (q : Fin 256) (d : Reg) (x : Tail)
  | ecccntRead (die : Fin 4) (d : Reg) (x : Tail)
  | lqtailDoorbell (q : Fin 256) (a : Reg) (x : Tail)
  -- issue, rejoin checks, translation and faults
  | issueSelect (warp wait : Nat) (residue : Option Nat)
  | frontierCheck (warp : Nat)
  | watchdogExpiry (warp : Nat)
  | tableWalk (die cluster : Nat)
  | postedFault (ctx : Nat)
  | msixVectorFire (fn vec : Nat)
  -- slices, service warps and the vigil store
  | sliceQueueService (die slice : Nat)
  | serviceWarpCycle (die slice : Nat)
  | holdBoundExpiry (w : Waiter) (reason : Nat)
  | bounceTokenReturn (req : Nat)
  | reissue (req : Nat)
  | loadReply (req : Nat) (e : Ecc)
  | writeAck (req : Nat)
  | atomicReply (req : Nat) (e : Ecc)
  | promotionProbe (probe : Nat)
  | promotionAnswer (probe : Nat)
  | drainProbe (core slot die slice : Nat)
  | tier2WritebackAccept (line : Nat)
  -- copy engines and the matrix engine
  | copyCommandStart (core : Nat)
  | copyLineClaim (core cmd : Nat)
  | copyUnitDone (core cmd : Nat) (e : Ecc)
  | copyCommandComplete (core cmd : Nat)
  | engineLineRelease (core cmd line : Nat)
  | multicastDelivery (cmd receiver : Nat)
  | matrixCommandStart (core : Nat)
  | matrixBandEnd (core : Nat)
  | matrixCommandFinish (core : Nat)
  -- launches, blocks and tasks
  | launchDispatch (src : LaunchSource)
  | blockPlacement (launch : Nat) (cores : List Nat) (parts : List Nat)
  | placementHoldExpiry (launch : Nat)
  | gangHoldExpiry (launch : Nat)
  | blockRetire (blk : Nat)
  | launchComplete (launch : Nat)
  | launchSignal (launch : Nat)
  | taskRingRefill (ctx die cluster : Nat)
  | waveStart (die cluster core part : Nat)
  | taskBalance (die cluster : Nat)
  -- pre-emption and slices
  | graceExpiry (op : Nat)
  | drainBudgetExpiry (op blk : Nat)
  | barrierStopSave (op blk : Nat)
  | blockFlush (op blk : Nat)
  | blockSave (op blk : Nat)
  | preemptSignal (op : Nat)
  | restorePlacement (op : Nat) (cores : List Nat) (parts : List Nat)
  | sliceExpiry (ctx : Nat)
  | sliceSecondDescriptor (ctx : Nat)
  -- the link engine, migration, collectives, octave
  | ringClaim (ring : Nat)
  | elementPublish (ring pos : Nat)
  | consumerSpill (ring : Nat)
  | ringRelease (ring : Nat)
  | migrLanding (warp core part : Nat)
  | migrSlotTimeout (warp : Nat)
  | collectiveComplete (group : Nat)
  | collectiveMemberTimeout (group rank : Nat)
  | shadowCompare (warp : Nat) (differ : Mask)
  -- memory-block moves, alarms and power
  | blockMoveLines (part : Nat)
  | movectlStart (die : Nat) (val : DWord)
  | movectlEnd (die : Nat)
  | alarmLockWrite
  | alarmEraseWrite
  | alarmLogEvent
  | alarmLockEvent
  | alarmEraseEvent
  | powerSample (milliwatts : Nat) (junctions : List Nat)
  | thermalTrip
  -- resets, training, lustration
  | powerOn (b : BootResult)
  | coldReset (b : BootResult)
  | warmReset (b : BootResult)
  | hbmTrainingDone
  | lpddrTrainingDone
  | lustrationUnit (die : Nat)
  | functionLevelReset (fn : Nat)
  | functionLevelResetDone (fn : Nat)
  -- host and fabric
  | hostBindingChange (die : Nat) (hierarchy : Option Nat)
  | hostPostedWrite (fn pa : Nat) (data : List Byte) (relaxed : Bool)
  | inboundWriteAck (write : Nat)
  | hostNonpostedRead (fn pa len : Nat) (relaxed : Bool)
  | hostAtomicop (fn pa : Nat) (op : AtomOp) (w : AWidth) (cas : Bool) (data : List Byte) (relaxed : Bool)
  | cxlMemRequest (part pa : Nat) (a : OuterAccess)
  | hostBackInvalidation (line : Nat)
  | fabricInboundRequest (part station addr : Nat) (a : OuterAccess)
  | fabricPortDown (port : Nat)
  | fabricPortUp (port : Nat)
  | peerResponse (req : Nat) (a : PeerAnswer)
  | hostPortCompletion (req : Nat) (data : List Byte)
  | collectiveMessage (group rank : Nat) (m : GroupMessage)
  | msixVectorUnmask (fn vec : Nat)
  -- SPDM requests (R391), each with the request's own bytes
  | spdmGetVersion (msg : List Byte)
  | spdmGetCapabilities (msg : List Byte)
  | spdmNegotiateAlgorithms (msg : List Byte)
  | spdmGetDigests (msg : List Byte)
  | spdmGetCertificate (msg : List Byte)
  | spdmChallenge (msg : List Byte)
  | spdmGetMeasurements (index : Nat) (msg : List Byte)
  | spdmKeyExchange (msg : List Byte)
  | spdmFinish (msg : List Byte)
  deriving DecidableEq, Repr

end Sys2Proof
end

