-- ==== Sys2Proof/Machine/Flags.lean ====
section
/-! DEFINITION. Floating-point values exactly (R115 to R117, R126), rounding (R120 to R122), the flags (R118, R133), and the
operations on exact values that the vector unit, the matrix engine, the atomics and the collectives share. -/

namespace Sys2Proof.Machine

/-! ### Flags (R133) -/

def fInv : Nat := 1
def fDz : Nat := 2
def fOvf : Nat := 4
def fUnf : Nat := 8
def fInx : Nat := 16

/-- A float format: exponent and fraction widths. -/
structure Fmt where
  eb : Nat
  mb : Nat
  deriving DecidableEq, Repr

def fmtF16 : Fmt := ⟨5, 10⟩
def fmtBf16 : Fmt := ⟨8, 7⟩
def fmtF32 : Fmt := ⟨8, 23⟩
def fmtF64 : Fmt := ⟨11, 52⟩
/-- A80F (R126). -/
def fmtA80 : Fmt := ⟨16, 63⟩

def fmtOf : FTy → Fmt
  | .f32 => fmtF32
  | .f16 => fmtF16
  | .bf16 => fmtBf16
  | .f64 => fmtF64

def Fmt.bias (f : Fmt) : Int := 2 ^ (f.eb - 1) - 1
/-- The pattern of +∞, and the canonical NaN (R118). -/
def Fmt.infBits (f : Fmt) : Nat := (2 ^ f.eb - 1) * 2 ^ f.mb
def Fmt.nanBits (f : Fmt) : Nat := f.infBits + 2 ^ (f.mb - 1)
def Fmt.signBit (f : Fmt) : Nat := 2 ^ (f.eb + f.mb)
/-- The exponent of a unit of the smallest subnormal. -/
def Fmt.qmin (f : Fmt) : Int := 1 - f.bias - f.mb

/-- A decoded value (R116): a finite one is ±m × 2^e. -/
inductive Fl where
  | nan (sig : Bool)
  | inf (neg : Bool)
  | fin (neg : Bool) (m : Nat) (e : Int)
  deriving DecidableEq, Repr

/-- R116. -/
def Fmt.decode (f : Fmt) (bits : Nat) : Fl :=
  let neg := bits / f.signBit % 2 == 1
  let ex := bits / 2 ^ f.mb % 2 ^ f.eb
  let fr := bits % 2 ^ f.mb
  if ex == 2 ^ f.eb - 1 then (if fr == 0 then .inf neg else .nan (fr / 2 ^ (f.mb - 1) == 0))
  else if ex == 0 then .fin neg fr f.qmin
  else .fin neg (fr + 2 ^ f.mb) (f.qmin + (ex - 1 : Nat))

/-- Subnormal inputs under `.ftz` read as zero (R117). -/
def Fmt.decodeZ (f : Fmt) (ftz : Bool) (bits : Nat) : Fl :=
  match f.decode bits with
  | .fin neg m e => if ftz && m < 2 ^ f.mb then .fin neg 0 e else .fin neg m e
  | x => x

def Fl.isNan : Fl → Bool
  | .nan _ => true
  | _ => false
def Fl.isSig : Fl → Bool
  | .nan s => s
  | _ => false
def Fl.isZero : Fl → Bool
  | .fin _ m _ => m == 0
  | _ => false
def Fl.neg : Fl → Fl
  | .nan s => .nan s
  | .inf n => .inf (!n)
  | .fin n m e => .fin (!n) m e
def Fl.isNeg : Fl → Bool
  | .nan _ => false
  | .inf n => n
  | .fin n _ _ => n

/-- Whether a magnitude with remainder `rem` of `2^k` is rounded up (R120). -/
def roundUp (r : Rnd) (neg : Bool) (q rem half : Nat) : Bool :=
  match r with
  | .rn => half < rem || (rem == half && q % 2 == 1)
  | .rz => false
  | .rd => neg && rem != 0
  | .ru => !neg && rem != 0

/-- m × 2^e as an integer multiple of 2^q, rounded, and whether anything was lost. -/
def roundTo (r : Rnd) (neg : Bool) (m : Nat) (e q : Int) : Nat × Bool :=
  if q ≤ e then (m * 2 ^ (e - q).toNat, false)
  else
    let k := (q - e).toNat
    let x := m / 2 ^ k
    let rem := m % 2 ^ k
    (if roundUp r neg x rem (2 ^ (k - 1)) then x + 1 else x, rem != 0)

/-- The exponent of the leading bit. -/
def top (m : Nat) (e : Int) : Int := e + Nat.log2 m

/-- Tiny after rounding, as if the exponent range were unbounded (R122). -/
def Fmt.tiny (f : Fmt) (r : Rnd) (neg : Bool) (m : Nat) (e : Int) : Bool :=
  let x := roundTo r neg m e (top m e - f.mb)
  m != 0 && top x.1 (top m e - f.mb) < 1 - f.bias

/-- A finite exact value rounded to a format: bits and flags (R117, R120 to R122). -/
def Fmt.round (f : Fmt) (r : Rnd) (ftz : Bool) (neg : Bool) (m : Nat) (e : Int) : Nat × Nat :=
  let s := if neg then f.signBit else 0
  if m == 0 then (s, 0)
  else if ftz && f.tiny r neg m e then (s, fUnf + fInx)
  else if ftz && top m e < 1 - f.bias then (s + 2 ^ f.mb, fInx)
  else
    let q := max (top m e - f.mb) f.qmin
    let x := roundTo r neg m e q
    let bits := (q - f.qmin).toNat * 2 ^ f.mb + x.1
    if f.infBits ≤ bits then
      let big := match r with
        | .rn => true
        | .rz => false
        | .rd => neg
        | .ru => !neg
      (s + (if big then f.infBits else f.infBits - 1), fOvf + fInx)
    else (s + bits, if x.2 then fInx + (if f.tiny r neg m e then fUnf else 0) else 0)

/-- A result with its flags, in a format. -/
def Fmt.encode (f : Fmt) (r : Rnd) (ftz : Bool) : Fl × Nat → Nat × Nat
  | (.nan _, fl) => (f.nanBits, fl)
  | (.inf neg, fl) => ((if neg then f.signBit else 0) + f.infBits, fl)
  | (.fin neg m e, fl) => let x := f.round r ftz neg m e; (x.1, fl ||| x.2)

/-! ### Exact operations, each with the invalid flag it raises -/

def sigFlag (xs : List Fl) : Nat := if xs.any Fl.isSig then fInv else 0

def Fl.toInt (e0 : Int) : Fl → Int
  | .fin neg m e => (if neg then -1 else 1) * (m * 2 ^ (e - e0).toNat : Nat)
  | _ => 0

def ofInt (zeroNeg : Bool) (x e : Int) : Fl := if x == 0 then .fin zeroNeg 0 e else .fin (decide (x < 0)) x.natAbs e

/-- a + b (R154): an exact zero of opposite signs is +0, or −0 rounding down. -/
def addFl (r : Rnd) (a b : Fl) : Fl × Nat :=
  match a, b with
  | .nan _, _ | _, .nan _ => (.nan false, sigFlag [a, b])
  | .inf x, .inf y => if x == y then (.inf x, 0) else (.nan false, fInv)
  | .inf x, _ => (.inf x, 0)
  | _, .inf y => (.inf y, 0)
  | .fin x _ e, .fin y _ e' =>
    let e0 := min e e'
    (ofInt (if x == y then x else r == .rd) (a.toInt e0 + b.toInt e0) e0, 0)

/-- a × b. -/
def mulFl (a b : Fl) : Fl × Nat :=
  match a, b with
  | .nan _, _ | _, .nan _ => (.nan false, sigFlag [a, b])
  | .inf x, .inf y => (.inf (x != y), 0)
  | .inf x, .fin y m _ | .fin y m _, .inf x => if m == 0 then (.nan false, fInv) else (.inf (x != y), 0)
  | .fin x m e, .fin y n e' => (.fin (x != y) (m * n) (e + e'), 0)

/-- a × b + c, exact: 0 × ∞ is invalid even when c is a quiet NaN (R154). -/
def fmaFl (r : Rnd) (a b c : Fl) : Fl × Nat :=
  let p := mulFl a b
  let s := addFl r p.1 c
  (s.1, p.2 ||| s.2 ||| sigFlag [a, b, c])

/-- Order of two non-NaN values. -/
def Fl.lt (a b : Fl) : Bool :=
  match a, b with
  | .inf x, .inf y => x && !y
  | .inf x, _ => x
  | _, .inf y => !y
  | .fin _ _ e, .fin _ _ e' => decide (a.toInt (min e e') < b.toInt (min e e'))
  | _, _ => false

def Fl.eqv (a b : Fl) : Bool := !a.isNan && !b.isNan && !a.lt b && !b.lt a

/-- `fmin` and `fmax` (R119): −0 stands below +0. -/
def minFl (a b : Fl) : Fl :=
  if a.isNan then (if b.isNan then .nan false else b) else if b.isNan then a
  else if a.lt b || (!b.lt a && a.isNeg) then a else b
def maxFl (a b : Fl) : Fl :=
  if a.isNan then (if b.isNan then .nan false else b) else if b.isNan then a
  else if b.lt a || (!a.lt b && !a.isNeg) then a else b

/-- A comparison: unordered gives true for `ne` alone (R155). -/
def cmpFl (k : Cmp) (a b : Fl) : Bool :=
  if a.isNan || b.isNan then k == .ne
  else match k with
    | .eq => a.eqv b
    | .ne => !a.eqv b
    | .lt => a.lt b
    | .le => !b.lt a
    | .gt => b.lt a
    | .ge => !a.lt b

/-! ### Special functions (R157): a floor of the exact value with enough bits, and a last bit that says it is not exact -/

/-- ⌊√n⌋, bit by bit from 2^k down. -/
def isqrt (n : Nat) : Nat → Nat → Nat
  | 0, r => if (r + 1) * (r + 1) ≤ n then r + 1 else r
  | k + 1, r =>
    let t := r + 2 ^ (k + 1)
    isqrt n k (if t * t ≤ n then t else r)

def sqrtN (n : Nat) : Nat := isqrt n (Nat.log2 n / 2 + 1) 0

def sticky (x : Nat) (exact : Bool) : Nat := 2 * x + (if exact then 0 else 1)

def rcpFl (a : Fl) : Fl × Nat :=
  match a with
  | .nan s => (.nan false, if s then fInv else 0)
  | .inf n => (.fin n 0 0, 0)
  | .fin n m e =>
    if m == 0 then (.inf n, fDz)
    else
      let k := Nat.log2 m + 80
      (.fin n (sticky (2 ^ k / m) (2 ^ k % m == 0)) (-(k : Int) - 1 - e), 0)

/-- A value with an even exponent. -/
def evenExp (m : Nat) (e : Int) : Nat × Int := if e % 2 == 0 then (m, e) else (2 * m, e - 1)

def sqrtFl (a : Fl) : Fl × Nat :=
  match a with
  | .nan s => (.nan false, if s then fInv else 0)
  | .inf n => if n then (.nan false, fInv) else (.inf false, 0)
  | .fin n m e =>
    if m == 0 then (.fin n 0 e, 0)
    else if n then (.nan false, fInv)
    else
      let x := evenExp m e
      let y := x.1 * 2 ^ 160
      let r := sqrtN y
      (.fin false (sticky r (r * r == y)) (x.2 / 2 - 81), 0)

def rsqFl (a : Fl) : Fl × Nat :=
  match a with
  | .nan s => (.nan false, if s then fInv else 0)
  | .inf n => if n then (.nan false, fInv) else (.fin false 0 0, 0)
  | .fin n m e =>
    if m == 0 then (.inf n, fDz)
    else if n then (.nan false, fInv)
    else
      let x := evenExp m e
      let r := sqrtN (2 ^ 320 / x.1)
      (.fin false (sticky r (r * r * x.1 == 2 ^ 320)) (-(x.2 / 2) - 161), 0)

/-- 2^(f / 2^n) × 2^256 for the low n bits of f, by square roots of 2; `root` is 2^(2^-k) × 2^256. -/
def expBits (f : Nat) : Nat → Nat → Nat → Nat
  | 0, _, acc => acc
  | n + 1, root, acc =>
    let root := sqrtN (root * 2 ^ 256)
    expBits f n root (if f / 2 ^ n % 2 == 1 then acc * root / 2 ^ 256 else acc)

def exp2Fl (a : Fl) : Fl × Nat :=
  match a with
  | .nan s => (.nan false, if s then fInv else 0)
  | .inf n => (if n then .fin false 0 0 else .inf false, 0)
  | .fin n m e =>
    if m == 0 then (.fin false 1 0, 0)
    else if 8 ≤ top m e then (.fin false 1 (if n then -400 else 400), 0)
    else
      let x := (Fl.fin n m e).toInt (min e 0)          -- a × 2^k
      let k := (-(min e 0)).toNat
      let i := x / 2 ^ k
      let f := (x % 2 ^ k).toNat
      if f == 0 then (.fin false 1 i, 0)
      else (.fin false (sticky (expBits f k (2 ^ 257) (2 ^ 256)) false) (i - 257), 0)

/-- n bits of log2 of x × 2^-400 for 1 ≤ x × 2^-400 < 2. -/
def logBits : Nat → Nat → Nat → Nat
  | 0, _, acc => acc
  | n + 1, x, acc =>
    let y := x * x / 2 ^ 400
    if 2 ^ 401 ≤ y then logBits n (y / 2) (2 * acc + 1) else logBits n y (2 * acc)

def log2Fl (a : Fl) : Fl × Nat :=
  match a with
  | .nan s => (.nan false, if s then fInv else 0)
  | .inf n => if n then (.nan false, fInv) else (.inf false, 0)
  | .fin n m e =>
    if m == 0 then (.inf true, fDz)
    else if n then (.nan false, fInv)
    else
      let i := top m e
      if m == 2 ^ Nat.log2 m then (ofInt false i 0, 0)
      else
        let f := logBits 140 (m * 2 ^ (400 - Nat.log2 m)) 0
        let v := i * 2 ^ 140 + f
        (if v < 0 then .fin true (sticky ((-v).toNat - 1) false) (-141) else .fin false (sticky v.toNat false) (-141), 0)

/-- ⌊π × 2^512⌋. -/
def piBits : Nat := 0x3243f6a8885a308d313198a2e03707344a4093822299f31d0082efa98ec4e6c89452821e638d01377be5466cf34e90c6cc0ac29b7c97c50dd3f84d5b5b5470917

/-- Terms of x − x³/3! + … or 1 − x²/2! + … at scale 2^400, `x2` being x². -/
def series (x2 : Int) : Nat → Nat → Int → Int → Int
  | 0, _, _, acc => acc
  | n + 1, k, t, acc =>
    let t := -(t * x2 / 2 ^ 400) / ((k + 1) * (k + 2) : Nat)
    series x2 n (k + 2) t (acc + t)

/-- Sine (`q` 0) or cosine (`q` 1) of a finite non-zero value: reduced by quarter turns. -/
def trigFl (q : Int) (neg : Bool) (m : Nat) (e : Int) : Fl :=
  if top m e < -40 then
    if q == 0 then .fin neg (m * 2 ^ 80 - 1) (e - 80) else .fin false (2 ^ 100 - 1) (-100)
  else
    let a := (Fl.fin neg m e).toInt (-400)
    let half : Int := piBits / 2 ^ 113
    let k := (a + half / 2) / half
    let r := a - k * half
    let x2 := r * r / 2 ^ 400
    let v := match (k + q) % 4 with
      | 0 => series x2 60 1 r r
      | 1 => series x2 60 0 (2 ^ 400) (2 ^ 400)
      | 2 => - series x2 60 1 r r
      | _ => - series x2 60 0 (2 ^ 400) (2 ^ 400)
    .fin (decide (v < 0)) (sticky v.natAbs false) (-401)

def sinFl (a : Fl) : Fl × Nat :=
  match a with
  | .nan s => (.nan false, if s then fInv else 0)
  | .inf _ => (.nan false, fInv)
  | .fin n m e => if m == 0 then (.fin n 0 0, 0) else (trigFl 0 n m e, 0)

def cosFl (a : Fl) : Fl × Nat :=
  match a with
  | .nan s => (.nan false, if s then fInv else 0)
  | .inf _ => (.nan false, fInv)
  | .fin n m e => if m == 0 then (.fin false 1 0, 0) else (trigFl 1 n m e, 0)

/-! ### Conversions to integers (R123) -/

/-- A value rounded to an integer by `rn` and clamped to [lo, hi]: result and flags. -/
def toIntSat (lo hi : Int) (a : Fl) : Int × Nat :=
  match a with
  | .nan _ => (0, fInv)
  | .inf n => (if n then lo else hi, fInv)
  | .fin n m e =>
    let x := roundTo .rn n m e 0
    let v : Int := if n then -(x.1 : Int) else x.1
    if v < lo then (lo, fInv) else if hi < v then (hi, fInv) else (v, if x.2 then fInx else 0)

/-- A value as the drain leaves it (R131): rounded toward zero, saturated; the result, saturations and NaNs counted. -/
def drainInt (lo hi : Int) (a : Fl) : Int × Nat :=
  match a with
  | .nan _ => (0, 0)
  | .inf n => (if n then lo else hi, 1)
  | .fin n m e =>
    let x := (roundTo .rz n m e 0).1
    let v : Int := if n then -(x : Int) else x
    if v < lo then (lo, 1) else if hi < v then (hi, 1) else (v, 0)

def Fmt.drain (f : Fmt) (a : Fl) : Nat × Nat :=
  match a with
  | .nan _ => (f.nanBits, 0)
  | .inf n => ((if n then f.signBit else 0) + f.infBits, 0)
  | .fin n m e =>
    let x := f.round .rz false n m e
    (x.1, if x.2 / 4 % 2 == 1 then 1 else 0)

/-! ### A T5 byte's weights (R124, R125) -/

def trit (v k : Nat) : Int := if 243 ≤ v then 0 else (v / 3 ^ k % 3 : Nat) - 1

end Sys2Proof.Machine
end

