-- ==== Sys2Proof/Config.lean ====
section
/-! DEFINITION. What one implementation fixes and what the spec leaves open, as constants with no body:
no proof can see their values, so a claim that holds of the model holds for every choice. -/

namespace Sys2Proof.Config

/-- A byte the spec calls unspecified (overlapping copies, R97; a reused scratchpad share, R86): the n-th free value. -/
opaque freeByte : Nat → Byte
/-- An 80-bit element of a tile nothing has written since placement (R170). -/
opaque freeElement : Nat → BitVec 80
/-- A handle of a pipeline or a collective group (R314, R370): non-zero by the low bit. -/
opaque freeHandle : Nat → BitVec 31
/-- The set of an L2 slice that PA[51:7] maps to, a fixed function that is not architected (R80): one of the 6,144 sets of a slice. -/
opaque l2Set : BitVec 45 → Fin 6144
/-- Whether a register whose counter-tracked write is on its way already reads as the new value in a lane (R60): the n-th free choice. -/
opaque freeBit : Nat → Bool
/-- One byte of a 128-byte line written under one key and read under another (R392, R412): the two key identities,
the line number, the line's bytes and the byte's place. -/
opaque wrongKeyByte : Nat → Nat → Nat → List Byte → Nat → Byte
/-- The check word over a save image (R347). -/
opaque imageCheck : List Byte → DWord
/-- The memory where the device keeps a block's state inside an image is its own (R347): body byte i of image n. -/
opaque imageByte : Nat → Nat → Byte
/-- Bytes of an SPDM answer that the responder fills from its keys, certificates and random generator (R391):
request number, the Calends log (R404), the request's own bytes, place. -/
opaque spdmByte : Nat → List Nat → List Byte → Nat → Byte
/-- Length of that SPDM answer. -/
opaque spdmLength : Nat → List Nat → List Byte → Nat
/-- The bytes of image n (R391): of the Calends ROM, and of those whose boot lies before the model's reset state. -/
opaque bootImage : Nat → List Byte
/-- The raw bit stream of the fused security versions (R391), of the I/O die's and the compute dies'. -/
opaque fusedStream : Nat → Nat → List Byte
/-- Whether a peer or the host accepts an atomic it is sent (R203). -/
opaque peerAccepts : Nat → Nat → Bool

end Sys2Proof.Config
end

