-- ==== Sys2Proof/Machine/Forms.lean ====
section
/-! DEFINITION. The form of each word: engine class (R36, R63), operands as register groups (R48, R199), predicate, stall and
counter (R47), and the encoding rules a word's typed form can break (R64), each by its code. -/

namespace Sys2Proof.Forms

/-- One register group of a word: whether the word writes it, its first register, how many registers, and the multiple at
which it must begin. -/
structure Use where
  dst   : Bool
  reg   : Reg
  n     : Nat
  align : Nat
  deriving DecidableEq, Repr

def Reg.isS : Reg → Bool
  | .s _ => true
  | .v _ => false

def Reg.index : Reg → Nat
  | .s i => i.val
  | .v i => i.val

/-- `s0`: reads zero, ignores writes (R29). -/
def Reg.isS0 : Reg → Bool
  | .s i => i.val == 0
  | .v _ => false

/-- A 64-bit type names a pair (R143). -/
def tyRegs : Ty → Nat
  | .i64 | .n64 | .f64 => 2
  | _ => 1

def ftyRegs : FTy → Nat
  | .f64 => 2
  | _ => 1

def mtyRegs : MTy → Nat
  | .n64 | .i64 | .f64 => 2
  | _ => 1

/-- Access size in bytes (R54). -/
def mtySize : MTy → Nat
  | .n8 | .i8 => 1
  | .n16 | .i16 | .f16 | .bf16 => 2
  | .n32 | .i32 | .f32 => 4
  | .n64 | .i64 | .f64 => 8

/-- Registers of an atomic's value (R199). -/
def atomRegs : AWidth → Nat
  | .w32 | .bf2 => 1
  | .w64 => 2
  | .w128 => 4

def din (r : Reg) (n : Nat := 1) : Use := ⟨false, r, n, n⟩
def dout (r : Reg) (n : Nat := 1) : Use := ⟨true, r, n, n⟩
/-- A group of more than four registers begins at a multiple of 4 (R199). -/
def dgrp (r : Reg) (n : Nat) : Use := ⟨false, r, n, min n 4⟩
/-- An operand that may be `s0` for none. -/
def orNone (r : Reg) (n : Nat) : List Use := if Reg.isS0 r then [din r] else [din r n]

/-- The register groups of a word, in field order. `w64` says that the warp is 64 lanes wide, when a whole mask takes a
pair (R269). -/
def uses (w64 : Bool) : Instr → List Use
  | .iadd t d a b _ | .isub t d a b _ | .imul t d a b _ | .imulh t d a b _ | .imin t d a b _ | .imax t d a b _ =>
    [dout d (tyRegs t), din a (tyRegs t), din b (tyRegs t)]
  | .imad t d a b c _ => [dout d (tyRegs t), din a (tyRegs t), din b (tyRegs t), din c (tyRegs t)]
  | .imadw _ d a b c _ => [dout d 2, din a, din b, din c 2]
  | .iaddc _ d a b c _ => [dout d 2, din a, din b, din c]
  | .iabs t d a _ | .ineg t d a _ => [dout d (tyRegs t), din a (tyRegs t)]
  | .isad _ d a b c _ => [dout d, din a, din b, din c]
  | .land w d a b _ | .lor w d a b _ | .lxor w d a b _ | .landn w d a b _ =>
    [dout d (if w then 2 else 1), din a (if w then 2 else 1), din b (if w then 2 else 1)]
  | .lnot w d a _ => [dout d (if w then 2 else 1), din a (if w then 2 else 1)]
  | .lsel _ _ d a b c _ => [dout d, din a, din b, din c]
  | .shl t d a b _ | .shr t d a b _ | .sar t d a b _ | .rot t d a b _ => [dout d (tyRegs t), din a (tyRegs t), din b]
  | .bfx t d a b c _ => [dout d (tyRegs t), din a (tyRegs t), din b, din c]
  | .bfi t d a b c _ => [dout d (tyRegs t), din a (tyRegs t), din b, din c (tyRegs t)]
  | .popc t d a _ | .clz t d a _ | .ctz t d a _ => [dout d, din a (tyRegs t)]
  | .brev t d a _ => [dout d (tyRegs t), din a (tyRegs t)]
  | .lea _ d a b c _ => [dout d 2, din a 2, din b, din c]
  | .icmp _ t _ a b _ => [din a (tyRegs t), din b (tyRegs t)]
  | .sel t d a b _ _ _ => [dout d (tyRegs t), din a (tyRegs t), din b (tyRegs t)]
  | .mov t d a _ => [dout d (tyRegs t), din a (tyRegs t)]
  | .movi d _ _ => [dout d]
  | .movhi d a _ _ => [dout d 2, din a]
  | .fadd t _ _ d a b _ | .fsub t _ _ d a b _ | .fmul t _ _ d a b _ | .fmin t _ d a b _ | .fmax t _ d a b _ =>
    [dout d (ftyRegs t), din a (ftyRegs t), din b (ftyRegs t)]
  | .ffma t _ _ d a b c _ => [dout d (ftyRegs t), din a (ftyRegs t), din b (ftyRegs t), din c (ftyRegs t)]
  | .fneg t d a _ | .fabs t d a _ => [dout d (ftyRegs t), din a (ftyRegs t)]
  | .fcmp _ t _ _ a b _ => [din a (ftyRegs t), din b (ftyRegs t)]
  | .fclass t d a _ => [dout d, din a (ftyRegs t)]
  | .frcp _ _ d a _ | .frsq _ d a _ | .fsqrt _ _ d a _ | .fexp2 _ d a _ | .flog2 _ d a _ | .fsin _ d a _
  | .fcos _ d a _ => [dout d, din a]
  | .dadd _ d a b _ | .dmul _ d a b _ => [dout d 2, din a 2, din b 2]
  | .dfma _ d a b c _ => [dout d 2, din a 2, din b 2, din c 2]
  | .dcmp _ _ a b _ => [din a 2, din b 2]
  | .hadd2 _ _ d a b _ | .hmul2 _ _ d a b _ => [dout d, din a, din b]
  | .hfma2 _ _ d a b c _ => [dout d, din a, din b, din c]
  | .cvt dt st d a _ => [dout d (tyRegs dt), din a (tyRegs st)]
  | .cvtq _ d a b _ | .cvtd _ d a b _ | .pack2 _ d a b _ => [dout d, din a, din b]
  | .trpack d a _ => [dout d, din a 2]
  | .trunpack d a _ => [dout d 2, din a]
  | .shfl _ t d a b c _ => [dout d (tyRegs t), din a (tyRegs t), din b, din c]
  | .voteBallot t d _ _ => [dout d (tyRegs t)]
  | .voteAny _ _ _ | .voteAll _ _ _ => []
  | .voteEq t _ a _ => [din a (tyRegs t)]
  | .scan _ t d a _ | .redux _ t d a _ => [dout d (tyRegs t), din a (tyRegs t)]
  | .lanes _ t d _ => [dout d (tyRegs t)]
  | .brc _ c _ _ => [din c]
  | .brx t _ => [din t 2]
  | .call l _ _ => [dout l 2]
  | .callx t _ => [din t 2, dout t 2]
  | .ret l _ => [din l 2]
  | .jread d _ _ => [dout d (if w64 then 2 else 1)]
  | .jwrite _ a _ => [din a (if w64 then 2 else 1)]
  | .ld t d addr _ _ _ _ _ | .ldc t d addr _ _ => [dout d (mtyRegs t), din addr 2]
  | .st t d addr _ _ _ _ _ => [din d (mtyRegs t), din addr 2]
  | .pf addr _ _ _ | .cflush addr _ _ | .cinval addr _ _ => [din addr 2]
  | .ckeep k b l w _ => [din k, din b 2, din l 2, din w]
  | .cunkeep k _ => [din k]
  | .binit e addr _ _ => [din e, din addr 2]
  | .barrive d addr _ _ | .btest d addr _ _ => [dout d, din addr 2]
  | .bwait t addr _ _ => [din t, din addr 2]
  | .bexpect c addr _ _ => [din c, din addr 2]
  | .xcopy d s n b _ _ => [din d 2, din s 2, din n] ++ orNone b 2
  | .xgather d s n b _ _ | .xscatter d s n b _ _ => [din d 2, din s 2, din n 2, din b 4]
  | .xmcast d s n l _ => [din d, din s 2, din n, din l 2]
  | .xfill d p n b _ _ => [din d 2, din p, din n] ++ orNone b 2
  | .atom _ w d addr v _ _ _ _ => [dout d (atomRegs w), din addr 2, din v (atomRegs w)]
  | .atomx w d addr v _ _ _ _ => [dout d (atomRegs w), din addr 2, dgrp v (2 * atomRegs w)]
  | .red _ w addr v _ _ _ _ => [din addr 2, din v (atomRegs w)]
  | .mload _ s h _ _ | .mloadRaw _ s h _ => [din s 2, din h 2]
  | .mma _ a b h _ _ | .mmaSet _ a b h _ _ => [din a 2, din b 2, din h 2]
  | .mdrain _ d c h _ _ => [din d 2] ++ orNone c 4 ++ [din h 2]
  | .mdrainRaw _ d h _ => [din d 2, din h 2]
  | .mread d _ p c _ _ => [dout d, din p] ++ orNone c 4
  | .mcommit d _ | .mprog d _ => [dout d]
  | .mwait a _ => [din a]
  | .spawn e args _ => [din e 2, ⟨false, args, 6, 2⟩]
  | .rpush s _ => [din s 2]
  | .rpushRing r s n _ => [din r 2, din s 2, din n]
  | .rpop d t _ => [din d 2, dout t 2]
  | .rpopRing r d t _ => [din r 2, din d 2, dout t 2]
  | .reosRing r n _ => [din r 2, din n]
  | .pbind d p _ => [dout d 4, din p 2]
  | .punbind h _ => [din h]
  | .pquery d h q _ => [dout d 4, din h, din q]
  | .migr _ a _ => [din a 2]
  | .creduce s q c h _ => [dout s, din q 4, din c 2, din h]
  | .cbcast q c h _ => [din q 4, din c 2, din h]
  | .cmembOpen d p o h _ | .cmembQuery d p o h _ | .cmembClose d p o h _ => [dout d 2] ++ orNone p 2 ++ [din o, din h]
  | .sread _ w d _ => [dout d (if w then 2 else 1)]
  | .swrite _ w a _ => [din a (if w then 2 else 1)]
  | .trap _ a _ => [din a]
  | .resumeRetry a _ | .resumeDeliver a _ | .resumeEnd a _ => [din a]
  | .preemptSliceEnd p _ | .preemptAdaptive p _ | .preemptSave p _ | .preemptRestore p _ => [din p 2]
  | .tlbinvPage c a _ => [din c] ++ orNone a 2
  | .tlbinvCtx c _ => [din c]
  | .launch d r _ | .assign d r _ => [dout d, din r 2]
  | .halt c _ | .kzero c _ | .lstart c _ => [din c]
  | .lqerrRead _ d _ | .ecccntRead _ d _ => [dout d 2]
  | .lqtailDoorbell _ a _ => [din a]
  | _ => []

/-- The word selects no lanes of its own: `q7`, not negated. -/
def always : Guard := ⟨false, 7⟩

/-- The predicate of a word; every lane for an I-format word (R32) and for `bsync` (R109). -/
def guard : Instr → Guard
  | .movi _ _ _ | .movhi _ _ _ _ | .bsync _ => always
  | .lsel _ _ _ _ _ _ x | .bra _ x | .brc _ _ _ x | .brx _ x | .call _ _ x | .callx _ x | .ret _ x | .exit x | .yield x
  | .nop x | .jenter _ x | .jquit _ x | .jwait _ x | .jread _ _ x | .jwrite _ _ x | .jclear _ x | .ckeep _ _ _ _ x
  | .cunkeep _ x | .fence _ _ _ x | .fwait _ x | .fpoll _ _ x | .macq _ x | .mrel _ x | .mcommit _ x | .mwait _ x
  | .mprog _ x | .mbtake x | .mbpass x | .migr _ _ x | .sread _ _ _ x | .swrite _ _ _ x | .trap _ _ x | .rte x
  | .resumeRetry _ x | .resumeDeliver _ x | .resumeEnd _ x | .preemptSliceEnd _ x | .preemptAdaptive _ x
  | .preemptSave _ x | .preemptRestore _ x | .tlbinvPage _ _ x | .tlbinvCtx _ x | .tlbinvAll x | .halt _ x | .kzero _ x
  | .lstart _ x | .lqerrRead _ _ x | .ecccntRead _ _ x | .lqtailDoorbell _ _ x => x.guard
  | .iadd _ _ _ _ x | .isub _ _ _ _ x | .imul _ _ _ _ x | .imulh _ _ _ _ x | .imad _ _ _ _ _ x | .imadw _ _ _ _ _ x
  | .iaddc _ _ _ _ _ x | .imin _ _ _ _ x | .imax _ _ _ _ x | .iabs _ _ _ x | .ineg _ _ _ x | .isad _ _ _ _ _ x
  | .land _ _ _ _ x | .lor _ _ _ _ x | .lxor _ _ _ _ x | .landn _ _ _ _ x | .lnot _ _ _ x | .shl _ _ _ _ x
  | .shr _ _ _ _ x | .sar _ _ _ _ x | .rot _ _ _ _ x | .bfx _ _ _ _ _ x | .bfi _ _ _ _ _ x | .popc _ _ _ x
  | .clz _ _ _ x | .ctz _ _ _ x | .brev _ _ _ x | .lea _ _ _ _ _ x | .icmp _ _ _ _ _ x | .sel _ _ _ _ _ _ x
  | .mov _ _ _ x | .fadd _ _ _ _ _ _ x | .fsub _ _ _ _ _ _ x | .fmul _ _ _ _ _ _ x | .ffma _ _ _ _ _ _ _ x
  | .fmin _ _ _ _ _ x | .fmax _ _ _ _ _ x | .fneg _ _ _ x | .fabs _ _ _ x | .fcmp _ _ _ _ _ _ x | .fclass _ _ _ x
  | .frcp _ _ _ _ x | .frsq _ _ _ x | .fsqrt _ _ _ _ x | .fexp2 _ _ _ x | .flog2 _ _ _ x | .fsin _ _ _ x
  | .fcos _ _ _ x | .dadd _ _ _ _ x | .dmul _ _ _ _ x | .dfma _ _ _ _ _ x | .dcmp _ _ _ _ x | .hadd2 _ _ _ _ _ x
  | .hmul2 _ _ _ _ _ x | .hfma2 _ _ _ _ _ _ x | .cvt _ _ _ _ x | .cvtq _ _ _ _ x | .cvtd _ _ _ _ x | .trpack _ _ x
  | .trunpack _ _ x | .pack2 _ _ _ _ x | .shfl _ _ _ _ _ _ x | .voteBallot _ _ _ x | .voteAny _ _ x | .voteAll _ _ x
  | .voteEq _ _ _ x | .scan _ _ _ _ x | .redux _ _ _ _ x | .lanes _ _ _ x => x.guard
  | .ld _ _ _ _ _ _ _ x | .st _ _ _ _ _ _ _ x | .ldc _ _ _ _ x | .pf _ _ _ x | .cflush _ _ x | .cinval _ _ x
  | .binit _ _ _ x | .barrive _ _ _ x | .bwait _ _ _ x | .btest _ _ _ x | .bexpect _ _ _ x | .xcopy _ _ _ _ _ x
  | .xgather _ _ _ _ _ x | .xscatter _ _ _ _ _ x | .xmcast _ _ _ _ x | .xfill _ _ _ _ _ x | .atom _ _ _ _ _ _ _ _ x
  | .atomx _ _ _ _ _ _ _ x | .red _ _ _ _ _ _ _ x | .mzero _ x | .mload _ _ _ _ x | .mloadRaw _ _ _ x
  | .mma _ _ _ _ _ x | .mmaSet _ _ _ _ _ x | .mdrain _ _ _ _ _ x | .mdrainRaw _ _ _ x | .mread _ _ _ _ _ x
  | .spawn _ _ x | .rpush _ x | .rpushRing _ _ _ x | .rpop _ _ x | .rpopRing _ _ _ x | .reos x | .reosRing _ _ x
  | .pbind _ _ x | .punbind _ x | .pquery _ _ _ x | .creduce _ _ _ _ x | .cbcast _ _ _ x | .cmembOpen _ _ _ _ x
  | .cmembQuery _ _ _ _ x | .cmembClose _ _ _ _ x | .launch _ _ x | .assign _ _ x => x.guard
  | _ => always

/-- The engine class of R36, 7 for a step that is no program word. -/
def cls : Instr → Nat
  | .ld _ _ _ _ _ _ _ _ | .st _ _ _ _ _ _ _ _ | .ldc _ _ _ _ _ | .pf _ _ _ _ | .cflush _ _ _ | .cinval _ _ _
  | .ckeep _ _ _ _ _ | .cunkeep _ _ | .binit _ _ _ _ | .barrive _ _ _ _ | .bwait _ _ _ _ | .btest _ _ _ _
  | .bexpect _ _ _ _ | .bsync _ => 1
  | .atom _ _ _ _ _ _ _ _ _ | .atomx _ _ _ _ _ _ _ _ | .red _ _ _ _ _ _ _ _ | .fence _ _ _ _ | .fwait _ _
  | .fpoll _ _ _ => 2
  | .xcopy _ _ _ _ _ _ | .xgather _ _ _ _ _ _ | .xscatter _ _ _ _ _ _ | .xmcast _ _ _ _ _ | .xfill _ _ _ _ _ _
  | .macq _ _ | .mrel _ _ | .mzero _ _ | .mload _ _ _ _ _ | .mloadRaw _ _ _ _ | .mma _ _ _ _ _ _ | .mmaSet _ _ _ _ _ _
  | .mdrain _ _ _ _ _ _ | .mdrainRaw _ _ _ _ | .mread _ _ _ _ _ _ | .mcommit _ _ | .mwait _ _ | .mprog _ _
  | .mbtake _ | .mbpass _ | .creduce _ _ _ _ _ | .cbcast _ _ _ _ | .cmembOpen _ _ _ _ _ | .cmembQuery _ _ _ _ _
  | .cmembClose _ _ _ _ _ => 3
  | .bra _ _ | .brc _ _ _ _ | .brx _ _ | .call _ _ _ | .callx _ _ | .ret _ _ | .exit _ | .yield _ | .nop _ | .jenter _ _
  | .jquit _ _ | .jwait _ _ | .jread _ _ _ | .jwrite _ _ _ | .jclear _ _ => 4
  | .sread _ _ _ _ | .swrite _ _ _ _ | .trap _ _ _ | .rte _ | .resumeRetry _ _ | .resumeDeliver _ _ | .resumeEnd _ _
  | .preemptSliceEnd _ _ | .preemptAdaptive _ _ | .preemptSave _ _ | .preemptRestore _ _ | .tlbinvPage _ _ _
  | .tlbinvCtx _ _ | .tlbinvAll _ | .launch _ _ _ | .halt _ _ | .assign _ _ _ | .kzero _ _ | .lstart _ _
  | .lqerrRead _ _ _ | .ecccntRead _ _ _ | .lqtailDoorbell _ _ _ => 5
  | .spawn _ _ _ | .rpush _ _ | .rpushRing _ _ _ _ | .rpop _ _ _ | .rpopRing _ _ _ _ | .reos _ | .reosRing _ _ _
  | .pbind _ _ _ | .punbind _ _ | .pquery _ _ _ _ | .migr _ _ _ => 6
  | .issueSelect _ _ _ | .frontierCheck _ | .watchdogExpiry _ | .tableWalk _ _ | .postedFault _ | .msixVectorFire _ _
  | .sliceQueueService _ _ | .serviceWarpCycle _ _ | .holdBoundExpiry _ _ | .bounceTokenReturn _ | .reissue _
  | .loadReply _ _ | .writeAck _ | .atomicReply _ _ | .promotionProbe _ | .promotionAnswer _ | .drainProbe _ _ _ _
  | .tier2WritebackAccept _ | .copyCommandStart _ | .copyLineClaim _ _ | .copyUnitDone _ _ _ | .copyCommandComplete _ _
  | .engineLineRelease _ _ _ | .multicastDelivery _ _ | .matrixCommandStart _ | .matrixBandEnd _ | .matrixCommandFinish _
  | .launchDispatch _ | .blockPlacement _ _ _ | .placementHoldExpiry _ | .gangHoldExpiry _ | .blockRetire _
  | .launchComplete _ | .launchSignal _ | .taskRingRefill _ _ _ | .waveStart _ _ _ _ | .taskBalance _ _ | .graceExpiry _
  | .drainBudgetExpiry _ _ | .barrierStopSave _ _ | .blockFlush _ _ | .blockSave _ _ | .preemptSignal _
  | .restorePlacement _ _ _ | .sliceExpiry _ | .sliceSecondDescriptor _ | .ringClaim _ | .elementPublish _ _
  | .consumerSpill _ | .ringRelease _ | .migrLanding _ _ _ | .migrSlotTimeout _ | .collectiveComplete _
  | .collectiveMemberTimeout _ _ | .shadowCompare _ _ | .blockMoveLines _ | .movectlStart _ _ | .movectlEnd _
  | .alarmLockWrite | .alarmEraseWrite | .alarmLogEvent | .alarmLockEvent | .alarmEraseEvent | .powerSample _ _
  | .thermalTrip | .powerOn _ | .coldReset _ | .warmReset _ | .hbmTrainingDone | .lpddrTrainingDone | .lustrationUnit _
  | .functionLevelReset _ | .functionLevelResetDone _ | .hostBindingChange _ _ | .hostPostedWrite _ _ _ _
  | .inboundWriteAck _ | .hostNonpostedRead _ _ _ _ | .hostAtomicop _ _ _ _ _ _ _ | .cxlMemRequest _ _ _
  | .hostBackInvalidation _ | .fabricInboundRequest _ _ _ _ | .fabricPortDown _ | .fabricPortUp _ | .peerResponse _ _
  | .hostPortCompletion _ _ | .collectiveMessage _ _ _ | .msixVectorUnmask _ _ | .spdmGetVersion _ | .spdmGetCapabilities _
  | .spdmNegotiateAlgorithms _ | .spdmGetDigests _ | .spdmGetCertificate _ | .spdmChallenge _ | .spdmGetMeasurements _ _
  | .spdmKeyExchange _ | .spdmFinish _ => 7
  | _ => 0

/-- A step that a program word stands for. -/
def isWord (i : Instr) : Bool := cls i != 7

/-- The control transfers of R36. -/
def isTransfer : Instr → Bool
  | .bra _ _ | .brc _ _ _ _ | .brx _ _ | .call _ _ _ | .callx _ _ | .ret _ _ | .exit _ | .rte _ => true
  | _ => false

def isNop : Instr → Bool
  | .nop _ => true
  | _ => false

/-- R49: the word runs once per warp when its destination and every register source are `s` registers; `sel` never (R151). The votes, whose
only source is a predicate, run once where their destination is an `s` register (DEDUCED, log 126). -/
def uniform (w64 : Bool) (i : Instr) : Bool :=
  match i with
  | .sel _ _ _ _ _ _ _ => false
  | i => (uses w64 i).all fun u => Reg.isS u.reg

/-! ### The encoding rules of R64 that the typed form can break -/

def intTys : List Ty := [.i32, .n32, .i64, .n64, .i16, .n16, .i8, .n8]
def movTys : List Ty := [.n32, .i32, .f32, .n64, .i64, .f64]
def wTys : List Ty := [.i32, .n32, .i64, .n64]
def nTys : List Ty := [.n32, .n64]
def cvtTys : List Ty := intTys ++ [.f32, .f16, .bf16, .f64]

def need (ok : Bool) (code : Nat) : List Nat := if ok then [] else [code]

/-- Float types of an instruction's row and whether `.ftz` is accepted there on F32 (R117, R154). -/
def floatOk (ts : List FTy) (ftzRow : Bool) (t : FTy) (ftz : Bool) : Bool :=
  ts.contains t && (!ftz || (ftzRow && t == .f32))

/-- Type rules, code 7 (R53, R143 to R169). -/
def typeCodes : Instr → List Nat
  | .iadd t _ _ _ _ | .isub t _ _ _ _ | .imul t _ _ _ _ | .imad t _ _ _ _ _ | .imin t _ _ _ _ | .imax t _ _ _ _
  | .icmp _ t _ _ _ _ => need (intTys.contains t) 7
  | .imulh t _ _ _ _ | .shl t _ _ _ _ | .bfx t _ _ _ _ _ | .voteEq t _ _ _ => need (wTys.contains t) 7
  | .imadw t _ _ _ _ _ | .isad t _ _ _ _ _ | .lea t _ _ _ _ _ => need (t == .i32 || t == .n32) 7
  | .iaddc t _ _ _ _ _ => need (t == .n32) 7
  | .iabs t _ _ _ | .ineg t _ _ _ => need (t == .i32 || t == .i8 || t == .i16 || t == .i64) 7
  | .sar t _ _ _ _ => need (t == .i32 || t == .i64) 7
  | .shr t _ _ _ _ | .rot t _ _ _ _ | .bfi t _ _ _ _ _ | .popc t _ _ _ | .clz t _ _ _ | .ctz t _ _ _ | .brev t _ _ _
  | .lanes _ t _ _ | .voteBallot t _ _ _ => need (nTys.contains t) 7
  | .sel t _ _ _ _ _ _ | .mov t _ _ _ | .shfl _ t _ _ _ _ _ => need (movTys.contains t) 7
  | .scan o t _ _ _ | .redux o t _ _ _ => need (wTys.contains t || (t == .f32 && o != .or)) 7
  | .cvt dt st _ _ _ => need (cvtTys.contains dt && cvtTys.contains st) 7
  | .pack2 t _ _ _ _ => need (t == .f16 || t == .bf16) 7
  | .fadd t z _ _ _ _ _ | .fsub t z _ _ _ _ _ | .fmul t z _ _ _ _ _ | .ffma t z _ _ _ _ _ _ | .fcmp _ t z _ _ _ _ =>
    need (floatOk [.f32, .f16, .bf16] true t z) 7
  | .fmin t z _ _ _ _ | .fmax t z _ _ _ _ => need (floatOk [.f32, .f16, .bf16, .f64] true t z) 7
  | .hadd2 t _ _ _ _ _ | .hmul2 t _ _ _ _ _ | .hfma2 t _ _ _ _ _ _ => need (t == .f16 || t == .bf16) 7
  | _ => []

/-- Scope, order and hint rules, codes 7 and 8 (R55, R87, R198, R223). -/
def orderCodes : Instr → List Nat
  | .ld _ _ _ _ sc o _ _ =>
    need (o == .rlx || o == .acq) 7 ++ need (sc != .rmt || o == .acq || o == .acqrel) 8
  | .st _ _ _ _ sc o _ _ =>
    need (o == .rlx || o == .rel) 7 ++ need (sc != .rmt) (if o == .acq || o == .acqrel then 7 else 8)
  | .pf _ _ h _ => need (h != .nc) 7
  | .atom op w _ _ _ sc o h _ | .red op w _ _ sc o h _ =>
    need (if op == .fadd then w == .w32 || w == .bf2 else w == .w32 || w == .w64) 7 ++ need (h != .stream) 7 ++
      need (sc != .rmt || o == .acq || o == .acqrel) 8
  | .atomx w _ _ _ sc o h _ =>
    need (w != .bf2) 7 ++ need (h != .stream) 7 ++ need (sc != .rmt || o == .acq || o == .acqrel) 8
  | .fence _ o sc _ => need (o != .rlx) 7 ++ need (sc != .rmt || o == .acq || o == .acqrel) 8
  | _ => []

/-- Operands that must be `s` registers, with the code of a `v` register there: 15 for `ckeep` and `cunkeep` (R93), 7 for
the others (R173, R261, R310, R331, R364, R369, R396). -/
def sOnlyCodes : Instr → List Nat
  | .ckeep k b l w _ => need (Reg.isS k && Reg.isS b && Reg.isS l && Reg.isS w) 15
  | .cunkeep k _ => need (Reg.isS k) 15
  | .jwrite _ a _ | .mwait a _ | .mcommit a _ | .mprog a _ | .punbind a _ | .migr _ a _ | .resumeRetry a _
  | .resumeDeliver a _ | .resumeEnd a _ | .preemptSliceEnd a _ | .preemptAdaptive a _ | .preemptSave a _
  | .preemptRestore a _ | .tlbinvCtx a _ | .halt a _ | .kzero a _ | .lstart a _ => need (Reg.isS a) 7
  | .pbind d p _ => need (Reg.isS d && Reg.isS p) 7
  | .pquery d h q _ => need (Reg.isS d && Reg.isS h && Reg.isS q) 7
  | .creduce s q c h _ => need (Reg.isS s && Reg.isS q && Reg.isS c && Reg.isS h) 7
  | .cbcast q c h _ => need (Reg.isS q && Reg.isS c && Reg.isS h) 7
  | .cmembOpen d p o h _ | .cmembQuery d p o h _ | .cmembClose d p o h _ =>
    need (Reg.isS d && Reg.isS p && Reg.isS o && Reg.isS h) 7
  | .tlbinvPage c a _ => need (Reg.isS c && Reg.isS a) 7
  | .assign d r _ => need (Reg.isS d && Reg.isS r) 7
  | _ => []

/-- Width of a special register, `none` for an unassigned selector (R332, R358, R361, R363, R375 to R385, R390, R393,
R405). `true` is 64 bits. -/
def selWide (sel : Nat) : Option Bool :=
  if sel ≤ 0xE then some false
  else if sel == 0x10 || sel == 0x11 then some true
  else if 0x18 ≤ sel && sel ≤ 0x1B then some false
  else if sel == 0x1C then some true
  else if sel == 0x20 || sel == 0x21 || (0x24 ≤ sel && sel ≤ 0x28) || sel == 0x30 then some false
  else if sel == 0x31 then some true
  else if sel == 0x10000 || sel == 0x10003 || sel == 0x10004 || sel == 0x10006 || sel == 0x10008 || sel == 0x10009 then
    some false
  else if sel == 0x10001 || sel == 0x10002 || sel == 0x10005 || sel == 0x10007 then some true
  else if 0x20000 ≤ sel && sel ≤ 0x20006 then some false
  else if 0x30000 ≤ sel && sel < 0x30800 then
    if sel % 8 == 0 || sel % 8 == 1 || sel % 8 == 4 then some true
    else if sel % 8 == 2 || sel % 8 == 3 then some false else none
  else if 0x40000 ≤ sel && sel < 0x40100 then (if sel % 4 < 3 then some true else none)
  else if (0x50000 ≤ sel && sel < 0x50004) || (0x50100 ≤ sel && sel < 0x50104) || (0x51000 ≤ sel && sel < 0x52000) then
    some true
  else if (0x60000 ≤ sel && sel < 0x60020) || (0x60100 ≤ sel && sel < 0x60140) then some true
  else if sel == 0x60300 then some false
  else if 0x60301 ≤ sel && sel ≤ 0x60303 then some true
  else if 0x60400 ≤ sel && sel < 0x60404 then some true
  else if 0x61000 ≤ sel && sel < 0x62000 then some false
  else if (0x62000 ≤ sel && sel < 0x62004) || sel == 0x70000 || (0x70100 ≤ sel && sel < 0x70200) || sel == 0x70200 then
    some true
  else none

/-- Selector rules, code 7 (R331): an unassigned selector, or a variant that disagrees with its width. -/
def selCodes : Instr → List Nat
  | .sread sel w _ _ | .swrite sel w _ _ => need (selWide sel.toNat == some w) 7
  | _ => []

/-- Code 13: a C-format offset that is not a multiple of 8 (R47). -/
def offsetCodes : Instr → List Nat
  | .bra o _ | .brc _ _ o _ | .call _ o _ => need (o.toNat % 8 == 0) 13
  | _ => []

/-- Code 14: an instruction that returns a register through a counter names one (R61, R87, R198, R310, R369, R396). -/
def counterCodes : Instr → List Nat
  | .ld _ _ _ _ _ _ _ x | .ldc _ _ _ _ x | .barrive _ _ _ x | .btest _ _ _ x | .atom _ _ _ _ _ _ _ _ x
  | .atomx _ _ _ _ _ _ _ x | .mread _ _ _ _ _ x | .rpop _ _ x | .rpopRing _ _ _ x | .pbind _ _ x | .pquery _ _ _ x
  | .creduce _ _ _ _ x | .cmembOpen _ _ _ _ x | .cmembQuery _ _ _ _ x | .cmembClose _ _ _ _ x | .launch _ _ x
  | .assign _ _ x => need x.ctr.isSome 14
  | _ => []

/-- Instructions whose chapter defines a uniform result for them in the per-lane form: a reduction, a ballot, the lane
reports, `jread` and the links (R165, R263, R269). -/
def uniformResult : Instr → Bool
  | .voteBallot _ _ _ _ | .redux _ _ _ _ _ | .jread _ _ _ | .call _ _ _ | .callx _ _ => true
  | .lanes m _ _ _ => m != .rank
  | _ => false

/-- `scan`, `sel` and `lanes.rank` require a `v` destination whatever their sources (R151, R168, R169). -/
def needsV : Instr → Bool
  | .scan _ _ _ _ _ | .sel _ _ _ _ _ _ _ => true
  | .lanes m _ _ _ => m == .rank
  | _ => false

/-- Code 15: an `s` destination other than `s0` in a word that runs per lane (R49). -/
def uniformCodes (w64 : Bool) (i : Instr) : List Nat :=
  if (uses w64 i).any (fun u => u.dst && Reg.isS u.reg && !Reg.isS0 u.reg) then
    need (uniformResult i || (uniform w64 i && !needsV i)) 15
  else []

/-- Code 12: a group that begins at an index its size does not allow (R48, R173, R199). -/
def pairCodes (w64 : Bool) (i : Instr) : List Nat :=
  need ((uses w64 i).all fun u => u.align == 0 || Reg.index u.reg % u.align == 0) 12

/-- Every rule of R64 that can be judged from the word alone. -/
def staticCodes (i : Instr) : List Nat :=
  typeCodes i ++ orderCodes i ++ selCodes i ++ sOnlyCodes i ++ offsetCodes i ++ counterCodes i ++ pairCodes false i ++
    uniformCodes false i

/-- The launch's facts that the other rules of R64 need. -/
structure Limits where
  width  : Nat
  vcount : Nat
  scount : Nat
  tiles  : Nat
  deriving DecidableEq, Repr

/-- Code 11: a register at or beyond the launch's count (R48, R199). -/
def rangeCodes (l : Limits) (i : Instr) : List Nat :=
  need ((uses (l.width == 64) i).all fun u =>
    Reg.index u.reg + u.n ≤ (if Reg.isS u.reg then l.scount else l.vcount)) 11

def tileOf : Instr → Option Nat
  | .macq t _ | .mrel t _ | .mzero t _ | .mload t _ _ _ _ | .mloadRaw t _ _ _ | .mma t _ _ _ _ _ | .mmaSet t _ _ _ _ _
  | .mdrain t _ _ _ _ _ | .mdrainRaw t _ _ _ | .mread _ t _ _ _ _ => some t.val
  | _ => none

/-- The rules that depend on the launch: register and tile ranges (codes 11), a mask of 64 lanes in one register (code 7,
R167, R169), pairs that exist only at width 64 (codes 12 and 15, R269). -/
def launchCodes (l : Limits) (i : Instr) : List Nat :=
  rangeCodes l i ++
    (match tileOf i with
      | some t => need (t < l.tiles) 11
      | none => []) ++
    (if l.width == 64 then
      (match i with
        | .voteBallot t _ _ _ => need (t == .n64) 7
        | .lanes m t _ _ => need (m != .mask || t == .n64) 7
        | _ => []) ++ pairCodes true i ++ uniformCodes true i
     else [])

/-- The lowest of a list of codes (R65). -/
def lowest : List Nat → Option Nat
  | [] => none
  | c :: cs =>
    match lowest cs with
    | none => some c
    | some d => some (min c d)

end Sys2Proof.Forms
end

