-- ==== Sys2Proof/WellFormed.lean ====
section
/-! DEFINITION. A well-formed step: a program word that breaks no rule of R64 judged from the word alone. -/

namespace Sys2Proof

/-- Rows that share their word with another row and are told apart when the word issues (R342, R370), or that stand for one
selector of `sread` and `swrite`: the word decodes to the named row. -/
def Instr.canonical : Instr → Bool
  | .preemptAdaptive _ _ | .preemptSave _ _ | .preemptRestore _ _ | .cmembQuery _ _ _ _ _ | .cmembClose _ _ _ _ _ => false
  | .sread r _ _ _ => !(0x30000 ≤ r.toNat && r.toNat < 0x30800 && r.toNat % 8 == 4) &&
      !(0x62000 ≤ r.toNat && r.toNat < 0x62004)
  | .swrite r _ _ _ => !(0x30000 ≤ r.toNat && r.toNat < 0x30800 && r.toNat % 8 == 2)
  | i => Forms.isWord i

/-- A program word that an assembler can write (R28): every rule of R64 that the word alone decides holds. -/
def Instr.wellFormed (i : Instr) : Bool :=
  Forms.isWord i && (Forms.staticCodes i).isEmpty

end Sys2Proof
end

