-- ==== Sys2Proof/Decode.lean ====
section
/-! DEFINITION. The words of R42, R47 to R56 and R63: the seven formats, the decoder, which reports the lowest code of R64
(R65), and the encoder. -/

namespace Sys2Proof.Decode

open Forms

/-! ### The seven formats (R47), each a partition of the 64 bits -/

structure VF where
  op : Nat
  dst : Nat
  a : Nat
  b : Nat
  c : Nat
  var : Nat
  pred : Nat
  hold : Nat
  ext : Nat
  stall : Nat
  deriving DecidableEq, Repr

def vOf (n : Nat) : VF :=
  ⟨n / 2 ^ 56 % 256, n / 2 ^ 46 % 1024, n / 2 ^ 36 % 1024, n / 2 ^ 26 % 1024, n / 2 ^ 16 % 1024, n / 2 ^ 12 % 16,
    n / 2 ^ 8 % 16, n / 2 ^ 6 % 4, n / 2 ^ 4 % 4, n % 16⟩

def vWord (f : VF) : Nat :=
  f.op * 2 ^ 56 + f.dst * 2 ^ 46 + f.a * 2 ^ 36 + f.b * 2 ^ 26 + f.c * 2 ^ 16 + f.var * 2 ^ 12 + f.pred * 2 ^ 8 +
    f.hold * 2 ^ 6 + f.ext * 2 ^ 4 + f.stall

structure IF where
  op : Nat
  dst : Nat
  a : Nat
  imm : Nat
  stall : Nat
  deriving DecidableEq, Repr

def iOf (n : Nat) : IF :=
  ⟨n / 2 ^ 56 % 256, n / 2 ^ 46 % 1024, n / 2 ^ 36 % 1024, n / 2 ^ 4 % 2 ^ 32, n % 16⟩

def iWord (f : IF) : Nat := f.op * 2 ^ 56 + f.dst * 2 ^ 46 + f.a * 2 ^ 36 + f.imm * 2 ^ 4 + f.stall

structure MF where
  op : Nat
  data : Nat
  addr : Nat
  off : Nat
  ty : Nat
  scope : Nat
  order : Nat
  hint : Nat
  pred : Nat
  ctr : Nat
  stall : Nat
  deriving DecidableEq, Repr

def mOf (n : Nat) : MF :=
  ⟨n / 2 ^ 56 % 256, n / 2 ^ 46 % 1024, n / 2 ^ 36 % 1024, n / 2 ^ 24 % 4096, n / 2 ^ 20 % 16, n / 2 ^ 17 % 8,
    n / 2 ^ 15 % 4, n / 2 ^ 12 % 8, n / 2 ^ 8 % 16, n / 2 ^ 4 % 16, n % 16⟩

def mWord (f : MF) : Nat :=
  f.op * 2 ^ 56 + f.data * 2 ^ 46 + f.addr * 2 ^ 36 + f.off * 2 ^ 24 + f.ty * 2 ^ 20 + f.scope * 2 ^ 17 +
    f.order * 2 ^ 15 + f.hint * 2 ^ 12 + f.pred * 2 ^ 8 + f.ctr * 2 ^ 4 + f.stall

structure AF where
  op : Nat
  dst : Nat
  addr : Nat
  data : Nat
  aop : Nat
  width : Nat
  scope : Nat
  order : Nat
  hint : Nat
  pred : Nat
  ctr : Nat
  stall : Nat
  deriving DecidableEq, Repr

def aOf (n : Nat) : AF :=
  ⟨n / 2 ^ 56 % 256, n / 2 ^ 46 % 1024, n / 2 ^ 36 % 1024, n / 2 ^ 26 % 1024, n / 2 ^ 22 % 16, n / 2 ^ 20 % 4,
    n / 2 ^ 17 % 8, n / 2 ^ 15 % 4, n / 2 ^ 12 % 8, n / 2 ^ 8 % 16, n / 2 ^ 4 % 16, n % 16⟩

def aWord (f : AF) : Nat :=
  f.op * 2 ^ 56 + f.dst * 2 ^ 46 + f.addr * 2 ^ 36 + f.data * 2 ^ 26 + f.aop * 2 ^ 22 + f.width * 2 ^ 20 +
    f.scope * 2 ^ 17 + f.order * 2 ^ 15 + f.hint * 2 ^ 12 + f.pred * 2 ^ 8 + f.ctr * 2 ^ 4 + f.stall

structure XF where
  op : Nat
  a : Nat
  b : Nat
  c : Nat
  d : Nat
  slot : Nat
  sub : Nat
  pred : Nat
  ctr : Nat
  stall : Nat
  deriving DecidableEq, Repr

def xOf (n : Nat) : XF :=
  ⟨n / 2 ^ 56 % 256, n / 2 ^ 46 % 1024, n / 2 ^ 36 % 1024, n / 2 ^ 26 % 1024, n / 2 ^ 16 % 1024, n / 2 ^ 13 % 8,
    n / 2 ^ 12 % 2, n / 2 ^ 8 % 16, n / 2 ^ 4 % 16, n % 16⟩

def xWord (f : XF) : Nat :=
  f.op * 2 ^ 56 + f.a * 2 ^ 46 + f.b * 2 ^ 36 + f.c * 2 ^ 26 + f.d * 2 ^ 16 + f.slot * 2 ^ 13 + f.sub * 2 ^ 12 +
    f.pred * 2 ^ 8 + f.ctr * 2 ^ 4 + f.stall

structure CF where
  op : Nat
  reg : Nat
  off : Nat
  kind : Nat
  pred : Nat
  rej : Nat
  stall : Nat
  deriving DecidableEq, Repr

def cOf (n : Nat) : CF :=
  ⟨n / 2 ^ 56 % 256, n / 2 ^ 46 % 1024, n / 2 ^ 14 % 2 ^ 32, n / 2 ^ 12 % 4, n / 2 ^ 8 % 16, n / 2 ^ 4 % 16, n % 16⟩

def cWord (f : CF) : Nat :=
  f.op * 2 ^ 56 + f.reg * 2 ^ 46 + f.off * 2 ^ 14 + f.kind * 2 ^ 12 + f.pred * 2 ^ 8 + f.rej * 2 ^ 4 + f.stall

structure SF where
  op : Nat
  dst : Nat
  a : Nat
  sel : Nat
  var : Nat
  pred : Nat
  low : Nat
  stall : Nat
  deriving DecidableEq, Repr

/-- Hold and extension are one field of four bits here: each S word has them zero, but for the counter of `launch` and
`assign` in their place (R331, R396). -/
def sOf (n : Nat) : SF :=
  ⟨n / 2 ^ 56 % 256, n / 2 ^ 46 % 1024, n / 2 ^ 36 % 1024, n / 2 ^ 16 % 2 ^ 20, n / 2 ^ 12 % 16, n / 2 ^ 8 % 16,
    n / 2 ^ 4 % 16, n % 16⟩

def sWord (f : SF) : Nat :=
  f.op * 2 ^ 56 + f.dst * 2 ^ 46 + f.a * 2 ^ 36 + f.sel * 2 ^ 16 + f.var * 2 ^ 12 + f.pred * 2 ^ 8 + f.low * 2 ^ 4 +
    f.stall

/-! ### Codes of the fields, both ways -/

/-- R48: class bit 9, index [8:0]. -/
def regCode : Reg → Nat
  | .v i => i.val
  | .s i => 512 + i.val

def regOf (n : Nat) : Reg := if n < 512 then .v (Fin.ofNat 512 n) else .s (Fin.ofNat 512 n)

/-- The field value of `s0`. -/
def s0Code : Nat := 512

def guardCode (g : Guard) : Nat := (if g.neg then 8 else 0) + g.q.val
def guardOf (n : Nat) : Guard := ⟨n / 8 == 1, Fin.ofNat 8 n⟩

def ctrCode : Option (Fin 8) → Nat
  | none => 0
  | some d => 8 + d.val
/-- Bit 3 enables; with it clear the index means nothing (log 7). -/
def ctrOf (n : Nat) : Option (Fin 8) := if n / 8 == 1 then some (Fin.ofNat 8 n) else none

/-- Type codes (R53). -/
def tyCode : Ty → Nat
  | .i32 => 0 | .n32 => 1 | .i64 => 2 | .n64 => 3 | .i16 => 4 | .n16 => 5 | .i8 => 6 | .n8 => 7
  | .f32 => 8 | .f16 => 9 | .bf16 => 10 | .f64 => 11 | .t5 => 12
def tyOf : Nat → Ty
  | 0 => .i32 | 1 => .n32 | 2 => .i64 | 3 => .n64 | 4 => .i16 | 5 => .n16 | 6 => .i8 | 7 => .n8
  | 8 => .f32 | 9 => .f16 | 10 => .bf16 | 11 => .f64 | _ => .t5

def ftyCode : FTy → Nat
  | .f32 => 0 | .f16 => 1 | .bf16 => 2 | .f64 => 3
def ftyOf : Nat → FTy
  | 0 => .f32 | 1 => .f16 | 2 => .bf16 | _ => .f64

/-- Size-and-type codes (R54). -/
def mtyCode : MTy → Nat
  | .n8 => 0 | .i8 => 1 | .n16 => 2 | .i16 => 3 | .n32 => 4 | .i32 => 5 | .n64 => 6 | .i64 => 7
  | .f16 => 8 | .bf16 => 9 | .f32 => 10 | .f64 => 11
def mtyOf : Nat → MTy
  | 0 => .n8 | 1 => .i8 | 2 => .n16 | 3 => .i16 | 4 => .n32 | 5 => .i32 | 6 => .n64 | 7 => .i64
  | 8 => .f16 | 9 => .bf16 | 10 => .f32 | _ => .f64

def rndCode : Rnd → Nat
  | .rn => 0 | .rz => 1 | .rd => 2 | .ru => 3
def rndOf : Nat → Rnd
  | 0 => .rn | 1 => .rz | 2 => .rd | _ => .ru

/-- Comparisons (R52). -/
def cmpCode : Cmp → Nat
  | .eq => 0 | .ne => 1 | .lt => 2 | .le => 3 | .gt => 4 | .ge => 5
def cmpOf : Nat → Cmp
  | 0 => .eq | 1 => .ne | 2 => .lt | 3 => .le | 4 => .gt | _ => .ge

/-- Scopes, orders and hints (R55). -/
def scopeCode : Scope → Nat
  | .core => 0 | .die => 1 | .dev => 2 | .sys => 3 | .rmt => 4
def scopeOf : Nat → Scope
  | 0 => .core | 1 => .die | 2 => .dev | 3 => .sys | _ => .rmt

def orderCode : Order → Nat
  | .rlx => 0 | .acq => 1 | .rel => 2 | .acqrel => 3
def orderOf : Nat → Order
  | 0 => .rlx | 1 => .acq | 2 => .rel | _ => .acqrel

def hintCode : Hint → Nat
  | .normal => 0 | .ef => 1 | .keep => 2 | .stream => 3 | .nc => 4
def hintOf : Nat → Hint
  | 0 => .normal | 1 => .ef | 2 => .keep | 3 => .stream | _ => .nc

/-- Atomic operations and widths (R56). -/
def aopCode : AtomOp → Nat
  | .add => 0 | .minS => 1 | .minU => 2 | .maxS => 3 | .maxU => 4 | .and => 5 | .or => 6 | .xor => 7
  | .xchg => 8 | .fadd => 9 | .inc => 10 | .dec => 11
def aopOf : Nat → AtomOp
  | 0 => .add | 1 => .minS | 2 => .minU | 3 => .maxS | 4 => .maxU | 5 => .and | 6 => .or | 7 => .xor
  | 8 => .xchg | 9 => .fadd | 10 => .inc | _ => .dec

def widthCode : AWidth → Nat
  | .w32 => 0 | .w64 => 1 | .w128 => 2 | .bf2 => 3
def widthOf : Nat → AWidth
  | 0 => .w32 | 1 => .w64 | 2 => .w128 | _ => .bf2

/-- Modes of the lane group (R165). -/
def shflCode : ShflMode → Nat
  | .abs => 0 | .add => 1 | .wrap => 2 | .flip => 3
def shflOf : Nat → ShflMode
  | 0 => .abs | 1 => .add | 2 => .wrap | _ => .flip

def scanCode : ScanOp → Nat
  | .add => 0 | .min => 1 | .max => 2 | .or => 3
def scanOf : Nat → ScanOp
  | 0 => .add | 1 => .min | 2 => .max | _ => .or

def lanesCode : LanesMode → Nat
  | .mask => 0 | .count => 1 | .rank => 2 | .first => 3
def lanesOf : Nat → LanesMode
  | 0 => .mask | 1 => .count | 2 => .rank | _ => .first

/-- Conditions of `brc` (R262). -/
def condCode : BrCond → Nat
  | .nz => 0 | .z => 1 | .lt => 2 | .ge => 3
def condOf : Nat → BrCond
  | 0 => .nz | 1 => .z | 2 => .lt | _ => .ge

def bit (b : Bool) : Nat := if b then 1 else 0

/-! ### Decoding: the codes that the bare fields break, and the word they make -/

/-- A field that must be zero (code 6). -/
def z (n : Nat) : List Nat := need (n == 0) 6
/-- A register index of 0 to 7 in the low bits of a field (R48). -/
def low3 (n : Nat) : List Nat := need (n < 8) 6

def vTail (f : VF) : VTail := ⟨guardOf f.pred, Fin.ofNat 4 f.hold, Fin.ofNat 16 f.stall⟩
def sTail (f : SF) : Tail := ⟨guardOf f.pred, Fin.ofNat 16 f.stall⟩
def cTail (f : CF) : Tail := ⟨guardOf f.pred, Fin.ofNat 16 f.stall⟩
def mTail (f : MF) : CTail := ⟨guardOf f.pred, ctrOf f.ctr, Fin.ofNat 16 f.stall⟩
def aTail (f : AF) : CTail := ⟨guardOf f.pred, ctrOf f.ctr, Fin.ofNat 16 f.stall⟩
def xTail (f : XF) : CTail := ⟨guardOf f.pred, ctrOf f.ctr, Fin.ofNat 16 f.stall⟩
def xBare (f : XF) : Tail := ⟨guardOf f.pred, Fin.ofNat 16 f.stall⟩
def aBare (f : AF) : Tail := ⟨guardOf f.pred, Fin.ofNat 16 f.stall⟩
def scTail (f : SF) : CTail := ⟨guardOf f.pred, ctrOf f.low, Fin.ofNat 16 f.stall⟩

abbrev Raw := List Nat × Instr

/-- A type code 0 to 12. -/
def tyOk (f : VF) : List Nat := need (f.var ≤ 12) 7
def ftyOk (f : VF) : List Nat := need (f.var % 8 ≤ 3) 7
def noFtz (f : VF) : List Nat := need (f.var < 8) 7

def int3 (k : Ty → Reg → Reg → Reg → VTail → Instr) (f : VF) : Raw :=
  (tyOk f ++ z f.c ++ z f.ext, k (tyOf f.var) (regOf f.dst) (regOf f.a) (regOf f.b) (vTail f))
def int4 (k : Ty → Reg → Reg → Reg → Reg → VTail → Instr) (f : VF) : Raw :=
  (tyOk f ++ z f.ext, k (tyOf f.var) (regOf f.dst) (regOf f.a) (regOf f.b) (regOf f.c) (vTail f))
def int2 (k : Ty → Reg → Reg → VTail → Instr) (f : VF) : Raw :=
  (tyOk f ++ z f.b ++ z f.c ++ z f.ext, k (tyOf f.var) (regOf f.dst) (regOf f.a) (vTail f))

def flt3 (k : FTy → Bool → Rnd → Reg → Reg → Reg → VTail → Instr) (f : VF) : Raw :=
  (ftyOk f ++ z f.c,
    k (ftyOf (f.var % 8)) (f.var / 8 == 1) (rndOf f.ext) (regOf f.dst) (regOf f.a) (regOf f.b) (vTail f))
def fltM (k : FTy → Bool → Reg → Reg → Reg → VTail → Instr) (f : VF) : Raw :=
  (ftyOk f ++ z f.c ++ z f.ext, k (ftyOf (f.var % 8)) (f.var / 8 == 1) (regOf f.dst) (regOf f.a) (regOf f.b) (vTail f))
def flt2 (k : FTy → Reg → Reg → VTail → Instr) (f : VF) : Raw :=
  (ftyOk f ++ noFtz f ++ z f.b ++ z f.c ++ z f.ext, k (ftyOf (f.var % 8)) (regOf f.dst) (regOf f.a) (vTail f))
def sfR (k : Bool → Rnd → Reg → Reg → VTail → Instr) (f : VF) : Raw :=
  (need (f.var % 8 == 0) 7 ++ z f.b ++ z f.c, k (f.var / 8 == 1) (rndOf f.ext) (regOf f.dst) (regOf f.a) (vTail f))
def sf (k : Bool → Reg → Reg → VTail → Instr) (f : VF) : Raw :=
  (need (f.var % 8 == 0) 7 ++ z f.b ++ z f.c ++ z f.ext, k (f.var / 8 == 1) (regOf f.dst) (regOf f.a) (vTail f))
def dbl3 (k : Rnd → Reg → Reg → Reg → VTail → Instr) (f : VF) : Raw :=
  (need (f.var == 3) 7 ++ z f.c, k (rndOf f.ext) (regOf f.dst) (regOf f.a) (regOf f.b) (vTail f))
def half3 (k : FTy → Rnd → Reg → Reg → Reg → VTail → Instr) (f : VF) : Raw :=
  (ftyOk f ++ noFtz f ++ z f.c,
    k (ftyOf (f.var % 8)) (rndOf f.ext) (regOf f.dst) (regOf f.a) (regOf f.b) (vTail f))

/-- Comparison and q index in the dst field (R52). -/
def cmpOk (f : VF) : List Nat := need (f.dst / 64 == 0) 6 ++ need (f.dst / 8 % 8 ≤ 5) 7 ++ z f.c ++ z f.ext
def cmpK (f : VF) : Cmp := cmpOf (f.dst / 8 % 8)
def cmpQ (f : VF) : Fin 8 := Fin.ofNat 8 f.dst

/-- 0x0C carries the operation in its variant and the width in its extension (R63). -/
def logic (f : VF) : Raw :=
  (need (f.var ≤ 4) 7 ++ need (f.ext ≤ 1) 7 ++ z f.c ++ (if f.var == 4 then z f.b else []),
    match f.var with
    | 0 => .land (f.ext == 1) (regOf f.dst) (regOf f.a) (regOf f.b) (vTail f)
    | 1 => .lor (f.ext == 1) (regOf f.dst) (regOf f.a) (regOf f.b) (vTail f)
    | 2 => .lxor (f.ext == 1) (regOf f.dst) (regOf f.a) (regOf f.b) (vTail f)
    | 3 => .landn (f.ext == 1) (regOf f.dst) (regOf f.a) (regOf f.b) (vTail f)
    | _ => .lnot (f.ext == 1) (regOf f.dst) (regOf f.a) (vTail f))

/-- `vote`: the predicates sit in the low bits of dst and b (R167). -/
def vote (f : VF) : Raw :=
  match f.ext with
  | 0 => (tyOk f ++ z f.a ++ low3 f.b ++ z f.c, .voteBallot (tyOf f.var) (regOf f.dst) (Fin.ofNat 8 f.b) (vTail f))
  | 1 => (need (f.var == 1) 7 ++ low3 f.dst ++ z f.a ++ low3 f.b ++ z f.c,
      .voteAny (Fin.ofNat 8 f.dst) (Fin.ofNat 8 f.b) (vTail f))
  | 2 => (need (f.var == 1) 7 ++ low3 f.dst ++ z f.a ++ low3 f.b ++ z f.c,
      .voteAll (Fin.ofNat 8 f.dst) (Fin.ofNat 8 f.b) (vTail f))
  | _ => (tyOk f ++ low3 f.dst ++ z f.b ++ z f.c, .voteEq (tyOf f.var) (Fin.ofNat 8 f.dst) (regOf f.a) (vTail f))

/-- The words of the V and I formats (R63). -/
def rawV (n : Nat) : Raw :=
  let f := vOf n
  match f.op with
  | 0x00 => int3 .iadd f | 0x01 => int3 .isub f | 0x02 => int3 .imul f | 0x03 => int3 .imulh f
  | 0x04 => int4 .imad f | 0x05 => int4 .imadw f | 0x06 => int4 .iaddc f | 0x07 => int3 .imin f
  | 0x08 => int3 .imax f | 0x09 => int2 .iabs f | 0x0A => int2 .ineg f | 0x0B => int4 .isad f
  | 0x0C => logic f
  | 0x0D => ([], .lsel (Fin.ofNat 16 f.var) (Fin.ofNat 16 (f.hold * 4 + f.ext)) (regOf f.dst) (regOf f.a) (regOf f.b)
      (regOf f.c) ⟨guardOf f.pred, Fin.ofNat 16 f.stall⟩)
  | 0x0E => int3 .shl f | 0x0F => int3 .shr f | 0x10 => int3 .sar f | 0x11 => int3 .rot f
  | 0x12 => int4 .bfx f | 0x13 => int4 .bfi f | 0x14 => int2 .popc f | 0x15 => int2 .clz f
  | 0x16 => int2 .ctz f | 0x17 => int2 .brev f | 0x18 => int4 .lea f
  | 0x19 => (tyOk f ++ cmpOk f, .icmp (cmpK f) (tyOf f.var) (cmpQ f) (regOf f.a) (regOf f.b) (vTail f))
  | 0x1A => (tyOk f ++ low3 f.c ++ need (f.ext < 2) 6,
      .sel (tyOf f.var) (regOf f.dst) (regOf f.a) (regOf f.b) (Fin.ofNat 8 f.c) (f.ext == 1) (vTail f))
  | 0x1B => int2 .mov f
  | 0x1C => (z (iOf n).a, .movi (regOf (iOf n).dst) (BitVec.ofNat 32 (iOf n).imm) (Fin.ofNat 16 f.stall))
  | 0x1D => ([], .movhi (regOf (iOf n).dst) (regOf (iOf n).a) (BitVec.ofNat 32 (iOf n).imm) (Fin.ofNat 16 f.stall))
  | 0x20 => flt3 .fadd f | 0x21 => flt3 .fsub f | 0x22 => flt3 .fmul f
  | 0x23 => (ftyOk f, .ffma (ftyOf (f.var % 8)) (f.var / 8 == 1) (rndOf f.ext) (regOf f.dst) (regOf f.a) (regOf f.b)
      (regOf f.c) (vTail f))
  | 0x24 => fltM .fmin f | 0x25 => fltM .fmax f | 0x26 => flt2 .fneg f | 0x27 => flt2 .fabs f
  | 0x28 => (ftyOk f ++ cmpOk f,
      .fcmp (cmpK f) (ftyOf (f.var % 8)) (f.var / 8 == 1) (cmpQ f) (regOf f.a) (regOf f.b) (vTail f))
  | 0x29 => flt2 .fclass f | 0x2A => sfR .frcp f | 0x2B => sf .frsq f | 0x2C => sfR .fsqrt f
  | 0x2D => sf .fexp2 f | 0x2E => sf .flog2 f | 0x2F => sf .fsin f | 0x30 => sf .fcos f
  | 0x31 => dbl3 .dadd f | 0x32 => dbl3 .dmul f
  | 0x33 => (need (f.var == 3) 7,
      .dfma (rndOf f.ext) (regOf f.dst) (regOf f.a) (regOf f.b) (regOf f.c) (vTail f))
  | 0x34 => (need (f.var == 3) 7 ++ cmpOk f, .dcmp (cmpK f) (cmpQ f) (regOf f.a) (regOf f.b) (vTail f))
  | 0x35 => half3 .hadd2 f | 0x36 => half3 .hmul2 f
  | 0x37 => (ftyOk f ++ noFtz f, .hfma2 (ftyOf (f.var % 8)) (rndOf f.ext) (regOf f.dst) (regOf f.a) (regOf f.b)
      (regOf f.c) (vTail f))
  | 0x40 => (tyOk f ++ need (f.c % 16 ≤ 12) 7 ++ need (f.c / 16 == 0) 6 ++ z f.b ++ z f.ext,
      .cvt (tyOf f.var) (tyOf (f.c % 16)) (regOf f.dst) (regOf f.a) (vTail f))
  | 0x41 => (z f.var ++ z f.ext ++ low3 f.c, .cvtq (Fin.ofNat 8 f.c) (regOf f.dst) (regOf f.a) (regOf f.b) (vTail f))
  | 0x42 => (z f.var ++ z f.ext ++ low3 f.c, .cvtd (Fin.ofNat 8 f.c) (regOf f.dst) (regOf f.a) (regOf f.b) (vTail f))
  | 0x43 => (need (f.var == 12) 7 ++ z f.b ++ z f.c ++ z f.ext, .trpack (regOf f.dst) (regOf f.a) (vTail f))
  | 0x44 => (need (f.var == 12) 7 ++ z f.b ++ z f.c ++ z f.ext, .trunpack (regOf f.dst) (regOf f.a) (vTail f))
  | 0x45 => int3 .pack2 f
  | 0x48 => (tyOk f,
      .shfl (shflOf f.ext) (tyOf f.var) (regOf f.dst) (regOf f.a) (regOf f.b) (regOf f.c) (vTail f))
  | 0x49 => vote f
  | 0x4A => (tyOk f ++ z f.b ++ z f.c, .scan (scanOf f.ext) (tyOf f.var) (regOf f.dst) (regOf f.a) (vTail f))
  | 0x4B => (tyOk f ++ z f.b ++ z f.c, .redux (scanOf f.ext) (tyOf f.var) (regOf f.dst) (regOf f.a) (vTail f))
  | 0x4C => (tyOk f ++ z f.a ++ z f.b ++ z f.c, .lanes (lanesOf f.ext) (tyOf f.var) (regOf f.dst) (vTail f))
  | _ => ([2], .nop ⟨always, 0⟩)

/-- Kind 0 (R261), an unused register, offset and rejoin index of a C word (R47). -/
def kind0 (f : CF) : List Nat := need (f.kind == 0) 7
def noRej (f : CF) : List Nat := need (f.rej < 12) 10 ++ need (f.rej == 0 || 12 ≤ f.rej) 6
def noOff (f : CF) : List Nat := z f.off ++ need (f.off % 8 == 0) 13
def rejOk (f : CF) : List Nat := need (f.rej < 12) 10
def rejOf (f : CF) : Fin 12 := Fin.ofNat 12 f.rej

/-- The words of the C format (R261). -/
def rawC (n : Nat) : Raw :=
  let f := cOf n
  let off := BitVec.ofNat 32 f.off
  match f.op with
  | 0x50 => (z f.reg ++ kind0 f ++ noRej f, .bra off (cTail f))
  | 0x51 => (noRej f, .brc (condOf f.kind) (regOf f.reg) off (cTail f))
  | 0x52 => (noOff f ++ kind0 f ++ noRej f, .brx (regOf f.reg) (cTail f))
  | 0x53 => (kind0 f ++ noRej f, .call (regOf f.reg) off (cTail f))
  | 0x54 => (noOff f ++ kind0 f ++ noRej f, .callx (regOf f.reg) (cTail f))
  | 0x55 => (noOff f ++ kind0 f ++ noRej f, .ret (regOf f.reg) (cTail f))
  | 0x56 => (z f.reg ++ noOff f ++ kind0 f ++ noRej f, .exit (cTail f))
  | 0x57 => (z f.reg ++ noOff f ++ kind0 f ++ noRej f, .yield (cTail f))
  | 0x58 => (z f.reg ++ noOff f ++ kind0 f ++ noRej f, .nop (cTail f))
  | 0x59 => (z f.reg ++ noOff f ++ kind0 f ++ rejOk f, .jenter (rejOf f) (cTail f))
  | 0x5A => (z f.reg ++ noOff f ++ kind0 f ++ rejOk f, .jquit (rejOf f) (cTail f))
  | 0x5B => (z f.reg ++ noOff f ++ kind0 f ++ rejOk f, .jwait (rejOf f) (cTail f))
  | 0x5C => (noOff f ++ kind0 f ++ rejOk f, .jread (regOf f.reg) (rejOf f) (cTail f))
  | 0x5D => (noOff f ++ kind0 f ++ rejOk f, .jwrite (rejOf f) (regOf f.reg) (cTail f))
  | 0x5E => (z f.reg ++ noOff f ++ kind0 f ++ rejOk f, .jclear (rejOf f) (cTail f))
  | _ => ([2], .nop ⟨always, 0⟩)

/-- Scope, order and hint values that no M or A word has (R55). -/
def sohOk (scope hint : Nat) : List Nat := need (scope ≤ 4) 8 ++ need (hint ≤ 4) 7
/-- A row of R87 that takes one scope, the order `rlx`, size 0 and the normal hint. -/
def mPlain (scope : Nat) (f : MF) : List Nat :=
  need (f.ty == 0) (if 12 ≤ f.ty then 9 else 7) ++ need (f.order == 0) 7 ++ need (f.hint == 0) 7 ++
    need (f.scope == scope || 4 < f.scope || (f.scope == 4 && f.order % 2 == 0)) 7 ++
    need (f.scope ≤ 4 && (f.scope != 4 || f.order % 2 == 1)) 8

/-- The words of the M format (R87). -/
def rawM (n : Nat) : Raw :=
  let f := mOf n
  let off := BitVec.ofNat 12 f.off
  match f.op with
  | 0x60 => (need (f.ty ≤ 11) 9 ++ sohOk f.scope f.hint, .ld (mtyOf f.ty) (regOf f.data) (regOf f.addr) off
      (scopeOf f.scope) (orderOf f.order) (hintOf f.hint) (mTail f))
  | 0x61 => (need (f.ty ≤ 11) 9 ++ sohOk f.scope f.hint, .st (mtyOf f.ty) (regOf f.data) (regOf f.addr) off
      (scopeOf f.scope) (orderOf f.order) (hintOf f.hint) (mTail f))
  | 0x62 => (need (f.ty ≤ 11) 9 ++ mPlain 2 { f with ty := 0 }, .ldc (mtyOf f.ty) (regOf f.data) (regOf f.addr) off (mTail f))
  | 0x63 => (z f.data ++ need (f.hint ≤ 4) 7 ++ mPlain 2 { f with hint := 0 }, .pf (regOf f.addr) off (hintOf f.hint) (mTail f))
  | 0x64 => (z f.data ++ mPlain 2 f, .cflush (regOf f.addr) off (mTail f))
  | 0x65 => (z f.data ++ mPlain 2 f, .cinval (regOf f.addr) off (mTail f))
  | 0x68 => (mPlain 0 f, .binit (regOf f.data) (regOf f.addr) off (mTail f))
  | 0x69 => (mPlain 0 f, .barrive (regOf f.data) (regOf f.addr) off (mTail f))
  | 0x6A => (mPlain 0 f, .bwait (regOf f.data) (regOf f.addr) off (mTail f))
  | 0x6B => (mPlain 0 f, .btest (regOf f.data) (regOf f.addr) off (mTail f))
  | 0x6C => (mPlain 0 f, .bexpect (regOf f.data) (regOf f.addr) off (mTail f))
  | _ => ([2], .nop ⟨always, 0⟩)

/-- The words of the A format (R198, R223). -/
def rawA (n : Nat) : Raw :=
  let f := aOf n
  match f.op with
  | 0x80 => (need (f.aop ≤ 11) 7 ++ sohOk f.scope f.hint, .atom (aopOf f.aop) (widthOf f.width) (regOf f.dst)
      (regOf f.addr) (regOf f.data) (scopeOf f.scope) (orderOf f.order) (hintOf f.hint) (aTail f))
  | 0x81 => (z f.aop ++ sohOk f.scope f.hint, .atomx (widthOf f.width) (regOf f.dst) (regOf f.addr) (regOf f.data)
      (scopeOf f.scope) (orderOf f.order) (hintOf f.hint) (aTail f))
  | 0x82 => (z f.dst ++ need (f.aop ≤ 11) 7 ++ sohOk f.scope f.hint, .red (aopOf f.aop) (widthOf f.width) (regOf f.addr)
      (regOf f.data) (scopeOf f.scope) (orderOf f.order) (hintOf f.hint) (aTail f))
  | 0x88 => (low3 f.dst ++ z f.addr ++ z f.data ++ z f.aop ++ z f.width ++ need (f.scope ≤ 4) 8 ++ need (f.hint == 0) 7 ++
      z f.ctr, .fence (Fin.ofNat 8 f.dst) (orderOf f.order) (scopeOf f.scope) (aBare f))
  | 0x89 => (z f.dst ++ z f.addr ++ low3 f.data ++ z f.aop ++ z f.width ++ z f.scope ++ z f.order ++ need (f.hint == 0) 7 ++
      z f.ctr, .fwait (Fin.ofNat 8 f.data) (aBare f))
  | 0x8A => (low3 f.dst ++ z f.addr ++ low3 f.data ++ z f.aop ++ z f.width ++ z f.scope ++ z f.order ++
      need (f.hint == 0) 7 ++ z f.ctr, .fpoll (Fin.ofNat 8 f.dst) (Fin.ofNat 8 f.data) (aBare f))
  | _ => ([2], .nop ⟨always, 0⟩)

def slot0 (f : XF) : List Nat := z f.slot
def sub0 (f : XF) : List Nat := need (f.sub == 0) 7
def ctr0 (f : XF) : List Nat := z f.ctr
/-- A tile index in the low six bits (R48). -/
def tileOk (n : Nat) : List Nat := need (n < 64) 6

/-- The words of the X format: memory, copy and matrix. -/
def rawX (n : Nat) : Raw :=
  let f := xOf n
  let a := regOf f.a
  let b := regOf f.b
  let c := regOf f.c
  let d := regOf f.d
  match f.op with
  | 0x66 => (slot0 f ++ z f.sub ++ ctr0 f, .ckeep a b c d (xBare f))
  | 0x67 => (z f.b ++ z f.c ++ z f.d ++ slot0 f ++ z f.sub ++ ctr0 f, .cunkeep a (xBare f))
  | 0x6D => (z f.a ++ z f.b ++ z f.c ++ z f.d ++ slot0 f ++ z f.sub ++ ctr0 f ++ need (f.pred == 7) 7,
      .bsync (Fin.ofNat 16 f.stall))
  | 0x70 => (slot0 f, .xcopy a b c d (f.sub == 1) (xTail f))
  | 0x71 => (slot0 f, .xgather a b c d (f.sub == 1) (xTail f))
  | 0x72 => (slot0 f, .xscatter a b c d (f.sub == 1) (xTail f))
  | 0x73 => (slot0 f ++ sub0 f, .xmcast a b c d (xTail f))
  | 0x74 => (slot0 f, .xfill a b c d (f.sub == 1) (xTail f))
  | 0x90 => (tileOk f.a ++ z f.b ++ z f.c ++ z f.d ++ slot0 f ++ sub0 f ++ ctr0 f, .macq (Fin.ofNat 64 f.a) (xBare f))
  | 0x91 => (tileOk f.a ++ z f.b ++ z f.c ++ z f.d ++ slot0 f ++ sub0 f ++ ctr0 f, .mrel (Fin.ofNat 64 f.a) (xBare f))
  | 0x92 => (tileOk f.a ++ z f.b ++ z f.c ++ z f.d ++ slot0 f ++ sub0 f, .mzero (Fin.ofNat 64 f.a) (xTail f))
  | 0x93 => (tileOk f.a ++ z f.c ++ (if f.sub == 1 then slot0 f else []),
      if f.sub == 1 then .mloadRaw (Fin.ofNat 64 f.a) b d (xTail f)
      else .mload (Fin.ofNat 64 f.a) b d (Fin.ofNat 8 f.slot) (xTail f))
  | 0x94 => (tileOk f.a, if f.sub == 1 then .mmaSet (Fin.ofNat 64 f.a) b c d (Fin.ofNat 8 f.slot) (xTail f)
      else .mma (Fin.ofNat 64 f.a) b c d (Fin.ofNat 8 f.slot) (xTail f))
  | 0x95 => (tileOk f.a ++ (if f.sub == 1 then slot0 f ++ need (f.c == s0Code) 6 else []),
      if f.sub == 1 then .mdrainRaw (Fin.ofNat 64 f.a) b d (xTail f)
      else .mdrain (Fin.ofNat 64 f.a) b c d (Fin.ofNat 8 f.slot) (xTail f))
  | 0x96 => (tileOk f.b ++ sub0 f, .mread a (Fin.ofNat 64 f.b) c d (Fin.ofNat 8 f.slot) (xTail f))
  | 0x97 => (z f.b ++ z f.c ++ z f.d ++ slot0 f ++ sub0 f ++ ctr0 f, .mcommit a (xBare f))
  | 0x98 => (z f.b ++ z f.c ++ z f.d ++ slot0 f ++ sub0 f ++ ctr0 f, .mwait a (xBare f))
  | 0x99 => (z f.b ++ z f.c ++ z f.d ++ slot0 f ++ sub0 f ++ ctr0 f, .mprog a (xBare f))
  | 0x9A => (z f.a ++ z f.b ++ z f.c ++ z f.d ++ slot0 f ++ sub0 f ++ ctr0 f, .mbtake (xBare f))
  | 0x9B => (z f.a ++ z f.b ++ z f.c ++ z f.d ++ slot0 f ++ sub0 f ++ ctr0 f, .mbpass (xBare f))
  | _ => ([2], .nop ⟨always, 0⟩)

/-- The port form's a field holds `s0` (R310). -/
def isS0 (n : Nat) : List Nat := need (n == s0Code) 6

/-- The words of the X format: tasks, pipelines, migration and collectives. -/
def rawT (n : Nat) : Raw :=
  let f := xOf n
  let a := regOf f.a
  let b := regOf f.b
  let c := regOf f.c
  let d := regOf f.d
  match f.op with
  | 0xA0 => (z f.c ++ z f.d ++ slot0 f ++ z f.sub, .spawn a b (xTail f))
  | 0xA1 => (z f.d ++ slot0 f ++ (if f.sub == 1 then [] else isS0 f.a ++ z f.c),
      if f.sub == 1 then .rpushRing a b c (xTail f) else .rpush b (xTail f))
  | 0xA2 => (z f.d ++ slot0 f ++ (if f.sub == 1 then [] else isS0 f.a),
      if f.sub == 1 then .rpopRing a b c (xTail f) else .rpop b c (xTail f))
  | 0xA3 => (z f.c ++ z f.d ++ slot0 f ++ (if f.sub == 1 then [] else isS0 f.a ++ z f.b),
      if f.sub == 1 then .reosRing a b (xTail f) else .reos (xTail f))
  | 0xA4 => (z f.c ++ z f.d ++ slot0 f ++ sub0 f, .pbind a b (xTail f))
  | 0xA5 => (z f.b ++ z f.c ++ z f.d ++ slot0 f ++ sub0 f, .punbind a (xTail f))
  | 0xA6 => (z f.d ++ slot0 f ++ sub0 f, .pquery a b c (xTail f))
  | 0xA7 => (low3 f.a ++ z f.c ++ z f.d ++ slot0 f ++ z f.sub ++ ctr0 f, .migr (Fin.ofNat 8 f.a) b (xBare f))
  | 0xA8 => (slot0 f ++ z f.sub, .creduce a b c d (xTail f))
  | 0xA9 => (z f.a ++ slot0 f ++ z f.sub, .cbcast b c d (xTail f))
  | 0xAA => (slot0 f ++ z f.sub, .cmembOpen a b c d (xTail f))
  | _ => ([2], .nop ⟨always, 0⟩)

def var0 (f : SF) : List Nat := need (f.var == 0) 7

/-- A selector of LQERR (R284) and of ECCCNT (R382) in `sread`, of LQTAIL (R285) in `swrite`. -/
def isLqerr (sel : Nat) : Bool := 0x30000 ≤ sel && sel < 0x30800 && sel % 8 == 4
def isEcccnt (sel : Nat) : Bool := 0x62000 ≤ sel && sel < 0x62004
def isLqtail (sel : Nat) : Bool := 0x30000 ≤ sel && sel < 0x30800 && sel % 8 == 2

/-- A field of an `s` operand that must be `s0`: a `v` operand there is code 7, and another `s` code 6 (R331, R338). -/
def sZero (a : Nat) : List Nat := if a < 512 then [7] else isS0 a

/-- The words of the S format (R331, R396). -/
def rawS (n : Nat) : Raw :=
  let f := sOf n
  match f.op with
  | 0xB0 => (z f.a ++ z f.low ++ need (f.var ≤ 1) 7 ++
        (if isLqerr f.sel || isEcccnt f.sel then need (f.var == 1) 7 else []),
      if isLqerr f.sel then .lqerrRead (Fin.ofNat 256 ((f.sel - 0x30000) / 8)) (regOf f.dst) (sTail f)
      else if isEcccnt f.sel then .ecccntRead (Fin.ofNat 4 (f.sel - 0x62000)) (regOf f.dst) (sTail f)
      else .sread (BitVec.ofNat 20 f.sel) (f.var == 1) (regOf f.dst) (sTail f))
  | 0xB1 => (z f.dst ++ z f.low ++ need (f.var ≤ 1) 7 ++ (if isLqtail f.sel then need (f.var == 0) 7 else []),
      if isLqtail f.sel then .lqtailDoorbell (Fin.ofNat 256 ((f.sel - 0x30000) / 8)) (regOf f.a) (sTail f)
      else .swrite (BitVec.ofNat 20 f.sel) (f.var == 1) (regOf f.a) (sTail f))
  | 0xB2 => (z f.dst ++ need (f.sel < 2048) 6 ++ var0 f ++ z f.low, .trap (Fin.ofNat 2048 f.sel) (regOf f.a) (sTail f))
  | 0xB3 => (z f.dst ++ z f.a ++ z f.sel ++ var0 f ++ z f.low, .rte (sTail f))
  | 0xB4 => (z f.dst ++ z f.sel ++ need (f.var ≤ 2) 7 ++ z f.low,
      match f.var with
      | 0 => .resumeRetry (regOf f.a) (sTail f)
      | 1 => .resumeDeliver (regOf f.a) (sTail f)
      | _ => .resumeEnd (regOf f.a) (sTail f))
  | 0xB5 => (z f.dst ++ z f.sel ++ var0 f ++ z f.low, .preemptSliceEnd (regOf f.a) (sTail f))
  | 0xB6 => (z f.sel ++ need (f.var ≤ 2) 7 ++ z f.low ++
        (match f.var with
          | 0 => []
          | 1 => sZero f.a
          | 2 => sZero f.dst ++ sZero f.a
          | _ => []),
      match f.var with
      | 0 => .tlbinvPage (regOf f.dst) (regOf f.a) (sTail f)
      | 1 => .tlbinvCtx (regOf f.dst) (sTail f)
      | _ => .tlbinvAll (sTail f))
  | 0xB7 => (z f.sel ++ var0 f, .launch (regOf f.dst) (regOf f.a) (scTail f))
  | 0xB8 => (z f.dst ++ z f.sel ++ var0 f ++ z f.low, .halt (regOf f.a) (sTail f))
  | 0xB9 => (z f.sel ++ z f.var, .assign (regOf f.dst) (regOf f.a) (scTail f))
  | 0xBA => (z f.dst ++ z f.sel ++ z f.var ++ z f.low, .kzero (regOf f.a) (sTail f))
  | 0xBB => (z f.dst ++ z f.sel ++ z f.var ++ z f.low, .lstart (regOf f.a) (sTail f))
  | _ => ([2], .nop ⟨always, 0⟩)

/-- The opcode selects the format (R47, R63). -/
def raw (n : Nat) : Raw :=
  let op := n / 2 ^ 56 % 256
  if op < 0x50 then rawV n
  else if op < 0x60 then rawC n
  else if op < 0x66 || (0x68 ≤ op && op < 0x6D) then rawM n
  else if 0x80 ≤ op && op < 0x90 then rawA n
  else if op < 0xA0 then rawX n
  else if op < 0xB0 then rawT n
  else rawS n

end Sys2Proof.Decode

namespace Sys2Proof

/-- The codes of R64 that a word breaks by its own bits. -/
def wordCodes (w : DWord) : List Nat :=
  (Decode.raw w.toNat).1 ++ Forms.staticCodes (Decode.raw w.toNat).2

/-- The decoder: the instruction, or the lowest code of R64 (R65). -/
def decode (w : DWord) : Except Nat Instr :=
  match Forms.lowest (wordCodes w) with
  | some c => .error c
  | none => .ok (Decode.raw w.toNat).2

/-- A clause header (R42). -/
structure Header where
  cls   : Nat
  count : Nat
  mask  : Nat
  yield : Bool
  prio  : Nat
  check : Bool
  deriving DecidableEq, Repr

/-- A word is a header by its tag alone (R42). -/
def isHeader (w : DWord) : Bool := w.toNat / 2 ^ 60 == 15

/-- A good header; `none` raises code 1 (R64). -/
def decodeHeader (w : DWord) : Option Header :=
  let n := w.toNat
  if n / 2 ^ 60 == 15 && n / 2 ^ 56 % 16 < 7 && n % 2 ^ 39 == 0 then
    some ⟨n / 2 ^ 56 % 16, n / 2 ^ 52 % 16 + 1, n / 2 ^ 44 % 256, n / 2 ^ 43 % 2 == 1, n / 2 ^ 40 % 8, n / 2 ^ 39 % 2 == 1⟩
  else none

/-- Words and headers stand in memory with their low byte first (R3, R42). -/
def wordOfBytes : List Byte → DWord
  | [] => 0
  | b :: bs => BitVec.ofNat 64 (b.toNat + 256 * (wordOfBytes bs).toNat)

def bytesOfNat : Nat → Nat → List Byte
  | 0, _ => []
  | k + 1, n => BitVec.ofNat 8 n :: bytesOfNat k (n / 256)

/-- Decodes the first eight bytes and gives the rest back; fewer than eight are no word. -/
def decodeBytes (bs : List Byte) : Except Nat (Instr × List Byte) :=
  if bs.length < 8 then .error 2
  else
    match decode (wordOfBytes (bs.take 8)) with
    | .ok i => .ok (i, bs.drop 8)
    | .error c => .error c

/-- The instruction the decoder reads from the word whose bits are w (see LAWS.json): every instruction is one word. -/
def decodeTableWord (_nbits w : Nat) : Option Instr :=
  match decodeBytes (bytesOfNat 8 w) with
  | .ok (i, _) => some i
  | .error _ => none

namespace Encode

open Decode

def v3 (op : Nat) (t : Nat) (d a b c : Nat) (ext : Nat) (x : VTail) : Nat :=
  vWord ⟨op, d, a, b, c, t, guardCode x.guard, x.hold.val, ext, x.stall.val⟩
def int (op : Nat) (t : Ty) (d a b c : Nat) (x : VTail) : Nat := v3 op (tyCode t) d a b c 0 x
def fv (t : FTy) (ftz : Bool) : Nat := ftyCode t + (if ftz then 8 else 0)
def cmpD (k : Cmp) (q : Fin 8) : Nat := cmpCode k * 8 + q.val
def c (op reg off kind rej : Nat) (x : Tail) : Nat := cWord ⟨op, reg, off, kind, guardCode x.guard, rej, x.stall.val⟩
def m (op data addr off ty sc o h : Nat) (x : CTail) : Nat :=
  mWord ⟨op, data, addr, off, ty, sc, o, h, guardCode x.guard, ctrCode x.ctr, x.stall.val⟩
def at' (op dst addr data aop w sc o h : Nat) (x : CTail) : Nat :=
  aWord ⟨op, dst, addr, data, aop, w, sc, o, h, guardCode x.guard, ctrCode x.ctr, x.stall.val⟩
def fn (op dst data sc o : Nat) (x : Tail) : Nat :=
  aWord ⟨op, dst, 0, data, 0, 0, sc, o, 0, guardCode x.guard, 0, x.stall.val⟩
def xc (op a b c d slot sub : Nat) (x : CTail) : Nat :=
  xWord ⟨op, a, b, c, d, slot, sub, guardCode x.guard, ctrCode x.ctr, x.stall.val⟩
def xb (op a b c d : Nat) (x : Tail) : Nat := xWord ⟨op, a, b, c, d, 0, 0, guardCode x.guard, 0, x.stall.val⟩
def s (op dst a sel var : Nat) (x : Tail) : Nat := sWord ⟨op, dst, a, sel, var, guardCode x.guard, 0, x.stall.val⟩
def sc (op dst a : Nat) (x : CTail) : Nat := sWord ⟨op, dst, a, 0, 0, guardCode x.guard, ctrCode x.ctr, x.stall.val⟩

/-- The word of a program instruction as a number; `none` for a step that is no word. -/
def word : Instr → Option Nat
  | .iadd t d a b x => some (int 0x00 t (regCode d) (regCode a) (regCode b) 0 x)
  | .isub t d a b x => some (int 0x01 t (regCode d) (regCode a) (regCode b) 0 x)
  | .imul t d a b x => some (int 0x02 t (regCode d) (regCode a) (regCode b) 0 x)
  | .imulh t d a b x => some (int 0x03 t (regCode d) (regCode a) (regCode b) 0 x)
  | .imad t d a b c x => some (int 0x04 t (regCode d) (regCode a) (regCode b) (regCode c) x)
  | .imadw t d a b c x => some (int 0x05 t (regCode d) (regCode a) (regCode b) (regCode c) x)
  | .iaddc t d a b c x => some (int 0x06 t (regCode d) (regCode a) (regCode b) (regCode c) x)
  | .imin t d a b x => some (int 0x07 t (regCode d) (regCode a) (regCode b) 0 x)
  | .imax t d a b x => some (int 0x08 t (regCode d) (regCode a) (regCode b) 0 x)
  | .iabs t d a x => some (int 0x09 t (regCode d) (regCode a) 0 0 x)
  | .ineg t d a x => some (int 0x0A t (regCode d) (regCode a) 0 0 x)
  | .isad t d a b c x => some (int 0x0B t (regCode d) (regCode a) (regCode b) (regCode c) x)
  | .land w d a b x => some (v3 0x0C 0 (regCode d) (regCode a) (regCode b) 0 (bit w) x)
  | .lor w d a b x => some (v3 0x0C 1 (regCode d) (regCode a) (regCode b) 0 (bit w) x)
  | .lxor w d a b x => some (v3 0x0C 2 (regCode d) (regCode a) (regCode b) 0 (bit w) x)
  | .landn w d a b x => some (v3 0x0C 3 (regCode d) (regCode a) (regCode b) 0 (bit w) x)
  | .lnot w d a x => some (v3 0x0C 4 (regCode d) (regCode a) 0 0 (bit w) x)
  | .lsel f g d a b c x => some (vWord ⟨0x0D, regCode d, regCode a, regCode b, regCode c, f.val, guardCode x.guard,
      g.val / 4, g.val % 4, x.stall.val⟩)
  | .shl t d a b x => some (int 0x0E t (regCode d) (regCode a) (regCode b) 0 x)
  | .shr t d a b x => some (int 0x0F t (regCode d) (regCode a) (regCode b) 0 x)
  | .sar t d a b x => some (int 0x10 t (regCode d) (regCode a) (regCode b) 0 x)
  | .rot t d a b x => some (int 0x11 t (regCode d) (regCode a) (regCode b) 0 x)
  | .bfx t d a b c x => some (int 0x12 t (regCode d) (regCode a) (regCode b) (regCode c) x)
  | .bfi t d a b c x => some (int 0x13 t (regCode d) (regCode a) (regCode b) (regCode c) x)
  | .popc t d a x => some (int 0x14 t (regCode d) (regCode a) 0 0 x)
  | .clz t d a x => some (int 0x15 t (regCode d) (regCode a) 0 0 x)
  | .ctz t d a x => some (int 0x16 t (regCode d) (regCode a) 0 0 x)
  | .brev t d a x => some (int 0x17 t (regCode d) (regCode a) 0 0 x)
  | .lea t d a b c x => some (int 0x18 t (regCode d) (regCode a) (regCode b) (regCode c) x)
  | .icmp k t q a b x => some (int 0x19 t (cmpD k q) (regCode a) (regCode b) 0 x)
  | .sel t d a b q neg x => some (v3 0x1A (tyCode t) (regCode d) (regCode a) (regCode b) q.val (bit neg) x)
  | .mov t d a x => some (int 0x1B t (regCode d) (regCode a) 0 0 x)
  | .movi d imm st => some (iWord ⟨0x1C, regCode d, 0, imm.toNat, st.val⟩)
  | .movhi d a imm st => some (iWord ⟨0x1D, regCode d, regCode a, imm.toNat, st.val⟩)
  | .fadd t ftz r d a b x => some (v3 0x20 (fv t ftz) (regCode d) (regCode a) (regCode b) 0 (rndCode r) x)
  | .fsub t ftz r d a b x => some (v3 0x21 (fv t ftz) (regCode d) (regCode a) (regCode b) 0 (rndCode r) x)
  | .fmul t ftz r d a b x => some (v3 0x22 (fv t ftz) (regCode d) (regCode a) (regCode b) 0 (rndCode r) x)
  | .ffma t ftz r d a b c x => some (v3 0x23 (fv t ftz) (regCode d) (regCode a) (regCode b) (regCode c) (rndCode r) x)
  | .fmin t ftz d a b x => some (v3 0x24 (fv t ftz) (regCode d) (regCode a) (regCode b) 0 0 x)
  | .fmax t ftz d a b x => some (v3 0x25 (fv t ftz) (regCode d) (regCode a) (regCode b) 0 0 x)
  | .fneg t d a x => some (v3 0x26 (fv t false) (regCode d) (regCode a) 0 0 0 x)
  | .fabs t d a x => some (v3 0x27 (fv t false) (regCode d) (regCode a) 0 0 0 x)
  | .fcmp k t ftz q a b x => some (v3 0x28 (fv t ftz) (cmpD k q) (regCode a) (regCode b) 0 0 x)
  | .fclass t d a x => some (v3 0x29 (fv t false) (regCode d) (regCode a) 0 0 0 x)
  | .frcp ftz r d a x => some (v3 0x2A (fv .f32 ftz) (regCode d) (regCode a) 0 0 (rndCode r) x)
  | .frsq ftz d a x => some (v3 0x2B (fv .f32 ftz) (regCode d) (regCode a) 0 0 0 x)
  | .fsqrt ftz r d a x => some (v3 0x2C (fv .f32 ftz) (regCode d) (regCode a) 0 0 (rndCode r) x)
  | .fexp2 ftz d a x => some (v3 0x2D (fv .f32 ftz) (regCode d) (regCode a) 0 0 0 x)
  | .flog2 ftz d a x => some (v3 0x2E (fv .f32 ftz) (regCode d) (regCode a) 0 0 0 x)
  | .fsin ftz d a x => some (v3 0x2F (fv .f32 ftz) (regCode d) (regCode a) 0 0 0 x)
  | .fcos ftz d a x => some (v3 0x30 (fv .f32 ftz) (regCode d) (regCode a) 0 0 0 x)
  | .dadd r d a b x => some (v3 0x31 3 (regCode d) (regCode a) (regCode b) 0 (rndCode r) x)
  | .dmul r d a b x => some (v3 0x32 3 (regCode d) (regCode a) (regCode b) 0 (rndCode r) x)
  | .dfma r d a b c x => some (v3 0x33 3 (regCode d) (regCode a) (regCode b) (regCode c) (rndCode r) x)
  | .dcmp k q a b x => some (v3 0x34 3 (cmpD k q) (regCode a) (regCode b) 0 0 x)
  | .hadd2 t r d a b x => some (v3 0x35 (fv t false) (regCode d) (regCode a) (regCode b) 0 (rndCode r) x)
  | .hmul2 t r d a b x => some (v3 0x36 (fv t false) (regCode d) (regCode a) (regCode b) 0 (rndCode r) x)
  | .hfma2 t r d a b c x => some (v3 0x37 (fv t false) (regCode d) (regCode a) (regCode b) (regCode c) (rndCode r) x)
  | .cvt dt st d a x => some (int 0x40 dt (regCode d) (regCode a) 0 (tyCode st) x)
  | .cvtq k d a b x => some (v3 0x41 0 (regCode d) (regCode a) (regCode b) k.val 0 x)
  | .cvtd k d a b x => some (v3 0x42 0 (regCode d) (regCode a) (regCode b) k.val 0 x)
  | .trpack d a x => some (v3 0x43 12 (regCode d) (regCode a) 0 0 0 x)
  | .trunpack d a x => some (v3 0x44 12 (regCode d) (regCode a) 0 0 0 x)
  | .pack2 t d a b x => some (int 0x45 t (regCode d) (regCode a) (regCode b) 0 x)
  | .shfl md t d a b c x => some (v3 0x48 (tyCode t) (regCode d) (regCode a) (regCode b) (regCode c) (shflCode md) x)
  | .voteBallot t d q x => some (v3 0x49 (tyCode t) (regCode d) 0 q.val 0 0 x)
  | .voteAny qd q x => some (v3 0x49 1 qd.val 0 q.val 0 1 x)
  | .voteAll qd q x => some (v3 0x49 1 qd.val 0 q.val 0 2 x)
  | .voteEq t qd a x => some (v3 0x49 (tyCode t) qd.val (regCode a) 0 0 3 x)
  | .scan o t d a x => some (v3 0x4A (tyCode t) (regCode d) (regCode a) 0 0 (scanCode o) x)
  | .redux o t d a x => some (v3 0x4B (tyCode t) (regCode d) (regCode a) 0 0 (scanCode o) x)
  | .lanes md t d x => some (v3 0x4C (tyCode t) (regCode d) 0 0 0 (lanesCode md) x)
  | .bra off x => some (c 0x50 0 off.toNat 0 0 x)
  | .brc k r off x => some (c 0x51 (regCode r) off.toNat (condCode k) 0 x)
  | .brx t x => some (c 0x52 (regCode t) 0 0 0 x)
  | .call l off x => some (c 0x53 (regCode l) off.toNat 0 0 x)
  | .callx t x => some (c 0x54 (regCode t) 0 0 0 x)
  | .ret l x => some (c 0x55 (regCode l) 0 0 0 x)
  | .exit x => some (c 0x56 0 0 0 0 x)
  | .yield x => some (c 0x57 0 0 0 0 x)
  | .nop x => some (c 0x58 0 0 0 0 x)
  | .jenter j x => some (c 0x59 0 0 0 j.val x)
  | .jquit j x => some (c 0x5A 0 0 0 j.val x)
  | .jwait j x => some (c 0x5B 0 0 0 j.val x)
  | .jread d j x => some (c 0x5C (regCode d) 0 0 j.val x)
  | .jwrite j a x => some (c 0x5D (regCode a) 0 0 j.val x)
  | .jclear j x => some (c 0x5E 0 0 0 j.val x)
  | .ld t d a off sc o h x =>
    some (m 0x60 (regCode d) (regCode a) off.toNat (mtyCode t) (scopeCode sc) (orderCode o) (hintCode h) x)
  | .st t d a off sc o h x =>
    some (m 0x61 (regCode d) (regCode a) off.toNat (mtyCode t) (scopeCode sc) (orderCode o) (hintCode h) x)
  | .ldc t d a off x => some (m 0x62 (regCode d) (regCode a) off.toNat (mtyCode t) 2 0 0 x)
  | .pf a off h x => some (m 0x63 0 (regCode a) off.toNat 0 2 0 (hintCode h) x)
  | .cflush a off x => some (m 0x64 0 (regCode a) off.toNat 0 2 0 0 x)
  | .cinval a off x => some (m 0x65 0 (regCode a) off.toNat 0 2 0 0 x)
  | .ckeep k b l w x => some (xb 0x66 (regCode k) (regCode b) (regCode l) (regCode w) x)
  | .cunkeep k x => some (xb 0x67 (regCode k) 0 0 0 x)
  | .binit e a off x => some (m 0x68 (regCode e) (regCode a) off.toNat 0 0 0 0 x)
  | .barrive d a off x => some (m 0x69 (regCode d) (regCode a) off.toNat 0 0 0 0 x)
  | .bwait t a off x => some (m 0x6A (regCode t) (regCode a) off.toNat 0 0 0 0 x)
  | .btest d a off x => some (m 0x6B (regCode d) (regCode a) off.toNat 0 0 0 0 x)
  | .bexpect e a off x => some (m 0x6C (regCode e) (regCode a) off.toNat 0 0 0 0 x)
  | .bsync st => some (xWord ⟨0x6D, 0, 0, 0, 0, 0, 0, 7, 0, st.val⟩)
  | .xcopy d s n b o x => some (xc 0x70 (regCode d) (regCode s) (regCode n) (regCode b) 0 (bit o) x)
  | .xgather d s n b o x => some (xc 0x71 (regCode d) (regCode s) (regCode n) (regCode b) 0 (bit o) x)
  | .xscatter d s n b o x => some (xc 0x72 (regCode d) (regCode s) (regCode n) (regCode b) 0 (bit o) x)
  | .xmcast d s n l x => some (xc 0x73 (regCode d) (regCode s) (regCode n) (regCode l) 0 0 x)
  | .xfill d p n b o x => some (xc 0x74 (regCode d) (regCode p) (regCode n) (regCode b) 0 (bit o) x)
  | .atom op w d a v sc o h x => some (at' 0x80 (regCode d) (regCode a) (regCode v) (aopCode op) (widthCode w)
      (scopeCode sc) (orderCode o) (hintCode h) x)
  | .atomx w d a v sc o h x => some (at' 0x81 (regCode d) (regCode a) (regCode v) 0 (widthCode w)
      (scopeCode sc) (orderCode o) (hintCode h) x)
  | .red op w a v sc o h x => some (at' 0x82 0 (regCode a) (regCode v) (aopCode op) (widthCode w)
      (scopeCode sc) (orderCode o) (hintCode h) x)
  | .fence f o sc x => some (fn 0x88 f.val 0 (scopeCode sc) (orderCode o) x)
  | .fwait f x => some (fn 0x89 0 f.val 0 0 x)
  | .fpoll q f x => some (fn 0x8A q.val f.val 0 0 x)
  | .macq t x => some (xb 0x90 t.val 0 0 0 x)
  | .mrel t x => some (xb 0x91 t.val 0 0 0 x)
  | .mzero t x => some (xc 0x92 t.val 0 0 0 0 0 x)
  | .mload t s h k x => some (xc 0x93 t.val (regCode s) 0 (regCode h) k.val 0 x)
  | .mloadRaw t s h x => some (xc 0x93 t.val (regCode s) 0 (regCode h) 0 1 x)
  | .mma t a b h k x => some (xc 0x94 t.val (regCode a) (regCode b) (regCode h) k.val 0 x)
  | .mmaSet t a b h k x => some (xc 0x94 t.val (regCode a) (regCode b) (regCode h) k.val 1 x)
  | .mdrain t d c h k x => some (xc 0x95 t.val (regCode d) (regCode c) (regCode h) k.val 0 x)
  | .mdrainRaw t d h x => some (xc 0x95 t.val (regCode d) s0Code (regCode h) 0 1 x)
  | .mread d t p c k x => some (xc 0x96 (regCode d) t.val (regCode p) (regCode c) k.val 0 x)
  | .mcommit d x => some (xb 0x97 (regCode d) 0 0 0 x)
  | .mwait a x => some (xb 0x98 (regCode a) 0 0 0 x)
  | .mprog d x => some (xb 0x99 (regCode d) 0 0 0 x)
  | .mbtake x => some (xb 0x9A 0 0 0 0 x)
  | .mbpass x => some (xb 0x9B 0 0 0 0 x)
  | .spawn e a x => some (xc 0xA0 (regCode e) (regCode a) 0 0 0 0 x)
  | .rpush s x => some (xc 0xA1 s0Code (regCode s) 0 0 0 0 x)
  | .rpushRing r s n x => some (xc 0xA1 (regCode r) (regCode s) (regCode n) 0 0 1 x)
  | .rpop d t x => some (xc 0xA2 s0Code (regCode d) (regCode t) 0 0 0 x)
  | .rpopRing r d t x => some (xc 0xA2 (regCode r) (regCode d) (regCode t) 0 0 1 x)
  | .reos x => some (xc 0xA3 s0Code 0 0 0 0 0 x)
  | .reosRing r n x => some (xc 0xA3 (regCode r) (regCode n) 0 0 0 1 x)
  | .pbind d p x => some (xc 0xA4 (regCode d) (regCode p) 0 0 0 0 x)
  | .punbind h x => some (xc 0xA5 (regCode h) 0 0 0 0 0 x)
  | .pquery d h q x => some (xc 0xA6 (regCode d) (regCode h) (regCode q) 0 0 0 x)
  | .migr q a x => some (xb 0xA7 q.val (regCode a) 0 0 x)
  | .creduce st q c h x => some (xc 0xA8 (regCode st) (regCode q) (regCode c) (regCode h) 0 0 x)
  | .cbcast q c h x => some (xc 0xA9 0 (regCode q) (regCode c) (regCode h) 0 0 x)
  | .cmembOpen d p o h x | .cmembQuery d p o h x | .cmembClose d p o h x =>
    some (xc 0xAA (regCode d) (regCode p) (regCode o) (regCode h) 0 0 x)
  | .sread sel w d x => some (s 0xB0 (regCode d) 0 sel.toNat (bit w) x)
  | .swrite sel w a x => some (s 0xB1 0 (regCode a) sel.toNat (bit w) x)
  | .trap n a x => some (s 0xB2 0 (regCode a) n.val 0 x)
  | .rte x => some (s 0xB3 0 0 0 0 x)
  | .resumeRetry a x => some (s 0xB4 0 (regCode a) 0 0 x)
  | .resumeDeliver a x => some (s 0xB4 0 (regCode a) 0 1 x)
  | .resumeEnd a x => some (s 0xB4 0 (regCode a) 0 2 x)
  | .preemptSliceEnd p x | .preemptAdaptive p x | .preemptSave p x | .preemptRestore p x =>
    some (s 0xB5 0 (regCode p) 0 0 x)
  | .tlbinvPage k a x => some (s 0xB6 (regCode k) (regCode a) 0 0 x)
  | .tlbinvCtx k x => some (s 0xB6 (regCode k) s0Code 0 1 x)
  | .tlbinvAll x => some (s 0xB6 s0Code s0Code 0 2 x)
  | .launch d r x => some (sc 0xB7 (regCode d) (regCode r) x)
  | .halt k x => some (s 0xB8 0 (regCode k) 0 0 x)
  | .assign d r x => some (sc 0xB9 (regCode d) (regCode r) x)
  | .kzero k x => some (s 0xBA 0 (regCode k) 0 0 x)
  | .lstart k x => some (s 0xBB 0 (regCode k) 0 0 x)
  | .lqerrRead q d x => some (s 0xB0 (regCode d) 0 (0x30004 + 8 * q.val) 1 x)
  | .ecccntRead k d x => some (s 0xB0 (regCode d) 0 (0x62000 + k.val) 1 x)
  | .lqtailDoorbell q a x => some (s 0xB1 0 (regCode a) (0x30002 + 8 * q.val) 0 x)
  | _ => none

end Encode

/-- The word of a program instruction, from the tables of R47 to R63; `none` for a step of a unit. -/
def encode (i : Instr) : Option DWord := (Encode.word i).map (BitVec.ofNat 64)

end Sys2Proof
end

