-- ==== Sys2Proof/Machine/State.lean ====
section
/-! DEFINITION. The machine's state as plain data: every register, memory, queue and record that the spec names, the reasons a
step can stop, and the machine right after reset. -/

namespace Sys2Proof.Machine

/-- Reasons a step stops. -/
inductive Fault where
  /-- A program word was executed with no warp issuing one: raised by every program word's meaning; the part issues a word only
  from a fetched clause (R45), and `step` runs words only so. Safe. -/
  | noIssue
  deriving DecidableEq, Repr

/-- Reasons a step has no meaning. -/
inductive Refusal where
  /-- The instruction has no meaning in this model yet: raised by its arm of `exec`. Safe. -/
  | notModelled (mnemonic : String)
  deriving DecidableEq, Repr

/-! ### Clocks (R4, R23, R25) -/

structure Clock where
  cyc      : Nat   -- core cycles since power-on
  tick     : Nat   -- reference ticks since the last power-on or cold reset
  tickAcc  : Nat
  ucyc     : Nat   -- uncore cycles
  uAcc     : Nat
  coreMHz  : Nat
  uncMHz   : Nat
  deriving DecidableEq, Repr

/-! ### Lanes and warps -/

/-- What a waiting lane waits for (R256), at the word its pc names. -/
inductive Wait where
  | jwait (j : Nat)
  | bwait (addr token : Nat) (whole : Bool) (grp : Nat) (ctr : Option Nat)
    -- whole: the uniform form, which holds its warp (R107); the word instance and the counter that its end lets fall (R38)
  | bsync
  | macq (t upTo : Nat)
  | mwait (n : Nat)
  | mbtake
  | fwait (f : Nat)
  deriving DecidableEq, Repr

/-- The state of a lane at a clause boundary (R256). -/
inductive LaneSt where
  | standing
  | waiting (w : Wait)
  | parked (id : Nat)          -- the fault-queue entry it waits on
  | exited
  deriving DecidableEq, Repr

structure Lane where
  pc      : Nat
  hdr     : Option Nat          -- header of the clause whose remaining words issue from pc (R46)
  via     : Option (Nat × Nat)  -- the transfer word that brought the lane to pc, and its clause's header, for code 5 (R44)
  st      : LaneSt
  pass    : Nat                 -- pass count (R258)
  q       : BitVec 8            -- q0 to q6; bit 7 is not used (R29)
  handler : Bool                -- handler mode (R323)
  tcause  : Word
  td0     : Word
  td1     : Word
  td2     : Word
  tpc     : Nat
  thdr    : Option Nat          -- header of the clause the lane trapped in (R336)
  origin  : Nat                 -- origin of the element last popped (R305)
  arrived : List (Nat × Nat)    -- by rejoin set, the `jwait` word at which it has arrived (R268, R270)
  deriving DecidableEq, Repr

/-- A register that a word writes. -/
inductive Dst where
  | v (lane i : Nat)
  | s (i : Nat)
  | q (lane i : Nat)
  deriving DecidableEq, Repr

/-- A write on its way to a register (R57 to R60): `val` is none until a counter-tracked producer delivers it. -/
structure Pend where
  dst  : Dst
  val  : Option Word
  at_  : Nat                    -- the cycle from which it is readable
  tag  : Option Nat             -- the counter-tracked producer
  done : Option (Nat × Option Nat) -- delivered: the word instance, and the counter that falls with the register's write (R61)
  deriving DecidableEq, Repr

/-- A fence token (R224): pending with what it still covers. -/
structure Fence where
  pending : Bool
  from_   : Nat                 -- the first cycle in which a word reads it so (R36, R57)
  scope   : Scope
  reqs    : List Nat
  probes  : List Nat
  deriving DecidableEq, Repr

/-- A clause that has been fetched whole (R45). -/
structure Clause where
  addr    : Nat                 -- the header's address
  hdr     : Header
  words   : List DWord          -- the words not yet issued
  next    : Nat                 -- the address of the first of them
  set     : Mask                -- the issuing set (R140)
  entered : Mask                -- lanes whose part of the next word has taken effect already (R46)
  grp     : Nat                 -- the word instance these lanes' requests belong to
  agreed  : Bool                -- octave: the shadow has produced the same request (R384)
  differ  : Mask                -- octave: the lanes in which it has not
  waits   : Bool                -- the next word has been held at issue (R46)
  seek    : Option (Nat × Nat)  -- `migr`: the uncore cycle from which it has sought a landing slot, and its bound (R206, R365)
  src     : Option (Mask × List (Nat × Word) × List (Nat × Word))
    -- a word that has entered in part: its lanes and its v and s registers as they stood when it issued (R58)
  deriving DecidableEq, Repr

/-- A trap that is delivered at the lanes' next clause boundary (R100, R203, R213, R395). -/
structure Due where
  mask : Mask
  grp  : Nat
  code : Nat
  d0   : Nat
  d1   : Nat
  d2   : Nat
  word : Nat                    -- the word that made the request, for the distance of R325
  post : Option Nat             -- the lanes park on this fault-queue entry instead (R414)
  deriving DecidableEq, Repr

/-- What holds a warp's next clause (R338, R340, R398). -/
inductive Hold where
  | reqs (ids : List Nat)
  | halted (ctx : Nat)
  deriving DecidableEq, Repr

/-- The owner of requests (R204). -/
structure Owner where
  ctx  : Nat
  core : Nat
  slot : Nat
  deriving DecidableEq, Repr

structure Warp where
  blk       : Nat
  num       : Nat               -- number in its block
  cls       : Nat               -- the priority class its words have (R308)
  member    : Nat
  core      : Nat               -- global number (R5)
  part      : Nat               -- scheduler partition
  slot      : Nat               -- first warp slot, 0 to 255
  width     : Nat
  lanes     : List Lane
  v         : List (Nat × Word) -- key lane × 512 + index; a register not listed holds 0 (R139)
  s         : List (Nat × Word)
  flags     : Word              -- FLAGS (R133)
  wctl      : Word              -- WCTL (R276)
  target    : Nat               -- TARGET (R333)
  ctrs      : List Nat          -- d0 to d7 (R61)
  fences    : List Fence        -- f0 to f7
  sets      : List (Mask × Mask) -- j0 to j11: members, arrived (R267)
  wdFrom    : Option Nat        -- the core cycle from which the watchdog counts (R275)
  wdOff     : Option Nat        -- the core cycle at which the watchdog was disabled
  saw       : List Nat          -- cores that records have named to its loads, for its `rmt` fences (R225, R233)
  after     : List Nat          -- requests of other owners that happened before what it has acquired on its core (R228, R234)
  was       : List Owner        -- owners it was before it was saved (R226, R290)
  clause    : Option Clause
  nextIssue : Nat               -- the first cycle in which the warp's next word may issue
  lastIssue : Nat
  yielded   : Option Nat        -- the cycle of its last `yield`, or of the clause that asked for one (R266, R297)
  pend      : List Pend
  seq       : Nat               -- the owner's sequence number (R204)
  shadowQ   : Nat               -- octave: entries of the queue from which the shadow draws, 64 at most (R384)
  due       : List Due
  hold      : List Hold
  ended     : Bool
  deriving DecidableEq, Repr

/-! ### Launches and blocks -/

/-- A launch record (R281, R282, R84). -/
structure Record where
  entry   : Nat
  gx      : Nat
  gy      : Nat
  gz      : Nat
  bx      : Nat
  by_     : Nat
  bz      : Nat
  wcode   : Nat
  vcount  : Nat
  scount  : Nat
  tiles   : Nat
  pool    : Word
  slots   : List DWord
  arg     : DWord
  sigAddr : Nat
  sigVal  : DWord
  flags   : DWord
  handler : Nat
  regions : Nat
  live    : Nat
  stage   : Nat
  deriving DecidableEq, Repr

inductive LaunchSt where
  | placing
  | placed          -- every block has been placed
  | complete        -- every block has retired and no task is left (R290)
  | signalled
  | replay          -- rolled back: its blocks end, and it is dispatched again from the same record (R385)
  | dead            -- ended by halt or by a reset
  deriving DecidableEq, Repr

structure Launch where
  info       : Record
  recAddr    : Nat
  ctx        : Nat
  cls        : Nat
  queue      : Option Nat       -- launch queue it came from
  stage      : Option Nat       -- bound stage of the link engine (R302)
  next       : Nat              -- linear index of the next block to place
  retired    : Nat              -- completion counter
  tasks      : Nat
  lives      : List Nat         -- lifetimes of the last 16 retired blocks, in ticks (R345)
  age        : Nat              -- tick of the first dispatch
  deferred   : Bool             -- it stands in its own queue's deferred slot (R288)
  gangFrom   : Option Nat       -- tick of the first placement of a gang not yet whole (R289)
  st         : LaunchSt
  rollbacks  : Nat
  rollback   : Bool             -- snapshots are kept (R385)
  snaps      : List (Nat × Nat × List Byte)  -- pages copied at their first write: frame key, key slot, old bytes
  deriving DecidableEq, Repr

/-- Counts of one matrix command by event (R137), kept with a row or with an `mread`. -/
structure MxCount where
  nan  : Nat
  sat  : Nat
  trit : Nat
  wrap : Nat
  deriving DecidableEq, Repr

/-- What a pre-emption has decided for a block (R343). -/
inductive PreSt where
  | none
  | stopAtBarrier (op since : Nat)
  | choose (op : Nat)   -- flush, drain or save, at the next clause boundary
  | drain (op since : Nat)
  | save (op : Nat)
  | saveAtBarrier (op : Nat)
  | flush (op region : Nat)
  deriving DecidableEq, Repr

inductive BlockSt where
  | running
  | ending          -- R328
  | retired
  | saved           -- its image stands in a save area
  | released        -- a gang's block that was placed and given back (R289)
  deriving DecidableEq, Repr

/-- A fault of a matrix command that no `mwait` has reported yet (R184). -/
structure MxFault where
  batch : Nat
  code  : Nat
  addr  : Nat
  op    : Nat
  word  : Nat                   -- the word that issued the command (R330)
  deriving DecidableEq, Repr

structure Block where
  launch   : Nat
  lin      : Nat                -- linear block index
  wave     : Nat                -- tasks of the wave it runs, 0 for a block of the grid
  entry    : Nat                -- where its lanes start
  args     : List (Nat × Word)  -- v registers as its warp starts: a wave's task arguments (R295)
  width    : Nat
  cores    : List Nat           -- core of each member
  spad     : List (Nat × Byte)  -- key member × 2^22 + offset
  fresh    : List (Option Nat)  -- by member, an unlisted byte: none reads 0, some n the n-th free value (R86)
  freshT   : Option Nat         -- the same for an unlisted element of a tile (R170)
  tiles    : List (Nat × BitVec 80) -- key tile × 1024 + row × 32 + column
  owners   : BitVec 64          -- bit t: tile t is owned by the threads (R171)
  mx       : MxCount            -- MXCNT (R136)
  held     : List (Nat × MxCount) -- counts of `mread`s by the batch that was open (R183)
  batch    : Nat                -- batch register (R184)
  done     : Nat                -- batches complete up to this number
  faults   : List MxFault
  baton    : Nat                -- R191
  placed   : Nat                -- tick of placement
  st       : BlockSt
  pre      : PreSt
  later    : List (Nat × Nat)   -- resumes of its entries while it is saved: Id, variant (R337)
  back     : Bool               -- restored, it waits for the rest of its gang (R289, R351)
  dropped  : Bool               -- of a dispatch that was rolled back: its retirement is not counted (R385)
  bad      : List Nat           -- poisoned bytes of its scratchpad, by window offset (R382)
  barWhy   : List (Nat × Nat × Nat) -- faults of counted copies kept for a barrier: offset, address, memory code (R100)
  deriving DecidableEq, Repr

/-- A share of the pool that a launch holds on a core (R86). -/
structure Carve where
  core   : Nat
  launch : Nat
  kib    : Nat
  zeroing : Bool                -- a protected context's, returned and not yet zeroed (R400)
  used   : Bool                 -- a share of it may hold what its context left there: it was not zeroed whole, or a block has left it (R86)
  deriving DecidableEq, Repr

/-! ### Contexts -/

/-- A fault-queue entry (R330). -/
structure FaultEntry where
  id    : Nat
  kind  : Nat
  grp   : Nat
  code  : Nat
  va    : Nat
  word  : Nat
  rows  : Nat
  slot  : Nat
  core  : Nat
  mask  : Mask
  d0    : Nat
  d1    : Nat
  d2    : Nat
  recAddr : Nat
  lin   : Nat
  deriving DecidableEq, Repr

/-- A record that waits in a device launch queue (R339). -/
structure DevLaunch where
  recAddr : Nat
  cls     : Nat
  grp     : Nat
  tag     : Nat
  warp    : Nat
  ctr     : Option Nat
  deriving DecidableEq, Repr

structure Context where
  num       : Nat
  sup       : Bool              -- level S (R341)
  ptbase    : DWord
  fqbase    : DWord
  fqhead    : Word
  fqtail    : Word
  taskring  : DWord
  sharedom  : Word
  keepallot : DWord
  slicelen  : Word
  slicedesc : DWord
  rollbase  : DWord
  rollsize  : DWord
  throttled : DWord
  faultId   : Nat               -- next Id (R330)
  taskCount : Nat               -- R293
  ringHead  : Nat               -- task-ring records taken so far
  ringTail  : Nat
  devq      : List DevLaunch
  posts     : List FaultEntry   -- posts not yet in the queue (R329)
  open_     : List FaultEntry   -- entries whose lanes or commands may still wait (R337)
  held      : Nat               -- dies on which a pre-emption places none of its blocks, one bit each (R342)
  begun     : Bool              -- it has had a first placement (R380)
  sliceFrom : Option Nat        -- tick at which its slice started (R380)
  sliceOp   : Option Nat        -- the pre-emption that ended it
  deriving DecidableEq, Repr

structure LaunchQueue where
  ctl  : DWord
  base : DWord
  tail : Word
  head : Word
  err  : DWord
  deriving DecidableEq, Repr

/-- One MSI-X vector (R377). -/
structure Vector where
  pending : Nat
  since   : Nat
  masked  : Bool
  pba     : Bool
  deriving DecidableEq, Repr

structure Function where
  cfg     : DWord               -- FNCFG
  vectors : List Vector
  reset   : Bool                -- a function-level reset is under way (R381)
  deriving DecidableEq, Repr

/-! ### Dies -/

/-- A retention register (R82). -/
structure Keep where
  base     : Nat
  limit    : Nat
  valid    : Bool
  overflow : Nat
  owner    : Nat
  ways     : Nat
  deriving DecidableEq, Repr

structure Die where
  live     : Bool
  failed   : Bool
  hier     : Option Nat
  hbm      : Nat
  lp       : Nat
  lpBlocks : Nat
  fabric   : List (Nat × DWord) -- entries of the fabric map; unlisted ones are 0
  window   : DWord
  movectl  : DWord
  moveLine : Nat                -- lines copied of the move under way
  corrected : Nat
  uncorr   : Nat
  keeps    : List Keep
  from_    : Nat                -- core cycle of the release, for CLOCK
  deriving DecidableEq, Repr

/-! ### The memory system -/

/-- Where a translated access goes. -/
structure Place where
  tier   : Nat
  pa     : Nat
  key    : Nat
  cached : Bool
  die    : Nat                  -- home die, or for tier 3 the core's own
  slice  : Nat
  deriving DecidableEq, Repr

/-- A line of one slice (R80, R81). Position in the list of lines is recency: the head is the most recently used. -/
structure Line where
  line   : Nat                  -- tier × 2^45 + PA[51:7]
  die    : Nat
  slice  : Nat
  key    : Nat                  -- slot tag
  dirty  : Bool
  data   : List Byte
  way    : Nat
  second : Bool
  rel    : Option Nat           -- core of the last core-scope release (R233)
  own    : Option Owner         -- last writer of a dirty tier-2 line (R226)
  deriving DecidableEq, Repr

/-- A write-back that the host port has not accepted yet (R226). -/
structure WriteBack where
  id   : Nat
  line : Nat
  off  : Nat
  data : List Byte
  own  : Option Owner
  deriving DecidableEq, Repr

/-- A translation held at a core (R73). -/
structure Tlb where
  core : Nat
  ctx  : Nat
  base : Nat
  size : Nat                    -- log2 of the bytes mapped
  leaf : DWord
  part : Option Nat             -- in the first-level TLB of this partition; none: in the core's second level
  deriving DecidableEq, Repr

/-- A walk of a cluster's walker, or on its way to its queue, for a warp's word or for an engine of a core (R73, R415). -/
structure Walk where
  id   : Nat
  die  : Nat
  cluster : Nat
  core : Nat
  warp : Option Nat             -- none: an engine of the core
  ctx  : Nat
  va   : Nat
  bounces : Nat
  cls  : Nat
  queued : Bool                 -- it has an entry of the walker's queue; without one it waits at its core's port (R415)
  started : Bool                -- it is one of the walks in flight
  stored : Bool                 -- bounced: it stands in its owner's vigil store (R205)
  due  : Nat                    -- bounced: the uncore cycle of its reissue
  waitFrom : Option (Nat × Nat) -- at the queue's head or at its core's port: from when its hold time runs, and its bound (R206, R207)
  deriving DecidableEq, Repr

/-- A walk that failed a check of R71, for the word or the engine that waits for it. -/
structure WalkFault where
  core : Nat
  warp : Option Nat
  page : Nat
  grp  : Nat
  code : Nat
  lvl  : Nat
  ent  : Nat
  deriving DecidableEq, Repr

/-- One lane's part of a request: bytes to write, or bytes got so far. -/
structure Access where
  lane : Nat
  va   : Nat
  pa   : Nat
  size : Nat
  data : List Byte
  got  : List (Option Byte)
  deriving DecidableEq, Repr

inductive ReqOp where
  | load (t : MTy) (d : Reg)
  | ldc (t : MTy) (d : Reg)
  | store
  | atomic (o : AtomOp) (cas : Bool) (w : AWidth) (d : Option Reg)
  | cflush
  | cinval
  | prefetch
  deriving DecidableEq, Repr

/-- How far a request has come (R208). -/
inductive ReqSt where
  | held            -- by R217 to R219, or waiting for a translation of R414
  | flight          -- at a port, in a crossing buffer or in a queue; list position is arrival order
  | range           -- a local access that waits for a copy (R102)
  | outside         -- at the host for a line or for its bytes (R203, R359)
  | probing         -- value taken, promotion answers outstanding (R233)
  | ordered         -- performed; reply or acknowledgement under way
  | token (reason : Nat)
  | bounced
  deriving DecidableEq, Repr

structure Req where
  id      : Nat
  owner   : Owner
  warp    : Nat
  seq     : Nat
  word    : Nat                 -- address of the word
  grp     : Nat                 -- instance of the word
  op      : ReqOp
  scope   : Scope
  order   : Order
  hint    : Hint
  cls     : Nat
  loc     : Option Nat          -- a local-window access of this block
  place   : Place
  accs    : List Access
  ctr     : Option Nat
  unif    : Bool
  mask    : Mask                -- the lanes that issued the word
  floor   : Bool                -- holds the owner's floor entry (R209)
  serves  : Bool                -- a store entry that loads still read (R210)
  bounces : Nat
  reason  : Nat
  st      : ReqSt
  due     : Nat
  stale   : Bool                -- translates again at reissue (R211)
  fault   : Option Nat          -- the entry its posted fault waits on (R414)
  admitted : Bool               -- its queue has an entry for it; without one it waits at its core's port (R278)
  hops    : List (Nat × Nat)    -- die links still to cross, 4 for the I/O die (R12)
  waitFrom : Option (Nat × Nat) -- the uncore cycle from which its hold time runs, and its bound (R206, R207)
  took    : Nat                 -- the core in whose vigil store it was first taken (R233)
  poison  : Bool
  deriving DecidableEq, Repr

/-- A promotion probe (R233): from an acquire or a fence to core `to`, or from a home slice before an eviction. -/
structure Probe where
  id   : Nat
  dest : Nat
  ctx  : Option Nat             -- the acquirer's context; none: a home slice's own probe, for every context
  line : Option Nat             -- the line that is to be evicted
  sent : Bool                   -- it has reached the core
  upTo : Nat                    -- entries taken before its arrival: ids below this
  req  : Option Nat
  deriving DecidableEq, Repr

/-- Who holds a line exclusively (R81, R103). -/
inductive Engine where
  | copy (core cmd : Nat)
  | matrix (core cmd : Nat)
  | move (part : Nat)
  | link
  deriving DecidableEq, Repr

/-- A write of an engine to tier 3 that its peer has not acknowledged (R97, R184). -/
structure PeerWrite where
  id   : Nat
  eng  : Engine
  die  : Nat                    -- the die it leaves
  pa   : Nat
  data : List Byte
  bounces : Nat
  due  : Nat                    -- bounced: the uncore cycle at which it is sent again; 0 while it is on its way
  deriving DecidableEq, Repr

structure HeldLine where
  line : Nat
  eng  : Engine
  deriving DecidableEq, Repr

/-! ### Copy commands and the matrix engine -/

inductive CopyOp where
  | copy | gather | scatter | fill
  deriving DecidableEq, Repr

inductive CmdSt where
  | queued
  | running (engine : Nat)
  | parked (id : Nat)
  deriving DecidableEq, Repr

structure Copy where
  id    : Nat
  turn  : Int                   -- its place in the core's queue: a resumed command goes before all others (R100)
  core  : Nat
  blk   : Nat
  warp  : Nat
  lane  : Nat
  word  : Nat
  op    : CopyOp
  dst   : Nat
  src   : Nat
  n     : Nat                   -- bytes, or elements
  size  : Nat                   -- element size; 1 for byte copies
  idx   : Nat
  pat   : Word
  bar   : Option Nat            -- window address of the barrier object
  out   : Bool
  units : Nat                   -- units done
  kept  : List (Nat × Byte)     -- source bytes that it has written over itself, as they stood (R97)
  ctr   : Option Nat
  grp   : Nat
  win   : Nat                   -- lines claimed so far
  bounces : Nat
  due   : Nat                   -- in the engine's retry list until this uncore cycle (R207)
  waitFrom : Option (Nat × Nat) -- it waits for a line: from when its hold time runs, and its bound (R206, R207)
  st    : CmdSt
  deriving DecidableEq, Repr

/-- A multicast under way in a cluster's copy engine (R105). -/
structure Mcast where
  id    : Nat
  turn  : Int
  core  : Nat
  blk   : Nat
  warp  : Nat
  lane  : Nat
  word  : Nat
  off   : Nat
  src   : Nat
  n     : Nat
  read  : Bool                  -- every source byte has been read
  data  : List Byte             -- the source, read once
  bar   : Option Nat            -- barrier offset
  left  : List (Nat × Nat)      -- receivers (block) and beats of 64 bytes delivered
  told   : Bool                 -- its issuer has taken code 37 for it (R105)
  orphan : Bool                 -- its issuer has been saved or flushed since, and sees no more of it (R350)
  ctr   : Option Nat
  grp   : Nat
  st    : CmdSt
  deriving DecidableEq, Repr

inductive MxOp where
  | mzero | mload (raw : Bool) | mma (set : Bool) | mdrain (raw : Bool)
  deriving DecidableEq, Repr

structure MxCmd where
  id    : Nat
  core  : Nat
  blk   : Nat
  warp  : Nat
  lane  : Nat
  word  : Nat
  op    : MxOp
  tile  : Nat
  a     : Nat                   -- A, source or destination
  b     : Nat
  rs    : Nat                   -- row-scale base (R182)
  cs    : Nat
  shape : DWord
  slot  : DWord
  batch : Nat
  ctr   : Option Nat
  grp   : Nat
  row   : Nat                   -- p (R187)
  rows  : MxCount               -- counts kept with the finished rows
  bounces : Nat
  due   : Nat
  waitFrom : Option (Nat × Nat)
  stopped : Bool                -- it stands, or stood in its image, saved at a stop point (R189)
  st    : CmdSt
  deriving DecidableEq, Repr

/-! ### Tasks, pipelines, collectives, pre-emption -/

structure Task where
  entry  : Nat
  args   : List Word
  num    : Nat
  launch : Nat
  die    : Nat
  cluster : Nat
  deriving DecidableEq, Repr

/-- A claimed position of a ring (R299). -/
structure Pos where
  p        : Nat
  marker   : Bool
  last     : Bool               -- the P-th end marker of the ring (R309)
  producer : Nat
  origin   : Nat
  data     : List Byte
  published : Bool
  grp      : Nat
  warp     : Nat
  ctr      : Option Nat
  deriving DecidableEq, Repr

structure Consumer where
  stage    : Option Nat         -- none: the external consumer
  cursor   : Nat
  spilled  : Bool
  overrun  : Option Nat
  final    : Bool               -- it has taken its final end
  detached : Bool
  spill    : List Pos
  deriving DecidableEq, Repr

/-- A claim that waits under R299. -/
structure Claim where
  marker   : Bool
  producer : Nat
  origin   : Nat
  data     : List Byte
  since    : Nat
  bound    : Nat                -- HOLD6's bound when it came to wait (R206)
  grp      : Nat
  warp     : Nat
  ctr      : Option Nat
  deriving DecidableEq, Repr

/-- An `rpop` instance that has taken a position not yet published. -/
structure Pop where
  id       : Nat
  stage    : Option Nat         -- its consumer
  p        : Nat
  warp     : Nat
  blk      : Nat
  mask     : Mask
  dst      : List Place         -- destination bytes' places, or the window offset
  loc      : Option Nat
  size     : Nat
  grp      : Nat
  ctr      : Option Nat
  deriving DecidableEq, Repr

structure Ring where
  id     : Nat
  ctx    : Nat
  desc   : Nat                  -- virtual address of the descriptor
  key    : Nat                  -- its place in memory, which identifies the ring
  base   : Nat
  size   : Nat
  cap    : Nat
  echo   : Nat
  prod   : Nat                  -- P
  ext    : Bool
  w      : Nat
  ended  : Nat
  left   : Option Nat           -- origin of the last element to leave the retained range
  gone   : Nat                  -- positions below have left it
  stageOut : Bool
  poss   : List Pos
  cons   : List Consumer
  claims : List Claim
  pops   : List Pop
  doneBy : List Nat             -- producers that have ended
  deriving DecidableEq, Repr

structure Stage where
  id     : Nat
  ctx    : Nat
  launch : Nat
  digest : BitVec 256
  refs   : List Nat             -- pipelines, oldest first
  inRing : Nat
  out    : Nat
  deriving DecidableEq, Repr

structure Pipe where
  id      : Nat
  handle  : Nat
  ctx     : Nat
  depth   : Nat
  stages  : List Nat
  source  : Nat
  join    : Nat
  detached : Bool
  ended   : Bool
  spillBase : Nat
  spillCap : Nat
  cls     : Nat
  deriving DecidableEq, Repr

inductive CollKind where
  | opened
  | reduce (op ty : Nat)
  | bcast (root : Nat)
  deriving DecidableEq, Repr

/-- A collective under way at this member (R371). -/
structure Coll where
  kind  : CollKind
  src   : Nat
  dst   : Nat
  bytes : Nat
  warp  : Nat
  word  : Nat
  mask  : Mask
  tag   : Nat
  grp   : Nat
  ctr   : Option Nat
  since : Nat
  parts : List (Nat × List Byte) -- contributions received, by rank
  views : List (Nat × List Nat) -- live sets received, by rank (R372)
  shrunk : Bool
  deriving DecidableEq, Repr

structure Group where
  id      : Nat
  handle  : Nat
  ctx     : Nat
  die     : Nat
  desc    : Nat
  n       : Nat
  rank    : Nat
  timeout : Nat
  tag     : Nat
  peers   : List Nat
  opened  : List Nat            -- ranks that have opened the tag
  live    : List Nat
  removed : Bool                -- this member was removed
  lost    : Bool                -- members have been lost that no agreement has taken out yet (R372)
  epoch   : Nat
  isOpen  : Bool
  coll    : Option Coll
  deriving DecidableEq, Repr

/-- A pre-emption (R342). -/
structure Preempt where
  id     : Nat
  ctx    : Nat                  -- issuing context
  target : Nat
  mode   : Nat
  dies   : Nat
  area   : Nat
  size   : Nat
  used   : Nat
  desc   : Nat
  report : Nat
  cap    : Nat
  count  : Nat                  -- entries written; mode 3: entries handled
  sigAddr : Nat
  sigVal : DWord
  start  : Nat
  todo   : List Nat             -- blocks without an outcome; mode 3: images waiting for a place
  done   : Bool
  slice  : Option Nat           -- the context whose slice it ends
  last   : Option (Nat × Nat × Nat) -- the last outcome: its tick, the block's launch and index (R348)
  deriving DecidableEq, Repr

/-- What a save image holds besides the block and its warps, which keep their place in the lists of this state (R347). -/
structure Image where
  id     : Nat
  op     : Nat
  head   : List Byte            -- its first 64 bytes
  size   : Nat
  blk    : Nat
  reqs   : List Req
  copies : List Copy
  mx     : List MxCmd
  deriving DecidableEq, Repr

/-! ### Trust -/

inductive KeySt where
  | free | bound | void
  deriving DecidableEq, Repr

structure KeySlot where
  st  : KeySt
  ctx : Nat
  key : Nat                     -- identity of the key it holds
  deriving DecidableEq, Repr

inductive Own where
  | owned (ctx : Nat)
  | scrub (ctx : Nat)
  deriving DecidableEq, Repr

inductive Item where
  | core (n : Nat)
  | frame (k : Nat)             -- tier × 2^31 + PA[51:21]
  | slot (n : Nat)
  deriving DecidableEq, Repr

/-- An item of the lustration journal (R403): the units still to do, in order. -/
structure JItem where
  ctx  : Nat
  item : Item
  left : List Nat
  deriving DecidableEq, Repr

structure Job where
  ctx     : Nat
  active  : Bool
  resumed : Bool
  deriving DecidableEq, Repr

structure Spdm where
  version : Bool
  caps    : Bool
  algs    : Bool
  exchanged : Bool
  session : Bool
  deriving DecidableEq, Repr

/-! ### Host and fabric -/

/-- An inbound posted write on its way (R243): one part for each line. -/
structure Inbound where
  id   : Nat
  fn   : Nat
  relaxed : Bool
  parts : List (Nat × List Byte) -- parts not yet acknowledged
  sent : Bool
  deriving DecidableEq, Repr

/-- A message that leaves the package. -/
inductive Out where
  | msix (fn vec : Nat)
  | hostRead (fn : Nat) (data : List Byte)
  | hostAtomic (fn : Nat) (old : List Byte)
  | atomicOp (pa : Nat) (data : List Byte)   -- a PCIe AtomicOp to the host (R203)
  | cxl (data : List Byte)
  | error
  | fabric (station : Nat) (data : List Byte)
  | hostWrite (pa : Nat) (data : List Byte)
  | spdm (data : List Byte)
  | collective (group rank : Nat) (data : List Byte)
  | collectiveLive (group rank : Nat) (live : List Nat)
  | invalidated (line : Nat)                 -- a home slice's answer to a back-invalidation (R359)
  deriving DecidableEq, Repr

/-- What is fused in the Calends die (R388, R391): the SHAKE256 digest of the public key, and the least security version for each die kind. -/
structure Fuses where
  key     : List Byte
  io      : Nat
  compute : Nat
  deriving DecidableEq, Repr

structure Boot where
  reduced    : Bool
  hbmReady   : Bool
  lpReady    : Bool
  ioReleased : Bool
  resets     : Nat
  romOk      : Bool
  deriving DecidableEq, Repr

structure State where
  -- the model's own: what the schedule places next, the warp whose word issues, the free values used so far
  agenda   : List Instr
  cur      : Option Nat
  free     : Nat
  nextId   : Nat                -- requests, commands, probes, word instances and the like are numbered from here
  -- clocks, power, boot
  clk      : Clock
  moduleForm : Bool             -- CW-880M (R1)
  boot     : Boot
  opened   : Bool               -- placement is open (R386)
  thermal  : Bool
  excess   : Bool               -- the last power sample exceeded a limit (R25)
  alarm    : Nat                -- level reached; 3 is level 2 reached, 2 level 1, 1 level 0 logged
  log      : List Nat           -- the Calends log: the level of each entry, oldest first (R404)
  fuses    : Fuses
  measured : List (Nat × List Byte) -- the digests recorded at boot, by index (R388, R391)
  trips    : Nat                -- thermal trips that the log records (R26)
  -- dies
  dies     : List Die
  ports    : List Bool          -- fabric ports up
  lanemap  : List (Nat × Word)  -- LANEMAP, key core × 16 + unit
  issued   : List (Nat × Nat × Nat) -- issues used (R141, R297): core × 16 + partition × 2, and 1 more for its uniform unit: cycle, rows
  pipes_   : List (Nat × Nat)   -- F64 and special-function pipes (R142): core × 16 + partition × 2 + pipe, and the cycle it is free from
  holds    : List Word          -- HOLD0 to HOLD6
  grace    : Word
  drainbud : Word
  forward  : List (Nat × Nat)   -- forwarded grains: source line/512, destination (R378)
  -- memory
  mem      : List Host.Cell     -- key tier × 2^52 + PA
  poison   : List Nat           -- poisoned bytes, keyed as mem is (R382)
  memkey   : List (Nat × Nat)   -- key identity under which each line was written (R392)
  lines    : List Line
  wbs      : List WriteBack
  peerWrites : List PeerWrite
  ccache   : List (Nat × Nat × Nat × List Byte) -- constant cache: cluster, launch, line, bytes
  tlb      : List Tlb
  walks    : List Walk
  wfaults  : List WalkFault
  heldBy   : List HeldLine
  reqs     : List Req
  probes   : List Probe
  served_  : List (Nat × Nat)   -- slice queues: die × 16 + slice × 2, and 1 more for atomics; the uncore cycle last served (R279, R415)
  turns    : List (Nat × Nat)   -- admissions: (die × 8 + slice) × 4 + class, and the core served last (R278)
  -- contexts
  ctxs     : List Context
  queues   : List LaunchQueue
  tenparts : List DWord
  fns      : List Function
  -- launches
  launches : List Launch
  blocks   : List Block
  warps    : List Warp
  carves   : List Carve
  placeq   : List Nat           -- the placement queue: launches in the order in which they entered it (R288)
  placeFrom : Option (Nat × Nat × Nat) -- the launch at its head, the uncore cycle from which its next block's hold time runs, and its bound
  tasks    : List Task
  balanced : List (Nat × Nat)   -- die × 8 + cluster, and the last 256 uncore cycles in which its queue exchanged tasks (R296)
  depths   : Nat × List Nat     -- those 256 cycles, and the depths that the clusters exchanged in them
  lastDisp : List (Nat × Nat)   -- class, the queue served last (R285)
  copies   : List Copy
  mcasts   : List Mcast
  mx       : List MxCmd
  lastMx   : List (Nat × Nat)   -- core × 4 + class, the block whose command ran last (R172)
  poolBy   : List ((Nat × Nat) × Nat) -- context and core, and the most KiB of the core's free pool that the context may have held last (R86)
  -- link engine, collectives, pre-emption
  rings    : List Ring
  stages   : List Stage
  pipes    : List Pipe
  groups   : List Group
  preempts : List Preempt
  images   : List Image
  -- trust
  keys     : List KeySlot
  nextKey  : Nat
  coreOwn  : List (Nat × Own)
  frameOwn : List (Nat × Own)
  journal  : List JItem
  jobs     : List Job
  spdm     : Spdm
  -- outside
  inbound  : List Inbound
  out      : List Out
  deriving DecidableEq, Repr

/-! ### Reset -/

def Keep.empty : Keep := ⟨0, 0, false, 0, 0, 0⟩

/-- A compute die just released, bound to no hierarchy (R357, R358). -/
def Die.released : Die :=
  { live := true, failed := false, hier := none, hbm := 0, lp := 0, lpBlocks := 0, fabric := [], window := 0, movectl := 0,
    moveLine := 0, corrected := 0, uncorr := 0, keeps := List.replicate 16 Keep.empty, from_ := 0 }

/-- A context that has just come into being (R333). -/
def Context.fresh (n : Nat) (sup : Bool) : Context :=
  { num := n, sup := sup, ptbase := 0, fqbase := 0, fqhead := 0, fqtail := 0, taskring := 0, sharedom := 0, keepallot := 0,
    slicelen := 0, slicedesc := 0, rollbase := 0, rollsize := 0, throttled := 0, faultId := 1, taskCount := 0, ringHead := 0,
    ringTail := 0, devq := [], posts := [], open_ := [], held := 0, begun := false, sliceFrom := none, sliceOp := none }

/-- LQCTL resets to MinClass 3 (R284). -/
def LaunchQueue.atReset : LaunchQueue := ⟨0xC0, 0, 0, 0, 0⟩

/-- FNCFG resets to CoalCount 1 (R376); the vectors of its MSI-X table are masked (PCIe, log 14). -/
def Function.atReset : Function := ⟨0x400, List.replicate 4 ⟨0, 0, true, false⟩, false⟩

/-- HOLDk resets to Class0 128 and Other 512 (R206). -/
def holdReset : Word := 0x00800200

/-- The machine right after reset: a CW-880P whose boot found every die good (R386), with no die bound by the host yet,
no launch, and only the supervisor context. -/
def State.reset : State :=
  { agenda := [], cur := none, free := 0, nextId := 1,
    clk := ⟨0, 0, 0, 0, 0, 2500, 2000⟩, moduleForm := false,
    boot := ⟨false, true, false, true, 0, true⟩, opened := true, thermal := false, excess := false, alarm := 0,
    log := [], fuses := ⟨List.replicate 32 0, 0, 0⟩, measured := [], trips := 0,
    dies := List.replicate 4 Die.released, ports := List.replicate 18 true, lanemap := [], issued := [], pipes_ := [],
    holds := List.replicate 7 holdReset, grace := 2000, drainbud := 500, forward := [],
    mem := [], poison := [], memkey := [], lines := [], wbs := [], peerWrites := [], ccache := [], tlb := [], walks := [], wfaults := [], heldBy := [],
    reqs := [], probes := [], served_ := [], turns := [],
    ctxs := [Context.fresh 0 true], queues := List.replicate 256 LaunchQueue.atReset, tenparts := List.replicate 32 0,
    fns := List.replicate 64 Function.atReset,
    launches := [], blocks := [], warps := [], carves := [], placeq := [], placeFrom := none, tasks := [],
    balanced := [], depths := (0, []), lastDisp := [], copies := [], mcasts := [], mx := [], lastMx := [],
    poolBy := [], rings := [], stages := [], pipes := [], groups := [], preempts := [], images := [],
    keys := ⟨.bound, 0, 1⟩ :: List.replicate 255 ⟨.free, 0, 0⟩, nextKey := 2, coreOwn := [], frameOwn := [], journal := [],
    jobs := [], spdm := ⟨false, false, false, false, false⟩, inbound := [], out := [] }

end Sys2Proof.Machine
end

