-- ==== Sys2Proof/Machine/Ops.lean ====
section
/-! DEFINITION. Named operations over maps, memory, registers and time; issuing a word and what comes after it; taking a
trap (R326 to R330), parking on a posted fault, ending a block, and the return (R336). -/

namespace Sys2Proof.Machine

open Sys2Proof.Forms

/-! ### Bits and maps -/

/-- Bits [lo+len-1:lo] of a number. -/
def fld (n lo len : Nat) : Nat := n / 2 ^ lo % 2 ^ len

def lanesIn (m : Mask) : List Nat := (List.range 64).filter fun l => m.getLsbD l

def maskOf (ls : List Nat) : Mask := ls.foldl (fun m l => m ||| (1#64 <<< l)) 0#64

/-- The lowest set lane. -/
def lowLane (m : Mask) : Nat := (lanesIn m).headD 0

/-- The masks of the first `w` lanes. -/
def allLanes (w : Nat) : Mask := maskOf (List.range w)

def mget {α : Type} (m : List (Nat × α)) (k : Nat) (d : α) : α := (m.lookup k).getD d

/-- Insertion into a map sorted by key. -/
def mput {α : Type} (k : Nat) (v : α) : List (Nat × α) → List (Nat × α)
  | [] => [(k, v)]
  | (k', v') :: m => if k < k' then (k, v) :: (k', v') :: m else if k = k' then (k, v) :: m else (k', v') :: mput k v m

/-- Insertion sort by the first component, stable. -/
def insertOn {α : Type} (e : Nat × α) : List (Nat × α) → List (Nat × α)
  | [] => [e]
  | x :: xs => if e.1 < x.1 then e :: x :: xs else x :: insertOn e xs
def sortOn {α : Type} (l : List (Nat × α)) : List (Nat × α) := l.foldl (fun acc e => insertOn e acc) []

def mdel {α : Type} (k : Nat) (m : List (Nat × α)) : List (Nat × α) := m.filter fun e => e.1 != k

/-- The map with k holding v, where a key not listed holds d. -/
def mset {α : Type} [DecidableEq α] (k : Nat) (v d : α) (m : List (Nat × α)) : List (Nat × α) :=
  if v = d then mdel k m else mput k v m

/-! ### Memory: a sorted list of cells with no cell equal to what an unlisted address reads as -/

abbrev Memory := List Host.Cell

/-- What an address of the tiers reads as before anything writes it (R387 leaves it unspecified; log 1). -/
def Memory.unlisted : Byte := 0

/-- The canonical form. -/
abbrev Memory.wf (m : Memory) : Prop := m.Pairwise (fun c d => c.1 < d.1) ∧ ∀ c ∈ m, c.2 ≠ Memory.unlisted

def Memory.read (m : Memory) (a : Nat) : Byte := mget m a Memory.unlisted

def Memory.write (m : Memory) (a : Nat) (b : Byte) : Memory := mset a b Memory.unlisted m

/-- Bytes from a on. -/
def Memory.readN (m : Memory) (a : Nat) : Nat → List Byte
  | 0 => []
  | n + 1 => m.read a :: Memory.readN m (a + 1) n

def Memory.writeN (m : Memory) (a : Nat) : List Byte → Memory
  | [] => m
  | b :: bs => Memory.writeN (m.write a b) (a + 1) bs

/-- Little-endian value of bytes (R88). -/
def leNat : List Byte → Nat
  | [] => 0
  | b :: bs => b.toNat + 256 * leNat bs

/-- The low n bytes of a value, the lowest first. -/
def leBytes (n v : Nat) : List Byte := bytesOfNat n v

/-! ### Time (R4, R23) -/

def Clock.advance (n : Nat) (c : Clock) : Clock :=
  { c with
    cyc := c.cyc + n
    tick := c.tick + (c.tickAcc + n * 100) / c.coreMHz
    tickAcc := (c.tickAcc + n * 100) % c.coreMHz
    ucyc := c.ucyc + (c.uAcc + n * c.uncMHz) / c.coreMHz
    uAcc := (c.uAcc + n * c.uncMHz) % c.coreMHz }

/-- Core cycles until the uncore counter reads u, and until the tick counter reads t. -/
def Clock.untilU (u : Nat) (c : Clock) : Nat := ((u - c.ucyc) * c.coreMHz - c.uAcc + c.uncMHz - 1) / c.uncMHz
def Clock.untilT (t : Nat) (c : Clock) : Nat := ((t - c.tick) * c.coreMHz - c.tickAcc + 99) / 100

/-! ### Updates of the parts of the state -/

def State.modWarp (s : State) (w : Nat) (f : Warp → Warp) : State := { s with warps := s.warps.modify w f }
def State.modBlk (s : State) (b : Nat) (f : Block → Block) : State := { s with blocks := s.blocks.modify b f }
def State.modLaunch (s : State) (l : Nat) (f : Launch → Launch) : State := { s with launches := s.launches.modify l f }
def State.modDie (s : State) (d : Nat) (f : Die → Die) : State := { s with dies := s.dies.modify d f }
def State.modCtx (s : State) (c : Nat) (f : Context → Context) : State :=
  { s with ctxs := s.ctxs.map fun x => if x.num == c then f x else x }
def State.modReq (s : State) (id : Nat) (f : Req → Req) : State :=
  { s with reqs := s.reqs.map fun r => if r.id == id then f r else r }

def State.ctx? (s : State) (c : Nat) : Option Context := s.ctxs.find? fun x => x.num == c
def State.req? (s : State) (id : Nat) : Option Req := s.reqs.find? fun r => r.id == id

/-- The block and the launch of a warp. -/
def State.blkOf (s : State) (w : Warp) : Option Block := s.blocks[w.blk]?
def State.launchOf (s : State) (w : Warp) : Option Launch := (s.blkOf w).bind fun b => s.launches[b.launch]?
def State.ctxOf (s : State) (w : Warp) : Nat := ((s.launchOf w).map (·.ctx)).getD 0
def State.clsOf (_s : State) (w : Warp) : Nat := w.cls
def Warp.die (w : Warp) : Nat := w.core / 64
def Warp.cluster (w : Warp) : Nat := w.core / 8 % 8

/-- The owner of a warp's requests (R204). -/
def State.ownerOf (s : State) (w : Warp) : Owner := ⟨s.ctxOf w, w.core, w.slot⟩

/-- Whether a context has a block placed. -/
def State.placed (s : State) (c : Nat) : Bool :=
  s.blocks.any fun b => (b.st == .running || b.st == .ending) && (s.launches[b.launch]?.map (·.ctx)) == some c

/-- The context to which a launch's running time is charged: of a bound stage, that of its oldest pipeline (R308). -/
def State.chargedTo (s : State) (l : Launch) : Nat :=
  match l.stage.bind fun k => s.stages.find? fun (x : Stage) => x.id == k with
  | none => l.ctx
  | some x => ((x.refs.head?.bind fun p => s.pipes.find? fun (y : Pipe) => y.id == p).map fun y => y.ctx).getD l.ctx

/-- Whether a context has a block placed that is charged to it (R380). -/
def State.charged (s : State) (c : Nat) : Bool :=
  s.blocks.any fun b => (b.st == .running || b.st == .ending) && (s.launches[b.launch]?.map s.chargedTo) == some c

/-- Level S (R341). -/
def State.levelS (s : State) (c : Nat) : Bool := ((s.ctx? c).map (·.sup)).getD false

/-- Time passes: the clocks, and THROTTLED of every context with a block placed (R380). -/
def State.advance (s : State) (n : Nat) : State :=
  let k := s.clk.advance n
  let lost := (k.tick - s.clk.tick) * (25 - s.clk.coreMHz / 100)
  { s with
    clk := k
    ctxs := if lost == 0 then s.ctxs
      else s.ctxs.map fun c => if s.charged c.num then { c with throttled := c.throttled + BitVec.ofNat 64 lost } else c }

def State.advanceTo (s : State) (cyc : Nat) : State := s.advance (cyc - s.clk.cyc)

/-! ### Registers (R29, R48, R58) -/

def Warp.getV (w : Warp) (lane i : Nat) : Word := mget w.v (lane * 512 + i) 0
def Warp.getS (w : Warp) (i : Nat) : Word := if i = 0 then 0 else mget w.s i 0
def Warp.lane? (w : Warp) (l : Nat) : Option Lane := w.lanes[l]?
/-- A predicate of a lane; q7 reads true (R29). -/
def Warp.getQ (w : Warp) (l i : Nat) : Bool := i == 7 || ((w.lane? l).map fun x => x.q.getLsbD i).getD false

/-- Register k of the group that begins at r, in one lane. -/
def Warp.reg (w : Warp) (l : Nat) (r : Reg) (k : Nat) : Word :=
  match r with
  | .v i => w.getV l (i.val + k)
  | .s i => w.getS (i.val + k)

/-- The value of n registers, low word first. -/
def Warp.rd (w : Warp) (l : Nat) (r : Reg) : Nat → Nat
  | 0 => 0
  | n + 1 => Warp.rd w l r n + 2 ^ (32 * n) * (w.reg l r n).toNat

/-- A pair that may be `s0` for none. -/
def Warp.rdOpt (w : Warp) (l : Nat) (r : Reg) (n : Nat) : Nat := if Reg.isS0 r then 0 else w.rd l r n

def Warp.setLane (w : Warp) (l : Nat) (f : Lane → Lane) : Warp := { w with lanes := w.lanes.modify l f }
def Warp.mapLanes (w : Warp) (m : Mask) (f : Nat → Lane → Lane) : Warp :=
  { w with lanes := w.lanes.mapIdx fun l x => if m.getLsbD l then f l x else x }

/-- The one place that writes a register: `s0` and q7 take nothing (R29), other registers their value. -/
def Warp.put (w : Warp) (d : Dst) (x : Word) : Warp :=
  match d with
  | .v l i => { w with v := mset (l * 512 + i) x 0 w.v }
  | .s i => if i = 0 then w else { w with s := mset i x 0 w.s }
  | .q l i => if i = 7 then w
      else w.setLane l fun y => { y with q := if x.getLsbD 0 then y.q ||| (1#8 <<< i) else y.q &&& ~~~(1#8 <<< i) }

/-- Register writes that have become readable take effect in issue order (R58): a write stands behind every earlier one to
its register. -/
def settleList (now : Nat) : List Pend → List Dst → Warp → Warp × List Pend
  | [], _, w => (w, [])
  | p :: ps, late, w =>
    match p.val with
    | some x =>
      if p.at_ ≤ now && !late.contains p.dst then settleList now ps late (w.put p.dst x)
      else let r := settleList now ps (p.dst :: late) w; (r.1, p :: r.2)
    | none => let r := settleList now ps (p.dst :: late) w; (r.1, p :: r.2)

def Warp.settle (now : Nat) (w : Warp) : Warp :=
  let r := settleList now w.pend [] w
  { r.1 with pend := r.2 }

def dstOf (l : Nat) (r : Reg) (k : Nat) : Dst :=
  match r with
  | .v i => .v l (i.val + k)
  | .s i => .s (i.val + k)

/-- The writes of an n-register value from register k on. -/
def pendN (l : Nat) (r : Reg) (val at_ : Nat) : Nat → List Pend
  | 0 => []
  | n + 1 => pendN l r val at_ n ++ [⟨dstOf l r n, some (BitVec.ofNat 32 (val / 2 ^ (32 * n))), at_, none, none⟩]

/-- The same writes, still owed by request or command `tag`. -/
def pendTag (l : Nat) (r : Reg) (tag : Nat) : Nat → List Pend
  | 0 => []
  | n + 1 => pendTag l r tag n ++ [⟨dstOf l r n, none, 0, some tag, none⟩]

/-- A destination of `s0` in a word that runs per lane discards the result, all its registers (R49). -/
def discards (unif : Bool) (r : Reg) : Bool := !unif && Reg.isS0 r
def resN (unif : Bool) (l : Nat) (r : Reg) (val at_ n : Nat) : List Pend := if discards unif r then [] else pendN l r val at_ n
def resTag (unif : Bool) (l : Nat) (r : Reg) (tag n : Nat) : List Pend := if discards unif r then [] else pendTag l r tag n

/-- The producer `tag`, of a word instance with its counter, delivers words to its destinations in a lane. -/
def deliver (tag now : Nat) (g : Nat × Option Nat) (val : Dst → Word) (ps : List Pend) : List Pend :=
  ps.map fun p => if p.tag == some tag && p.val.isNone then { p with val := some (val p.dst), at_ := now, done := some g } else p

/-- Results of a producer that will never come: the register keeps what it holds. -/
def forget (tag : Nat) (ps : List Pend) : List Pend := ps.filter fun p => p.tag != some tag || p.val.isSome

/-! ### The word at issue -/

/-- The word that issues: its warp, its clause and its participating lanes (R140). -/
structure Iss where
  w    : Nat
  wp   : Warp
  cl   : Clause
  word : DWord
  part : Mask                   -- lanes of the issuing set that the predicate selects, without those already entered
  lead : Nat                    -- rows that its partition has issued in this cycle already (R41, R297)
  rate : Nat                    -- rows that its partition issues in a cycle: 1 with a vector unit out of service (R21)
  deriving DecidableEq, Repr

/-- Whether a word's predicate selects a lane (R32, R50). -/
def Warp.selects (w : Warp) (g : Guard) (l : Nat) : Bool := w.getQ l g.q.val != g.neg

/-- The key of a partition in the lists of units: its vector units are this and the next (R18). -/
def Warp.unitKey (w : Warp) : Nat := w.core * 16 + w.part * 2

/-- A vector unit is out of service (R21). -/
def State.unitOut (s : State) (k : Nat) : Bool := (mget s.lanemap k 0).getLsbD 6

/-- Rows that a warp's partition issues in a cycle (R18, R21). -/
def State.issueRate (s : State) (w : Warp) : Nat := if s.unitOut w.unitKey || s.unitOut (w.unitKey + 1) then 1 else 2

/-- Rows that a warp's partition has issued in this cycle. -/
def State.issueUsed (s : State) (w : Warp) : Nat :=
  let u := mget s.issued w.unitKey (0, 0)
  if u.1 = s.clk.cyc then u.2 else 0

/-- The word at issue. The lanes of one that has entered in part go on with the sources that it read when it issued (R46, R58). -/
def State.iss (s : State) (i : Instr) : Option Iss :=
  match s.cur with
  | none => none
  | some w =>
    match s.warps[w]? with
    | none => none
    | some wp =>
      match wp.clause with
      | none => none
      | some cl =>
        match cl.words with
        | [] => none
        | word :: _ =>
          match cl.src with
          | none => some ⟨w, wp, cl, word, maskOf ((lanesIn (cl.set &&& ~~~cl.entered)).filter fun l => wp.selects (Forms.guard i) l),
              s.issueUsed wp, s.issueRate wp⟩
          | some (m, v, r) => some ⟨w, { wp with v := v, s := r }, cl, word, m &&& cl.set &&& ~~~cl.entered, s.issueUsed wp, s.issueRate wp⟩

def Iss.addr (x : Iss) : Nat := x.cl.next
def Iss.w64 (x : Iss) : Bool := x.wp.width == 64
/-- The lanes for which a word acts: each participating lane, or the lowest one for the warp (R49). -/
def Iss.acts (x : Iss) (i : Instr) : List Nat :=
  if uniform x.w64 i then (lanesIn x.part).take 1 else lanesIn x.part

/-- 16-lane rows that hold lanes of a mask (R140). -/
def rows (m : Mask) : Nat := ((List.range 4).filter fun r => (lanesIn m).any fun l => l / 16 == r).length

/-- The cycle of a word's last row: its partition issues two rows in a cycle, or one (R21, R140). -/
def Iss.lastRow (x : Iss) (unif : Bool) (now : Nat) : Nat := if unif then now else now + (x.lead + rows x.cl.set - 1) / x.rate

/-- The issues that a word takes of its partition, and of its uniform unit (R141, R297). -/
def State.useIssue (s : State) (x : Iss) (unif : Bool) : State :=
  let n := x.lead + if unif then 1 else rows x.cl.set
  let row := mput x.wp.unitKey (s.clk.cyc + (n - 1) / x.rate, (n - 1) % x.rate + 1) s.issued
  { s with issued := if unif then mput (x.wp.unitKey + 1) (s.clk.cyc, 1) row else row }

/-- The first cycle in which the partition of a warp can issue a word (R41, R141, R297). -/
def State.issueFrom (s : State) (w : Warp) (unif : Bool) : Nat :=
  let u := mget s.issued w.unitKey (0, 0)
  let k := mget s.issued (w.unitKey + 1) (0, 0)
  max (max s.clk.cyc (if u.2 < s.issueRate w then u.1 else u.1 + 1)) (if unif && k.2 != 0 then k.1 + 1 else 0)

def stallOf (w : DWord) : Nat := w.toNat % 16

/-! ### Counters (R61) -/

/-- The dependency counter a word names. -/
def ctrOfWord : Instr → Option (Fin 8)
  | .ld _ _ _ _ _ _ _ x | .st _ _ _ _ _ _ _ x | .ldc _ _ _ _ x | .pf _ _ _ x | .cflush _ _ x | .cinval _ _ x
  | .binit _ _ _ x | .barrive _ _ _ x | .bwait _ _ _ x | .btest _ _ _ x | .bexpect _ _ _ x | .xcopy _ _ _ _ _ x
  | .xgather _ _ _ _ _ x | .xscatter _ _ _ _ _ x | .xmcast _ _ _ _ x | .xfill _ _ _ _ _ x | .atom _ _ _ _ _ _ _ _ x
  | .atomx _ _ _ _ _ _ _ x | .red _ _ _ _ _ _ _ x | .mzero _ x | .mload _ _ _ _ x | .mloadRaw _ _ _ x
  | .mma _ _ _ _ _ x | .mmaSet _ _ _ _ _ x | .mdrain _ _ _ _ _ x | .mdrainRaw _ _ _ x | .mread _ _ _ _ _ x
  | .spawn _ _ x | .rpush _ x | .rpushRing _ _ _ x | .rpop _ _ x | .rpopRing _ _ _ x | .reos x | .reosRing _ _ x
  | .pbind _ _ x | .punbind _ x | .pquery _ _ _ x | .creduce _ _ _ _ x | .cbcast _ _ _ x | .cmembOpen _ _ _ _ x
  | .cmembQuery _ _ _ _ x | .cmembClose _ _ _ _ x | .launch _ _ x | .assign _ _ x => x.ctr
  | _ => none

def Warp.ctrAdd (w : Warp) (c : Option Nat) : Warp :=
  match c with
  | none => w
  | some d => { w with ctrs := w.ctrs.modify d (· + 1) }

def Warp.ctrSub (w : Warp) (c : Option Nat) : Warp :=
  match c with
  | none => w
  | some d => { w with ctrs := w.ctrs.modify d (· - 1) }

def Warp.ctrFull (w : Warp) (c : Option (Fin 8)) : Bool :=
  match c with
  | none => false
  | some d => w.ctrs.getD d.val 0 ≥ 63

def ctrNat (c : Option (Fin 8)) : Option Nat := c.map (·.val)

/-- Whether any part of a word instance is still under way. -/
def State.grpBusy (s : State) (g : Nat) : Bool :=
  (s.reqs.any fun r => r.grp == g) || (s.copies.any fun c => c.grp == g) || (s.mcasts.any fun c => c.grp == g) ||
    (s.mx.any fun c => c.grp == g) || (s.ctxs.any fun c => c.devq.any fun d => d.grp == g) ||
    (s.rings.any fun r => (r.poss.any fun p => p.grp == g && !p.published) || (r.claims.any fun c => c.grp == g) ||
      r.pops.any fun p => p.grp == g) ||
    (s.groups.any fun c => (c.coll.map (·.grp)) == some g) ||
    (s.warps.any fun w => (w.clause.map fun c => c.entered != 0 && c.grp == g) == some true ||
      (w.pend.any fun p => (p.done.map (·.1)) == some g) ||
      w.lanes.any fun y => match y.st with | .waiting (.bwait _ _ _ h _) => h == g | _ => false)

/-- A part of a word instance has completed: its counter falls with the last one (R61). -/
def State.partDone (s : State) (w : Nat) (g : Nat) (c : Option Nat) : State :=
  if s.grpBusy g then s else s.modWarp w fun x => x.ctrSub c

/-- Register writes that are due take effect, and the counters of results that have reached their registers fall (R58, R61). -/
def State.settleAt (s : State) (w now : Nat) : State :=
  match s.warps[w]? with
  | none => s
  | some wp =>
    let left := (wp.settle now).pend
    let gone := ((wp.pend.filterMap (·.done)).filter fun g => !left.any fun p => p.done == some g).eraseDups
    gone.foldl (fun s g => s.partDone w g.1 g.2) (s.modWarp w (Warp.settle now))

/-- Word instances whose lanes wait in `bwait`. -/
def Warp.bwaits (w : Warp) : List (Nat × Option Nat) :=
  (w.lanes.filterMap fun y => match y.st with | .waiting (.bwait _ _ _ g c) => some (g, c) | _ => none).eraseDups

/-- Lanes have left their `bwait`: the counters of the words whose last lane has fall (R38). -/
def State.bwaitsEnd (s : State) (w : Nat) (old : Warp) : State :=
  match s.warps[w]? with
  | none => s
  | some wp => (old.bwaits.filter fun e => !wp.bwaits.contains e).foldl (fun s e => s.partDone w e.1 e.2) s

/-! ### Rejoin sets (R267, R268) -/

/-- A waiting lane goes on at the word after the one it waits in; it stays under that word's header. -/
def Lane.goOn (x : Lane) : Lane := { x with st := .standing, pc := x.pc + 8 }

/-- An arrived member stands behind its own `jwait`: at once where it waits there, or has come back to it from a trap or a posted fault and
has not issued it again, and after its return where it is still out (R268, R270). -/
def Lane.release (n : Nat) (x : Lane) : Lane :=
  if x.st == .waiting (.jwait n) then { x.goOn with arrived := mdel n x.arrived }
  else
    match x.arrived.lookup n with
    | none => x
    | some a =>
      if x.handler then (if a = x.tpc then { x with tpc := x.tpc + 8, arrived := mdel n x.arrived } else x)
      else
        match x.st with
        | .standing | .parked _ => if a = x.pc then { x with pc := x.pc + 8, arrived := mdel n x.arrived } else x
        | _ => x

/-- A set completes when members exist and all have arrived: they stand ready behind their own `jwait`. -/
def Warp.checkSet (now : Nat) (n : Nat) (w : Warp) : Warp :=
  match w.sets[n]? with
  | none => w
  | some (m, a) =>
    if m ≠ 0 ∧ a = m then
      { w.mapLanes a (fun _ x => x.release n) with
        sets := w.sets.set n (m, 0), wdFrom := some now }
    else w

/-- A waiting lane has left its wait, or none waits: the watchdog's count starts again (R275). -/
def Lane.counts (x : Lane) : Bool :=
  match x.st with
  | .waiting .bsync => false
  | .waiting _ => true
  | _ => false

def Warp.wdStart (now : Nat) (w : Warp) : Warp :=
  if w.lanes.any Lane.counts then (if w.wdFrom.isNone then { w with wdFrom := some now } else w) else { w with wdFrom := none }

/-- Lanes of a mask have left their waits: the watchdog's count starts again (R275). -/
def Warp.wdLeave (now : Nat) (old : Warp) (m : Mask) (w : Warp) : Warp :=
  Warp.wdStart now (if (lanesIn m).any fun l => ((old.lane? l).map Lane.counts).getD false then { w with wdFrom := none } else w)

/-- Lanes whose wait is over go on; the watchdog's count starts again for those that still wait. -/
def Warp.endWaits (now : Nat) (p : Wait → Bool) (w : Warp) : Warp :=
  let past : Lane → Bool := fun x => match x.st with | .waiting k => p k | _ => false
  if w.lanes.any past then
    Warp.wdStart now { w with lanes := w.lanes.map (fun x => if past x then x.goOn else x), wdFrom := none }
  else w

/-- Lanes leave every set of their warp (R265, R268). -/
def Warp.leaveSets (now : Nat) (m : Mask) (w : Warp) : Warp :=
  (List.range 12).foldl (fun w n =>
    match w.sets[n]? with
    | none => w
    | some (mm, a) => Warp.checkSet now n { w with sets := w.sets.set n (mm &&& ~~~m, a &&& (mm &&& ~~~m)) }) w

def Warp.exitLanes (now : Nat) (m : Mask) (w : Warp) : Warp :=
  Warp.wdStart now (Warp.leaveSets now m (w.mapLanes m fun _ x => { x with st := .exited }))

def Warp.allExited (w : Warp) : Bool := w.lanes.all fun x => x.st == .exited

/-- The baton passes to the next warp of the block that has not exited (R192); its lanes that wait in `mbtake` go on. -/
def State.passBaton (s : State) (b from_ : Nat) : State :=
  let alive := (s.warps.filter fun w => w.blk == b && !w.ended && !w.allExited).map (·.num)
  let above := (alive.filter fun n => from_ < n)
  match (if above.isEmpty then alive else above).min? with
  | some n =>
    let s := s.modBlk b fun x => { x with baton := n }
    { s with warps := s.warps.map fun w => if w.blk == b && w.num == n && !w.ended then
        w.endWaits s.clk.cyc (fun k => k == .mbtake) else w }
  | none => s

/-- Every lane of the block that waits in `bsync` goes on. -/
def State.releaseBsync (s : State) (b : Nat) : State :=
  { s with
    warps := s.warps.map fun w => if w.blk == b then
      { w with lanes := w.lanes.map fun x => if x.st == .waiting .bsync then x.goOn else x } else w }

/-- The block barrier (R109): when every lane that has not exited waits in a `bsync`, all go on, unless a barrier stop takes
the block there within its window (R343); a trap due in one of its lanes comes before that (R352). -/
def State.bsyncFix (s : State) (b : Nat) : State :=
  let mine := s.warps.filter fun w => w.blk == b && !w.ended
  if (mine.all fun w => w.lanes.all fun x => x.st == .exited || x.st == .waiting .bsync) &&
      (mine.any fun w => w.lanes.any fun x => x.st == .waiting .bsync) then
    match (s.blocks[b]?).map fun (x : Block) => x.pre with
    | some (.stopAtBarrier op since) =>
      if mine.any fun w => !w.due.isEmpty then s
      else if s.clk.tick - since ≤ s.grace.toNat then s.modBlk b fun x => { x with pre := .saveAtBarrier op }
      else s.releaseBsync b
    | some (.saveAtBarrier _) => s
    | _ => s.releaseBsync b
  else s

/-- A lane leaves the `bsync` at which its block was to be saved: the `bsync` has not completed, and the block may still stop at another
within the window (R352). -/
def State.barrierMissed (s : State) (b : Nat) : State :=
  s.modBlk b fun x => { x with
    pre := match x.pre with
      | .saveAtBarrier op => .stopAtBarrier op (((s.preempts.find? fun p => p.id == op).map fun p => p.start).getD 0)
      | p => p }

/-- Lanes of a warp exit (R265); an exiting holder passes the baton (R192), and the block barrier may complete. -/
def State.exitWarp (s : State) (w : Nat) (m : Mask) : State :=
  let s := s.modWarp w (Warp.exitLanes s.clk.cyc m)
  match s.warps[w]? with
  | none => s
  | some wp =>
    let s := s.bsyncFix wp.blk
    if wp.allExited then
      match s.blkOf wp with
      | some b => if b.baton == wp.num then s.passBaton wp.blk wp.num else s
      | none => s
    else s

/-! ### Fault queues (R329, R330) -/

/-- The queue's size, none when FQBASE disables it (R333). -/
def Context.fqCount (c : Context) : Option Nat :=
  let n := c.fqbase.toNat % 32
  if 4 ≤ n && n ≤ 16 then some (2 ^ n) else none

/-- Enqueues a post; the entry gets the context's next Id (R330). -/
def State.post (s : State) (c : Nat) (e : FaultEntry) : State :=
  s.modCtx c fun x =>
    { x with
      faultId := if (x.faultId + 1) % 2 ^ 32 == 0 then 1 else x.faultId + 1
      posts := x.posts ++ [{ e with id := x.faultId }]
      open_ := if e.kind ≤ 2 then x.open_ ++ [{ e with id := x.faultId }] else x.open_ }

def State.nextFaultId (s : State) (c : Nat) : Nat := ((s.ctx? c).map (·.faultId)).getD 1

/-- What a trap reports: group, code and detail (R325). -/
structure Cause where
  grp  : Nat
  code : Nat
  d0   : Nat
  d1   : Nat
  d2   : Nat
  deriving DecidableEq, Repr

/-- The detail of a memory trap: walk level (7 for none), access kind, address, failing entry. -/
def memCause (grp code lvl kind va ent : Nat) : Cause :=
  ⟨grp, code, va % 2 ^ 32, lvl * 2 ^ 29 + kind * 2 ^ 25 + va / 2 ^ 32 % 2 ^ 25, ent⟩

/-- The address that a cause's detail reports, for the entry's faulting address (R325, R330); 0 where it reports none. -/
def Cause.va (c : Cause) : Nat :=
  if c.grp == 3 then c.d0 + c.d1 % 2 ^ 25 * 2 ^ 32
  else if c.grp == 4 && c.d0 % 256 != 0 then c.d1 + c.d2 * 2 ^ 32
  else if c.grp == 6 then c.d0 + c.d1 * 2 ^ 32
  else 0

/-- The fields of an entry that name its warp, launch and block; only an entry of kind 0 names lanes (R330). -/
def State.entryOf (s : State) (w : Warp) (kind va word rowsDone : Nat) (m : Mask) (c : Cause) : FaultEntry :=
  { id := 0, kind := kind, grp := c.grp, code := c.code, va := va, word := word, rows := rowsDone, slot := w.slot,
    core := w.core, mask := if kind = 0 then m else 0, d0 := c.d0, d1 := c.d1, d2 := c.d2,
    recAddr := ((s.launchOf w).map (·.recAddr)).getD 0, lin := ((s.blkOf w).map (·.lin)).getD 0 }

/-! ### Ending a block (R328) -/

/-- Entries that the end of a block discards: bounced and held ones of its warps, unperformed (R328). -/
def Req.discardable (r : Req) : Bool :=
  match r.st with
  | .held | .bounced | .token _ | .range => true
  | _ => false

/-- The block's lanes end: at once where no clause is under way, else at its boundary. -/
def State.endLanes (s : State) (b : Nat) : State :=
  { s with
    warps := s.warps.map (fun w => if w.blk == b && w.clause.isNone && !w.ended then
      { w with lanes := w.lanes.map (fun x => { x with st := .exited }), sets := w.sets.map (fun _ => (0, 0)), wdFrom := none,
               due := [], hold := [] } else w) }

def State.dropWork (s : State) (b : Nat) : State :=
  let mine : Nat → Bool := fun w => (s.warps[w]?.map (·.blk)) == some b
  { s with
    reqs := s.reqs.filter fun r => !(mine r.warp && r.discardable)
    heldBy := s.heldBy.filter fun h =>
      match h.eng with
      | .copy _ k => !(s.copies.any fun c => c.id == k && c.blk == b)
      | .matrix _ k => !(s.mx.any fun c => c.id == k && c.blk == b)
      | .move _ | .link => true
    copies := s.copies.filter fun c => c.blk != b
    mx := s.mx.filter fun c => c.blk != b }

/-- Ends a block without a record (R340), keeping an outcome already reached. -/
def State.endQuiet (s : State) (b : Nat) : State :=
  match s.blocks[b]? with
  | none => s
  | some x =>
    if x.st == .running then (State.dropWork (State.endLanes s b) b).modBlk b fun x => { x with st := .ending } else s

/-- Ends a block with one fault-queue entry of kind 3, the launch's fault record (R328). -/
def State.endBlock (s : State) (w : Warp) (c : Cause) (word : Nat) : State :=
  match s.blocks[w.blk]? with
  | none => s
  | some x =>
    if x.st == .running then (s.post (s.ctxOf w) (s.entryOf w 3 c.va word 0 0 c)).endQuiet w.blk else s

/-! ### Taking a trap (R326, R327) -/

/-- The cause register of R323: lanes, code, group. -/
def tcauseOf (n : Nat) (c : Cause) : Word := BitVec.ofNat 32 (n % 2 ^ 16 * 2 ^ 16 + c.code % 2 ^ 11 * 2 ^ 5 + c.grp % 32)

/-- One lane takes a program trap: its trap registers, handler mode, and the handler's address (R326). -/
def Lane.trap (handler n tpc : Nat) (hdr : Option Nat) (c : Cause) (x : Lane) : Lane :=
  { x with
    tcause := tcauseOf n c, td0 := BitVec.ofNat 32 c.d0, td1 := BitVec.ofNat 32 c.d1, td2 := BitVec.ofNat 32 c.d2,
    tpc := tpc, thdr := hdr, handler := true, pc := handler, hdr := none, via := some (tpc, hdr.getD tpc),
    st := .standing }

/-- Lanes leave the clause under way. -/
def Warp.leaveClause (m : Mask) (w : Warp) : Warp :=
  { w with clause := w.clause.map fun c => { c with set := c.set &&& ~~~m } }

/-- A launch's trap handler address (R281); 0 for none. -/
def State.handlerOf (s : State) (w : Warp) : Nat := ((s.launchOf w).map (·.info.handler)).getD 0

/-- Lanes of a warp take a program trap, each with its own detail and TPC, or the block ends: with no handler, or when a
lane already is in handler mode (R326 to R328). `n` is the count of TCAUSE [31:16]. -/
def State.trap (s : State) (w : Nat) (m : Mask) (det : Nat → Cause) (tpc : Nat → Nat) (hdr : Nat → Option Nat) : State :=
  match s.warps[w]? with
  | none => s
  | some wp =>
    if m = 0 then s
    else
      let inH := (lanesIn m).filter fun l => ((wp.lane? l).map (·.handler)).getD false
      let h := s.handlerOf wp
      if h == 0 || !inH.isEmpty then
        let l := inH.headD (lowLane m)
        let s := (s.modWarp w fun x => (x.leaveClause m).mapLanes m fun _ y => { y with st := .exited }).bwaitsEnd w wp
        s.endBlock wp (det l) (tpc l)
      else
        ((s.modWarp w fun x => Warp.wdLeave s.clk.cyc wp m
          ((x.leaveClause m).mapLanes m fun l y => Lane.trap h (lanesIn m).length (tpc l) (hdr l) (det l) y)).bwaitsEnd w wp).barrierMissed wp.blk

/-- A trap at the word that issues. -/
def State.trapHere (s : State) (x : Iss) (m : Mask) (det : Nat → Cause) : State :=
  s.trap x.w m det (fun _ => x.addr) (fun _ => some x.cl.addr)

/-- Lanes park at a word on a posted fault, with one entry for all of them (R329); in handler mode the block ends (R327),
and without a queue the fault is a program trap. -/
def State.park (s : State) (w : Nat) (m : Mask) (kind va word : Nat) (hdr : Option Nat) (det : Nat → Cause) : State :=
  match s.warps[w]? with
  | none => s
  | some wp =>
    if m = 0 then s
    else
      let c := s.ctxOf wp
      if ((s.ctx? c).bind Context.fqCount).isNone then s.trap w m det (fun _ => word) (fun _ => hdr)
      else
        let inH := (lanesIn m).filter fun l => ((wp.lane? l).map (·.handler)).getD false
        if !inH.isEmpty then
          (s.modWarp w fun x => (x.leaveClause m).mapLanes m fun _ y => { y with st := .exited }).endBlock wp
            (det (inH.headD 0)) word
        else
          let id := s.nextFaultId c
          (((s.modWarp w fun x => Warp.wdLeave s.clk.cyc wp m ((x.leaveClause m).mapLanes m fun _ y =>
              { y with st := .parked id, pc := word, hdr := hdr })).bwaitsEnd w wp).barrierMissed wp.blk).post c
            (s.entryOf wp kind va word 0 m (det (lowLane m)))

/-- A return from the handler (R336): handler mode is left and the pc is TPC. The fetch decides whether TPC lies inside the
clause that the lane trapped in. -/
def Lane.rte (word : Nat × Nat) (x : Lane) : Lane :=
  { x with handler := false, pc := x.tpc, via := some word, hdr := x.thdr }

/-! ### After a word -/

/-- Traps and parkings that waited for the boundary of the lanes' clause. -/
def State.deliverDue (s : State) (w : Nat) : State :=
  match s.warps[w]? with
  | none => s
  | some wp =>
    wp.due.foldl (fun s d =>
      match s.warps[w]? with
      | none => s
      | some wp =>
        let m := maskOf ((lanesIn d.mask).filter fun l => ((wp.lane? l).map fun x => x.st != .exited).getD false)
        let pcOf : Nat → Nat := fun l => ((wp.lane? l).map (·.pc)).getD 0
        match d.post with
        | some id =>
          let inH := (lanesIn m).filter fun l => ((wp.lane? l).map (·.handler)).getD false
          if inH.isEmpty then
            (s.modWarp w fun x => Warp.wdLeave s.clk.cyc wp m (x.mapLanes m fun _ y => { y with st := .parked id })).bwaitsEnd w wp |>.barrierMissed wp.blk
          else
            (s.modWarp w fun x => x.mapLanes m fun _ y => { y with st := .exited }).endBlock wp ⟨d.grp, d.code, d.d0, d.d1, d.d2⟩
              d.word
        | none =>
          s.trap w m (fun l => ⟨d.grp, d.code, d.d0, d.d1,
              if d.grp == 3 && d.code == 16 then min 0xFFFFFF ((pcOf l - d.word) / 8) * 256 + d.d2 % 256 else d.d2⟩)
            pcOf (fun l => ((wp.lane? l).bind (·.hdr))))
      (s.modWarp w fun x => { x with due := [] })
    |> fun t => if wp.due.isEmpty then t else t.bsyncFix wp.blk

/-- A clause boundary: the lanes that stayed in the issuing set stand behind the last word (R44); ending blocks end (R328);
traps due at the boundary are taken; the warp follows its launch's class (R308). -/
def State.boundary (s : State) (w : Nat) (cl : Clause) : State :=
  let s := { s with cur := none }.modWarp w fun x =>
    { x.mapLanes cl.set (fun _ y => { y with pc := cl.next, hdr := none, via := none }) with
      clause := none, yielded := if cl.hdr.yield then some s.clk.cyc else x.yielded
      cls := ((s.launchOf x).map fun (l : Launch) => l.cls).getD x.cls }
  match s.warps[w]? with
  | none => s
  | some wp =>
    match s.blkOf wp with
    | some b => if b.st == .ending then (s.endLanes wp.blk) else s.deliverDue w
    | none => s.deliverDue w

/-- A launch of reliability class 1 or 3 (R384). -/
def State.octave (s : State) (w : Warp) : Bool :=
  ((s.launchOf w).map fun l => fld l.info.flags.toNat 1 2 == 1 || fld l.info.flags.toNat 1 2 == 3).getD false

/-- Words whose values the shadow of an octave warp draws from its queue (R384). -/
def isDrawn : Instr → Bool
  | .ld _ _ _ _ _ _ _ _ | .ldc _ _ _ _ _ | .atom _ _ _ _ _ _ _ _ _ | .atomx _ _ _ _ _ _ _ _ | .sread _ _ _ _ => true
  | _ => false

/-- The word has issued: the next one waits for its stall count, counted from its last row (R57), and other warps may issue before it
(R297); after the last word of the clause, or when no lane is left in it, the warp is at a clause boundary. -/
def State.wordDone (s : State) (x : Iss) (unif : Bool) : State :=
  match s.warps[x.w]? with
  | none => s
  | some wp =>
    let ready := x.lastRow unif s.clk.cyc + stallOf x.word
    let s := s.useIssue x unif
    match wp.clause with
    | none => { s with cur := none }.modWarp x.w fun y => { y with nextIssue := ready, lastIssue := s.clk.cyc }
    | some cl =>
      let cl := { cl with words := cl.words.tail, next := cl.next + 8, entered := 0, agreed := false, differ := 0, waits := false, seek := none, src := none }
      let draws := isDrawn (Decode.raw x.word.toNat).2 && x.part != 0 && s.octave wp
      let s := { s with cur := none }.modWarp x.w fun y =>
        { y with clause := some cl, nextIssue := ready, lastIssue := s.clk.cyc, shadowQ := y.shadowQ + if draws then 1 else 0 }
      if cl.words.isEmpty || cl.set = 0 then s.boundary x.w cl else s

/-- The word waits at issue and takes no effect (R46): the next step may place anything else. -/
def State.waitIssue (s : State) (x : Iss) : State :=
  ({ s with cur := none }.modWarp x.w fun y =>
    { y with lastIssue := s.clk.cyc, clause := y.clause.map fun (c : Clause) => { c with waits := true } }).advance 1

/-- Part of a word's lanes have taken effect; the others wait (R46), with the sources that the word read when it issued (R58). -/
def State.enterPart (s : State) (x : Iss) (m : Mask) (grp : Nat) : State :=
  (s.modWarp x.w fun y => { y with clause := y.clause.map fun c =>
    { c with entered := c.entered ||| m, grp := grp, src := c.src.or (some (x.part, x.wp.v, x.wp.s)) } }).waitIssue x

/-- A trap or parking due at the lanes' next clause boundary, or at once where no clause is under way. -/
def State.addDue (s : State) (w : Nat) (d : Due) : State :=
  let s := s.modWarp w fun x => { x with due := x.due ++ [d] }
  match s.warps[w]? with
  | some wp => if wp.clause.isNone then s.deliverDue w else s
  | none => s

/-- A warp that is held at issue is taken before its word, as though it stood at a clause boundary; lanes in which a copy or matrix
word has entered already stand behind it (R46). For a load or store word only some of whose requests have vigil entries (R209) R46 gives no
taking: the model's choice is the same two parts (log 86). -/
def State.takeWait (s : State) (w : Nat) : State :=
  match (s.warps[w]?).bind fun x => x.clause with
  | none => s
  | some cl =>
    if !cl.waits then s
    else
      let s := { s with cur := if s.cur = some w then none else s.cur }.modWarp w fun x =>
        { (x.mapLanes (cl.set &&& ~~~cl.entered) fun _ y => { y with pc := cl.next, hdr := some cl.addr, via := none }).mapLanes
            (cl.set &&& cl.entered) (fun _ y => { y with pc := cl.next + 8, hdr := some cl.addr, via := none }) with
          clause := none }
      let s := if cl.entered = 0 then s
        else s.partDone w cl.grp (ctrNat ((cl.words.head?).bind fun d => ctrOfWord (Decode.raw d.toNat).2))
      s.deliverDue w

/-- Every warp of a block that is held at issue is taken. -/
def State.takeBlock (s : State) (b : Nat) : State :=
  (List.range s.warps.length).foldl (fun s w => if ((s.warps[w]?).map fun x => x.blk) == some b then s.takeWait w else s) s

/-- FLAGS of a warp (R133). -/
def Warp.orFlags (w : Warp) (f : Nat) : Warp := { w with flags := w.flags ||| BitVec.ofNat 32 f }

end Sys2Proof.Machine
end

