-- ==== Sys2Proof/Machine/Place.lean ====
section
/-! DEFINITION. Where an address leads: the local window (R78, R79), page tables and their checks (R68 to R75, R394), homes
(R76, R77); the lines of L2 with their slot tags (R80 to R83, R392) and memory behind them. -/

namespace Sys2Proof.Machine

/-! ### Partitions (R75, R357) -/

/-- The live dies bound to a die's hierarchy, ascending. -/
def State.diesWith (s : State) (d : Nat) : List Nat :=
  match (s.dies[d]?).bind (·.hier) with
  | none => []
  | some h => (List.range s.dies.length).filter fun k =>
      ((s.dies[k]?).map fun x => x.live && x.hier == some h).getD false

/-- B(D) of R75, in blocks of 256 MiB. -/
def hbmBlocks : Nat → Nat
  | 4 => 1536
  | 3 => 1149
  | 2 => 768
  | 1 => 384
  | _ => 0

/-- The function a context is bound to (R376). -/
def State.fnOf (s : State) (c : Nat) : Option Nat :=
  (List.range s.fns.length).find? fun f =>
    ((s.fns[f]?).map fun x => fld x.cfg.toNat 63 1 == 1 && fld x.cfg.toNat 16 16 == c).getD false

/-- The tenant partition that limits a context; the supervisor context has none (R376). -/
def State.tenantOf (s : State) (c : Nat) : Option Nat :=
  if s.levelS c then none
  else (s.fnOf c).bind fun f => ((s.fns[f]?).bind fun x => s.tenparts[fld x.cfg.toNat 48 5]?).map (·.toNat)

/-! ### The local window (R78, R79) -/

def windowBase : Nat := 0x01FFFFFFFF000000
def inWindow (va : Nat) : Bool := windowBase ≤ va && va < windowBase + 2 ^ 24

/-- Fields of the pool partition word (R84). -/
def Record.share (r : Record) : Nat := fld r.pool.toNat 24 8
def Record.acc (r : Record) : Nat := fld r.pool.toNat 17 7
def Record.scratch (r : Record) : Nat := fld r.pool.toNat 9 8
def Record.regs (r : Record) : Nat := fld r.pool.toNat 0 7
/-- The scratchpad share of one block or member (R85). -/
def Record.spadShare (r : Record) : Nat := if r.share = 0 then 0 else 16384 * r.scratch / r.share / 1024 * 1024
def Record.tileShare (r : Record) : Nat := if r.share = 0 then 0 else r.acc / r.share
def Record.kib (r : Record) : Nat := 32 * r.regs + 16 * r.scratch + 10 * r.acc

def State.shareOf (s : State) (b : Block) : Nat := ((s.launches[b.launch]?).map fun l => l.info.spadShare).getD 0

/-- Whether n bytes of the window at va lie in one member of the block and in its share (R79). -/
def State.windowOk (s : State) (b : Block) (va n : Nat) : Bool :=
  let off := va - windowBase
  off / 2 ^ 22 < b.cores.length && off % 2 ^ 22 + n ≤ s.shareOf b

/-- A byte of a block's scratchpad by window offset (R86 for one that nothing has written). -/
def Block.getByte (b : Block) (off : Nat) : Byte :=
  match b.spad.lookup off with
  | some x => x
  | none =>
    match b.fresh.getD (off / 2 ^ 22) none with
    | none => 0
    | some n => Config.freeByte (n + off)

def Block.setByte (b : Block) (off : Nat) (x : Byte) : Block := { b with spad := mput off x b.spad, bad := b.bad.filter (· != off) }

def Block.getBytes (b : Block) (off : Nat) : Nat → List Byte
  | 0 => []
  | n + 1 => b.getByte off :: Block.getBytes b (off + 1) n

def Block.setBytes (b : Block) (off : Nat) : List Byte → Block
  | [] => b
  | x :: xs => Block.setBytes (b.setByte off x) (off + 1) xs

/-! ### Memory under keys (R392) -/

def patch (data : List Byte) (off : Nat) (bs : List Byte) : List Byte := data.take off ++ bs ++ data.drop (off + bs.length)

def lineOf (tier pa : Nat) : Nat := tier * 2 ^ 45 + pa / 128
def lineTier (ln : Nat) : Nat := ln / 2 ^ 45
def linePa (ln : Nat) : Nat := ln % 2 ^ 45 * 128
def memKey (tier pa : Nat) : Nat := tier * 2 ^ 52 + pa
def lineMem (ln : Nat) : Nat := memKey (lineTier ln) (linePa ln)

/-- The identity of the key in a slot. -/
def State.keyId (s : State) (slot : Nat) : Nat := ((s.keys[slot]?).map (·.key)).getD 0

/-- A line's bytes as the memory controller reads them under a slot: its own bytes under the key they were written with,
and under another key bytes that derive from nothing (R412). -/
def State.ramLine (s : State) (ln slot : Nat) : List Byte :=
  let raw := Memory.readN s.mem (lineMem ln) 128
  let data :=
    match s.memkey.lookup ln with
    | none => raw
    | some k =>
      if 2 ≤ lineTier ln || k == s.keyId slot then raw
      else (List.range 128).map fun i => Config.wrongKeyByte k (s.keyId slot) ln raw i
  s.wbs.foldl (fun d w => if w.line == ln then patch d w.off w.data else d) data

/-- A line written to memory under a slot's key. -/
def State.ramWrite (s : State) (ln slot : Nat) (data : List Byte) : State :=
  { s with
    mem := Memory.writeN s.mem (lineMem ln) data
    memkey := if 2 ≤ lineTier ln then s.memkey else mput ln (s.keyId slot) s.memkey }

def State.lineOf? (s : State) (ln : Nat) : Option Line := s.lines.find? fun l => l.line == ln

/-- The line in which the bytes of a line stand: where the move engine has moved its grain, the same line of the destination (R378). -/
def State.fwdLine (s : State) (ln : Nat) : Nat :=
  if lineTier ln == 0 then
    match s.forward.lookup (ln / 512) with
    | some g => g * 512 + ln % 512
    | none => ln
  else ln

/-- The bytes of a line as a device-scope read under a slot finds them, without any change of state. -/
def State.viewAt (s : State) (ln slot : Nat) : List Byte :=
  match s.lineOf? ln with
  | some l =>
    if l.key == slot || 2 ≤ lineTier ln then l.data
    else if l.dirty then (List.range 128).map fun i => Config.wrongKeyByte (s.keyId l.key) (s.keyId slot) ln l.data i
    else s.ramLine ln slot
  | none => s.ramLine ln slot

def State.viewLine (s : State) (ln slot : Nat) : List Byte := s.viewAt (s.fwdLine ln) slot

def State.viewByte (s : State) (tier pa slot : Nat) : Byte := (s.viewLine (lineOf tier pa) slot).getD (pa % 128) 0

def State.viewN (s : State) (tier pa slot : Nat) (n : Nat) : List Byte :=
  let ln := lineOf tier pa
  if pa % 128 + n ≤ 128 then ((s.viewLine ln slot).drop (pa % 128)).take n
  else (List.range n).map fun i => s.viewByte tier (pa + i) slot

/-! ### Page tables -/

inductive WalkRes where
  | ok (size : Nat) (leaf : DWord)
  | bad (grp code lvl ent : Nat)
  deriving DecidableEq, Repr

/-- Whether a tier is absent (R72). -/
def State.absent (s : State) (tier : Nat) : Bool :=
  (tier == 0 && !s.boot.hbmReady) || (tier == 1 && !(s.moduleForm && s.boot.lpReady))

/-- Key of a 2 MiB frame in the owner table (R394). -/
def frameKey (tier pa : Nat) : Nat := tier * 2 ^ 31 + pa / 2 ^ 21

/-- Backing of [pa, pa + n) (R75), and inside a tenant's blocks (R376). -/
def State.backed (s : State) (dies : List Nat) (c tier pa n : Nat) : Bool :=
  match (dies.head?).bind fun d => s.dies[d]? with
  | none => false
  | some d =>
    let lo := fld pa 28 12
    let hi := fld (pa + n - 1) 28 12
    match tier with
    | 0 => fld pa 40 12 == d.hbm && hi < hbmBlocks dies.length &&
        (match s.tenantOf c with
          | none => true
          | some t => fld t 32 12 ≤ lo && hi < fld t 32 12 + fld t 44 12)
    | 1 => fld pa 40 12 == d.lp && hi < d.lpBlocks
    | 2 => true
    | _ => fld (mget d.fabric (pa / 2 ^ 42) 0).toNat 63 1 == 1

/-- A table frame's tier by its region (R68). Where both region numbers are equal, the model's choice is tier 0 (log 80). -/
def State.tableTier (s : State) (dies : List Nat) (frame : Nat) : Option Nat :=
  match (dies.head?).bind fun d => s.dies[d]? with
  | none => none
  | some d =>
    if fld frame 28 12 == d.hbm then some 0 else if fld frame 28 12 == d.lp then some 1 else none

/-- The check of a table frame named at a level: its tier, or group and code. For a frame whose tier is absent and which is not backed
R68 gives codes 6 and 5 and no order: the model's choice is code 6 (log 80). -/
def State.tableFrame (s : State) (dies : List Nat) (frame : Nat) : Except (Nat × Nat) Nat :=
  match s.tableTier dies frame with
  | none => .error (3, 5)
  | some t =>
    if s.absent t then .error (3, 6)
    else
      let d := (dies.head?).bind fun d => s.dies[d]?
      let blocks := if t == 0 then hbmBlocks dies.length else (d.map (·.lpBlocks)).getD 0
      if blocks ≤ fld frame 16 12 then .error (3, 5)
      else if (s.frameOwn.lookup (frameKey t (frame * 4096))).isSome then .error (10, 3)
      else .ok t

/-- Reserved bits, field values, leaf placement and frame alignment of an entry at a level (code 5 of R71). -/
def entryBad (lvl e : Nat) : Bool :=
  if fld e 4 1 == 0 then
    lvl == 0 || fld e 52 12 != 0 || fld e 1 3 != 0 || fld e 5 7 != 0
  else
    3 ≤ lvl || fld e 63 1 != 0 || fld e 6 1 != 0 || 2 ≤ fld e 10 2 || 4 ≤ fld e 7 3 ||
      (2 ≤ fld e 7 3 && fld e 52 8 != 0) || (lvl != 0 && fld e 5 1 != 0) ||
      (lvl == 2 && fld e 12 18 != 0) || (lvl == 1 && fld e 12 9 != 0) || (lvl == 0 && fld e 5 1 == 1 && fld e 12 4 != 0)

/-- log2 of what a leaf at a level maps (R68). -/
def leafSize (lvl e : Nat) : Nat :=
  match lvl with
  | 2 => 30
  | 1 => 21
  | _ => if fld e 5 1 == 1 then 16 else 12

def sizeLevel (size : Nat) : Nat := if size == 30 then 2 else if size == 21 then 1 else 0

/-- The walk from a table frame (R68, R71 item 4): `name` is the level that names the frame and `by_` the bits reported
for it. -/
def State.walkFrom (s : State) (dies : List Nat) (va : Nat) (lvl frame name by_ : Nat) : WalkRes :=
  match s.tableFrame dies frame with
  | .error (g, c) => .bad g c name by_
  | .ok t =>
    let e := leNat (s.viewN t (frame * 4096 + fld va (12 + 9 * lvl) 9 * 8) 0 8)
    if fld e 0 1 == 0 then .bad 3 1 lvl (e % 2 ^ 32)
    else if entryBad lvl e then .bad 3 5 lvl (e % 2 ^ 32)
    else if fld e 4 1 == 1 then .ok (leafSize lvl e) (BitVec.ofNat 64 e)
    else
      match lvl with
      | 0 => .bad 3 5 0 (e % 2 ^ 32)
      | l + 1 => State.walkFrom s dies va l (fld e 12 40) (l + 1) (e % 2 ^ 32)

/-- The lines of table entries that a walk reads. -/
def State.walkLines (s : State) (dies : List Nat) (va lvl frame : Nat) : List Nat :=
  match s.tableFrame dies frame with
  | .error _ => []
  | .ok t =>
    let pa := frame * 4096 + fld va (12 + 9 * lvl) 9 * 8
    let e := leNat (s.viewN t pa 0 8)
    lineOf t pa ::
      (if fld e 0 1 == 0 || entryBad lvl e || fld e 4 1 == 1 then []
      else match lvl with
        | 0 => []
        | l + 1 => State.walkLines s dies va l (fld e 12 40))

/-- The whole walk for a context in a die partition. -/
def State.walk (s : State) (dies : List Nat) (c va : Nat) : WalkRes :=
  match s.ctx? c with
  | none => .bad 3 5 5 0
  | some x => s.walkFrom dies va 4 (fld x.ptbase.toNat 12 40) 5 (x.ptbase.toNat % 2 ^ 32)

/-! ### Leaves -/

/-- What an access asks of a page. -/
structure Want where
  kind  : Nat                   -- the access kind of R325
  write : Bool
  exec  : Bool
  deriving DecidableEq, Repr

def wantLoad : Want := ⟨0, false, false⟩
def wantStore : Want := ⟨1, true, false⟩
def wantAtomic : Want := ⟨2, true, false⟩
def wantFetch : Want := ⟨3, false, true⟩
def wantERead : Want := ⟨4, false, false⟩
def wantEWrite : Want := ⟨5, true, false⟩
def wantBarrier : Want := ⟨6, true, false⟩
def wantCache : Want := ⟨7, false, false⟩
def wantInval : Want := ⟨7, true, false⟩

/-- A context is protected while a slot is Bound to it (R392). -/
def State.boundSlot (s : State) (c : Nat) : Option Nat :=
  (List.range s.keys.length).find? fun n => n != 0 && ((s.keys[n]?).map fun k => k.st == .bound && k.ctx == c).getD false

/-- The owner-table checks of a leaf (R394): group and code, with a Void slot met through a TLB reported as code 2 (R395). -/
def State.ownCheck (s : State) (c tier pa n slot : Nat) (held : Bool) : Option (Nat × Nat) :=
  let void := slot != 0 && ((s.keys[slot]?).map fun k => k.st == .void).getD false
  let foreign := tier ≤ 1 && s.frameOwn.any fun e =>
    frameKey tier pa ≤ e.1 && e.1 ≤ frameKey tier (pa + n - 1) && e.2 != .owned c
  let wrong := slot != 0 && s.boundSlot c != some slot
  if void && held then some (10, 2) else if foreign || wrong then some (10, 3) else none

/-- Where h of R76 sends a line. -/
def homeOf (dies : List Nat) (pa : Nat) (pin : Option Nat) : Nat × Nat :=
  let h := (fld pa 40 12) ^^^ (fld pa 28 12) ^^^ (fld pa 16 12)
  let d := dies.length
  (pin.getD (dies.getD (h % d) 0), h / d % 8)

/-- The checks of a leaf, items 5 and 6 of R71, and the place an address of it has. -/
def State.leafPlace (s : State) (dies : List Nat) (die c : Nat) (sup held : Bool) (w : Want) (va size : Nat) (leaf : DWord) :
    Except (Nat × Nat) Place :=
  let e := leaf.toNat
  let tier := fld e 7 3
  let base := fld e 12 40 * 4096
  let pa := base + va % 2 ^ size
  let slot := fld e 52 8
  let pin := if fld e 62 1 == 1 then some (fld e 60 2) else none
  if s.absent tier then .error (3, 6)
  else if !s.backed dies c tier base (2 ^ size) then .error (3, 7)
  else if pin.isSome && (tier == 0 || tier == 3 || !dies.contains (pin.getD 0)) then .error (3, 8)
  else
    match s.ownCheck c tier base (2 ^ size) slot held with
    | some x => .error x
    | none =>
      if fld e 3 1 == 0 && !sup then .error (3, 4)
      else if w.exec && fld e 2 1 == 0 then .error (3, 3)
      else if w.write && fld e 1 1 == 0 then .error (3, 2)
      else
        let home := if tier == 3 then (die, 0) else homeOf dies pa pin
        .ok ⟨tier, pa, slot, fld e 10 2 == 0 && tier != 3, home.1, home.2⟩

/-- What becomes of an access. -/
inductive Tr where
  | ok (p : Place)
  | loc (off : Nat)             -- a byte of the block's scratchpad, by window offset
  | miss
  | bad (grp code lvl ent : Nat)
  deriving DecidableEq, Repr

/-- The first three checks of R71: canonical, local window, alignment. -/
def State.preCheck (s : State) (b : Block) (w : Want) (align n va : Nat) : Option Tr :=
  if 2 ^ 57 ≤ va then some (.bad 3 9 7 0)
  else if inWindow va then
    if !s.windowOk b va n then some (.bad 3 10 7 0)
    else if w.kind == 2 then some (.bad 3 11 7 0)
    else if w.exec then some (.bad 3 3 7 0)
    else if va % align != 0 then some (.bad 3 12 7 0)
    else some (.loc (va - windowBase))
  else if va % align != 0 then some (.bad 3 12 7 0)
  else none

/-- The translation of an address that a core holds, newest first: in the first-level TLB of a partition or in the second level, which the
engines use alone (R73). -/
def State.tlbFind (s : State) (core : Nat) (part : Option Nat) (c va : Nat) : Option Tlb :=
  s.tlb.find? fun t => t.core == core && t.ctx == c && t.base ≤ va && va < t.base + 2 ^ t.size && (t.part.isNone || t.part == part)

/-- Translation for a warp's access through its core's TLB (R71, R73); a walk that failed for this warp's word is reported
once. -/
def State.xlate (s : State) (wi : Nat) (wp : Warp) (w : Want) (align n va : Nat) : Tr :=
  match s.blkOf wp with
  | none => .miss
  | some b =>
    match s.preCheck b w align n va with
    | some t => t
    | none =>
      let c := s.ctxOf wp
      match s.wfaults.find? (fun f => f.warp == some wi && f.page == va / 4096) with
      | some f => .bad f.grp f.code f.lvl f.ent
      | none =>
        match s.tlbFind wp.core (some wp.part) c va with
        | none => .miss
        | some t =>
          match s.leafPlace (s.diesWith wp.die) wp.die c (s.levelS c) true w va t.size t.leaf with
          | .ok p => .ok p
          | .error (g, k) => .bad g k (sizeLevel t.size) (t.leaf.toNat % 2 ^ 32)

/-- Translation by a unit of the device itself, through the tables without a TLB; to a unit that runs for no block, the local window has
no member (R67, R79). -/
def State.xlateUnit (s : State) (die c : Nat) (w : Want) (va : Nat) : Except (Nat × Nat × Nat × Nat) Place :=
  if 2 ^ 57 ≤ va then .error (3, 9, 7, 0)
  else if inWindow va then .error (3, 10, 7, 0)
  else
    match s.walk (s.diesWith die) c va with
    | .bad g k l e => .error (g, k, l, e)
    | .ok size leaf =>
      match s.leafPlace (s.diesWith die) die c (s.levelS c) false w va size leaf with
      | .ok p => .ok p
      | .error (g, k) => .error (g, k, sizeLevel size, leaf.toNat % 2 ^ 32)

/-- A walk of an engine of a core that failed a check. -/
def State.coreFault (s : State) (core va : Nat) : Option WalkFault :=
  s.wfaults.find? fun f => f.core == core && f.warp.isNone && f.page == va / 4096

/-- An engine of a core finds no translation of an address in the core's second-level TLB: it waits for a walk (R73). -/
def State.coreMiss (s : State) (core c va : Nat) : Bool :=
  !(2 ^ 57 ≤ va || inWindow va) && (s.coreFault core va).isNone && (s.tlbFind core none c va).isNone

/-- Translation for an engine of a core, through the core's second-level TLB (R73). -/
def State.xlateCore (s : State) (core c : Nat) (w : Want) (va : Nat) : Except (Nat × Nat × Nat × Nat) Place :=
  if 2 ^ 57 ≤ va || inWindow va then s.xlateUnit (core / 64) c w va
  else
    match s.coreFault core va, s.tlbFind core none c va with
    | some f, _ => .error (f.grp, f.code, f.lvl, f.ent)
    | none, none => s.xlateUnit (core / 64) c w va
    | none, some t =>
      match s.leafPlace (s.diesWith (core / 64)) (core / 64) c (s.levelS c) true w va t.size t.leaf with
      | .ok p => .ok p
      | .error (g, k) => .error (g, k, sizeLevel t.size, t.leaf.toNat % 2 ^ 32)

/-- Where a TLB entry may stand: the one set of eight ways of the second level that its page maps to (the low bits of its page number, log
81), or any of the 64 places of a first level (R73). -/
def Tlb.rival (t x : Tlb) : Bool :=
  x.core == t.core && x.part == t.part && (t.part.isSome || x.base / 2 ^ x.size % 512 == t.base / 2 ^ t.size % 512)

/-- A translation enters a level of a core's TLB; where its set is full the oldest entry leaves (R73). -/
def State.tlbPut (s : State) (t : Tlb) : State :=
  let old := s.tlb.filter fun x => !(x.core == t.core && x.part == t.part && x.ctx == t.ctx && x.base == t.base)
  { s with tlb := t :: (old.filter t.rival).take (if t.part.isSome then 63 else 7) ++ old.filter fun x => !t.rival x }

/-- An access that its partition's first level does not hold takes the entry of the second (R73). -/
def State.tlbUse (s : State) (wp : Warp) (va : Nat) : State :=
  match s.tlbFind wp.core (some wp.part) (s.ctxOf wp) va with
  | some t =>
    if t.part.isNone && !(s.tlb.any fun x => x.core == t.core && x.ctx == t.ctx && x.base == t.base && x.part == some wp.part)
    then s.tlbPut { t with part := some wp.part } else s
  | none => s

/-! ### L2 (R80 to R83) -/

/-- The ways given out to each valid retention register, from way 15 downward (R83): register, lowest way, count. -/
def keepWays (ks : List Keep) : List (Nat × Nat × Nat) :=
  (List.range ks.length).foldl (fun (acc : List (Nat × Nat × Nat)) k =>
    match ks[k]? with
    | some x => if x.valid then
        let top := (acc.getLast?.map fun e => e.2.1).getD 16
        acc ++ [(k, top - x.ways, x.ways)] else acc
    | none => acc) []

def Keep.covers (k : Keep) (ln : Nat) : Bool := k.valid && k.base ≤ linePa ln / 4096 && linePa ln / 4096 ≤ k.limit

/-- A write-back on its way: tiers 0 and 1 at once, tier 2 through the host port (R226). -/
def State.writeBack (s : State) (l : Line) : State :=
  if !l.dirty then s
  else if lineTier l.line == 2 then { s with wbs := s.wbs ++ [⟨s.nextId, l.line, 0, l.data, l.own⟩], nextId := s.nextId + 1 }
  else s.ramWrite l.line l.key l.data

/-- A line leaves L2, with or without its write-back. -/
def State.dropLine (s : State) (ln : Nat) (back : Bool) : State :=
  match s.lineOf? ln with
  | none => s
  | some l =>
    let s := if back then s.writeBack l else s
    { s with lines := s.lines.filter fun x => x.line != ln }

/-- Victims from least to most recently used, with second chances (R80): the victim, and the lines whose bit is cleared. Where every
candidate has the bit, all are cleared and the model's choice is the first of them, the least recently used (log 82). -/
def victim (ls : List Line) : Option Nat × List Nat :=
  (((ls.find? fun l => !l.second).or ls.head?).map (·.line), (ls.takeWhile (·.second)).map (·.line))

/-- The set of a line in its slice (R80). -/
def lineSet (ln : Nat) : Fin 6144 := Config.l2Set (BitVec.ofNat 45 ln)

/-- A home slice asks the core that a line's record names, before the line is evicted (R233 item 4). -/
def State.evictProbe (s : State) (l : Line) : State :=
  match l.rel with
  | some p =>
    if s.probes.any fun q => q.line == some l.line then s
    else { s with probes := s.probes ++ [⟨s.nextId, p, none, some l.line, false, 0, none⟩], nextId := s.nextId + 1 }
  | none => s

/-- The lines of a set, from most to least recently used. -/
def State.setLines (s : State) (die slice ln : Nat) : List Line :=
  s.lines.filter fun l => l.die == die && l.slice == slice && decide (lineSet l.line = lineSet ln)

/-- A way among some ways of a set: an empty one, else that of the victim, which leaves. A line with a release record is passed over, and
its probe is sent (R233 item 4). `chance`: second chances are given (R80). -/
def State.wayAmong (s : State) (inSet : List Line) (ways : List Nat) (chance : Bool) : State × Option Nat :=
  match ways.find? fun w => !(inSet.any fun l => l.way == w) with
  | some w => (s, some w)
  | none =>
    let old := inSet.reverse.filter fun l => ways.contains l.way
    let open_ := old.filter fun l => l.rel.isNone
    let r := if chance then victim open_ else (open_.head?.map (·.line), [])
    let s := (old.takeWhile fun l => some l.line != r.1).foldl State.evictProbe s
    let s := { s with lines := s.lines.map fun l => if r.2.contains l.line then { l with second := false } else l }
    match r.1.bind s.lineOf? with
    | some l => (s.dropLine l.line true, some l.way)
    | none => (s, none)

/-- A way for a new line of a slice, after any eviction; none when no line can leave now (R80, R83). -/
def State.allocWay (s : State) (die slice ln : Nat) : State × Option Nat :=
  let inSet := s.setLines die slice ln
  let keeps := ((s.dies[die]?).map (·.keeps)).getD []
  let given := keepWays keeps
  let free := (List.range 16).filter fun w => !(given.any fun g => g.2.1 ≤ w && w < g.2.1 + g.2.2)
  match given.find? fun g => ((keeps[g.1]?).map fun k => k.covers ln).getD false with
  | none => s.wayAmong inSet free true
  | some (k, lo, n) =>
    let mine := ((List.range n).map (· + lo)).filter fun w =>
      (inSet.all fun l => l.way != w || !((keeps[k]?).map fun x => x.covers l.line).getD false)
    if mine.isEmpty then
      match s.wayAmong inSet free true with
      | (s, some w) => (s.modDie die fun d =>
          { d with keeps := d.keeps.modify k fun x => { x with overflow := min (x.overflow + 1) 0xFFFFFFFF } }, some w)
      | r => r
    else s.wayAmong inSet mine false

/-- An access brings its line to the recency its hint asks for (R80). -/
def touch (h : Hint) (ln : Nat) (ls : List Line) : List Line :=
  match h with
  | .normal => ls.filter (fun l => l.line == ln) ++ ls.filter fun l => l.line != ln
  | .keep => (ls.filter fun l => l.line == ln).map (fun l => { l with second := true }) ++ ls.filter fun l => l.line != ln
  | _ => ls

/-- An access under one slot that meets the line under another: the line is written back and removed (R392). -/
def State.slotMiss (s : State) (p : Place) : State :=
  match s.lineOf? (lineOf p.tier p.pa) with
  | some l => if l.key == p.key then s else s.dropLine l.line true
  | none => s

/-- The line of a place is brought into L2 where its hint and page allow it; otherwise it stays in memory. -/
def State.fill (s : State) (p : Place) (h : Hint) (write : Bool) : State :=
  let ln := lineOf p.tier p.pa
  let s := s.slotMiss p
  if (s.lineOf? ln).isSome then { s with lines := touch (if p.cached then h else .nc) ln s.lines }
  else if !p.cached || h == .nc || (h == .stream && !write) then s
  else
    let data := s.ramLine ln p.key
    match s.allocWay p.die p.slice ln with
    | (s, none) => s
    | (s, some w) =>
      let l : Line := ⟨ln, p.die, p.slice, p.key, false, data, w, h == .keep, none, none⟩
      { s with lines := if h == .ef || h == .stream then s.lines ++ [l] else l :: s.lines }

/-- Poisoned bytes among n of a tier (R382), where they stand now (R378). -/
def State.isBad (s : State) (tier pa n : Nat) : Bool :=
  !s.poison.isEmpty && (List.range n).any fun i =>
    s.poison.contains (lineMem (s.fwdLine (lineOf tier (pa + i))) + (pa + i) % 128)

/-- Bytes become poisoned: an error that a read has found in them (R382). -/
def State.spoil (s : State) (tier pa n : Nat) : State :=
  { s with poison := (s.poison ++ (List.range n).map fun i => lineMem (s.fwdLine (lineOf tier (pa + i))) + (pa + i) % 128).eraseDups }

/-- Bytes that are written are poisoned no more. -/
def State.cured (s : State) (tier pa n : Nat) : List Nat :=
  s.poison.filter fun k => k < memKey tier pa || memKey tier pa + n ≤ k

/-- Bytes of one line written at their home, in L2 where the line stands there, else in memory. -/
def State.putLine (s : State) (p : Place) (bs : List Byte) (rel : Option Nat) (own : Option Owner) : State :=
  let ln := lineOf p.tier p.pa
  let s := { s with poison := s.cured p.tier p.pa bs.length }
  match s.lineOf? ln with
  | some l =>
    if l.key == p.key then
      { s with lines := s.lines.map fun x => if x.line == ln then
          { x with data := patch x.data (p.pa % 128) bs, dirty := true, rel := rel, own := if p.tier == 2 then own else none }
          else x }
    else
      let s := s.dropLine ln true
      s.ramWrite ln p.key (patch (s.ramLine ln p.key) (p.pa % 128) bs)
  | none => s.ramWrite ln p.key (patch (s.ramLine ln p.key) (p.pa % 128) bs)

/-- Where the move engine forwards a source address (R378): the same place in the destination block. -/
def State.forwarded (s : State) (p : Place) : Place :=
  if p.tier == 0 then
    match s.forward.lookup (p.pa / 2 ^ 16) with
    | some g =>
      let pa := g * 2 ^ 16 + p.pa % 2 ^ 16
      let home := homeOf (s.diesWith p.die) pa none
      { p with pa := pa, die := home.1, slice := home.2 }
    | none => p
  else p

/-! ### The constant caches (R90) -/

/-- The constant-cache lines of some launches are dropped. -/
def State.ccDropOf (s : State) (p : Nat → Bool) : State := { s with ccache := s.ccache.filter fun e => !p e.2.1 }

/-- The constant-cache lines of some contexts are dropped. -/
def State.ccDropCtx (s : State) (p : Nat → Bool) : State :=
  s.ccDropOf fun li => ((s.launches[li]?).map fun l => p l.ctx).getD false

/-! ### Reads and writes by the device's own units (launch controller, fault queues, link engine, save areas) -/

/-- n bytes at va under a context's tables; the first failing byte's cause otherwise. -/
def State.readVirt (s : State) (die c va : Nat) : Nat → Except (Nat × Nat × Nat × Nat × Nat) (List Byte)
  | 0 => .ok []
  | n + 1 =>
    match s.xlateUnit die c wantLoad va with
    | .error (g, k, l, e) => .error (g, k, l, e, va)
    | .ok p =>
      match State.readVirt s die c (va + 1) n with
      | .error x => .error x
      | .ok bs => .ok (s.viewByte p.tier p.pa p.key :: bs)

/-- The n bytes of one aligned piece (it lies in one page and one line). -/
def State.readPiece (s : State) (die c va n : Nat) : Except (Nat × Nat × Nat × Nat × Nat) (List Byte) :=
  match s.xlateUnit die c wantLoad va with
  | .error (g, k, l, e) => .error (g, k, l, e, va)
  | .ok p => .ok (s.viewN p.tier p.pa p.key n)

def State.read64 (s : State) (die c va : Nat) : Option Nat := ((s.readPiece die c va 8).toOption).map leNat

/-- One byte written by a unit of the device: at a peer, at the host, or at its line's home. -/
def State.unitPut (s : State) (p : Place) (b : Byte) : State :=
  if p.tier == 3 then
    { s.ramWrite (lineOf 3 p.pa) 0 (patch (s.ramLine (lineOf 3 p.pa) 0) (p.pa % 128) [b]) with out := s.out ++ [.fabric (p.pa / 2 ^ 42) [b]] }
  else if p.tier == 2 && (s.lineOf? (lineOf 2 p.pa)).isNone then
    { s.ramWrite (lineOf 2 p.pa) 0 (patch (s.ramLine (lineOf 2 p.pa) 0) (p.pa % 128) [b]) with out := s.out ++ [.hostWrite p.pa [b]] }
  else s.putLine p [b] none none

/-- Whether an engine holds a line of the n bytes at va: a unit's write to them waits for its release (R103). -/
def State.unitHeld (s : State) (die c va n : Nat) : Bool :=
  (List.range (n / 128 + 2)).any fun k =>
    match s.xlateUnit die c wantEWrite (min (va + 128 * k) (va + n - 1)) with
    | .error _ => false
    | .ok p => s.heldBy.any fun h => h.line == lineOf (s.forwarded p).tier (s.forwarded p).pa

/-- Bytes written under a context's tables; a byte that does not translate is not written. -/
def State.writeVirt (s : State) (die c va : Nat) : List Byte → State
  | [] => s
  | b :: bs =>
    match s.xlateUnit die c wantEWrite va with
    | .error _ => State.writeVirt s die c (va + 1) bs
    | .ok p => State.writeVirt (s.unitPut (s.forwarded p) b) die c (va + 1) bs

end Sys2Proof.Machine
end

