-- ==== Sys2Proof/Machine/Vigil.lean ====
section
/-! DEFINITION. Requests and the vigil store (R204 to R222): entries, the release gate, the acquire hold and the same-line hold;
what a request reads and writes at its home (R76, R203, R214); replies, bounces, reissues; fence tokens (R224) and promotion
(R233). -/

namespace Sys2Proof.Machine

open Sys2Proof.Forms

def Req.line (r : Req) : Nat := lineOf r.place.tier r.place.pa
def Req.isAcq (r : Req) : Bool :=
  match r.op with
  | .load _ _ | .atomic _ _ _ _ => r.order == .acq || r.order == .acqrel
  | _ => false
def Req.isRel (r : Req) : Bool :=
  match r.op with
  | .store | .atomic _ _ _ _ => r.order == .rel || r.order == .acqrel
  | _ => false
def Req.isAtomic (r : Req) : Bool :=
  match r.op with
  | .atomic _ _ _ _ => true
  | _ => false
/-- A load or an atomic, which an acquire fence covers (R224). -/
def Req.reads (r : Req) : Bool :=
  match r.op with
  | .load _ _ | .ldc _ _ | .atomic _ _ _ _ => true
  | _ => false

/-- One sequence number of an owner comes before another: they are 32-bit numbers that wrap (R204). -/
def earlier (a b : Nat) : Bool := a % 2 ^ 32 != b % 2 ^ 32 && (b + 2 ^ 32 - a % 2 ^ 32) % 2 ^ 32 < 2 ^ 31

def Access.full (a : Access) : Bool := a.got.all Option.isSome

/-- Whether an access has performed at a scope (R214). At core scope a store has with its entry. A load has not while it may still bounce and
read anew, though it has found its bytes in the vigil store: its perform event is at its last issue (R215, R216). -/
def Req.performedAt (r : Req) (sc : Scope) : Bool :=
  r.st == .ordered ||
    (sc == .core && (match r.op with
      | .store => r.loc.isNone && r.place.tier != 3 && r.fault.isNone
      | _ => false))

/-- Whether a request still has its vigil-store entry (R208): until it has performed at device scope, an atomic until its reply is
written. -/
def Req.entry (r : Req) : Bool :=
  r.loc.isNone && (r.st != .ordered || (match r.op with | .atomic _ _ _ (some _) => true | _ => false))

/-- An owner's tier-2 writes have all been accepted by the host (R226). -/
def State.drained (s : State) (o : Owner) : Bool :=
  !(s.lines.any fun l => l.dirty && l.own == some o) && !(s.wbs.any fun w => w.own == some o)

/-- So have those that its warp made under another owner, before it was saved (R242). -/
def State.sysClear (s : State) (o : Owner) : Bool :=
  s.drained o && s.warps.all fun w => w.ended || w.was.isEmpty || s.ownerOf w != o || w.was.all s.drained

/-- What other owners of a core have stored that happens before what an owner does next, through releases and acquires at core scope (R228,
R231, R234). -/
def State.afterOf (s : State) (o : Owner) : List Nat :=
  ((s.warps.find? fun w => !w.ended && s.ownerOf w == o).map fun w => w.after).getD []

/-- A request has performed at a scope, or is no more. -/
def State.reqDone (s : State) (sc : Scope) (id : Nat) : Bool :=
  (s.reqs.all fun r => r.id != id || r.performedAt sc) && s.images.all fun m => m.reqs.all fun r => r.id != id

/-- Every access that an owner made before sequence number `seq` has performed at a scope (R218), and at a scope wider than the core so has
every store that happens before it by what it acquired on its core, of the requests numbered below `below` (R234, R238). -/
def State.gateUpTo (s : State) (o : Owner) (seq below : Nat) (sc : Scope) : Bool :=
  (s.reqs.all fun r => r.owner != o || !earlier r.seq seq || r.performedAt sc) && (sc != .sys || s.sysClear o) &&
    (sc == .core || (s.afterOf o).all fun i => below ≤ i || s.reqDone sc i)

/-- The gate of a release that issues now. -/
def State.gateOpen (s : State) (o : Owner) (seq : Nat) (sc : Scope) : Bool := s.gateUpTo o seq s.nextId sc

/-- An `rpop` of an owner that waits: an acquire for the accesses after it (R317). -/
def State.popping (s : State) (o : Owner) (below : Nat) : Bool :=
  s.rings.any fun q => q.pops.any fun p => decide (p.id < below) && ((s.warps[p.warp]?).map s.ownerOf) == some o

/-- What a warp acquires on its core: the stores of other owners that its core may have read to it and that have not performed at `dev` scope
yet happen before what it does next (R231, R234). -/
def State.sync (s : State) (w : Nat) : State :=
  match s.warps[w]? with
  | none => s
  | some wp =>
    let o := s.ownerOf wp
    let open_ := (s.reqs ++ s.images.flatMap fun (m : Image) => m.reqs).filter fun r => r.loc.isNone && r.st != .ordered && (r.op matches .store)
    let ids := (open_.filter fun r => (r.owner.core == o.core || r.took == o.core) && r.owner != o).map fun r => r.id
    s.modWarp w fun x => { x with after := ((x.after.filter fun i => open_.any fun r => r.id == i) ++ ids).eraseDups }

/-- Whether a request may leave the core: no acquire before it is unperformed (R219, R317), its release gate is open (R218), and no
request to its line before it is still at the core (R217). -/
def State.mayLeave (s : State) (r : Req) : Bool :=
  r.fault.isNone && !s.popping r.owner r.id &&
    (s.reqs.all fun p => p.owner != r.owner || !earlier p.seq r.seq ||
      ((!p.isAcq || p.performedAt p.scope) &&
        (p.line != r.line || p.loc.isSome || r.loc.isSome ||
          (match p.st with | .held | .bounced | .token _ => false | _ => true)))) &&
    (!r.isRel || s.gateUpTo r.owner r.seq r.id r.scope)

def Access.covers (a : Access) (pa : Nat) : Bool := a.pa ≤ pa && pa < a.pa + a.size

/-- The store that serves a byte to a load from the vigil store of its core, its lane's access and the byte (R210): of the youngest store
entry that covers it and still serves it. A store of the load's own owner that comes after it is none of them (R234). -/
def State.servedBy (s : State) (r : Req) (pa : Nat) : Option (Req × Access × Byte) :=
  s.reqs.foldl (fun (best : Option (Req × Access × Byte)) e =>
    if e.owner.core == r.owner.core && e.loc.isNone && e.place.tier == r.place.tier && e.place.key == r.place.key && (e.op matches .store) &&
        (e.owner != r.owner || earlier e.seq r.seq) && ((best.map fun x => decide (x.1.id ≤ e.id)).getD true) then
      ((e.accs.findRev? fun a => a.covers pa).bind fun a => (a.got.getD (pa - a.pa) none).map fun b => (e, a, b)).or best
    else best) none

def State.served (s : State) (r : Req) (pa : Nat) : Option Byte := (s.servedBy r pa).map fun e => e.2.2

/-- A load of up to 8 bytes would take some bytes of a store of up to 8 from the vigil store and others of it from elsewhere, where a store that
may stand before it in coherence order has them: it waits, since it sees the store whole or not at all (R227). -/
def State.torn (s : State) (r : Req) : Bool :=
  r.accs.any fun a => a.size ≤ 8 && (List.range a.size).any fun i =>
    match s.servedBy r (a.pa + i) with
    | none => false
    | some (e, x, _) => x.size ≤ 8 && (List.range a.size).any fun j => x.covers (a.pa + j) &&
        !(((s.servedBy r (a.pa + j)).map fun f => f.1.owner == e.owner && !earlier f.1.seq e.seq).getD false)

/-- What a load's access finds in the vigil store. -/
def State.servedAccess (s : State) (r : Req) (a : Access) : Access :=
  { a with got := (List.range a.size).map fun i => s.served r (a.pa + i) }

/-- The home queue of a request whose accesses are performed by a slice: die, slice and kind (R195, R415). -/
def Req.slice (r : Req) : Option (Nat × Nat × Bool) :=
  if r.loc.isSome || 3 ≤ r.place.tier || (r.isAtomic && r.place.tier == 2 && !r.place.cached) then none
  else some (r.place.die, r.place.slice, r.isAtomic)

/-- Requests that stand in a slice's queue, class 0 first, each part in arrival order. -/
def State.queueOf (s : State) (die slice : Nat) (atomic : Bool) : List Req :=
  let q := s.reqs.filter fun r => r.st == .flight && r.admitted && r.hops.isEmpty && r.slice == some (die, slice, atomic)
  (q.filter fun r => r.cls == 0) ++ q.filter fun r => r.cls != 0

/-- The ports of a map entry that are up, ascending. -/
def State.upPorts (s : State) (entry : Nat) : List Nat := (List.range 18).filter fun k => entry.testBit (32 + k) && s.ports.getD k false

/-- The port through which a die's access to a tier-3 address leaves; none where no port of its entry is up (R362). -/
def State.portAt (s : State) (die pa : Nat) : Option Nat :=
  let e := ((s.dies[die]?).map fun d => (mget d.fabric (pa / 2 ^ 42) 0).toNat).getD 0
  let ps := s.upPorts e
  if ps.isEmpty then none else ps[pa / 128 % 2 ^ 35 % ps.length]?

def State.portOf (s : State) (r : Req) : Option Nat := s.portAt (r.owner.core / 64) r.place.pa

/-- HOLDk's bound for a class. -/
def State.holdBound (s : State) (k cls : Nat) : Nat :=
  let r := ((s.holds[k]?).map (·.toNat)).getD 512
  if cls == 0 then fld r 16 16 else fld r 0 16

/-- The virtual channel of a context's requests on the die links (R376). -/
def State.channel (s : State) (c : Nat) : Nat :=
  if s.levelS c then 0 else (((s.fnOf c).bind fun f => s.fns[f]?).map fun x => fld x.cfg.toNat 44 4).getD 1

/-- The first of some requests in the order of service: class 0 before the others, each part in arrival order (R379). -/
def firstOf (rs : List Req) : Option Req := (rs.find? fun r => r.cls == 0).or rs.head?

/-- The queue type whose head, or port, a request in flight stands at, if it stands at one (R205, R415): its core's port without
admission, its channel of a die link, its slice's queue, a fabric port. -/
def State.headType (s : State) (r : Req) : Option Nat :=
  if r.st != .flight || r.loc.isSome then none
  else if r.place.tier == 3 then
    let port := s.portOf r
    if port.isNone || (firstOf (s.reqs.filter fun p => p.st == .flight && p.loc.isNone && p.place.tier == 3 && s.portOf p == port)).map (·.id) == some r.id
    then some 4 else none
  else
    match r.slice with
    | none => some 1
    | some (d, k, a) =>
      if !r.admitted then some (if a then 1 else 0)
      else
        match r.hops.head? with
        | some h =>
          if (firstOf (s.reqs.filter fun p => p.st == .flight && p.admitted && p.hops.head? == some h &&
            s.channel p.owner.ctx == s.channel r.owner.ctx)).map (·.id) == some r.id then some 3 else none
        | none => if (s.queueOf d k a).head?.map (·.id) == some r.id then some (if a then 1 else 0) else none

/-- Requests that have reached a head, or a port, start their hold time, with the bound that holds now (R206, R207). -/
def State.heads (s : State) : State :=
  { s with reqs := s.reqs.map fun r =>
      match s.headType r with
      | some k => if r.waitFrom.isNone then { r with waitFrom := some (s.clk.ucyc, s.holdBound k r.cls) } else r
      | none => if r.waitFrom.isNone then r else { r with waitFrom := none } }

/-- Entries of a slice's atomic request queue that a class may still take: 252 for classes 1 to 3, 256 with class 0 (R278). A request
whose line the host has been asked for keeps its entry. -/
def State.admits (s : State) (die slice cls : Nat) : Bool :=
  let q := s.reqs.filter fun r => (r.st == .flight || r.st == .outside) && r.admitted && r.slice == some (die, slice, true)
  if cls == 0 then q.length < 256 else q.length < 256 && (q.filter fun r => r.cls != 0).length < 252

/-- A request has come to where it waits next: it stands behind those that came before it (R195, R279, R415). -/
def State.arrive (s : State) (id : Nat) : State :=
  { s with reqs := s.reqs.filter (fun r => r.id != id) ++ s.reqs.filter fun r => r.id == id }

/-- Freed entries of an atomic request queue go to the waiting requests: the lowest class first, and within a class round robin among
the sending cores (R278). Which core has the first turn after reset the rule leaves open: the model's choice is core 1, and core 0 comes last
of all (log 17). -/
def State.takeIn (s : State) (die slice : Nat) : Nat → State
  | 0 => s
  | n + 1 =>
    let waiting := s.reqs.filter fun r => r.st == .flight && !r.admitted && r.slice == some (die, slice, true) && s.admits die slice r.cls
    match (waiting.map (·.cls)).min? with
    | none => s
    | some c =>
      let key := (die * 8 + slice) * 4 + c
      let last := mget s.turns key 0
      let turn := sortOn ((waiting.filter fun r => r.cls == c).map fun r => ((r.owner.core + 256 - last - 1) % 256, r))
      match turn.head? with
      | none => s
      | some (_, r) =>
        State.takeIn { (s.modReq r.id fun x => { x with admitted := true, waitFrom := none }).arrive r.id with
          turns := mput key r.owner.core s.turns } die slice n

/-- Dies linked directly: the ring 0, 1, 3, 2 (R11). -/
def dieLinked (a b : Nat) : Bool := a / 2 == b / 2 || a % 2 == b % 2

/-- The die links of a route (R12): one where the dies are linked; else through the lower common neighbour of the partition that is
live, or through the I/O die, which is 4 here. -/
def State.dieRoute (s : State) (a b : Nat) : List (Nat × Nat) :=
  if a == b then []
  else if dieLinked a b then [(a, b)]
  else
    match (s.diesWith a).find? fun k => k != a && k != b && dieLinked a k && dieLinked k b with
    | some k => [(a, k), (k, b)]
    | none => [(a, 4), (4, b)]

/-- The request leaves its core (R210, R278): a load whose bytes are all in stores of its core, with no earlier request of its owner to
the line still to be ordered, has its value; it waits at its port for admission to an atomic request queue, and crosses dies by its
route. -/
def State.leave (s : State) (id : Nat) : State :=
  match s.req? id with
  | none => s
  | some r =>
    let rest := s.reqs.filter fun x => x.id != id
    let accs := match r.op with
      | .load _ _ =>
        let got := r.accs.map (s.servedAccess r)
        if got.all Access.full && !s.torn r && s.reqs.all fun p => p.owner != r.owner || !earlier p.seq r.seq || p.line != r.line || p.loc.isSome ||
            p.st == .ordered then got
        else r.accs
      | _ => r.accs
    let atomic := (r.slice.map fun k => k.2.2).getD false
    let r := { r with st := .flight, due := s.clk.ucyc, admitted := !atomic, waitFrom := none, accs := accs,
                      hops := if r.slice.isSome then s.dieRoute (r.owner.core / 64) r.place.die else [] }
    let s := { s with reqs := rest ++ [r] }
    (if atomic then s.takeIn r.place.die r.place.slice 1 else s).heads

/-- Held requests of an owner leave in sequence order as their conditions come to hold (R212); one that a `tlbinv` has made stale is due
at once for a reissue, which translates it again (R338). -/
def State.wake (s : State) (o : Owner) : State :=
  let ids := (s.reqs.filter fun r => r.owner == o && r.st == .held).map fun r => (r.id, r.id)
  (sortOn ids).foldl (fun s i =>
    match s.req? i.2 with
    | some r =>
      if r.st == .held && s.mayLeave r then
        if r.stale then s.modReq r.id fun x => { x with st := .bounced, due := s.clk.ucyc } else s.leave r.id
      else s
    | none => s) s

/-! ### Walks (R73, R205 to R207, R415) -/

/-- The first of some walks in the order of service: class 0 before the others (R379). -/
def firstWalk (ks : List Walk) : Option Walk := (ks.find? fun k => k.cls == 0).or ks.head?

/-- The walks of a cluster's walker that no vigil store holds. -/
def State.walksAt (s : State) (die cluster : Nat) : List Walk :=
  s.walks.filter fun k => k.die == die && k.cluster == cluster && !k.stored

def State.modWalk (s : State) (id : Nat) (f : Walk → Walk) : State := { s with walks := s.walks.map fun k => if k.id == id then f k else k }

/-- Walks start from the head of the queue while fewer than 8 are in flight, and others take the free ones of its 64 entries, of which four
are class 0's alone (R73, R379). -/
def State.walkIn (s : State) (die cluster : Nat) : Nat → State
  | 0 => s
  | n + 1 =>
    let ks := s.walksAt die cluster
    let queue := ks.filter fun k => k.queued && !k.started
    match (if (ks.filter fun k => k.started).length < 8 then firstWalk queue else none),
      firstWalk (ks.filter fun k => !k.queued && queue.length < (if k.cls == 0 then 64 else 60)) with
    | some k, _ => State.walkIn (s.modWalk k.id fun x => { x with started := true, waitFrom := none }) die cluster n
    | none, some k => State.walkIn (s.modWalk k.id fun x => { x with queued := true, waitFrom := none }) die cluster n
    | none, none => s

/-- Walks move on where they can; the hold time of one at the queue's head, and of one at its core's port, runs from when it came there, with
the bound that holds then (R206, R207, R415). -/
def State.walkFix (s : State) (die cluster : Nat) : State :=
  let s := s.walkIn die cluster 144
  let head := (firstWalk ((s.walksAt die cluster).filter fun k => k.queued && !k.started)).map fun k => k.id
  { s with walks := s.walks.map fun k =>
      if k.die == die && k.cluster == cluster && !k.stored && !k.started && (!k.queued || head == some k.id) && k.waitFrom.isNone then
        { k with waitFrom := some (s.clk.ucyc, s.holdBound 2 k.cls) }
      else k }

/-- A miss in both levels of the TLB makes a walk, once for a page of a warp's word or of an engine (R73). -/
def State.addWalk (s : State) (core : Nat) (warp : Option Nat) (ctx cls va : Nat) : State :=
  if s.walks.any fun k => k.core == core && k.warp == warp && k.ctx == ctx && k.va / 4096 == va / 4096 then s
  else
    State.walkFix { s with
      nextId := s.nextId + 1
      walks := s.walks ++ [{ id := s.nextId, die := core / 64, cluster := core / 8 % 8, core := core, warp := warp, ctx := ctx, va := va, bounces := 0,
                             cls := cls, queued := false, started := false, stored := false, due := 0, waitFrom := none }] } (core / 64) (core / 8 % 8)

/-! ### Fence tokens (R224, R225) -/

def State.fenceDone (s : State) (o : Owner) (f : Fence) : Bool :=
  (f.reqs.all fun i => match s.req? i with
    | some r => r.performedAt f.scope
    | none => !(s.images.any fun m => m.reqs.any fun r => r.id == i)) &&
    (f.scope != .sys || s.sysClear o) && (f.probes.all fun i => !(s.probes.any fun p => p.id == i))

/-- A fence with `rmt` whose accesses have performed sends its promotion probes to the cores that the records of the lines its loads read
have named (R225, R233); the token then waits for their answers. -/
def State.fenceProbe (s : State) (w : Nat) : State :=
  match s.warps[w]? with
  | none => s
  | some wp =>
    let o := s.ownerOf wp
    wp.fences.zipIdx.foldl (fun s e =>
      if e.1.pending && e.1.scope == .rmt && s.fenceDone o e.1 then
        let cores := wp.saw
        let probes : List Probe := cores.mapIdx fun k c => ⟨s.nextId + k, c, some o.ctx, none, false, 0, none⟩
        { s with nextId := s.nextId + cores.length, probes := s.probes ++ probes }.modWarp w fun x =>
          { x with fences := x.fences.set e.2 { e.1 with scope := .dev, probes := probes.map fun (p : Probe) => p.id } }
      else s) s

/-- Tokens whose accesses have performed complete, and lanes in `fwait` on them return. -/
def State.fenceFix (s0 : State) (w : Nat) : State :=
  let s := s0.fenceProbe w
  match s.warps[w]? with
  | none => s
  | some wp =>
    if ((s.blkOf wp).map fun b => b.st == .saved).getD false then s0
    else
      let o := s.ownerOf wp
      let done := (List.range 8).filter fun i => ((wp.fences[i]?).map fun f => f.pending && s.fenceDone o f).getD false
      if done.isEmpty then s
      else
        (s.sync w).modWarp w fun x =>
          let back := x.lanes.any fun y => done.any fun i => y.st == .waiting (.fwait i)
          let x := { x with
            fences := x.fences.mapIdx fun i f => if done.contains i then { f with pending := false, reqs := [], probes := [] } else f
            lanes := x.lanes.map fun y => if done.any fun i => y.st == .waiting (.fwait i)
              then y.goOn else y }
          if back then Warp.wdStart s.clk.cyc { x with wdFrom := none } else x

/-- After a change in an owner's requests: held ones leave and tokens complete. -/
def State.settled (s : State) (o : Owner) : State :=
  let s := s.wake o
  (List.range s.warps.length).foldl (fun s w =>
    match s.warps[w]? with
    | some wp => if !wp.ended && wp.core == o.core && wp.slot == o.slot then s.fenceFix w else s
    | none => s) s.heads

/-- Every owner that has a warp is looked at again. -/
def State.settleAll (s : State) : State :=
  (((s.warps.filter fun w => !w.ended).map s.ownerOf).eraseDups).foldl State.settled s

/-! ### Poison (R382, R383, R385) -/

def State.count (s : State) (die : Nat) (corr unc : Nat) : State :=
  s.modDie die fun d =>
    { d with corrected := min (d.corrected + corr) 0xFFFFFFFF, uncorr := min (d.uncorr + unc) 0xFFFFFFFF }

/-- An event on a function's vector (R377). -/
def State.raise_ (s : State) (c vec : Nat) : State :=
  match s.fnOf c with
  | none =>
    if s.levelS c then
      { s with fns := s.fns.modify 0 fun f => { f with vectors := f.vectors.modify vec fun v =>
        { v with pending := v.pending + 1, since := if v.pending == 0 then s.clk.tick else v.since } } }
    else s
  | some f =>
    { s with fns := s.fns.modify f fun f => { f with vectors := f.vectors.modify vec fun v =>
        { v with pending := v.pending + 1, since := if v.pending == 0 then s.clk.tick else v.since } } }

/-- The saved blocks of some launches are no more, nor are their images (R340, R385). -/
def State.endSaved (s : State) (p : Nat → Bool) : State :=
  let gone := s.blocks.map fun (b : Block) => p b.launch && b.st == .saved
  { s with
    blocks := s.blocks.mapIdx fun k (b : Block) => if gone.getD k false then { b with st := .retired } else b
    warps := s.warps.map fun (w : Warp) => if gone.getD w.blk false then { w with ended := true } else w
    images := s.images.filter fun (i : Image) => !(gone.getD i.blk false) }

/-- Every block of a launch ends, without records, a saved one too (R340, R385). -/
def State.endLaunch (s : State) (l : Nat) : State :=
  ((List.range s.blocks.length).foldl (fun s b =>
    if ((s.blocks[b]?).map (·.launch)) == some l then s.endQuiet b else s) s).endSaved (· == l)

/-- Poisoned data is consumed: the launch rolls back to its snapshot and is dispatched again (R385), or the block ends with
code 1, or code 4 after the third rollback (R383). -/
def State.poisoned (s : State) (w : Nat) (word : Nat) : State :=
  match s.warps[w]? with
  | none => s
  | some wp =>
    let s := (s.count wp.die 0 1).raise_ (s.ctxOf wp) 2
    match (s.blkOf wp).bind fun b => (s.launches[b.launch]?).map fun l => (b.launch, l) with
    | none => s
    | some (li, l) =>
      let rel := fld l.info.flags.toNat 1 2
      if l.st == .replay then s
      else if 2 ≤ rel && l.rollback && l.rollbacks < 3 && l.st != .signalled then
        let s := (s.endLaunch li).ccDropOf (· == li)
        let s := { s with blocks := s.blocks.map fun (b : Block) => if b.launch == li then { b with dropped := true } else b }
        s.modLaunch li fun x => { x with st := .replay, rollbacks := x.rollbacks + 1 }
      else
        s.endBlock wp ⟨9, if 2 ≤ rel && 3 ≤ l.rollbacks then 4 else 1, 0, 0, 0⟩ word

/-- The first write of a launch to a page after its dispatch copies the page for rollback (R385). The page is the 4 KiB frame. -/
def State.snapshot (s : State) (w : Nat) (p : Place) : State :=
  if 2 ≤ p.tier then s
  else
    match (s.warps[w]?).bind fun wp => (s.blkOf wp).bind fun b => (s.launches[b.launch]?).map fun l => (b.launch, l, wp) with
    | none => s
    | some (li, l, wp) =>
      let frame := lineOf p.tier p.pa / 32
      if !l.rollback || l.snaps.any (fun e => e.1 == frame) then s
      else
        match s.ctx? l.ctx with
        | none => s
        | some c =>
          if c.rollsize.toNat / 4096 ≤ l.snaps.length then s.modLaunch li fun x => { x with rollback := false }
          else
            let bytes := s.viewN p.tier (p.pa / 4096 * 4096) p.key 4096
            let s := s.writeVirt wp.die l.ctx (c.rollbase.toNat + 4096 * l.snaps.length) bytes
            s.modLaunch li fun x => { x with snaps := x.snaps ++ [(frame, p.key, bytes)] }

/-! ### Performing at the home -/

/-- A fresh number for a request, command, probe or word instance. -/
def State.take (s : State) : State × Nat := ({ s with nextId := s.nextId + 1 }, s.nextId)

def Req.heldByEngine (s : State) (r : Req) : Bool := s.heldBy.any fun h => h.line == s.fwdLine r.line

/-- A write to a tier-2 line that another owner wrote last waits for that line's write-back to be accepted (R226). -/
def State.foreignDirty (s : State) (r : Req) : Bool :=
  r.place.tier == 2 && (match r.op with | .store | .atomic _ _ _ _ => true | _ => false) &&
    ((s.lines.any fun l => l.line == r.line && l.dirty && l.own.isSome && l.own != some r.owner) ||
      s.wbs.any fun w => w.line == r.line && w.own.isSome && w.own != some r.owner)

/-- A line's write-back is started; the line stays, clean (R226). -/
def State.cleanLine (s : State) (l : Line) : State :=
  let s := s.writeBack l
  { s with lines := s.lines.map fun x => if x.line == l.line then { x with dirty := false, own := none } else x }

/-- A request that would remove a line waits while the line carries a release record, until its core has answered (R233 item 4). -/
def State.recordBlocks (s : State) (r : Req) : Bool :=
  match s.lineOf? r.line with
  | some l => l.rel.isSome && (l.key != r.place.key || (match r.op with | .cflush | .cinval => r.place.cached | _ => false))
  | none => false

/-- A core-scope release needs its line in L2, where its record stands: it waits for a way (R81, R233). -/
def State.needsWay (s : State) (r : Req) : Bool :=
  r.isRel && r.scope == .core && r.place.cached && (s.lineOf? r.line).isNone &&
    (s.allocWay r.place.die r.place.slice r.line).2.isNone

/-- What a home slice starts for a request at its head that cannot be served yet: the probe before an eviction (R233), the write-back of
another owner's line (R226). -/
def State.headWork (s : State) (r : Req) : State :=
  match s.lineOf? r.line with
  | some l => if s.recordBlocks r then s.evictProbe l else if l.dirty && s.foreignDirty r then s.cleanLine l else s
  | none => if s.needsWay r then (s.allocWay r.place.die r.place.slice r.line).1 else s

/-- The owners that a slice's write counters count (R226): of its dirty tier-2 lines, and of their write-backs still to be
accepted. -/
def State.counted (s : State) (p : Place) : List Owner :=
  ((s.lines.filterMap fun l => if l.dirty && l.die == p.die && l.slice == p.slice then l.own else none) ++
    s.wbs.filterMap fun w => if homeOf (s.diesWith p.die) (linePa w.line) none == (p.die, p.slice) then w.own else none).eraseDups

/-- A write to tier 2 whose owner has no counter waits while the slice's table of 1,024 is full (R226). -/
def State.counterFull (s : State) (r : Req) : Bool :=
  r.place.tier == 2 && (match r.op with | .store | .atomic _ _ _ _ => true | _ => false) &&
    1024 ≤ (s.counted r.place).length && !(s.counted r.place).contains r.owner

/-- A tier-2 access needs the host's copy of its line or bytes before it can perform. -/
def State.needsHost (s : State) (r : Req) : Bool :=
  r.place.tier == 2 && (s.lineOf? r.line).isNone &&
    (match r.op with
      | .load _ _ | .ldc _ _ => true
      | .store => r.place.cached && r.hint != .nc
      | .atomic _ _ _ _ | .prefetch => r.place.cached
      | _ => false)

/-- Bytes a request's accesses read from their line. -/
def takeBytes (data : List Byte) (a : Access) : Access :=
  { a with got := (List.range a.size).map fun i =>
      match a.got.getD i none with
      | some b => some b
      | none => some (data.getD (a.pa % 128 + i) 0) }

/-- A request has been ordered at its home and has its value. `rel` is the record of the line that it read: an `rmt` acquire probes the
core named there and has not performed before the answer (R233); another read keeps the core for the owner's next `rmt` fence (R225). -/
def State.orderedAt (s : State) (r : Req) (rel : Option Nat) : State :=
  let s := if r.isAcq then s.sync r.warp else s
  match rel.filter fun p => r.reads && p != r.owner.core with
  | some p =>
    if r.scope == .rmt && r.isAcq then
      { (s.modReq r.id fun _ => { r with st := .probing }) with
        probes := s.probes ++ [⟨s.nextId, p, some r.owner.ctx, none, false, 0, some r.id⟩], nextId := s.nextId + 1 }
    else (s.modReq r.id fun _ => { r with st := .ordered }).modWarp r.warp fun w =>
      { w with saw := if w.saw.contains p then w.saw else w.saw ++ [p] }
  | none => s.modReq r.id fun _ => { r with st := .ordered }

def State.ordered (s : State) (r : Req) : State := s.orderedAt r ((s.lineOf? r.line).bind (·.rel))

/-- The directory record a write leaves (R233): a core-scope release to a cached page sets it to its core; a write from another
core, or at a wider scope, clears it. -/
def Req.record (r : Req) (old : Option Nat) : Option Nat :=
  if r.scope != .core then none
  else if r.isRel && r.place.cached then some r.took
  else if old == some r.took then old else none

/-- The stores of a request, lane by lane, the higher lane last (R88). A new record is not yet covered by a probe that is under way. -/
def State.putAll (s : State) (r : Req) : State :=
  let s := if r.isRel then { s with probes := s.probes.filter fun p => p.line != some r.line } else s
  r.accs.foldl (fun s a =>
    s.putLine { r.place with pa := a.pa } a.data (r.record ((s.lineOf? r.line).bind (·.rel))) (some r.owner)) s

/-- An uncached or unallocated tier-2 store goes to the host port as it is (R226). -/
def State.putHost (s : State) (r : Req) : State :=
  r.accs.foldl (fun s a =>
    { s with wbs := s.wbs ++ [⟨s.nextId, r.line, a.pa % 128, a.data, some r.owner⟩], nextId := s.nextId + 1 }) s

/-- A line enters a cluster's constant cache of 512 lines, tagged with its launch (R90). -/
def ccPut (cluster launch ln : Nat) (data : List Byte) (cc : List (Nat × Nat × Nat × List Byte)) :
    List (Nat × Nat × Nat × List Byte) :=
  let mine := cc.filter fun e => e.1 == cluster && !(e.2.1 == launch && e.2.2.1 == ln)
  (cluster, launch, ln, data) :: mine.take 511 ++ cc.filter fun e => e.1 != cluster

/-- The core learns that a store has been ordered: its bytes, and older entries' same bytes, no longer serve loads (R210). -/
def State.stopServing (s : State) (r : Req) : State :=
  { s with reqs := s.reqs.map fun x =>
      if x.id ≤ r.id && x.owner.core == r.owner.core && x.loc.isNone && x.place.tier == r.place.tier &&
          x.place.key == r.place.key && (match x.op with | .store => true | _ => false) then
        { x with accs := x.accs.map fun a =>
            { a with got := a.got.mapIdx fun i b =>
                if r.accs.any fun y => y.pa ≤ a.pa + i && a.pa + i < y.pa + y.size then none else b } }
      else x }

/-- A load, store or cache instruction performs at its home slice. A `cinval` that meets the line under another slot's tag writes it back, as any
access does (R392). Where a `pf` with hint `stream` misses, R80 has a placement for reads, none, and one for writes, least recently used, and
R91 brings the line in: the model's choice is that of a write (log 113). -/
def State.perform (s : State) (r : Req) : State :=
  let r : Req := { r with
    place := s.forwarded r.place
    accs := r.accs.map fun (a : Access) => { a with pa := (s.forwarded { r.place with pa := a.pa }).pa } }
  match r.op with
  | .load _ _ =>
    let s := s.fill r.place r.hint false
    let data := s.viewLine r.line r.place.key
    let accs := r.accs.map fun a => if a.full then a else s.servedAccess r a
    let bad := accs.any fun a => !a.full && s.isBad r.place.tier a.pa a.size
    s.ordered { r with accs := accs.map (takeBytes data), poison := bad }
  | .ldc _ _ =>
    let s := s.fill r.place r.hint false
    let data := s.viewLine r.line r.place.key
    let launch := ((s.warps[r.warp]?).bind fun w => (s.blkOf w).map (·.launch)).getD 0
    let s := { s with ccache := ccPut (r.owner.core / 8) launch r.line data s.ccache }
    s.ordered { r with accs := r.accs.map (takeBytes data), poison := r.accs.any fun a => s.isBad r.place.tier a.pa a.size }
  | .store =>
    let s := s.snapshot r.warp r.place
    let s := s.fill r.place r.hint true
    let s := if r.place.tier == 2 && (s.lineOf? r.line).isNone then s.putHost r else s.putAll r
    (s.ordered r).stopServing r
  | .cflush => (if r.place.cached then s.dropLine r.line true else s).ordered r
  | .cinval => (if r.place.cached then s.dropLine r.line (((s.lineOf? r.line).map fun l => l.key != r.place.key).getD false) else s).ordered r
  | .prefetch => (s.fill r.place r.hint true).ordered r
  | .atomic _ _ _ _ => s.ordered r

/-! ### Replies -/

/-- The register words of a value of n bytes (R88). -/
def loadWord (t : MTy) (bytes : List Byte) (k : Nat) : Word :=
  let v := leNat bytes
  match t with
  | .i8 => BitVec.ofInt 32 (BitVec.ofNat 8 v).toInt
  | .i16 => BitVec.ofInt 32 (BitVec.ofNat 16 v).toInt
  | _ => BitVec.ofNat 32 (v / 2 ^ (32 * k))

def Access.bytes (a : Access) : List Byte := a.got.map fun b => b.getD 0

/-- What a request's reply writes into one destination register. -/
def Req.result (r : Req) (d : Dst) : Word :=
  let word := fun (a : Access) (k : Nat) =>
    match r.op with
    | .load t _ | .ldc t _ => loadWord t a.bytes k
    | _ => BitVec.ofNat 32 (leNat a.bytes / 2 ^ (32 * k))
  let base := match r.op with
    | .load _ d | .ldc _ d => Reg.index d
    | .atomic _ _ _ (some d) => Reg.index d
    | _ => 0
  match d with
  | .v l i => match r.accs.find? (fun a => a.lane == l) with
    | some a => word a (i - base)
    | none => 0
  | .s i => match r.accs.head? with
    | some a => word a (i - base)
    | none => 0
  | .q _ _ => 0

/-- A request is finished: its entry is free, its counter may fall, held requests may leave. -/
def State.free1 (s : State) (r : Req) : State :=
  let s := { s with reqs := s.reqs.filter fun x => x.id != r.id }
  (s.partDone r.warp r.grp r.ctr).settled r.owner

/-- A producer delivers the words it owes: they reach their registers at once, or behind earlier writes to them; its counter falls when
they have (R58, R61). -/
def State.delivers (s : State) (w tag grp : Nat) (ctr : Option Nat) (val : Dst → Word) : State :=
  let owes := ((s.warps[w]?).map fun x => x.pend.any fun p => p.tag == some tag && p.val.isNone).getD false
  let s := s.modWarp w fun x => { x with pend := deliver tag s.clk.cyc (grp, ctr) val x.pend }
  if owes then s.settleAt w s.clk.cyc else s.partDone w grp ctr

/-- A reply with data reaches the destination registers (R61, R196). -/
def State.reply (s : State) (r : Req) : State :=
  ({ s with reqs := s.reqs.filter fun x => x.id != r.id }.delivers r.warp r.id r.grp r.ctr r.result).settled r.owner

/-! ### Bounces (R207, R211, R213, R217) -/

/-- The requests that R217 to R219 hold behind a discarded one (R213): same-line followers, releases whose gate it closes, and with an acquire
all. -/
def State.behind (s : State) (r : Req) : List Req :=
  s.reqs.filter fun p => p.owner == r.owner && earlier r.seq p.seq && p.loc.isNone &&
    (match p.st with
      | .held => p.line == r.line || r.isAcq || (p.isRel && !r.performedAt p.scope)
      | .bounced | .token _ => p.line == r.line
      | _ => false)

/-- A request is discarded without performing: no register result, and its counter falls. -/
def State.discard (s : State) (r : Req) : State :=
  let s := { s with reqs := s.reqs.filter fun x => x.id != r.id }
  (s.modWarp r.warp fun w => { w with pend := forget r.id w.pend }).partDone r.warp r.grp r.ctr

/-- The lanes that issued a request. -/
def Req.lanes (r : Req) : Mask := if r.unif then r.mask else maskOf (r.accs.map (·.lane))

/-- The bounce limit (R213): the request and those held behind it are discarded, and the lanes trap at their next boundary. -/
def State.bounceLimit (s : State) (r : Req) : State :=
  let hind := s.behind r
  let s := hind.foldl State.discard (s.discard r)
  let va := ((r.accs.head?).map (·.va)).getD 0
  let c := memCause 3 16 7 (match r.op with | .store => 1 | .atomic _ _ _ _ => 2 | .load _ _ | .ldc _ _ => 0 | _ => 7) va 0
  (s.addDue r.warp ⟨r.lanes, 3, 16, c.d0, c.d1, r.reason * 16 + min hind.length 15, r.word, none⟩).settled r.owner

/-- The entry that a bounced atomic leaves goes to the next that waits for one (R278). -/
def State.refill (s : State) (r : Req) : State :=
  match r.slice with
  | some (d, k, true) => s.takeIn d k 256
  | _ => s

/-- The bounce token reaches its core (R211): the entry is bounced and due again after its back-off; its same-line followers
in flight bounce with it, reason 7 (R217); a `pf` among them is dropped (R204). -/
def State.bounced (s : State) (r : Req) (reason : Nat) : State :=
  let again : Req → Nat → Req := fun x why =>
    { x with st := .bounced, bounces := x.bounces + 1, reason := why, due := s.clk.ucyc + 64 * 2 ^ min (x.bounces + 1) 6,
             admitted := false, hops := [], waitFrom := none,
             accs := match x.op with | .load _ _ => x.accs.map fun a => { a with got := a.got.map fun _ => none } | _ => x.accs }
  let follows : Req → Bool := fun x =>
    x.id != r.id && x.owner == r.owner && earlier r.seq x.seq && x.line == r.line && x.loc.isNone && x.st == .flight
  let s := (s.reqs.filter fun x => follows x && x.op == .prefetch).foldl State.discard s
  let s : State := { s with reqs := s.reqs.map fun x => if x.id == r.id then again x reason else if follows x then again x 7 else x }
  let s := (s.reqs.filter fun x => x.st == .bounced && 64 ≤ x.bounces && x.owner == r.owner).foldl (fun s x =>
    match s.req? x.id with
    | some y => s.bounceLimit y
    | none => s) s
  s.refill r

/-! ### New requests -/

/-- Bounced walks that stand in a core's vigil store, those of one warp or of all (R205). -/
def State.storedWalks (s : State) (core : Nat) (o : Option Owner) : Nat :=
  (s.walks.filter fun k => k.stored && k.core == core &&
    (o.isNone || (k.warp.bind fun w => (s.warps[w]?).map s.ownerOf) == o)).length

/-- Entries of the vigil store that an owner and a core still have (R209): how many requests more may enter. -/
def State.entriesFree (s : State) (o : Owner) : Nat :=
  let mine := s.reqs.filter fun r => r.entry && r.owner == o
  let shared := (s.reqs.filter fun r => r.entry && r.owner.core == o.core && !r.floor).length + s.storedWalks o.core none
  min (64 - mine.length - s.storedWalks o.core (some o)) ((256 - shared) + if mine.any (·.floor) then 0 else 1)

/-- Whether the next entry of an owner is its floor entry: no shared one is free, or its shared ones are at quota. -/
def State.takesFloor (s : State) (o : Owner) : Bool :=
  256 ≤ (s.reqs.filter fun r => r.entry && r.owner.core == o.core && !r.floor).length ||
    63 ≤ (s.reqs.filter fun r => r.entry && r.owner == o && !r.floor).length

/-- A request enters the vigil store and leaves at once unless something holds it. -/
def State.addReq (s : State) (r : Req) : State :=
  let id := s.nextId
  let seq := ((s.warps[r.warp]?).map (·.seq)).getD 0
  let r := { r with id := id, took := r.owner.core, seq := seq, floor := s.takesFloor r.owner, st := .held }
  let s := { s with nextId := id + 1, reqs := s.reqs ++ [r] }
  let s := s.modWarp r.warp fun w => { w with seq := (w.seq + 1) % 2 ^ 32 }
  if s.mayLeave r then s.leave id else s

end Sys2Proof.Machine
end

