-- ==== Sys2Proof/Machine/Operands.lean ====
section
/-! DEFINITION. How a word reads its operands and delivers its results: integer types (R144, R145), fixed latencies (R36, R57),
register results (R49), predicate results (R141), format slots (R128, R129), and the common shape of a word's meaning. -/

namespace Sys2Proof.Machine

open Sys2Proof.Forms

abbrev Res := Host.Outcome State Fault Refusal

/-- A word's meaning acts on the word that issues. -/
def State.atIssue (s : State) (i : Instr) (k : Iss → State) : Res :=
  match s.iss i with
  | none => .fault .noIssue
  | some x => .next (k x)

/-- An event of a unit that comes about only where its conditions hold; elsewhere nothing changes. -/
@[inline] def when (c : Bool) (s t : State) : Res := .next (if c then t else s)

/-! ### Results -/

/-- The fixed latency of a word: 3 on the uniform unit for the group whose latency is 4 (R36, R141). -/
def latency (lat : Nat) (unif : Bool) : Nat := if unif && lat == 4 then 3 else lat

/-- A word's register writes and flags, and its end. -/
def State.retire (s : State) (x : Iss) (unif : Bool) (ps : List Pend) (fl : Nat) : State :=
  (s.modWarp x.w fun w => { w with pend := w.pend ++ ps, flags := w.flags ||| BitVec.ofNat 32 fl }).wordDone x unif

def orAll (fs : List Nat) : Nat := fs.foldl (· ||| ·) 0

/-- A word that writes an n-register value in each lane it acts for: `f` gives the value and the flags of a lane (R49, R57, R58). -/
def State.regWord (s : State) (i : Instr) (d : Reg) (n lat : Nat) (f : Iss → Nat → Nat × Nat) : Res :=
  s.atIssue i fun x =>
    let u := uniform x.w64 i
    let at_ := x.lastRow u s.clk.cyc + latency lat u
    s.retire x u ((x.acts i).flatMap fun l => resN u l d (f x l).1 at_ n) (orAll ((x.acts i).map fun l => (f x l).2))

/-- A word that writes one value over its participating lanes: in each of them, or once into an `s` destination (R165). -/
def State.sharedWord (s : State) (i : Instr) (d : Reg) (n lat : Nat) (f : Iss → Nat × Nat) : Res :=
  s.atIssue i fun x =>
    let u := uniform x.w64 i
    let at_ := x.lastRow u s.clk.cyc + latency lat u
    let ls := lanesIn x.part
    s.retire x u ((if Reg.isS d then ls.take 1 else ls).flatMap fun l => resN u l d (f x).1 at_ n)
      (if ls.isEmpty then 0 else (f x).2)

/-- The write of a predicate in one lane. -/
def pendQ (l : Nat) (q : Fin 8) (b : Bool) (at_ : Nat) : Pend := ⟨.q l q.val, some (if b then 1 else 0), at_, none, none⟩

/-- A word that writes a predicate in every participating lane; a uniform one sets its flags once (R141). -/
def State.qWord (s : State) (i : Instr) (q : Fin 8) (lat : Nat) (f : Iss → Nat → Bool × Nat) : Res :=
  s.atIssue i fun x =>
    let u := uniform x.w64 i
    let at_ := x.lastRow u s.clk.cyc + latency lat u
    s.retire x u ((lanesIn x.part).map fun l => pendQ l q (f x l).1 at_) (orAll ((x.acts i).map fun l => (f x l).2))

/-- Operand values of the issuing warp. -/
def Iss.rd (x : Iss) (l : Nat) (r : Reg) (n : Nat) : Nat := x.wp.rd l r n
def Iss.rd1 (x : Iss) (l : Nat) (r : Reg) : Nat := (x.wp.reg l r 0).toNat

/-! ### Integers (R144, R145) -/

def tyBits : Ty → Nat
  | .i8 | .n8 | .t5 => 8
  | .i16 | .n16 | .f16 | .bf16 => 16
  | .i32 | .n32 | .f32 => 32
  | .i64 | .n64 | .f64 => 64

def tySigned : Ty → Bool
  | .i32 | .i64 | .i16 | .i8 => true
  | _ => false

/-- The number in the low w bits of x. -/
def numOf (signed : Bool) (w x : Nat) : Int :=
  let v := x % 2 ^ w
  if signed && 2 ^ (w - 1) ≤ v then (v : Int) - 2 ^ w else v

/-- A source of an integer type: its low w bits, signed or unsigned. -/
def intOf (t : Ty) (x : Nat) : Int := numOf (tySigned t) (tyBits t) x

/-- A result modulo 2^w, extended to its registers (R114, R144). -/
def intRes (t : Ty) (r : Int) : Nat :=
  (intOf t (r % 2 ^ tyBits t).toNat % 2 ^ (32 * tyRegs t)).toNat

def State.int2 (s : State) (i : Instr) (t : Ty) (d a : Reg) (f : Int → Int) : Res :=
  s.regWord i d (tyRegs t) 4 fun x l => (intRes t (f (intOf t (x.rd l a (tyRegs t)))), 0)

def State.int3 (s : State) (i : Instr) (t : Ty) (d a b : Reg) (f : Int → Int → Int) : Res :=
  s.regWord i d (tyRegs t) 4 fun x l =>
    (intRes t (f (intOf t (x.rd l a (tyRegs t))) (intOf t (x.rd l b (tyRegs t)))), 0)

/-- Bit strings of 32 or 64 bits. -/
def wideRegs (wide : Bool) : Nat := if wide then 2 else 1

def State.bits3 (s : State) (i : Instr) (wide : Bool) (d a b : Reg) (f : Nat → Nat → Nat) : Res :=
  s.regWord i d (wideRegs wide) 4 fun x l => (f (x.rd l a (wideRegs wide)) (x.rd l b (wideRegs wide)), 0)

/-- The bits of a number below w, from a function of the bit's place. -/
def bitsFrom (w : Nat) (f : Nat → Bool) : Nat :=
  (List.range w).foldl (fun n i => if f i then n + 2 ^ i else n) 0

/-! ### Floats -/

def Iss.fl (x : Iss) (t : FTy) (ftz : Bool) (l : Nat) (r : Reg) : Fl := (fmtOf t).decodeZ ftz (x.rd l r (ftyRegs t))

/-- A float word: the exact result rounded once by the word's mode (R154). -/
def State.flt2 (s : State) (i : Instr) (t : FTy) (ftz : Bool) (r : Rnd) (lat : Nat) (d a : Reg) (f : Fl → Fl × Nat) : Res :=
  s.regWord i d (ftyRegs t) lat fun x l => (fmtOf t).encode r ftz (f (x.fl t ftz l a))

def State.flt3 (s : State) (i : Instr) (t : FTy) (ftz : Bool) (r : Rnd) (lat : Nat) (d a b : Reg) (f : Fl → Fl → Fl × Nat) :
    Res :=
  s.regWord i d (ftyRegs t) lat fun x l => (fmtOf t).encode r ftz (f (x.fl t ftz l a) (x.fl t ftz l b))

def State.flt4 (s : State) (i : Instr) (t : FTy) (ftz : Bool) (r : Rnd) (lat : Nat) (d a b c : Reg)
    (f : Fl → Fl → Fl → Fl × Nat) : Res :=
  s.regWord i d (ftyRegs t) lat fun x l => (fmtOf t).encode r ftz (f (x.fl t ftz l a) (x.fl t ftz l b) (x.fl t ftz l c))

/-- Element e of a packed pair (R114). -/
def half (n e : Nat) : Nat := n / 2 ^ (16 * e) % 2 ^ 16

/-- A packed word: both elements computed alike, their flags together (R159). -/
def State.pair3 (s : State) (i : Instr) (t : FTy) (r : Rnd) (d a b : Reg) (f : Fl → Fl → Fl × Nat) : Res :=
  s.regWord i d 1 5 fun x l =>
    let e := fun k => (fmtOf t).encode r false
      (f ((fmtOf t).decode (half (x.rd1 l a) k)) ((fmtOf t).decode (half (x.rd1 l b) k)))
    ((e 0).1 + 2 ^ 16 * (e 1).1, (e 0).2 ||| (e 1).2)

/-! ### Format slots (R128, R129) -/

/-- Slot k of the launch. -/
def State.slotOf (s : State) (w : Warp) (k : Nat) : DWord := ((s.launchOf w).bind fun l => l.info.slots[k]?).getD 0

structure Slot where
  trB   : Bool
  trA   : Bool
  col   : Bool
  row   : Bool
  scale : Nat
  out   : Nat
  acc   : Nat
  b     : Nat
  a     : Nat
  deriving DecidableEq, Repr

def slotRead (w : DWord) : Slot :=
  let n := w.toNat
  ⟨fld n 20 1 == 1, fld n 19 1 == 1, fld n 17 1 == 1, fld n 16 1 == 1, fld n 13 3, fld n 9 4, fld n 8 1, fld n 4 4, fld n 0 4⟩

/-- The word that reads a slot. -/
inductive SlotUse where
  | mma | drain | load | cvtq | cvtd
  deriving DecidableEq, Repr

/-- The failing checks of a slot: code and lowest bit of the failing field. Code 17 is a combination of the two formats and the accumulator
kind, of which R129 names none: the model reports the A format's bit, 0 (DESIGN CHOICE, log 122). -/
def slotFails (u : SlotUse) (w : DWord) : List (Nat × Nat) :=
  let k := slotRead w
  let n := w.toNat
  let bad := fun (v bit : Nat) => if 9 ≤ v then [((16 : Nat), bit)] else []
  let fin := (if n / 2 ^ 21 != 0 then [(18, 21)] else []) ++ (if fld n 18 1 == 0 then [(18, 18)] else [])
  let accepts := fun (v bit : Nat) (ok : List Nat) => if v ≤ 8 && !ok.contains v then [((20 : Nat), bit)] else []
  let scale := if 3 ≤ k.scale then [(19, 13)] else []
  fin ++
    match u with
    | .mma =>
      bad k.a 0 ++ bad k.b 4 ++
        (if [(0, 7, 0), (0, 0, 0), (4, 4, 1), (5, 5, 1)].contains (k.a, k.b, k.acc) then [] else [(17, 0)])
    | .drain =>
      bad k.out 9 ++ scale ++ (if k.scale == 0 && (k.row || k.col) then [(19, 13)] else []) ++
        accepts k.out 9 [0, 1, 2, 3, 4, 5, 6]
    | .load => bad k.out 9 ++ accepts k.out 9 [0, 1, 2, 3, 4, 5, 6]
    | .cvtq => bad k.out 9 ++ scale ++ accepts k.out 9 [0, 1, 2, 3, 4, 5]
    | .cvtd => bad k.a 0 ++ scale ++ accepts k.a 0 [0, 1, 2, 3, 4, 5, 6]

/-- The lowest failing code, with the lowest failing bit that has it. -/
def slotCheck (u : SlotUse) (w : DWord) : Option (Nat × Nat) :=
  (slotFails u w).foldl (fun (acc : Option (Nat × Nat)) e =>
    match acc with
    | none => some e
    | some b => if e.1 < b.1 || (e.1 == b.1 && e.2 < b.2) then some e else some b) none

def opOf (w : DWord) : Nat := w.toNat / 2 ^ 56

/-- The trap of a failing slot: group 4 with the detail of R325. -/
def slotCause (op slot : Nat) (e : Nat × Nat) : Cause := ⟨4, e.1, op * 2 ^ 24 + e.2 * 2 ^ 16 + slot * 2 ^ 8, 0, 0⟩

/-- An engine fault without memory code (R325). -/
def engCause (op code : Nat) : Cause := ⟨4, code, op * 2 ^ 24, 0, 0⟩

/-- A scale operand, read in the slot's scale format: 1 without one, F32, BF16. -/
def scaleFl (fmt bits : Nat) : Fl :=
  match fmt with
  | 1 => fmtF32.decode bits
  | 2 => fmtBf16.decode (bits % 2 ^ 16)
  | _ => .fin false 1 0

/-- A value of a slot's format code, read as R114 holds it. -/
def codeFl (fmt bits : Nat) : Fl :=
  match fmt with
  | 0 => ofInt false (numOf true 8 bits) 0
  | 1 => ofInt false (numOf false 8 bits) 0
  | 2 => ofInt false (numOf true 16 bits) 0
  | 3 => ofInt false (numOf true 32 bits) 0
  | 4 => fmtF16.decode (bits % 2 ^ 16)
  | 5 => fmtBf16.decode (bits % 2 ^ 16)
  | _ => fmtF32.decode (bits % 2 ^ 32)

/-- Range of an integer format code. -/
def codeRange : Nat → Int × Int
  | 0 => (-128, 127)
  | 1 => (0, 255)
  | 2 => (-32768, 32767)
  | _ => (-2147483648, 2147483647)

/-- Bits of an integer as a register holds it. -/
def reg32 (v : Int) : Nat := (v % 2 ^ 32).toNat

/-! ### Trapping words -/

/-- Lanes trap at the word, and the word ends for them all. -/
def State.trapWord (s : State) (x : Iss) (m : Mask) (det : Nat → Cause) (unif : Bool) : State :=
  (s.trapHere x m det).wordDone x unif

/-- Lanes of a mask where a test holds. -/
def lanesWhere (m : Mask) (f : Nat → Bool) : Mask := maskOf ((lanesIn m).filter f)

end Sys2Proof.Machine
end

