-- ==== Sys2Proof/Machine/Issue.lean ====
section
/-! DEFINITION. Fetching a clause at the address frontier issue chooses (R44, R45, R256 to R258), the checks a word meets when
it reaches issue (R59, R60, R64, R65), and traps and parkings of memory accesses (R71, R329). -/

namespace Sys2Proof.Machine

open Sys2Proof.Forms

/-! ### Faulting accesses -/

/-- A lane's access that failed a check. -/
structure Bad where
  lane : Nat
  va   : Nat
  grp  : Nat
  code : Nat
  lvl  : Nat
  ent  : Nat
  deriving DecidableEq, Repr

/-- Codes 1 to 8 of group 3 are posted, every other code is a program trap (R71). -/
def isPosted (grp code : Nat) : Bool := grp == 3 && 1 ≤ code && code ≤ 8

/-- The detail of R325: group 10 has none. -/
def accCause (grp code lvl kind va ent : Nat) : Cause :=
  if grp == 3 then memCause grp code lvl kind va ent else ⟨grp, code, 0, 0, 0⟩

def causeOf (kind : Nat) (bads : List Bad) (l : Nat) : Cause :=
  match bads.find? fun b => b.lane == l with
  | some b => accCause b.grp b.code b.lvl kind b.va b.ent
  | none => ⟨0, 0, 0, 0, 0⟩

/-- The context of a warp has a fault queue (R329). -/
def State.hasQueue (s : State) (w : Nat) : Bool :=
  ((s.warps[w]?).bind fun wp => (s.ctx? (s.ctxOf wp)).bind Context.fqCount).isSome

/-- Lanes whose accesses failed at one word: posted ones park on one entry, the others trap, and without a queue all of them (R71, R326,
R329), together with the lanes `m` that trap there for a cause of another kind (R323). -/
def State.memTrapsAnd (s : State) (w kind word : Nat) (hdr : Option Nat) (m : Mask) (det : Nat → Cause) (bads : List Bad) : State :=
  let isPosted := fun (g c : Nat) => isPosted g c && s.hasQueue w
  let post := bads.filter fun b => isPosted b.grp b.code
  let prog := bads.filter fun b => !isPosted b.grp b.code
  let s := { s with wfaults := s.wfaults.filter fun f => f.warp != some w }
  let s := s.trap w (maskOf (prog.map (·.lane)) ||| m) (fun l => if m.getLsbD l then det l else causeOf kind bads l) (fun _ => word)
    (fun _ => hdr)
  match post with
  | [] => s
  | b :: _ => s.park w (maskOf (post.map (·.lane))) 0 b.va word hdr (causeOf kind bads)

def State.memTraps (s : State) (w kind word : Nat) (hdr : Option Nat) (bads : List Bad) : State :=
  s.memTrapsAnd w kind word hdr 0 (fun _ => ⟨0, 0, 0, 0, 0⟩) bads

/-- A word's access misses the TLBs: a walk of its own (R73). -/
def State.queueWalk (s : State) (w va : Nat) : State :=
  match s.warps[w]? with
  | none => s
  | some wp => s.addWalk wp.core (some w) (s.ctxOf wp) (s.clsOf wp) va

/-! ### Fetch -/

inductive Fetched where
  | word (w : DWord)
  | miss
  | bad (grp code lvl ent : Nat)
  deriving DecidableEq, Repr

/-- What a fetch finds at an address: no header stands at or above 2^48 (R256) or off a multiple of 8. Where a clause's header lies below 2^48
and some of its words do not, the spec does not say what those words are: the model's choice is 0 (log 83). -/
def State.fetchAt (s : State) (w : Nat) (wp : Warp) (va : Nat) : Fetched :=
  if 2 ^ 48 ≤ va || va % 8 != 0 then .word 0
  else
    match s.xlate w wp wantFetch 8 8 va with
    | .ok p => .word (wordOfBytes (s.viewN p.tier p.pa p.key 8))
    | .loc _ => .bad 3 3 7 0
    | .miss => .miss
    | .bad g c l e => .bad g c l e

/-- The address of the header under which a lane's pc stands: the lane's clause where pc lies in it, else pc itself. -/
def State.headOf (s : State) (w : Nat) (wp : Warp) (x : Lane) : Nat :=
  match x.hdr with
  | none => x.pc
  | some h =>
    match s.fetchAt w wp h with
    | .word hw =>
      match decodeHeader hw with
      | some d => if h < x.pc && x.pc ≤ h + 8 * d.count && x.pc % 8 == 0 then h else x.pc
      | none => x.pc
    | _ => h

/-- The wait mask holds (R62). -/
def Warp.maskHolds (w : Warp) (m : Nat) : Bool := (List.range 8).all fun n => !m.testBit n || w.ctrs.getD n 0 == 0

/-- A standing lane whose header's wait mask holds is ready (R256); one whose header cannot be read yet is, to fetch it. -/
def State.laneReady (s : State) (w : Nat) (wp : Warp) (x : Lane) : Bool :=
  x.st == .standing &&
    match s.fetchAt w wp (s.headOf w wp x) with
    | .word hw => (match decodeHeader hw with | some d => wp.maskHolds d.mask | none => true)
    | _ => true

/-- The ready lanes of a warp with their program counters. -/
def State.readyLanes (s : State) (w : Nat) (wp : Warp) : List (Nat × Lane) :=
  (wp.lanes.mapIdx fun l x => (l, x)).filter fun e => s.laneReady w wp e.2

/-- The issuing address (R257). -/
def issueAddr (ready : List (Nat × Lane)) : Option Nat :=
  let late := ready.filter fun e => 1024 ≤ e.2.pass
  ((if late.isEmpty then ready else late).map fun e => e.2.pc).min?

/-- Pass counts at an issue opportunity (R258). -/
def Warp.passed (w : Warp) (ready : Mask) (set : Mask) : Warp :=
  w.mapLanes ready fun l x => { x with pass := if set.getLsbD l then 0 else min (x.pass + 1) 1024 }

/-- Group 1 reports the word (R325). -/
def encCause (code : Nat) (w : DWord) : Cause := ⟨1, code, w.toNat % 2 ^ 32, w.toNat / 2 ^ 32, 0⟩

/-- No header stands where one must: code 5 at the transfer word for lanes that came by one, those of each word together (R323), else code 1
(R44). -/
def State.noHeader (s : State) (w : Nat) (wp : Warp) (set : Mask) (hw : DWord) : State :=
  let viaOf : Nat → Option (Nat × Nat) := fun l => (wp.lane? l).bind (·.via)
  let came := lanesWhere set fun l => (viaOf l).isSome && !isHeader hw
  let wordAt : Nat → DWord := fun a =>
    match s.fetchAt w wp a with
    | .word x => x
    | _ => 0
  let words := ((lanesIn came).map fun l => ((viaOf l).getD (0, 0)).1).eraseDups
  let s1 := words.foldl (fun s a => s.trap w (lanesWhere came fun l => ((viaOf l).getD (0, 0)).1 == a) (fun _ => encCause 5 (wordAt a)) (fun _ => a)
    (fun l => (viaOf l).map (·.2))) s
  s1.trap w (set &&& ~~~came) (fun _ => encCause 1 hw) (fun l => ((wp.lane? l).map (·.pc)).getD 0) (fun _ => none)

/-- The words of a clause: the first address that cannot be fetched, or all of them. -/
def State.fetchWords (s : State) (w : Nat) (wp : Warp) (addr : Nat) : Nat → Except (Nat × Fetched) (List DWord)
  | 0 => .ok []
  | n + 1 =>
    match s.fetchAt w wp addr with
    | .word x =>
      match State.fetchWords s w wp (addr + 8) n with
      | .ok xs => .ok (x :: xs)
      | .error e => .error e
    | f => .error (addr, f)

/-- Lanes of a failed fetch. -/
def State.fetchFault (s : State) (w : Nat) (wp : Warp) (set : Mask) (va : Nat) (f : Fetched) : State :=
  match f with
  | .bad g c l e =>
    let x := (wp.lane? (lowLane set)).map fun y => (y.pc, y.hdr)
    s.memTraps w 3 ((x.map (·.1)).getD va) (x.bind (·.2)) ((lanesIn set).map fun k => ⟨k, va, g, c, l, e⟩)
  | _ => s.queueWalk w va

/-- An issue opportunity of a warp: the issuing set at the chosen address, and its clause fetched whole. Lanes that a transfer has brought into
the middle of a clause, where no header stands, trap (R44); those that resume there under their own header issue. A selection whose fetch fails a check
is an opportunity too (R258); one that waits for a walk is taken up again. -/
def State.opportunity (s : State) (w : Nat) : State :=
  match s.warps[w]? with
  | none => s
  | some wp =>
    let ready := s.readyLanes w wp
    match issueAddr ready with
    | none => s
    | some addr =>
      let all := ready.filter fun e => e.2.pc == addr
      let bad := all.filter fun e => match s.fetchAt w wp (s.headOf w wp e.2) with | .word hw => (decodeHeader hw).isNone | _ => false
      let good := all.filter fun e => !(bad.any fun b => b.1 == e.1)
      let head := (((good ++ bad).head?).map fun e => s.headOf w wp e.2).getD addr
      let at_ := if good.isEmpty then bad else good.filter fun e => s.headOf w wp e.2 == head
      let set := maskOf (at_.map (·.1))
      let s := if good.isEmpty || bad.isEmpty then s
        else match s.fetchAt w wp ((bad.head?.map fun e => s.headOf w wp e.2).getD addr) with
          | .word hw => s.noHeader w wp (maskOf (bad.map (·.1))) hw
          | _ => s
      let counted := fun (s : State) => s.modWarp w fun x => x.passed (maskOf (ready.map (·.1))) set
      let passes := fun (s : State) (f : Fetched) => match f with | .bad _ _ _ _ => counted s | _ => s
      let s := s.tlbUse wp head
      match s.fetchAt w wp head with
      | .word hw =>
        match decodeHeader hw with
        | none => (counted s).noHeader w wp set hw
        | some d =>
          match s.fetchWords w wp (head + 8) d.count with
          | .ok ws =>
            let first := if addr == head then head + 8 else addr
            let c : Clause := { addr := head, hdr := d, words := ws.drop ((first - head) / 8 - 1), next := first, set := set,
                                entered := 0, grp := 0, agreed := false, differ := 0, waits := false,
                                seek := none, src := none }
            { (counted s).modWarp w fun x =>
                { x.mapLanes set (fun _ y => { y with via := none }) with clause := some c, yielded := none } with
              cur := some w }
          | .error (va, f) => (passes s f).fetchFault w wp set va f
      | f => (passes s f).fetchFault w wp set head f

/-! ### The word at issue -/

/-- Codes of a word in its clause: its own, those of the launch's limits, and its place (R43). -/
def placeCodes (cls : Nat) (last : Bool) (i : Instr) : List Nat :=
  need (Forms.cls i == cls || isNop i || (isTransfer i && last)) 3 ++ need (!isTransfer i || last) 4

def State.limitsOf (s : State) (w : Warp) : Limits :=
  match s.launchOf w with
  | some l => ⟨w.width, l.info.vcount, l.info.scount, l.info.tiles⟩
  | none => ⟨w.width, 0, 0, 0⟩

def State.issueCodes (s : State) (wp : Warp) (cl : Clause) (word : DWord) : List Nat :=
  let i := (Decode.raw word.toNat).2
  wordCodes word ++ launchCodes (s.limitsOf wp) i ++ placeCodes cl.hdr.cls (cl.words.length == 1) i

/-- Registers and predicates a word reads: the operand field's value and the write it would meet (R59). -/
def readsOf (w64 : Bool) (i : Instr) : List (Nat × Reg × Nat) :=
  ((uses w64 i).filter fun u => !u.dst).map fun u => (Decode.regCode u.reg, u.reg, u.n)

def writesOf (w64 : Bool) (i : Instr) : List (Nat × Reg × Nat) :=
  ((uses w64 i).filter fun u => u.dst).map fun u => (Decode.regCode u.reg, u.reg, u.n)

/-- Predicates read by value, besides the word's own predicate. -/
def qReads : Instr → List (Fin 8)
  | .sel _ _ _ _ q _ _ | .voteBallot _ _ q _ | .voteAny _ q _ | .voteAll _ q _ => [q]
  | _ => []

/-- Fence tokens that a word reads (R224). -/
def fReads : Instr → Option (Fin 8)
  | .fwait f _ | .fpoll _ f _ => some f
  | _ => none

/-- Registers and predicates that hold nothing: `s0` and q7, whose writes are ignored (R29). -/
def Dst.ignores : Dst → Bool
  | .s i => i == 0
  | .q _ i => i == 7
  | .v _ _ => false

/-- Unfinished writes to a register: core cycles short, and whether a counter tracks one of them. The detail for a counter-tracked write
alone is the model's choice, 0; with several fixed-latency writes pending the model reports the largest shortfall (log 84). -/
def Warp.unread (w : Warp) (now : Nat) (d : Dst) : Option (Nat × Bool) :=
  let ps := w.pend.filter fun p => p.dst == d
  if ps.isEmpty || d.ignores then none
  else some (ps.foldl (fun n p => if p.tag.isNone then max n (p.at_ - now) else n) 0, ps.any fun p => p.tag.isSome)

/-- The first operand that the scoreboard objects to: its field, the core cycles short, and whether it is the guard (R59, R60). With several
of them the order is the model's choice: guard, then predicates, tokens and registers read, then registers written, each in operand order
(log 84). -/
def Warp.undersized (w : Warp) (now : Nat) (x : Iss) (i : Instr) : Option (Nat × Nat × Bool) :=
  let group := fun (ls : List Nat) (r : Reg) (n : Nat) =>
    ls.flatMap fun l => (List.range n).map fun k => dstOf l r k
  let hit := fun (all : Bool) (ds : List Dst) =>
    ds.findSome? fun d => (w.unread now d).bind fun e => if all || e.2 then some (min e.1 15) else none
  let ls := x.acts i
  let guard := (lanesIn x.cl.set).map fun l => Dst.q l (Forms.guard i).q.val
  let qs := (qReads i).map fun q => (q.val, (lanesIn x.part).map fun l => Dst.q l q.val)
  let token := (fReads i).bind fun f => (w.fences[f.val]?).bind fun t =>
    if now < t.from_ && x.part != 0 then some (f.val, min (t.from_ - now) 15) else none
  let rs := (readsOf x.w64 i).map fun e => (e.1, group ls e.2.1 e.2.2)
  let ws := (writesOf x.w64 i).map fun e => (e.1, group ls e.2.1 e.2.2)
  let reads := fun (es : List (Nat × List Dst)) => es.findSome? fun e => (hit true e.2).map fun k => (e.1, k, false)
  ((hit true guard).map fun k => ((Forms.guard i).q.val, k, true)).or
    ((reads qs).or ((token.map fun e => (e.1, e.2, false)).or
      ((reads rs).or (ws.findSome? fun e => (hit false e.2).map fun k => (e.1, k, false)))))

/-- The checking scoreboard's trap for the word at issue, where it objects (R59): with a stale guard every issuing lane traps. -/
def State.undersizedTrap (s : State) (w : Nat) (i : Instr) : Option State :=
  match s.iss i with
  | none => none
  | some x =>
    if !(x.wp.wctl.getLsbD 0 || x.cl.hdr.check) || x.cl.entered != 0 || x.w != w then none
    else (x.wp.undersized s.clk.cyc x i).map fun e =>
      s.trapWord x (if e.2.2 || x.part = 0 then x.cl.set else x.part) (fun _ => ⟨5, 4, e.1, e.2.1, 0⟩) false

/-- With the scoreboard off, a word that reads a register whose counter-tracked write is on its way may find it there already, in each lane
by itself (R60): free choices, for requests that have their value. -/
def State.early (s : State) (x : Iss) (i : Instr) : State :=
  let ds := (readsOf x.w64 i).flatMap fun e => (x.acts i).flatMap fun l => (List.range e.2.2).map fun k => dstOf l e.2.1 k
  let coming : Pend → Option Req := fun p =>
    if p.val.isNone && ds.contains p.dst then (p.tag.bind s.req?).filter fun r => r.st == .ordered else none
  if x.wp.wctl.getLsbD 0 || x.cl.hdr.check || !(x.wp.pend.any fun p => (coming p).isSome) then s
  else
    ({ s with free := s.free + x.wp.pend.length }.modWarp x.w fun y =>
      { y with pend := y.pend.mapIdx fun k p =>
          match coming p with
          | some r => if Config.freeBit (s.free + k) then { p with val := some (r.result p.dst), at_ := s.clk.cyc, done := some (r.grp, r.ctr) }
            else p
          | none => p }).settleAt x.w s.clk.cyc

/-- Words that an octave warp compares before they go out (R384). -/
def isCompared : Instr → Bool
  | .st _ _ _ _ _ _ _ _ | .atom _ _ _ _ _ _ _ _ _ | .atomx _ _ _ _ _ _ _ _ | .red _ _ _ _ _ _ _ _
  | .xcopy _ _ _ _ _ _ | .xgather _ _ _ _ _ _ | .xscatter _ _ _ _ _ _ | .xmcast _ _ _ _ _ | .xfill _ _ _ _ _ _
  | .mzero _ _ | .mload _ _ _ _ _ | .mloadRaw _ _ _ _ | .mma _ _ _ _ _ _ | .mmaSet _ _ _ _ _ _ | .mdrain _ _ _ _ _ _
  | .mdrainRaw _ _ _ _ | .creduce _ _ _ _ _ | .cbcast _ _ _ _ | .cmembOpen _ _ _ _ _ | .cmembQuery _ _ _ _ _
  | .cmembClose _ _ _ _ _ | .rpush _ _ | .rpushRing _ _ _ _ | .spawn _ _ _ => true
  | _ => false

/-- After a mismatch the lanes that are left hold the word, for their shadow to produce it anew; with none left the clause ends (R384). -/
def State.heldWord (s : State) (x : Iss) : State :=
  match (s.warps[x.w]?).bind fun y => y.clause with
  | some cl => if cl.set = 0 then s.boundary x.w cl else s.waitIssue x
  | none => { s with cur := none }

/-- The row of an instruction that shares its word with others, told apart when the word issues: the mode of a pre-emption
descriptor (R342), the operation of `cmemb` (R370). -/
def State.rowOf (s : State) (x : Iss) (i : Instr) : Instr :=
  match i with
  | .preemptSliceEnd p t =>
    match s.read64 x.wp.die (s.ctxOf x.wp) (x.wp.rd (lowLane x.part) p 2) with
    | some v =>
      match fld v 16 2 with
      | 1 => .preemptAdaptive p t
      | 2 => .preemptSave p t
      | 3 => .preemptRestore p t
      | _ => .preemptSliceEnd p t
    | none => .preemptSliceEnd p t
  | .cmembOpen d p o h t =>
    match (x.wp.reg (lowLane x.part) o 0).toNat % 4 with
    | 1 => .cmembQuery d p o h t
    | 2 => .cmembClose d p o h t
    | _ => .cmembOpen d p o h t
  | i => i

/-- Lanes of a mask wait at the word that issues. -/
def Warp.waitAt (w : Warp) (m : Mask) (x : Iss) (k : Nat → Wait) : Warp :=
  (w.leaveClause m).mapLanes m fun l y => { y with st := .waiting (k l), pc := x.addr, hdr := some x.cl.addr }

/-- The lanes of a warp in a state. -/
def Warp.lanesSt (w : Warp) (p : LaneSt → Bool) : Mask :=
  maskOf ((List.range w.lanes.length).filter fun l => ((w.lane? l).map fun x => p x.st).getD false)

/-- The pipe of R142 that a word needs, and its core cycles for one row: 0 the F64 pipe, 1 the special-function pipe. -/
def pipeOf : Instr → Option (Nat × Nat)
  | .dadd _ _ _ _ _ | .dmul _ _ _ _ _ | .dfma _ _ _ _ _ _ | .dcmp _ _ _ _ _ => some (0, 8)
  | .frcp _ _ _ _ _ | .frsq _ _ _ _ | .fsqrt _ _ _ _ _ | .fexp2 _ _ _ _ | .flog2 _ _ _ _ | .fsin _ _ _ _ | .fcos _ _ _ _ =>
    some (1, 4)
  | _ => none

/-- The pipe of a word as a key of the state's list, and the cycles for which its rows take it; the uniform unit runs a word that runs
once (R141). -/
def Iss.pipe (x : Iss) (i : Instr) : Option (Nat × Nat) :=
  if uniform x.w64 i then none else (pipeOf i).map fun p => (x.wp.unitKey + p.1, p.2 * rows x.cl.set)

/-- A word waits at issue until its pipe is free, and then takes it (R142). -/
def State.takePipe (s : State) (x : Iss) (i : Instr) : Option State :=
  match x.pipe i with
  | none => some s
  | some (k, n) => if s.clk.cyc < mget s.pipes_ k 0 then none else some { s with pipes_ := mput k (s.clk.cyc + n) s.pipes_ }

/-- What comes of the word of the warp that issues. -/
inductive Issue where
  | run (s : State) (i : Instr)
  | done (s : State)
  deriving DecidableEq, Repr

/-- The word reaches issue: time has passed to its cycle, results due are readable, and the checks of R64 and R384 and the waits of R61,
R142 and R297 are made. The scoreboard judges a word that goes on in this cycle (`State.undersizedTrap`). -/
def State.prepare (s : State) (w : Nat) : Issue :=
  match s.warps[w]? with
  | none => .done { s with cur := none }
  | some wp =>
    let unif := ((wp.clause.bind fun c => c.words.head?).map fun d => uniform (wp.width == 64) (Decode.raw d.toNat).2).getD false
    let s := s.advanceTo wp.nextIssue
    let s := s.advanceTo (s.issueFrom wp unif)
    let s := (s.modWarp w fun y => { y with clause := y.clause.map fun (c : Clause) => { c with waits := false } }).settleAt w s.clk.cyc
    match s.warps[w]? with
    | none => .done { s with cur := none }
    | some wp =>
      match wp.clause with
      | none => .done { s with cur := none }
      | some cl =>
        match cl.words with
        | [] => .done (s.boundary w cl)
        | word :: _ =>
          let i := (Decode.raw word.toNat).2
          match lowest (s.issueCodes wp cl word), s.iss i with
          | some c, some x => .done (s.trapWord x cl.set (fun _ => encCause c word) false)
          | _, none => .done { s with cur := none }
          | none, some x =>
            if wp.ctrFull (ctrOfWord i) && cl.entered = 0 then .done (s.waitIssue x)
            else if s.octave wp && isDrawn i && x.part != 0 && 64 ≤ wp.shadowQ then .done (s.waitIssue x)
            else if s.octave wp && isCompared i && x.part != 0 && !cl.agreed then
              if cl.differ &&& x.part = 0 then .done (s.waitIssue x)
              else
                let m := cl.differ &&& x.part
                .done (((s.trapHere x m fun _ => ⟨9, 2, 0, 0, 0⟩).modWarp w fun y =>
                  { y with clause := y.clause.map fun c => { c with differ := 0 } }).heldWord x)
            else
              match s.takePipe x i with
              | some t => .run (t.early x i) (t.rowOf x i)
              | none => .done ((s.waitIssue x).modWarp w fun y =>
                  { y with nextIssue := mget s.pipes_ (((x.pipe i).map (·.1)).getD 0) 0 })

/-- A word that waits at issue without an effect, in the state that its meaning has answered. -/
def State.heldAt (s t : State) (w : Nat) : Bool :=
  match (s.warps[w]?).bind (·.clause), (t.warps[w]?).bind (·.clause) with
  | some a, some b => b.waits && b.entered = 0 && b.next == a.next
  | _, _ => false

/-- What the word of the warp does in state t, `r` by its meaning: where it goes on in this cycle and the scoreboard objects, it traps instead
and takes no pipe (R59). -/
def State.judged (s t : State) (w : Nat) (i : Instr) (r : Res) : Res :=
  match ({ t with pipes_ := s.pipes_ } : State).undersizedTrap w i, r with
  | some u, .next v => if t.heldAt v w then .next v else .next u
  | _, r => r

end Sys2Proof.Machine
end

