-- ==== Sys2Proof/Machine/Memory.lean ====
section
/-! DEFINITION. Loads, stores and the cache instructions (R87 to R95), the local window under the range scoreboard (R78, R102),
and the replies and acknowledgements that complete an access (R61, R208, R214). -/

namespace Sys2Proof.Machine

open Sys2Proof.Forms

/-- Scope of a block's arrivals: core on one core, die for a spread block (R108). -/
def blockScope (b : Block) : Scope := if b.cores.length ≤ 1 then .core else .die

/-! ### The range scoreboard (R102) -/

def Copy.bytes (c : Copy) : Nat :=
  match c.op with
  | .copy | .fill => c.n
  | .gather | .scatter => c.n * c.size

/-- From a window offset to the end of its member's share: the range of an element access whose indices are not read yet. -/
def restOf (share off : Nat) : Nat := share - off % 2 ^ 22

/-- The local destination range and the local source range of a command: window offset and length. -/
def Copy.writes (share : Nat) (c : Copy) : Option (Nat × Nat) :=
  if !inWindow c.dst then none
  else some (c.dst - windowBase, match c.op with | .scatter => restOf share (c.dst - windowBase) | _ => c.bytes)

def Copy.reads (share : Nat) (c : Copy) : Option (Nat × Nat) :=
  match c.op with
  | .fill => none
  | .gather => if inWindow c.src then some (c.src - windowBase, restOf share (c.src - windowBase)) else none
  | _ => if inWindow c.src then some (c.src - windowBase, c.bytes) else none

def overlaps (r : Option (Nat × Nat)) (off n : Nat) : Bool :=
  match r with
  | none => false
  | some (a, k) => a < off + n && off < a + k

/-- An earlier local access of a warp still waits for a copy's range, and this one, a write or a read, touches its bytes: program order holds
at every location (R88, R101, R234). -/
def State.ownBlocks (s : State) (w off n before : Nat) : Bool :=
  s.reqs.any fun r => r.warp == w && r.st == .range && r.id < before && r.accs.any fun a => a.pa < off + n && off < a.pa + a.size

/-- Whether a local access of a warp of a block waits for a copy that is under way: it touches a write range, or writes a read range; or for
an earlier access of its own warp that does. -/
def State.rangeBlocks (s : State) (w b off n : Nat) (write : Bool) (before : Nat) : Bool :=
  let share := ((s.blocks[b]?).map s.shareOf).getD 0
  s.ownBlocks w off n before ||
  (s.copies.any fun c => c.blk == b && c.id < before &&
    (overlaps (c.writes share) off n || (write && overlaps (c.reads share) off n))) ||
  (s.rings.any fun r => r.pops.any fun p => p.blk == b && p.id < before && overlaps (p.loc.map fun o => (o, p.size)) off n) ||
  (write && s.mcasts.any fun m => m.id < before && m.blk == b && !m.orphan && overlaps (if inWindow m.src then some (m.src - windowBase, m.n) else none) off n) ||
  (s.mcasts.any fun m => m.id < before && m.left.any fun e => e.1 == b && 0 < e.2 && overlaps (some (m.off, m.data.length)) off n)

/-! ### The shape of an access word -/

/-- A lane, its address, and what became of its translation. -/
abbrev Tried := Nat × Nat × Tr

def State.tryLanes (s : State) (x : Iss) (ls : List Nat) (want : Want) (align n : Nat) (va : Nat → Nat) : List Tried :=
  ls.map fun l => (l, va l, s.xlate x.w x.wp want align n (va l))

def missing (ts : List Tried) : List Nat := ts.filterMap fun t => match t.2.2 with | .miss => some t.2.1 | _ => none

/-- The failing lanes; a word that runs once fails in every participating lane. -/
def failing (x : Iss) (unif : Bool) (ts : List Tried) : List Bad :=
  ts.flatMap fun t =>
    match t.2.2 with
    | .bad g c v e => (if unif then lanesIn x.part else [t.1]).map fun l => ⟨l, t.2.1, g, c, v, e⟩
    | _ => []

def globals (ts : List Tried) : List (Nat × Nat × Place) :=
  ts.filterMap fun t => match t.2.2 with | .ok p => some (t.1, t.2.1, p) | _ => none

def locals (ts : List Tried) : List (Nat × Nat × Nat) :=
  ts.filterMap fun t => match t.2.2 with | .loc o => some (t.1, t.2.1, o) | _ => none

/-- The access waits for its walks, and for what else holds its word, and has then taken no effect in any lane (R46); otherwise the failing
lanes trap or park, and the others go on. -/
def State.accessing (s : State) (x : Iss) (unif : Bool) (kind : Nat) (ts : List Tried) (held : Bool) (k : State → State) : State :=
  if !(missing ts).isEmpty then ((missing ts).foldl (fun s va => s.queueWalk x.w va) s).waitIssue x
  else if held then s.waitIssue x
  else k (((globals ts).foldl (fun s g => s.tlbUse x.wp g.2.1) s).memTraps x.w kind x.addr (some x.cl.addr) (failing x unif ts))

/-- The 64-byte segments that lanes touch, in the order in which lanes first touch them (R204). -/
def segments (gs : List (Nat × Nat × Place)) : List (List (Nat × Nat × Place)) :=
  gs.foldl (fun acc g =>
    if acc.any fun seg => (seg.head?.map fun h => h.2.1 / 64) == some (g.2.1 / 64) then
      acc.map fun seg => if (seg.head?.map fun h => h.2.1 / 64) == some (g.2.1 / 64) then seg ++ [g] else seg
    else acc ++ [[g]]) []

/-- Address of a memory word in a lane (R88). -/
def Iss.va (x : Iss) (l : Nat) (addr : Reg) (off : BitVec 12) (size : Nat) : Nat :=
  (((x.rd l addr 2 : Int) + off.toInt * size) % 2 ^ 64).toNat

/-- An acquire of the owner that is not performed, or an `rpop` that waits, makes a later local access wait at issue (R219, R317). -/
def State.acquiring (s : State) (o : Owner) : Bool :=
  (s.reqs.any fun r => r.owner == o && r.isAcq && !r.performedAt r.scope) || s.popping o s.nextId

/-- A request as a word makes it, before it enters the vigil store. A core-scope release to an uncached page or to tier 3 is one
at `dev` scope (R233). One with the hint `nc` to a cached page is taken as `stream`, so that its line has a place in L2 for its record: a hint
changes no ordering (R80; log 111). -/
def State.newReq (s : State) (x : Iss) (grp : Nat) (op : ReqOp) (sc : Scope) (o : Order) (h : Hint) (ctr : Option (Fin 8))
    (unif : Bool) (p : Place) (accs : List Access) : Req :=
  { id := 0, owner := s.ownerOf x.wp, warp := x.w, seq := 0, word := x.addr, grp := grp, op := op,
    scope := if sc == .core && (o == .rel || o == .acqrel) && !p.cached then .dev else sc,
    order := o, hint := if sc == .core && (o == .rel || o == .acqrel) && p.cached && h == .nc then .stream else h, cls := s.clsOf x.wp, loc := none, place := p, accs := accs, ctr := ctrNat ctr, unif := unif, mask := x.part,
    floor := false, serves := true, bounces := 0, reason := 0, st := .held, due := 0, stale := false, fault := none,
    admitted := false, hops := [], waitFrom := none, took := x.wp.core, poison := false }

/-- A byte that an engine of a word's own reads at issue as a load of the warp finds it: its core's stores first (R210). -/
def State.loadByte (s : State) (x : Iss) (p : Place) (pa : Nat) : Byte :=
  (s.served { s.newReq x 0 .store .core .rlx .normal none true p [] with seq := x.wp.seq } pa).getD (s.viewByte p.tier pa p.key)

/-- Such a read waits at issue for an engine that holds the line (R103), and for the warp's earlier accesses to it (R217). -/
def State.loadWaits (s : State) (x : Iss) (p : Place) : Bool :=
  (s.heldBy.any fun h => h.line == lineOf p.tier p.pa) ||
    s.reqs.any fun r => r.owner == s.ownerOf x.wp && r.loc.isNone && r.line == lineOf p.tier p.pa && r.st != .ordered

/-- No entry of the vigil store is free for requests of a word (R209). -/
def State.noEntry (s : State) (x : Iss) (n : Nat) : Bool := n != 0 && s.entriesFree (s.ownerOf x.wp) == 0

/-- Requests of one word enter the vigil store as entries are free (R209); the word completes with the last one, and its counter
rises with the first. The lanes `inside` address the local window and act with the first. `regs` are the register writes that a request
owes. -/
def State.enterReqs (s : State) (x : Iss) (unif : Bool) (ctr : Option (Fin 8)) (inside : List Nat) (local_ : Nat → State → State)
    (rs : List (Nat → Req)) (regs : Nat → Req → List Pend) : State :=
  let free := s.entriesFree (s.ownerOf x.wp)
  if !rs.isEmpty && free == 0 then s.waitIssue x
  else
    let first := x.cl.entered = 0
    let grp := if first then s.nextId else x.cl.grp
    let s := if first then { s with nextId := s.nextId + 1 } else s
    let s := if first then s.modWarp x.w fun w => w.ctrAdd (ctrNat ctr) else s
    let s := if first then local_ grp s else s
    let now := rs.take free
    let s := now.foldl (fun s mk =>
      let r := mk grp
      (s.modWarp x.w fun w => { w with pend := w.pend ++ regs s.nextId r }).addReq r) s
    if rs.length ≤ free then (s.wordDone x unif).partDone x.w grp (ctrNat ctr)
    else s.enterPart x (maskOf (inside ++ now.flatMap fun mk => (mk grp).accs.map fun (a : Access) => a.lane)) grp

/-- A local access becomes an entry of its own that needs no queue: it has its bytes, or waits for a copy's range (R78, R102). -/
def State.addLocal (s : State) (r : Req) (regs : Nat → List Pend) : State :=
  { s with
    nextId := s.nextId + 1
    reqs := s.reqs ++ [{ r with id := s.nextId, seq := ((s.warps[r.warp]?).map fun (x : Warp) => x.seq).getD 0 }] }.modWarp r.warp fun (w : Warp) =>
      { w with pend := w.pend ++ regs s.nextId, seq := (w.seq + 1) % 2 ^ 32 }

/-! ### ld and ldc -/

/-- Bytes of a block's window. -/
def State.windowBytes (s : State) (b off n : Nat) : List Byte := ((s.blocks[b]?).map fun x => x.getBytes off n).getD []

/-- Poisoned bytes in a block's window (R382). -/
def State.badLocal (s : State) (b off n : Nat) : Bool := ((s.blocks[b]?).map fun x => x.bad.any fun k => off ≤ k && k < off + n).getD false

/-- One lane's local load. -/
def State.loadLocal (s : State) (x : Iss) (r : Req) (d : Reg) (n size : Nat) (e : Nat × Nat × Nat) : State :=
  let b := x.wp.blk
  let blocked := s.rangeBlocks x.w b e.2.2 size false s.nextId
  let got := if blocked then List.replicate size none else (s.windowBytes b e.2.2 size).map some
  s.addLocal { r with loc := some b, accs := [⟨e.1, e.2.1, e.2.2, size, [], got⟩], poison := s.badLocal b e.2.2 size,
                      st := if blocked then .range else .ordered } fun id => resTag r.unif e.1 d id n

def noPlace : Place := ⟨0, 0, 0, false, 0, 0⟩

/-- Accesses of a segment of a load. -/
def loadAccs (size : Nat) (seg : List (Nat × Nat × Place)) : List Access :=
  seg.map fun g => ⟨g.1, g.2.1, g.2.2.pa, size, [], List.replicate size none⟩

def segPlace (seg : List (Nat × Nat × Place)) : Place := (seg.head?.map fun g => g.2.2).getD noPlace

def State.loadWith (s : State) (x : Iss) (unif : Bool) (op : ReqOp) (d : Reg) (n size : Nat) (sc : Scope) (o : Order) (h : Hint)
    (ctr : Option (Fin 8)) (ts : List Tried) : State :=
  s.accessing x unif 0 ts ((!(locals ts).isEmpty && s.acquiring (s.ownerOf x.wp)) || s.noEntry x (segments (globals ts)).length) fun s =>
      s.enterReqs x unif ctr ((locals ts).map (·.1))
        (fun grp s =>
          let s := if (o == .acq || o == .acqrel) && !(locals ts).isEmpty then s.sync x.w else s
          (locals ts).foldl (fun s e => s.loadLocal x (s.newReq x grp op sc o h ctr unif noPlace []) d n size e) s)
        ((segments (globals ts)).map fun seg grp => s.newReq x grp op sc o h ctr unif (segPlace seg) (loadAccs size seg))
        (fun id r => r.accs.flatMap fun (a : Access) => resTag unif a.lane d id n)

def execLd (t : MTy) (d addr : Reg) (off : BitVec 12) (sc : Scope) (o : Order) (h : Hint) (x : CTail) (s : State) : Res :=
  s.atIssue (.ld t d addr off sc o h x) fun w =>
    let i := Instr.ld t d addr off sc o h x
    let size := mtySize t
    s.loadWith w (uniform w.w64 i) (.load t d) d (mtyRegs t) size sc o h x.ctr
      (s.tryLanes w (w.acts i) wantLoad size size fun l => w.va l addr off size)

/-- The line of an `ldc` in its cluster's constant cache (R90). -/
def State.ccLine (s : State) (x : Iss) (p : Place) : Option (List Byte) :=
  let launch := ((s.blkOf x.wp).map (·.launch)).getD 0
  (s.ccache.find? fun e => e.1 == x.wp.core / 8 && e.2.1 == launch && e.2.2.1 == lineOf p.tier p.pa).map fun e => e.2.2.2

/-- One lane's `ldc` that hits the constant cache. -/
def State.ccHit (s : State) (x : Iss) (r : Req) (d : Reg) (n size : Nat) (g : Nat × Nat × Place) (data : List Byte) : State :=
  s.addLocal { r with loc := some x.wp.blk, st := .ordered,
                      accs := [takeBytes data ⟨g.1, g.2.1, g.2.2.pa, size, [], List.replicate size none⟩] } fun id =>
    resTag r.unif g.1 d id n

def execLdc (t : MTy) (d addr : Reg) (off : BitVec 12) (x : CTail) (s : State) : Res :=
  s.atIssue (.ldc t d addr off x) fun w =>
    let i := Instr.ldc t d addr off x
    let size := mtySize t
    let unif := uniform w.w64 i
    let n := mtyRegs t
    let ts := s.tryLanes w (w.acts i) wantLoad size size fun l => w.va l addr off size
    let misses := (segments ((globals ts).filter fun g => (s.ccLine w g.2.2).isNone)).length
    s.accessing w unif 0 ts ((!(locals ts).isEmpty && s.acquiring (s.ownerOf w.wp)) || s.noEntry w misses) fun s =>
        let hits := (globals ts).filter fun g => (s.ccLine w g.2.2).isSome
        let rest := (globals ts).filter fun g => (s.ccLine w g.2.2).isNone
        let req := fun grp p accs => s.newReq w grp (.ldc t d) .dev .rlx .normal x.ctr unif p accs
        s.enterReqs w unif x.ctr ((locals ts).map (·.1) ++ hits.map (·.1))
          (fun grp s =>
            let s := (locals ts).foldl (fun s e => s.loadLocal w (req grp noPlace []) d n size e) s
            hits.foldl (fun s g => s.ccHit w (req grp g.2.2 []) d n size g ((s.ccLine w g.2.2).getD [])) s)
          ((segments rest).map fun seg grp => req grp (segPlace seg) (loadAccs size seg))
          (fun id r => r.accs.flatMap fun (a : Access) => resTag unif a.lane d id n)

/-! ### st -/

/-- The release gate of a local store (R89, R227): the accesses before it have performed at its block's scope. -/
def State.localGate (s : State) (x : Iss) (o : Order) : Bool :=
  !(o == .rel || o == .acqrel) || ((s.blkOf x.wp).map fun b => s.gateOpen (s.ownerOf x.wp) x.wp.seq (blockScope b)).getD true

/-- One lane's local store: at once, or behind a copy's range. A store to a barrier object is a store and no update by a barrier
instruction or a copy, so the home core's check does not run after it: whether it should R106 does not say (log 87). -/
def State.storeLocal (s : State) (x : Iss) (r : Req) (size : Nat) (data : List Byte) (e : Nat × Nat × Nat) : State :=
  let b := x.wp.blk
  if s.rangeBlocks x.w b e.2.2 size true s.nextId then
    s.addLocal { r with loc := some b, accs := [⟨e.1, e.2.1, e.2.2, size, data, []⟩], st := .range } fun _ => []
  else s.modBlk b fun y => y.setBytes e.2.2 data

def execSt (t : MTy) (d addr : Reg) (off : BitVec 12) (sc : Scope) (o : Order) (h : Hint) (x : CTail) (s : State) : Res :=
  s.atIssue (.st t d addr off sc o h x) fun w =>
    let i := Instr.st t d addr off sc o h x
    let size := mtySize t
    let unif := uniform w.w64 i
    let dataOf : Nat → List Byte := fun l => leBytes size (w.rd l d (mtyRegs t))
    let ts := s.tryLanes w (w.acts i) wantStore size size fun l => w.va l addr off size
    s.accessing w unif 1 ts ((!(locals ts).isEmpty && (s.acquiring (s.ownerOf w.wp) || !s.localGate w o)) ||
        s.noEntry w (segments (globals ts)).length) fun s =>
        s.enterReqs w unif x.ctr ((locals ts).map (·.1))
          (fun grp s => (locals ts).foldl (fun s e =>
            s.storeLocal w (s.newReq w grp .store sc o h x.ctr unif noPlace []) size (dataOf e.1) e) s)
          ((segments (globals ts)).map fun seg grp => s.newReq w grp .store sc o h x.ctr unif (segPlace seg)
            (seg.map fun g => ⟨g.1, g.2.1, g.2.2.pa, size, dataOf g.1, (dataOf g.1).map some⟩))
          (fun _ _ => [])

/-! ### pf, cflush, cinval (R91, R92) -/

/-- A prefetch never traps: a lane whose translation fails, or whose page cannot be cached, does nothing, and a full vigil store
drops it. -/
def execPf (addr : Reg) (off : BitVec 12) (h : Hint) (x : CTail) (s : State) : Res :=
  s.atIssue (.pf addr off h x) fun w =>
    let i := Instr.pf addr off h x
    let unif := uniform w.w64 i
    let ts := s.tryLanes w (w.acts i) wantLoad 1 1 fun l => w.va l addr off 1
    if !(missing ts).isEmpty then ((missing ts).foldl (fun s va => s.queueWalk w.w va) s).waitIssue w
    else
      let s := { s with wfaults := s.wfaults.filter fun f => f.warp != some w.w }
      let segs := segments ((globals ts).filter fun g => g.2.2.cached)
      s.enterReqs w unif x.ctr [] (fun _ s => s)
        ((segs.take (s.entriesFree (s.ownerOf w.wp))).map fun seg grp => s.newReq w grp .prefetch .dev .rlx h x.ctr unif
          (segPlace seg) (loadAccs 1 seg))
        (fun _ _ => [])

/-- `cflush` and `cinval`: nothing to do in the local window and on uncached pages. -/
def State.cacheWord (s : State) (i : Instr) (op : ReqOp) (want : Want) (addr : Reg) (off : BitVec 12) (ctr : Option (Fin 8)) :
    Res :=
  s.atIssue i fun w =>
    let unif := uniform w.w64 i
    let ts := s.tryLanes w (w.acts i) want 1 1 fun l => w.va l addr off 1
    s.accessing w unif 7 ts (s.noEntry w (segments ((globals ts).filter fun g => g.2.2.cached)).length) fun s =>
      s.enterReqs w unif ctr [] (fun _ s => s)
        ((segments ((globals ts).filter fun g => g.2.2.cached)).map fun seg grp =>
          s.newReq w grp op .dev .rlx .normal ctr unif (segPlace seg) (loadAccs 1 seg))
        (fun _ _ => [])

def execCflush (addr : Reg) (off : BitVec 12) (x : CTail) (s : State) : Res :=
  s.cacheWord (.cflush addr off x) .cflush wantCache addr off x.ctr

def execCinval (addr : Reg) (off : BitVec 12) (x : CTail) (s : State) : Res :=
  s.cacheWord (.cinval addr off x) .cinval wantInval addr off x.ctr

/-! ### ckeep, cunkeep (R93, R94) -/

/-- The leaf page that maps an address for a warp, as its core holds it. -/
def State.pageOf (s : State) (x : Iss) (va : Nat) : Option Tlb :=
  s.tlb.find? fun t => t.core == x.wp.core && t.ctx == s.ctxOf x.wp && t.base ≤ va && va < t.base + 2 ^ t.size

/-- The trap of a failing retention check, in every participating lane. -/
def keepTrap (code va : Nat) : Cause := memCause 3 code 7 7 va 0

/-- `ckeep` (R94). The Ways of a die's valid registers total at most 8 (R83): where they would not the check of W fails, code 14 (log 88). -/
def execCkeep (k b l ways : Reg) (t : Tail) (s : State) : Res :=
  s.atIssue (.ckeep k b l ways t) fun x =>
    if x.part = 0 then s.wordDone x true
    else
      let lane := lowLane x.part
      let n := x.rd1 lane k
      let first := x.rd lane b 2
      let last := x.rd lane l 2
      let w := x.rd1 lane ways
      let ts := s.tryLanes x [lane] wantLoad 1 1 (fun _ => first) ++ s.tryLanes x [lane] wantLoad 1 1 (fun _ => last)
      if !(missing ts).isEmpty then ((missing ts).foldl (fun s va => s.queueWalk x.w va) s).waitIssue x
      else
        match failing x true (ts.filter fun t => match t.2.2 with | .bad _ _ _ _ => true | _ => false) with
        | f :: fs => (s.memTraps x.w 7 x.addr (some x.cl.addr) ((f :: fs).take (lanesIn x.part).length)).wordDone x true
        | [] =>
          let c := s.ctxOf x.wp
          let die := x.wp.die
          let allot := ((s.ctx? c).map (·.keepallot.toNat)).getD 0
          let keeps := ((s.dies[die]?).map (·.keeps)).getD []
          let budget := min 8 (fld allot (16 + 4 * die) 4)
          let total := (keeps.mapIdx fun j y => (j, y)).foldl (fun a e => if e.2.valid && e.1 != n then a + e.2.ways else a) 0
          let others := (keeps.mapIdx fun j y => (j, y)).foldl (fun a e =>
            if e.2.valid && e.2.owner == c && e.1 != n then a + e.2.ways else a) 0
          match globals ts with
          | [f, g] =>
            if 16 ≤ n || !allot.testBit n then s.trapWord x x.part (fun _ => keepTrap 13 first) true
            else if s.pageOf x first != s.pageOf x last || 3 ≤ f.2.2.tier || last < first then
              s.trapWord x x.part (fun _ => keepTrap 15 first) true
            else if w == 0 || 8 < w || budget < w + others || 8 < w + total then s.trapWord x x.part (fun _ => keepTrap 14 first) true
            else
              (s.modDie die fun d => { d with keeps := d.keeps.set n ⟨f.2.2.pa / 4096, g.2.2.pa / 4096, true, 0, c, w⟩ }).wordDone
                x true
          | _ =>
            if 16 ≤ n || !allot.testBit n then s.trapWord x x.part (fun _ => keepTrap 13 first) true
            else s.trapWord x x.part (fun _ => keepTrap 15 first) true

/-- `cunkeep` (R94). A register number above 15 names no register: R94 gives neither effect nor trap, and the model's choice is that nothing
happens (log 89). -/
def execCunkeep (k : Reg) (t : Tail) (s : State) : Res :=
  s.atIssue (.cunkeep k t) fun x =>
    let n := x.rd1 0 k
    let die := x.wp.die
    if x.part = 0 then s.wordDone x true
    else
      match ((s.dies[die]?).map (·.keeps)).bind fun ks => ks[n]? with
      | some y =>
        if !y.valid then s.wordDone x true
        else if y.owner == s.ctxOf x.wp then
          (s.modDie die fun d => { d with keeps := d.keeps.modify n fun z => { z with valid := false } }).wordDone x true
        else s.trapWord x x.part (fun _ => keepTrap 13 0) true
      | none => s.wordDone x true

/-! ### Replies and acknowledgements -/

/-- Data with a soft error is counted; poisoned data is consumed (R382, R383). -/
def State.eccCount (s : State) (die : Nat) (e : Ecc) : State :=
  match e with
  | .corrected => s.count die 1 0
  | _ => s

/-- An error that a request's reply has found poisons the bytes where they stand: which of a line's words it lies in is not said, and the
model's choice is those of the request (log 112). -/
def State.spoilOf (s : State) (r : Req) : State :=
  r.accs.foldl (fun s a =>
    match r.loc with
    | some b => s.modBlk b fun x => { x with bad := (x.bad ++ (List.range a.size).map (a.pa + ·)).eraseDups }
    | none => if r.place.tier ≤ 2 then s.spoil r.place.tier a.pa a.size else s) s

/-- A reply that carries data, with what the protection codes found in it; poison that the data carries is consumed (R382). -/
def State.replyEcc (s : State) (r : Req) (e : Ecc) : State :=
  let die := r.owner.core / 64
  if e == .poison || r.poison then ((if e == .poison then s.spoilOf r else s).poisoned r.warp r.word).discard r
  else (s.eccCount die e).reply r

/-- LOAD_REPLY: a load that has its value delivers it. -/
def execLoadReply (id : Nat) (e : Ecc) (s : State) : Res :=
  match s.req? id with
  | none => .next s
  | some r =>
    when (r.st == .ordered && (match r.op with | .load _ _ | .ldc _ _ => true | _ => false)) s (s.replyEcc r e)

/-- ATOMIC_REPLY: the old value reaches its lane's registers and the return slot is free (R196, R200). -/
def execAtomicReply (id : Nat) (e : Ecc) (s : State) : Res :=
  match s.req? id with
  | none => .next s
  | some r =>
    when (r.st == .ordered && (match r.op with | .atomic _ _ _ (some _) => true | _ => false)) s (s.replyEcc r e)

/-- The tier holds what the access wrote: a tier-2 flush waits for the host port (R92); a system-scope write to tier 2 has been
accepted by it (R214). -/
def State.acked (s : State) (r : Req) : Bool :=
  match r.op with
  | .cflush => !(s.wbs.any fun w => w.line == r.line)
  | .store | .atomic _ _ _ none =>
    r.scope != .sys || r.place.tier != 2 ||
      (!(s.wbs.any fun w => w.line == r.line) && !(s.lines.any fun l => l.line == r.line && l.dirty && l.own == some r.owner))
  | _ => true

/-- WRITE_ACK: an access without a register result has performed; its entry is free and its counter may fall. -/
def execWriteAck (id : Nat) (s : State) : Res :=
  match s.req? id with
  | none => .next s
  | some r =>
    when (r.st == .ordered && s.acked r &&
      (match r.op with | .store | .cflush | .cinval | .prefetch | .atomic _ _ _ none => true | _ => false)) s
      (s.free1 r)

/-- Local accesses that waited for a copy's range, in order (R102). -/
def State.rangeRetry (s : State) : State :=
  (s.reqs.filter fun r => r.st == .range).foldl (fun s r =>
    match r.loc, r.accs.head? with
    | some b, some a =>
      let write := match r.op with | .store => true | _ => false
      if s.rangeBlocks r.warp b a.pa a.size write r.id then s
      else if write then
        let s := { s with reqs := s.reqs.filter fun x => x.id != r.id }
        ((s.modBlk b fun y => y.setBytes a.pa a.data).partDone r.warp r.grp r.ctr).settled r.owner
      else
        let s := if r.isAcq then s.sync r.warp else s
        (s.modReq r.id fun x => { x with
          st := .ordered, accs := [{ a with got := (s.windowBytes b a.pa a.size).map some }], poison := s.badLocal b a.pa a.size }).settled r.owner
    | _, _ => s) s

end Sys2Proof.Machine
end

