-- ==== Sys2Proof/Machine/Atomics.lean ====
section
/-! DEFINITION. Atomics and reductions (R195 to R203), fences (R223 to R226), and the queues, walkers and probes that requests
pass through (R73, R204 to R219, R226, R233, R279, R414, R415). -/

namespace Sys2Proof.Machine

open Sys2Proof.Forms

/-! ### The new value (R200) -/

/-- Bytes of an atomic's operand. -/
def atomSize : AWidth → Nat
  | .w32 | .bf2 => 4
  | .w64 => 8
  | .w128 => 16

def faddBits (f : Fmt) (a b : Nat) : Nat := (f.encode .rn false (addFl .rn (f.decode a) (f.decode b))).1

def atomNew (o : AtomOp) (w : AWidth) (cas : Bool) (old v c : Nat) : Nat :=
  let bits := 8 * atomSize w
  if cas then (if old == c then v else old)
  else
    match o with
    | .add => (old + v) % 2 ^ bits
    | .minS => if numOf true bits old ≤ numOf true bits v then old else v
    | .maxS => if numOf true bits v ≤ numOf true bits old then old else v
    | .minU => min old v
    | .maxU => max old v
    | .and => old &&& v
    | .or => old ||| v
    | .xor => old ^^^ v
    | .xchg => v
    | .fadd => if w == .bf2 then faddBits fmtBf16 (half old 0) (half v 0) + 2 ^ 16 * faddBits fmtBf16 (half old 1) (half v 1)
      else faddBits fmtF32 old v
    | .inc => if v ≤ old then 0 else old + 1
    | .dec => if old == 0 || v < old then v else old - 1

/-- The bytes an atomic leaves, from the bytes it finds and its operand bytes (the compare value first, R199). -/
def atomBytes (o : AtomOp) (w : AWidth) (cas : Bool) (old data : List Byte) : List Byte :=
  let n := atomSize w
  leBytes n (if cas then atomNew o w true (leNat old) (leNat (data.drop n)) (leNat (data.take n))
    else atomNew o w false (leNat old) (leNat data) 0)

/-- Whether a tier-2 page with Cacheability 1 supports an operation (R203). -/
def hostAccepts (o : AtomOp) (w : AWidth) (cas : Bool) : Bool :=
  if cas then true else (o == .add || o == .xchg) && (w == .w32 || w == .w64)

/-- The path check, after every other check (R201): what the host port (R203), and what the fabric ports do not carry, `fadd` on BF16
pairs (R361). -/
def pathCheck (o : AtomOp) (w : AWidth) (cas : Bool) (t : Tried) : Tried :=
  match t.2.2 with
  | .ok p =>
    if (p.tier == 2 && !p.cached && !hostAccepts o w cas) || (p.tier == 3 && !cas && o == .fadd && w == .bf2) then (t.1, t.2.1, .bad 3 17 7 0) else t
  | _ => t

/-! ### The words -/

/-- A lane with all four of its return slots reserved makes an atomic word wait (R196). -/
def State.slotsFull (s : State) (w : Nat) (ls : List Nat) : Bool :=
  ls.any fun l => 4 ≤ (s.reqs.filter fun r => r.warp == w &&
    (match r.op with | .atomic _ _ _ (some _) => true | _ => false) && r.accs.any fun (a : Access) => a.lane == l).length

def State.atomWord (s : State) (i : Instr) (o : AtomOp) (w : AWidth) (cas : Bool) (d : Option Reg) (addr v : Reg) (sc : Scope)
    (ord : Order) (h : Hint) (ctr : Option (Fin 8)) : Res :=
  s.atIssue i fun x =>
    let unif := uniform x.w64 i
    let size := atomSize w
    let k := atomRegs w
    let ls := x.acts i
    let ts := (s.tryLanes x ls wantAtomic size size fun l => x.va l addr 0 1).map (pathCheck o w cas)
    s.accessing x unif 2 ts ((d.isSome && s.slotsFull x.w ls) || s.noEntry x (globals ts).length) fun s =>
        s.enterReqs x unif ctr [] (fun _ s => s)
          ((globals ts).map fun g grp => s.newReq x grp (.atomic o cas w d) sc ord h ctr unif g.2.2
            [⟨g.1, g.2.1, g.2.2.pa, size, leBytes (if cas then 2 * size else size) (x.rd g.1 v (if cas then 2 * k else k)),
              List.replicate size none⟩])
          (fun id r => match d with
            | some d => if Reg.isS0 d then [] else r.accs.flatMap fun (a : Access) => pendTag a.lane d id k
            | none => [])

def execAtom (o : AtomOp) (w : AWidth) (d addr v : Reg) (sc : Scope) (ord : Order) (h : Hint) (x : CTail) (s : State) : Res :=
  s.atomWord (.atom o w d addr v sc ord h x) o w false (some d) addr v sc ord h x.ctr

def execAtomx (w : AWidth) (d addr v : Reg) (sc : Scope) (ord : Order) (h : Hint) (x : CTail) (s : State) : Res :=
  s.atomWord (.atomx w d addr v sc ord h x) .xchg w true (some d) addr v sc ord h x.ctr

def execRed (o : AtomOp) (w : AWidth) (addr v : Reg) (sc : Scope) (ord : Order) (h : Hint) (x : CTail) (s : State) : Res :=
  s.atomWord (.red o w addr v sc ord h x) o w false none addr v sc ord h x.ctr

/-! ### Fences (R223, R224) -/

/-- The accesses of an owner that a fence covers; for a release wider than the core also what happens before it by what the owner has acquired
on its core (R234). -/
def State.covered (s : State) (o : Owner) (ord : Order) (sc : Scope) : List Nat :=
  (s.reqs.filter fun r => r.owner == o && (ord != .acq || r.reads)).map (·.id) ++ if ord == .acq || sc == .core then [] else s.afterOf o

def execFence (f : Fin 8) (ord : Order) (sc : Scope) (t : Tail) (s : State) : Res :=
  s.atIssue (.fence f ord sc t) fun x =>
    if x.part = 0 then s.wordDone x true
    else if ((x.wp.fences[f.val]?).map (·.pending)).getD false then s.waitIssue x
    else
      let tok : Fence := ⟨true, s.clk.cyc + 4, sc, s.covered (s.ownerOf x.wp) ord sc, []⟩
      ((s.modWarp x.w fun w => { w with fences := w.fences.set f.val tok }).fenceFix x.w).wordDone x true

/-- A token as a word of the warp reads it: a `fence` shows 4 core cycles after its issue (R36, R57). -/
def Fence.reads (now : Nat) (f : Fence) : Bool := f.pending && f.from_ ≤ now

def Iss.pendingToken (x : Iss) (now : Nat) (f : Fin 8) : Bool := ((x.wp.fences[f.val]?).map (Fence.reads now)).getD false

def execFwait (f : Fin 8) (t : Tail) (s : State) : Res :=
  s.atIssue (.fwait f t) fun x =>
    if x.part = 0 || !x.pendingToken s.clk.cyc f then s.wordDone x true
    else (s.modWarp x.w fun w => Warp.wdStart s.clk.cyc (w.waitAt x.part x fun _ => .fwait f.val)).wordDone x true

def execFpoll (q f : Fin 8) (t : Tail) (s : State) : Res :=
  s.atIssue (.fpoll q f t) fun x =>
    s.retire x true ((lanesIn x.part).map fun l =>
      pendQ l q (!x.pendingToken s.clk.cyc f) (s.clk.cyc + 4)) 0

/-! ### Slice queues and service warps (R195, R279, R415) -/

/-- Earlier requests of the owner to the line have been ordered at the home (R217). -/
def State.leads (s : State) (r : Req) : Bool :=
  s.reqs.all fun p => p.owner != r.owner || !earlier p.seq r.seq || p.line != r.line || p.loc.isSome || p.st == .ordered || p.st == .probing

/-- Whether a request at the head of its queue can be served now. A load that would see a store in part waits (R227). A line whose bytes the host has been asked for takes no other request
(R279). -/
def State.canServe (s : State) (r : Req) : Bool :=
  !r.heldByEngine s && !(r.reads && !(r.accs.all Access.full) && s.torn r) && !s.foreignDirty r && !s.counterFull r && s.leads r && !s.recordBlocks r && !s.needsWay r &&
    !(s.reqs.any fun p => p.id != r.id && p.st == .outside && p.line == r.line)

/-- A queue is served from its head: class 0 first, then in arrival order, at most `n` requests and one a line; it stops at the
first that cannot advance. -/
def State.serve (s : State) (one : State → Req → State) : List Req → Nat → List Nat → State
  | [], _, _ => s
  | _, 0, _ => s
  | r :: rs, n + 1, taken =>
    if taken.contains r.line then s
    else if !s.canServe r then s.headWork r
    else State.serve (if s.needsHost r then s.modReq r.id fun x => { x with st := .outside } else one s r) one rs n (r.line :: taken)

/-- Requests on their way to a slice cross the die links at whose buffers' heads they stand (R12). -/
def State.cross (s : State) (die slice : Nat) : State :=
  let ids := (s.reqs.filter fun r => r.st == .flight && !r.hops.isEmpty && (r.slice.map fun k => (k.1, k.2.1)) == some (die, slice)).map (·.id)
  (ids ++ ids).foldl (fun s i =>
    match s.req? i with
    | some r => if s.headType r == some 3 then ((s.modReq i fun x => { x with hops := x.hops.tail, waitFrom := none }).arrive i).heads else s
    | none => s) s

/-- A slice's queue takes its requests of one uncore cycle, after those on their way have reached it (R278, R279, R415). -/
def State.sliceCycle (s : State) (one : State → Req → State) (die slice : Nat) (atomic : Bool) (n : Nat) : State :=
  let fill := fun (s : State) => if atomic then s.takeIn die slice 256 else s
  let s := fill ((fill s).cross die slice)
  let q := s.queueOf die slice atomic
  let key := die * 16 + slice * 2 + if atomic then 1 else 0
  match q with
  | [] => s
  | r :: _ =>
    if !s.canServe r then s.headWork r
    else
      let s := match s.served_.lookup key with
        | some u => if s.clk.ucyc ≤ u then s.advance (s.clk.untilU (u + 1)) else s
        | none => s
      (fill (State.serve { s with served_ := mput key s.clk.ucyc s.served_ } one q n [])).heads

def execSliceQueueService (die slice : Nat) (s : State) : Res :=
  .next (s.sliceCycle (fun s r => (s.perform r).settled r.owner) die slice false 8)

/-- The service warp applies one request as one update of its line (R195); what it makes of poisoned bytes is poisoned (R382). -/
def State.applyAtomic (s : State) (r : Req) : State :=
  let r : Req := { r with
    place := s.forwarded r.place
    accs := r.accs.map fun (a : Access) => { a with pa := (s.forwarded { r.place with pa := a.pa }).pa } }
  match r.op, r.accs.head? with
  | .atomic o cas w _, some a =>
    let s := s.snapshot r.warp r.place
    let s := s.fill r.place r.hint true
    let bad := s.isBad r.place.tier a.pa a.size
    let old := s.viewN r.place.tier a.pa r.place.key a.size
    let rel := (s.lineOf? r.line).bind (·.rel)
    let r : Req := { r with accs := [{ a with data := atomBytes o w cas old a.data }] }
    let t := s.putAll r
    (if bad then t.spoil r.place.tier a.pa a.size else t).orderedAt { r with accs := [{ a with got := old.map some }], poison := bad } rel
  | _, _ => s

def execServiceWarpCycle (die slice : Nat) (s : State) : Res :=
  .next (s.sliceCycle (fun s r => (s.applyAtomic r).settled r.owner) die slice true 16)

/-! ### Hold bounds and bounces (R206, R207, R211, R217) -/

/-- The reason of a bounce (R207): what holds the request decides it. -/
def State.bounceReason (s : State) (r : Req) : Nat :=
  if r.place.tier == 3 then 5
  else if !r.admitted then 1
  else if !r.hops.isEmpty then 4
  else if r.heldByEngine s then 2
  else if !s.leads r then 7
  else 1

/-- A class-0 load or store of HBM that meets the conditions of R379: its owner is below its quota, and no more than four class-0 requests seek
the queue it stands at. No queue bounces it. -/
def State.sheltered (s : State) (r : Req) : Bool :=
  r.cls == 0 && r.place.tier == 0 && (match r.op with | .load _ _ | .ldc _ _ | .store => true | _ => false) &&
    (s.reqs.filter fun x => x.entry && x.owner == r.owner).length < 64 &&
    (s.reqs.filter fun x => x.cls == 0 && x.st == .flight && x.slice == r.slice && x.hops == r.hops).length ≤ 4

/-- A request whose hold bound has run at a head, or at its port, is bounced (R207). -/
def State.expire (s : State) (r : Req) : State :=
  match r.waitFrom with
  | none => s
  | some (t, bound) =>
    if s.sheltered r then s
    else
      let reason := s.bounceReason r
      let s := s.advance (s.clk.untilU (t + bound))
      ((s.modReq r.id fun x => { x with st := .token reason, admitted := false, hops := [], waitFrom := none }).refill r).heads

/-- A walk whose hold bound has run at the head of its queue, or at its core's port, is bounced into its owner's vigil store; at the 64th bounce
its word, or its engine's command, meets the bounce limit (R73, R205, R207, R213). -/
def State.expireWalk (s : State) (k : Walk) : State :=
  match k.waitFrom with
  | none => s
  | some (t, bound) =>
    let s := s.advance (s.clk.untilU (t + bound))
    if 64 ≤ k.bounces + 1 then
      State.walkFix { s with
        walks := s.walks.filter fun x => x.id != k.id
        wfaults := s.wfaults ++ [⟨k.core, k.warp, k.va / 4096, 3, 16, 7, 3 * 16⟩] } k.die k.cluster
    else
      (s.modWalk k.id fun x => { x with
        bounces := x.bounces + 1, due := s.clk.ucyc + 64 * 2 ^ min (x.bounces + 1) 6, queued := false, stored := true, waitFrom := none }).walkFix k.die
          k.cluster

/-- A bounced walk whose back-off has run is sent again, behind those that came before it (R211). -/
def State.walkAgain (s : State) (k : Walk) : State :=
  let s := s.advance (s.clk.untilU k.due)
  State.walkFix { s with
    walks := s.walks.filter (fun x => x.id != k.id) ++ (s.walks.filter fun x => x.id == k.id).map fun (x : Walk) => { x with stored := false } } k.die
      k.cluster

/-! ### Reissue (R211, R414) -/

/-- What a request asks of its page. -/
def Req.want (r : Req) : Want :=
  match r.op with
  | .load _ _ | .ldc _ _ | .prefetch => wantLoad
  | .store => wantStore
  | .atomic _ _ _ _ => wantAtomic
  | .cflush => wantCache
  | .cinval => wantInval

/-- A request that no longer translates: held on a posted entry, its lanes parking at their boundary, or discarded with those
behind it, its lanes trapping there; a `pf` is dropped (R91). -/
def State.reissueFault (s : State) (r : Req) (grp code lvl ent : Nat) : State :=
  let va := ((r.accs.head?).map fun (a : Access) => a.va).getD 0
  let c := accCause grp code lvl r.want.kind va ent
  match s.warps[r.warp]? with
  | none => s
  | some wp =>
    if r.op == .prefetch then (s.discard r).settled r.owner
    else if isPosted grp code && ((s.ctx? r.owner.ctx).bind Context.fqCount).isSome then
      let id := s.nextFaultId r.owner.ctx
      ((s.modReq r.id fun x => { x with st := .held, fault := some id, stale := true }).post r.owner.ctx
        (s.entryOf wp 0 va r.word 0 r.lanes c)).addDue r.warp ⟨r.lanes, grp, code, c.d0, c.d1, c.d2, r.word, some id⟩
    else
      (((s.behind r).foldl State.discard (s.discard r)).addDue r.warp
        ⟨r.lanes, grp, code, c.d0, c.d1, c.d2, r.word, none⟩).settled r.owner

/-- The request translates again through the tables where a `tlbinv` or a restore asks for it, and leaves. -/
def State.sendAgain (s : State) (r : Req) : State :=
  if !r.stale then s.leave r.id
  else
    let va := ((r.accs.head?).map fun (a : Access) => a.va).getD 0
    match s.xlateUnit (r.owner.core / 64) r.owner.ctx r.want va with
    | .error (g, k, l, e) => s.reissueFault r g k l e
    | .ok p =>
      (s.modReq r.id fun x => { x with
        stale := false, place := p
        accs := x.accs.map fun a => { a with pa := p.pa - va % 64 + a.va % 64 } }).leave r.id

/-! ### Table walks (R68, R73) -/

/-- A walk's leaf names a frame or a slot that is not the context's own, a Void slot included: code 3 where it is walked (R395), where the
tier, the backing and the pin pass, which come first (R71). -/
def State.leafOwn (s : State) (k : Walk) (size : Nat) (leaf : DWord) : Option (Nat × Nat) :=
  match s.leafPlace (s.diesWith k.die) k.die k.ctx true false wantLoad k.va size leaf with
  | .error (10, c) => some (10, c)
  | _ => none

/-- TABLE_WALK: the walker of a cluster ends the first of its walks in flight. A line of its entries that stands in L2 under another slot is
written back and removed (R392). Of a block's 16 entries the one walked translates for the whole
block, until a newer walk of it: where they differ R70 leaves open which does (log 90). -/
def execTableWalk (die cluster : Nat) (s : State) : Res :=
  match (s.walksAt die cluster).find? fun k => k.started with
  | none => .next s
  | some k =>
    let root := ((s.ctx? k.ctx).map fun x => fld x.ptbase.toNat 12 40).getD 0
    let read := (s.walkLines (s.diesWith die) k.va 4 root).map s.fwdLine
    let s := (read.filter fun ln => ((s.lineOf? ln).map fun l => l.key != 0 && lineTier ln ≤ 1).getD false).foldl (fun s ln => s.dropLine ln true) s
    let s := State.walkFix { s with walks := s.walks.filter fun x => x.id != k.id } die cluster
    let fail := fun g c l e => { s with wfaults := s.wfaults ++ [⟨k.core, k.warp, k.va / 4096, g, c, l, e⟩] }
    match s.walk (s.diesWith die) k.ctx k.va with
    | .bad g c l e => .next (fail g c l e)
    | .ok size leaf =>
      match s.leafOwn k size leaf with
      | some (g, c) => .next (fail g c (sizeLevel size) (leaf.toNat % 2 ^ 32))
      | none =>
        let t : Tlb := ⟨k.core, k.ctx, k.va / 2 ^ size * 2 ^ size, size, leaf, none⟩
        match k.warp.bind fun w => s.warps[w]? with
        | some w => .next ((s.tlbPut t).tlbPut { t with part := some w.part })
        | none => .next (s.tlbPut t)

/-! ### The events of a request -/

def execBounceTokenReturn (id : Nat) (s : State) : Res :=
  match s.req? id with
  | none => .next s
  | some r =>
    match r.st, r.op with
    | .token _, .prefetch => .next ((s.discard r).settled r.owner)
    | .token why, _ => .next (s.bounced r why)
    | _, _ => .next s

/-- HOST_PORT_COMPLETION: the host's bytes for a line or an access, or the old value of an AtomicOp (R203, R359). An AtomicOp goes to the host
behind the writes to its line that were ordered before it (R235, R237). A line that an atomic needs exclusively stands in L2 whatever its hint
(R80, R203). -/
def execHostPortCompletion (id : Nat) (data : List Byte) (s : State) : Res :=
  match s.req? id with
  | none => .next s
  | some r =>
    match r.accs.head? with
    | none => .next s
    | some a =>
      let atHost := r.isAtomic && !r.place.cached
      if !((r.st == .outside && !r.heldByEngine s) || (r.st == .flight && atHost && r.place.tier == 2 && s.leads r)) then .next s
      else if atHost then
        match (s.lineOf? r.line).filter fun l => l.dirty, s.wbs.any fun w => w.line == r.line with
        | some l, _ => .next (s.cleanLine l)
        | none, true => .next s
        | none, false =>
        match r.op with
        | .atomic o cas w _ =>
          let old := (List.range a.size).map fun i => data.getD i 0
          let s := { s with
            mem := Memory.writeN s.mem (memKey 2 a.pa) (atomBytes o w cas old a.data)
            out := s.out ++ [Out.atomicOp a.pa a.data] }
          let s := if r.isAcq then s.sync r.warp else s
          .next ((s.modReq id fun x => { x with st := .ordered, accs := [{ a with got := old.map some }] }).settled r.owner)
        | _ => .next s
      else
        let ln := r.line
        let whole := 128 ≤ data.length
        let s := { s with mem := Memory.writeN s.mem (if whole then lineMem ln else memKey 2 a.pa) (data.take 128) }
        if r.isAtomic then
          .next ((s.fill { r.place with pa := linePa ln } (if r.hint == .nc then .stream else r.hint) true).modReq id fun x => { x with st := .flight })
        else .next ((s.perform r).settled r.owner)

/-- A fabric peer answers a warp's request with a value or an acknowledgement, a retry, or refuses an atomic (R203, R207). -/
def State.peerRequest (s : State) (id : Nat) (ans : PeerAnswer) : State :=
  match s.req? id with
  | none => s
  | some r =>
    if !(r.place.tier == 3 && r.st == .flight && s.leads r && (s.portOf r).isSome && !(r.reads && !(r.accs.all Access.full) && s.torn r)) then s
    else
      match ans with
      | .retry => ((s.modReq id fun x => { x with st := .token 6, waitFrom := none }).heads)
      | .refuse =>
        if !r.isAtomic then s
        else
          let va := ((r.accs.head?).map fun (a : Access) => a.va).getD 0
          let c := memCause 3 17 7 2 va 0
          (((s.discard r).addDue r.warp ⟨r.lanes, 3, 17, c.d0, c.d1, 0, r.word, none⟩).settled r.owner)
      | .done data =>
        let base := ((r.accs.head?).map fun (a : Access) => a.pa / 64 * 64).getD 0
        let accs := r.accs.map fun a =>
          match r.op with
          | .load _ _ | .ldc _ _ =>
            let mine : Access := if a.full || (r.op matches .ldc _ _) then a else s.servedAccess r a
            let peer : Nat → Byte := fun i => data.getD (if r.accs.length == 1 then i else a.pa - base + i) 0
            { a with got := (List.range a.size).map fun i => some ((mine.got.getD i none).getD (peer i)) }
          | .atomic _ _ _ _ => { a with got := (List.range a.size).map fun i => some (data.getD i 0) }
          | _ => a
        let s := match r.op with
          | .store => r.accs.foldl (fun (s : State) (a : Access) =>
            { s.ramWrite (lineOf 3 a.pa) 0 (patch (s.ramLine (lineOf 3 a.pa) 0) (a.pa % 128) a.data) with
              out := s.out ++ [Out.fabric (a.pa / 2 ^ 42) a.data] }) s
          | .atomic o cas w _ => r.accs.foldl (fun (s : State) (a : Access) =>
            let old := (List.range a.size).map fun i => data.getD i 0
            { s.ramWrite (lineOf 3 a.pa) 0 (patch (s.ramLine (lineOf 3 a.pa) 0) (a.pa % 128) (atomBytes o w cas old a.data)) with
              out := s.out ++ [Out.fabric (a.pa / 2 ^ 42) a.data] }) s
          | _ => s
        let s := if r.isAcq then s.sync r.warp else s
        (((s.modReq id fun x => { x with st := .ordered, accs := accs }).stopServing
          { r with accs := match r.op with | .store => r.accs | _ => [] }).settled r.owner)

/-! ### Promotion and drains (R226, R233) -/

def execPromotionProbe (id : Nat) (s : State) : Res :=
  .next { s with probes := s.probes.map fun p => if p.id == id && !p.sent then { p with sent := true, upTo := s.nextId } else p }

/-- Every token of every warp is looked at again. -/
def State.allFences (s : State) : State := (List.range s.warps.length).foldl State.fenceFix s

def execPromotionAnswer (id : Nat) (s : State) : Res :=
  match s.probes.find? fun p => p.id == id with
  | none => .next s
  | some p =>
    let clear := (s.reqs ++ s.images.flatMap (·.reqs)).all fun r =>
      !(r.took == p.dest && (p.ctx.isNone || p.ctx == some r.owner.ctx) && r.id < p.upTo && r.loc.isNone &&
        r.st != .ordered && r.st != .probing)
    if !p.sent || !clear then .next s
    else
      let s := { s with
        probes := s.probes.filter fun x => x.id != id
        lines := s.lines.map fun (l : Line) => if p.line == some l.line then { l with rel := none } else l }
      let s := match p.req with
        | some i =>
          match s.req? i with
          | some r => (s.modReq i fun x => { x with st := .ordered }).settled r.owner
          | none => s
        | none => s
      .next s.allFences

/-- A collective word is held at issue until the warp's accesses have performed at `sys` scope (R373). -/
def Warp.wantsSys (w : Warp) : Bool :=
  match w.clause.bind fun c => c.words.head? with
  | some d =>
    match (Decode.raw d.toNat).2 with
    | .creduce _ _ _ _ _ | .cbcast _ _ _ _ => true
    | _ => false
  | none => false

/-- The slices in which an owner has counted writes, the mask that its drain probes follow (R226). -/
def State.sliceMask (s : State) (o : Owner) : List (Nat × Nat) :=
  (List.range 32).map (fun k => (k / 8, k % 8)) |>.filter fun e => (s.counted ⟨2, 0, 0, true, e.1, e.2⟩).contains o

/-- Owners at a core and slot that wait at system scope: a release, a fence, a collective word, the write of a completion signal. A warp that
has been saved waits for the writes of the owners it was before too (R226, R242). -/
def State.drainsFor (s : State) (core slot : Nat) : List Owner :=
  let reqs : List Req := s.reqs.filter fun (r : Req) => r.owner.core == core && r.owner.slot == slot && r.scope == .sys
  let wants : List Warp := s.warps.filter fun (w : Warp) => !w.ended && (w.wantsSys || (w.fences.any fun f => f.pending && f.scope == .sys) ||
    s.reqs.any fun r => r.owner == s.ownerOf w && r.scope == .sys)
  let warps : List Warp := wants.filter fun (w : Warp) => w.core == core && w.slot == slot
  let past : List Owner := (wants.flatMap fun (w : Warp) => w.was).filter fun o => o.core == core && o.slot == slot
  let done : List Launch := s.launches.filter fun (l : Launch) => l.st == .complete
  let all : List Owner := reqs.map (fun (r : Req) => r.owner) ++ warps.map s.ownerOf ++ past ++ done.map fun (l : Launch) => Owner.mk l.ctx core slot
  all.eraseDups

/-- DRAIN_PROBE: for a system-scope release or fence of an owner, a slice of its mask writes back the dirty tier-2 lines tagged with it. -/
def execDrainProbe (core slot die slice : Nat) (s : State) : Res :=
  let owners := (s.drainsFor core slot).filter fun o => (s.sliceMask o).contains (die, slice)
  let mine := s.lines.filter fun l => l.die == die && l.slice == slice && l.dirty && lineTier l.line == 2 &&
    (l.own.map owners.contains).getD false
  .next (mine.foldl State.cleanLine s)

/-- Poisoned data goes out in a write: an event of its owner, whose launch rolls back or whose block ends (R382, R383). -/
def State.poisonedOut (s : State) (o : Owner) : State :=
  match (List.range s.warps.length).find? fun w => ((s.warps[w]?).map fun x => !x.ended && (s.ownerOf x == o || x.was.contains o)).getD false with
  | some w => s.poisoned w ((((s.warps[w]?).bind fun x => x.lanes.head?).map fun y => y.pc).getD 0)
  | none => s.count (o.core / 64) 0 1

/-- TIER2_WRITEBACK_ACCEPT: the host port accepts the oldest write-back of a line (R226). -/
def execTier2WritebackAccept (line : Nat) (s : State) : Res :=
  match s.wbs.find? fun w => w.line == line with
  | none => .next s
  | some w =>
    let s := { s with
      wbs := s.wbs.filter fun x => x.id != w.id
      mem := Memory.writeN s.mem (lineMem line + w.off) w.data
      out := s.out ++ [Out.hostWrite (linePa line + w.off) w.data] }
    let s := match w.own with
      | some o => if s.isBad 2 (linePa line + w.off) w.data.length then s.poisonedOut o else s
      | none => s
    .next s.settleAll

end Sys2Proof.Machine
end

