-- ==== Sys2Proof/Machine/Barrier.lean ====
section
/-! DEFINITION. Barrier objects and the barrier instructions (R106 to R112). -/

namespace Sys2Proof.Machine

open Sys2Proof.Forms

/-! ### The object (R106) -/

structure BarObj where
  gen   : Nat
  exp   : Nat
  pend  : Nat
  inb   : Int
  outb  : Int
  fault : Bool
  rsv   : Nat
  deriving DecidableEq, Repr

def barRead (bs : List Byte) : BarObj :=
  let n := leNat bs
  ⟨fld n 0 4, fld n 4 16, fld n 20 16, numOf true 32 (fld n 36 32), numOf true 32 (fld n 68 32), fld n 100 1 == 1, fld n 101 27⟩

def barBytes (o : BarObj) : List Byte :=
  leBytes 16 (o.gen + o.exp * 2 ^ 4 + o.pend * 2 ^ 20 + (o.inb % 2 ^ 32).toNat * 2 ^ 36 + (o.outb % 2 ^ 32).toNat * 2 ^ 68 +
    (if o.fault then 2 ^ 100 else 0) + o.rsv * 2 ^ 101)

def BarObj.good (o : BarObj) : Bool := o.rsv == 0 && o.exp != 0

/-- The check of the home core after every update. -/
def BarObj.check (o : BarObj) : BarObj :=
  let complete := fun (o : BarObj) => { o with gen := (o.gen + 1) % 16, pend := o.exp, inb := 0, outb := 0 }
  if o.pend == 0 && o.inb == 0 && o.outb == 0 then complete o
  else if o.pend == 0 && (o.inb < 0 || o.outb < 0) then complete { o with fault := true }
  else o

def int32Ok (v : Int) : Bool := -(2 ^ 31) ≤ v && v < 2 ^ 31

/-- A change of the inbound or the outbound count: not made where it would leave the range, and then Fault is set. -/
def BarObj.count (o : BarObj) (inbound : Bool) (k : Int) : BarObj :=
  if inbound then (if int32Ok (o.inb + k) then { o with inb := o.inb + k }.check else { o with fault := true }.check)
  else (if int32Ok (o.outb + k) then { o with outb := o.outb + k }.check else { o with fault := true }.check)

/-- An arrival (R107). -/
def BarObj.arrive (o : BarObj) : BarObj :=
  if o.pend == 0 then { o with fault := true }.check else { o with pend := o.pend - 1 }.check

/-- The snapshot of `btest`. -/
def BarObj.snap (o : BarObj) : Nat := o.gen + (if o.fault then 16 else 0) + o.pend * 2 ^ 16

def State.barAt (s : State) (b off : Nat) : BarObj := barRead (s.windowBytes b off 16)

/-! ### Waiting lanes -/

/-- Detail of a fault that a `bwait` observes (R100, R325). -/
def State.barCause (s : State) (b off : Nat) : Cause :=
  let why := ((s.blocks[b]?).bind fun x => x.barWhy.find? fun e => e.1 == off).getD (off, 0, 0)
  ⟨6, 5, why.2.1 % 2 ^ 32, why.2.1 / 2 ^ 32, off * 2 ^ 8 + why.2.2 % 256⟩

/-- Lanes of a block that wait on an object look at it again: a new generation lets them go on, or trap where Fault is set. -/
def State.barWake (s : State) (b off : Nat) : State :=
  let o := s.barAt b off
  (List.range s.warps.length).foldl (fun s w =>
    match s.warps[w]? with
    | none => s
    | some wp =>
      if wp.blk != b || wp.ended then s
      else
        let m := wp.lanesSt fun st =>
          match st with
          | .waiting (.bwait a t _ _ _) => a == off && t != o.gen
          | _ => false
        if m = 0 then s
        else if o.fault then
          let pcOf : Nat → Nat := fun l => ((wp.lane? l).map (·.pc)).getD 0
          (s.modWarp w fun x => { x with wdFrom := none }).trap w m (fun _ => s.barCause b off) pcOf
            (fun l => (wp.lane? l).bind (·.hdr))
        else (s.modWarp w fun x => Warp.wdStart s.clk.cyc { x.mapLanes m (fun _ y => y.goOn) with wdFrom := none }).bwaitsEnd w wp) s

/-- An update of an object, and what it lets go. With Fault clear there is no reason to keep. -/
def State.barPut (s : State) (b off : Nat) (o : BarObj) : State :=
  (s.modBlk b fun x =>
    { x.setBytes off (barBytes o) with barWhy := if o.fault then x.barWhy else x.barWhy.filter fun e => e.1 != off }).barWake b off

/-- Units of a copy counted at an object (R98). -/
def State.barCount (s : State) (b off : Nat) (inbound : Bool) (k : Int) : State :=
  s.barPut b off ((s.barAt b off).count inbound k)

/-! ### The words -/

/-- What one instance does with the object it meets. -/
inductive BarRes where
  | trap (c : Cause)
  | update (o : BarObj) (reply : Option Nat)
  | pass
  | wait (token : Nat)
  deriving DecidableEq, Repr

/-- The detail of codes 1 to 4 of group 6. -/
def barTrap (code va operand : Nat) : Cause := ⟨6, code, va % 2 ^ 32, va / 2 ^ 32, operand⟩

/-- The check of a barrier operand (R110). -/
def State.barOperand (s : State) (b : Block) (va operand : Nat) : Option Cause :=
  if !inWindow va || va % 16 != 0 then some (barTrap 1 va operand)
  else if !s.windowOk b va 16 then some (memCause 3 10 7 6 va 0)
  else none

/-- The uniform form of `bwait` holds its whole warp (R107): lanes that go on in its clause wait before the next word. -/
def State.holdWarp (s : State) (w : Nat) : State :=
  { s with cur := none }.modWarp w fun y => { y with clause := y.clause.map fun (c : Clause) => { c with waits := true } }

/-- A barrier word: its instances act in ascending lane order. An arrival waits at issue until the owner's earlier accesses have
performed: at die scope on one core too, since every bar edge lies in the order of the `dev`-scope perform events (R108, R237; log 114); any of
them waits behind an acquire (R219). -/
def State.barWord (s : State) (i : Instr) (addr : Reg) (off : BitVec 12) (ctr : Option (Fin 8)) (d : Option Reg) (gate : Bool)
    (operand : Iss → Nat → Nat) (f : Nat → Nat → BarObj → BarRes) : Res :=
  s.atIssue i fun x =>
    match s.blkOf x.wp with
    | none => s
    | some b =>
      let unif := uniform x.w64 i
      let o := s.ownerOf x.wp
      let ls := x.acts i
      if !ls.isEmpty && (s.acquiring o || (gate && !s.gateOpen o x.wp.seq .die)) then s.waitIssue x
      else
        let grp := s.nextId
        let s := { s with nextId := grp + 1 }.modWarp x.w fun w => w.ctrAdd (if ls.isEmpty then none else ctrNat ctr)
        let r := ls.foldl (fun (acc : State × List (Nat × Cause) × List (Nat × Wait)) l =>
          let va := x.va l addr off 1
          let v := operand x l
          match s.barOperand b va v with
          | some c => (acc.1, acc.2.1 ++ [(l, c)], acc.2.2)
          | none =>
            let at_ := va - windowBase
            match f va v (acc.1.barAt x.wp.blk at_) with
            | .trap c => (acc.1, acc.2.1 ++ [(l, if c.code == 5 then acc.1.barCause x.wp.blk at_ else c)], acc.2.2)
            | .pass => acc
            | .wait t => (acc.1, acc.2.1, acc.2.2 ++ [(l, .bwait at_ t unif grp (ctrNat ctr))])
            | .update y reply =>
              let s := acc.1.barPut x.wp.blk at_ y
              let s := match d, reply with
                | some d, some n =>
                  s.addLocal { s.newReq x grp (.load .n32 d) .core .rlx .normal ctr unif noPlace
                      [⟨l, va, at_, 4, [], (leBytes 4 n).map some⟩] with loc := some x.wp.blk, st := .ordered } fun id =>
                    pendTag l d id 1
                | _, _ => s
              (s, acc.2.1, acc.2.2)) (s, [], [])
        let lanesOf : List Nat → Mask := fun ls => if unif then (if ls.isEmpty then 0 else x.part) else maskOf ls
        let pick : {α : Type} → List (Nat × α) → Nat → Option α := fun es l => if unif then (es.head?).map (·.2) else es.lookup l
        let s := r.1.modWarp x.w fun w => Warp.wdStart s.clk.cyc
          (w.waitAt (lanesOf (r.2.2.map (·.1))) x fun l => (pick r.2.2 l).getD .bsync)
        let s := ((s.trapHere x (lanesOf (r.2.1.map (·.1))) fun l => (pick r.2.1 l).getD ⟨0, 0, 0, 0, 0⟩).wordDone x unif).partDone x.w grp
          (if ls.isEmpty then none else ctrNat ctr)
        if unif && !r.2.2.isEmpty then s.holdWarp x.w else s

/-- Reserved bits or Expected of 0 (code 2). -/
def guarded (va v : Nat) (o : BarObj) (k : BarRes) : BarRes := if o.good then k else .trap (barTrap 2 va v)

def execBinit (e addr : Reg) (off : BitVec 12) (x : CTail) (s : State) : Res :=
  s.barWord (.binit e addr off x) addr off x.ctr none false (fun w l => w.rd1 l e) fun va v _ =>
    if v == 0 || 65535 < v then .trap (barTrap 3 va v) else .update ⟨0, v, v, 0, 0, false, 0⟩ none

def execBarrive (d addr : Reg) (off : BitVec 12) (x : CTail) (s : State) : Res :=
  s.barWord (.barrive d addr off x) addr off x.ctr (some d) true (fun _ _ => 0) fun va v o =>
    guarded va v o (.update o.arrive (some o.gen))

def execBwait (t addr : Reg) (off : BitVec 12) (x : CTail) (s : State) : Res :=
  s.barWord (.bwait t addr off x) addr off x.ctr none false (fun w l => w.rd1 l t) fun va v o =>
    guarded va v o (if 15 < v then .trap (barTrap 4 va v)
      else if o.gen == v then .wait v
      else if o.fault then .trap ⟨6, 5, 0, 0, 0⟩ else .pass)

def execBtest (d addr : Reg) (off : BitVec 12) (x : CTail) (s : State) : Res :=
  s.barWord (.btest d addr off x) addr off x.ctr (some d) false (fun _ _ => 0) fun va v o =>
    guarded va v o (.update o (some o.snap))

def execBexpect (c addr : Reg) (off : BitVec 12) (x : CTail) (s : State) : Res :=
  s.barWord (.bexpect c addr off x) addr off x.ctr none false (fun w l => w.rd1 l c) fun va v o =>
    guarded va v o (.update (o.count true ((v + 63) / 64)) none)

/-- `bsync` (R109): every lane of the issuing set waits for the rest of its block, once the owner's earlier accesses have performed as before an
arrival (log 114). -/
def execBsync (stall : Fin 16) (s : State) : Res :=
  s.atIssue (.bsync stall) fun x =>
    match s.blkOf x.wp with
    | none => s
    | some _ =>
      if !s.gateOpen (s.ownerOf x.wp) x.wp.seq .die then s.waitIssue x
      else ((s.modWarp x.w fun w => w.waitAt x.part x fun _ => .bsync).bsyncFix x.wp.blk).wordDone x true

end Sys2Proof.Machine
end

