-- ==== Sys2Proof/Machine/Digest.lean ====
section
/-! DEFINITION. SHAKE256, the digest that the spec names (R303, R409), with its first 256 bits of output. What the function computes is
taken from the standard of that name, FIPS 202 (PRESUMED, log 92). -/

namespace Sys2Proof.Machine

/-- The rotation of the lane at x + 5y. -/
def keccakRot : List Nat :=
  [0, 1, 62, 28, 27, 36, 44, 6, 55, 20, 3, 10, 43, 25, 39, 41, 45, 15, 21, 8, 18, 2, 61, 56, 14]

/-- The constant of each round. -/
def keccakRounds : List DWord :=
  [0x0000000000000001#64, 0x0000000000008082#64, 0x800000000000808A#64, 0x8000000080008000#64, 0x000000000000808B#64,
   0x0000000080000001#64, 0x8000000080008081#64, 0x8000000000008009#64, 0x000000000000008A#64, 0x0000000000000088#64,
   0x0000000080008009#64, 0x000000008000000A#64, 0x000000008000808B#64, 0x800000000000008B#64, 0x8000000000008089#64,
   0x8000000000008003#64, 0x8000000000008002#64, 0x8000000000000080#64, 0x000000000000800A#64, 0x800000008000000A#64,
   0x8000000080008081#64, 0x8000000000008080#64, 0x0000000080000001#64, 0x8000000080008008#64]

def keccakRound (a : List DWord) (rc : DWord) : List DWord :=
  let at_ := fun (l : List DWord) (x y : Nat) => l.getD (x % 5 + 5 * (y % 5)) 0
  let col := (List.range 5).map fun x => at_ a x 0 ^^^ at_ a x 1 ^^^ at_ a x 2 ^^^ at_ a x 3 ^^^ at_ a x 4
  let a := (List.range 25).map fun i =>
    a.getD i 0 ^^^ col.getD ((i % 5 + 4) % 5) 0 ^^^ (col.getD ((i % 5 + 1) % 5) 0).rotateLeft 1
  let b := (List.range 25).map fun i =>
    let x := (i % 5 + 3 * (i / 5)) % 5
    (at_ a x (i % 5)).rotateLeft (keccakRot.getD (x + 5 * (i % 5)) 0)
  let c := (List.range 25).map fun i => at_ b (i % 5) (i / 5) ^^^ (~~~ at_ b (i % 5 + 1) (i / 5) &&& at_ b (i % 5 + 2) (i / 5))
  c.set 0 (c.getD 0 0 ^^^ rc)

def keccak (a : List DWord) : List DWord := keccakRounds.foldl keccakRound a

/-- One block of 136 bytes enters the sponge. -/
def shakeAbsorb (a : List DWord) (bs : List Byte) : List DWord :=
  keccak (a.mapIdx fun i w => if i < 17 then w ^^^ BitVec.ofNat 64 (leNat ((bs.drop (8 * i)).take 8)) else w)

/-- The message with its padding, in whole blocks. -/
def shakePad (bs : List Byte) : List Byte :=
  let n := 136 - bs.length % 136
  bs ++ (if n == 1 then [0x9F#8] else 0x1F#8 :: List.replicate (n - 2) 0 ++ [0x80#8])

/-- The 32 bytes of a message's digest. -/
def shakeBytes (bs : List Byte) : List Byte :=
  let m := shakePad bs
  let a := (List.range (m.length / 136)).foldl (fun a k => shakeAbsorb a ((m.drop (136 * k)).take 136)) (List.replicate 25 0)
  (a.take 4).flatMap fun w => leBytes 8 w.toNat

def shake256 (bs : List Byte) : BitVec 256 := BitVec.ofNat 256 (leNat (shakeBytes bs))

end Sys2Proof.Machine
end

