-- ==== Sys2Proof/Machine/Copy.lean ====
section
/-! DEFINITION. Copy commands: issue checks and queueing (R96 to R99), units, windows of claimed lines and faults (R98, R100, R103),
and multicasts (R104, R105, R349). -/

namespace Sys2Proof.Machine

open Sys2Proof.Forms

/-! ### Issue -/

/-- What a lane's copy command asks for. -/
structure CopyArgs where
  op   : CopyOp
  dst  : Nat
  src  : Nat
  n    : Nat
  size : Nat
  idx  : Nat
  pat  : Word
  bar  : Option Nat             -- the barrier operand's address
  deriving DecidableEq, Repr

def CopyArgs.bytes (a : CopyArgs) : Nat := if a.op == .gather || a.op == .scatter then a.n * a.size else a.n

/-- A local range outside the block's members or shares (R79). -/
def State.rangeBad (s : State) (b : Block) (va n : Nat) : Bool := inWindow va && n != 0 && !s.windowOk b va n

def isPow2 (n : Nat) : Bool := n != 0 && 2 ^ Nat.log2 n == n

/-- The checks of R99 in the order of its table. -/
def State.copyCheck (s : State) (b : Block) (op : Nat) (a : CopyArgs) : Option Cause :=
  let elems := a.op == .gather || a.op == .scatter
  let window := fun va n kind => if s.rangeBad b va n then some (memCause 3 10 7 kind va 0) else none
  if (if elems then 65536 else 16777216) < a.n then some (engCause op 32)
  else if (a.op == .fill && (a.dst % 4 != 0 || a.n % 4 != 0)) || (elems && a.idx % 4 != 0) then some (engCause op 33)
  else if elems && !(isPow2 a.size && 4 ≤ a.size && a.size ≤ 4096) then some (engCause op 34)
  else
    (window a.dst (if a.op == .scatter then min a.n 1 else a.bytes) 5).or <|
    (if a.op == .fill then none else window a.src (if a.op == .gather then min a.n 1 else a.bytes) 4).or <|
    (if elems then window a.idx (4 * a.n) 4 else none).or <|
    match a.bar with
    | none => none
    | some va => s.barOperand b va 0

/-- Entries of the core's range scoreboard (R102). -/
def Copy.ranges (c : Copy) : Nat :=
  (if inWindow c.dst then 1 else 0) + (if c.op != .fill && inWindow c.src then 1 else 0)

/-- A multicast's source has an entry at its own core, and a receiver's range one at the receiver's from its first beat (R102, R105). -/
def State.rangesUsed (s : State) (core : Nat) : Nat :=
  ((s.copies.filter fun c => c.core == core).map Copy.ranges).sum + (s.mcasts.filter fun m => m.core == core && inWindow m.src && !m.orphan).length +
    (s.mcasts.flatMap fun m => m.left.filter fun e => 0 < e.2 && ((s.blocks[e.1]?).filter (·.st == .running)).map (fun b => b.cores.headD 0) == some core).length

/-- Commands in a core's queue, multicasts among them (R96). -/
def State.copyQueued (s : State) (core : Nat) : Nat :=
  (s.copies.filter fun c => c.core == core && c.st == .queued).length + (s.mcasts.filter fun m => m.core == core && m.st == .queued).length

/-- A place of the queue, and scoreboard entries, are free for a command that needs some (R96, R102). -/
def State.copyRoom (s : State) (core need : Nat) : Bool := s.copyQueued core < 16 && s.rangesUsed core + need ≤ 32

/-! ### Places and claims (R97, R101 to R103) -/

/-- Pages that an engine of a core needs and whose translation the core does not hold are walked for it; none where it holds them all
(R73). -/
def State.engineWalks (s : State) (core ctx cls : Nat) (vas : List Nat) : Option State :=
  let ps := ((vas.filter (s.coreMiss core ctx)).map (· / 4096)).eraseDups
  if ps.isEmpty then none else some (ps.foldl (fun s p => s.addWalk core none ctx cls (p * 4096)) s)

/-- An engine of a core has taken its fault: what its walks found is known no more. -/
def State.faultsTaken (s : State) (core : Nat) : State := { s with wfaults := s.wfaults.filter fun f => !(f.core == core && f.warp.isNone) }

/-- Where a byte of a command goes, or comes from: a place in the window or in memory. -/
inductive Spot where
  | loc (off : Nat)
  | mem (p : Place)
  | bad (grp code lvl ent va kind : Nat)
  deriving DecidableEq, Repr

/-- Translation of a byte by an engine of a block, through its core's second-level TLB (R71, R73, R79, R100). -/
def State.spot (s : State) (core ctx : Nat) (b : Block) (w : Want) (va : Nat) : Spot :=
  match s.preCheck b w 1 1 va with
  | some (.loc o) => .loc o
  | some (.bad g c l e) => .bad g c l e va w.kind
  | some _ => .bad 3 10 7 0 va w.kind
  | none =>
    match s.xlateCore core ctx w va with
    | .ok p => .mem (s.forwarded p)
    | .error (g, c, l, e) => .bad g c l e va w.kind

def State.spotByte (s : State) (b : Block) : Spot → Byte
  | .loc o => b.getByte o
  | .mem p => s.viewByte p.tier p.pa p.key
  | .bad _ _ _ _ _ _ => 0

/-- Element e's index of a gather or a scatter. -/
def State.indexOf (s : State) (c : Copy) (ctx : Nat) (b : Block) (e : Nat) : Except Spot Nat :=
  let at_ := (List.range 4).map fun k => s.spot c.core ctx b wantERead (c.idx + 4 * e + k)
  match at_.find? fun x => match x with | .bad _ _ _ _ _ _ => true | _ => false with
  | some x => .error x
  | none => .ok (leNat (at_.map (s.spotByte b)))

/-- An element of a gather or a scatter whose range in the window leaves a member: that of its base, where the base is in the window (R79). -/
def elemOut (base a size : Nat) : Bool :=
  let member := fun (v : Nat) => (v - windowBase) / 2 ^ 22
  if inWindow base then !inWindow a || member a != member base || (a - windowBase) % 2 ^ 22 + size > 2 ^ 22
  else inWindow a && (a - windowBase) % 2 ^ 22 + size > 2 ^ 22

/-- Source and destination of progress byte i (R97); a fill has no source. -/
def State.byteMove (s : State) (c : Copy) (ctx : Nat) (b : Block) (i : Nat) : Except Spot (Option Nat × Nat) :=
  match c.op with
  | .copy => .ok (some (c.src + i), c.dst + i)
  | .fill => .ok (none, c.dst + i)
  | .gather =>
    match s.indexOf c ctx b (i / c.size) with
    | .error x => .error x
    | .ok k =>
      if elemOut c.src (c.src + k * c.size) c.size then .error (.bad 3 10 7 0 (c.src + k * c.size) 4)
      else .ok (some (c.src + k * c.size + i % c.size), c.dst + i)
  | .scatter =>
    match s.indexOf c ctx b (i / c.size) with
    | .error x => .error x
    | .ok k =>
      if elemOut c.dst (c.dst + k * c.size) c.size then .error (.bad 3 10 7 0 (c.dst + k * c.size) 5)
      else .ok (some (c.src + i), c.dst + k * c.size + i % c.size)

/-- A line that an earlier access of the issuing warp still has to reach (R101), or an earlier store of its core that a barrier may have
ordered before the command's issue (R185). -/
def State.reqAhead (s : State) (warp id ln : Nat) : Bool :=
  let core := (s.warps[warp]?).map (·.core)
  s.reqs.any fun r => r.id < id && r.loc.isNone && r.line == ln && r.st != .ordered &&
    (r.warp == warp || (r.op == .store && some r.owner.core == core))

/-- A byte that an engine's command, of a warp, must not touch yet: an earlier command's range or an earlier access still keeps it (R101, R102,
R185), or it lies in a line that another engine holds (R103). -/
def State.engineBusy (s : State) (e : Engine) (warp blk id : Nat) (write : Bool) : Spot → Bool
  | .loc o => s.rangeBlocks warp blk o 1 write id
  | .mem p =>
    s.reqAhead warp id (lineOf p.tier p.pa) || s.heldBy.any fun h => h.line == lineOf p.tier p.pa && h.eng != e
  | .bad _ _ _ _ _ _ => false

def State.spotBusy (s : State) (c : Copy) (write : Bool) (x : Spot) : Bool := s.engineBusy (.copy c.core c.id) c.warp c.blk c.id write x

/-- Element e's index still waits (R101, R102). -/
def State.indexBusy (s : State) (c : Copy) (ctx : Nat) (b : Block) (e : Nat) : Bool :=
  (List.range 4).any fun k => s.spotBusy c false (s.spot c.core ctx b wantERead (c.idx + 4 * e + k))

/-- The line of a destination byte in memory. -/
def Spot.line : Spot → Option Nat
  | .mem p => if p.tier == 3 then none else some (lineOf p.tier p.pa)
  | _ => none

/-- Addresses, one in each line, of the lines a command writes between two marks: lines of a contiguous destination counted from
its first, or elements of a scatter (R103). -/
def State.claimAddrs (s : State) (c : Copy) (ctx : Nat) (b : Block) (lo hi : Nat) : List Nat :=
  match c.op with
  | .scatter =>
    ((List.range (hi - lo)).map (· + lo)).flatMap fun e =>
      match s.indexOf c ctx b e with
      | .error _ => []
      | .ok k =>
        let a := c.dst + k * c.size
        (List.range ((a % 128 + c.size + 127) / 128)).map fun j => a / 128 * 128 + 128 * j
  | _ => ((List.range (hi - lo)).map (· + lo)).map fun j => c.dst / 128 * 128 + 128 * j

/-- Marks of the claims: all of them, and the first that is not done. -/
def Copy.marks (c : Copy) : Nat :=
  if c.op == .scatter then c.n else if c.bytes == 0 then 0 else (c.dst % 128 + c.bytes + 127) / 128
def Copy.doneMark (c : Copy) : Nat :=
  if c.op == .scatter then 64 * c.units / c.size else if c.bytes ≤ 64 * c.units then c.marks else (c.dst % 128 + 64 * c.units) / 128

/-- Bytes of the first mark that is not done are written already. -/
def Copy.partway (c : Copy) : Bool :=
  c.units != 0 && (if c.op == .scatter then 64 * c.units % c.size != 0 else (c.dst % 128 + 64 * c.units) % 128 != 0)

/-- The next window: 256 lines of a contiguous destination, or the elements of the next unit of a scatter. -/
def Copy.nextMark (c : Copy) : Nat :=
  if c.op == .scatter then min c.n ((64 * (c.units + 1) + c.size - 1) / c.size) else min c.marks (c.win + 256)

def State.linesAt (s : State) (c : Copy) (ctx : Nat) (b : Block) (lo hi : Nat) : List Nat :=
  ((s.claimAddrs c ctx b lo hi).filterMap fun a =>
    match s.spot c.core ctx b wantEWrite (max a (if c.op == .scatter then a else c.dst)) with
    | .mem p => if p.tier == 3 then none else some (lineOf p.tier p.pa)
    | _ => none).eraseDups

/-- An earlier command of the core still has bytes of a line to write: the later one waits, so that its bytes remain (R103). -/
def State.writtenFirst (s : State) (c : Copy) (ctx : Nat) (b : Block) (ln : Nat) : Bool :=
  s.copies.any fun a => a.core == c.core && a.id < c.id && (s.linesAt a ctx b a.doneMark a.marks).contains ln

/-- A request of class 0 stands in flight for a line: an engine gives the line back for it, and claims it after it (R379). -/
def State.recalled (s : State) (ln : Nat) : Bool := s.reqs.any fun r => r.cls == 0 && r.st == .flight && r.loc.isNone && r.line == ln

/-- What a command whose turn it is at a line waits for: an engine that holds it, an earlier command of its core that still writes it, an
earlier access to it or one of class 0, an index still to be written. -/
def State.claimWaits (s : State) (c : Copy) (ctx : Nat) (b : Block) (ls : List Nat) : Bool :=
  (ls.any fun ln => (s.heldBy.any fun h => h.line == ln && h.eng != .copy c.core c.id) || s.writtenFirst c ctx b ln || s.reqAhead c.warp c.id ln ||
    s.recalled ln) ||
    (c.op == .scatter && ((List.range (c.nextMark - c.win)).map (· + c.win)).any (s.indexBusy c ctx b))

/-- A mark whose lines cannot be claimed yet: an address of it does not translate, or waits for a walk. -/
def State.markBad (s : State) (c : Copy) (ctx : Nat) (b : Block) (k : Nat) : Bool :=
  (c.op == .scatter && (match s.indexOf c ctx b k with | .error _ => true | .ok _ => false)) ||
    (s.claimAddrs c ctx b k (k + 1)).any fun a =>
      let va := max a (if c.op == .scatter then a else c.dst)
      s.coreMiss c.core ctx va || match s.spot c.core ctx b wantEWrite va with | .bad _ _ _ _ _ _ => true | _ => false

/-- The end of the next window: before its first mark that cannot be claimed. -/
def State.windowEnd (s : State) (c : Copy) (ctx : Nat) (b : Block) : Nat :=
  (((List.range (c.nextMark - c.win)).map (· + c.win)).find? (s.markBad c ctx b)).getD c.nextMark

/-- A command claims its next window of lines, once it holds at most the last one of the window before, or the lines of the next unit's
elements, 256 lines at most (R103); none where it cannot. -/
def State.claimNext (s : State) (c : Copy) : Option State :=
  match s.blocks[c.blk]?, s.warps[c.warp]? with
  | some b, some wp =>
    let held := s.heldBy.filter fun h => h.eng == .copy c.core c.id
    let next := s.windowEnd c (s.ctxOf wp) b
    let ls := s.linesAt c (s.ctxOf wp) b c.win next
    let fresh := ls.filter fun ln => !(held.any fun h => h.line == ln)
    let first : Bool := match c.st with
      | .running _ => true
      | .queued => c.op != .scatter && held.isEmpty
      | .parked _ => false
    if first && c.win < next && c.due ≤ s.clk.ucyc && (if c.op == .scatter then held.length + fresh.length ≤ 256 else held.length ≤ 1) && !s.claimWaits c (s.ctxOf wp) b ls then
      some { s with
        heldBy := s.heldBy ++ fresh.map fun ln => HeldLine.mk ln (.copy c.core c.id)
        copies := s.copies.map fun (x : Copy) => if x.id == c.id then { x with win := next, waitFrom := none } else x }
    else none
  | _, _ => none

/-! ### Entering the queue -/

/-- One lane's command enters the queue and claims its first window, where it can (R103); an `.out` command adds its units to the outbound
count (R98). -/
def State.enterCopy (s : State) (x : Iss) (l grp : Nat) (out : Bool) (ctr : Option (Fin 8)) (a : CopyArgs) : State :=
  let off := a.bar.map (· - windowBase)
  let c : Copy := {
    id := s.nextId, turn := s.nextId, core := x.wp.core, blk := x.wp.blk, warp := x.w, lane := l, word := x.addr, op := a.op,
    dst := a.dst, src := a.src, n := a.n, size := a.size, idx := a.idx, pat := a.pat, bar := off, out := out, units := 0, kept := [],
    ctr := ctrNat ctr, grp := grp, win := 0, bounces := 0, due := 0, waitFrom := none, st := .queued }
  let s := { s with nextId := s.nextId + 1, copies := s.copies ++ [c] }
  let s := (s.claimNext c).getD s
  match off with
  | some o => if out then s.barCount x.wp.blk o false ((a.bytes + 63) / 64 : Nat) else s
  | none => s

/-- Commands of a word's lanes enter a queue one lane at a time, as there is room (R46, R96, R172). -/
def State.enterLanes {α : Type} (s : State) (x : Iss) (unif : Bool) (ctr : Option (Fin 8)) (room : State → α → Bool)
    (enter : State → Nat → Nat → α → State) (args : List (Nat × α)) : State :=
  if args.isEmpty then (s.wordDone x unif).partDone x.w x.cl.grp (if x.cl.entered = 0 then none else ctrNat ctr)
  else
    let grp := if x.cl.entered = 0 then s.nextId else x.cl.grp
    let r := args.foldl (fun (acc : State × List Nat × Bool) e =>
      if acc.2.2 || !room acc.1 e.2 then (acc.1, acc.2.1, true) else (enter acc.1 e.1 grp e.2, acc.2.1 ++ [e.1], false))
      ({ s with nextId := s.nextId + 1 }, [], false)
    if r.2.1.isEmpty then s.waitIssue x
    else
      let t := if x.cl.entered = 0 then r.1.modWarp x.w fun w => w.ctrAdd (ctrNat ctr) else r.1
      if r.2.2 then t.enterPart x (maskOf r.2.1) grp else t.wordDone x unif

/-- A place, and scoreboard entries, for a lane's copy command. -/
def State.copyFits (core : Nat) (s : State) (a : CopyArgs) : Bool :=
  s.copyRoom core ((if inWindow a.dst then 1 else 0) + if a.op != .fill && inWindow a.src then 1 else 0)

/-- A word whose first command finds no place waits at issue, and none of its lanes has trapped (R46). -/
def noPlaceYet {α : Type} (room : α → Bool) (args : List (Nat × α)) : Bool := ((args.head?).map fun e => !room e.2).getD false

def State.enterCopies (s : State) (x : Iss) (unif : Bool) (out : Bool) (ctr : Option (Fin 8)) (args : List (Nat × CopyArgs)) : State :=
  s.enterLanes x unif ctr
    (State.copyFits x.wp.core)
    (fun s l grp a => s.enterCopy x l grp out ctr a) args

/-- A copy word: lanes whose command fails a check trap, and the others' commands enter. -/
def State.copyWord (s : State) (i : Instr) (out : Bool) (ctr : Option (Fin 8)) (args : Iss → Nat → CopyArgs) : Res :=
  s.atIssue i fun x =>
    match s.blkOf x.wp with
    | none => s
    | some b =>
      let unif := uniform x.w64 i
      let all := (x.acts i).map fun l => (l, args x l)
      let causeOf : Nat → Option Cause := fun l => (all.lookup l).bind fun a => s.copyCheck b (opOf x.word) a
      let bad := (all.map (·.1)).filter fun l => (causeOf l).isSome
      let m := if unif && !bad.isEmpty then x.part else maskOf bad
      if noPlaceYet (State.copyFits x.wp.core s) (all.filter fun e => (causeOf e.1).isNone) then s.waitIssue x
      else
      (s.trapHere x m fun l => ((causeOf (if unif then bad.headD 0 else l)).getD ⟨0, 0, 0, 0, 0⟩)).enterCopies x unif out ctr
        (all.filter fun e => (causeOf e.1).isNone)

/-- A barrier pair, `s0` for none. -/
def barPair (x : Iss) (l : Nat) (b : Reg) : Option Nat := if Reg.isS0 b then none else some (x.rd l b 2)

def execXcopy (d sr n b : Reg) (out : Bool) (x : CTail) (s : State) : Res :=
  s.copyWord (.xcopy d sr n b out x) out x.ctr fun w l =>
    ⟨.copy, w.rd l d 2, w.rd l sr 2, w.rd1 l n, 1, 0, 0, barPair w l b⟩

/-- The operands of the element copies: count and size, index list, barrier (zero for none). -/
def elemArgs (op : CopyOp) (w : Iss) (l : Nat) (d sr n b : Reg) : CopyArgs :=
  let q := w.rd l b 4
  let bar := q / 2 ^ 64
  ⟨op, w.rd l d 2, w.rd l sr 2, w.rd l n 2 % 2 ^ 32, w.rd l n 2 / 2 ^ 32, q % 2 ^ 64, 0, if bar == 0 then none else some bar⟩

def execXgather (d sr n b : Reg) (out : Bool) (x : CTail) (s : State) : Res :=
  s.copyWord (.xgather d sr n b out x) out x.ctr fun w l => elemArgs .gather w l d sr n b

def execXscatter (d sr n b : Reg) (out : Bool) (x : CTail) (s : State) : Res :=
  s.copyWord (.xscatter d sr n b out x) out x.ctr fun w l => elemArgs .scatter w l d sr n b

def execXfill (d p n b : Reg) (out : Bool) (x : CTail) (s : State) : Res :=
  s.copyWord (.xfill d p n b out x) out x.ctr fun w l =>
    ⟨.fill, w.rd l d 2, 0, w.rd1 l n, 1, 0, w.wp.reg l p 0, barPair w l b⟩

/-! ### Multicast: issue (R104) -/

/-- The multicast list: barrier offset and receivers' linear indices, none where it is malformed. -/
def mcastList (bs : List Byte) : Option (Option Nat × List Nat) :=
  let n := leNat (bs.take 4)
  let bar := leNat ((bs.drop 4).take 4)
  let entry := fun k => leNat ((bs.drop (8 + 8 * k)).take 8)
  let rs := (List.range n).map entry
  if n == 0 || 14 < n || (bar != 0xFFFFFFFF && bar % 16 != 0) || (List.range 14).any (fun k => n ≤ k && entry k != 0) ||
      leNat (bs.drop 120) != 0 || rs.eraseDups.length != n then none
  else some (if bar == 0xFFFFFFFF then none else some bar, rs)

/-- The block of a launch with a linear index, placed in a cluster. For one that has exited before the word issues R105 has nothing to receive
and R99 has code 36, for a receiver not placed in the cluster: the model's choice is code 36 (log 115). -/
def State.receiver (s : State) (launch cluster lin : Nat) : Option Nat :=
  (List.range s.blocks.length).find? fun k => ((s.blocks[k]?).map fun b =>
    b.launch == launch && b.lin == lin && b.wave == 0 && (b.st == .running || b.st == .saved) &&
      (b.cores.headD 0) / 8 == cluster).getD false

structure McastArgs where
  off  : Nat
  src  : Nat
  n    : Nat
  list : Nat
  deriving DecidableEq, Repr

/-- The checks of R99 for a multicast, and what the list holds. -/
def State.mcastCheck (s : State) (b : Block) (op cluster : Nat) (a : McastArgs) : Except Cause (Option Nat × List Nat) :=
  if 16777216 < a.n then .error (engCause op 32)
  else if !inWindow a.list || a.list % 16 != 0 then .error (engCause op 35)
  else if !s.windowOk b a.list 128 then .error (memCause 3 10 7 4 a.list 0)
  else
    match mcastList (b.getBytes (a.list - windowBase) 128) with
    | none => .error (engCause op 35)
    | some (bar, lins) =>
      let rs := lins.filterMap fun k => s.receiver b.launch cluster k
      if rs.length != lins.length then .error (engCause op 36)
      else if s.rangeBad b a.src a.n then .error (memCause 3 10 7 4 a.src 0)
      else .ok (bar, rs)

def State.enterMcast (s : State) (x : Iss) (l grp : Nat) (ctr : Option (Fin 8)) (e : McastArgs × Option Nat × List Nat) : State :=
  { s with
    nextId := s.nextId + 1
    mcasts := s.mcasts ++ [{
      id := s.nextId, turn := s.nextId, core := x.wp.core, blk := x.wp.blk, warp := x.w, lane := l, word := x.addr,
      off := e.1.off, src := e.1.src, n := e.1.n, read := false, data := [], bar := e.2.1, left := e.2.2.map fun r => (r, 0),
      ctr := ctrNat ctr, grp := grp, told := false, orphan := false, st := .queued }] }

/-- `xmcast` (R104): its commands stand in the core's queue like the other copy commands (R96). A list that a copy still writes is read once
it is written (R102). -/
def execXmcast (d sr n li : Reg) (x : CTail) (s : State) : Res :=
  s.atIssue (.xmcast d sr n li x) fun w =>
    match s.blkOf w.wp with
    | none => s
    | some b =>
      let i := Instr.xmcast d sr n li x
      let unif := uniform w.w64 i
      let all := (w.acts i).map fun l =>
        let a : McastArgs := ⟨w.rd1 l d, w.rd l sr 2, w.rd1 l n, w.rd l li 2⟩
        (l, a, s.mcastCheck b (opOf w.word) (w.wp.core / 8) a)
      let bad := all.filterMap fun e => match e.2.2 with | .error c => some (e.1, c) | .ok _ => none
      let good := all.filterMap fun e => match e.2.2 with | .error _ => none | .ok r => some (e.1, e.2.1, r)
      let reads := fun (a : McastArgs) => inWindow a.list && a.list % 16 == 0 && s.windowOk b a.list 128
      if all.any fun e => reads e.2.1 && s.rangeBlocks w.w w.wp.blk (e.2.1.list - windowBase) 128 false s.nextId then s.waitIssue w
      else if noPlaceYet (fun (e : McastArgs × Option Nat × List Nat) => s.copyRoom w.wp.core (if inWindow e.1.src then 1 else 0)) good then s.waitIssue w
      else
        let s := s.trapHere w (if unif && !bad.isEmpty then w.part else maskOf (bad.map (·.1))) fun l =>
          (if unif then (bad.head?).map (·.2) else bad.lookup l).getD ⟨0, 0, 0, 0, 0⟩
        s.enterLanes w unif x.ctr (fun s e => s.copyRoom w.wp.core (if inWindow e.1.src then 1 else 0))
          (fun s l grp e => s.enterMcast w l grp x.ctr e) good

/-! ### How a command ends -/

def State.modCopy (s : State) (id : Nat) (f : Copy → Copy) : State :=
  { s with copies := s.copies.map fun c => if c.id == id then f c else c }

def State.unclaim (s : State) (e : Engine) : State := { s with heldBy := s.heldBy.filter fun h => h.eng != e }

/-- A command leaves its engine: its lines and ranges are free, its counter falls, and local accesses behind it go on. -/
def State.removeCopy (s : State) (c : Copy) : State :=
  (({ s with copies := s.copies.filter fun x => x.id != c.id }.unclaim (.copy c.core c.id)).partDone c.warp c.grp c.ctr).rangeRetry

/-- A program fault of a running command (R100): its remaining units are subtracted and its barrier faults, or its warp takes
group 4 code 37. -/
def State.failCopy (s : State) (c : Copy) (code va op : Nat) : State :=
  let s := (s.faultsTaken c.core).removeCopy c
  match c.bar with
  | some off =>
    let o := s.barAt c.blk off
    let rest := (c.bytes + 63) / 64 - c.units
    let s := s.modBlk c.blk fun b => { b with barWhy := (off, va, code) :: b.barWhy.filter fun e => e.1 != off }
    s.barPut c.blk off (({ o with fault := true } : BarObj).count (!c.out) (-(rest : Int)))
  | none => s.addDue c.warp ⟨maskOf [c.lane], 4, 37, op * 2 ^ 24 + code, va % 2 ^ 32, va / 2 ^ 32, c.word, none⟩

def copyOpcode : CopyOp → Nat
  | .copy => 0x70
  | .gather => 0x71
  | .scatter => 0x72
  | .fill => 0x74

/-- Commands in a core's parked list (R100). -/
def State.parkedOn (s : State) (core : Nat) : Nat :=
  (s.copies.filter fun x => x.core == core && (match x.st with | .parked _ => true | _ => false)).length +
    (s.mcasts.filter fun x => x.core == core && (match x.st with | .parked _ => true | _ => false)).length

/-- A fault found while a command runs (R100): parked on a posted entry while the parked list has a place, or a program fault. -/
def State.copyFault (s : State) (c : Copy) (kind grp code lvl ent va : Nat) : State :=
  match s.warps[c.warp]? with
  | none => s
  | some wp =>
    let ctx := s.ctxOf wp
    if isPosted grp code && ((s.ctx? ctx).bind Context.fqCount).isSome then
      if 8 ≤ s.parkedOn c.core then s
      else
        let id := s.nextFaultId ctx
        ((((s.faultsTaken c.core).modCopy c.id fun x => { x with st := .parked id, win := x.doneMark, waitFrom := none }).unclaim (.copy c.core c.id)).post ctx
          (s.entryOf wp 1 va c.word 0 0 (accCause grp code lvl kind va ent)))
    else s.failCopy c code va (copyOpcode c.op)

/-! ### Running -/

/-- The first command of a core's queue: a resumed one stands at its head (R96, R100). -/
def State.queueHead (s : State) (core : Nat) : Option (Copy ⊕ Mcast) :=
  let q := (s.copies.filter fun c => c.core == core && c.st == .queued).map (fun c => (c.turn, (Sum.inl c : Copy ⊕ Mcast))) ++
    (s.mcasts.filter fun m => m.core == core && m.st == .queued).map fun m => (m.turn, Sum.inr m)
  (q.foldl (fun (best : Option (Int × (Copy ⊕ Mcast))) e =>
    match best with
    | none => some e
    | some x => if e.1 < x.1 then some e else best) none).map (·.2)

/-- COPY_COMMAND_START: the first command of the queue is taken, a copy by an idle engine of the core (R96), a multicast by the one copy
engine of the cluster (R17, R105). -/
def execCopyCommandStart (core : Nat) (s : State) : Res :=
  let busy := s.copies.filterMap fun c => if c.core == core then (match c.st with | .running e => some e | _ => none) else none
  match s.queueHead core with
  | none => .next s
  | some (.inl c) =>
    match [0, 1].find? fun e => !busy.contains e with
    | none => .next s
    | some e => .next (s.modCopy c.id fun x => { x with st := .running e })
  | some (.inr m) =>
    when (s.mcasts.all fun x => x.core / 8 != core / 8 || (match x.st with | .running _ => false | _ => true)) s
      { s with mcasts := s.mcasts.map fun (x : Mcast) => if x.id == m.id then { x with st := .running 0 } else x }

/-- Whether a destination byte lies in the range that its command reads (R97): what such a byte takes is left open. -/
def State.openByte (s : State) (c : Copy) (ctx : Nat) (b : Block) (dst : Nat) : Bool :=
  let among := fun (lo n : Nat) => decide (lo ≤ dst) && decide (dst < lo + n)
  match c.op with
  | .copy | .scatter => among c.src c.bytes
  | .fill => false
  | .gather => (List.range c.n).any fun e =>
      match s.indexOf c ctx b e with
      | .ok k => among (c.src + k * c.size) c.size
      | .error _ => false

/-- The moves of one unit, each byte's spots and its value, or the fault that stops it. A byte of an overlap takes a free value, and a
source byte that the command has written over counts as it stood. -/
def State.unitMoves (s : State) (c : Copy) (ctx : Nat) (b : Block) : List Nat →
    Except Spot (List (Option Spot × Spot × Byte × Option (Nat × Byte)))
  | [] => .ok []
  | i :: is =>
    match s.byteMove c ctx b i with
    | .error x => .error x
    | .ok (src, dst) =>
      let from_ := src.map fun a => s.spot c.core ctx b wantERead (a % 2 ^ 64)
      let to_ := s.spot c.core ctx b wantEWrite (dst % 2 ^ 64)
      match from_, to_ with
      | some (.bad g k l e va w), _ => .error (.bad g k l e va w)
      | _, .bad g k l e va w => .error (.bad g k l e va w)
      | _, _ =>
        match State.unitMoves s c ctx b is with
        | .error x => .error x
        | .ok ms =>
          let v := if s.openByte c ctx b dst then Config.freeByte (s.free + i) else
            match src.bind fun a => c.kept.lookup a, from_ with
            | some x, _ => x
            | none, some f => s.spotByte b f
            | none, none => BitVec.ofNat 8 (c.pat.toNat / 2 ^ (8 * (i % 4)))
          .ok ((from_, to_, v, if s.openByte c ctx b dst then some (dst, s.spotByte b to_) else none) :: ms)

/-- A write by an engine at device scope: to the line's home, to the host port, or to a peer, which acknowledges it. -/
def State.devWrite (s : State) (e : Engine) (w : Nat) (own : Owner) (p : Place) (bs : List Byte) : State :=
  if p.tier == 3 then
    { s.ramWrite (lineOf 3 p.pa) 0 (patch (s.ramLine (lineOf 3 p.pa) 0) (p.pa % 128) bs) with
      out := if (s.portAt p.die p.pa).isSome then s.out ++ [.fabric (p.pa / 2 ^ 42) bs] else s.out
      peerWrites := s.peerWrites ++ [if (s.portAt p.die p.pa).isSome then ⟨s.nextId, e, p.die, p.pa, bs, 0, 0⟩
        else ⟨s.nextId, e, p.die, p.pa, bs, 1, s.clk.ucyc + 128⟩]
      nextId := s.nextId + 1 }
  else
    let s := s.fill p .normal true
    if p.tier == 2 && (s.lineOf? (lineOf 2 p.pa)).isNone then
      { s with wbs := s.wbs ++ [⟨s.nextId, lineOf 2 p.pa, p.pa % 128, bs, some own⟩], nextId := s.nextId + 1 }
    else (s.snapshot w p).putLine p bs none (some own)

def State.spotWrite (s : State) (e : Engine) (w blk : Nat) (own : Owner) (x : Spot) (v : Byte) : State :=
  match x with
  | .loc o => s.modBlk blk fun b => b.setByte o v
  | .mem p => s.devWrite e w own p [v]
  | .bad _ _ _ _ _ _ => s

/-- What reads leave behind: their lines in L2, as device-scope reads with the hint `normal` bring them there (R80). -/
def State.engineRead (s : State) (xs : List Spot) : State :=
  ((xs.filterMap fun x => match x with | .mem p => if p.tier == 3 then none else some p | _ => none).foldl
    (fun (acc : List Place) p => if acc.any fun y => lineOf y.tier y.pa == lineOf p.tier p.pa then acc else acc ++ [p]) []).foldl
    (fun s p => s.fill p .normal false) s

/-- Progress bytes of unit k. -/
def unitBytes (bytes k : Nat) : List Nat := (List.range (min 64 (bytes - 64 * k))).map (· + 64 * k)

/-- Poisoned bytes among those that an engine reads (R382). -/
def State.spotBad (s : State) (b : Block) : Spot → Bool
  | .loc o => b.bad.contains o
  | .mem p => s.isBad p.tier p.pa 1
  | .bad _ _ _ _ _ _ => false

/-- The bytes in which an engine's read has found an error are poisoned. -/
def State.spotSpoil (s : State) (blk : Nat) : Spot → State
  | .loc o => s.modBlk blk fun b => { b with bad := if b.bad.contains o then b.bad else b.bad ++ [o] }
  | .mem p => if p.tier ≤ 2 then s.spoil p.tier p.pa 1 else s
  | .bad _ _ _ _ _ _ => s

/-- The addresses that a unit's translation needs: of its index words, sources and destinations. -/
def State.unitVas (s : State) (c : Copy) (ctx : Nat) (b : Block) (is : List Nat) : List Nat :=
  is.flatMap fun i =>
    (if c.op == .gather || c.op == .scatter then [c.idx + 4 * (i / c.size), c.idx + 4 * (i / c.size) + 3] else []) ++
      match s.byteMove c ctx b i with
      | .ok (a, d) => (d :: a.toList).map (· % 2 ^ 64)
      | .error _ => []

/-- The command stands at a line that another engine holds: its hold time runs from when it came there (R206, R207). -/
def State.copyWaits (s : State) (c : Copy) : State :=
  let cls := ((s.warps[c.warp]?).map s.clsOf).getD 3
  if c.waitFrom.isNone then s.modCopy c.id fun x => { x with waitFrom := some (s.clk.ucyc, s.holdBound 0 cls) } else s

/-- One unit of a running command is done. -/
def State.copyUnit (s : State) (c : Copy) (e : Ecc) : State :=
  match s.blocks[c.blk]?, s.warps[c.warp]? with
  | some b, some wp =>
    let ctx := s.ctxOf wp
    if c.bytes ≤ 64 * c.units || s.clk.ucyc < c.due then s
    else
      match s.engineWalks c.core ctx (s.clsOf wp) (s.unitVas c ctx b (unitBytes c.bytes c.units)) with
      | some t => t
      | none =>
      match s.unitMoves c ctx b (unitBytes c.bytes c.units) with
      | .error (.bad g k l en va w) => s.copyFault c w g k l en va
      | .error _ => s
      | .ok ms =>
        let mine := fun ln => s.heldBy.any fun h => h.line == ln && h.eng == .copy c.core c.id
        let elems := (c.op == .gather || c.op == .scatter) && ((unitBytes c.bytes c.units).map (· / c.size)).eraseDups.any (s.indexBusy c ctx b)
        let ready := !elems && ms.all fun m =>
          !s.spotBusy c true m.2.1 && !((m.1.map fun f => s.spotBusy c false f).getD false) &&
            (match m.2.1.line with | some ln => mine ln | none => true)
        let other := ms.any fun m => ((m.2.1 :: m.1.toList).any fun x => match x with
          | .mem p => s.heldBy.any fun h => h.line == lineOf p.tier p.pa && h.eng != .copy c.core c.id
          | _ => false)
        if !ready then (if other then s.copyWaits c else s)
        else if e == .poison then (((ms.filterMap (·.1)).foldl (fun s x => s.spotSpoil c.blk x) s).poisoned c.warp c.word).removeCopy c
        else if ms.any fun m => (m.1.map (s.spotBad b)).getD false then (s.poisoned c.warp c.word).removeCopy c
        else
          let s := ((s.eccCount (c.core / 64) e).engineRead (ms.filterMap (·.1))).modCopy c.id fun x => { x with waitFrom := none }
          let s := if ms.isEmpty then s else { s with free := s.free + c.bytes }
          let s := ms.foldl (fun s m => s.spotWrite (.copy c.core c.id) c.warp c.blk (s.ownerOf wp) m.2.1 m.2.2.1) s
          let s := s.modCopy c.id fun x => { x with units := x.units + 1, kept := x.kept ++ ms.filterMap fun m => m.2.2.2 }
          match c.bar with
          | some off => s.barCount c.blk off (!c.out) (-1)
          | none => s
  | _, _ => s

def State.copyRun (s : State) (core cmd : Nat) : Option Copy :=
  s.copies.find? fun c => c.id == cmd && c.core == core && (match c.st with | .running _ => true | _ => false)

def execCopyUnitDone (core cmd : Nat) (e : Ecc) (s : State) : Res :=
  match s.copyRun core cmd with
  | none => .next s
  | some c => .next (s.copyUnit c e)

/-- COPY_LINE_CLAIM: the next window of destination lines, once no other engine holds any of them (R103). -/
def execCopyLineClaim (core cmd : Nat) (s : State) : Res :=
  match s.copies.find? fun c => c.core == core && c.id == cmd with
  | none => .next s
  | some c =>
    match s.claimNext c, s.blocks[c.blk]?, s.warps[c.warp]? with
    | some t, _, _ => .next t
    | none, some b, some wp =>
      let ctx := s.ctxOf wp
      let waits := c.win < c.nextMark && c.due ≤ s.clk.ucyc && !(c.st matches .parked _)
      match (if waits && c.win ≤ c.doneMark + 1 then s.engineWalks c.core ctx (s.clsOf wp) (s.claimAddrs c ctx b c.win (c.win + 1)) else none) with
      | some t => .next t
      | none =>
        let held := (s.linesAt c ctx b c.win (s.windowEnd c ctx b)).any fun ln => s.heldBy.any fun h => h.line == ln && h.eng != .copy c.core c.id
        .next (if waits && held then s.copyWaits c else s)
    | none, _, _ => .next s

/-- The command that an engine runs. -/
def Engine.cmd : Engine → Option Nat
  | .copy _ k | .matrix _ k => some k
  | .move _ | .link => none

/-- Every write of an engine's command to a peer has been acknowledged. -/
def State.peersDone (s : State) (e : Engine) : Bool := e.cmd.isNone || s.peerWrites.all fun w => w.eng.cmd != e.cmd

/-- COPY_COMMAND_COMPLETE: every unit is done, and the peers of its tier-3 destinations have their bytes. -/
def execCopyCommandComplete (core cmd : Nat) (s : State) : Res :=
  match s.copyRun core cmd with
  | none => .next s
  | some c => when (c.bytes ≤ 64 * c.units && s.peersDone (.copy core cmd)) s (s.removeCopy c)

/-- Whether a copy command has written all its bytes of a line that it holds; the last line of a window stays until the next window is
claimed (R103). -/
def State.copyLineDone (s : State) (c : Copy) (line : Nat) : Bool :=
  match s.blocks[c.blk]?, s.warps[c.warp]? with
  | some b, some wp =>
    let last := if c.op == .scatter || c.marks ≤ c.win then [] else s.linesAt c (s.ctxOf wp) b (c.win - 1) c.win
    !(s.linesAt c (s.ctxOf wp) b c.doneMark c.win ++ last).contains line
  | _, _ => true

/-- Source lines of a command's next unit (R103). -/
def State.sourceLines (s : State) (c : Copy) (ctx : Nat) (b : Block) : List Nat :=
  ((unitBytes c.bytes c.units).filterMap fun i =>
    match s.byteMove c ctx b i with
    | .ok (some a, _) => (match s.spot c.core ctx b wantERead (a % 2 ^ 64) with | .mem p => some (lineOf p.tier p.pa) | _ => none)
    | _ => none).eraseDups

/-- A command's claim or read has met its hold bound, that of a slice's queue, or of a die link that it has to cross (R12, R207, R415): it stands in its engine's retry list, and comes back after the back-off of R211;
at its 64th bounce it ends as by a program fault, with code 16. The list's 48 entries suffice: a command has one access at a time there. -/
def State.copyBounced (s : State) (c : Copy) (kind : Nat) : State :=
  let cls := ((s.warps[c.warp]?).map s.clsOf).getD 3
  let (t, bound) := c.waitFrom.getD (max s.clk.ucyc c.due, s.holdBound kind cls)
  let s := s.advance (s.clk.untilU (t + bound))
  if 63 ≤ c.bounces then s.failCopy c 16 c.dst (copyOpcode c.op)
  else s.modCopy c.id fun x => { x with waitFrom := none, bounces := x.bounces + 1, due := s.clk.ucyc + 64 * 2 ^ min (x.bounces + 1) 6 }

/-! ### Multicast (R105, R349) -/

def State.modMcast (s : State) (id : Nat) (f : Mcast → Mcast) : State :=
  { s with mcasts := s.mcasts.map fun m => if m.id == id then f m else m }

/-- A receiver that beats still reach: it runs, or is saved, and then its image takes them (R349). -/
def State.receiverBlock (s : State) (b : Nat) : Option Block :=
  (s.blocks[b]?).bind fun x => if x.st == .saved || x.st == .running then some x else none

/-- A barrier update at a receiver. -/
def State.receiverBar (s : State) (b off : Nat) (f : BarObj → BarObj) : State :=
  match s.receiverBlock b with
  | none => s
  | some x => s.barPut b off (f (barRead (x.getBytes off 16)))

/-- The command ends when no receiver is left. -/
def State.mcastDone (s : State) (id : Nat) : State :=
  match s.mcasts.find? fun m => m.id == id with
  | none => s
  | some m =>
    if m.left.isEmpty then
      (({ s with mcasts := s.mcasts.filter fun x => x.id != id }).partDone m.warp m.grp m.ctr).rangeRetry
    else s

/-- Delivery to one receiver ends: Fault at its barrier with its remaining units subtracted, or group 4 code 37, once for a command. -/
def State.mcastFail (s : State) (m : Mcast) (b code va : Nat) : State :=
  let rest := (m.n + 63) / 64 - ((m.left.lookup b).getD 0)
  let s := s.modMcast m.id fun x => { x with left := x.left.filter fun e => e.1 != b }
  match m.bar with
  | some off =>
    let s := s.modBlk b fun y => { y with barWhy := (off, va, code) :: y.barWhy.filter fun e => e.1 != off }
    s.receiverBar b off fun o => ({ o with fault := true } : BarObj).count true (-(rest : Int))
  | none =>
    if m.orphan || m.told then s
    else (s.modMcast m.id fun x => { x with told := true }).addDue m.warp
      ⟨maskOf [m.lane], 4, 37, 0x73 * 2 ^ 24 + code, va % 2 ^ 32, va / 2 ^ 32, m.word, none⟩

/-- A program fault of the source ends the delivery to every receiver (R100): one code 37 at most, for the command. -/
def State.mcastEnd (s : State) (m : Mcast) (code va : Nat) : State :=
  (m.left.foldl (fun s r =>
    match s.mcasts.find? fun x => x.id == m.id with
    | some x => s.mcastFail x r.1 code va
    | none => s) (s.faultsTaken m.core)).mcastDone m.id

/-- The source is read once, whole (R105); a fault parks the command or ends it at every receiver. -/
def State.mcastRead (s : State) (m : Mcast) : State :=
  match s.blocks[m.blk]?, s.warps[m.warp]? with
  | some b, some wp =>
    let ctx := s.ctxOf wp
    let vas := (List.range m.n).map fun i => (m.src + i) % 2 ^ 64
    match s.engineWalks m.core ctx (s.clsOf wp) (vas.filter fun a => a % 4096 == 0 || a == m.src || a % 128 == 0) with
    | some t => t
    | none =>
    let spots := (List.range m.n).map fun i => s.spot m.core ctx b wantERead ((m.src + i) % 2 ^ 64)
    match spots.find? fun x => match x with | .bad _ _ _ _ _ _ => true | _ => false with
    | some (.bad g k l e va w) =>
      if isPosted g k && ((s.ctx? ctx).bind Context.fqCount).isSome then
        if 8 ≤ s.parkedOn m.core then s
        else
        let id := s.nextFaultId ctx
        ((s.faultsTaken m.core).modMcast m.id fun x => { x with st := .parked id }).post ctx (s.entryOf wp 1 va m.word 0 0 (accCause g k l w va e))
      else s.mcastEnd m k va
    | _ =>
      if spots.any (s.engineBusy (.copy m.core m.id) m.warp m.blk m.id false) then s
      else if spots.any (s.spotBad b) then
        (({ s.poisoned m.warp m.word with mcasts := (s.poisoned m.warp m.word).mcasts.filter fun x => x.id != m.id }).partDone m.warp m.grp m.ctr).rangeRetry
      else
        (s.engineRead spots).modMcast m.id fun x =>
          { x with read := true, data := spots.map (s.spotByte b) }
  | _, _ => s

/-- MULTICAST_DELIVERY: one beat of 64 bytes to a receiver, the source being read first. Where the barrier lies beyond the receiver's share there
is no fault bit that R105 could set: the model's choice is that the delivery ends with code 37, as though there were no barrier (log 116). -/
def execMulticastDelivery (cmd b : Nat) (s : State) : Res :=
  match s.mcasts.find? fun m => m.id == cmd with
  | none => .next s
  | some m =>
    match m.st with
    | .parked _ | .queued => .next s
    | .running _ =>
      if !m.read then .next (s.mcastRead m)
      else
        match m.left.lookup b with
        | none => .next s
        | some k =>
          match s.receiverBlock b with
          | none => .next ((s.modMcast cmd fun x => { x with left := x.left.filter fun e => e.1 != b }).mcastDone cmd)
          | some y =>
            let share := s.shareOf y
            let badBar := (m.bar.map fun off => decide (share < off + 16)).getD false
            if share < m.off + m.n || badBar then
              .next ((s.mcastFail { m with bar := if badBar then none else m.bar } b 10 (windowBase + m.off)).mcastDone cmd)
            else if m.n ≤ 64 * k then
              .next ((s.modMcast cmd fun x => { x with left := x.left.filter fun e => e.1 != b }).mcastDone cmd)
            else
              let beat := (m.data.drop (64 * k)).take 64
              if s.rangeBlocks m.warp b (m.off + 64 * k) beat.length true cmd || (k == 0 && y.st == .running && 32 ≤ s.rangesUsed (y.cores.headD 0)) then .next s
              else
                let s := s.modBlk b fun z => z.setBytes (m.off + 64 * k) beat
                let s := s.modMcast cmd fun x => { x with left := x.left.map fun e => if e.1 == b then (b, k + 1) else e }
                let s := match m.bar with
                  | some off => s.receiverBar b off fun o => o.count true (-1)
                  | none => s
                .next (if m.n ≤ 64 * (k + 1) then
                  (s.modMcast cmd fun x => { x with left := x.left.filter fun e => e.1 != b }).mcastDone cmd else s)

end Sys2Proof.Machine
end

