-- ==== Sys2Proof/Machine/Matrix.lean ====
section
/-! DEFINITION. The matrix engine (R170 to R194): tiles and their owners, commands with their issue checks, bands and stop points,
what a multiply, a load and a drain compute (R125 to R132, R178 to R183), batches (R184, R137, R138), MPROG and the baton; and
what engines do with held lines and hold bounds (R103, R207). -/

namespace Sys2Proof.Machine

open Sys2Proof.Forms

/-! ### Tiles (R170) -/

def tileKey (t m n : Nat) : Nat := t * 1024 + m * 32 + n

def Block.element (b : Block) (t m n : Nat) : BitVec 80 :=
  match b.tiles.lookup (tileKey t m n) with
  | some x => x
  | none =>
    match b.freshT with
    | none => 0
    | some k => Config.freeElement (k + tileKey t m n)

def Block.setElement (b : Block) (t m n : Nat) (x : BitVec 80) : Block := { b with tiles := mput (tileKey t m n) x b.tiles }

/-- Tile t is owned by the threads (R171). -/
def Block.threadsOwn (b : Block) (t : Nat) : Bool := b.owners.getLsbD t

/-- An element as a slot's kind reads it: A80I or A80F. -/
def elemFl (kind : Nat) (x : BitVec 80) : Fl := if kind == 0 then ofInt false x.toInt 0 else fmtA80.decode x.toNat

/-! ### Shapes (R174) -/

structure Shape where
  rsv : Nat
  k   : Nat
  n   : Nat
  m   : Nat
  st2 : Nat
  st1 : Nat
  deriving DecidableEq, Repr

def shapeRead (w : DWord) : Shape :=
  let x := w.toNat
  ⟨fld x 26 6, fld x 10 16, fld x 5 5 + 1, fld x 0 5 + 1, fld x 48 16, fld x 32 16⟩

/-- Bytes of an element of a format code. -/
def codeSize : Nat → Nat
  | 0 | 1 | 7 => 1
  | 2 | 4 | 5 => 2
  | _ => 4

/-- Bytes of a scale. -/
def scaleSize (fmt : Nat) : Nat := if fmt == 2 then 2 else 4

/-- Addresses of A(m, k) and B(k, n) (R175). -/
def addrA (k : Slot) (sh : Shape) (base m j : Nat) : Nat :=
  let e := codeSize k.a
  (if k.trA then base + j * sh.st1 + m * e else base + m * sh.st1 + j * e) % 2 ^ 64

def addrB (k : Slot) (sh : Shape) (base j n : Nat) : Nat :=
  let e := codeSize k.b
  (if k.b == 7 then base + n * sh.st2 + j / 5
    else if k.trB then base + n * sh.st2 + j * e
    else base + j * sh.st2 + n * e) % 2 ^ 64

/-! ### Counts (R137, R138) -/

def MxCount.zero : MxCount := ⟨0, 0, 0, 0⟩
def MxCount.add (a b : MxCount) : MxCount := ⟨a.nan + b.nan, a.sat + b.sat, a.trit + b.trit, a.wrap + b.wrap⟩
/-- Each word of MXCNT saturates (R136). -/
def MxCount.addSat (a b : MxCount) : MxCount :=
  let f := fun (x y : Nat) => min (x + y) 0xFFFFFFFF
  ⟨f a.nan b.nan, f a.sat b.sat, f a.trit b.trit, f a.wrap b.wrap⟩

/-! ### What an element becomes -/

/-- One block of eight products, summed exactly (R178). -/
def blockSum (ps : List Fl) : Fl :=
  match ps with
  | [] => .fin false 0 0
  | p :: ps => ps.foldl (fun acc x => (addFl .rn acc x).1) p

def chunk8 (fuel : Nat) (xs : List Fl) : List (List Fl) :=
  match fuel, xs with
  | _, [] => []
  | 0, xs => [xs]
  | n + 1, xs => xs.take 8 :: chunk8 n (xs.drop 8)

/-- A80F accumulation over the products in order of k: each block is added with one rounding (R178, R179). -/
def accF (x : BitVec 80) (ps : List Fl) : BitVec 80 :=
  BitVec.ofNat 80 ((chunk8 ps.length ps).foldl (fun acc blk =>
    (fmtA80.encode .rn false (addFl .rn (fmtA80.decode acc) (blockSum blk))).1) x.toNat)

def inA80I (v : Int) : Bool := -(2 ^ 79) ≤ v && v < 2 ^ 79

/-- A80I accumulation: the result, and whether a prefix sum leaves the range (R178, R180). -/
def accI (x : BitVec 80) (ps : List Int) : BitVec 80 × Bool :=
  let r := ps.foldl (fun (acc : Int × Bool) p => (acc.1 + p, acc.2 || !inA80I (acc.1 + p))) (x.toInt, false)
  (BitVec.ofInt 80 r.1, r.2)

/-- A weight or an activation of the integer arrays (R124, R130, R180). -/
def intB (fmt j byte : Nat) : Int := if fmt == 7 then trit byte (j % 5) else numOf true 8 byte

/-- One element of a drain: output bits, saturations, NaNs produced (R131, R132). -/
def drainElem (k : Slot) (x : BitVec 80) (rs cs : Fl) : Nat × Nat × Nat :=
  let v := elemFl k.acc x
  let y := (mulFl (mulFl v rs).1 cs).1
  let nan := if y.isNan && !v.isNan then 1 else 0
  if k.out ≤ 3 then
    let r := drainInt (codeRange k.out).1 (codeRange k.out).2 y
    ((r.1 % 2 ^ 32).toNat, r.2, nan)
  else
    let f := if k.out == 4 then fmtF16 else if k.out == 5 then fmtBf16 else fmtF32
    let r := f.drain y
    (r.1, r.2, nan)

/-- The value a formatted load writes (R181). -/
def loadElem (k : Slot) (bits : Nat) : BitVec 80 :=
  match codeFl k.out bits with
  | .fin neg m e =>
    if k.acc == 0 then BitVec.ofInt 80 ((Fl.fin neg m e).toInt 0)
    else BitVec.ofNat 80 (fmtA80.encode .rn false (.fin neg m e, 0)).1
  | x => BitVec.ofNat 80 (fmtA80.encode .rn false (x, 0)).1

/-! ### Issue (R171 to R175, R181, R182, R194) -/

/-- Baton mode is a launch flag (R191). -/
def State.batonMode (s : State) (w : Warp) : Bool := ((s.launchOf w).map fun l => fld l.info.flags.toNat 5 1 == 1).getD false

/-- A warp in baton mode that does not hold the baton (code 6). -/
def State.noBaton (s : State) (w : Warp) : Bool :=
  s.batonMode w && ((s.blkOf w).map fun b => b.baton != w.num).getD false

structure MxArgs where
  a     : Nat
  b     : Nat
  rs    : Nat
  cs    : Nat
  shape : DWord
  deriving DecidableEq, Repr

/-- Misaligned addresses and strides (R175), by command. -/
def misaligned (op : MxOp) (k : Slot) (a : MxArgs) : Bool :=
  let sh := shapeRead a.shape
  let off := fun (v e : Nat) => v % e != 0
  match op with
  | .mzero => false
  | .mma _ => off a.a (codeSize k.a) || off sh.st1 (codeSize k.a) || off a.b (codeSize k.b) || off sh.st2 (codeSize k.b)
  | .mload raw => if raw then off a.a 2 || off sh.st1 2 else off a.a (codeSize k.out) || off sh.st1 (codeSize k.out)
  | .mdrain raw =>
    if raw then off a.a 2 || off sh.st1 2
    else off a.a (codeSize k.out) || off sh.st1 (codeSize k.out) ||
      (k.row && off a.rs (scaleSize k.scale)) || (k.col && off a.cs (scaleSize k.scale))

/-- The codes 1 to 11 that a command's lane raises at issue. -/
def State.mxCodes (s : State) (x : Iss) (op : MxOp) (t : Nat) (k : Slot) (noScale : Bool) (a : MxArgs) : List Nat :=
  let sh := shapeRead a.shape
  need (!(((s.blkOf x.wp).map fun b => b.threadsOwn t).getD false)) 1 ++
  (if op == .mzero then [] else need (sh.rsv == 0) 3) ++
  (match op with | .mma _ => need (sh.k != 0) 3 | _ => []) ++
  need (!misaligned op k a) 4 ++
  (if op == .mdrain false then need ((k.row || k.col) == !noScale) 5 else []) ++
  need (!s.noBaton x.wp) 6 ++
  (match op with | .mma _ => need (!(k.trB && k.b == 7)) 10 | _ => []) ++
  (if op == .mload false then need ((k.out ≤ 3) == (k.acc == 0)) 11 else [])

/-- The commands of a block and of a core (R172). Whether the command that the engine runs still holds its place the spec leaves open: the
model's choice is that it does, until it ends (log 120). -/
def State.mxRoom (s : State) (core blk : Nat) : Bool :=
  (s.mx.filter fun c => c.core == core).length < 32 && (s.mx.filter fun c => c.blk == blk).length < 16

def State.enterMxOne (s : State) (x : Iss) (core l grp : Nat) (op : MxOp) (t : Nat) (slot : DWord) (ctr : Option (Fin 8))
    (batch : Nat) (a : MxArgs) : State :=
  { s with
    nextId := s.nextId + 1
    mx := s.mx ++ [{
      id := s.nextId, core := core, blk := x.wp.blk, warp := x.w, lane := l, word := x.addr, op := op, tile := t,
      a := a.a, b := a.b, rs := a.rs, cs := a.cs, shape := a.shape, slot := slot, batch := batch, ctr := ctrNat ctr, grp := grp,
      row := 0, rows := MxCount.zero, bounces := 0, due := 0, waitFrom := none, stopped := false, st := .queued }] }

/-- Lanes' commands enter one at a time, as places come free (R46, R172); they run on member 0's engine (R170). -/
def State.enterMx (s : State) (x : Iss) (unif : Bool) (op : MxOp) (t : Nat) (slot : DWord) (ctr : Option (Fin 8))
    (args : List (Nat × MxArgs)) : State :=
  match s.blkOf x.wp with
  | none => s
  | some b =>
    let core := b.cores.headD x.wp.core
    s.enterLanes x unif ctr (fun s _ => s.mxRoom core x.wp.blk)
      (fun s l grp a => s.enterMxOne x core l grp op t slot ctr (b.batch + 1) a) args

/-- A command word: a failing slot comes before every other code, then the lowest code of each lane (R129, R194). -/
def State.mxWord (s : State) (i : Instr) (op : MxOp) (t : Fin 64) (slot : Option (SlotUse × Fin 8)) (noScale : Bool)
    (ctr : Option (Fin 8)) (once : Bool) (args : Iss → Nat → MxArgs) : Res :=
  s.atIssue i fun x =>
    let unif := once || uniform x.w64 i
    let ls := if unif then (lanesIn x.part).take 1 else lanesIn x.part
    let word := match slot with | some e => s.slotOf x.wp e.2.val | none => 0
    let k := slotRead word
    match slot.bind fun e => (slotCheck e.1 word).map fun f => (e.2.val, f) with
    | some (n, f) => s.trapWord x x.part (fun _ => slotCause (opOf x.word) n f) unif
    | none =>
      let all := ls.map fun l => (l, args x l)
      let codeOf : Nat → Option Nat := fun l => (all.lookup l).bind fun a => lowest (s.mxCodes x op t.val k noScale a)
      let bad := ls.filter fun l => (codeOf l).isSome
      let m := if unif && !bad.isEmpty then x.part else maskOf bad
      let good := all.filter fun e => (codeOf e.1).isNone
      let core := ((s.blkOf x.wp).map fun b => b.cores.headD x.wp.core).getD x.wp.core
      if noPlaceYet (fun (_ : MxArgs) => s.mxRoom core x.wp.blk) good then s.waitIssue x
      else
        (s.trapHere x m fun l => engCause (opOf x.word) ((codeOf (if unif then bad.headD 0 else l)).getD 0)).enterMx x unif op t.val
          word ctr good

def shapeOf (x : Iss) (l : Nat) (sh : Reg) : DWord := BitVec.ofNat 64 (x.rd l sh 2)

def execMzero (t : Fin 64) (x : CTail) (s : State) : Res :=
  s.mxWord (.mzero t x) .mzero t none true x.ctr true fun _ _ => ⟨0, 0, 0, 0, 0⟩

def execMload (t : Fin 64) (src sh : Reg) (slot : Fin 8) (x : CTail) (s : State) : Res :=
  s.mxWord (.mload t src sh slot x) (.mload false) t (some (.load, slot)) true x.ctr false fun w l =>
    ⟨w.rd l src 2, 0, 0, 0, shapeOf w l sh⟩

def execMloadRaw (t : Fin 64) (src sh : Reg) (x : CTail) (s : State) : Res :=
  s.mxWord (.mloadRaw t src sh x) (.mload true) t none true x.ctr false fun w l => ⟨w.rd l src 2, 0, 0, 0, shapeOf w l sh⟩

def execMma (t : Fin 64) (a b sh : Reg) (slot : Fin 8) (x : CTail) (s : State) : Res :=
  s.mxWord (.mma t a b sh slot x) (.mma false) t (some (.mma, slot)) true x.ctr false fun w l =>
    ⟨w.rd l a 2, w.rd l b 2, 0, 0, shapeOf w l sh⟩

def execMmaSet (t : Fin 64) (a b sh : Reg) (slot : Fin 8) (x : CTail) (s : State) : Res :=
  s.mxWord (.mmaSet t a b sh slot x) (.mma true) t (some (.mma, slot)) true x.ctr false fun w l =>
    ⟨w.rd l a 2, w.rd l b 2, 0, 0, shapeOf w l sh⟩

/-- The pairs of a scale quad. -/
def quadOf (x : Iss) (l : Nat) (q : Reg) : Nat × Nat := (x.wp.rdOpt l q 4 % 2 ^ 64, x.wp.rdOpt l q 4 / 2 ^ 64)

def execMdrain (t : Fin 64) (d sc sh : Reg) (slot : Fin 8) (x : CTail) (s : State) : Res :=
  s.mxWord (.mdrain t d sc sh slot x) (.mdrain false) t (some (.drain, slot)) (Reg.isS0 sc) x.ctr false fun w l =>
    ⟨w.rd l d 2, 0, (quadOf w l sc).1, (quadOf w l sc).2, shapeOf w l sh⟩

def execMdrainRaw (t : Fin 64) (d sh : Reg) (x : CTail) (s : State) : Res :=
  s.mxWord (.mdrainRaw t d sh x) (.mdrain true) t none true x.ctr false fun w l => ⟨w.rd l d 2, 0, 0, 0, shapeOf w l sh⟩

/-! ### How a command ends (R184, R188) -/

def State.modMx (s : State) (id : Nat) (f : MxCmd → MxCmd) : State :=
  { s with mx := s.mx.map fun c => if c.id == id then f c else c }

/-- The fault that an `mwait` reports (R184, R325). Which of several covered ones it is the spec leaves open: the model's choice is the first that
ended, and all of them are cleared (log 118). -/
def Block.mxCause (b : Block) (n : Nat) : Option Cause :=
  (b.faults.find? fun f => f.batch ≤ n).map fun f => ⟨4, 9, f.op * 2 ^ 24 + f.code, f.addr % 2 ^ 32, f.addr / 2 ^ 32⟩

/-- The lanes of one `mwait` word, lane l among them, whose batches are complete and had a fault: the first such `mwait` takes it, and it is
cleared (R184). -/
def State.mwaitFault (s : State) (b w l : Nat) : State :=
  match s.warps[w]?, s.blocks[b]? with
  | some wp, some blk =>
    match (wp.lane? l).map (·.st), ((wp.lane? l).map (·.pc)).getD 0 with
    | some (.waiting (.mwait n)), pc =>
      match (if n ≤ blk.done then blk.mxCause n else none) with
      | none => s
      | some c =>
        let m := maskOf ((List.range 32).filter fun k => ((wp.lane? k).map fun x => x.st == .waiting (.mwait n) && x.pc == pc).getD false)
        ((s.modWarp w fun x => { x with wdFrom := none }).trap w m (fun _ => c) (fun _ => pc) (fun k => (wp.lane? k).bind (·.hdr))).modBlk b
          fun x => { x with faults := x.faults.filter fun f => n < f.batch }
    | _, _ => s
  | _, _ => s

/-- Lanes that wait for batches or tiles look again. Of several `mwait` words that wait for one fault, the model's choice takes for the first the
one whose lane is lowest, of the lowest warp (log 118). -/
def State.mxWake (s : State) (b : Nat) : State :=
  (List.range s.warps.length).foldl (fun s w =>
    if (s.warps[w]?).any fun wp => wp.blk == b && !wp.ended then
      let s := (List.range 32).foldl (fun s l => s.mwaitFault b w l) s
      match s.blocks[b]? with
      | some blk => s.modWarp w fun x => x.endWaits s.clk.cyc fun k =>
          match k with
          | .macq t upTo => !(s.mx.any fun c => c.blk == b && c.tile == t && c.id < upTo)
          | .mwait n => n ≤ blk.done && (blk.mxCause n).isNone
          | _ => false
      | none => s
    else s) s

/-- Batches complete in order; their counts go to MXCNT (R138, R184). -/
def State.mxSettle (s : State) (b : Nat) : State :=
  let open_ := (s.mx.filter fun c => c.blk == b).map (·.batch)
  (s.modBlk b fun x =>
    let upTo := match open_.min? with | some n => min x.batch (n - 1) | none => x.batch
    { x with
      done := upTo
      mx := (x.held.filter fun e => e.1 ≤ upTo).foldl (fun acc e => acc.addSat e.2) x.mx
      held := x.held.filter fun e => upTo < e.1 }).mxWake b

/-- A command has finished, or ended at its row; the counts of its finished row blocks stay with its batch. -/
def State.removeMx (s : State) (c : MxCmd) (counts : MxCount) : State :=
  let s := ({ s with mx := s.mx.filter fun x => x.id != c.id }.unclaim (.matrix c.core c.id)).modBlk c.blk fun b =>
    { b with held := if counts == MxCount.zero then b.held else b.held ++ [(c.batch, counts)] }
  (s.partDone c.warp c.grp c.ctr).mxSettle c.blk

def MxOp.opcode : MxOp → Nat
  | .mzero => 0x92
  | .mload _ => 0x93
  | .mma _ => 0x94
  | .mdrain _ => 0x95

/-- A program fault ends the command at its row (R187, R188); the counts of its finished rows stay (R353). -/
def State.failMx (s : State) (c : MxCmd) (code va : Nat) : State :=
  ((s.faultsTaken c.core).modBlk c.blk fun b => { b with faults := b.faults ++ [⟨c.batch, code, va, c.op.opcode, c.word⟩] }).removeMx c c.rows

/-- A fault at a stop point (R188). -/
def State.mxFault (s : State) (c : MxCmd) (kind grp code lvl ent va : Nat) : State :=
  match s.warps[c.warp]? with
  | none => s
  | some wp =>
    let ctx := s.ctxOf wp
    if isPosted grp code && ((s.ctx? ctx).bind Context.fqCount).isSome then
      let id := s.nextFaultId ctx
      (((s.faultsTaken c.core).modMx c.id fun x => { x with st := .parked id, waitFrom := none }).unclaim (.matrix c.core c.id)).post ctx
        (s.entryOf wp 2 va c.word c.row 0 (accCause grp code lvl kind va ent))
    else s.failMx c code va

/-! ### Bands (R186, R187) -/

/-- The engine's view of the memory around a command: what n bytes at an address are, or the first that fails. -/
def State.spots (s : State) (c : MxCmd) (ctx : Nat) (b : Block) (w : Want) (va : Nat) : Nat → Except Spot (List Spot)
  | 0 => .ok []
  | n + 1 =>
    match s.spot c.core ctx b w (va % 2 ^ 64) with
    | .bad g k l e a d => .error (.bad g k l e a d)
    | x =>
      match State.spots s c ctx b w (va + 1) n with
      | .ok xs => .ok (x :: xs)
      | .error e => .error e

/-- A place of a block's window in the write range of a copy, whenever that copy was issued (R102). -/
def State.copyWrites (s : State) (b off : Nat) : Bool :=
  let share := ((s.blocks[b]?).map s.shareOf).getD 0
  (s.copies.any fun c => c.blk == b && overlaps (c.writes share) off 1) ||
    s.mcasts.any fun m => m.left.any fun e => e.1 == b && 0 < e.2 && overlaps (some (m.off, m.data.length)) off 1

/-- The byte waits for a copy's range, for an earlier access, or for another engine's line (R102, R103, R175, R185). -/
def State.mxBusy (s : State) (c : MxCmd) (write : Bool) (x : Spot) : Bool :=
  s.engineBusy (.matrix c.core c.id) c.warp c.blk c.id write x ||
    match x with
    | .loc o => !write && s.copyWrites c.blk o
    | _ => false

/-- What a band reads: a value, a wait, or a fault. -/
inductive Got (α : Type) where
  | ok (a : α)
  | wait
  | bad (grp code lvl ent va kind : Nat)
  deriving DecidableEq, Repr

def Got.bind {α β : Type} (x : Got α) (f : α → Got β) : Got β :=
  match x with
  | .ok a => f a
  | .wait => .wait
  | .bad g c l e v k => .bad g c l e v k

/-- All of a list, in order: the first fault comes before any wait. Which of several failing bytes of a band is reported the spec leaves open: the
model's choice is the first in the order of the elements, row by row, A before B and scales before the destination (log 117). -/
def Got.all {α : Type} : List (Got α) → Got (List α)
  | [] => .ok []
  | x :: xs =>
    match x, Got.all xs with
    | .bad g c l e v k, _ => .bad g c l e v k
    | _, .bad g c l e v k => .bad g c l e v k
    | .ok a, .ok as => .ok (a :: as)
    | _, _ => .wait

/-- n operand bytes at an address, as a number. -/
def State.operand (s : State) (c : MxCmd) (ctx : Nat) (b : Block) (va n : Nat) : Got Nat :=
  match s.spots c ctx b wantERead va n with
  | .error (.bad g k l e a d) => .bad g k l e a d
  | .error _ => .wait
  | .ok xs => if xs.any (s.mxBusy c false) then .wait else .ok (leNat (xs.map (s.spotByte b)))

/-- The operands of element (m, n) of a multiply, in order of k. -/
def State.mmaOperands (s : State) (c : MxCmd) (ctx : Nat) (b : Block) (k : Slot) (sh : Shape) (m n : Nat) :
    Got (List (Nat × Nat)) :=
  Got.all ((List.range sh.k).map fun j =>
    (s.operand c ctx b (addrA k sh c.a m j) (codeSize k.a)).bind fun x =>
      (s.operand c ctx b (addrB k sh c.b j n) (codeSize k.b)).bind fun y => .ok (x, y))

/-- Element (m, n) after a multiply, and what it counts. -/
def mmaElem (k : Slot) (set : Bool) (old : BitVec 80) (xs : List (Nat × Nat)) : BitVec 80 × MxCount :=
  let x := if set then 0 else old
  if k.acc == 1 then
    let r := accF x (xs.map fun e => (mulFl (codeFl k.a e.1) (codeFl k.b e.2)).1)
    (r, ⟨if (elemFl 1 r).isNan && !(elemFl 1 old).isNan then 1 else 0, 0, 0, 0⟩)
  else
    let r := accI x ((xs.zipIdx).map fun e => numOf true 8 e.1.1 * intB k.b e.2 e.1.2)
    (r.1, ⟨0, 0, 0, if r.2 then 1 else 0⟩)

/-- Invalid T5 bytes in the range of K and N (R125, R180). -/
def State.badTrits (s : State) (c : MxCmd) (ctx : Nat) (b : Block) (k : Slot) (sh : Shape) : Nat :=
  if k.b != 7 then 0
  else
    (((List.range sh.n).flatMap fun n => (List.range ((sh.k + 4) / 5)).map fun q => (n, q)).filter fun e =>
      match s.operand c ctx b (addrB k sh c.b (5 * e.2) e.1) 1 with
      | .ok v => 243 ≤ v
      | _ => false).length

/-- What a band does: elements it writes, bytes it writes, and its counts. -/
structure Band where
  elems : List (Nat × Nat × BitVec 80)
  bytes : List (Spot × Byte)
  cnt   : MxCount
  deriving DecidableEq, Repr

/-- The corner's elements of the rows of a band. -/
def bandElems (lo hi n : Nat) : List (Nat × Nat) := ((List.range (hi - lo)).map (· + lo)).flatMap fun m => (List.range n).map fun j => (m, j)

/-- The destination bytes of a drained element. -/
def State.drainTo (s : State) (c : MxCmd) (ctx : Nat) (b : Block) (va n v : Nat) : Got (List (Spot × Byte)) :=
  match s.spots c ctx b wantEWrite va n with
  | .error (.bad g k l e a d) => .bad g k l e a d
  | .error _ => .wait
  | .ok xs => if xs.any (s.mxBusy c true) then .wait else .ok (xs.zip (leBytes n v))

def State.scaleAt (s : State) (c : MxCmd) (ctx : Nat) (b : Block) (used : Bool) (fmt base idx : Nat) : Got Fl :=
  if used then (s.operand c ctx b (base + idx * scaleSize fmt) (scaleSize fmt)).bind fun v => .ok (scaleFl fmt v)
  else .ok (.fin false 1 0)

/-- One band of a command (R178, R181, R182). -/
def State.band (s : State) (c : MxCmd) (ctx : Nat) (b : Block) (hi : Nat) : Got Band :=
  let k := slotRead c.slot
  let sh := shapeRead c.shape
  let es := bandElems c.row hi sh.n
  let sum := fun (bs : List Band) => Band.mk (bs.flatMap (·.elems)) (bs.flatMap (·.bytes))
    (bs.foldl (fun a x => a.add x.cnt) MxCount.zero)
  match c.op with
  | .mzero => .ok ⟨[], [], MxCount.zero⟩
  | .mma set =>
    (Got.all (es.map fun e => (s.mmaOperands c ctx b k sh e.1 e.2).bind fun xs =>
      let r := mmaElem k set (b.element c.tile e.1 e.2) xs
      .ok (Band.mk [(e.1, e.2, r.1)] [] r.2))).bind fun bs =>
        let t := if c.row == 0 then s.badTrits c ctx b k sh else 0
        .ok { sum bs with cnt := (sum bs).cnt.add ⟨0, 0, t, 0⟩ }
  | .mload raw =>
    (Got.all (es.map fun e =>
      let size := if raw then 10 else codeSize k.out
      (s.operand c ctx b (c.a + e.1 * sh.st1 + e.2 * size) size).bind fun v =>
        .ok (Band.mk [(e.1, e.2, if raw then BitVec.ofNat 80 v else loadElem k v)] [] MxCount.zero))).bind fun bs => .ok (sum bs)
  | .mdrain raw =>
    (Got.all (es.map fun e =>
      let size := if raw then 10 else codeSize k.out
      let x := b.element c.tile e.1 e.2
      (s.scaleAt c ctx b (k.row && !raw) k.scale c.rs e.1).bind fun rs =>
        (s.scaleAt c ctx b (k.col && !raw) k.scale c.cs e.2).bind fun cs =>
          let r := if raw then (x.toNat, 0, 0) else drainElem k x rs cs
          (s.drainTo c ctx b (c.a + e.1 * sh.st1 + e.2 * size) size r.1).bind fun ws =>
            .ok (Band.mk [] ws ⟨r.2.2, r.2.1, 0, 0⟩))).bind fun bs => .ok (sum bs)

/-- The end of the band that begins at a row. -/
def bandEnd (m row : Nat) : Nat := if 8 < m then min m (row + 8) else row + 1

def MxCmd.rowsAll (c : MxCmd) : Nat := (shapeRead c.shape).m

def State.mxRunning (s : State) (core : Nat) : Option MxCmd :=
  s.mx.find? fun c => c.core == core && c.st == .running 0

/-- A command that the engine can take up: queued, or left at a stop point for a higher class. -/
def MxCmd.ready (c : MxCmd) : Bool := c.st == .queued || c.st == .running 1

/-- A command of a higher class waits for the engine. -/
def State.mxHigher (s : State) (c : MxCmd) : Bool :=
  let cls := fun (x : MxCmd) => ((s.warps[x.warp]?).map s.clsOf).getD 3
  s.mx.any fun x => x.core == c.core && x.ready && x.blk != c.blk && cls x < cls c

/-- First and last address of n bytes. -/
def spanVas (va n : Nat) : List Nat := [va % 2 ^ 64, (va + n - 1) % 2 ^ 64]

/-- Addresses of the bytes that a band stores. -/
def bandStores (c : MxCmd) (hi : Nat) : List Nat :=
  match c.op with
  | .mdrain raw =>
    let sh := shapeRead c.shape
    let size := if raw then 10 else codeSize (slotRead c.slot).out
    (bandElems c.row hi sh.n).flatMap fun e => spanVas (c.a + e.1 * sh.st1 + e.2 * size) size
  | _ => []

/-- Addresses of a band's operand and scale bytes. -/
def bandVas (c : MxCmd) (hi : Nat) : List Nat :=
  let k := slotRead c.slot
  let sh := shapeRead c.shape
  let es : List (Nat × Nat) := bandElems c.row hi sh.n
  (match c.op with
    | .mzero => []
    | .mma _ => es.flatMap fun (e : Nat × Nat) => (List.range sh.k).flatMap fun j => [addrA k sh c.a e.1 j, addrB k sh c.b j e.2]
    | .mload raw => es.flatMap fun (e : Nat × Nat) =>
      let size := if raw then 10 else codeSize k.out
      spanVas (c.a + e.1 * sh.st1 + e.2 * size) size
    | .mdrain raw => es.flatMap fun (e : Nat × Nat) =>
      (if k.row && !raw then [(c.rs + e.1 * scaleSize k.scale) % 2 ^ 64] else []) ++
        if k.col && !raw then [(c.cs + e.2 * scaleSize k.scale) % 2 ^ 64] else []).eraseDups

/-- What a band's reads leave in the core's TLB and in L2 (R73, R80, R175). -/
def State.bandRead (s : State) (c : MxCmd) (ctx : Nat) (b : Block) (hi : Nat) : State :=
  s.engineRead ((bandVas c hi).map (s.spot c.core ctx b wantERead))

/-- A band reads a byte that is poisoned (R382). -/
def State.bandBad (s : State) (c : MxCmd) (ctx : Nat) (b : Block) (hi : Nat) : Bool :=
  (!s.poison.isEmpty || !b.bad.isEmpty) && (bandVas c hi).any fun a => (List.range 4).any fun i =>
    s.spotBad b (s.spot c.core ctx b wantERead (a + i))

/-- A command stands at a line that another engine holds: its hold time runs from when it came there (R206, R207). -/
def State.mxWaits (s : State) (c : MxCmd) : State :=
  let cls := ((s.warps[c.warp]?).map s.clsOf).getD 3
  if c.waitFrom.isNone then s.modMx c.id fun x => { x with waitFrom := some (s.clk.ucyc, s.holdBound 0 cls) } else s

/-- Lines that the rows up to one of a drain touch. -/
def State.mxLines (s : State) (c : MxCmd) (hi : Nat) : List Nat :=
  match s.blocks[c.blk]?, s.warps[c.warp]? with
  | some b, some wp =>
    match c.op with
    | .mdrain raw =>
      let sh := shapeRead c.shape
      let size := if raw then 10 else codeSize (slotRead c.slot).out
      (bandElems c.row hi sh.n).flatMap fun e =>
        (List.range size).filterMap fun i => (s.spot c.core (s.ctxOf wp) b wantEWrite ((c.a + e.1 * sh.st1 + e.2 * size + i) % 2 ^ 64)).line
    | _ => []
  | _, _ => []

/-- Another engine holds a line that a command needs next. -/
def State.lineBlocked (s : State) (e : Engine) (ls : List Nat) : Bool :=
  ls.any fun ln => s.heldBy.any fun h => h.line == ln && h.eng != e

/-- Lines of the operands and of the destination of a command's next band. -/
def State.bandLines (s : State) (c : MxCmd) : List Nat :=
  match s.blocks[c.blk]?, s.warps[c.warp]? with
  | some b, some wp =>
    let hi := bandEnd c.rowsAll c.row
    s.mxLines c hi ++ ((bandVas c hi).map (s.spot c.core (s.ctxOf wp) b wantERead)).filterMap fun x =>
      match x with
      | .mem p => some (lineOf p.tier p.pa)
      | _ => none
  | _, _ => []

/-- A band's writes, once every line of them is the engine's (R103, R182). -/
def State.endBand (s : State) (c : MxCmd) (hi : Nat) (d : Band) : State :=
  let ls := (d.bytes.filterMap fun e => e.1.line).eraseDups
  if ls.any fun ln => s.heldBy.any fun h => h.line == ln && h.eng != .matrix c.core c.id then s.mxWaits c
  else
    let own := ((s.warps[c.warp]?).map s.ownerOf).getD ⟨0, 0, 0⟩
    let claimed := (ls.filter fun ln => !(s.heldBy.any fun h => h.line == ln)).map fun ln => HeldLine.mk ln (.matrix c.core c.id)
    let s := { s with heldBy := s.heldBy ++ claimed }
    let s := d.bytes.foldl (fun s e => s.spotWrite (.matrix c.core c.id) c.warp c.blk own e.1 e.2) s
    let s := s.modBlk c.blk fun b => d.elems.foldl (fun b e => b.setElement c.tile e.1 e.2.1 e.2.2) b
    let again := s.mxHigher c && hi < c.rowsAll
    s.modMx c.id fun x => { x with row := hi, rows := x.rows.add d.cnt, waitFrom := none, st := if again then .running 1 else x.st }

/-- MATRIX_COMMAND_START: an idle engine takes the oldest command of the next block in turn, within the highest class that has
one (R172). -/
def execMatrixCommandStart (core : Nat) (s : State) : Res :=
  if (s.mxRunning core).isSome then .next s
  else
    let heads := (s.mx.filter fun c => c.core == core).foldl (fun (acc : List MxCmd) c =>
      if acc.any fun x => x.blk == c.blk then acc else acc ++ [c]) []
    let cls := fun (c : MxCmd) => ((s.warps[c.warp]?).map s.clsOf).getD 3
    let ready := heads.filter MxCmd.ready
    match (ready.map cls).min? with
    | none => .next s
    | some k =>
      let ready := sortOn ((ready.filter fun c => cls c == k).map fun c => (c.blk, c))
      let last := (s.lastMx.lookup (core * 4 + k)).getD 0
      match ((ready.find? fun e => last < e.1).or ready.head?) with
      | none => .next s
      | some (b, c) => .next { (s.modMx c.id fun x => { x with st := .running 0, stopped := false }) with
          lastMx := mput (core * 4 + k) b s.lastMx }

/-- MATRIX_BAND_END: the band between two stop points is done as a whole, or not at all, once its pages are walked (R73). A command that reads
poisoned data ends (R382). -/
def execMatrixBandEnd (core : Nat) (s : State) : Res :=
  match s.mxRunning core with
  | none => .next s
  | some c =>
    match s.blocks[c.blk]?, s.warps[c.warp]? with
    | some b, some wp =>
      if c.op == .mzero || c.rowsAll ≤ c.row || s.clk.ucyc < c.due then .next s
      else
        let hi := bandEnd c.rowsAll c.row
        match s.engineWalks c.core (s.ctxOf wp) (s.clsOf wp) (bandVas c hi ++ bandStores c hi) with
        | some t => .next t
        | none =>
        match s.band c (s.ctxOf wp) b hi with
        | .wait => .next (if s.lineBlocked (.matrix core c.id) (s.bandLines c) then s.mxWaits c else s)
        | .bad g k l e va w => .next (s.mxFault c w g k l e va)
        | .ok d =>
          .next (if s.bandBad c (s.ctxOf wp) b hi then (s.poisoned c.warp c.word).removeMx c c.rows
            else (s.bandRead c (s.ctxOf wp) b hi).endBand c hi d)
    | _, _ => .next s

/-- MATRIX_COMMAND_FINISH: every element and byte is written. -/
def execMatrixCommandFinish (core : Nat) (s : State) : Res :=
  match s.mxRunning core with
  | none => .next s
  | some c =>
    match c.op with
    | .mzero =>
      .next ((s.modBlk c.blk fun b => (bandElems 0 32 32).foldl (fun b e => b.setElement c.tile e.1 e.2 0) b).removeMx c MxCount.zero)
    | _ => when (c.rowsAll ≤ c.row && s.peersDone (.matrix c.core c.id)) s (s.removeMx c c.rows)

/-! ### Owners, batches, MPROG, baton -/

/-- `macq` (R176): the tile is the threads' at once, and the warp, with all its lanes, waits for the commands before it. -/
def execMacq (t : Fin 64) (x : Tail) (s : State) : Res :=
  s.atIssue (.macq t x) fun w =>
    match s.blkOf w.wp with
    | none => s
    | some b =>
      if w.part = 0 || b.threadsOwn t.val then s.wordDone w true
      else
        let s := s.modBlk w.wp.blk fun b => { b with owners := b.owners ||| (1#64 <<< t.val) }
        if s.mx.any fun c => c.blk == w.wp.blk && c.tile == t.val then
          ((s.modWarp w.w fun y => Warp.wdStart s.clk.cyc (y.waitAt w.part w fun _ => .macq t.val s.nextId)).wordDone w true).holdWarp w.w
        else s.wordDone w true

def execMrel (t : Fin 64) (x : Tail) (s : State) : Res :=
  s.atIssue (.mrel t x) fun w =>
    (if w.part = 0 then s else s.modBlk w.wp.blk fun b => { b with owners := b.owners &&& ~~~(1#64 <<< t.val) }).wordDone w true

/-- A command word that needs the baton and takes no operands: code 6 (R191). -/
def execMcommit (d : Reg) (x : Tail) (s : State) : Res :=
  s.atIssue (.mcommit d x) fun w =>
    if w.part = 0 then s.wordDone w true
    else if s.noBaton w.wp then s.trapWord w w.part (fun _ => engCause (opOf w.word) 6) true
    else
      let n := ((s.blkOf w.wp).map (·.batch)).getD 0 + 1
      ((s.modBlk w.wp.blk fun b => { b with batch := n }).mxSettle w.wp.blk).retire w true
        (pendN (lowLane w.part) d (n % 2 ^ 32) (s.clk.cyc + 4) 1) 0

def execMwait (a : Reg) (x : Tail) (s : State) : Res :=
  s.atIssue (.mwait a x) fun w =>
    match s.blkOf w.wp with
    | none => s
    | some b =>
      let k := ((b.batch : Int) - w.rd1 (lowLane w.part) a) % 2 ^ 32
      let n := b.batch - k.toNat
      if w.part = 0 then s.wordDone w true
      else if 2 ^ 31 ≤ k then s.trapWord w w.part (fun _ => engCause (opOf w.word) 8) true
      else if b.done < n then
        (s.modWarp w.w fun y => Warp.wdStart s.clk.cyc (y.waitAt w.part w fun _ => .mwait n)).wordDone w true
      else
        match b.mxCause n with
        | some c =>
          (s.modBlk w.wp.blk fun b => { b with faults := b.faults.filter fun f => n < f.batch }).trapWord w w.part (fun _ => c) true
        | none => s.wordDone w true

/-- MPROG of a block (R189). -/
def State.mprogOf (s : State) (b : Nat) : Nat :=
  match s.mx.find? fun c => c.blk == b && c.op != .mzero && c.st != .queued with
  | none => 0
  | some c =>
    2 ^ 31 + (match c.st with | .parked _ => 2 ^ 30 | _ => if c.stopped then 2 ^ 30 else 0) + c.tile * 2 ^ 24 +
      (match c.op with | .mload _ => 1 | .mdrain _ => 2 | _ => 0) * 2 ^ 22 + c.batch % 2 ^ 16 * 2 ^ 6 + c.row

def execMprog (d : Reg) (x : Tail) (s : State) : Res :=
  s.atIssue (.mprog d x) fun w =>
    s.retire w true (if w.part = 0 then [] else pendN (lowLane w.part) d (s.mprogOf w.wp.blk) (s.clk.cyc + 4) 1) 0

def execMbtake (x : Tail) (s : State) : Res :=
  s.atIssue (.mbtake x) fun w =>
    if w.part = 0 || !s.noBaton w.wp then s.wordDone w true
    else (s.modWarp w.w fun y => Warp.wdStart s.clk.cyc (y.waitAt w.part w fun _ => .mbtake)).wordDone w true

def execMbpass (x : Tail) (s : State) : Res :=
  s.atIssue (.mbpass x) fun w =>
    if w.part = 0 || !s.batonMode w.wp then s.wordDone w true
    else if s.noBaton w.wp then s.trapWord w w.part (fun _ => engCause (opOf w.word) 7) true
    else (s.passBaton w.wp.blk w.wp.num).wordDone w true

/-! ### mread (R183) -/

/-- A read of n bytes waits for a copy that writes them (R102), for an engine that holds their line (R103), or for the warp's own earlier
accesses to the line (R217). -/
def State.readWaits (s : State) (x : Iss) (n : Nat) (t : Tried) : Bool :=
  match t.2.2 with
  | .ok p => s.loadWaits x p
  | .loc o => s.rangeBlocks x.w x.wp.blk o n false s.nextId
  | _ => false

/-- A `macq` of a tile has not returned: an `mread` of the tile comes after it (R183). -/
def State.macqOpen (s : State) (b t : Nat) : Bool :=
  s.warps.any fun w => w.blk == b && !w.ended && w.lanes.any fun x => match x.st with | .waiting (.macq k _) => k == t | _ => false

/-- The scale of one lane, from its translated place. -/
def State.mreadScale (s : State) (x : Iss) (fmt : Nat) (t : Option Tried) : Fl :=
  let n := scaleSize fmt
  match t with
  | some (_, _, .ok p) => scaleFl fmt (leNat ((List.range n).map fun i => s.loadByte x p (p.pa + i)))
  | some (_, _, .loc o) => scaleFl fmt (leNat (s.windowBytes x.wp.blk o n))
  | _ => .fin false 1 0

/-- `mread` (R183). Which fault a lane reports whose row and column scales both fail the spec leaves open: the model's choice is the row scale's
(log 119). -/
def execMread (d : Reg) (t : Fin 64) (pos sc : Reg) (slot : Fin 8) (x : CTail) (s : State) : Res :=
  s.atIssue (.mread d t pos sc slot x) fun w =>
    let i := Instr.mread d t pos sc slot x
    match s.blkOf w.wp with
    | none => s
    | some b =>
      let unif := uniform w.w64 i
      let ls := w.acts i
      let word := s.slotOf w.wp slot.val
      let k := slotRead word
      let z := scaleSize k.scale
      match slotCheck .drain word with
      | some f => s.trapWord w w.part (fun _ => slotCause (opOf w.word) slot.val f) unif
      | none =>
        let codeOf : Nat → Option Nat := fun l => lowest (need (b.threadsOwn t.val) 2 ++
          need (!(k.row && (quadOf w l sc).1 % z != 0) && !(k.col && (quadOf w l sc).2 % z != 0)) 4 ++
          need ((k.row || k.col) == !Reg.isS0 sc) 5)
        let bad := ls.filter fun l => (codeOf l).isSome
        let good := ls.filter fun l => (codeOf l).isNone
        let m := if unif && !bad.isEmpty then w.part else maskOf bad
        let rowOf : Nat → Nat := fun l => fld (w.rd1 l pos) 5 5
        let colOf : Nat → Nat := fun l => fld (w.rd1 l pos) 0 5
        let rts := if k.row then s.tryLanes w good wantLoad z z fun l => ((quadOf w l sc).1 + rowOf l * z) % 2 ^ 64 else []
        let cts := if k.col then s.tryLanes w good wantLoad z z fun l => ((quadOf w l sc).2 + colOf l * z) % 2 ^ 64 else []
        let isBad : Tried → Bool := fun e => match e.2.2 with | .bad _ _ _ _ => true | _ => false
        let fs := rts ++ cts.filter fun e => !(rts.any fun r => r.1 == e.1 && isBad r)
        if !(missing fs).isEmpty then ((missing fs).foldl (fun s va => s.queueWalk w.w va) s).waitIssue w
        else if (!good.isEmpty && s.macqOpen w.wp.blk t.val) || s.acquiring (s.ownerOf w.wp) || fs.any (s.readWaits w z) then s.waitIssue w
        else
          let s := s.memTrapsAnd w.w 0 w.addr (some w.cl.addr) m
            (fun l => engCause (opOf w.word) ((codeOf (if unif then bad.headD 0 else l)).getD 0)) (failing w unif fs)
          let run := good.filter fun l => !(fs.any fun e => e.1 == l && isBad e)
          let grp := s.nextId
          let s := { s with nextId := grp + 1 }.modWarp w.w fun y => y.ctrAdd (if run.isEmpty then none else ctrNat x.ctr)
          let s := run.foldl (fun s l =>
            let rs := s.mreadScale w k.scale (rts.find? fun e => e.1 == l)
            let cs := s.mreadScale w k.scale (cts.find? fun e => e.1 == l)
            let r := drainElem k (b.element t.val (rowOf l) (colOf l)) rs cs
            let s := s.modBlk w.wp.blk fun y =>
              if r.2.1 == 0 && r.2.2 == 0 then y else { y with held := y.held ++ [(y.batch + 1, ⟨r.2.2, r.2.1, 0, 0⟩)] }
            let q := s.newReq w grp (.load .n32 d) .core .rlx .normal x.ctr unif noPlace [⟨l, 0, 0, 4, [], (leBytes 4 r.1).map some⟩]
            s.addLocal { q with loc := some w.wp.blk, st := .ordered } fun id => pendTag l d id 1) s
          (s.wordDone w unif).partDone w.w grp (if run.isEmpty then none else ctrNat x.ctr)

/-! ### Held lines and hold bounds (R103, R207) -/

/-- A copy command gives back, for a request of class 0, the lines it holds and has not begun to write (R379); it claims them again when it
comes to them, and the line it is writing it keeps until that is whole (R103). -/
def State.recallCopy (s : State) (c : Copy) (line : Nat) : State :=
  match s.blocks[c.blk]?, s.warps[c.warp]? with
  | some b, some wp =>
    let upTo := c.doneMark + (if c.partway then 1 else 0)
    let mine := s.linesAt c (s.ctxOf wp) b c.doneMark upTo
    if !s.recalled line || mine.contains line || c.win ≤ upTo then s
    else
      { s.modCopy c.id fun x => { x with win := upTo } with
        heldBy := s.heldBy.filter fun h => h.eng != .copy c.core c.id || mine.contains h.line }
  | _, _ => s

/-- ENGINE_LINE_RELEASE: an engine gives back a line whose bytes it has all written, or one that is recalled for a request of class 0 and that
a copy command has not begun to write (R103, R379). -/
def execEngineLineRelease (core cmd line : Nat) (s : State) : Res :=
  let free := fun (e : Engine) => { s with heldBy := s.heldBy.filter fun h => !(h.line == line && h.eng == e) }
  match s.copies.find? fun c => c.core == core && c.id == cmd with
  | some c => .next (if s.copyLineDone c line then free (.copy core cmd) else s.recallCopy c line)
  | none =>
    match s.mx.find? fun c => c.core == core && c.id == cmd with
    | some c => when (!(s.mxLines c c.rowsAll).contains line) s (free (.matrix core cmd))
    | none => .next (free (.copy core cmd))

/-- A matrix command's access has met its hold bound: as for a copy command (R207). -/
def State.mxBounced (s : State) (c : MxCmd) (kind : Nat) : State :=
  let cls := ((s.warps[c.warp]?).map s.clsOf).getD 3
  let (t, bound) := c.waitFrom.getD (max s.clk.ucyc c.due, s.holdBound kind cls)
  let s := s.advance (s.clk.untilU (t + bound))
  if 63 ≤ c.bounces then s.failMx c 16 c.a
  else s.modMx c.id fun x => { x with waitFrom := none, bounces := x.bounces + 1, due := s.clk.ucyc + 64 * 2 ^ min (x.bounces + 1) 6 }

/-- A line that an engine of a core needs is homed on another die: its access crosses die links, each with a hold bound (R12). -/
def crosses (core : Nat) (xs : List Spot) : Bool :=
  xs.any fun x => match x with | .mem p => p.tier != 3 && p.die != core / 64 | _ => false

/-- HOLD_BOUND_EXPIRY: a request at a queue head or a port, a walk, or an engine's access, held at a line or at a die link, has waited for its
bound (R12, R206, R207). The reason that the token carries is what holds the request, whatever the event's own names. -/
def execHoldBoundExpiry (w : Waiter) (_reason : Nat) (s : State) : Res :=
  match w with
  | .request id =>
    match s.req? id with
    | some r => when (r.st == .flight && r.loc.isNone) s (s.expire r)
    | none =>
      match s.walks.find? fun k => k.id == id with
      | some k => .next (s.expireWalk k)
      | none => .next s
  | .copy core cmd =>
    match s.copies.find? fun c => c.core == core && c.id == cmd with
    | none => .next s
    | some c =>
      match s.blocks[c.blk]?, s.warps[c.warp]? with
      | some b, some wp =>
        let parked := match c.st with | .parked _ => true | _ => false
        let ls := s.linesAt c (s.ctxOf wp) b c.win c.nextMark ++
          (match c.st with | .running _ => s.sourceLines c (s.ctxOf wp) b | _ => [])
        let next := (s.unitVas c (s.ctxOf wp) b (unitBytes c.bytes c.units)).map (s.spot core (s.ctxOf wp) b wantERead)
        .next (if parked || c.bytes ≤ 64 * c.units then s
          else if c.waitFrom.isSome || s.lineBlocked (.copy core cmd) ls then s.copyBounced c 0
          else if crosses core next then s.copyBounced c 3
          else s)
      | _, _ => .next s
  | .matrix core =>
    match s.mxRunning core with
    | none => .next s
    | some c =>
      match s.blocks[c.blk]?, s.warps[c.warp]? with
      | some b, some wp =>
        let hi := bandEnd c.rowsAll c.row
        let next := (bandVas c hi ++ bandStores c hi).map (s.spot core (s.ctxOf wp) b wantERead)
        .next (if c.op == .mzero || c.rowsAll ≤ c.row then s
          else if c.waitFrom.isSome || s.lineBlocked (.matrix core c.id) (s.bandLines c) then s.mxBounced c 0
          else if crosses core next then s.mxBounced c 3
          else s)
      | _, _ => .next s

/-! ### Peers (R203, R207) -/

/-- A command ends as by a program fault with code 16 (R207). -/
def State.engineLimit (s : State) (e : Engine) : State :=
  match e with
  | .copy _ cmd => ((s.copies.find? fun c => c.id == cmd).map fun c => s.failCopy c 16 c.dst (copyOpcode c.op)).getD s
  | .matrix _ cmd => ((s.mx.find? fun c => c.id == cmd).map fun c => s.failMx c 16 c.a).getD s
  | .move _ | .link => s

/-- An engine's write to a peer is bounced, and sent again after its back-off; a copy or matrix engine's, up to the bounce limit (R207, R211,
R362). -/
def State.bounceWrite (s : State) (w : PeerWrite) : State :=
  if 63 ≤ w.bounces && w.eng.cmd.isSome then { s with peerWrites := s.peerWrites.filter fun x => x.id != w.id }.engineLimit w.eng
  else
    { s with peerWrites := s.peerWrites.map fun x =>
        if x.id == w.id then { x with bounces := min 63 (x.bounces + 1), due := s.clk.ucyc + 64 * 2 ^ min (w.bounces + 1) 6 } else x }

/-- A bounced write is sent again at its time, through the port that is its own then; without one it is bounced anew (R362). -/
def State.sendWrite (s : State) (w : PeerWrite) : State :=
  let s := s.advance (s.clk.untilU w.due)
  if (s.portAt w.die w.pa).isNone then s.bounceWrite w
  else
    { s with
      out := s.out ++ [.fabric (w.pa / 2 ^ 42) w.data]
      peerWrites := s.peerWrites.map fun x => if x.id == w.id then { x with due := 0 } else x }

/-- REISSUE: a bounced request whose back-off has run leaves again, earlier ones of its owner first; a bounced write of an engine is sent again; a bounced walk enters its
queue again. -/
def execReissue (id : Nat) (s : State) : Res :=
  match s.req? id with
  | none =>
    match s.walks.find? fun k => k.id == id with
    | none =>
      match s.peerWrites.find? fun w => w.id == id with
      | some w => if 0 < w.due then .next (s.sendWrite w) else .next s
      | none => .next s
    | some k => if k.stored then .next (s.walkAgain k) else .next s
  | some r =>
    let s1 := s.advance (s.clk.untilU r.due)
    let first := s1.reqs.all fun p => !(p.owner == r.owner && p.st == .bounced && earlier p.seq r.seq && p.due ≤ s1.clk.ucyc)
    when (r.st == .bounced && first && s1.mayLeave r) s ((s1.sendAgain r).settled r.owner)

/-- A peer answers an engine's write that is on its way. -/
def State.peerWrote (s : State) (w : PeerWrite) (ans : PeerAnswer) : State :=
  if 0 < w.due then s
  else
    match ans with
    | .done _ => { s with peerWrites := s.peerWrites.filter fun x => x.id != w.id }
    | .refuse => s
    | .retry => s.bounceWrite w

/-- PEER_RESPONSE: a fabric peer answers a request of a warp, or an engine's write. -/
def execPeerResponse (id : Nat) (ans : PeerAnswer) (s : State) : Res :=
  match s.peerWrites.find? fun w => w.id == id with
  | some w => .next (s.peerWrote w ans)
  | none => .next (s.peerRequest id ans)

end Sys2Proof.Machine
end

