-- ==== Sys2Proof/Machine/Launch.lean ====
section
/-! DEFINITION. Launch records and their checks (R84, R85, R281 to R286), dispatch (R285, R339, R385), where a block may stand
(R17, R85, R86, R287, R394) and its placement (R139, R283, R287 to R289). -/

namespace Sys2Proof.Machine

open Sys2Proof.Forms

/-! ### Where a context runs (R287, R375, R376) -/

/-- The clusters on which a context is placed: those of its tenant partition, or all of the lowest die partition. -/
def State.ctxClusters (s : State) (c : Nat) : List (Nat × Nat) :=
  let bound := (List.range s.dies.length).filter fun d => ((s.dies[d]?).map fun x => x.live && x.hier.isSome).getD false
  let all := fun (ds : List Nat) => ds.flatMap fun d => (List.range 8).map fun k => (d, k)
  match s.tenantOf c with
  | some t => if fld t 63 1 == 1 then (all bound).filter fun e => t.testBit (8 * e.1 + e.2) else []
  | none => all (s.diesWith (bound.headD 0))

/-- A die of a context's partition. -/
def State.ctxDie (s : State) (c : Nat) : Nat := ((s.ctxClusters c).head?.map fun e => e.1).getD 0

def State.ctxCores (s : State) (c : Nat) : List Nat :=
  (s.ctxClusters c).flatMap fun e => (List.range 8).map fun k => e.1 * 64 + e.2 * 8 + k

/-- A core serves a context: a protected one on cores it owns, another on cores nobody owns (R394). -/
def State.coreFor (s : State) (core c : Nat) : Bool :=
  match s.coreOwn.lookup core with
  | none => (s.boundSlot c).isNone
  | some o => o == .owned c && (s.boundSlot c).isSome

/-! ### Records (R281, R282) -/

def parseRecord (bs : List Byte) : Record :=
  let f := fun (off n : Nat) => leNat ((bs.drop off).take n)
  { entry := f 0 8, gx := f 8 4, gy := f 12 2, gz := f 14 2, bx := f 0x10 2, by_ := f 0x12 1, bz := f 0x13 1, wcode := f 0x14 1,
    vcount := f 0x16 2, scount := f 0x18 2, tiles := f 0x1A 1, pool := BitVec.ofNat 32 (f 0x1C 4),
    slots := (List.range 8).map fun k => BitVec.ofNat 64 (f (0x20 + 8 * k) 8), arg := BitVec.ofNat 64 (f 0x60 8),
    sigAddr := f 0x68 8, sigVal := BitVec.ofNat 64 (f 0x70 8), flags := BitVec.ofNat 64 (f 0x78 8), handler := f 0x80 8,
    regions := f 0x88 8, live := f 0x90 8, stage := f 0x98 8 }

def Record.width (r : Record) : Nat := 8 * 2 ^ r.wcode
def Record.threads (r : Record) : Nat := r.bx * r.by_ * r.bz
def Record.nwarps (r : Record) : Nat := (r.threads + r.width - 1) / r.width
def Record.blocks (r : Record) : Nat := r.gx * r.gy * r.gz
def Record.gang (r : Record) : Bool := fld r.flags.toNat 7 1 == 1
def Record.spread (r : Record) : Bool := fld r.flags.toNat 8 1 == 1
def Record.cls (r : Record) : Nat := fld r.flags.toNat 3 2
def Record.reliability (r : Record) : Nat := fld r.flags.toNat 1 2

/-- Register bytes of n warps of a width (R85). -/
def Record.need (r : Record) (n width : Nat) : Nat := n * (width * r.vcount * 4 + r.scount * 4)
def Record.regShare (r : Record) : Nat := if r.share = 0 then 0 else 32768 * r.regs / r.share

/-- Warp slots of a width (R287). -/
def slotsOf (width : Nat) : Nat := if width ≤ 16 then 1 else if width == 32 then 2 else 4

/-- Warp slots of one warp of a launch and its shadow: octave warps take as many again (R384). -/
def Record.slotsPer (r : Record) (width : Nat) : Nat := slotsOf width * (if r.reliability == 1 || r.reliability == 3 then 2 else 1)

/-- Members of a block (R287): 1, or the smallest k from 2 to 4 that fits; none where the block cannot be placed. -/
def Record.members (r : Record) : Option Nat :=
  if r.need r.nwarps r.width ≤ r.regShare then some 1
  else if r.spread then
    [2, 3, 4].find? fun k => r.need ((r.nwarps + k - 1) / k) r.width ≤ r.regShare && (r.nwarps + k - 1) / k * r.slotsPer r.width ≤ 252
  else none

/-- The pool partition word (R84) and what R85 asks of it. -/
def Record.poolOk (r : Record) : Bool :=
  1 ≤ r.share && r.share ≤ 252 && r.acc ≤ 120 && r.scratch ≤ 160 && 8 ≤ r.regs && r.regs ≤ 64 && fld r.pool.toNat 7 2 == 0 &&
    r.kib ≤ 3072 && r.tiles ≤ r.tileShare && (r.wcode ≥ 4 || r.members.isSome)

/-- Blocks of a launch that the cores of a context can hold at once (cause 9 of R286). -/
def State.gangRoom (s : State) (c : Nat) (r : Record) : Nat :=
  let k := (r.members).getD 1
  let per := min r.share (252 / (max 1 ((r.nwarps + k - 1) / k * r.slotsPer r.width)))
  (s.ctxClusters c).length * (8 * per / k)

/-- The failing checks of a record that was read (R286). -/
def State.recordCauses (s : State) (c : Nat) (bs : List Byte) : List Nat :=
  let r := parseRecord bs
  let count := fun (n : Nat) => decide (8 ≤ n) && decide (n ≤ 512) && n % 8 == 0
  need (leNat ((bs.drop 0x15).take 1) == 0 && leNat ((bs.drop 0x1B).take 1) == 0 && leNat (bs.drop 0xA0) == 0 &&
    fld r.flags.toNat 9 55 == 0 && r.stage < 16) 1 ++
  need (r.wcode < 4) 2 ++ need (count r.vcount && count r.scount && r.tiles ≤ 64) 3 ++ need r.poolOk 4 ++
  need (r.bx != 0 && r.by_ != 0 && r.bz != 0 && r.threads ≤ 8192) 5 ++ need (r.gx != 0 && r.gy != 0 && r.gz != 0) 6 ++
  need (r.entry % 8 == 0 && r.entry < 2 ^ 48 && r.handler % 8 == 0 && r.handler < 2 ^ 48) 7 ++ need (r.sigAddr % 8 == 0) 8 ++
  need (!r.gang || r.blocks ≤ s.gangRoom c r) 9 ++
  need ((s.xlateUnit (s.ctxDie c) c wantLoad r.entry).toOption).isSome 10

/-- A record's 256 bytes under a context's tables, none where they cannot be read or it is not 64-byte aligned. -/
def State.readRecord (s : State) (c va : Nat) : Option (List Byte) :=
  if va % 64 != 0 then none
  else
    [0, 64, 128, 192].foldl (fun (acc : Option (List Byte)) o =>
      match acc, (s.readPiece (s.ctxDie c) c (va + o) 64).toOption with
      | some bs, some x => some (bs ++ x)
      | _, _ => none) (some [])

/-- A record read and checked: the record, or the lowest cause. -/
def State.fetchRecord (s : State) (c va : Nat) : Except Nat Record :=
  match s.readRecord c va with
  | none => .error 10
  | some bs =>
    match lowest (s.recordCauses c bs) with
    | some k => .error k
    | none => .ok (parseRecord bs)

/-! ### Dispatch (R285, R339) -/

/-- The number under which a context's device launch queue stands among the queues. -/
def devQueue (c : Nat) : Nat := 256 + c

/-- A pre-emption holds a context on a die (R342). -/
def State.heldOn (s : State) (c die : Nat) : Bool := ((s.ctx? c).map fun (x : Context) => x.held.testBit die).getD true

/-- The clusters of a context on dies where no pre-emption holds it. -/
def State.openClusters (s : State) (c : Nat) : List (Nat × Nat) := (s.ctxClusters c).filter fun e => !s.heldOn c e.1

/-- The launch at the head of the placement queue (R288): class 0 before the others (R379), and none whose context is held on every die (R342). How many
entries the queue has is not stated: it takes every launch that comes, so that the four kept for class 0 are never needed (log 91). -/
def State.placeHead (s : State) : Option Nat :=
  let ready := s.placeq.filter fun li => ((s.launches[li]?).map fun l =>
    l.st == .placing && !(s.openClusters l.ctx).isEmpty).getD false
  (ready.find? fun li => ((s.launches[li]?).map fun l => l.cls == 0).getD false).or ready.head?

/-- The hold time of the launch at the head starts: from now, with the bound that HOLD5 gives its class now (R206, R207). -/
def State.placeStart (s : State) (li : Nat) : State :=
  { s with placeFrom := some (li, s.clk.ucyc, s.holdBound 5 (((s.launches[li]?).map (·.cls)).getD 3)) }

/-- The hold time of the launch at the head runs from when it came there (R207, R288). -/
def State.placeFix (s : State) : State :=
  match s.placeHead with
  | none => { s with placeFrom := none }
  | some li => if (s.placeFrom.map fun e => e.1) == some li then s else s.placeStart li

/-- A launch enters the placement queue. -/
def State.placeIn (s : State) (li : Nat) : State := { s with placeq := s.placeq.filter (· != li) ++ [li] }.placeFix

/-- A launch leaves the placement queue. -/
def State.placeOut (s : State) (li : Nat) : State :=
  { s with placeq := s.placeq.filter (· != li), placeFrom := s.placeFrom.filter fun e => e.1 != li }.placeFix

/-- A launch of reliability class 2 or 3 has rollback, where its context has an area of a page or more (R385). -/
def State.canRoll (s : State) (c : Nat) (r : Record) : Bool :=
  2 ≤ r.reliability && ((s.ctx? c).map fun x => decide (4096 ≤ x.rollsize.toNat)).getD false

def State.addLaunch (s : State) (r : Record) (recAddr c cls : Nat) (queue stage : Option Nat) : State :=
  State.placeIn { s with launches := s.launches ++ [{
      info := r, recAddr := recAddr, ctx := c, cls := cls, queue := queue, stage := stage, next := 0, retired := 0, tasks := 0,
      lives := [], age := s.clk.tick, deferred := false, gangFrom := none, st := .placing, rollbacks := 0,
      rollback := s.canRoll c r, snaps := [] }] } s.launches.length

/-- A queue's number of entries, none where LQCTL leaves it disabled (R284). -/
def LaunchQueue.size (q : LaunchQueue) : Option Nat :=
  let n := fld q.ctl.toNat 0 5
  if fld q.ctl.toNat 63 1 == 1 && 4 ≤ n && n ≤ 16 then some (2 ^ n) else none
def LaunchQueue.ctx (q : LaunchQueue) : Nat := fld q.ctl.toNat 32 16

/-- A launch of a queue still places blocks, or is to be dispatched again. -/
def State.queueBusy (s : State) (q : Nat) : Bool :=
  s.launches.any fun l => l.queue == some q && (l.st == .placing || l.st == .replay)

/-- Blocks of a launch still run, or end. -/
def State.blocksLeft (s : State) (li : Nat) : Bool := s.blocks.any fun b => b.launch == li && (b.st == .running || b.st == .ending)

/-- A rolled-back launch, once its blocks have ended: its pages are copied back and its record is read again (R385). -/
def State.replay (s : State) (li : Nat) (l : Launch) : State :=
  if s.blocksLeft li then s
  else
    let s := l.snaps.foldl (fun s p =>
      (List.range 32).foldl (fun s i =>
        let ln := p.1 * 32 + i
        (s.dropLine ln false).ramWrite ln p.2.1 ((p.2.2.drop (128 * i)).take 128)) s) s
    match s.fetchRecord l.ctx l.recAddr with
    | .error _ => s.modLaunch li fun x => { x with st := .dead }
    | .ok r => (s.modLaunch li fun x => { x with
        info := r, st := .placing, next := 0, retired := 0, tasks := 0, snaps := [], rollback := s.canRoll l.ctx r, deferred := false,
        gangFrom := none }).placeIn li

def State.replayOf (s : State) (q : Nat) : Option (Nat × Launch) :=
  (s.launches.zipIdx.find? fun e => e.1.queue == some q && e.1.st == .replay).map fun e => (e.2, e.1)

def State.modQueue (s : State) (q : Nat) (f : LaunchQueue → LaunchQueue) : State := { s with queues := s.queues.modify q f }

/-- A rejection: LQERR, and the interrupt of the tenant's function (R284, R286). -/
def State.rejectLaunch (s : State) (q c cause index : Nat) : State :=
  (s.modQueue q fun x => { x with err := BitVec.ofNat 64 (cause * 2 ^ 48 + index) }).raise_ c 1

def State.dispatchQueue (s : State) (q : Nat) : State :=
  match s.replayOf q with
  | some (li, l) => s.replay li l
  | none =>
    match s.queues[q]? with
    | none => s
    | some x =>
      match x.size with
      | none => s
      | some n =>
        if x.head == x.tail || s.queueBusy q then s
        else
          let c := x.ctx
          let next := fun (s : State) => s.modQueue q fun y => { y with head := y.head + 1 }
          match s.read64 (s.ctxDie c) c (x.base.toNat + 8 * (x.head.toNat % n)) with
          | none => next (s.rejectLaunch q c 10 x.head.toNat)
          | some va =>
            match s.fetchRecord c va with
            | .error k => next (s.rejectLaunch q c k x.head.toNat)
            | .ok r => next (s.addLaunch r va c (max r.cls (fld x.ctl.toNat 6 2)) (some q) none)

/-- The status of a `launch` reaches its lane; its counter falls with the word's last one (R339). -/
def State.launchStatus (s : State) (d : DevLaunch) (status : Nat) : State :=
  s.delivers d.warp d.tag d.grp d.ctr fun _ => BitVec.ofNat 32 status

def State.dispatchDevice (s : State) (c : Nat) : State :=
  match s.replayOf (devQueue c) with
  | some (li, l) => s.replay li l
  | none =>
    match (s.ctx? c).bind fun x => x.devq.head? with
    | none => s
    | some d =>
      if s.queueBusy (devQueue c) then s
      else
        let s := s.modCtx c fun x => { x with devq := x.devq.tail }
        match s.fetchRecord c d.recAddr with
        | .error k => (s.launchStatus d k).raise_ c 1
        | .ok r => (s.addLaunch r d.recAddr c (max r.cls d.cls) (some (devQueue c)) none).launchStatus d 0

/-- The class of the launch that a queue has ready: the one at its head, or one to be dispatched again, once its blocks have ended (R285, R339,
R385). -/
def State.readyClass (s : State) (src : LaunchSource) : Option Nat :=
  let cls := fun (c va low : Nat) => match s.fetchRecord c va with | .ok r => max r.cls low | .error _ => low
  match src with
  | .queue q =>
    match s.replayOf q, s.queues[q]? with
    | some (li, l), _ => if s.blocksLeft li then none else some l.cls
    | none, some x =>
      match x.size with
      | some n =>
        if x.head == x.tail || s.queueBusy q then none
        else some (((s.read64 (s.ctxDie x.ctx) x.ctx (x.base.toNat + 8 * (x.head.toNat % n))).map fun va =>
          cls x.ctx va (fld x.ctl.toNat 6 2)).getD 0)
      | none => none
    | none, none => none
  | .device c =>
    match s.replayOf (devQueue c), (s.ctx? c).bind fun x => x.devq.head? with
    | some (li, l), _ => if s.blocksLeft li then none else some l.cls
    | none, some d => if s.queueBusy (devQueue c) then none else some (cls c d.recAddr d.cls)
    | none, none => none

/-- The number of a queue among all of them. -/
def sourceNum : LaunchSource → Nat
  | .queue q => q
  | .device c => devQueue c

/-- Queues with a launch ready in the order of R285: the lowest class first, and within a class the queue after the one that was served
last in it. -/
def State.dispatches (s : State) : List LaunchSource :=
  let srcs := (List.range s.queues.length).map LaunchSource.queue ++ s.ctxs.map fun c => .device c.num
  (sortOn (srcs.filterMap fun e => (s.readyClass e).map fun k =>
    (k * 2 ^ 32 + (if ((s.lastDisp.lookup k).map fun q => decide (q < sourceNum e)).getD true then sourceNum e else sourceNum e + 2 ^ 20), e))).map fun e => e.2

/-- LAUNCH_DISPATCH: the launch at the head of the queue whose turn it is (R285). -/
def execLaunchDispatch (src : LaunchSource) (s : State) : Res :=
  match s.readyClass src with
  | none => .next s
  | some k =>
    let t := match src with
      | .queue q => s.dispatchQueue q
      | .device c => s.dispatchDevice c
    when (s.dispatches.head? == some src) s { t with lastDisp := mput k (sourceNum src) s.lastDisp }

/-! ### Room (R85 to R87, R17, R287) -/

/-- A warp holds its slots until it has ended, its counters are zero and it has no entry left (R265). -/
def State.occupies (s : State) (w : Nat) (x : Warp) : Bool :=
  !x.ended && ((s.blocks[x.blk]?).map fun b => b.st == .running || b.st == .ending).getD false && !(x.allExited && x.ctrs.all (· == 0) && !(s.reqs.any fun r => r.warp == w))

/-- Slots that a warp holds. -/
def State.warpSlots (s : State) (w : Warp) : Nat := ((s.launchOf w).map fun l => l.info.slotsPer w.width).getD (slotsOf w.width)

def State.slotBusy (s : State) (core n : Nat) : Bool :=
  s.warps.zipIdx.any fun e => e.1.core == core && e.1.slot ≤ n && n < e.1.slot + s.warpSlots e.1 && s.occupies e.2 e.1

/-- The last slot of a partition for ordinary placement: the last four of partition 7 are landing slots (R17). -/
def lastSlot (part : Nat) (landing : Bool) : Nat := if part == 7 && !landing then 252 else 32 * part + 32

/-- The first run of n free slots in a partition. -/
def State.findSlot (s : State) (core part n : Nat) (from_ : Nat) (landing : Bool) : Option Nat :=
  ((List.range 32).map (· + 32 * part)).find? fun k =>
    from_ ≤ k && k + n ≤ lastSlot part landing && (List.range n).all fun j => !s.slotBusy core (k + j)

/-- Warps of n slots each that a partition still takes. -/
def State.partRoom (s : State) (core part n : Nat) : Nat → Nat → Nat
  | 0, _ => 0
  | k + 1, from_ =>
    match s.findSlot core part n from_ false with
    | some j => 1 + State.partRoom s core part n k (j + n)
    | none => 0

def State.slotsFit (s : State) (core n warps : Nat) : Bool :=
  warps ≤ ((List.range 8).map fun p => s.partRoom core p n 32 (32 * p)).sum

/-- Blocks or members of a launch on a core. -/
def State.membersOn (s : State) (li core : Nat) : Nat :=
  ((s.blocks.filter fun b => b.launch == li && (b.st == .running || b.st == .ending)).map fun b => b.cores.count core).sum

def State.poolUsed (s : State) (core : Nat) : Nat := ((s.carves.filter fun c => c.core == core).map fun c => c.kib).sum

def State.carved (s : State) (li core : Nat) : Bool := s.carves.any fun c => c.core == core && c.launch == li && !c.zeroing

/-- The carve-out and the share of a core have room for one more block or member. -/
def State.shareRoom (s : State) (li : Nat) (l : Launch) (core : Nat) : Bool :=
  s.coreFor core l.ctx && s.membersOn li core < l.info.share && (s.carved li core || s.poolUsed core + l.info.kib ≤ 3072)

/-- The eldest gang that is not whole yet (R289). -/
def State.eldest (s : State) : Option Nat :=
  let gs := (s.launches.zipIdx.filter fun e => e.1.info.gang && e.1.st == .placing).map fun e => (e.1.age, e.2)
  ((sortOn gs).head?).map fun e => e.2

/-- A core where the eldest gang can place a block is kept for it (R289); a gang whose context is held there places none (R342). -/
def State.reserved (s : State) (li core : Nat) : Bool :=
  match s.eldest with
  | none => false
  | some g =>
    g != li &&
      match s.launches[g]? with
      | none => false
      | some l =>
        let k := (l.info.members).getD 1
        !s.heldOn l.ctx (core / 64) && (s.ctxCores l.ctx).contains core && s.shareRoom g l core && s.slotsFit core (l.info.slotsPer l.info.width) ((l.info.nwarps + k - 1) / k)

/-! ### Placement (R283, R287) -/

/-- A warp as a launch creates it (R139, R276, R283); `lanes_` of its lanes have a thread. -/
def Launch.warp (l : Launch) (blk num member core part slot width lanes_ entry : Nat) : Warp :=
  { blk := blk, num := num, cls := l.cls, member := member, core := core, part := part, slot := slot, width := width,
    lanes := (List.range width).map fun k =>
      { pc := entry, hdr := none, via := none, st := if k < lanes_ then .standing else .exited, pass := 0, q := 0, handler := false,
        tcause := 0, td0 := 0, td1 := 0, td2 := 0, tpc := 0, thdr := none, origin := 0, arrived := [] },
    v := [],
    s := mset 3 (BitVec.ofNat 32 (l.info.arg.toNat / 2 ^ 32)) 0 (mset 2 (BitVec.ofNat 32 l.info.arg.toNat) 0 []),
    flags := 0, wctl := BitVec.ofNat 32 (num % 1024 * 2 ^ 8 + 8 * 2 ^ 4 + 2 + fld l.info.flags.toNat 6 1), target := l.ctx,
    ctrs := List.replicate 8 0, fences := List.replicate 8 ⟨false, 0, .core, [], []⟩, sets := List.replicate 12 (0, 0),
    wdFrom := none, wdOff := none, saw := [], was := [], after := [], shadowQ := 0, clause := none, nextIssue := 0, lastIssue := 0, yielded := none, pend := [], seq := 0, due := [], hold := [],
    ended := false }

/-- The warps of a block, each in the first free slot of its partition. -/
def State.placeWarps (s : State) (mk : Nat → Nat → Nat → Nat → Warp) (coreOf : Nat → Nat) (n_ : Nat) :
    List (Nat × Nat) → Option State
  | [] => some s
  | (n, part) :: rest =>
    match (if part < 8 then s.findSlot (coreOf n) part n_ 0 false else none) with
    | none => none
    | some slot =>
      State.placeWarps { s with warps := s.warps ++ [{ mk n (coreOf n) part slot with nextIssue := s.clk.cyc, lastIssue := s.clk.cyc }] } mk
        coreOf n_ rest

/-- The most KiB of a core's free pool that a context may have held last (R86). -/
def State.poolLast (s : State) (c core : Nat) : Nat := ((s.poolBy.find? fun e => e.1 == (c, core)).map (·.2)).getD 0

/-- The carve-out of a launch on a core, taken where it is not held yet; what its context did not hold before is zeroed (R86). Of the free pool,
nobody can have held more than is left. -/
def State.takeCarve (s : State) (li : Nat) (l : Launch) (core : Nat) : State :=
  if s.carved li core then s
  else
    let s := { s with carves := s.carves ++ [Carve.mk core li l.info.kib false (s.poolLast l.ctx core != 0)] }
    { s with poolBy := s.poolBy.map fun (e : (Nat × Nat) × Nat) => if e.1.2 == core then (e.1, min e.2 (3072 - s.poolUsed core)) else e }

/-- A carve-out of a context is returned: what it held joins what the context held last of the free pool. -/
def State.poolGive (s : State) (c core kib : Nat) : State :=
  { s with poolBy := ((c, core), min (s.poolLast c core + kib) (3072 - s.poolUsed core)) ::
      s.poolBy.filter fun (e : (Nat × Nat) × Nat) => e.1 != (c, core) }

/-- Unlisted pool bytes of a member of a new block: zero in a carve-out zeroed whole that no block has left, and else free values, what an
earlier block of the context may have left (R86). -/
def State.freshFor (s : State) (li c core : Nat) : Option Nat :=
  match s.carves.find? fun v => v.core == core && v.launch == li && !v.zeroing with
  | some v => if v.used then some s.free else none
  | none => if s.poolLast c core != 0 then some s.free else none

/-- A block as it is placed, with where its lanes start and, of a wave, its task arguments. -/
def State.newBlock (s : State) (li lin wave entry : Nat) (args : List (Nat × Word)) (width c : Nat) (cores : List Nat) : Block :=
  { launch := li, lin := lin, wave := wave, entry := entry, args := args, width := width, cores := cores, spad := [], fresh := cores.map (s.freshFor li c),
    freshT := s.freshFor li c (cores.headD 0), tiles := [],
    owners := 0, mx := MxCount.zero, held := [], batch := 0, done := 0, faults := [], baton := 0, placed := s.clk.tick,
    st := .running, pre := .none, later := [], back := false, dropped := false, bad := [], barWhy := [] }

/-- A block and its warps are placed on the cores of its members, or nothing happens (R287). -/
def State.placeBlock (s : State) (li : Nat) (l : Launch) (b : Block) (nw : Nat) (parts : List Nat)
    (mk : Nat → Nat → Nat → Nat → Warp) : Option State :=
  let k := b.cores.length
  let per := (nw + k - 1) / k
  if parts.length != nw || b.cores.eraseDups.length != k then none
  else if !(b.cores.all fun c => s.shareRoom li l c && !s.reserved li c && (s.ctxCores l.ctx).contains c && !s.heldOn l.ctx (c / 64)) then none
  else if !(b.cores.all fun c => c / 8 == (b.cores.headD 0) / 8) then none
  else
    let s := b.cores.foldl (fun s c => s.takeCarve li l c) { s with free := s.free + 2 ^ 25 }
    ({ s with blocks := s.blocks ++ [b] }).placeWarps mk (fun n => b.cores.getD (n / per) 0) (l.info.slotsPer b.width) ((List.range nw).zip parts)

/-- A slice begins with a context's first placement (R380). -/
def State.startSlice (s : State) (c : Nat) : State :=
  s.modCtx c fun x => if x.begun then x else { x with begun := true, sliceFrom := some s.clk.tick }

/-- BLOCK_PLACEMENT: the next block of the launch at the head of the placement queue (R288), on the cores and partitions that the controller chose. -/
def execBlockPlacement (li : Nat) (cores parts : List Nat) (s : State) : Res :=
  match s.launches[li]? with
  | none => .next s
  | some l =>
    let r := l.info
    if !(s.opened && l.st == .placing && !l.deferred && s.placeHead == some li && some cores.length == r.members) then .next s
    else
      let b := s.newBlock li l.next 0 r.entry [] r.width l.ctx cores
      let per := (r.nwarps + cores.length - 1) / cores.length
      let blk := s.blocks.length
      match s.placeBlock li l b r.nwarps parts fun n core part slot =>
          l.warp blk n (n / per) core part slot r.width (min r.width (r.threads - n * r.width)) r.entry with
      | none => .next s
      | some t =>
        let done := r.blocks ≤ l.next + 1
        let t := (t.modLaunch li fun x => { x with
          next := x.next + 1, st := if done then .placed else x.st,
          gangFrom := if r.gang && !done then (x.gangFrom.or (some s.clk.tick)) else none }).startSlice l.ctx
        .next (if done then t.placeOut li else t.placeStart li)

/-- Freed resources let deferred launches of the partition enter the placement queue again (R288). -/
def State.reenter (s : State) (core : Nat) : State :=
  let back := (List.range s.launches.length).filter fun li => ((s.launches[li]?).map fun l =>
    l.deferred && (s.diesWith (core / 64)).contains (s.ctxDie l.ctx)).getD false
  back.foldl (fun s li => (s.modLaunch li fun l => { l with deferred := false }).placeIn li) s

/-- Partitions for n warps on a core, one after the other. -/
def State.pickParts (s : State) (core slots n : Nat) : List Nat :=
  let room := (List.range 8).map fun p => s.partRoom core p slots 32 (32 * p)
  ((List.range 32).flatMap fun k => (List.range 8).filter fun p => k < room.getD p 0).take n

/-- Cores of one cluster for the members of a block, member 0's one that `first` allows, with the partitions of its warps; none where the block finds
no room. -/
def State.pickCores (s : State) (li : Nat) (l : Launch) (k nw slots : Nat) (first : Nat → Bool) (clusters : List (Nat × Nat)) :
    Option (List Nat × List Nat) :=
  let per := (nw + k - 1) / max 1 k
  clusters.findSome? fun e =>
    let cs := ((List.range 8).map fun j => e.1 * 64 + e.2 * 8 + j).filter fun c =>
      s.shareRoom li l c && !s.reserved li c && s.slotsFit c slots per
    match cs.find? first with
    | none => none
    | some c0 =>
      let cs := c0 :: (cs.filter (· != c0)).take (k - 1)
      if cs.length < k then none
      else some (cs, cs.zipIdx.flatMap fun c => s.pickParts c.1 slots (min per (nw - c.2 * per)))

/-- Where the next block of a launch finds room. -/
def State.roomFor (s : State) (li : Nat) (l : Launch) : Option (List Nat × List Nat) :=
  s.pickCores li l ((l.info.members).getD 1) l.info.nwarps (l.info.slotsPer l.info.width) (fun _ => true) (s.openClusters l.ctx)

/-- PLACEMENT_HOLD_EXPIRY: a launch at the head of the placement queue whose next block has found no room within HOLD5 leaves the queue for
its own queue's deferred slot (R288). -/
def execPlacementHoldExpiry (li : Nat) (s : State) : Res :=
  match s.launches[li]? with
  | none => .next s
  | some l =>
    let e := ((s.placeFrom.filter fun e => e.1 == li).map (·.2)).getD (s.clk.ucyc, s.holdBound 5 l.cls)
    let s1 := s.advance (s.clk.untilU (e.1 + e.2))
    when (l.st == .placing && !l.deferred && s.placeHead == some li && (s.roomFor li l).isNone) s
      ((s1.modLaunch li fun x => { x with deferred := true }).placeOut li)

/-- A block has left some cores. The carve-outs of its launch where it has no block left are returned; a protected context's is zeroed first
(R86, R400). -/
def State.returnCarves (s : State) (li : Nat) (c : Nat) (cores : List Nat) : State :=
  cores.foldl (fun s core =>
    if s.membersOn li core != 0 then
      { s with carves := s.carves.map fun x => if x.core == core && x.launch == li then { x with used := true } else x }
    else if (s.boundSlot c).isSome then
      { s with carves := s.carves.map fun x => if x.core == core && x.launch == li then { x with zeroing := true } else x }
    else
      let kib := ((s.carves.find? fun x => x.core == core && x.launch == li).map (·.kib)).getD 0
      (({ s with carves := s.carves.filter fun x => !(x.core == core && x.launch == li) }).poolGive c core kib).reenter core) s

end Sys2Proof.Machine
end

