-- ==== Sys2Proof/Machine/Link.lean ====
section
/-! DEFINITION. The link engine: rings, their positions and consumers (R298 to R300, R305, R307, R309, R318), `rpush`, `rpop` and
`reos` (R310 to R313, R317), pipelines, their binding and their end (R301 to R306, R308, R314 to R316, R319 to R322). -/

namespace Sys2Proof.Machine

open Sys2Proof.Forms

/-! ### Rings -/

def Consumer.live (c : Consumer) : Bool := !c.detached && !c.spilled

/-- The lowest position a live consumer still needs (R299). -/
def Ring.free (r : Ring) : Nat := (((r.cons.filter Consumer.live).map fun c => c.cursor).min?).getD r.w

/-- The start of the retained range; of an empty one, W at most. A position that has left it does not come back where an attach or a consumer that
joins again lowers Free (log 93). -/
def Ring.low (r : Ring) : Nat := max r.gone (min (r.free - r.echo) r.w)

def Ring.canClaim (r : Ring) : Bool := r.w < r.free - r.echo + r.cap

/-- Consumers that count toward the limit of 16 (R300). -/
def Ring.seats (r : Ring) : Nat := (r.cons.filter fun c => !c.detached).length

def Ring.pos? (r : Ring) (p : Nat) : Option Pos := r.poss.find? fun x => x.p == p

def State.ring? (s : State) (id : Nat) : Option Ring := s.rings.find? fun r => r.id == id
def State.modRing (s : State) (id : Nat) (f : Ring → Ring) : State :=
  { s with rings := s.rings.map fun r => if r.id == id then f r else r }

/-- The pipeline that owns a stage, the oldest of those that use it (R308): its consumer spills into that one's buffer (R307). -/
def State.pipeOf (s : State) (stage : Option Nat) : Option Pipe :=
  (stage.bind fun k => (s.stages.find? fun (x : Stage) => x.id == k).bind fun x => x.refs.head?).bind fun p => s.pipes.find? fun x => x.id == p

/-- Places left for a consumer's spill in its pipeline's buffer, which all the pipeline's consumers share. -/
def State.spillRoom (s : State) (id : Nat) (stage : Option Nat) : Nat :=
  match s.pipeOf stage with
  | none => 0
  | some p =>
    let others := s.rings.flatMap fun r => (r.cons.filter fun c => r.id != id && ((s.pipeOf c.stage).map fun x => x.id) == some p.id).map fun c => c.spill.length
    if p.spillBase == 0 then 0 else p.spillCap - others.sum

/-- A position that leaves the retained range is copied for each spilled consumer that has not taken it, or lost to it. -/
def spillOne (cap : Nat) (x : Pos) (c : Consumer) : Consumer :=
  if !c.spilled || c.detached || c.overrun.isSome || x.p < c.cursor || c.spill.any (fun y => y.p == x.p) then c
  else if c.spill.length < cap then { c with spill := c.spill ++ [x] }
  else { c with overrun := some x.p }

/-- Positions below the retained range leave it (R299, R307); those an `rpop` has taken stay until it has them. -/
def State.trimRing (s : State) (id : Nat) : State :=
  match s.ring? id with
  | none => s
  | some r =>
    let out := r.poss.filter fun x => r.gone ≤ x.p && x.p < r.low
    let lastOut := ((out.filter fun x => !x.marker).getLast?).map fun x => x.origin
    let cons := r.cons.map fun (c : Consumer) =>
      let cap := s.spillRoom id c.stage
      let c := out.foldl (fun c x => spillOne cap x c) c
      { c with spill := c.spill.filter fun x => c.cursor ≤ x.p }
    s.modRing id fun r => { r with
      left := lastOut.or r.left, gone := r.low, cons := cons
      poss := r.poss.filter fun x => r.low ≤ x.p || !x.published || r.pops.any fun q => q.p == x.p }

/-- The word at 0x08 of a ring's descriptor (R298). -/
def Ring.shapeWord (r : Ring) : Nat :=
  (if r.ext then 2 ^ 63 else 0) + r.prod % 2 ^ 11 * 2 ^ 52 + r.echo % 2 ^ 20 * 2 ^ 32 + Nat.log2 r.cap % 32 * 2 ^ 16 + r.size % 2 ^ 16

/-- The engine keeps the cursor fields of the descriptor in memory, and for a stage's output ring P too (R298). -/
def State.storeRing (s : State) (id : Nat) : State :=
  match s.ring? id with
  | none => s
  | some r =>
    let ext := ((r.cons.find? fun c => c.stage.isNone).map fun c => c.cursor).getD 0
    let s := if r.stageOut then s.writeVirt (s.ctxDie r.ctx) r.ctx (r.desc + 0x08) (leBytes 8 r.shapeWord) else s
    s.writeVirt (s.ctxDie r.ctx) r.ctx (r.desc + 0x10) (leBytes 8 r.w ++ leBytes 8 r.free ++ leBytes 8 ext ++ leBytes 8 r.ended)

/-! ### Delivering a position (R312) -/

/-- The registers of a status pair. -/
def statusWord (kind producer p : Nat) (d : Dst) : Word :=
  let i := match d with | .v _ i => i | .s i => i | .q _ i => i
  if i % 2 == 0 then BitVec.ofNat 32 (kind + (if kind == 1 then producer * 2 ^ 16 else 0)) else BitVec.ofNat 32 p

def State.modCons (s : State) (id : Nat) (st : Option Nat) (f : Consumer → Consumer) : State :=
  s.modRing id fun r => { r with cons := r.cons.map fun c => if c.stage == st then f c else c }

/-- An instance returns a kind and a position; what waited for that acquire goes on (R317). -/
def State.popReturn (s : State) (id : Nat) (q : Pop) (kind producer p : Nat) : State :=
  let s := s.modRing id fun r => { r with pops := r.pops.filter fun x => x.id != q.id }
  let s := (s.delivers q.warp q.id q.grp q.ctr (statusWord kind producer p)).rangeRetry
  match s.warps[q.warp]? with
  | some w => s.settled (s.ownerOf w)
  | none => s

/-- The element's bytes reach the destination that was translated at issue. -/
def State.popWrite (s : State) (q : Pop) (data : List Byte) : State :=
  match q.loc with
  | some off => s.modBlk q.blk fun b => b.setBytes off data
  | none =>
    let own := ((s.warps[q.warp]?).map s.ownerOf).getD ⟨0, 0, 0⟩
    (q.dst.zip data).foldl (fun s e => s.devWrite .link q.warp own (s.forwarded e.1) [e.2]) s

/-- One instance whose position is published; what a lane receives on port 0 gives its later elements their origin (R305). -/
def State.popOne (s : State) (id : Nat) (q : Pop) (x : Pos) : State :=
  if !x.marker then
    let s := s.popWrite q x.data
    let s := if q.stage.isSome then s.modWarp q.warp fun w => w.mapLanes q.mask fun _ y => { y with origin := x.origin } else s
    s.popReturn id q 0 0 x.p
  else if x.last then
    let s := s.modCons id q.stage fun c => { c with cursor := x.p, final := true }
    s.popReturn id q 2 0 x.p
  else s.popReturn id q 1 x.producer x.p

/-- Position p as a consumer finds it: in the ring, or in its spill. -/
def Ring.find (r : Ring) (st : Option Nat) (p : Nat) : Option Pos :=
  (r.pos? p).or ((r.cons.find? fun c => c.stage == st).bind fun c => c.spill.find? fun x => x.p == p)

/-- Every instance that can return does, in the order of the positions taken. -/
def State.servePops (s : State) (id : Nat) : State :=
  match s.ring? id with
  | none => s
  | some r =>
    let s := (sortOn (r.pops.map fun q => (q.p, q))).foldl (fun s e =>
      match s.ring? id with
      | none => s
      | some r =>
        let q := e.2
        match r.cons.find? fun c => c.stage == q.stage with
        | none => s
        | some c =>
          match r.find q.stage q.p with
          | some x => if x.published then s.popOne id q x else if c.detached then
              (s.modCons id q.stage fun c => { c with cursor := min c.cursor q.p }).popReturn id q 2 0 q.p else s
          | none =>
            if c.final then s.popReturn id q 2 0 c.cursor
            else if c.detached then (s.modCons id q.stage fun c => { c with cursor := min c.cursor q.p }).popReturn id q 2 0 q.p
            else s) s
    (s.trimRing id).storeRing id

/-! ### Claims (R299, R311, R313) -/

/-- A claim takes position W. -/
def State.claimNow (s : State) (id : Nat) (c : Claim) : State :=
  (s.modRing id fun r =>
    let last := c.marker && r.ended + 1 == r.prod
    { r with
      w := r.w + 1, ended := if c.marker then r.ended + 1 else r.ended
      poss := r.poss ++ [⟨r.w, c.marker, last, c.producer, if c.marker then 0 else c.origin, c.data, false, c.grp, c.warp, c.ctr⟩] }
    ).storeRing id

/-- A claim is made at once where the ring has room and none waits before it; else it waits in the engine. -/
def State.claim (s : State) (id : Nat) (c : Claim) : State :=
  match s.ring? id with
  | none => s
  | some r => if r.claims.isEmpty && r.canClaim then s.claimNow id c else s.modRing id fun r => { r with claims := r.claims ++ [c] }

/-- The first waiting claim is made, once the ring has room. -/
def State.claimHead (s : State) (id : Nat) : State :=
  match s.ring? id with
  | none => s
  | some r =>
    match r.claims with
    | [] => s
    | c :: cs => if r.canClaim then (s.modRing id fun r => { r with claims := cs }).claimNow id c else s

/-- RING_CLAIM. -/
def execRingClaim (id : Nat) (s : State) : Res := .next (s.claimHead id)

/-- ELEMENT_PUBLISH: the position's bytes stand in its slot; instances that wait for it return. -/
def execElementPublish (id pos : Nat) (s : State) : Res :=
  match s.ring? id with
  | none => .next s
  | some r =>
    match r.pos? pos with
    | none => .next s
    | some x =>
      if x.published || (!x.marker && s.unitHeld (s.ctxDie r.ctx) r.ctx (r.base + pos % r.cap * r.size) x.data.length) then .next s
      else
        let s := if x.marker then s else s.writeVirt (s.ctxDie r.ctx) r.ctx (r.base + pos % r.cap * r.size) x.data
        let mark := fun (l : List Pos) => l.map fun y => if y.p == pos then { y with published := true } else y
        let s := s.modRing id fun r => { r with
          poss := mark r.poss, cons := r.cons.map fun c => { c with spill := mark c.spill } }
        .next ((s.partDone x.warp x.grp x.ctr).servePops id)

/-- CONSUMER_SPILL: a claim has waited beyond HOLD6; the consumers at Free stop counting toward it, and the claim proceeds (R307). -/
def execConsumerSpill (id : Nat) (s : State) : Res :=
  match s.ring? id with
  | none => .next s
  | some r =>
    match r.claims with
    | [] => .next s
    | c :: _ =>
      if r.canClaim || r.seats < 2 then .next s
      else
        let s := s.advance (s.clk.untilU (c.since + c.bound))
        .next ((s.modRing id fun r => { r with cons := r.cons.map fun x =>
          if x.live && x.cursor == r.free then
            { x with spilled := true, overrun := if x.stage.isNone then some x.cursor else x.overrun }
          else x }).trimRing id |>.claimHead id |>.storeRing id)

/-! ### Descriptors (R298) -/

/-- A descriptor's 64 bytes, as a ring of its first use; none where they break R298. -/
def ringOfDesc (id ctx va key : Nat) (bs : List Byte) : Option Ring :=
  let f := fun (off n : Nat) => leNat ((bs.drop off).take n)
  let x := f 8 8
  let cap := 2 ^ fld x 16 5
  let ok := va % 64 == 0 && f 0 8 % 4096 == 0 && 1 ≤ fld x 52 11 && fld x 52 11 ≤ 1024 && fld x 32 20 ≤ cap / 2 && fld x 21 11 == 0 &&
    1 ≤ fld x 16 5 && fld x 16 5 ≤ 20 && 64 ≤ fld x 0 16 && fld x 0 16 ≤ 4096 && fld x 0 16 % 64 == 0 && f 0x10 8 == 0 &&
    f 0x18 8 == 0 && f 0x20 8 == 0 && f 0x28 8 == 0 && leNat ((bs.drop 0x30).take 16) == 0
  if ok then
    some { id := id, ctx := ctx, desc := va, key := key, base := f 0 8, size := fld x 0 16, cap := cap, echo := fld x 32 20,
           prod := fld x 52 11, ext := fld x 63 1 == 1, w := 0, ended := 0, left := none, gone := 0, stageOut := false, poss := [],
           cons := if fld x 63 1 == 1 then [⟨none, 0, false, none, false, false, []⟩] else [], claims := [], pops := [], doneBy := [] }
  else none

/-- What a descriptor's address leads to: a held ring, one to hold from now on, or a fault. -/
inductive RingAt where
  | held (r : Ring)
  | fresh (r : Ring)
  | broken
  | bad (grp code lvl ent va : Nat)
  deriving DecidableEq, Repr

def State.ringAt (s : State) (die ctx va : Nat) : RingAt :=
  match s.xlateUnit die ctx wantERead va with
  | .error (g, c, l, e) => .bad g c l e va
  | .ok p =>
    let key := memKey p.tier p.pa
    match s.rings.find? fun r => r.key == key with
    | some r => .held r
    | none =>
      if va % 64 != 0 then .broken
      else
        match ringOfDesc s.nextId ctx va key (s.viewN p.tier p.pa p.key 64) with
        | some r => .fresh r
        | none => .broken

/-- The engine holds the ring from its first use. -/
def State.holdRing (s : State) (r : Ring) : State :=
  if s.rings.any fun x => x.id == r.id then s else { s with rings := s.rings ++ [r], nextId := max s.nextId (r.id + 1) }

/-! ### Ranges translated at issue (R311, R312) -/

/-- The pieces of [va, va + n) by page. -/
def pieces (va n : Nat) : List (Nat × Nat) :=
  let m := min n (4096 - va % 4096)
  (va, m) :: if m < n then [(va + m, n - m)] else []

def State.tryRange (s : State) (x : Iss) (l : Nat) (want : Want) (va n : Nat) : List Tried :=
  (pieces va n).map fun e => (l, e.1, s.xlate x.w x.wp want 1 e.2 e.1)

/-- The first failing piece of a lane's range. -/
def firstBad (ts : List Tried) : List Tried :=
  (ts.find? fun t => match t.2.2 with | .bad _ _ _ _ => true | _ => false).toList

/-- The window offset of a range in the local window. -/
def locOf (ts : List Tried) : Option Nat := (ts.head?).bind fun t => match t.2.2 with | .loc o => some o | _ => none

/-- The places of a range's bytes in memory. -/
def placesOf (n va : Nat) (ts : List Tried) : List Place :=
  (List.range n).filterMap fun i =>
    (ts.findSome? fun t =>
      match t.2.2 with
      | .ok p => if t.2.1 ≤ va + i && (va + i) / 4096 == t.2.1 / 4096 then some { p with pa := p.pa + (va + i - t.2.1) } else none
      | _ => none)

/-! ### The words of a ring -/

/-- The ring of a port: 0 input, 1 output (R302). -/
def State.portRing (s : State) (w : Warp) (port : Nat) : Option Ring :=
  ((s.launchOf w).bind fun l => l.stage).bind fun k =>
    (s.stages.find? fun (x : Stage) => x.id == k).bind fun x => s.ring? (if port == 0 then x.inRing else x.out)

/-- What a lane's ring operand comes to. -/
inductive Target where
  | ring (r : Ring) (fresh : Bool)
  | code (c : Nat)
  | bad (t : Tried)
  deriving DecidableEq, Repr

def State.target (s : State) (x : Iss) (l : Nat) (port : Option Nat) (desc : Nat) : Target :=
  match port with
  | some p => match s.portRing x.wp p with | some r => .ring r false | none => .code 49
  | none =>
    match s.ringAt x.wp.die (s.ctxOf x.wp) desc with
    | .held r => .ring r false
    | .fresh r => .ring r true
    | .broken => .code 48
    | .bad g c v e va => .bad (l, va, .bad g c v e)

/-- One instance of a ring word: its lane, ring, producer, address, and what its range translated to. -/
structure RingOp where
  lane : Nat
  ring : Ring
  prod : Nat
  va   : Nat
  ts   : List Tried
  deriving DecidableEq, Repr

/-- Rings that the lanes of a word name first have each a number of its own. -/
def State.number (s : State) (all : List (Nat × Target)) : List (Nat × Target) :=
  let keys := (all.filterMap fun e => match e.2 with | .ring r true => some r.key | _ => none).eraseDups
  all.map fun e => match e.2 with
    | .ring r true => (e.1, .ring { r with id := s.nextId + keys.idxOf r.key } true)
    | t => (e.1, t)

/-- The lowest of the codes 48 to 50 of a pushing instance. -/
def pushCode (port : Bool) (r : Ring) (prod : Nat) : Option Nat :=
  if !port && r.stageOut then some 49 else if r.prod ≤ prod || r.doneBy.contains prod then some 50 else none

/-- The codes of the instances that fail: by their ring and producer, and of two markers of one producer in one word the later (R313). -/
def ringCodes (all : List (Nat × Target)) (marker : Bool) (prod : Nat → Nat) (codeOf : Ring → Nat → Option Nat) : List (Nat × Nat) :=
  (all.foldl (fun (acc : List (Nat × Nat) × List (Nat × Nat)) e =>
    match e.2 with
    | .code c => (acc.1 ++ [(e.1, c)], acc.2)
    | .ring g _ =>
      match codeOf g (prod e.1) with
      | some c => (acc.1 ++ [(e.1, c)], acc.2)
      | none =>
        if marker && acc.2.contains (g.key, prod e.1) then (acc.1 ++ [(e.1, 50)], acc.2) else (acc.1, acc.2 ++ [(g.key, prod e.1)])
    | .bad _ => acc) ([], [])).1

/-- A ring word: instances that fail a check trap or park, the others go on in one engine step, in ascending lane order, once the
lanes' earlier accesses have performed at `dev` scope. -/
def State.ringWord (s : State) (i : Instr) (port : Option Nat) (r : Reg) (kind : Nat) (want : Want) (ctr : Option (Fin 8))
    (release marker : Bool) (prod va : Iss → Nat → Nat) (bytes : Ring → Nat) (codeOf : Ring → Nat → Option Nat)
    (busy : State → Iss → RingOp → Bool) (step : State → Iss → Nat → RingOp → State) : Res :=
  s.atIssue i fun x =>
    let unif := uniform x.w64 i
    let ls := x.acts i
    let one := fun (l : Nat) => (l, s.target x l port (x.rd l r 2))
    let all := s.number (ls.map one)
    let codes := ringCodes all marker (prod x) codeOf
    let ops := all.filterMap fun e =>
      match e.2 with
      | .ring g _ => if (codes.lookup e.1).isSome then none
        else some (RingOp.mk e.1 g (prod x e.1) (va x e.1) (if bytes g == 0 then [] else s.tryRange x e.1 want (va x e.1) (bytes g)))
      | _ => none
    let fails := (all.filterMap fun e => match e.2 with | .bad t => some t | _ => none) ++ ops.flatMap fun o => firstBad o.ts
    let good := ops.filter fun o => (firstBad o.ts).isEmpty
    let miss := ops.flatMap fun o => missing o.ts
    let fresh := ((good.map fun o => o.ring.key).eraseDups).filter fun k => !(s.rings.any fun r => r.key == k)
    let m := if unif && !codes.isEmpty then x.part else maskOf (codes.map fun e => e.1)
    if !miss.isEmpty then (miss.foldl (fun s va => s.queueWalk x.w va) s).waitIssue x
    else if release && !ls.isEmpty && !s.gateOpen (s.ownerOf x.wp) x.wp.seq .dev then s.waitIssue x
    else if (good.any fun o => busy s x o) || (0 < fresh.length && 1024 < s.rings.length + fresh.length) then s.waitIssue x
    else
      let s := s.memTrapsAnd x.w kind x.addr (some x.cl.addr) m
        (fun l => engCause (opOf x.word) ((if unif then (codes.head?).map fun e => e.2 else codes.lookup l).getD 0)) (failing x unif fails)
      let s := good.foldl (fun s o => s.holdRing o.ring) s
      let grp := s.nextId
      let s := { s with nextId := grp + 1 }.modWarp x.w fun w => w.ctrAdd (if good.isEmpty then none else ctrNat ctr)
      ((good.foldl (fun s o => step s x grp o) s).wordDone x unif).partDone x.w grp (if good.isEmpty then none else ctrNat ctr)

/-- The source bytes of a push, as a device-scope read finds them. -/
def State.pushBytes (s : State) (x : Iss) (o : RingOp) : List Byte :=
  match locOf o.ts with
  | some off => s.windowBytes x.wp.blk off o.ring.size
  | none => (placesOf o.ring.size o.va o.ts).map fun p => s.viewByte p.tier p.pa p.key

/-- An element's bytes inside a copy's range wait for it (R102), and those of a line that an engine holds for that engine (R103). -/
def State.elementBusy (s : State) (write : Bool) (x : Iss) (o : RingOp) : Bool :=
  match locOf o.ts with
  | some off => s.rangeBlocks x.w x.wp.blk off o.ring.size write s.nextId
  | none => (placesOf o.ring.size o.va o.ts).any fun p => s.heldBy.any fun h => h.line == lineOf p.tier p.pa

/-- One instance of a push or of an end marker claims its position. -/
def State.pushOne (s : State) (x : Iss) (grp : Nat) (ctr : Option (Fin 8)) (port marker : Bool) (o : RingOp) : State :=
  let origin := if port then ((x.wp.lane? o.lane).map fun y => y.origin).getD 0
    else ((s.ring? o.ring.id).map fun r => r.w + r.claims.length).getD 0
  let s := if marker then s.modRing o.ring.id fun r => { r with doneBy := r.doneBy ++ [o.prod] } else s
  s.claim o.ring.id { marker := marker, producer := o.prod, origin := origin, data := if marker then [] else s.pushBytes x o, since := s.clk.ucyc,
                      bound := s.holdBound 6 (s.clsOf x.wp), grp := grp, warp := x.w, ctr := ctrNat ctr }

def State.linear (s : State) (x : Iss) : Nat := ((s.blkOf x.wp).map fun b => b.lin).getD 0

def noReg : Reg := .s 0

def execRpush (src : Reg) (x : CTail) (s : State) : Res :=
  s.ringWord (.rpush src x) (some 1) noReg 0 wantLoad x.ctr true false (fun w _ => s.linear w) (fun w l => w.rd l src 2) (fun r => r.size)
    (pushCode true) (State.elementBusy · false) fun s w grp o => s.pushOne w grp x.ctr true false o

def execRpushRing (r src n : Reg) (x : CTail) (s : State) : Res :=
  s.ringWord (.rpushRing r src n x) none r 0 wantLoad x.ctr true false (fun w l => w.rd1 l n) (fun w l => w.rd l src 2) (fun r => r.size)
    (pushCode false) (State.elementBusy · false) fun s w grp o => s.pushOne w grp x.ctr false false o

def execReos (x : CTail) (s : State) : Res :=
  s.ringWord (.reos x) (some 1) noReg 0 wantLoad x.ctr true true (fun w _ => s.linear w) (fun _ _ => 0) (fun _ => 0) (pushCode true)
    (fun _ _ _ => false) fun s w grp o => s.pushOne w grp x.ctr true true o

def execReosRing (r n : Reg) (x : CTail) (s : State) : Res :=
  s.ringWord (.reosRing r n x) none r 0 wantLoad x.ctr true true (fun w l => w.rd1 l n) (fun _ _ => 0) (fun _ => 0) (pushCode false)
    (fun _ _ _ => false) fun s w grp o => s.pushOne w grp x.ctr false true o

/-- A status that is known at once. -/
def State.popKnown (s : State) (x : Iss) (unif : Bool) (l : Nat) (st : Reg) (kind p : Nat) : State :=
  s.modWarp x.w fun w => { w with pend := w.pend ++ resN unif l st (kind + p % 2 ^ 32 * 2 ^ 32) s.clk.cyc 2 }

/-- One `rpop` instance takes its consumer's position; a spilled consumer that so reaches the retained range counts toward Free again
(R307, R312). -/
def State.popOneIssue (s : State) (x : Iss) (grp : Nat) (ctr : Option (Fin 8)) (st : Reg) (unif : Bool) (consumer : Option Nat)
    (o : RingOp) : State :=
  match (s.ring? o.ring.id).bind fun r => r.cons.find? fun c => c.stage == consumer with
  | none => s.popKnown x unif o.lane st 2 0
  | some c =>
    if c.detached || c.final then s.popKnown x unif o.lane st 2 c.cursor
    else if c.overrun == some c.cursor then
      (s.modCons o.ring.id consumer fun c => { c with final := true }).popKnown x unif o.lane st 3 c.cursor
    else
      let q : Pop := { id := s.nextId, stage := consumer, p := c.cursor, warp := x.w, blk := x.wp.blk,
                       mask := if unif then x.part else maskOf [o.lane], dst := placesOf o.ring.size o.va o.ts, loc := locOf o.ts,
                       size := o.ring.size, grp := grp, ctr := ctrNat ctr }
      let s := (s.modCons o.ring.id consumer fun c => { c with
        cursor := c.cursor + 1, spilled := c.spilled && (c.overrun.isSome || c.cursor + 1 < o.ring.low) }).modRing o.ring.id fun r =>
        { r with pops := r.pops ++ [q] }
      ({ s with nextId := s.nextId + 1 }.modWarp x.w fun w => { w with pend := w.pend ++ resTag unif o.lane st q.id 2 }).servePops o.ring.id

def State.stageOf (s : State) (w : Warp) : Option Nat := (s.launchOf w).bind fun l => l.stage

def execRpop (dst st : Reg) (x : CTail) (s : State) : Res :=
  let i := Instr.rpop dst st x
  s.ringWord i (some 0) noReg 1 wantStore x.ctr false false (fun _ _ => 0) (fun w l => w.rd l dst 2) (fun r => r.size) (fun _ _ => none)
    (State.elementBusy · true) fun s w grp o => s.popOneIssue w grp x.ctr st (uniform w.w64 i) (s.stageOf w.wp) o

/-- A ring-form `rpop` needs an external consumer (code 49). -/
def execRpopRing (r dst st : Reg) (x : CTail) (s : State) : Res :=
  let i := Instr.rpopRing r dst st x
  s.ringWord i none r 1 wantStore x.ctr false false (fun _ _ => 0) (fun w l => w.rd l dst 2) (fun r => r.size)
    (fun r _ => if r.ext then none else some 49) (State.elementBusy · true) fun s w grp o =>
      s.popOneIssue w grp x.ctr st (uniform w.w64 i) none o

/-- A stage whose launch has not completed, or that a pipeline uses. -/
def State.stageRuns (s : State) (x : Stage) : Bool :=
  !x.refs.isEmpty || ((s.launches[x.launch]?).map fun l => !(l.st == .signalled || l.st == .dead || l.st == .complete)).getD false

/-- RING_RELEASE: no bound pipeline and no running stage uses the ring, and every consumer has taken its final end or was removed (R298). -/
def execRingRelease (id : Nat) (s : State) : Res :=
  match s.ring? id with
  | none => .next s
  | some r =>
    let used := (s.stages.any fun x => s.stageRuns x && (x.inRing == id || x.out == id)) ||
      (s.pipes.any fun p => !p.ended && p.source == id)
    when (!used && !r.cons.isEmpty && (r.cons.all fun c => c.final || c.detached) && r.claims.isEmpty && r.pops.isEmpty &&
        r.poss.all fun x => x.published) s { s with rings := s.rings.filter fun x => x.id != id }

/-! ### References (R308, R315, R321, R322) -/

def State.modStage (s : State) (id : Nat) (f : Stage → Stage) : State :=
  { s with stages := s.stages.map fun x => if x.id == id then f x else x }
def State.modPipe (s : State) (id : Nat) (f : Pipe → Pipe) : State :=
  { s with pipes := s.pipes.map fun x => if x.id == id then f x else x }

/-- A stage runs at the lowest class of the pipelines that use it; a warp inside a clause takes it at the clause's end (R308). -/
def State.stageClass (s : State) (id : Nat) : State :=
  match s.stages.find? fun x => x.id == id with
  | none => s
  | some x =>
    match ((s.pipes.filter fun p => x.refs.contains p.id).map fun p => p.cls).min? with
    | none => s
    | some k =>
      let warps := s.warps.map fun (w : Warp) =>
        if ((s.blkOf w).map fun b => b.launch) == some x.launch && w.clause.isNone then { w with cls := k } else w
      { s with warps := warps }.modLaunch x.launch fun l => { l with cls := k }

/-- A stage loses a pipeline's reference; the last one takes its input consumer off its ring. -/
def State.dropRef (s : State) (pipe stage : Nat) : State :=
  match s.stages.find? fun x => x.id == stage with
  | none => s
  | some x =>
    if !x.refs.contains pipe then s
    else
      let s := s.modStage stage fun y => { y with refs := y.refs.filter fun p => p != pipe }
      if x.refs.all (· == pipe) then
        (s.modCons x.inRing (some stage) fun c => { c with detached := true }).servePops x.inRing
      else s.stageClass stage

/-- Every stage of a pipeline loses its reference. -/
def State.dropRefs (s : State) (p : Pipe) : State := p.stages.foldl (fun s k => s.dropRef p.id k) s

/-- Own stages all complete: the pipeline has ended; a detached one releases its handle (R315). -/
def State.pipesEnd (s : State) : State :=
  s.pipes.foldl (fun s p =>
    let past := (p.stages.drop p.depth).all fun k =>
      match (s.stages.find? fun x => x.id == k).bind fun x => s.launches[x.launch]? with
      | some l => l.st == .signalled || l.st == .dead || l.st == .complete
      | none => true
    if p.ended || !past then s
    else
      let s := s.dropRefs p
      if p.detached then { s with pipes := s.pipes.filter fun x => x.id != p.id } else s.modPipe p.id fun x => { x with ended := true }) s

/-- `punbind` of a pipeline (R315). -/
def State.unbind (s : State) (p : Pipe) : State :=
  if p.ended then { s with pipes := s.pipes.filter fun x => x.id != p.id }
  else (s.dropRefs p).modPipe p.id fun x => { x with detached := true }

def State.pipeAt (s : State) (c handle : Nat) : Option Pipe := s.pipes.find? fun p => p.ctx == c && p.handle == handle

def execPunbind (h : Reg) (x : CTail) (s : State) : Res :=
  s.atIssue (.punbind h x) fun w =>
    if w.part = 0 then s.wordDone w true
    else
      match s.pipeAt (s.ctxOf w.wp) (w.rd1 0 h) with
      | none => s.trapWord w w.part (fun _ => engCause (opOf w.word) 52) true
      | some p => (s.unbind p).wordDone w true

/-- A quad of registers that is known at once. -/
def pendQuad (d : Reg) (v : Nat) (now : Nat) : List Pend := pendN 0 d v now 4

def execPquery (d h q : Reg) (x : CTail) (s : State) : Res :=
  s.atIssue (.pquery d h q x) fun w =>
    if w.part = 0 then s.wordDone w true
    else
      let word := w.rd1 0 q
      match s.pipeAt (s.ctxOf w.wp) (w.rd1 0 h) with
      | none => s.trapWord w w.part (fun _ => engCause (opOf w.word) 52) true
      | some p =>
        if 2 < fld word 0 4 || p.stages.length ≤ fld word 4 4 || word / 256 != 0 then
          s.trapWord w w.part (fun _ => engCause (opOf w.word) 54) true
        else
          let stage := fun (k : Nat) => (p.stages[k]?).bind fun i => s.stages.find? fun (y : Stage) => y.id == i
          let v := match fld word 0 4 with
            | 0 =>
              let st := if p.ended then 2 else if p.detached then 1 else 0
              let refs := if p.depth == 0 then 0 else ((stage (p.depth - 1)).map fun y => y.refs.length).getD 0
              st + p.depth * 2 ^ 8 + p.stages.length * 2 ^ 16 + refs * 2 ^ 32 + p.join * 2 ^ 64
            | 1 =>
              match (stage (fld word 4 4)).bind fun y => s.ring? y.out with
              | some r => r.w + r.free * 2 ^ 64
              | none => 0
            | _ =>
              match (stage p.depth).bind fun y => (s.ring? y.inRing).bind fun r => r.cons.find? fun c => c.stage == some y.id with
              | some c => c.cursor + ((if c.spilled then 1 else 0) + (if c.overrun.isSome then 2 else 0)) * 2 ^ 64 +
                  c.spill.length * 2 ^ 96
              | none => 0
          s.retire w true (pendQuad d v s.clk.cyc) 0

/-! ### pbind (R301, R303, R305, R306, R314) -/

/-- A stage entry of a pipeline descriptor. -/
structure StageEntry where
  record : Nat
  code   : Nat
  consts : Nat
  count  : Nat
  out    : Nat
  deriving DecidableEq, Repr

/-- What a `pbind` has read: faults of codes 48, 51 and 53. -/
inductive BindFail where
  | code (c : Nat)
  | mem (code va : Nat)
  deriving DecidableEq, Repr

abbrev BindRead (α : Type) := Except BindFail α

/-- n bytes of the binding context, in pieces that stay inside a page. -/
def State.bindBytes (s : State) (die ctx va n : Nat) : BindRead (List Byte) :=
  match s.readVirt die ctx va n with
  | .ok bs => .ok bs
  | .error (_, k, _, _, a) => .error (.mem k a)

def stageEntry (bs : List Byte) : Option StageEntry :=
  let f := fun (off n : Nat) => leNat ((bs.drop off).take n)
  if f 8 8 % 8 == 0 && 16 ≤ f 8 8 && f 0x10 8 % 16 == 0 && f 0x18 8 ≤ 16 && leNat ((bs.drop 0x28).take 24) == 0 then
    some ⟨f 0 8, f 8 8, f 0x10 8, f 0x18 8, f 0x20 8⟩
  else none

/-- A stage's digest (R303), from its record's bytes. -/
def State.digest (s : State) (die ctx : Nat) (e : StageEntry) (rec : List Byte) : BindRead (BitVec 256) :=
  let r := parseRecord rec
  match s.bindBytes die ctx r.entry e.code with
  | .error x => .error x
  | .ok code =>
    let cs := (List.range e.count).foldl (fun (acc : BindRead (List Byte)) k =>
      match acc, s.bindBytes die ctx (e.consts + 16 * k) 16 with
      | .error x, _ => .error x
      | _, .error x => .error x
      | .ok ds, .ok b =>
        match s.bindBytes die ctx (leNat (b.take 8)) (leNat (b.drop 8)) with
        | .error x => .error x
        | .ok bs => .ok (ds ++ leBytes 32 (shake256 bs).toNat)) (.ok [])
    match cs with
    | .error x => .error x
    | .ok ds => .ok (shake256 (code ++ (rec.drop 0x20).take 64 ++ ds ++ (rec.drop 0x14).take 1 ++ (rec.drop 0x1C).take 4))

/-- A stage as a `pbind` reads it: its entry, its record's bytes and its digest. -/
structure StageRead where
  entry  : StageEntry
  bytes  : List Byte
  digest : BitVec 256
  deriving DecidableEq, Repr

/-- What a `pbind` reads before it chooses a depth. -/
structure BindInfo where
  start : Nat
  spill : Nat
  bytes : Nat
  src   : Ring
  stages : List StageRead
  deriving DecidableEq, Repr

def State.bindRing (s : State) (die ctx va : Nat) : BindRead Ring :=
  match s.ringAt die ctx va with
  | .held r | .fresh r => .ok r
  | .broken => .error (.code 48)
  | .bad _ k _ _ a => .error (.mem k a)

/-- The code that a failed read reports (R319). -/
def BindFail.num : BindFail → Nat
  | .code c => c
  | .mem _ _ => 53

def failOf {α : Type} : BindRead α → List BindFail
  | .error x => [x]
  | .ok _ => []

/-- The lowest of several codes; the first failing byte of those with code 53 (log 38). -/
def lowestFail : List BindFail → Option BindFail
  | [] => none
  | x :: xs =>
    match lowestFail xs with
    | none => some x
    | some y => if y.num < x.num then some y else some x

/-- A stage's output ring; that of the last stage has an external consumer (R301). -/
def State.bindOut (s : State) (die ctx n k : Nat) (e : StageEntry) : BindRead Ring :=
  match s.bindRing die ctx e.out with
  | .error x => .error x
  | .ok r => if k + 1 == n && !r.ext then .error (.code 51) else .ok { r with id := s.nextId + 1 + k }

/-- A stage's entry, its record and its digest. The last stage, which every pipeline keeps as its own, shows a bad output ring at once. -/
def State.bindStageAt (s : State) (die ctx p n k : Nat) : BindRead StageRead :=
  match s.bindBytes die ctx (p + 64 + 64 * k) 64 with
  | .error x => .error x
  | .ok b =>
    match stageEntry b with
    | none => .error (.code 51)
    | some e =>
      let out := if k + 1 == n then failOf (s.bindOut die ctx n k e) else []
      match s.bindBytes die ctx e.record 256 with
      | .error x => .error ((lowestFail (x :: out)).getD x)
      | .ok rec =>
        match s.digest die ctx e rec with
        | .error x => .error ((lowestFail (x :: out)).getD x)
        | .ok d => match lowestFail out with | some x => .error x | none => .ok ⟨e, rec, d⟩

def State.bindRead (s : State) (die ctx p : Nat) : BindRead BindInfo :=
  if p % 64 != 0 then .error (.code 51)
  else
    match s.bindBytes die ctx p 64 with
    | .error x => .error x
    | .ok h =>
      let f := fun (off : Nat) => leNat ((h.drop off).take 8)
      let n := f 0x10
      if n == 0 || 16 < n || f 0x18 % 64 != 0 || leNat ((h.drop 0x28).take 24) != 0 then .error (.code 51)
      else
        let src := s.bindRing die ctx (f 0)
        let found := (List.range n).map (s.bindStageAt die ctx p n)
        match lowestFail (failOf src ++ found.flatMap failOf), src with
        | some x, _ => .error x
        | none, .ok g => .ok ⟨f 8, f 0x18, f 0x20, g, found.filterMap fun r => r.toOption⟩
        | none, .error x => .error x

def State.domainOf (s : State) (c : Nat) : Nat := ((s.ctx? c).map fun x => x.sharedom.toNat % 2 ^ 16).getD 0

/-- Length of the common prefix of digests. -/
def common : List (BitVec 256) → List (BitVec 256) → Nat
  | a :: as, b :: bs => if a == b then 1 + common as bs else 0
  | _, _ => 0

/-- The running stages that a candidate shares from the source on (R305 items 1 and 2). -/
def State.shared (s : State) (ctx : Nat) (b : BindInfo) : List Stage :=
  let cands := s.pipes.filter fun p => !p.detached && !p.ended && s.domainOf ctx != 0 && s.domainOf p.ctx == s.domainOf ctx &&
    ((s.ring? p.source).map fun r => r.key) == some b.src.key
  let runs := cands.map fun p =>
    let st := p.stages.filterMap fun k => s.stages.find? fun (x : Stage) => x.id == k && !x.refs.isEmpty
    let n := min (common (st.map fun x => x.digest) (b.stages.map fun e => e.digest)) (b.stages.length - 1)
    st.take n
  runs.foldl (fun best r => if best.length < r.length then r else best) []

/-- The ring at a depth, whether Start allows it, and the join position (R305 items 4 and 5). -/
def State.depthAt (s : State) (b : BindInfo) (sh : List Stage) (d : Nat) : Option (Ring × Bool × Nat) :=
  match d with
  | 0 => some (b.src, b.src.low ≤ b.start, b.start)
  | k + 1 =>
    ((sh[k]?).bind fun x => s.ring? x.out).map fun r =>
      let j := (r.poss.find? fun x => !x.marker && r.low ≤ x.p && b.start ≤ x.origin).map fun x => x.p
      (r, (match r.left with | none => true | some o => o < b.start), j.getD r.w)

/-- The depth chosen, or the status of a failure (R305 item 6). -/
def State.chooseDepth (s : State) (b : BindInfo) (sh : List Stage) : Except Nat (Nat × Nat) :=
  let ds := (List.range (sh.length + 1)).filterMap fun d => (s.depthAt b sh d).map fun e => (d, e)
  match (ds.filter fun e => e.2.2.1 && e.2.1.seats < 16).getLast? with
  | some e => .ok (e.1, e.2.2.2)
  | none => if ds.any fun e => e.2.2.1 then .error 6 else .error 1

/-- The statuses judged on the stages from a depth on (R306, R314): status and cause. -/
def State.bindStatus (s : State) (ctx d : Nat) (src : Ring) (es : List (StageRead × Ring)) : List (Nat × Nat) :=
  let rs := es.map fun e => parseRecord e.1.bytes
  let named := src.key :: es.map fun e => e.2.key
  let fresh := es.length + (if d == 0 && !(s.rings.any fun r => r.key == src.key) then 1 else 0)
  (if 256 ≤ s.pipes.length || 1024 < s.rings.length + fresh then [(2, 0)] else []) ++
  (if rs.any fun r => 1024 < r.blocks then [(3, 0)] else []) ++
  (if rs.any fun r => 2 ≤ r.reliability then [(4, 0)] else []) ++
  ((es.filterMap fun e => (lowest (s.recordCauses ctx e.1.bytes ++ need (e.1.entry.record % 64 == 0) 10)).map fun c => (5, c)).take 1) ++
  (if es.any (fun e => s.rings.any fun r => r.key == e.2.key) || named.eraseDups.length != named.length then [(7, 0)] else [])

def lowestStatus (l : List (Nat × Nat)) : Option (Nat × Nat) := (sortOn l).head?

/-- A handle that no bound pipeline of the context has. -/
def pickHandle (used : List Nat) (h : Nat) : Nat :=
  if h != 0 && !used.contains h then h else (((List.range (used.length + 1)).map (· + 1)).find? fun k => !used.contains k).getD 1

/-- A stage is dispatched: its launch, its ring, and its consumer (R306). -/
def State.bindStage (s : State) (ctx cls pipe inRing cursor : Nat) (e : StageRead × Ring) : State × Nat :=
  let r := parseRecord e.1.bytes
  let id := s.nextId
  let out : Ring := { e.2 with prod := r.blocks, stageOut := true }
  let stage := Stage.mk id ctx s.launches.length e.1.digest [pipe] inRing out.id
  let s := { s with nextId := id + 1, rings := s.rings ++ [out], stages := s.stages ++ [stage] }
  let s := s.modRing inRing fun (g : Ring) => { g with cons := g.cons ++ [Consumer.mk (some id) cursor false none false false []] }
  (((s.addLaunch r e.1.entry.record ctx cls none (some id)).storeRing out.id).storeRing inRing, id)

/-- A bind that succeeds, in one engine step. -/
def State.bind (s : State) (ctx cls : Nat) (b : BindInfo) (es : List (StageRead × Ring)) (sh : List Stage) (d j : Nat) : State × Nat :=
  let pid := s.nextId + b.stages.length + 1
  let s := { s with nextId := pid + 1 }
  let s := if d == 0 then s.holdRing b.src else s
  let attach := if d == 0 then b.src.id else ((sh[d - 1]?).map fun x => x.out).getD b.src.id
  let size := ((s.ring? attach).map fun r => r.size).getD 64
  let s := (sh.take d).foldl (fun s x => s.modStage x.id fun y => { y with refs := y.refs ++ [pid] }) s
  let handle := pickHandle ((s.pipes.filter fun p => p.ctx == ctx).map fun p => p.handle) (2 * (Config.freeHandle s.free).toNat + 1)
  let r := es.foldl (fun (acc : State × Nat × List Nat × Nat) e =>
    let x := acc.1.bindStage ctx cls pid acc.2.1 acc.2.2.2 e
    (x.1, e.2.id, acc.2.2.1 ++ [x.2], 0)) ({ s with free := s.free + 1 }, attach, [], j)
  let src := if d == 0 then b.src.id else ((s.rings.find? fun r => r.key == b.src.key).map fun r => r.id).getD b.src.id
  let pipe : Pipe := { id := pid, handle := handle, ctx := ctx, depth := d, stages := (sh.take d).map (fun x => x.id) ++ r.2.2.1, source := src,
                       join := j, detached := false, ended := false, spillBase := b.spill, spillCap := b.bytes / size, cls := cls }
  let s := { r.1 with pipes := r.1.pipes ++ [pipe] }
  ((sh.take d).foldl (fun s x => s.stageClass x.id) s, handle)

def execPbind (d p : Reg) (x : CTail) (s : State) : Res :=
  s.atIssue (.pbind d p x) fun w =>
    let ctx := s.ctxOf w.wp
    if w.part = 0 then s.wordDone w true
    else if !s.gateOpen (s.ownerOf w.wp) w.wp.seq .dev then s.waitIssue w
    else
      let answer := fun (s : State) (h dep st cause j : Nat) =>
        s.retire w true (pendQuad d (h + (dep + st * 2 ^ 8 + cause * 2 ^ 16) * 2 ^ 32 + j * 2 ^ 64) s.clk.cyc) 0
      let fails := fun (x : BindFail) => match x with
        | .code c => (s.wordDone w true).addDue w.w ⟨w.part, 4, c, opOf w.word * 2 ^ 24, 0, 0, w.addr, none⟩
        | .mem c va => (s.wordDone w true).addDue w.w ⟨w.part, 4, 53, opOf w.word * 2 ^ 24 + c, va % 2 ^ 32, va / 2 ^ 32, w.addr, none⟩
      match s.bindRead w.wp.die ctx (w.rd (lowLane w.part) p 2) with
      | .error x => fails x
      | .ok b =>
        let sh := s.shared ctx b
        let choice := s.chooseDepth b sh
        let dep := match choice with | .ok (d, _) => d | .error _ => 0
        let outs := (b.stages.zipIdx.drop dep).map fun e => (e.1, s.bindOut w.wp.die ctx b.stages.length e.2 e.1.entry)
        match lowestFail (outs.flatMap fun e => failOf e.2) with
        | some x => fails x
        | none =>
          let es := outs.filterMap fun e => e.2.toOption.map fun r => (e.1, r)
          let st := s.bindStatus ctx dep b.src es
          match choice with
          | .error k =>
            let e := (lowestStatus ((k, 0) :: st)).getD (k, 0)
            answer s 0 0 e.1 e.2 0
          | .ok (_, j) =>
            match lowestStatus st with
            | some e => answer s 0 0 e.1 e.2 0
            | none =>
              let r := s.bind ctx (s.clsOf w.wp) b es sh dep j
              answer r.1 r.2 dep 0 0 j

end Sys2Proof.Machine
end

