-- ==== Sys2Proof/Machine/Retire.lean ====
section
/-! DEFINITION. How blocks and launches end (R193, R265, R290, R328, R345), fault-queue entries reach memory (R329, R330), the
reports of a pre-emption (R348), and tasks and waves (R292 to R296). -/

namespace Sys2Proof.Machine

open Sys2Proof.Forms

/-! ### The fault queue (R329, R330) -/

def FaultEntry.bytes (e : FaultEntry) : List Byte :=
  leBytes 8 (e.id + e.kind * 2 ^ 32 + e.grp * 2 ^ 40 + e.code * 2 ^ 48) ++ leBytes 8 e.va ++ leBytes 8 e.word ++
    leBytes 8 (e.core + e.slot % 256 * 2 ^ 16 + e.rows * 2 ^ 32) ++ leBytes 8 e.mask.toNat ++ leBytes 8 (e.d0 + e.d1 * 2 ^ 32) ++
    leBytes 8 (e.d2 % 2 ^ 32) ++ leBytes 8 e.recAddr ++ leBytes 8 e.lin ++ leBytes 56 0

/-! ### Signals (R290, R342) -/

/-- A 64-bit signal is written, or one entry of kind 5 says that it was not. -/
def State.signal (s : State) (ctx addr : Nat) (val : DWord) (recAddr lin : Nat) : State :=
  if addr == 0 then s
  else
    let die := s.ctxDie ctx
    let failed := fun (g c l e : Nat) =>
      let k := accCause g c l 1 addr e
      s.post ctx { id := 0, kind := 5, grp := g, code := c, va := addr, word := 0, rows := 0, slot := 0, core := 0, mask := 0, d0 := k.d0,
                   d1 := k.d1, d2 := k.d2, recAddr := recAddr, lin := lin }
    if inWindow addr then failed 3 10 7 0
    else if addr < 2 ^ 57 && addr % 8 != 0 then failed 3 12 7 0
    else
      match s.xlateUnit die ctx wantStore addr with
      | .error (g, c, l, e) => failed g c l e
      | .ok _ => s.writeVirt die ctx addr (leBytes 8 val.toNat)

/-- The tier of a signal address, for its scope. -/
def State.signalScope (s : State) (ctx addr : Nat) : Scope :=
  match s.xlateUnit (s.ctxDie ctx) ctx wantStore addr with
  | .ok p => if p.tier == 2 then .sys else .dev
  | .error _ => .dev

/-! ### Reports (R348) -/

def State.modPre (s : State) (op : Nat) (f : Preempt → Preempt) : State :=
  { s with preempts := s.preempts.map fun p => if p.id == op then f p else p }

def State.pre? (s : State) (op : Nat) : Option Preempt := s.preempts.find? fun p => p.id == op

/-- The pre-emption that has a claim on a block. -/
def PreSt.op : PreSt → Option Nat
  | .none => Option.none
  | .stopAtBarrier o _ | .choose o | .drain o _ | .save o | .saveAtBarrier o | .flush o _ => some o

/-- An outcome that would come, in one reference tick, after that of a block later in the order of dispatch and index comes with the next
tick (R348). -/
def State.outcomeAt (s : State) (p : Preempt) (b : Block) : State :=
  match p.last with
  | some (t, l, k) => if t == s.clk.tick && (b.launch < l || (b.launch == l && b.lin < k)) then s.advance (s.clk.untilT (t + 1)) else s
  | none => s

/-- A block's outcome: its report entry, and the descriptor's count; when the report is full the remaining blocks are left alone, and one that had
stopped at a barrier goes on. -/
def State.report (s : State) (op blk outcome info : Nat) : State :=
  match s.pre? op, s.blocks[blk]? with
  | some p, some b =>
    let s := s.outcomeAt p b
    let rec_ := ((s.launches[b.launch]?).map fun l => l.recAddr).getD 0
    let die := s.ctxDie p.ctx
    let s := s.writeVirt die p.ctx (p.report + 32 * p.count)
      (leBytes 8 rec_ ++ leBytes 8 (outcome * 2 ^ 32 + info * 2 ^ 36) ++ leBytes 8 b.lin ++ leBytes 8 0)
    let s := s.writeVirt die p.ctx (p.desc + 0x24) (leBytes 4 (p.count + 1))
    let left := p.todo.filter fun k => k != blk
    let full := p.cap ≤ p.count + 1
    let s := s.modPre op fun x => { x with count := x.count + 1, todo := (if full then [] else left), last := some (s.clk.tick, b.launch, b.lin) }
    if full then left.foldl (fun s k => (s.modBlk k fun x => { x with pre := if x.pre.op == some op then .none else x.pre }).bsyncFix k) s else s
  | _, _ => s

/-! ### Retirement (R193, R290) -/

def State.warpsOf (s : State) (blk : Nat) : List (Nat × Warp) :=
  (s.warps.zipIdx.filter fun e => e.1.blk == blk && !e.1.ended).map fun e => (e.2, e.1)

/-- No request, command or multicast read of a block is under way. -/
def State.workDone (s : State) (blk : Nat) : Bool :=
  !(s.reqs.any fun r => ((s.warps[r.warp]?).map fun w => w.blk) == some blk) && !(s.copies.any fun c => c.blk == blk) &&
    !(s.mx.any fun c => c.blk == blk) && (s.mcasts.all fun m => m.blk != blk || m.read)

/-- A matrix fault that no `mwait` reported becomes the launch's fault record (R188, R328), but not of a block that `halt` ended, or a rollback (R340,
R385). -/
def State.reportMx (s : State) (blk : Nat) : State :=
  match s.blocks[blk]?, (s.warpsOf blk).head? with
  | some b, some (_, w) =>
    let dead := b.dropped || ((s.launches[b.launch]?).map fun l => l.st == .dead).getD false
    match b.mxCause (b.batch + 1), b.faults.head? with
    | some c, some f => if dead then s else s.post (s.ctxOf w) (s.entryOf w 3 (c.d1 + c.d2 * 2 ^ 32) f.word 0 0 c)
    | _, _ => s
  | _, _ => s

/-- BLOCK_RETIRE: every lane has exited and every command has finished. -/
def execBlockRetire (blk : Nat) (s : State) : Res :=
  match s.blocks[blk]? with
  | none => .next s
  | some b =>
    let s1 := if b.st == .ending then ((s.takeBlock blk).endLanes blk).dropWork blk else s
    let past := ((s1.warpsOf blk).all fun e => e.2.allExited && e.2.clause.isNone && e.2.due.isEmpty) && s1.workDone blk
    if !((b.st == .running || b.st == .ending) && past) then .next s
    else
      let s := s1.reportMx blk
      let s := match b.pre with
        | .stopAtBarrier op _ | .drain op _ => s.report op blk 0 0
        | .choose op | .save op | .saveAtBarrier op | .flush op _ => s.report op blk 4 0
        | .none => s
      let s := s.modLaunch b.launch fun l =>
        if b.dropped then l
        else if b.wave == 0 then { l with retired := l.retired + 1, lives := ((s.clk.tick - b.placed) :: l.lives).take 16 }
        else { l with tasks := l.tasks - b.wave }
      let s := (s.modBlk blk fun x => { x with st := .retired, pre := .none })
      let s := { s with warps := s.warps.map fun (w : Warp) => if w.blk == blk then { w with ended := true, hold := [] } else w }
      let ctx := ((s.launches[b.launch]?).map fun l => l.ctx).getD 0
      .next (b.cores.foldl State.reenter (s.returnCarves b.launch ctx b.cores))

/-- LAUNCH_COMPLETE: the completion counter equals the grid size and no task is left. -/
def execLaunchComplete (li : Nat) (s : State) : Res :=
  match s.launches[li]? with
  | none => .next s
  | some l =>
    when (l.st == .placed && l.retired == l.info.blocks && l.tasks == 0) s
      ((s.ccDropOf (· == li)).modLaunch li fun x => { x with st := .complete }).pipesEnd

/-- LAUNCH_SIGNAL: once every access of every warp of the launch has performed at the signal's scope. -/
def execLaunchSignal (li : Nat) (s : State) : Res :=
  match s.launches[li]? with
  | none => .next s
  | some l =>
    let sc := if l.info.sigAddr == 0 then .dev else s.signalScope l.ctx l.info.sigAddr
    let mine := fun (w : Nat) => ((s.warps[w]?).bind fun x => (s.blocks[x.blk]?).map fun b => b.launch) == some li
    let clear := (s.reqs.all fun r => !mine r.warp || r.performedAt sc) &&
      (sc != .sys || (s.warps.zipIdx.all fun e => !mine e.2 || (s.ownerOf e.1 :: e.1.was).all s.drained))
    when (l.st == .complete && clear && !s.unitHeld (s.ctxDie l.ctx) l.ctx l.info.sigAddr 8) s
      ((s.signal l.ctx l.info.sigAddr l.info.sigVal l.recAddr 0).modLaunch li fun x => { x with st := .signalled, snaps := [], rollback := false })

/-! ### Tasks (R292 to R296) -/

/-- A task ring's number of records, none where TASKRING disables it (R294). -/
def Context.ringSize (c : Context) : Option Nat :=
  let n := fld c.taskring.toNat 0 5
  if 6 ≤ n && n ≤ 20 then some (2 ^ n) else none

def State.queueDepth (s : State) (die cluster : Nat) : Nat := (s.tasks.filter fun t => t.die == die && t.cluster == cluster).length

def Task.bytes (t : Task) : List Byte :=
  leBytes 8 t.entry ++ t.args.flatMap (fun (a : Word) => leBytes 4 a.toNat) ++ leBytes 4 t.num ++ leBytes 4 t.launch ++ leBytes 24 0

/-- Records appended at a context's ring. -/
def State.ringPut (s : State) (ctx base n : Nat) (ts : List Task) : State :=
  ts.foldl (fun s t =>
    let tail := ((s.ctx? ctx).map fun c => c.ringTail).getD 0
    (s.writeVirt (s.ctxDie ctx) ctx (base + 64 * (tail % n)) t.bytes).modCtx ctx fun c => { c with ringTail := c.ringTail + 1 }) s

/-- `spawn` (R293): all offers of a word enter the cluster's queue, or the context's ring, or none of them. -/
def execSpawn (e args : Reg) (x : CTail) (s : State) : Res :=
  let i := Instr.spawn e args x
  s.atIssue i fun w =>
    let unif := uniform w.w64 i
    let ls := w.acts i
    let entry := fun (l : Nat) => w.rd l e 2
    let bad := ls.filter fun l => entry l % 8 != 0 || 2 ^ 48 ≤ entry l
    let offers := ls.filter fun l => !bad.contains l
    let ctx := s.ctxOf w.wp
    let li := ((s.blkOf w.wp).map fun b => b.launch).getD 0
    let mask := fun (ls : List Nat) => if unif then (if ls.isEmpty then 0 else w.part) else maskOf ls
    if !offers.isEmpty && !s.gateOpen (s.ownerOf w.wp) w.wp.seq .dev then s.waitIssue w
    else
      match s.ctx? ctx with
      | none => s
      | some c =>
        let k := offers.length
        let queue := s.queueDepth w.wp.die w.wp.cluster + k ≤ 4096
        let ringFree := (c.ringSize).map fun n => n - (c.ringTail - c.ringHead)
        let task := fun (e : Nat × Nat) => Task.mk (entry e.1) ((List.range 6).map fun j => w.wp.reg e.1 args j) ((c.taskCount + e.2) % 2 ^ 32)
          li w.wp.die w.wp.cluster
        let ts := offers.zipIdx.map task
        let count := fun (s : State) => (s.modCtx ctx fun x => { x with taskCount := (x.taskCount + k) % 2 ^ 32 }).modLaunch li fun l =>
          { l with tasks := l.tasks + k }
        let traps := fun (s : State) (full : Bool) => s.trapHere w (if full then mask ls else mask bad) fun l =>
          engCause (opOf w.word) (if bad.contains l || (unif && !bad.isEmpty) then 40 else 41)
        if offers.isEmpty then (traps s false).wordDone w unif
        else if queue then (count { traps s false with tasks := s.tasks ++ ts }).wordDone w unif
        else
          match c.ringSize, ringFree with
          | some n, some f =>
            if k ≤ f then (count ((traps s false).ringPut ctx (fld c.taskring.toNat 12 45 * 4096) n ts)).wordDone w unif else s.waitIssue w
          | _, _ => (traps s true).wordDone w unif

/-- TASK_RING_REFILL: the oldest ring record moves into a cluster queue of the context's partition (R294). -/
def execTaskRingRefill (ctx die cluster : Nat) (s : State) : Res :=
  match s.ctx? ctx with
  | none => .next s
  | some c =>
    match c.ringSize with
    | none => .next s
    | some n =>
      if c.ringTail ≤ c.ringHead || 4096 ≤ s.queueDepth die cluster || !(s.ctxClusters ctx).contains (die, cluster) then .next s
      else
        let s := s.modCtx ctx fun x => { x with ringHead := x.ringHead + 1 }
        match (s.readPiece (s.ctxDie ctx) ctx (fld c.taskring.toNat 12 45 * 4096 + 64 * (c.ringHead % n)) 64).toOption with
        | none => .next s
        | some bs =>
          let f := fun (o k : Nat) => leNat ((bs.drop o).take k)
          let li := f 36 4
          let mine := ((s.launches[li]?).map fun l => l.ctx == ctx && l.st != .dead).getD false
          when mine s { s with tasks := s.tasks ++
            [Task.mk (f 0 8) ((List.range 6).map fun j => BitVec.ofNat 32 (f (8 + 4 * j) 4)) (f 32 4) li die cluster] }

/-- The width of a wave (R295). -/
def Record.waveWidth (r : Record) : Nat :=
  if r.need 1 32 ≤ r.regShare then 32 else if r.need 1 16 ≤ r.regShare then 16 else 8

/-- WAVE_START: the oldest task of a cluster's queue and further ones like it start as a one-warp block. -/
def execWaveStart (die cluster core part : Nat) (s : State) : Res :=
  let q := s.tasks.filter fun t => t.die == die && t.cluster == cluster
  match q with
  | [] => .next s
  | t :: _ =>
    match s.launches[t.launch]? with
    | none => .next s
    | some l =>
      let v := l.info.waveWidth
      let like := fun (x : Task) => x.entry == t.entry && x.launch == t.launch
      let ts := (q.filter like).take v
      if !s.opened || core / 8 != die * 8 + cluster then .next s
      else
        let regs := ts.zipIdx.flatMap fun e =>
          (e.1.args ++ [BitVec.ofNat 32 e.1.num]).zipIdx.map fun (a : Word × Nat) => (e.2 * 512 + a.2, a.1)
        let b := s.newBlock t.launch 0 ts.length t.entry (regs.foldl (fun m e => mset e.1 e.2 0 m) []) v l.ctx [core]
        let blk := s.blocks.length
        match s.placeBlock t.launch l b 1 [part] fun _ core part slot =>
            { l.warp blk 0 0 core part slot v ts.length t.entry with v := b.args } with
        | none => .next s
        | some s' =>
          let r := s'.tasks.foldl (fun (acc : List Task × Nat) x =>
            if acc.2 < ts.length && x.die == die && x.cluster == cluster && like x then (acc.1, acc.2 + 1) else (acc.1 ++ [x], acc.2)) ([], 0)
          .next ({ s' with tasks := r.1 }.startSlice l.ctx)

/-- The clusters a cluster compares depths with: its two neighbours, and across the die's link (R12, R13, R296). -/
def neighbours (die cluster : Nat) : List (Nat × Nat) :=
  [(die, (cluster + 1) % 8), (die, (cluster + 7) % 8)] ++
    (if cluster == 0 then [(die ^^^ 1, 0)] else if cluster == 4 then [(die ^^^ 2, 4)] else [])

/-- The last k tasks of a cluster go to another. -/
def moveTasks (die cluster d2 c2 k : Nat) (ts : List Task) : List Task :=
  let n := (ts.filter fun t => t.die == die && t.cluster == cluster).length
  let r := ts.foldl (fun (acc : List Task × List Task × Nat) t =>
    if t.die == die && t.cluster == cluster then
      if n ≤ acc.2.2 + k then (acc.1, acc.2.1 ++ [{ t with die := d2, cluster := c2 }], acc.2.2 + 1)
      else (acc.1 ++ [t], acc.2.1, acc.2.2 + 1)
    else (acc.1 ++ [t], acc.2.1, acc.2.2)) ([], [], 0)
  r.1 ++ r.2.1

/-- The depths that the clusters exchange in the running 256 uncore cycles: those of the first exchange in them. -/
def State.exchanged (s : State) : List Nat :=
  if s.depths.1 == s.clk.ucyc / 256 && !s.depths.2.isEmpty then s.depths.2
  else (List.range 32).map fun k => s.queueDepth (k / 8) (k % 8)

/-- TASK_BALANCE: once in every 256 uncore cycles a cluster moves its youngest tasks to neighbours of its partition with fewer (R296), as many as
the neighbour's queue takes (R17). -/
def execTaskBalance (die cluster : Nat) (s : State) : Res :=
  let k := die * 8 + cluster
  let s := if (s.balanced.lookup k).getD 0 < s.clk.ucyc / 256 then s else s.advance (s.clk.untilU ((s.clk.ucyc / 256 + 1) * 256))
  let ds := s.exchanged
  let s := { s with balanced := mput k (s.clk.ucyc / 256) s.balanced, depths := (s.clk.ucyc / 256, ds) }
  let own := ds.getD k 0
  .next ((neighbours die cluster).foldl (fun s e =>
    let other := ds.getD (e.1 * 8 + e.2) 0
    if (s.diesWith die).contains e.1 && other < own then
      { s with tasks := moveTasks die cluster e.1 e.2 (min (min 64 ((own - other) / 4)) (4096 - s.queueDepth e.1 e.2)) s.tasks }
    else s) s)

end Sys2Proof.Machine
end

