-- ==== Sys2Proof/Machine/Preempt.lean ====
section
/-! DEFINITION. Pre-emption: descriptors and outcomes (R342 to R345), saves, flushes and images (R222, R346, R347, R350), restores
(R344, R351, R355), time slices (R380), `resume` (R337) and `halt` (R340). -/

namespace Sys2Proof.Machine

open Sys2Proof.Forms

/-! ### Privileged words (R341) -/

/-- The detail of a privilege fault: selector and opcode (R325). -/
def privCause (code sel : Nat) (w : DWord) : Cause := ⟨7, code, sel * 2 ^ 8 + opOf w, 0, 0⟩

/-- A word that level U may not use: code 1 there; at level S it acts once its predicate selects a lane (R32). -/
def State.privWord (s : State) (i : Instr) (k : Iss → State) : Res :=
  s.atIssue i fun x =>
    if x.part = 0 then s.wordDone x true
    else if !s.levelS (s.ctxOf x.wp) then s.trapWord x x.part (fun _ => privCause 1 0 x.word) true
    else k x

/-- Every earlier access of the issuing warp has performed at `dev` scope (R334, R337, R396). -/
def State.devClear (s : State) (x : Iss) : Bool := s.gateOpen (s.ownerOf x.wp) x.wp.seq .dev

/-! ### Idempotent regions and live tables (R344, R346) -/

/-- The regions of a table; unreadable or malformed, it counts as empty. -/
def State.regions (s : State) (ctx ptr : Nat) : List (Nat × Nat) :=
  let die := s.ctxDie ctx
  match s.readVirt die ctx ptr 16 with
  | .error _ => []
  | .ok h =>
    let n := leNat (h.take 2)
    if 256 < n || leNat (h.drop 2) != 0 then []
    else
      match s.readVirt die ctx (ptr + 16) (16 * n) with
      | .error _ => []
      | .ok bs =>
        let rs := (List.range n).map fun k => (leNat ((bs.drop (16 * k)).take 8), leNat ((bs.drop (16 * k + 8)).take 8))
        if rs.all fun r => r.1 % 8 == 0 && r.2 % 8 == 0 then rs else []

/-- The region in which a block stands: no lane has exited and every lane's pc lies within it (R344). -/
def State.regionOf (s : State) (blk : Nat) : Option Nat :=
  match (s.blocks[blk]?).bind fun b => s.launches[b.launch]? with
  | none => none
  | some l =>
    if fld l.info.flags.toNat 0 1 == 0 then none
    else
      let lanes := (s.warpsOf blk).flatMap fun e => e.2.lanes
      if lanes.isEmpty || lanes.any fun x => x.st == .exited then none
      else (s.regions l.ctx l.info.regions).findIdx? fun r => lanes.all fun x => r.1 ≤ x.pc && x.pc < r.2

/-- An entry of the live table. -/
structure Live where
  word   : Nat
  v      : Nat
  s      : Nat
  sets   : Nat
  ranges : List (Nat × Nat)
  deriving DecidableEq, Repr

def State.liveTable (s : State) (ctx ptr : Nat) : List Live :=
  let die := s.ctxDie ctx
  match s.readVirt die ctx ptr 64 with
  | .error _ => []
  | .ok h =>
    let n := leNat (h.take 2)
    if 256 < n || leNat (h.drop 2) != 0 then []
    else
      match s.readVirt die ctx (ptr + 64) (64 * n) with
      | .error _ => []
      | .ok bs =>
        let es := (List.range n).map fun k =>
          let f := fun (o c : Nat) => leNat ((bs.drop (64 * k + o)).take c)
          (f 0x18 8, Live.mk (f 0 8) (f 8 8) (f 0x10 8) (f 0x18 8) ((List.range 4).map fun j => (f (0x20 + 8 * j) 4, f (0x24 + 8 * j) 4)))
        if es.all fun e => e.1 < 4096 then es.map fun e => e.2 else []

/-- The drain estimate of a block (R345): none without a retired block of its launch. -/
def State.estimate (s : State) (blk : Nat) : Option Nat :=
  match s.blocks[blk]? with
  | none => none
  | some b =>
    match s.launches[b.launch]? with
    | none => none
    | some l => if l.lives.isEmpty then none else some (l.lives.sum / l.lives.length - (s.clk.tick - b.placed))

/-! ### Outcomes (R343) -/

def State.setPre (s : State) (blk : Nat) (p : PreSt) : State := s.modBlk blk fun x => { x with pre := p }

/-- Flush, drain or save of a block that stands at its clause boundaries. -/
def State.adaptive (s : State) (op blk : Nat) (flush : Bool) : State :=
  match (if flush then s.regionOf blk else none) with
  | some r => s.setPre blk (.flush op r)
  | none =>
    match s.estimate blk with
    | some e => s.setPre blk (if e < s.drainbud.toNat then .drain op s.clk.tick else .save op)
    | none => s.setPre blk (.save op)

/-- Blocks of a context placed on the selected dies, in the order of their launches' dispatch and of their index. -/
def State.targets (s : State) (ctx dies : Nat) : List Nat :=
  let bs := (s.blocks.zipIdx.filter fun e => (e.1.st == .running || (e.1.st == .ending && !e.1.cores.isEmpty)) && dies.testBit (e.1.cores.headD 0 / 64) &&
    ((s.launches[e.1.launch]?).map fun l => l.ctx) == some ctx).map fun e => (e.1.launch * 2 ^ 64 + e.1.lin, e.2)
  (sortOn bs).map fun e => e.2

/-- A descriptor's fields (R342). -/
structure PreDesc where
  target : Nat
  mode   : Nat
  dies   : Nat
  area   : Nat
  size   : Nat
  report : Nat
  cap    : Nat
  count  : Nat
  sig    : Nat
  val    : DWord
  good   : Bool
  deriving DecidableEq, Repr

def preDesc (bs : List Byte) : PreDesc :=
  let f := fun (o n : Nat) => leNat ((bs.drop o).take n)
  let h := f 0 8
  { target := fld h 0 16, mode := fld h 16 2, dies := fld h 20 4, area := f 8 8, size := f 0x10 8, report := f 0x18 8, cap := f 0x20 4,
    count := f 0x24 4, sig := f 0x28 8, val := BitVec.ofNat 64 (f 0x30 8),
    good := fld h 18 2 == 0 && h / 2 ^ 24 == 0 && f 8 8 % 4096 == 0 && f 0x18 8 % 32 == 0 && f 0x28 8 % 8 == 0 && f 0x38 8 == 0 }

/-- The report entries that a restore handles: index, outcome, information, record, linear index. -/
structure Entry where
  idx  : Nat
  out  : Nat
  info : Nat
  rec_ : Nat
  lin  : Nat
  deriving DecidableEq, Repr

def State.entryAt (s : State) (ctx report k : Nat) : Option Entry :=
  ((s.readPiece (s.ctxDie ctx) ctx (report + 32 * k) 32).toOption).map fun bs =>
    let f := fun (o : Nat) => leNat ((bs.drop o).take 8)
    ⟨k, fld (f 8) 32 4, f 8 / 2 ^ 36, f 0, f 0x10⟩

/-- The launch that an entry's record address names, in a context. -/
def State.launchAt (s : State) (ctx rec_ lin : Nat) : Option Nat :=
  (s.launches.zipIdx.find? fun e => e.1.ctx == ctx && e.1.recAddr == rec_ &&
    s.blocks.any fun b => b.launch == e.2 && b.lin == lin && b.st == .saved).map fun e => e.2

/-- The order in which a restore handles its entries: by class, then as reported (R351). -/
def State.restoreOrder (s : State) (d : PreDesc) (ctx : Nat) : List Nat :=
  let es := (List.range (min d.count d.cap)).filterMap fun k => (s.entryAt ctx d.report k).bind fun e =>
    if e.out == 1 || e.out == 2 || e.out == 3 then
      some ((((s.launchAt d.target e.rec_ e.lin).bind fun l => s.launches[l]?).map fun l => l.cls).getD 3, k)
    else none
  (sortOn es).map fun e => e.2

/-- A pre-emption begins, for the issuing context or for a slice (R342, R380): the descriptor's count starts from 0 in the modes that report. -/
def State.startPre (s : State) (ctx desc : Nat) (d : PreDesc) (slice : Option Nat) : State :=
  let op := s.nextId
  let ts := if d.mode == 3 then s.restoreOrder d ctx else if d.cap == 0 then [] else s.targets d.target d.dies
  let p : Preempt := { id := op, ctx := ctx, target := d.target, mode := d.mode, dies := d.dies, area := d.area, size := d.size, used := 0,
                       desc := desc, report := d.report, cap := d.cap, count := 0, sigAddr := d.sig, sigVal := d.val,
                       start := s.clk.tick, todo := ts, done := false, slice := slice, last := none }
  let s := { s with nextId := op + 1, preempts := s.preempts ++ [p] }
  match d.mode with
  | 3 =>
    if ts.isEmpty then ((s.modPre op fun x => { x with done := true }).modCtx d.target fun c => { c with held := 0, begun := true, sliceFrom := some s.clk.tick }).placeFix
    else s
  | m =>
    let s := s.writeVirt (s.ctxDie ctx) ctx (desc + 0x24) (leBytes 4 0)
    let s := (s.modCtx d.target fun c => { c with held := c.held ||| d.dies }).placeFix
    ts.foldl (fun s b =>
      match m with
      | 0 => s.setPre b (.stopAtBarrier op s.clk.tick)
      | 1 => s.setPre b (.choose op)
      | _ => s.setPre b (.save op)) s

/-- `preempt`: its descriptor is read as a load of 64 bytes; a malformed one raises group 4 code 56. -/
def State.preemptWord (s : State) (i : Instr) (p : Reg) : Res :=
  s.privWord i fun x =>
    let va := x.rd (lowLane x.part) p 2
    let ts := s.tryLanes x [lowLane x.part] wantLoad 64 64 fun _ => va
    s.accessing x true 0 ts (s.acquiring (s.ownerOf x.wp) || ts.any (s.readWaits x 64)) fun t =>
      let bytes := match ts with
        | [(_, _, .ok q)] => some ((List.range 64).map fun k => s.loadByte x q (q.pa + k))
        | [(_, _, .loc o)] => some (s.windowBytes x.wp.blk o 64)
        | _ => none
      match bytes with
      | none => t.wordDone x true
      | some bs =>
        let d := preDesc bs
        if !d.good then t.trapWord x x.part (fun _ => engCause (opOf x.word) 56) true
        else (t.startPre (t.ctxOf x.wp) va d none).wordDone x true

def execPreemptSliceEnd (p : Reg) (x : Tail) (s : State) : Res := s.preemptWord (.preemptSliceEnd p x) p
def execPreemptAdaptive (p : Reg) (x : Tail) (s : State) : Res := s.preemptWord (.preemptAdaptive p x) p
def execPreemptSave (p : Reg) (x : Tail) (s : State) : Res := s.preemptWord (.preemptSave p x) p
def execPreemptRestore (p : Reg) (x : Tail) (s : State) : Res := s.preemptWord (.preemptRestore p x) p

/-- GRACE_EXPIRY: the barrier-stop window of a mode-0 operation has passed; the adaptive choice follows at each block's next clause
boundary. -/
def execGraceExpiry (op : Nat) (s : State) : Res :=
  match s.pre? op with
  | none => .next s
  | some p =>
    if p.mode != 0 then .next s
    else
      let s := s.advance (s.clk.untilT (p.start + s.grace.toNat + 1))
      .next (p.todo.foldl (fun s b =>
        match (s.blocks[b]?).map fun (x : Block) => x.pre with
        | some (.stopAtBarrier o _) => if o == op then s.setPre b (.choose op) else s
        | _ => s) s)

/-- DRAIN_BUDGET_EXPIRY: a draining block has not retired within its budget; it is saved. -/
def execDrainBudgetExpiry (op blk : Nat) (s : State) : Res :=
  match (s.blocks[blk]?).map fun (x : Block) => x.pre with
  | some (.drain o since) =>
    if o != op then .next s else .next ((s.advance (s.clk.untilT (since + s.drainbud.toNat))).setPre blk (.save op))
  | _ => .next s

/-! ### Saving (R222, R346, R347) -/

/-- A block's warps stand at clause boundaries, or are held at issue (R46). -/
def State.atBoundary (s : State) (blk : Nat) : Bool := (s.warpsOf blk).all fun e => (e.2.clause.map fun c => c.waits).getD true

/-- A block can be saved or flushed: its warps stand at clause boundaries, each entry has performed or bounced, and its multicasts
have read their sources. -/
def State.canSave (s : State) (blk : Nat) : Bool :=
  s.atBoundary blk &&
    (s.reqs.all fun r => ((s.warps[r.warp]?).map fun w => w.blk) != some blk ||
      (match r.st with | .held | .bounced | .range => true | _ => false)) &&
    (s.mcasts.all fun m => m.blk != blk || m.read) && !((s.warpsOf blk).all fun e => e.2.allExited)

/-- Bytes of a block's image: the device's own arrangement, a multiple of 4 KiB. -/
def imageSize (r : Record) (members : Nat) : Nat := (8256 + members * (r.regShare + r.spadShare) + r.tiles * 10240 + 4095) / 4096 * 4096

/-- The first 64 bytes of an image (R347). -/
def imageHead (l : Launch) (b : Block) (nw size kind id : Nat) : List Byte :=
  let r := l.info
  leBytes 8 (size + kind * 2 ^ 32) ++ leBytes 8 l.recAddr ++
    leBytes 8 ((if b.width == 8 then 0 else if b.width == 16 then 1 else if b.width == 32 then 2 else 3) * 2 ^ 32 +
      (b.cores.length - 1) * 2 ^ 34 + nw * 2 ^ 40) ++
    leBytes 8 (r.vcount + r.scount * 2 ^ 16 + r.tiles * 2 ^ 32 + l.ctx * 2 ^ 48) ++ leBytes 8 (r.regShare % 2 ^ 32 + r.spadShare * 2 ^ 32) ++
    leBytes 8 (Config.imageCheck ((List.range (size - 64)).map (Config.imageByte id))).toNat ++ leBytes 8 b.lin ++ leBytes 8 0

/-- The requests of a block's warps. -/
def State.isOf (s : State) (blk : Nat) (r : Req) : Bool := ((s.warps[r.warp]?).map fun w => w.blk) == some blk

/-- The multicasts that a block issued are its own no more: its counters fall, and what becomes of them is not seen by it (R350). -/
def State.orphanMcasts (s : State) (blk : Nat) : State :=
  let mine := s.mcasts.filter fun m => m.blk == blk && !m.orphan
  let t := { s with
    nextId := s.nextId + 1
    mcasts := s.mcasts.map fun (m : Mcast) => if m.blk == blk && !m.orphan then { m with orphan := true, ctr := none, grp := s.nextId } else m }
  ((mine.map fun m => (m.warp, m.grp, m.ctr)).eraseDups).foldl (fun t e => t.partDone e.1 e.2.1 e.2.2) t

/-- A receiver gets no more of the multicasts under way (R349). -/
def State.leaveMcasts (s : State) (blk : Nat) : State :=
  (s.mcasts.filter fun m => m.left.any fun e => e.1 == blk).foldl (fun s m =>
    (s.modMcast m.id fun x => { x with left := x.left.filter fun e => e.1 != blk }).mcastDone m.id) s

/-- Multicasts still have bytes for a block (R349). -/
def State.awaitsBeats (s : State) (blk : Nat) : Bool := s.mcasts.any fun m => m.left.any fun e => e.1 == blk

/-- The block leaves its cores: its entries and commands go into the image, its slots and carve-outs are free. -/
def State.takeOff (s : State) (blk op id size : Nat) (head : List Byte) : State :=
  match s.blocks[blk]? with
  | none => s
  | some b =>
    let mine := s.mx.filter fun c => c.blk == blk
    let copies := s.copies.filter fun c => c.blk == blk
    let image : Image := {
      id := id, op := op, head := head, size := size, blk := blk, reqs := s.reqs.filter (s.isOf blk)
      copies := copies.map fun (c : Copy) =>
        { c with win := c.doneMark, waitFrom := none, st := match c.st with | .running _ => .queued | x => x }
      mx := mine.map fun (c : MxCmd) => match c.st with | .running _ => { c with st := .running 1, stopped := true, waitFrom := none } | _ => c }
    let ctx := ((s.launches[b.launch]?).map fun l => l.ctx).getD 0
    let s := { s with
      images := s.images ++ [image], reqs := s.reqs.filter (fun (r : Req) => !s.isOf blk r), copies := s.copies.filter (fun (c : Copy) => c.blk != blk),
      mx := s.mx.filter (fun (c : MxCmd) => c.blk != blk), walks := s.walks.filter (fun (k : Walk) => (k.warp.bind fun w => (s.warps[w]?).map fun (x : Warp) => x.blk) != some blk),
      heldBy := s.heldBy.filter fun (h : HeldLine) =>
        match h.eng with
        | .copy _ k => !(copies.any fun c => c.id == k)
        | .matrix _ k => !(mine.any fun c => c.id == k)
        | .move _ | .link => true }
    let s := (s.orphanMcasts blk).modBlk blk fun x => { x with st := .saved }
    let off := fun (w : Warp) => { w with slot := 1024, wdFrom := none, wdOff := none, was := (w.was ++ [s.ownerOf w]).eraseDups }
    let s := { s with warps := s.warps.map fun (w : Warp) => if w.blk == blk && !w.ended then off w else w }
    b.cores.foldl State.reenter (s.returnCarves b.launch ctx b.cores)

/-- A block is saved with an outcome, or reported as not saved where the area is full: it keeps running, past a barrier that stopped it (R343). -/
def State.saveBlock (s : State) (op blk outcome kind : Nat) (strip : State → State) : State :=
  match s.pre? op, s.blocks[blk]? with
  | some p, some b =>
    match s.launches[b.launch]? with
    | none => s
    | some l =>
      let size := imageSize l.info b.cores.length
      if p.size < p.used + size then ((s.setPre blk .none).report op blk 5 0).bsyncFix blk
      else
        let id := s.nextId
        let head := imageHead l b (s.warpsOf blk).length size kind id
        let s := { s with nextId := id + 1 }
        let s := (s.report op blk outcome (p.used / 4096)).modPre op fun x => { x with used := x.used + size }
        let s := s.writeVirt (s.ctxDie p.ctx) p.ctx (p.area + p.used) (head ++ (List.range (size - 64)).map (Config.imageByte id))
        (strip (s.takeOff blk op id size head)).setPre blk .none
  | _, _ => s

/-- BLOCK_SAVE: a full save, once its waits are over. -/
def execBlockSave (op blk : Nat) (s : State) : Res :=
  when (((s.blocks[blk]?).map fun b => b.st == .running && b.pre == .save op).getD false && s.canSave blk) s ((s.takeBlock blk).saveBlock op blk 2 2 id)

/-- Registers that a mask of groups of eight keeps. -/
def keepRegs (mask : Nat) (key : Nat → Nat) (m : List (Nat × Word)) : List (Nat × Word) :=
  m.filter fun e => mask.testBit (key e.1 / 8)

/-- A barrier-stop save keeps what the live table lists (R346), and what a multicast still writes into (R349). -/
def State.strip (s : State) (blk : Nat) (e : Live) : State :=
  let warps := s.warps.map fun (w : Warp) =>
    if w.blk == blk then
      { w with v := keepRegs e.v (· % 512) w.v, s := keepRegs e.s id w.s, sets := w.sets.mapIdx fun j x => if e.sets.testBit j then x else (0, 0) }
    else w
  { s with warps := warps }.modBlk blk fun b =>
    let due : List Nat := s.mcasts.flatMap fun (m : Mcast) => if m.left.any fun x => x.1 == blk then
      (List.range m.n).map (m.off + ·) ++ (m.bar.map fun o => (List.range 16).map (o + ·)).getD [] else []
    let offs : List Nat := due ++ (List.range b.cores.length).flatMap fun k => e.ranges.flatMap fun (r : Nat × Nat) => (List.range r.2).map fun i => k * 2 ^ 22 + r.1 + i
    { b with spad := offs.foldl (fun m o => mput o (b.getByte o) m) [], fresh := [] }

/-- Lanes that waited in `bsync` are restored standing behind it (R346). -/
def State.passBsync (s : State) (blk : Nat) : State := s.releaseBsync blk

/-- BARRIER_STOP_SAVE: every lane of the block that has not exited stands at a `bsync`, and the block is saved there. -/
def execBarrierStopSave (op blk : Nat) (s : State) : Res :=
  match s.blocks[blk]? with
  | none => .next s
  | some b =>
    if !(b.st == .running && b.pre == .saveAtBarrier op && s.canSave blk) then .next s
    else
      let pcs := ((s.warpsOf blk).flatMap fun e => (e.2.lanes.filter fun x => x.st == .waiting .bsync).map fun x => x.pc).eraseDups
      let table := ((s.launches[b.launch]?).map fun l => s.liveTable l.ctx l.info.live).getD []
      match pcs with
      | [pc] =>
        match table.find? fun e => e.word == pc with
        | some e => .next (s.saveBlock op blk 3 3 fun s => (s.strip blk e).passBsync blk)
        | none => .next (s.saveBlock op blk 3 2 fun s => s.passBsync blk)
      | _ => .next (s.saveBlock op blk 3 2 fun s => s.passBsync blk)

/-- BLOCK_FLUSH: at its next clause boundary a block takes the choice of R343; one that stands in a region gives up its work there (R344), once
that is over which it waits for. -/
def execBlockFlush (op blk : Nat) (s : State) : Res :=
  match s.blocks[blk]? with
  | none => .next s
  | some b =>
    match b.pre with
    | .choose o => when (o == op && b.st == .running && s.atBoundary blk) s ((s.takeBlock blk).adaptive op blk true)
    | .flush o _ =>
      if !(o == op && b.st == .running && s.canSave blk) then .next s
      else
        let s := s.takeBlock blk
        match s.regionOf blk with
        | none => .next (s.adaptive op blk false)
        | some r =>
          let s := (s.report op blk 1 r).dropWork blk
          let s := s.takeOff blk op 0 0 []
          .next (({ s with images := s.images.filter fun i => i.blk != blk }.leaveMcasts blk).setPre blk (.flush op r))
    | _ => .next s

/-- PREEMPT_SIGNAL: every block has its outcome, and deliveries into images have ended (R342, R349). -/
def execPreemptSignal (op : Nat) (s : State) : Res :=
  match s.pre? op with
  | none => .next s
  | some p =>
    let into := s.mcasts.any fun m => m.left.any fun e => s.images.any fun i => i.op == op && i.blk == e.1
    when (!p.done && p.mode != 3 && p.todo.isEmpty && !into && !s.unitHeld (s.ctxDie p.ctx) p.ctx p.sigAddr 8) s
      ((s.signal p.ctx p.sigAddr p.sigVal 0 0).modPre op fun x => { x with done := true })

/-! ### Restoring (R351, R355) -/

/-- Warps of a restored block move into free slots of its new cores. -/
def State.reslot (s : State) (coreOf : Nat → Nat) : List (Nat × Nat) → Option State
  | [] => some s
  | (w, part) :: rest =>
    match s.warps[w]? with
    | none => none
    | some x =>
      match (if part < 8 then s.findSlot (coreOf x.num) part (s.warpSlots x) 0 false else none) with
      | none => none
      | some slot =>
        State.reslot (s.modWarp w fun y => { y with core := coreOf y.num, part := part, slot := slot, nextIssue := s.clk.cyc, lastIssue := s.clk.cyc,
                                                    lanes := y.lanes.map fun z => { z with pass := 0 }, wdFrom := none }) coreOf rest

/-- With the last saved block of a gang back, or gone, its restored blocks may issue (R289, R351). -/
def State.gangWhole (s : State) (li : Nat) : State :=
  if s.blocks.any fun x => x.launch == li && x.st == .saved then s
  else { s with blocks := s.blocks.map fun (x : Block) => if x.launch == li then { x with back := false } else x }

/-- A core's matrix queue takes the commands of an image (R172, R355). -/
def State.mxFits (s : State) (image : Option Image) (core : Nat) : Bool :=
  (s.mx.filter fun c => c.core == core).length + ((image.map fun i => i.mx.length).getD 0) ≤ 32

/-- A saved block stands on new cores, where everything fits; its entries and commands follow it, and what its entries and its fences waited for may be
over (R212, R222, R224). -/
def State.putBack (s : State) (dies blk : Nat) (image : Option Image) (cores parts : List Nat) : Option State :=
  match s.blocks[blk]? with
  | none => none
  | some b =>
    match s.launches[b.launch]? with
    | none => none
    | some l =>
      let ws := (s.warpsOf blk)
      let per := (ws.length + cores.length - 1) / max 1 cores.length
      let fits := cores.length == b.cores.length && cores.eraseDups.length == cores.length && parts.length == ws.length &&
        (cores.all fun c => dies.testBit (c / 64) && c / 8 == cores.headD 0 / 8 && s.shareRoom b.launch l c && !s.reserved b.launch c &&
          (s.ctxCores l.ctx).contains c) && s.mxFits image (cores.headD 0)
      if !fits then none
      else
        let coreOf := fun (n : Nat) => cores.getD (n / per) 0
        let s := cores.foldl (fun s c => s.takeCarve b.launch l c) s
        match (s.modBlk blk fun x =>
            { x with cores := cores, st := .running, pre := .none, placed := s.clk.tick, back := l.info.gang }).reslot coreOf
            ((ws.map fun e => e.1).zip parts) with
        | none => none
        | some s =>
          let s := { s with warps := s.warps.map fun (w : Warp) => if w.blk == blk then Warp.wdStart s.clk.cyc w else w }.gangWhole b.launch
          match image with
          | none => some s
          | some i =>
            let coreW := fun (w : Nat) => ((s.warps[w]?).map fun x => x.core).getD 0
            let reqs := i.reqs.map fun (r : Req) =>
              let o := ((s.warps[r.warp]?).map s.ownerOf).getD r.owner
              { r with owner := o, stale := true, due := s.clk.ucyc }
            some (State.settleAll { s with
              reqs := s.reqs ++ reqs
              copies := s.copies ++ i.copies.map fun (c : Copy) => { c with core := coreW c.warp }
              mx := s.mx ++ i.mx.map fun (c : MxCmd) => { c with core := cores.headD 0 }
              images := s.images.filter fun x => x.id != i.id })

/-- A flushed block starts again as it was placed first, but with every lane at the region's start, where code 5 is raised if no header stands there
(R344). -/
def State.restartAt (s : State) (blk start : Nat) : State :=
  match s.blocks[blk]? with
  | none => s
  | some b =>
    match s.launches[b.launch]? with
    | none => s
    | some l =>
      let r := l.info
      let fr := s.freshFor b.launch l.ctx
      let s := { s with free := s.free + 2 ^ 25 }.modBlk blk fun x =>
        { x with spad := [], fresh := b.cores.map fr, freshT := fr (b.cores.headD 0), tiles := [], owners := 0, mx := MxCount.zero, held := [], batch := 0, done := 0,
                 faults := [], baton := 0, bad := [], barWhy := [], later := [] }
      { s with warps := s.warps.map fun (w : Warp) =>
          if w.blk == blk && !w.ended then
            let lanes_ := if b.wave == 0 then min r.width (r.threads - w.num * r.width) else b.wave
            let x := l.warp blk w.num w.member w.core w.part w.slot w.width lanes_ start
            { x with v := b.args, nextIssue := s.clk.cyc, lastIssue := s.clk.cyc, lanes := x.lanes.map fun y => { y with via := some (start, start) } }
          else w }

/-- An image that a restore meets: its bytes as they were written (R351). -/
def State.imageAt (s : State) (ctx va : Nat) : Option Image :=
  match (s.readPiece (s.ctxDie ctx) ctx va 64).toOption with
  | none => none
  | some h =>
    s.images.find? fun i => i.head == h &&
      (match s.readVirt (s.ctxDie ctx) ctx (va + 64) (i.size - 64) with
        | .ok bs => bs == (List.range (i.size - 64)).map (Config.imageByte i.id)
        | .error _ => false)

/-- The block of a refused image counts as ended. -/
def State.refuse (s : State) (p : Preempt) (e : Entry) : State :=
  let s := s.post p.target { id := 0, kind := 4, grp := 10, code := 1, va := 0, word := 0, rows := 0, slot := 0, core := 0, mask := 0, d0 := 0, d1 := 0,
                             d2 := 0, recAddr := e.rec_, lin := e.lin }
  match s.launchAt p.target e.rec_ e.lin with
  | none => s
  | some li =>
    match s.blocks.findIdx? fun b => b.launch == li && b.lin == e.lin && b.st == .saved with
    | none => s
    | some b =>
      let s := { s with warps := s.warps.map fun (w : Warp) => if w.blk == b then
        { w with lanes := w.lanes.map (fun (x : Lane) => { x with st := .exited }), due := [], hold := [] } else w }
      ({ s with images := s.images.filter fun i => i.blk != b }.modBlk b fun x => { x with st := .ending, cores := [] }).gangWhole li

/-! ### resume (R337) -/

/-- The lanes of a warp parked on an entry. -/
def Warp.parkedOn (w : Warp) (id : Nat) : Mask := w.lanesSt fun st => st == .parked id

/-- The entry's cause. -/
def FaultEntry.cause (e : FaultEntry) : Cause := ⟨e.grp, e.code, e.d0, e.d1, e.d2⟩

/-- What a `resume` does to the parties of an entry in one block: 0 retry, 1 deliver, 2 end. Lanes that are to park on it at their next clause
boundary are parties too (R414): they go on, trap there, or end. -/
def State.resumeBlk (s : State) (blk : Nat) (e : FaultEntry) (kind : Nat) : State :=
  let id := e.id
  let ws := (s.warpsOf blk).filter fun x => x.2.parkedOn id != 0
  let cs := s.copies.filter fun c => c.blk == blk && c.st == .parked id
  let ms := s.mcasts.filter fun m => m.blk == blk && m.st == .parked id
  let xs := s.mx.filter fun c => c.blk == blk && c.st == .parked id
  let rs := s.reqs.filter fun r => s.isOf blk r && r.fault == some id
  let ds := (s.warpsOf blk).filter fun x => x.2.due.any fun d => d.post == some id
  let any := !(ds.isEmpty && ws.isEmpty && cs.isEmpty && ms.isEmpty && xs.isEmpty && rs.isEmpty)
  match kind with
  | 0 =>
    let s := ds.foldl (fun s x => s.modWarp x.1 fun w => { w with due := w.due.filter fun d => d.post != some id }) s
    let s := ws.foldl (fun s x => s.modWarp x.1 fun w => w.mapLanes (w.parkedOn id) fun _ y => { y with st := .standing }) s
    let s := { s with
      nextId := s.nextId + 1
      copies := s.copies.map (fun (c : Copy) => if c.blk == blk && c.st == .parked id then { c with st := .queued, turn := -s.nextId } else c)
      mcasts := s.mcasts.map (fun (m : Mcast) => if m.blk == blk && m.st == .parked id then { m with st := .queued, turn := -s.nextId } else m)
      mx := s.mx.map (fun (c : MxCmd) => if c.blk == blk && c.st == .parked id then { c with st := .running 1 } else c) }
    rs.foldl (fun s r => s.modReq r.id fun x => { x with fault := none, st := .bounced, due := s.clk.ucyc, stale := true }) s
  | 1 =>
    let s := ds.foldl (fun s x => s.modWarp x.1 fun w =>
      { w with due := w.due.map fun (d : Due) => if d.post == some id then { d with post := none } else d }) s
    let s := cs.foldl (fun s c => s.failCopy c e.code e.va (copyOpcode c.op)) s
    let s := ms.foldl (fun s m => s.mcastEnd m e.code e.va) s
    let s := xs.foldl (fun s c => s.failMx c e.code e.va) s
    let s := rs.foldl (fun s r => (((s.behind r).foldl State.discard (s.discard r))).settled r.owner) s
    ws.foldl (fun s x =>
      let pcOf : Nat → Nat := fun l => ((x.2.lane? l).map fun y => y.pc).getD 0
      s.trap x.1 (x.2.parkedOn id) (fun _ => e.cause) pcOf fun l => (x.2.lane? l).bind fun y => y.hdr) s
  | _ =>
    match any, (s.warpsOf blk).head? with
    | true, some (_, w) => s.endBlock w e.cause e.word
    | _, _ => s

/-- `resume` of entry `id` of a context: at once for blocks that are placed, after the restore for saved ones. -/
def State.resumeEntry (s : State) (ctx id kind : Nat) : State :=
  match ((s.ctx? ctx).bind fun c => c.open_.find? fun e => e.id == id) with
  | none => s
  | some e =>
    let mine := s.blocks.zipIdx.filter fun b => ((s.launches[b.1.launch]?).map fun l => l.ctx) == some ctx
    let s := mine.foldl (fun s b =>
      if b.1.st == .saved then s.modBlk b.2 fun x => { x with later := x.later ++ [(id, kind)] } else s.resumeBlk b.2 e kind) s
    if mine.any fun b => b.1.st == .saved then s else s.modCtx ctx fun c => { c with open_ := c.open_.filter fun x => x.id != id }

def State.resumeWord (s : State) (i : Instr) (a : Reg) (kind : Nat) : Res :=
  s.privWord i fun x =>
    if !s.devClear x then s.waitIssue x
    else (s.resumeEntry x.wp.target (x.rd1 (lowLane x.part) a) kind).wordDone x true

def execResumeRetry (a : Reg) (x : Tail) (s : State) : Res := s.resumeWord (.resumeRetry a x) a 0
def execResumeDeliver (a : Reg) (x : Tail) (s : State) : Res := s.resumeWord (.resumeDeliver a x) a 1
def execResumeEnd (a : Reg) (x : Tail) (s : State) : Res := s.resumeWord (.resumeEnd a x) a 2

/-- Resumes that came while a block was saved act after its restore. -/
def State.laterResumes (s : State) (ctx blk : Nat) : State :=
  match s.blocks[blk]? with
  | none => s
  | some b =>
    b.later.foldl (fun s r =>
      match (s.ctx? ctx).bind fun c => c.open_.find? fun e => e.id == r.1 with
      | some e => s.resumeBlk blk e r.2
      | none => s) (s.modBlk blk fun x => { x with later := [] })

/-! ### Gangs, and faults that no queue takes -/

/-- GANG_HOLD_EXPIRY: a gang not whole within 10,000 ticks of its first placement gives everything back (R289): a block that a
pre-emption was to take is reported as not saved, and one that it has saved is no more (log 121). -/
def execGangHoldExpiry (li : Nat) (s : State) : Res :=
  match s.launches[li]? with
  | none => .next s
  | some l =>
    match l.gangFrom with
    | none => .next s
    | some t =>
      if l.st != .placing then .next s
      else
        let s := s.advance (s.clk.untilT (t + 10000))
        let mine := (List.range s.blocks.length).filter fun b => ((s.blocks[b]?).map fun x =>
          x.launch == li && (x.st == .running || x.st == .saved)).getD false
        let s := mine.foldl (fun s b =>
          match (s.blocks[b]?).bind fun x => x.pre.op with
          | some op => (s.setPre b .none).report op b 5 0
          | none => s) s
        let cores := (mine.flatMap fun b => ((s.blocks[b]?).map fun x => if x.st == .running then x.cores else []).getD []).eraseDups
        let s := { s with
          blocks := s.blocks.mapIdx fun b (x : Block) => if mine.contains b then { x with st := .released } else x
          warps := s.warps.map fun (w : Warp) => if mine.contains w.blk then { w with ended := true } else w
          images := s.images.filter fun (i : Image) => !mine.contains i.blk }
        .next ((s.modLaunch li fun x => { x with next := 0, gangFrom := none }).returnCarves li l.ctx cores)

/-- POSTED_FAULT: the oldest post of a context enters its queue where there is room, and FQTAIL passes it. Where FQBASE has
disabled the queue meanwhile, a posted fault is delivered as a program trap, and an entry that is none has nowhere to go (R329). -/
def execPostedFault (ctx : Nat) (s : State) : Res :=
  match s.ctx? ctx with
  | none => .next s
  | some c =>
    match c.posts with
    | [] => .next s
    | e :: es =>
      match c.fqCount with
      | none =>
        let s := s.modCtx ctx fun x => { x with posts := es }
        .next (if e.kind ≤ 2 then s.resumeEntry ctx e.id 1 else s)
      | some n =>
        let used := (c.fqtail - c.fqhead).toNat
        let at_ := fld c.fqbase.toNat 12 45 * 4096 + 128 * (c.fqtail.toNat % n)
        when (used < n && !s.unitHeld (s.ctxDie ctx) ctx at_ 128) s
          (((s.writeVirt (s.ctxDie ctx) ctx at_ e.bytes).modCtx ctx fun x =>
            { x with posts := es, fqtail := x.fqtail + 1 }).raise_ ctx 0)

/-- The entry is handled; after the last one the context is no longer held (R351). -/
def State.entryHandled (s : State) (op : Nat) : State :=
  match s.pre? op with
  | none => s
  | some p =>
    let left := p.todo.tail
    let s := s.modPre op fun x => { x with todo := left, count := x.count + 1, done := left.isEmpty }
    if left.isEmpty then (s.modCtx p.target fun c => { c with held := 0, begun := true, sliceFrom := some s.clk.tick }).placeFix else s

/-- The block of an entry belongs to a gang that has given everything back meanwhile: there is nothing to restore (R289; log 121). -/
def State.givenBack (s : State) (p : Preempt) (e : Entry) : Bool :=
  (s.launchAt p.target e.rec_ e.lin).isNone && s.blocks.any fun b => b.lin == e.lin && b.st == .released &&
    ((s.launches[b.launch]?).map fun l => l.ctx == p.target && l.recAddr == e.rec_).getD false

/-- RESTORE_PLACEMENT: the next entry of a mode-3 operation, on the cores and partitions chosen for it. -/
def execRestorePlacement (op : Nat) (cores parts : List Nat) (s : State) : Res :=
  match s.pre? op with
  | none => .next s
  | some p =>
    match (if p.mode == 3 then p.todo.head? else none) with
    | none => .next s
    | some k =>
      match s.entryAt p.ctx p.report k with
      | none => .next (s.entryHandled op)
      | some e =>
        if s.givenBack p e then .next (s.entryHandled op)
        else if e.out == 1 then
          match (s.launchAt p.target e.rec_ e.lin).bind fun li => s.blocks.findIdx? fun b => b.launch == li && b.lin == e.lin && b.st == .saved with
          | none => .next (s.entryHandled op)
          | some blk =>
            match s.putBack p.dies blk none cores parts with
            | none => .next s
            | some t =>
              let start := ((s.blocks[blk]?).bind fun b => (s.launches[b.launch]?).bind fun l => (s.regions l.ctx l.info.regions)[e.info]?).map fun r => r.1
              .next ((t.restartAt blk (start.getD 0)).entryHandled op)
        else
          match s.imageAt p.ctx (p.area + 4096 * e.info) with
          | none => .next ((s.refuse p e).entryHandled op)
          | some i =>
            if s.awaitsBeats i.blk then .next s else
            let dead := (((s.blocks[i.blk]?).bind fun b => s.launches[b.launch]?).map fun l => l.st == .dead).getD true
            if dead then .next ((s.refuse p e).entryHandled op)
            else
              match s.putBack p.dies i.blk (some i) cores parts with
              | none => .next s
              | some t => .next ((t.laterResumes p.target i.blk).entryHandled op)

/-! ### Slices (R380) -/

/-- The supervisor context. -/
def State.supervisor (s : State) : Nat := ((s.ctxs.find? fun c => c.sup).map fun c => c.num).getD 0

/-- A descriptor issued as though the supervisor had. -/
def State.issueSlice (s : State) (ctx va : Nat) (first : Bool) : State :=
  let sup := s.supervisor
  match (s.readPiece (s.ctxDie sup) sup va 64).toOption with
  | none => s
  | some bs =>
    let d := preDesc bs
    if !d.good || (first && d.mode != 0) then s
    else
      let op := s.nextId
      let s := s.startPre sup va d (if first then some ctx else none)
      if first then s.modCtx ctx fun c => { c with sliceOp := some op } else s

/-- SLICE_EXPIRY: SLICELEN ticks of a context's slice have passed. -/
def execSliceExpiry (ctx : Nat) (s : State) : Res :=
  match s.ctx? ctx with
  | none => .next s
  | some c =>
    match c.sliceFrom with
    | none => .next s
    | some t =>
      if c.slicelen = 0 then .next s
      else
        let s := s.advance (s.clk.untilT (t + c.slicelen.toNat))
        .next (((s.modCtx ctx fun x => { x with sliceFrom := none }).issueSlice ctx c.slicedesc.toNat true).raise_ ctx 1)

/-- SLICE_SECOND_DESCRIPTOR: the first descriptor's signal has been written. -/
def execSliceSecondDescriptor (ctx : Nat) (s : State) : Res :=
  match s.ctx? ctx with
  | none => .next s
  | some c =>
    match c.sliceOp.bind s.pre? with
    | none => .next s
    | some p => when p.done s ((s.modCtx ctx fun x => { x with sliceOp := none }).issueSlice ctx (c.slicedesc.toNat + 64) false)

/-! ### halt (R340) -/

/-- Every launch of a context ends, without signals or fault records. -/
def State.haltCtx (s : State) (c : Nat) : State :=
  let isC := fun (li : Nat) => ((s.launches[li]?).map fun l => l.ctx) == some c
  let s := { s with queues := s.queues.map fun (q : LaunchQueue) => if q.ctx == c then { q with ctl := q.ctl &&& 0x7FFFFFFFFFFFFFFF } else q }
  let s := (List.range s.blocks.length).foldl (fun s b => if ((s.blocks[b]?).map fun x => isC x.launch) == some true then s.endQuiet b else s) s
  let s := { s.endSaved isC with
    launches := s.launches.map fun (l : Launch) => if l.ctx == c && l.st != LaunchSt.signalled then { l with st := .dead } else l
    mcasts := s.mcasts.filter fun (m : Mcast) => !((((s.blocks[m.blk]?).map fun (b : Block) => isC b.launch)).getD false)
    tasks := s.tasks.filter fun (t : Task) => !isC t.launch
    preempts := s.preempts.map fun (p : Preempt) => if p.target == c && p.mode == 3 then { p with todo := [], done := true } else p }
  let s := (s.ccDropCtx (· == c)).modCtx c fun x => { x with devq := [], held := 0 }
  ((s.pipes.filter fun (p : Pipe) => p.ctx == c).foldl State.unbind s).placeFix

def execHalt (c : Reg) (x : Tail) (s : State) : Res :=
  s.privWord (.halt c x) fun w =>
    let ctx := w.rd1 (lowLane w.part) c % 2 ^ 16
    ((s.haltCtx ctx).modWarp w.w fun y => { y with hold := y.hold ++ [.halted ctx] }).wordDone w true

/-- A hold on a warp's next clause is over (R338, R340, R398, R409). -/
def State.holdOver (s : State) (h : Hold) : Bool :=
  match h with
  | .reqs ids => s.reqs.all fun r => !ids.contains r.id || r.performedAt .dev || (match r.st with | .bounced | .held => true | _ => false)
  | .halted c =>
    let isC := fun (li : Nat) => ((s.launches[li]?).map fun l => l.ctx) == some c
    !(s.blocks.any fun b => isC b.launch && (b.st == .running || b.st == .ending)) && !(s.reqs.any fun r => r.owner.ctx == c) &&
      !(s.carves.any fun k => k.zeroing && isC k.launch)

end Sys2Proof.Machine
end

