-- ==== Sys2Proof/Machine/Collective.lean ====
section
/-! DEFINITION. Migration of a warp to an address's home die (R364 to R367), and collective groups with their reductions and
broadcasts (R368 to R374). -/

namespace Sys2Proof.Machine

open Sys2Proof.Forms

/-! ### Migration -/

/-- The predicate of `migr` reaches every issuing lane, and the word is done. -/
def State.migrDone (s : State) (x : Iss) (q : Fin 8) (ok : Bool) : State :=
  s.retire x true ((lanesIn x.cl.set).map fun l => pendQ l q ok s.clk.cyc) 0

/-- The conditions under which a warp may leave its core: counters 0, copies complete, tokens complete, no entry of the owner. -/
def State.mayMove (s : State) (wp : Warp) : Bool :=
  wp.ctrs.all (· == 0) && !(s.copies.any fun c => c.blk == wp.blk) && !(s.mcasts.any fun m => m.blk == wp.blk) &&
    !(wp.fences.any fun f => f.pending) && !(s.reqs.any fun r => r.owner == s.ownerOf wp)

/-- A lane that is parked or in handler mode keeps its warp where it is. -/
def Warp.stuck (w : Warp) : Bool :=
  w.lanes.any fun x => x.handler || (match x.st with | .parked _ => true | _ => false)

/-- The first group 8 code of R365 that applies. -/
def State.migrCode (s : State) (wp : Warp) (tier : Nat) : Option Nat :=
  match s.blkOf wp with
  | none => none
  | some b =>
    let r := (s.launches[b.launch]?).map fun l => l.info
    if 1 < (s.warpsOf wp.blk).length || 1 < b.cores.length then some 1
    else if 65536 < (r.map fun x => x.spadShare).getD 0 then some 2
    else if tier == 3 then some 3
    else if (r.map fun x => x.tiles).getD 0 != 0 then some 4
    else none

/-- `migr` (R365): it runs to its end on the home die, and otherwise seeks a landing slot from the moment the warp may leave. -/
def execMigr (q : Fin 8) (a : Reg) (x : Tail) (s : State) : Res :=
  s.atIssue (.migr q a x) fun w =>
    if w.part = 0 then s.wordDone w true
    else
      let l := lowLane w.part
      let ts := s.tryLanes w [l] wantLoad 1 1 fun _ => w.rd l a 2
      s.accessing w true 0 ts false fun t =>
        match ts with
        | [(_, _, .ok p)] =>
          match t.migrCode w.wp p.tier with
          | some c => t.trapWord w w.part (fun _ => ⟨8, c, 0, 0, 0⟩) true
          | none =>
            if p.die == w.wp.die then t.migrDone w q true
            else if w.wp.stuck then t.migrDone w q false
            else if !t.mayMove w.wp then t.waitIssue w
            else
              (t.modWarp w.w fun y =>
                { y with clause := y.clause.map fun (c : Clause) => { c with seek := c.seek.or (some (t.clk.ucyc, t.holdBound 3 (t.clsOf w.wp))) } }).waitIssue w
        | [(_, _, .loc _)] =>
          match t.migrCode w.wp 0 with
          | some c => t.trapWord w w.part (fun _ => ⟨8, c, 0, 0, 0⟩) true
          | none => t.migrDone w q true
        | _ => t.wordDone w true

/-- The `migr` word that a warp is held at, with its address's place. -/
def State.seeking (s : State) (w : Nat) : Option (Iss × Fin 8 × Place × Nat × Nat) :=
  match (s.warps[w]?).bind fun x => x.clause with
  | none => none
  | some cl =>
    match cl.seek, cl.words.head? with
    | some from_, some d =>
      let i := (Decode.raw d.toNat).2
      match i, ({ s with cur := some w }).iss i with
      | .migr q a _, some x =>
        match s.xlate w x.wp wantLoad 1 1 (x.rd (lowLane x.part) a 2) with
        | .ok p => some (x, q, p, from_)
        | _ => none
      | _, _ => none
    | _, _ => none

/-- The slot in which a seeking warp can land on a core of the cluster of its address's slice (R365), which the eldest gang has no use for
(R289). -/
def State.landingSlot (s : State) (x : Iss) (p : Place) (core part : Nat) : Option Nat :=
  match (s.blkOf x.wp).bind fun b => (s.launches[b.launch]?).map fun l => (b.launch, l) with
  | none => none
  | some (li, l) =>
    if part == 7 && core / 8 == p.die * 8 + p.slice && s.mayMove x.wp && !x.wp.stuck && s.shareRoom li l core && !s.reserved li core
    then s.findSlot core 7 (s.warpSlots x.wp) 252 true else none

/-- Cores on which a seeking warp can land. -/
def State.landingCores (s : State) (x : Iss) (p : Place) : List Nat :=
  ((List.range 8).map fun k => p.die * 64 + p.slice * 8 + k).filter fun c => (s.landingSlot x p c 7).isSome

/-- MIGR_LANDING: the warp goes to a landing slot of a core (R365). -/
def execMigrLanding (warp core part : Nat) (s : State) : Res :=
  match s.seeking warp with
  | none => .next s
  | some (x, q, p, _) =>
    match s.blkOf x.wp with
    | none => .next s
    | some b =>
      match s.launches[b.launch]? with
      | none => .next s
      | some l =>
        match s.landingSlot x p core part with
        | none => .next s
        | some n =>
          let old := b.cores
          let s := (s.takeCarve b.launch l core).modBlk x.wp.blk fun y => { y with cores := [core] }
          let s := s.modWarp warp fun y =>
            Warp.wdStart s.clk.cyc { y with
              core := core, part := 7, slot := n, member := 0, wdFrom := none, wdOff := none,
              was := (y.was ++ [s.ownerOf y]).eraseDups,
              lanes := y.lanes.map fun (z : Lane) => { z with pass := 0 } }
          let s := old.foldl State.reenter (s.returnCarves b.launch l.ctx old)
          let s := match ({ s with cur := some warp }).iss (Decode.raw x.word.toNat).2 with
            | some y => { s.migrDone y q true with cur := s.cur }
            | none => s
          .next s

/-- MIGR_SLOT_TIMEOUT: no landing slot within the class's HOLD3 bound (R365, R206). -/
def execMigrSlotTimeout (warp : Nat) (s : State) : Res :=
  match s.seeking warp with
  | none => .next s
  | some (x, q, p, from_, bound) =>
    let t := s.advance (s.clk.untilU (from_ + bound))
    when (s.landingCores x p).isEmpty s { t.migrDone x q false with cur := t.cur }

/-! ### Groups (R368, R370) -/

def State.group? (s : State) (id : Nat) : Option Group := s.groups.find? fun g => g.id == id
def State.modGroup (s : State) (id : Nat) (f : Group → Group) : State :=
  { s with groups := s.groups.map fun g => if g.id == id then f g else g }

/-- A group that a handle names: of the issuing context, in the die partition, and open. -/
def State.groupAt (s : State) (ctx die handle : Nat) : Option Group :=
  s.groups.find? fun g => g.ctx == ctx && (s.diesWith die).contains g.die && g.handle == handle && g.isOpen

/-- Groups of a context that hold a place in a partition. -/
def State.groupsOf (s : State) (ctx die : Nat) : List Group :=
  s.groups.filter fun g => g.ctx == ctx && (s.diesWith die).contains g.die

/-- Live count and epoch, as Open and Query give them. -/
def Group.census (g : Group) : Nat := g.live.length + g.epoch % 2 ^ 16 * 2 ^ 16

/-- A descriptor: its header, and the members' peers; none where it is malformed. -/
def groupRead (h : List Byte) (entries : List Nat) : Option (Nat × Nat × Nat × Nat × List Nat) :=
  let f := fun (o n : Nat) => leNat ((h.drop o).take n)
  let n := fld (f 0 8) 0 11
  let rank := fld (f 0 8) 16 11
  let t := f 8 4
  if n == 0 || 1024 < n || n ≤ rank || fld (f 0 8) 11 5 != 0 || fld (f 0 8) 27 37 != 0 || f 12 4 != 0 || leNat (h.drop 0x18) != 0 ||
      (t != 0 && t < 1000) || entries.zipIdx.any (fun e => e.2 != rank && (fld e.1 10 22 != 0 || fld e.1 33 31 != 0)) then none
  else some (n, rank, if t == 0 then 100000 else t, f 16 8, entries.map fun e => fld e 0 10)

/-- The member table of a descriptor, none where it cannot be read. -/
def State.groupTable (s : State) (ctx die va : Nat) : Nat → Option (List Nat)
  | 0 => some []
  | n + 1 =>
    match State.groupTable s ctx die va n, s.read64 die ctx (va + 64 + 8 * n) with
    | some es, some e => some (es ++ [e])
    | _, _ => none

/-- The collective under way ends: its counter falls with it. -/
def State.collEnd (s : State) (g : Group) (c : Coll) : State :=
  (s.modGroup g.id fun x => { x with coll := none }).partDone c.warp c.grp c.ctr

/-- It ends with the two registers that its word owes, the first and the second. -/
def State.collAnswer (s : State) (g : Group) (c : Coll) (lo hi : Nat) : State :=
  let first := ((s.warps[c.warp]?).bind fun w => w.pend.find? fun p => p.tag == some c.tag).map fun p => p.dst
  (s.modGroup g.id fun x => { x with coll := none }).delivers c.warp c.tag c.grp c.ctr fun d =>
    BitVec.ofNat 32 (if first == some d then lo else hi)

/-- A word that starts something at the collective engine: its counter rises, and its results are owed. -/
def State.collStart (s : State) (x : Iss) (ctr : Option (Fin 8)) (d : Option (Reg × Nat)) (mk : Nat → Nat → State → State) : State :=
  let tag := s.nextId
  let s := mk tag (tag + 1) { s with nextId := tag + 2 }
  (s.modWarp x.w fun w => { (w.ctrAdd (ctrNat ctr)) with
    pend := w.pend ++ (match d with | some (r, n) => pendTag (lowLane x.part) r tag n | none => []) }).wordDone x true

/-- The stations of a group's members, in their order (R361, R368). -/
def State.stations (s : State) (g : Group) : List Nat :=
  g.peers.map fun p => fld (((s.dies[g.die]?).map fun (d : Die) => mget d.fabric p 0).getD 0).toNat 0 16

/-- The live set of a member goes to the other live members (R372). -/
def State.tellLive (s : State) (g : Group) : State :=
  { s with out := s.out ++ (g.live.filter fun r => r != g.rank).map fun r => Out.collectiveLive g.id r g.live }

/-- Messages to the other live members. -/
def State.tell (s : State) (g : Group) (data : List Byte) : State :=
  { s with out := s.out ++ (g.live.filter fun r => r != g.rank).map fun r => Out.collective g.id r data }

/-- Bytes that the collective engine reads for a warp; what does not translate is a value the spec does not give. -/
def State.collRead (s : State) (die ctx blk va n : Nat) : List Byte :=
  match s.blocks[blk]? with
  | some b =>
    if inWindow va && s.windowOk b va n then b.getBytes (va - windowBase) n
    else (List.range n).map fun k =>
      match s.xlateUnit die ctx wantERead (va + k) with
      | .ok p => s.viewByte p.tier p.pa p.key
      | .error _ => Config.freeByte (s.free + k)
  | none => (List.range n).map fun k => Config.freeByte (s.free + k)

/-- A member is out (R372): the survivors hear of it, and the collective under way starts again from every survivor's source. -/
def State.dropMember (s : State) (group rank : Nat) : State :=
  match s.group? group with
  | none => s
  | some g =>
    if !g.live.contains rank || rank == g.rank then s
    else
      let live := g.live.filter fun r => r != rank
      let s := s.modGroup group fun y => { y with
        live := live, lost := y.lost || y.isOpen,
        coll := y.coll.map fun (c : Coll) => if c.kind == .opened then c else { c with parts := [], views := [], shrunk := true, since := s.clk.tick } }
      match g.coll with
      | none => s
      | some c =>
        let blk := ((s.warps[c.warp]?).map fun w => w.blk).getD 0
        match c.kind with
        | .opened => s
        | .bcast root => (s.tellLive { g with live := live }).tell { g with live := live } (if root == g.rank then s.collRead g.die g.ctx blk c.src c.bytes else [])
        | .reduce _ _ => (s.tellLive { g with live := live }).tell { g with live := live } (s.collRead g.die g.ctx blk c.src c.bytes)

/-- Members all of whose ports are down leave their groups (R372). -/
def State.portsFix (s : State) : State :=
  let lost := s.groups.flatMap fun g => ((List.range g.n).filter fun r => r != g.rank && g.live.contains r &&
    (s.upPorts (((s.dies[g.die]?).map fun d => (mget d.fabric (g.peers.getD r 0) 0).toNat).getD 0)).isEmpty).map fun r => (g.id, r)
  lost.foldl (fun s e => s.dropMember e.1 e.2) s

/-- A collective's operation word names another operation, or has other bits set. -/
def badOp (x : Iss) (o : Reg) (k : Nat) : Bool := x.rd1 (lowLane x.part) o != k

/-- `cmemb` Open (R370). -/
def execCmembOpen (d p o h : Reg) (x : CTail) (s : State) : Res :=
  s.atIssue (.cmembOpen d p o h x) fun w =>
    let l := lowLane w.part
    let code := fun (c : Nat) (t : State) => t.trapWord w w.part (fun _ => engCause (opOf w.word) c) true
    if w.part = 0 then s.wordDone w true
    else if badOp w o 0 || !Reg.isS0 h then code 62 s
    else if Reg.isS0 p || w.rd l p 2 % 64 != 0 then code 60 s
    else
      let va := w.rd l p 2
      let ctx := s.ctxOf w.wp
      let ts := s.tryLanes w [l] wantLoad 64 64 fun _ => va
      s.accessing w true 0 ts (s.acquiring (s.ownerOf w.wp) || ts.any (s.readWaits w 64)) fun t =>
        match ts with
        | [(_, _, .ok q)] =>
          let head := (List.range 64).map fun k => t.loadByte w q (q.pa + k)
          match (t.groupTable ctx w.wp.die va (min 1024 (fld (leNat (head.take 8)) 0 11))).bind fun es => groupRead head es with
          | none => code 60 t
          | some (n, rank, timeout, tag, peers) =>
            if 16 ≤ (t.groupsOf ctx w.wp.die).length then t.retire w true (pendN l d 0 t.clk.cyc 2) 0
            else
              let handle := pickHandle ((t.groupsOf ctx w.wp.die).map fun g => g.handle) (2 * (Config.freeHandle t.free).toNat + 1)
              t.collStart w x.ctr (some (d, 2)) fun id grp t =>
                let c : Coll := { kind := .opened, src := 0, dst := 0, bytes := 0, warp := w.w, word := w.addr, mask := w.part, tag := id,
                                  grp := grp, ctr := ctrNat x.ctr, since := t.clk.tick, parts := [], views := [], shrunk := false }
                let g : Group := { id := id, handle := handle, ctx := ctx, die := w.wp.die, desc := va, n := n, rank := rank,
                                   timeout := timeout, tag := tag, peers := peers, opened := [rank], live := List.range n,
                                   removed := false, lost := false, epoch := 1, isOpen := false, coll := some c }
                let t := { t with groups := t.groups ++ [g], free := t.free + 1 }.portsFix
                t.tell ((t.group? id).getD g) (leBytes 8 tag ++ (t.stations g).flatMap (leBytes 2))
        | [(_, _, .loc _)] => code 60 t
        | _ => t.wordDone w true

/-- The live bits of a group's members, in its descriptor. -/
def State.liveBits (s : State) (g : Group) : State :=
  (List.range g.n).foldl (fun s r => s.writeVirt g.die g.ctx (g.desc + 64 + 8 * r + 4) [if g.live.contains r then 1 else 0]) s

/-- `cmemb` Query (R370). -/
def execCmembQuery (d p o h : Reg) (x : CTail) (s : State) : Res :=
  s.atIssue (.cmembQuery d p o h x) fun w =>
    let l := lowLane w.part
    if w.part = 0 then s.wordDone w true
    else
      match s.groupAt (s.ctxOf w.wp) w.wp.die (w.rd1 l h) with
      | none => s.trapWord w w.part (fun _ => engCause (opOf w.word) 61) true
      | some g =>
        if badOp w o 1 || !Reg.isS0 p then s.trapWord w w.part (fun _ => engCause (opOf w.word) 62) true
        else (s.liveBits g).retire w true (pendN l d (g.census + g.rank * 2 ^ 32) s.clk.cyc 2) 0

/-- `cmemb` Close (R370); a collective still under way ends before the group is gone. -/
def execCmembClose (d p o h : Reg) (x : CTail) (s : State) : Res :=
  s.atIssue (.cmembClose d p o h x) fun w =>
    let l := lowLane w.part
    if w.part = 0 then s.wordDone w true
    else
      match s.groupAt (s.ctxOf w.wp) w.wp.die (w.rd1 l h) with
      | none => s.trapWord w w.part (fun _ => engCause (opOf w.word) 61) true
      | some g =>
        if badOp w o 2 || !Reg.isS0 p then s.trapWord w w.part (fun _ => engCause (opOf w.word) 62) true
        else if g.coll.isSome then s.waitIssue w
        else { s with groups := s.groups.filter fun y => y.id != g.id }.retire w true (pendN l d 0 s.clk.cyc 2) 0

/-! ### Reductions and broadcasts (R369, R371) -/

def State.collWrite (s : State) (die ctx blk va : Nat) (bs : List Byte) : State :=
  match s.blocks[blk]? with
  | some b =>
    if inWindow va && s.windowOk b va bs.length then s.modBlk blk fun y => y.setBytes (va - windowBase) bs
    else s.writeVirt die ctx va bs
  | none => s

/-- Bytes of an element type of `creduce`. -/
def collSize (ty : Nat) : Nat := if ty == 1 then 2 else 4

/-- An exact value divided by a count. -/
def divFl (a : Fl) (n : Nat) : Fl :=
  match a with
  | .fin neg m e => if n == 0 then .nan false else .fin neg (sticky (m * 2 ^ 80 / n) (m * 2 ^ 80 % n == 0)) (e - 81)
  | x => x

/-- One combining step (R371): `mean` sums first. -/
def collStep (op ty a b : Nat) : Nat :=
  if ty < 2 then
    let f := if ty == 1 then fmtBf16 else fmtF32
    let x := f.decode a
    let y := f.decode b
    (match op with
      | 1 => f.encode .rn false (minFl x y, 0)
      | 2 => f.encode .rn false (maxFl x y, 0)
      | _ => f.encode .rn false (addFl .rn x y)).1
  else
    let v := fun (n : Nat) => numOf (ty == 2) 32 n
    match op with
    | 1 => reg32 (min (v a) (v b))
    | 2 => reg32 (max (v a) (v b))
    | _ => (a + b) % 2 ^ 32

/-- One element over the live ranks, ascending. -/
def collElem (op ty : Nat) : List Nat → Nat
  | [] => 0
  | x :: xs =>
    let r := xs.foldl (collStep op ty) x
    if op == 3 then
      let f := if ty == 1 then fmtBf16 else fmtF32
      (f.encode .rn false (divFl (f.decode r) (xs.length + 1), 0)).1
    else r

/-- All elements of a reduction, from the members' bytes in rank order. -/
def collReduce (op ty n : Nat) (parts : List (List Byte)) : List Byte :=
  (List.range n).flatMap fun k =>
    leBytes (collSize ty) (collElem op ty (parts.map fun p => leNat ((p.drop (collSize ty * k)).take (collSize ty))))

/-- A collective starts at this member: its bytes go to the others. -/
def State.collIssue (s : State) (x : Iss) (g : Group) (kind : CollKind) (dst src bytes : Nat) (ctr : Option (Fin 8)) (d : Option (Reg × Nat)) :
    State :=
  let mine := match kind with
    | .bcast root => if root == g.rank then s.collRead x.wp.die g.ctx x.wp.blk src bytes else []
    | _ => s.collRead x.wp.die g.ctx x.wp.blk src bytes
  s.collStart x ctr d fun id grp s =>
    let c : Coll := { kind := kind, src := src, dst := dst, bytes := bytes, warp := x.w, word := x.addr, mask := x.part, tag := id, grp := grp,
                      ctr := ctrNat ctr, since := s.clk.tick, parts := [], views := [], shrunk := g.lost }
    ((s.modGroup g.id fun y => { y with coll := some c }).tellLive g).tell g mine

/-- A collective word: its handle, its checks, and its wait for earlier accesses at `sys` scope (R373) and for the group. -/
def State.collWord (s : State) (i : Instr) (h : Reg) (check : Iss → Option Nat) (k : Iss → Group → State) : Res :=
  s.atIssue i fun x =>
    if x.part = 0 then s.wordDone x true
    else
      match s.groupAt (s.ctxOf x.wp) x.wp.die (x.rd1 (lowLane x.part) h) with
      | none => s.trapWord x x.part (fun _ => engCause (opOf x.word) 61) true
      | some g =>
        match check x with
        | some c => s.trapWord x x.part (fun _ => engCause (opOf x.word) c) true
        | none => if g.coll.isSome || !s.gateOpen (s.ownerOf x.wp) x.wp.seq .sys then s.waitIssue x else k x g

def execCreduce (st quad c h : Reg) (x : CTail) (s : State) : Res :=
  let ctl := fun (w : Iss) => w.rd (lowLane w.part) c 2 % 2 ^ 32
  let cnt := fun (w : Iss) => w.rd (lowLane w.part) c 2 / 2 ^ 32
  let dst := fun (w : Iss) => w.rd (lowLane w.part) quad 4 % 2 ^ 64
  let src := fun (w : Iss) => w.rd (lowLane w.part) quad 4 / 2 ^ 64
  let ty := fun (w : Iss) => fld (ctl w) 4 3
  s.collWord (.creduce st quad c h x) h
    (fun w =>
      if fld (ctl w) 2 2 != 0 || ctl w / 2 ^ 7 != 0 || 4 ≤ ty w || (fld (ctl w) 0 2 == 3 && 2 ≤ ty w) then some 62
      else if cnt w == 0 || 4194304 < cnt w then some 63
      else if dst w % collSize (ty w) != 0 || src w % collSize (ty w) != 0 then some 65
      else none)
    fun w g => s.collIssue w g (.reduce (fld (ctl w) 0 2) (ty w)) (dst w) (src w) (collSize (ty w) * cnt w) x.ctr (some (st, 1))

def execCbcast (quad c h : Reg) (x : CTail) (s : State) : Res :=
  let root := fun (w : Iss) => w.rd (lowLane w.part) c 2 % 2 ^ 32
  let cnt := fun (w : Iss) => w.rd (lowLane w.part) c 2 / 2 ^ 32
  let q := fun (w : Iss) => w.rd (lowLane w.part) quad 4
  s.collWord (.cbcast quad c h x) h (fun w => if cnt w == 0 || 16777216 < cnt w then some 63 else none)
    fun w g => s.collIssue w g (.bcast (root w)) (q w % 2 ^ 64) (q w / 2 ^ 64) (cnt w) x.ctr none

/-- The members agree on who is left; the epoch rises where any were lost (R372). -/
def State.agree (s : State) (g : Group) : State :=
  if g.lost then s.modGroup g.id fun y => { y with epoch := y.epoch + 1, lost := false } else s

/-- What a completion waits for: every member has opened the group, or every live member's part has come, and the live members are agreed on who
they are (R370, R372). -/
def Group.whole (g : Group) (c : Coll) : Bool :=
  let others := g.live.filter fun r => r != g.rank
  match c.kind with
  | .opened => others.all fun r => g.opened.contains r
  | _ => g.removed || others.all fun r => (c.parts.lookup r).isSome && c.views.lookup r == some g.live

/-- COLLECTIVE_COMPLETE: every live member's part has come. -/
def execCollectiveComplete (group : Nat) (s : State) : Res :=
  match s.group? group with
  | none => .next s
  | some g =>
    match g.coll with
    | none => .next s
    | some c =>
      let code := fun (n : Nat) (t : State) =>
        (t.collEnd g c).addDue c.warp ⟨c.mask, 4, n, 0xA9 * 2 ^ 24, 0, 0, c.word, none⟩
      if !g.whole c then .next s
      else
        let blk := ((s.warps[c.warp]?).map fun w => w.blk).getD 0
        match c.kind with
        | .opened =>
          let s := s.modGroup g.id fun y => { y with isOpen := true }
          .next (s.collAnswer g c g.handle g.census)
        | .reduce op ty =>
          let s1 := if g.removed then s else s.agree g
          let e := ((s1.group? group).map fun y => y.epoch).getD g.epoch
          let own := s.collRead g.die g.ctx blk c.src c.bytes
          let parts := g.live.map fun r => if r == g.rank then own else (c.parts.lookup r).getD []
          let status := if g.removed then 2 else if c.shrunk then 1 else 0
          let s2 := if g.removed then s1
            else { s1 with free := s1.free + c.bytes }.collWrite g.die g.ctx blk c.dst (collReduce op ty (c.bytes / collSize ty) parts)
          .next (s2.collAnswer g c (g.live.length + status * 2 ^ 16 + e % 256 * 2 ^ 24) 0)
        | .bcast root =>
          let s1 := if g.removed then s else s.agree g
          if g.removed then .next (code 66 s1)
          else if !g.live.contains root then .next (code 64 s1)
          else
            let data := if root == g.rank then s.collRead g.die g.ctx blk c.src c.bytes else (c.parts.lookup root).getD []
            .next (({ s1 with free := s1.free + c.bytes }.collWrite g.die g.ctx blk c.dst data).collEnd g c)

/-- COLLECTIVE_MEMBER_TIMEOUT: a member has sent nothing for the group's timeout. -/
def execCollectiveMemberTimeout (group rank : Nat) (s : State) : Res :=
  match s.group? group with
  | none => .next s
  | some g =>
    match g.coll with
    | none => .next s
    | some c =>
      let sent := if c.kind == .opened then g.opened.contains rank else (c.parts.lookup rank).isSome && (c.views.lookup rank).isSome
      if sent || rank == g.rank || !g.live.contains rank then .next s
      else .next ((s.advance (s.clk.untilT (c.since + g.timeout))).dropMember group rank)

/-- COLLECTIVE_MESSAGE: what another member sends; a message about this member's own rank tells it that the others have removed it.
What this member is not ready for stays with its sender. -/
def execCollectiveMessage (group rank : Nat) (m : GroupMessage) (s : State) : Res :=
  match s.group? group with
  | none => .next s
  | some g =>
    if rank == g.rank then
      match m with
      | .error => .next (s.modGroup group fun y => { y with removed := true })
      | _ => .next s
    else if !g.live.contains rank then .next s
    else
      match m with
      | .error => .next (s.dropMember group rank)
      | .opened tag stations =>
        let same := (List.range g.n).all fun r => r == rank || r == g.rank || stations[r]? == (s.stations g)[r]?
        when (tag == g.tag && stations.length == g.n && same && !g.opened.contains rank) s (s.modGroup group fun y => { y with opened := y.opened ++ [rank] })
      | .live ranks =>
        match g.coll with
        | none => .next s
        | some c =>
          if c.kind == .opened then .next s
          else if !ranks.contains g.rank then .next (s.modGroup group fun y => { y with removed := true })
          else
            let s := (g.live.filter fun r => !ranks.contains r).foldl (fun s r => s.dropMember group r) s
            .next (s.modGroup group fun y => { y with coll := y.coll.map fun (c : Coll) =>
              { c with views := (rank, ranks) :: c.views.filter fun e => e.1 != rank } })
      | .contribution data =>
        match g.coll with
        | none => .next s
        | some c =>
          let size := match c.kind with
            | .opened => 0
            | .reduce _ _ => c.bytes
            | .bcast root => if rank == root then c.bytes else 0
          when (c.kind != .opened && data.length == size && (c.parts.lookup rank).isNone) s
            (s.modGroup group fun y => { y with coll := some { c with parts := c.parts ++ [(rank, data)] } })

end Sys2Proof.Machine
end

