-- ==== Sys2Proof/Machine/Control.lean ====
section
/-! DEFINITION. The control instructions (R261 to R269), the return from a handler (R336), and the checks of the frontier
checker and the watchdog (R274, R275). -/

namespace Sys2Proof.Machine

open Sys2Proof.Forms

/-! ### Transfers (R44, R262, R263) -/

/-- Whether a target breaks R44 or R263, as far as its word can be read now. -/
def State.badTarget (s : State) (x : Iss) (t : Nat) : Bool :=
  2 ^ 48 ≤ t || t % 8 != 0 ||
    match s.fetchAt x.w x.wp t with
    | .word hw => !isHeader hw
    | _ => false

/-- Lanes with a bad target trap with code 5; the others leave the clause for their targets. -/
def State.transfer (s : State) (x : Iss) (m : Mask) (target : Nat → Nat) : State :=
  let bad := lanesWhere m fun l => s.badTarget x (target l)
  let good := m &&& ~~~bad
  (s.trapHere x bad fun _ => encCause 5 x.word).modWarp x.w fun w =>
    (w.leaveClause good).mapLanes good fun l y => { y with pc := target l, hdr := none, via := some (x.addr, x.cl.addr) }

/-- The target of a C-format transfer. -/
def offsetTarget (addr : Nat) (off : Word) : Nat := (((addr : Int) + off.toInt) % 2 ^ 64).toNat

def execBra (off : Word) (t : Tail) (s : State) : Res :=
  s.atIssue (.bra off t) fun x => (s.transfer x x.part fun _ => offsetTarget x.addr off).wordDone x false

/-- The condition of `brc` on a signed register. -/
def condHolds (k : BrCond) (c : Word) : Bool :=
  match k with
  | .nz => c != 0
  | .z => c == 0
  | .lt => c.toInt < 0
  | .ge => 0 ≤ c.toInt

def execBrc (k : BrCond) (c : Reg) (off : Word) (t : Tail) (s : State) : Res :=
  s.atIssue (.brc k c off t) fun x =>
    (s.transfer x (lanesWhere x.part fun l => condHolds k (x.wp.reg l c 0)) fun _ => offsetTarget x.addr off).wordDone x false

def execBrx (r : Reg) (t : Tail) (s : State) : Res :=
  s.atIssue (.brx r t) fun x => (s.transfer x x.part fun l => x.rd l r 2).wordDone x false

/-- The word of a target cannot be read before a walk has ended. -/
def State.targetMiss (s : State) (x : Iss) (t : Nat) : Bool := !(2 ^ 48 ≤ t || t % 8 != 0) && s.fetchAt x.w x.wp t == .miss

/-- A call: the link of the lanes that transfer is written 4 cycles after issue, once into an `s` pair. A lane with a bad target takes no
effect, its link included (R65), so the word waits at issue for the walks of its targets' pages. -/
def State.callTo (s : State) (x : Iss) (link : Reg) (target : Nat → Nat) : State :=
  let missed := (lanesIn x.part).filter fun l => s.targetMiss x (target l)
  if !missed.isEmpty then (missed.foldl (fun s l => s.queueWalk x.w (target l)) s).waitIssue x
  else
    let good := lanesIn (lanesWhere x.part fun l => !s.badTarget x (target l))
    let at_ := x.lastRow false s.clk.cyc + 4
    (s.transfer x x.part target).retire x false
      ((if Reg.isS link then good.take 1 else good).flatMap fun l => pendN l link (x.addr + 8) at_ 2) 0

def execCall (l : Reg) (off : Word) (t : Tail) (s : State) : Res :=
  s.atIssue (.call l off t) fun x => s.callTo x l fun _ => offsetTarget x.addr off

def execCallx (r : Reg) (t : Tail) (s : State) : Res :=
  s.atIssue (.callx r t) fun x => s.callTo x r fun l => x.rd l r 2

def execRet (r : Reg) (t : Tail) (s : State) : Res :=
  s.atIssue (.ret r t) fun x => (s.transfer x x.part fun l => x.rd l r 2).wordDone x false

/-- `rte` (R336): lanes in handler mode return to TPC; any other traps with group 7 code 3. -/
def execRte (t : Tail) (s : State) : Res :=
  s.atIssue (.rte t) fun x =>
    let inH := lanesWhere x.part fun l => ((x.wp.lane? l).map (·.handler)).getD false
    ((s.modWarp x.w fun w => (w.leaveClause inH).mapLanes inH fun _ y => y.rte (x.addr, x.cl.addr)).trapHere x
      (x.part &&& ~~~inH) fun _ => ⟨7, 3, opOf x.word, 0, 0⟩).wordDone x false

/-! ### exit, yield, nop (R265, R266) -/

def execExit (t : Tail) (s : State) : Res :=
  s.atIssue (.exit t) fun x => ((s.modWarp x.w fun w => w.leaveClause x.part).exitWarp x.w x.part).wordDone x false

def execYield (t : Tail) (s : State) : Res :=
  s.atIssue (.yield t) fun x =>
    (if x.part = 0 then s else s.modWarp x.w fun w => { w with yielded := some s.clk.cyc }).wordDone x false

def execNop (t : Tail) (s : State) : Res := s.atIssue (.nop t) fun x => s.wordDone x false

/-! ### Rejoin sets (R268, R269) -/

def Warp.setOf (w : Warp) (j : Nat) : Mask × Mask := w.sets.getD j (0, 0)
def Warp.putSet (w : Warp) (j : Nat) (m a : Mask) : Warp := { w with sets := w.sets.set j (m, a) }

def execJenter (j : Fin 12) (t : Tail) (s : State) : Res :=
  s.atIssue (.jenter j t) fun x =>
    (s.modWarp x.w fun w => w.putSet j.val ((w.setOf j.val).1 ||| x.part) (w.setOf j.val).2).wordDone x false

def execJquit (j : Fin 12) (t : Tail) (s : State) : Res :=
  s.atIssue (.jquit j t) fun x =>
    (s.modWarp x.w fun w =>
      let m := (w.setOf j.val).1 &&& ~~~x.part
      Warp.wdStart s.clk.cyc (Warp.checkSet s.clk.cyc j.val (w.putSet j.val m ((w.setOf j.val).2 &&& m)))).wordDone x false

def execJwait (j : Fin 12) (t : Tail) (s : State) : Res :=
  s.atIssue (.jwait j t) fun x =>
    let m := (x.wp.setOf j.val).1
    let s := s.modWarp x.w fun w =>
      let e := x.part &&& m
      Warp.wdStart s.clk.cyc (Warp.checkSet s.clk.cyc j.val
        (((w.putSet j.val m ((w.setOf j.val).2 ||| e)).mapLanes e fun _ y => { y with arrived := mput j.val x.addr y.arrived }).waitAt e x
          fun _ => .jwait j.val))
    (s.trapHere x (x.part &&& ~~~m) fun _ => ⟨5, 1, j.val, 0, 0⟩).wordDone x false

def execJread (d : Reg) (j : Fin 12) (t : Tail) (s : State) : Res :=
  s.atIssue (.jread d j t) fun x =>
    let n := if x.w64 then 2 else 1
    let ls := lanesIn x.part
    s.retire x false ((if Reg.isS d then ls.take 1 else ls).flatMap fun l =>
      resN (Reg.isS d) l d (x.wp.setOf j.val).1.toNat (x.lastRow false s.clk.cyc + 4) n) 0

def execJwrite (j : Fin 12) (a : Reg) (t : Tail) (s : State) : Res :=
  s.atIssue (.jwrite j a t) fun x =>
    if x.part = 0 then s.wordDone x false
    else
      (s.modWarp x.w fun w =>
        let m := BitVec.ofNat 64 (x.rd 0 a (if x.w64 then 2 else 1)) &&& allLanes w.width &&&
          ~~~(w.lanesSt fun st => st == .exited)
        let left := (w.lanesSt fun st => st == .waiting (.jwait j.val)) &&& ~~~m
        Warp.wdStart s.clk.cyc (Warp.checkSet s.clk.cyc j.val
          { (w.putSet j.val m ((w.setOf j.val).2 &&& m)).mapLanes left (fun _ y => y.goOn) with
            wdFrom := if left = 0 then w.wdFrom else none })).wordDone x false

def execJclear (j : Fin 12) (t : Tail) (s : State) : Res :=
  s.atIssue (.jclear j t) fun x =>
    if x.part = 0 then s.wordDone x false
    else
      (s.modWarp x.w fun w =>
        let left := w.lanesSt fun st => st == .waiting (.jwait j.val)
        Warp.wdStart s.clk.cyc
          { (w.putSet j.val 0 0).mapLanes left (fun _ y => y.goOn) with
            wdFrom := if left = 0 then w.wdFrom else none }).wordDone x false

/-! ### The frontier checker (R274) -/

/-- Sets of a collection that an orphaned group may keep: a member has not arrived, and every such member waits in `jwait` on a
set of the collection. -/
def Warp.orphanStep (w : Warp) (g : List Nat) : List Nat :=
  g.filter fun j =>
    let (m, a) := w.setOf j
    let late := m &&& ~~~a
    late != 0 && (lanesIn late).all fun l =>
      match (w.lane? l).map fun (y : Lane) => y.st with
      | some (.waiting (.jwait k)) => g.contains k
      | _ => false

/-- The largest orphaned group: what is left when no set has to be dropped any more. -/
def Warp.orphans (w : Warp) : List Nat := (List.range 12).foldl (fun g _ => w.orphanStep g) (List.range 12)

/-- Waiting lanes leave their waits and every A, and trap at their own words (R274, R275). -/
def State.trapWaiters (s : State) (w : Nat) (m : Mask) (c : Nat → Cause) : State :=
  match s.warps[w]? with
  | none => s
  | some wp =>
    let pcOf : Nat → Nat := fun l => ((wp.lane? l).map (·.pc)).getD 0
    let s := s.modWarp w fun x =>
      { x.mapLanes m (fun _ y => { y with arrived := [] }) with sets := x.sets.map fun e => (e.1, e.2 &&& ~~~m), wdFrom := none }
    s.trap w m c pcOf (fun l => (wp.lane? l).bind (·.hdr))

def execFrontierCheck (w : Nat) (s : State) : Res :=
  match s.warps[w]? with
  | none => .next s
  | some wp =>
    let g := wp.orphans
    let m := wp.lanesSt fun st =>
      match st with
      | .waiting (.jwait k) => g.contains k
      | _ => false
    when (!wp.ended && !g.isEmpty) s (s.trapWaiters w m fun _ => ⟨5, 2, g.foldl (fun n k => n + 2 ^ k) 0, 0, 0⟩)

/-! ### The watchdog (R275) -/

/-- The wait kind of R325. -/
def waitKind : Wait → Nat
  | .jwait _ => 0
  | .bwait _ _ _ _ _ => 1
  | .macq _ _ => 2
  | .mwait _ => 3
  | .mbtake => 4
  | .fwait _ => 5
  | .bsync => 0

def Warp.wdLimit (w : Warp) : Nat := 2 ^ (16 + fld w.wctl.toNat 4 4)

/-- The cycle at which the watchdog fires. -/
def Warp.wdDue (w : Warp) : Option Nat :=
  if w.wctl.getLsbD 1 then w.wdFrom.map (· + w.wdLimit) else none

/-- WATCHDOG_EXPIRY, in a block that runs on its cores; an orphaned group is the frontier checker's (R274). -/
def execWatchdogExpiry (w : Nat) (s : State) : Res :=
  match s.warps[w]? with
  | none => .next s
  | some wp =>
    match wp.wdDue with
    | none => .next s
    | some due =>
      if !wp.orphans.isEmpty || !((s.blkOf wp).map fun b => b.st == .running).getD false then .next s
      else
        let s := s.advanceTo due
        let m := wp.lanesSt fun st =>
          match st with
          | .waiting .bsync => false
          | .waiting _ => true
          | _ => false
        let kindOf : Nat → Nat := fun l =>
          match (wp.lane? l).map fun (y : Lane) => y.st with
          | some (.waiting k) => waitKind k
          | _ => 0
        when (!wp.ended) s (s.trapWaiters w m fun l => ⟨5, 3, m.toNat % 2 ^ 32, m.toNat / 2 ^ 32, kindOf l⟩)

end Sys2Proof.Machine
end

