-- ==== Sys2Proof/Machine/Convert.lean ====
section
/-! DEFINITION. Conversions (R160 to R164) and the lane instructions (R165 to R169). -/

namespace Sys2Proof.Machine

open Sys2Proof.Forms

/-! ### cvt (R160) -/

/-- The float format of a type code, none for an integer. -/
def tyFmt : Ty → Option Fmt
  | .f32 => some fmtF32
  | .f16 => some fmtF16
  | .bf16 => some fmtBf16
  | .f64 => some fmtF64
  | _ => none

/-- Range of an integer type. -/
def tyRange (t : Ty) : Int × Int :=
  if tySigned t then (-(2 ^ (tyBits t - 1) : Nat), (2 ^ (tyBits t - 1) : Nat) - 1) else (0, (2 ^ tyBits t : Nat) - 1)

def clampTo (r : Int × Int) (v : Int) : Int := max r.1 (min r.2 v)

/-- A value of type `st` converted to type `dt`: its register bits and its flags. -/
def cvtVal (dt st : Ty) (bits : Nat) : Nat × Nat :=
  match tyFmt dt, tyFmt st with
  | none, none => (intRes dt (clampTo (tyRange dt) (intOf st bits)), 0)
  | some f, none => f.encode .rn false (ofInt false (intOf st bits) 0, 0)
  | none, some g =>
    let r := toIntSat (tyRange dt).1 (tyRange dt).2 (g.decode (bits % (2 * g.signBit)))
    (intRes dt r.1, r.2)
  | some f, some g =>
    let v := g.decode (bits % (2 * g.signBit))
    f.encode .rn false (v, sigFlag [v])

def execCvt (dt st : Ty) (d a : Reg) (x : VTail) (s : State) : Res :=
  s.regWord (.cvt dt st d a x) d (tyRegs dt) 6 fun w l => cvtVal dt st (w.rd l a (tyRegs st))

/-! ### Through format slots (R161, R162) -/

/-- `cvtq`: the scaled value in the slot's output format. -/
def cvtqVal (k : Slot) (a b : Nat) : Nat × Nat :=
  let y := mulFl (fmtF32.decode a) (scaleFl k.scale b)
  if k.out < 4 then
    let r := toIntSat (codeRange k.out).1 (codeRange k.out).2 y.1
    (reg32 r.1, r.2)
  else
    let f := if k.out == 4 then fmtF16 else fmtBf16
    let e := f.encode .rn false y
    if e.1 % f.signBit == f.infBits then (e.1 - 1, fOvf + fInx) else e

/-- `cvtd`: the input's value times the scale, in F32. -/
def cvtdVal (k : Slot) (a b : Nat) : Nat × Nat := fmtF32.encode .rn false (mulFl (codeFl k.a a) (scaleFl k.scale b))

/-- A conversion through a slot: a failing slot traps at issue. -/
def State.slotWord (s : State) (i : Instr) (u : SlotUse) (slot : Fin 8) (d : Reg) (f : Slot → Iss → Nat → Nat × Nat) : Res :=
  match s.iss i with
  | none => .fault .noIssue
  | some x =>
    match slotCheck u (s.slotOf x.wp slot.val) with
    | some e => .next (s.trapWord x x.part (fun _ => slotCause (opOf x.word) slot.val e) (uniform x.w64 i))
    | none => s.regWord i d 1 6 (f (slotRead (s.slotOf x.wp slot.val)))

def execCvtq (slot : Fin 8) (d a b : Reg) (x : VTail) (s : State) : Res :=
  s.slotWord (.cvtq slot d a b x) .cvtq slot d fun k w l => cvtqVal k (w.rd1 l a) (w.rd1 l b)

def execCvtd (slot : Fin 8) (d a b : Reg) (x : VTail) (s : State) : Res :=
  s.slotWord (.cvtd slot d a b x) .cvtd slot d fun k w l => cvtdVal k (w.rd1 l a) (w.rd1 l b)

/-! ### T5 (R163) and pairs (R164) -/

/-- Weight k of five I8 weights held in a pair. -/
def weightOf (pair k : Nat) : Int := numOf true 8 (pair / 2 ^ (8 * k))

def trpackVal (pair : Nat) : Nat × Nat :=
  ((List.range 5).foldl (fun n k => n + ((weightOf pair k).sign + 1).toNat * 3 ^ k) 0,
    if (List.range 5).any fun k => decide (1 < (weightOf pair k).natAbs) then fInv else 0)

def execTrpack (d a : Reg) (x : VTail) (s : State) : Res :=
  s.regWord (.trpack d a x) d 1 6 fun w l => trpackVal (w.rd l a 2)

def trunpackVal (v : Nat) : Nat × Nat :=
  ((List.range 5).foldl (fun n k => n + (trit v k % 256).toNat * 2 ^ (8 * k)) 0, if 243 ≤ v then fInv else 0)

def execTrunpack (d a : Reg) (x : VTail) (s : State) : Res :=
  s.regWord (.trunpack d a x) d 2 6 fun w l => trunpackVal (w.rd1 l a % 256)

def pack2Val (f : Fmt) (a b : Nat) : Nat × Nat :=
  let e := fun n => let v := fmtF32.decode n; f.encode .rn false (v, sigFlag [v])
  ((e a).1 + 2 ^ 16 * (e b).1, (e a).2 ||| (e b).2)

def execPack2 (t : Ty) (d a b : Reg) (x : VTail) (s : State) : Res :=
  s.regWord (.pack2 t d a b x) d 1 6 fun w l =>
    pack2Val (if t == .bf16 then fmtBf16 else fmtF16) (w.rd1 l a) (w.rd1 l b)

/-! ### shfl (R166) -/

/-- The lane that lane l reads: group width and displacement as R166 gives, itself where the source does not participate. -/
def shflSrc (m : ShflMode) (width l c k : Nat) (part : Mask) : Nat :=
  let size := if c != 0 && c ≤ width && 2 ^ Nat.log2 c == c then c else width
  let base := l - l % size
  let r := l % size
  let src : Nat := match m with
    | .abs => base + k % size
    | .add => let j := (r : Int) + numOf true 32 k; if 0 ≤ j ∧ j < size then base + j.toNat else l
    | .wrap => base + (((r : Int) + numOf true 32 k) % size).toNat
    | .flip => base + (r ^^^ (k % size))
  if part.getLsbD src then src else l

def execShfl (m : ShflMode) (t : Ty) (d a b c : Reg) (x : VTail) (s : State) : Res :=
  s.regWord (.shfl m t d a b c x) d (tyRegs t) 8 fun w l =>
    (w.rd (shflSrc m w.wp.width l (w.rd1 l c) (w.rd1 l b) w.part) a (tyRegs t), 0)

/-! ### vote (R167) -/

def execVoteBallot (t : Ty) (d : Reg) (q : Fin 8) (x : VTail) (s : State) : Res :=
  s.sharedWord (.voteBallot t d q x) d (tyRegs t) 8 fun w =>
    ((maskOf ((lanesIn w.part).filter fun l => w.wp.getQ l q.val)).toNat, 0)

def execVoteAny (qd q : Fin 8) (x : VTail) (s : State) : Res :=
  s.qWord (.voteAny qd q x) qd 8 fun w _ => ((lanesIn w.part).any fun l => w.wp.getQ l q.val, 0)

def execVoteAll (qd q : Fin 8) (x : VTail) (s : State) : Res :=
  s.qWord (.voteAll qd q x) qd 8 fun w _ => ((lanesIn w.part).all fun l => w.wp.getQ l q.val, 0)

def execVoteEq (t : Ty) (qd : Fin 8) (a : Reg) (x : VTail) (s : State) : Res :=
  s.qWord (.voteEq t qd a x) qd 8 fun w _ =>
    ((lanesIn w.part).all fun l => w.rd l a (tyRegs t) == w.rd (lowLane w.part) a (tyRegs t), 0)

/-! ### scan and redux (R168) -/

/-- One step of the combination: value bits and flags. -/
def scanOp (o : ScanOp) (t : Ty) (a b : Nat) : Nat × Nat :=
  if t == .f32 then
    let p := fmtF32.decode a
    let q := fmtF32.decode b
    match o with
    | .add => fmtF32.encode .rn false (addFl .rn p q)
    | .min => fmtF32.encode .rn false (minFl p q, sigFlag [p, q])
    | .max => fmtF32.encode .rn false (maxFl p q, sigFlag [p, q])
    | .or => (a ||| b, 0)
  else
    match o with
    | .add => (intRes t (intOf t a + intOf t b), 0)
    | .min => (intRes t (min (intOf t a) (intOf t b)), 0)
    | .max => (intRes t (max (intOf t a) (intOf t b)), 0)
    | .or => (a ||| b, 0)

/-- The combination over lanes in ascending order: each lane's prefix, the last value, the flags. -/
def scanAll (o : ScanOp) (t : Ty) (val : Nat → Nat) (ls : List Nat) : List (Nat × Nat) × Option Nat × Nat :=
  ls.foldl (fun (acc : List (Nat × Nat) × Option Nat × Nat) l =>
    match acc.2.1 with
    | none => ([(l, val l)], some (val l), 0)
    | some v => let r := scanOp o t v (val l); (acc.1 ++ [(l, r.1)], some r.1, acc.2.2 ||| r.2)) ([], none, 0)

def execScan (o : ScanOp) (t : Ty) (d a : Reg) (x : VTail) (s : State) : Res :=
  s.atIssue (.scan o t d a x) fun w =>
    let u := uniform w.w64 (.scan o t d a x)
    let r := scanAll o t (fun l => w.rd l a (tyRegs t)) (lanesIn w.part)
    s.retire w u (r.1.flatMap fun e => resN false e.1 d e.2 (w.lastRow u s.clk.cyc + 8) (tyRegs t)) r.2.2

def execRedux (o : ScanOp) (t : Ty) (d a : Reg) (x : VTail) (s : State) : Res :=
  s.sharedWord (.redux o t d a x) d (tyRegs t) 8 fun w =>
    let r := scanAll o t (fun l => w.rd l a (tyRegs t)) (lanesIn w.part)
    (r.2.1.getD 0, r.2.2)

/-! ### lanes (R169) -/

/-- What `lanes` reports in lane l. -/
def lanesVal (m : LanesMode) (part : Mask) (l : Nat) : Nat :=
  match m with
  | .mask => part.toNat
  | .count => (lanesIn part).length
  | .rank => ((lanesIn part).filter fun k => k < l).length
  | .first => lowLane part

def execLanes (m : LanesMode) (t : Ty) (d : Reg) (x : VTail) (s : State) : Res :=
  if m == .rank then
    if Reg.isS0 d then s.atIssue (.lanes m t d x) fun w => s.retire w (uniform w.w64 (.lanes m t d x)) [] 0
    else s.regWord (.lanes m t d x) d (tyRegs t) 8 fun w l => (lanesVal m w.part l, 0)
  else s.sharedWord (.lanes m t d x) d (tyRegs t) 8 fun w => (lanesVal m w.part 0, 0)

end Sys2Proof.Machine
end

