-- ==== Sys2Proof/Machine/Special.lean ====
section
/-! DEFINITION. Special registers: what `sread` reads and `swrite` writes behind every selector (R331 to R334, R358, R361, R363, R375 to
R385, R390, R393, R401, R405), `trap` (R335), `tlbinv` (R338) and `launch` (R339). -/

namespace Sys2Proof.Machine

open Sys2Proof.Forms

/-! ### Registers that a partition shares (R358, R361, R363, R378) -/

/-- A write to a register of a die's partition reaches every die of it; one whose die is not live or unbound is ignored. -/
def State.modPart (s : State) (die : Nat) (f : Die → Die) : State :=
  (s.diesWith die).foldl (fun s d => s.modDie d f) s

/-- A register of a die's partition; zero where the die is not live or unbound. -/
def State.partRead (s : State) (die : Nat) (f : Die → Nat) : Nat :=
  if (s.diesWith die).contains die then ((s.dies[die]?).map f).getD 0 else 0

/-- The dies that a write to PARTCFG reaches: those of the partition, or the die alone while it is in none. R358 does not say what a write to
the register of a die that is not live does; here it is dropped (DESIGN CHOICE, log 94). -/
def State.cfgDies (s : State) (die : Nat) : List Nat :=
  if (s.diesWith die).contains die then s.diesWith die else if ((s.dies[die]?).map fun d => d.live).getD false then [die] else []

/-- A block is placed on one of some dies. -/
def State.placedOn (s : State) (ds : List Nat) : Bool :=
  s.blocks.any fun b => (b.st == .running || b.st == .ending) && b.cores.any fun c => ds.contains (c / 64)

/-- PARTCFG of a die (R358). -/
def State.partcfg (s : State) (die : Nat) : Nat :=
  match s.dies[die]? with
  | none => 0
  | some d =>
    (if d.live then 2 ^ 63 else 0) + d.hier.getD 0 % 8 * 2 ^ 56 + d.hbm % 2 ^ 12 * 2 ^ 44 + d.lp % 2 ^ 12 * 2 ^ 32 + d.lpBlocks % 2 ^ 12 * 2 ^ 20 +
      (if (s.diesWith die).contains die then ((s.diesWith die).map fun k => 2 ^ (16 + k)).sum else 0)

/-- LPDDR 6 blocks that partitions other than one hold (R75). -/
def State.lpOthers (s : State) (mine : List Nat) : Nat :=
  ((List.range s.dies.length).filterMap fun k =>
    let head := ((s.cfgDies k).head?).getD k
    if mine.contains k || head != k then none else (s.dies[k]?).map fun d => d.lpBlocks).sum

def State.writePartcfg (s : State) (die v : Nat) : State :=
  let ds := s.cfgDies die
  if s.placedOn ds then s
  else
    let lp := if 3072 < fld v 20 12 + s.lpOthers ds then 0 else fld v 20 12
    ds.foldl (fun s d => s.modDie d fun x => { x with hbm := fld v 44 12, lp := fld v 32 12, lpBlocks := lp }) s

/-! ### Tenants and functions (R333, R375, R376) -/

/-- A context comes into being when its number is first named (R333). -/
def State.nameCtx (s : State) (c : Nat) : State :=
  if (s.ctx? c).isSome then s else { s with ctxs := s.ctxs ++ [Context.fresh c false] }

/-- Every function that is bound to a context (R376). -/
def State.fnsOf (s : State) (c : Nat) : List Nat :=
  (List.range s.fns.length).filter fun f => ((s.fns[f]?).map fun x => fld x.cfg.toNat 63 1 == 1 && fld x.cfg.toNat 16 16 == c).getD false

/-- Clusters or blocks of two tenant partitions overlap; a partition without blocks overlaps none. -/
def tenantsOverlap (die1 die2 : Option Nat) (t u : Nat) : Bool :=
  (List.range 32).any (fun k => t.testBit k && u.testBit k) ||
    (die1.isSome && die1 == die2 && fld t 44 12 != 0 && fld u 44 12 != 0 && fld t 32 12 < fld u 32 12 + fld u 44 12 && fld u 32 12 < fld t 32 12 + fld t 44 12)

/-- The hierarchy of each die that a tenant partition has clusters on. -/
def State.tenantHiers (s : State) (t : Nat) : List (Option Nat) :=
  (((List.range 4).filter fun d => fld t (8 * d) 8 != 0).map fun d => (s.dies[d]?).bind fun x => if x.live then x.hier else none).eraseDups

def State.tenantHier (s : State) (t : Nat) : Option Nat := (s.tenantHiers t).head?.bind id

def State.writeTenpart (s : State) (n v : Nat) : State :=
  let v := v % 2 ^ 56 + fld v 63 1 * 2 ^ 63
  let used := s.ctxs.any fun c => !c.sup && s.placed c.num &&
    (s.fnsOf c.num).any fun f => ((s.fns[f]?).map fun x => fld x.cfg.toNat 48 5) == some n
  let ds := match s.tenantHier v with
    | some h => ((List.range 4).filter fun d => ((s.dies[d]?).map fun x => x.live && x.hier == some h).getD false).length
    | none => 0
  let clash := fld v 63 1 == 1 && (s.tenparts.zipIdx.any fun e =>
    e.2 != n && fld e.1.toNat 63 1 == 1 && tenantsOverlap (s.tenantHier v) (s.tenantHier e.1.toNat) v e.1.toNat)
  if used || 1 < (s.tenantHiers v).length || hbmBlocks ds < fld v 32 12 + fld v 44 12 || clash then s
  else { s with tenparts := s.tenparts.set n (BitVec.ofNat 64 v) }.placeFix

def State.writeFncfg (s : State) (n v : Nat) : State :=
  let vc := if fld v 44 4 == 0 || fld v 44 4 == 15 then 1 else fld v 44 4
  let cc := if fld v 10 6 == 0 then 1 else fld v 10 6
  let w := fld v 63 1 * 2 ^ 63 + fld v 48 5 * 2 ^ 48 + vc * 2 ^ 44 + fld v 16 16 * 2 ^ 16 + cc * 2 ^ 10 + fld v 0 10
  let s := { s with fns := s.fns.modify n fun (f : Function) => { f with cfg := BitVec.ofNat 64 w } }.placeFix
  if fld v 63 1 == 1 then s.nameCtx (fld v 16 16) else s

/-! ### Reading -/

/-- LPROG of a context number (R401, R411). -/
def State.lprog (s : State) (c : Nat) : Nat :=
  match s.jobs.find? fun j => j.ctx == c with
  | none => 0
  | some j =>
    (if j.active then 2 ^ 31 else 0) + (if j.resumed then 2 ^ 30 else 0) +
      ((s.journal.filter fun i => i.ctx == c).map fun i => i.left.length).sum % 2 ^ 28

def State.bootstat (s : State) : Nat :=
  let mask := fun (f : Die → Bool) (lo : Nat) => (s.dies.zipIdx.map fun e => if f e.1 then 2 ^ (lo + e.2) else 0).sum
  (if s.boot.reduced then 2 ^ 63 else 0) + (if s.boot.hbmReady then 2 ^ 62 else 0) + mask (fun d => d.failed) 16 + mask (fun d => d.live) 12 +
    (if s.boot.ioReleased then 2 ^ 8 else 0) + min s.boot.resets 255

def KeySlot.read (k : KeySlot) : Nat :=
  (match k.st with | .free => 0 | .bound => 1 | .void => 2) * 2 ^ 62 + k.ctx % 2 ^ 16

/-- ALARM (R405). -/
def State.alarmReg (s : State) : Nat :=
  min s.log.length 0xFFFF * 2 ^ 32 + (if 3 ≤ s.alarm then 2 else 0) + (if 2 ≤ s.alarm then 1 else 0)

/-- Registers of group 0 (R332): of the lane, the warp, the block, the launch and the die. -/
def State.readUser (s : State) (x : Iss) (l sel : Nat) : Nat :=
  let b := s.blkOf x.wp
  let r := (s.launchOf x.wp).map fun y => y.info
  let g := fun (f : Record → Nat) => (r.map f).getD 0
  let lin := (b.map fun y => y.lin).getD 0
  let ln := x.wp.lane? l
  match sel with
  | 0x00 => l
  | 0x01 => x.wp.num
  | 0x02 => x.wp.width
  | 0x03 => lin % max 1 (g fun y => y.gx)
  | 0x04 => lin / max 1 (g fun y => y.gx) % max 1 (g fun y => y.gy)
  | 0x05 => lin / max 1 (g fun y => y.gx) / max 1 (g fun y => y.gy)
  | 0x06 => g fun y => y.gx
  | 0x07 => g fun y => y.gy
  | 0x08 => g fun y => y.gz
  | 0x09 => fld (g fun y => y.stage) 0 4
  | 0x0A => x.wp.member
  | 0x0B => x.wp.core
  | 0x0C => x.wp.cluster
  | 0x0D => x.wp.die
  | 0x0E => s.ctxOf x.wp
  | 0x10 => s.clk.cyc - ((s.dies[x.wp.die]?).map fun d => d.from_).getD 0
  | 0x11 => s.clk.tick
  | 0x18 => ((ln.map fun (y : Lane) => y.tcause).getD 0).toNat
  | 0x19 => ((ln.map fun (y : Lane) => y.td0).getD 0).toNat
  | 0x1A => ((ln.map fun (y : Lane) => y.td1).getD 0).toNat
  | 0x1B => ((ln.map fun (y : Lane) => y.td2).getD 0).toNat
  | 0x1C => (ln.map fun (y : Lane) => y.tpc).getD 0
  | 0x20 => x.wp.flags.toNat
  | 0x21 => x.wp.wctl.toNat
  | 0x24 => (b.map fun y => y.mx.nan).getD 0
  | 0x25 => (b.map fun y => y.mx.sat).getD 0
  | 0x26 => (b.map fun y => y.mx.trit).getD 0
  | 0x27 => (b.map fun y => y.mx.wrap).getD 0
  | 0x28 => s.mprogOf x.wp.blk
  | 0x30 => s.lprog (if s.levelS (s.ctxOf x.wp) then x.wp.target else s.ctxOf x.wp)
  | 0x31 => ((s.ctx? (s.ctxOf x.wp)).map fun c => c.throttled.toNat).getD 0
  | _ => 0

/-- Registers of the context that TARGET names, and the device-wide ones of group 1; a context that does not exist reads zero. -/
def State.readCtx (s : State) (x : Iss) (sel : Nat) : Nat :=
  let g := fun (f : Context → Nat) => ((s.ctx? x.wp.target).map f).getD 0
  match sel with
  | 0x10000 => x.wp.target
  | 0x10001 => g fun c => c.ptbase.toNat
  | 0x10002 => g fun c => c.fqbase.toNat
  | 0x10003 => g fun c => c.fqhead.toNat
  | 0x10004 => g fun c => c.fqtail.toNat
  | 0x10005 => g fun c => c.taskring.toNat
  | 0x10006 => g fun c => c.sharedom.toNat
  | 0x10007 => g fun c => c.keepallot.toNat
  | 0x10008 => s.grace.toNat
  | 0x10009 => s.drainbud.toNat
  | 0x60300 => g fun c => c.slicelen.toNat
  | 0x60301 => g fun c => c.slicedesc.toNat
  | 0x60302 => g fun c => c.rollbase.toNat
  | 0x60303 => g fun c => c.rollsize.toNat
  | _ => 0

/-- One of the four readable registers of a launch queue (R284); LQERR clears when it is read and has a row of its own. -/
def LaunchQueue.read (q : LaunchQueue) (i : Nat) : Nat :=
  match i with
  | 0 => q.ctl.toNat
  | 1 => q.base.toNat
  | 2 => q.tail.toNat
  | 3 => q.head.toNat
  | _ => 0

def Keep.read (k : Keep) (i : Nat) : Nat :=
  match i with
  | 0 => k.base % 2 ^ 40 * 2 ^ 12 + (if k.valid then 1 else 0)
  | 1 => k.limit % 2 ^ 40 * 2 ^ 12
  | _ => k.overflow * 2 ^ 32 + k.owner % 2 ^ 16 * 2 ^ 16 + k.ways % 16

/-- The register behind a selector (R332). -/
def State.readReg (s : State) (x : Iss) (l sel : Nat) : Nat :=
  if sel < 0x10000 then s.readUser x l sel
  else if sel < 0x20000 || (0x60300 ≤ sel && sel ≤ 0x60303) then s.readCtx x sel
  else if sel < 0x30000 then ((s.holds[sel - 0x20000]?).map fun h => h.toNat).getD 0
  else if sel < 0x40000 then ((s.queues[(sel - 0x30000) / 8]?).map fun q => q.read (sel % 8)).getD 0
  else if sel < 0x50000 then
    (((s.dies[(sel - 0x40000) / 64]?).bind fun d => d.keeps[(sel - 0x40000) / 4 % 16]?).map fun k => k.read (sel % 4)).getD 0
  else if sel < 0x50004 then s.partcfg (sel - 0x50000)
  else if sel < 0x51000 then s.partRead (sel - 0x50100) fun d => d.window.toNat
  else if sel < 0x60000 then s.partRead ((sel - 0x51000) / 0x400) fun d => (mget d.fabric (sel % 0x400) 0).toNat
  else if sel < 0x60100 then ((s.tenparts[sel - 0x60000]?).map fun t => t.toNat).getD 0
  else if sel < 0x60300 then ((s.fns[sel - 0x60100]?).map fun f => f.cfg.toNat).getD 0
  else if sel < 0x61000 then s.partRead (sel - 0x60400) fun d => d.movectl.toNat
  else if sel < 0x62000 then (mget s.lanemap (sel - 0x61000) 0).toNat
  else if sel == 0x70000 then s.bootstat
  else if 0x70100 ≤ sel && sel < 0x70200 then ((s.keys[sel - 0x70100]?).map KeySlot.read).getD 0
  else if sel == 0x70200 then s.alarmReg
  else 0

/-- A selector that needs level S (R332). -/
def selS (sel : Nat) : Bool := 0x10000 ≤ sel

/-- A word that names a selector: at level U one of level S raises code 2 (R341). -/
def State.selWord (s : State) (i : Instr) (sel : Nat) (k : Iss → State) : Res :=
  s.atIssue i fun x =>
    if selS sel && !s.levelS (s.ctxOf x.wp) then s.trapWord x x.part (fun _ => privCause 2 sel x.word) (uniform x.w64 i) else k x

/-- The register result of an `sread` (R334). -/
def State.sreadDone (s : State) (x : Iss) (i : Instr) (d : Reg) (n : Nat) (f : Nat → Nat) : State :=
  let u := uniform x.w64 i
  s.retire x u ((x.acts i).flatMap fun l => resN u l d (f l) (x.lastRow u s.clk.cyc + latency 4 u) n) 0

def execSread (sel : BitVec 20) (wide : Bool) (d : Reg) (x : Tail) (s : State) : Res :=
  s.selWord (.sread sel wide d x) sel.toNat fun w =>
    s.sreadDone w (.sread sel wide d x) d (wideRegs wide) fun l => s.readReg w l sel.toNat

/-- LQERR_READ: LQERR is read and cleared in one access (R284). -/
def execLqerrRead (q : Fin 256) (d : Reg) (x : Tail) (s : State) : Res :=
  s.selWord (.lqerrRead q d x) (0x30004 + 8 * q.val) fun w =>
    let v := ((s.queues[q.val]?).map fun y => y.err.toNat).getD 0
    (if w.part = 0 then s else s.modQueue q.val fun y => { y with err := 0 }).sreadDone w (.lqerrRead q d x) d 2 fun _ => v

/-- ECCCNT_READ: both counts of a die are read and cleared in one access (R382). -/
def execEcccntRead (die : Fin 4) (d : Reg) (x : Tail) (s : State) : Res :=
  s.selWord (.ecccntRead die d x) (0x62000 + die.val) fun w =>
    let v := ((s.dies[die.val]?).map fun y => y.corrected % 2 ^ 32 * 2 ^ 32 + y.uncorr % 2 ^ 32).getD 0
    (if w.part = 0 then s else s.modDie die.val fun y => { y with corrected := 0, uncorr := 0 }).sreadDone w (.ecccntRead die d x) d 2
      fun _ => v

/-! ### Writing -/

/-- The bits of a mask of a register take the new value, the others keep theirs (R6, R7). -/
def maskW (m : Nat) (old new : Word) : Word := (old &&& ~~~(BitVec.ofNat 32 m)) ||| (new &&& BitVec.ofNat 32 m)

/-- Bits [56:12] and [4:0] of a base with its log2 count. -/
def baseLog (v : Nat) : DWord := BitVec.ofNat 64 (fld v 12 45 * 2 ^ 12 + fld v 0 5)

/-- HOLDk as it is stored (R206). -/
def holdStored (v : Nat) : Word := BitVec.ofNat 32 (max 128 (fld v 16 16) * 2 ^ 16 + max 32 (fld v 0 16))

/-- A new WCTL; the watchdog does not count the cycles in which it is disabled (R275). -/
def Warp.setWctl (w : Warp) (now : Nat) (v : Word) : Warp :=
  match w.wctl.getLsbD 1, v.getLsbD 1 with
  | true, false => { w with wctl := v, wdOff := some now }
  | false, true => { w with wctl := v, wdOff := none, wdFrom := w.wdFrom.map fun f => f + (now - max (w.wdOff.getD 0) f) }
  | _, _ => { w with wctl := v }

/-- A write at level U: FLAGS, WCTL, and TPC of a lane in handler mode (R276, R327, R332). -/
def State.writeUser (s : State) (x : Iss) (ls : List Nat) (sel v : Nat) : State :=
  match sel with
  | 0x1C => s.modWarp x.w fun w =>
      w.mapLanes (maskOf ls) fun _ y => if y.handler then { y with tpc := v % 2 ^ 48 } else y
  | 0x20 => s.modWarp x.w fun w => { w with flags := BitVec.ofNat 32 (v % 32) }
  | 0x21 => s.modWarp x.w fun w => w.setWctl s.clk.cyc (maskW 0xF3 w.wctl (BitVec.ofNat 32 v))
  | _ => s

def State.writeCtx (s : State) (x : Iss) (sel v : Nat) : State :=
  let g := fun (f : Context → Context) => s.modCtx x.wp.target f
  match sel with
  | 0x10000 => s.modWarp x.w fun w => { w with target := v % 2 ^ 16 }
  | 0x10001 => g fun c => { c with ptbase := BitVec.ofNat 64 (fld v 12 40 * 2 ^ 12) }
  | 0x10002 => g fun c => { c with fqbase := baseLog v }
  | 0x10003 => g fun c => { c with fqhead := BitVec.ofNat 32 v }
  | 0x10005 => g fun c => { c with taskring := baseLog v }
  | 0x10006 => g fun c => { c with sharedom := BitVec.ofNat 32 (v % 2 ^ 16) }
  | 0x10007 => g fun c => { c with keepallot := BitVec.ofNat 64 (v % 2 ^ 32) }
  | 0x10008 => { s with grace := BitVec.ofNat 32 v }
  | 0x10009 => { s with drainbud := BitVec.ofNat 32 v }
  | 0x60300 => g fun c => { c with slicelen := BitVec.ofNat 32 v }
  | 0x60301 => g fun c => { c with slicedesc := BitVec.ofNat 64 v }
  | 0x60302 => g fun c => { c with rollbase := BitVec.ofNat 64 (fld v 12 45 * 2 ^ 12) }
  | 0x60303 => g fun c => { c with rollsize := BitVec.ofNat 64 v }
  | _ => s

/-- LQCTL and LQBASE; LQHEAD and LQERR take no write (R284). Naming a context brings it into being (R333). -/
def State.writeQueue (s : State) (q i v : Nat) : State :=
  match i with
  | 0 =>
    (s.modQueue q fun x => { x with
      ctl := BitVec.ofNat 64 (fld v 63 1 * 2 ^ 63 + fld v 32 16 * 2 ^ 32 + fld v 6 2 * 2 ^ 6 + fld v 0 5) }).nameCtx (fld v 32 16)
  | 1 => s.modQueue q fun x => { x with base := BitVec.ofNat 64 (fld v 12 45 * 2 ^ 12) }
  | _ => s

/-- LANEMAP takes a write only while no warp is placed on the core; Out is the hardware's (R382). -/
def State.writeLanemap (s : State) (n v : Nat) : State :=
  if s.warps.zipIdx.any fun e => e.1.core == n / 16 && s.occupies e.2 e.1 then s
  else { s with lanemap := mset n (maskW 0x3F (mget s.lanemap n 0) (BitVec.ofNat 32 v)) 0 s.lanemap }

def moveSrc (v : DWord) : Nat := fld v.toNat 48 12
def moveDst (v : DWord) : Nat := fld v.toNat 36 12
def moveDone (v : DWord) : Nat := fld v.toNat 0 13

/-- A write to MOVECTL or ALARM is a step of its own that follows at once (R378, R405). -/
def State.follow (s : State) (i : Instr) : State := { s with agenda := s.agenda ++ [i] }

/-- A write of Active 0 to MOVECTL once every grain is copied sets the fields that software writes (R6); the move then ends. -/
def State.writeMoveEnd (s : State) (die v : Nat) : State :=
  (s.modPart die fun d => if moveDone d.movectl != 4096 then d else { d with
    movectl := BitVec.ofNat 64 (fld d.movectl.toNat 63 1 * 2 ^ 63 + fld v 48 12 * 2 ^ 48 + fld v 36 12 * 2 ^ 36 + 4096) }).follow (.movectlEnd die)

def State.writeReg (s : State) (x : Iss) (ls : List Nat) (sel v : Nat) : State :=
  if sel < 0x10000 then s.writeUser x ls sel v
  else if sel < 0x20000 || (0x60300 ≤ sel && sel ≤ 0x60303) then s.writeCtx x sel v
  else if sel < 0x30000 then { s with holds := s.holds.modify (sel - 0x20000) fun _ => holdStored v }
  else if sel < 0x40000 then s.writeQueue ((sel - 0x30000) / 8) (sel % 8) v
  else if sel < 0x50000 then s
  else if sel < 0x50004 then s.writePartcfg (sel - 0x50000) v
  else if sel < 0x51000 then
    s.modPart (sel - 0x50100) fun d => { d with
      window := BitVec.ofNat 64 (fld v 61 3 * 2 ^ 61 + fld v 48 8 * 2 ^ 48 + fld v 24 12 * 2 ^ 24 + fld v 0 12) }
  else if sel < 0x60000 then
    (s.modPart ((sel - 0x51000) / 0x400) fun d => { d with
      fabric := mset (sel % 0x400) (BitVec.ofNat 64 (fld v 63 1 * 2 ^ 63 + fld v 32 18 * 2 ^ 32 + fld v 0 16)) 0 d.fabric }).portsFix
  else if sel < 0x60100 then s.writeTenpart (sel - 0x60000) v
  else if sel < 0x60300 then s.writeFncfg (sel - 0x60100) v
  else if sel < 0x61000 then
    let die := sel - 0x60400
    if fld v 63 1 == 1 then s.follow (.movectlStart die (BitVec.ofNat 64 v)) else s.writeMoveEnd die v
  else if sel < 0x62000 then s.writeLanemap (sel - 0x61000) v
  else if sel == 0x70200 then
    let s := if v.testBit 0 then s.follow .alarmLockWrite else s
    if v.testBit 1 then s.follow .alarmEraseWrite else s
  else s

/-- A write to a level-S register waits for the warp's earlier accesses (R334). -/
def State.swriteWord (s : State) (i : Instr) (sel : Nat) (f : State → Iss → Nat → State) : Res :=
  s.selWord i sel fun x =>
    if x.part != 0 && selS sel && !s.devClear x then s.waitIssue x
    else ((x.acts i).foldl (fun s l => f s x l) s).wordDone x (uniform x.w64 i)

def execSwrite (sel : BitVec 20) (wide : Bool) (a : Reg) (x : Tail) (s : State) : Res :=
  let i := Instr.swrite sel wide a x
  s.swriteWord i sel.toNat fun s w l =>
    s.writeReg w (if uniform w.w64 i then lanesIn w.part else [l]) sel.toNat (w.rd l a (wideRegs wide))

/-- LQTAIL_DOORBELL: the producer's index of a queue (R284, R285). -/
def execLqtailDoorbell (q : Fin 256) (a : Reg) (x : Tail) (s : State) : Res :=
  s.swriteWord (.lqtailDoorbell q a x) (0x30002 + 8 * q.val) fun s w l =>
    s.modQueue q.val fun y => { y with tail := BitVec.ofNat 32 (w.rd1 l a) }

/-! ### trap (R335) -/

def execTrap (code : Fin 2048) (a : Reg) (x : Tail) (s : State) : Res :=
  let i := Instr.trap code a x
  s.atIssue i fun w => s.trapWord w w.part (fun l => ⟨0, code.val, w.rd1 l a, 0, 0⟩) (uniform w.w64 i)

/-! ### tlbinv (R338) -/

/-- Entries that a test picks leave the TLBs of a partition; the warp's next clause waits for the accesses they translated. A request
under way that they translated, or whose page the word covers, translates again if it is reissued (R211). -/
def State.tlbDrop (s : State) (x : Iss) (dies : List Nat) (p : Tlb → Bool) (q : Nat → Nat → Bool) : State :=
  let out := s.tlb.filter fun t => dies.contains (t.core / 64) && p t
  let hit := fun (r : Req) => r.loc.isNone && out.any fun t =>
    t.core == r.owner.core && t.ctx == r.owner.ctx && r.accs.any fun a => t.base ≤ a.va && a.va < t.base + 2 ^ t.size
  let ids := (s.reqs.filter hit).map fun r => r.id
  { s with
    tlb := s.tlb.filter fun t => !(dies.contains (t.core / 64) && p t)
    reqs := s.reqs.map fun (r : Req) =>
      if hit r || (r.loc.isNone && dies.contains (r.owner.core / 64) && r.accs.any fun a => q r.owner.ctx a.va) then { r with stale := true }
      else r }.modWarp x.w fun w => { w with hold := w.hold ++ [Hold.reqs ids] }

def execTlbinvPage (c a : Reg) (x : Tail) (s : State) : Res :=
  s.privWord (.tlbinvPage c a x) fun w =>
    let l := lowLane w.part
    let ctx := w.rd1 l c
    let va := w.wp.rdOpt l a 2
    ((s.ccDropCtx (· == ctx)).tlbDrop w (s.diesWith (s.ctxDie ctx)) (fun t => t.ctx == ctx && t.base ≤ va && va < t.base + 2 ^ t.size)
      fun k v => k == ctx && v / 4096 == va / 4096).wordDone w true

def execTlbinvCtx (c : Reg) (x : Tail) (s : State) : Res :=
  s.privWord (.tlbinvCtx c x) fun w =>
    let ctx := w.rd1 (lowLane w.part) c
    ((s.ccDropCtx (· == ctx)).tlbDrop w (s.diesWith (s.ctxDie ctx)) (fun t => t.ctx == ctx) fun k _ => k == ctx).wordDone w true

def execTlbinvAll (x : Tail) (s : State) : Res :=
  s.privWord (.tlbinvAll x) fun w => 
    ((s.ccDropCtx fun _ => true).tlbDrop w (s.diesWith w.wp.die) (fun _ => true) fun _ _ => true).wordDone w true

/-! ### launch (R339) -/

def execLaunch (d r : Reg) (x : CTail) (s : State) : Res :=
  let i := Instr.launch d r x
  s.atIssue i fun w =>
    let unif := uniform w.w64 i
    let ls := w.acts i
    let ctx := s.ctxOf w.wp
    let depth := ((s.ctx? ctx).map fun c => c.devq.length).getD 0
    if ls.isEmpty then s.wordDone w unif
    else if 64 < depth + ls.length || !s.devClear w then s.waitIssue w
    else
      let grp := s.nextId
      let cls := s.clsOf w.wp
      let s := { s with nextId := grp + 1 + ls.length }.modWarp w.w fun y => y.ctrAdd (ctrNat x.ctr)
      let ds := ls.zipIdx.map fun e => (e.1, DevLaunch.mk (w.rd e.1 r 2) cls grp (grp + 1 + e.2) w.w (ctrNat x.ctr))
      let s := s.modCtx ctx fun c => { c with devq := c.devq ++ ds.map fun e => e.2 }
      (s.modWarp w.w fun y => { y with pend := y.pend ++ ds.flatMap fun e => pendTag e.1 d e.2.tag 1 }).wordDone w unif

end Sys2Proof.Machine
end

