-- ==== Sys2Proof/Machine/Trust.lean ====
section
/-! DEFINITION. Protected contexts: `assign`, `kzero` and `lstart` (R396 to R399), the lustration journal and its engines (R400 to R403,
R408, R411, R412), and when placement opens (R386). -/

namespace Sys2Proof.Machine

open Sys2Proof.Forms

/-! ### Resources (R394, R397) -/

/-- Die partitions, as lists of live dies bound to one hierarchy. -/
def State.partitions (s : State) : List (List Nat) :=
  ((List.range s.dies.length).map s.diesWith).eraseDups.filter fun ds => !ds.isEmpty

/-- The partition and tier whose backed range holds a physical address of tiers 0 and 1. -/
def State.backing (s : State) (pa : Nat) : Option (List Nat × Nat) :=
  if 2 ^ 52 ≤ pa then none else
  s.partitions.findSome? fun ds =>
    match (ds.head?).bind fun d => s.dies[d]? with
    | none => none
    | some d =>
      if fld pa 40 12 == d.hbm && fld pa 28 12 < hbmBlocks ds.length then some (ds, 0)
      else if s.moduleForm && fld pa 40 12 == d.lp && fld pa 28 12 < d.lpBlocks then some (ds, 1)
      else none

/-- A core of a live die. -/
def State.liveCore (s : State) (core : Nat) : Bool := ((s.dies[core / 64]?).map fun d => d.live).getD false

/-- Level 1 or 2 of the alarm logic has locked the package (R404). -/
def State.locked (s : State) : Bool := 2 ≤ s.alarm

/-- The statuses of an `assign` that apply (R397, R410), 0 where the context owns the resource already. A
request that names no resource, or sets a bit that must be zero, names none that is owned (log 124). -/
def State.assignStatus (s : State) (idx kind ctx : Nat) (rsv : Bool) : List Nat :=
  let own : Option Own := match kind with
    | 0 => s.coreOwn.lookup idx
    | 1 => (s.backing (idx * 2 ^ 21)).bind fun b => s.frameOwn.lookup (frameKey b.2 (idx * 2 ^ 21))
    | _ => none
  let slot := if kind == 2 then s.keys[idx]? else none
  let bound := (slot.map fun k => k.st == .bound).getD false
  let mine := bound && (slot.map fun k => k.ctx == ctx).getD false
  let no := rsv || (match kind with
    | 0 => !s.liveCore idx
    | 1 => (s.backing (idx * 2 ^ 21)).isNone
    | 2 => idx == 0 || slot.isNone
    | _ => true)
  (if !no && (own == some (.owned ctx) || mine) then [0] else []) ++
  (if no then [1] else []) ++
  (if (match own with | some (.scrub _) => true | _ => false) || (slot.map fun k => k.st == .void).getD false then [2] else []) ++
  (if (match own with | some (.owned c) => c != ctx | _ => false) || (bound && !mine) || (kind == 2 && !mine && (s.boundSlot ctx).isSome)
    then [3] else []) ++
  (if kind < 2 && (s.boundSlot ctx).isNone then [4] else []) ++
  (if kind == 0 && (s.carves.any fun c => c.core == idx && ((s.launches[c.launch]?).map fun l => l.ctx) != some ctx) then [5] else []) ++
  (if kind == 2 && !mine && s.locked then [6] else [])

/-- The assignment itself: an Owned entry, or a slot Bound with a fresh key. -/
def State.assignTo (s : State) (idx kind ctx : Nat) : State :=
  match kind with
  | 0 => { s with coreOwn := mput idx (.owned ctx) s.coreOwn }
  | 1 =>
    match s.backing (idx * 2 ^ 21) with
    | some b => { s with frameOwn := mput (frameKey b.2 (idx * 2 ^ 21)) (.owned ctx) s.frameOwn }
    | none => s
  | _ =>
    match s.keys[idx]? with
    | some k =>
      if k.st == .bound then s else { s with keys := s.keys.set idx ⟨.bound, ctx, s.nextKey⟩, nextKey := s.nextKey + 1 }
    | none => s

/-- A level-S word that waits for its warp's earlier accesses (R396). -/
def State.trustWord (s : State) (i : Instr) (k : Iss → State) : Res :=
  s.privWord i fun x => if !s.devClear x then s.waitIssue x else k x

def execAssign (d r : Reg) (x : CTail) (s : State) : Res :=
  s.trustWord (.assign d r x) fun w =>
    let l := lowLane w.part
    let v := w.rd l r 2
    let idx := v % 2 ^ 32
    let odd := v / 2 ^ 32
    let kind := fld odd 0 4
    let ctx := fld odd 16 16
    let st := (lowest (s.assignStatus idx kind ctx (fld odd 4 12 != 0))).getD 0
    let t := ((if st == 0 then s.assignTo idx kind ctx else s).retire w true (pendN l d st s.clk.cyc 1) 0)
    if st == 6 then t.addDue w.w ⟨w.part, 10, 6, 0, 0, 0, w.addr, none⟩ else t

/-! ### kzero (R398) -/

/-- A slot is destroyed: its lines leave L2 without write-back, and it is Void. -/
def State.voidSlot (s : State) (n : Nat) : State :=
  { s with
    lines := s.lines.filter fun l => l.key != n || 2 ≤ lineTier l.line
    keys := s.keys.modify n fun k => { k with st := .void, key := 0 } }

def execKzero (c : Reg) (x : Tail) (s : State) : Res :=
  s.trustWord (.kzero c x) fun w =>
    let ctx := w.rd1 (lowLane w.part) c
    if s.placed ctx then s.trapWord w w.part (fun _ => ⟨10, 4, 0, 0, 0⟩) true
    else
      match s.boundSlot ctx with
      | none => (s.ccDropCtx (· == ctx)).wordDone w true
      | some n => ((s.ccDropCtx (· == ctx)).voidSlot n).wordDone w true

/-! ### The journal (R399, R403, R408) -/

def Item.units : Item → List Nat
  | .core _ => List.range 48
  | .frame _ => List.range 32
  | .slot _ => []

def State.journalHas (s : State) (i : Item) : Bool := s.journal.any fun j => j.item == i

/-- Everything a context owns becomes Scrubbing and an item of the journal, in the order of R408. -/
def State.enterJournal (s : State) (ctx : Nat) : State :=
  let cores := (s.coreOwn.filter fun e => e.2 == .owned ctx).map fun e => e.1
  let frames := (s.frameOwn.filter fun e => e.2 == .owned ctx).map fun e => (e.1 % 2 ^ 31, e.1)
  let slots := (List.range s.keys.length).filter fun n => n != 0 &&
    ((s.keys[n]?).map fun k => k.st == .void && k.ctx == ctx).getD false && !s.journalHas (.slot n)
  let items := cores.map Item.core ++ (sortOn frames).map (fun e => Item.frame e.2) ++ slots.map Item.slot
  { s with
    coreOwn := s.coreOwn.map fun e => if e.2 == .owned ctx then (e.1, .scrub ctx) else e
    frameOwn := s.frameOwn.map fun e => if e.2 == .owned ctx then (e.1, .scrub ctx) else e
    journal := s.journal ++ items.map fun i => JItem.mk ctx i i.units }

def State.setJob (s : State) (ctx : Nat) (f : Job → Job) : State :=
  let old := (s.jobs.find? fun j => j.ctx == ctx).getD ⟨ctx, false, false⟩
  { s with jobs := f old :: s.jobs.filter fun j => j.ctx != ctx }

/-- Slots whose context has no other item become Free, and jobs without an item end (R400, R411). -/
def State.journalFix (s : State) : State :=
  let free := s.journal.filter fun j => match j.item with
    | .slot _ => !(s.journal.any fun k => k.ctx == j.ctx && (match k.item with | .slot _ => false | _ => true))
    | _ => false
  let s := { s with
    keys := free.foldl (fun (ks : List KeySlot) (j : JItem) => match j.item with
      | .slot n => ks.modify n fun (k : KeySlot) => { k with st := .free }
      | _ => ks) s.keys
    journal := s.journal.filter fun j => !free.contains j }
  { s with jobs := s.jobs.map fun (j : Job) => if s.journal.any (fun k => k.ctx == j.ctx) then j else { j with active := false } }

def execLstart (c : Reg) (x : Tail) (s : State) : Res :=
  s.trustWord (.lstart c x) fun w =>
    let ctx := w.rd1 (lowLane w.part) c
    if s.placed ctx then s.trapWord w w.part (fun _ => ⟨10, 4, 0, 0, 0⟩) true
    else if (s.boundSlot ctx).isSome then s.trapWord w w.part (fun _ => ⟨10, 5, 0, 0, 0⟩) true
    else
      let s := (s.ccDropCtx (· == ctx)).enterJournal ctx
      let any := s.journal.any fun j => j.ctx == ctx
      ((s.setJob ctx fun j => { j with active := any, resumed := false }).journalFix).wordDone w true

/-! ### Boot's last step (R386, R389, R407) -/

/-- Step 6: once the journal is empty and memory is in service, the supervisor context is marked, Void slots become Free, and
placement opens. A part that level 2 has erased opens none; its dies are held once its journal is empty (R404), and after a reset (no
context is left) its Void slots become Free as well. -/
def State.openFix (s : State) : State :=
  if !s.journal.isEmpty then s
  else if 3 ≤ s.alarm then
    { s with
      dies := s.dies.map fun d => { d with live := false }
      keys := if s.ctxs.isEmpty then s.keys.map fun k => if k.st == .void then { k with st := .free } else k else s.keys }
  else if s.opened || s.thermal || !s.boot.romOk || !s.boot.ioReleased || !(s.boot.hbmReady || (s.moduleForm && s.boot.lpReady)) then s
  else
    { s with
      opened := true
      keys := s.keys.map fun k => if k.st == .void then { k with st := .free } else k
      ctxs := [Context.fresh 0 true]
      boot := { s.boot with reduced := !s.boot.hbmReady }
      clk := if s.boot.hbmReady then s.clk else { s.clk with coreMHz := 1200, uncMHz := 1600 } }

/-! ### The lustration engines (R400, R402, R408, R412) -/

/-- The die on which a unit of an item falls. -/
def State.unitDie (s : State) (i : Item) (k : Nat) : Nat :=
  match i with
  | .core n => n / 64
  | .frame f =>
    let pa := f % 2 ^ 31 * 2 ^ 21 + k * 2 ^ 16
    let all := (List.range s.dies.length).filter fun d => ((s.dies[d]?).map fun x => x.live).getD false
    let ds := ((s.backing pa).map fun b => b.1).getD all
    if ds.isEmpty then 0 else (homeOf ds pa none).1
  | .slot _ => 0

/-- The work of one unit: the pool of a core with what the core keeps of the context, or a grain of a frame. -/
def State.scrubUnit (s : State) (j : JItem) (k : Nat) : State :=
  match j.item with
  | .core n =>
    { s with
      tlb := s.tlb.filter fun t => !(t.core == n && t.ctx == j.ctx)
      poolBy := s.poolBy.filter fun e => e.1.2 != n }
  | .frame f =>
    (List.range 512).foldl (fun s i =>
      let ln := lineOf (f / 2 ^ 31) (f % 2 ^ 31 * 2 ^ 21 + k * 2 ^ 16 + i * 128)
      { (s.dropLine ln false).ramWrite ln 0 (List.replicate 128 0) with poison := s.poison.filter fun k => k / 128 != lineMem ln / 128 }) s
  | .slot _ => s

/-- A unit is done; with the last one the core or frame is Free. -/
def State.unitDone (s : State) (i : Item) (k : Nat) : State :=
  let left := ((s.journal.find? fun j => j.item == i).map fun j => j.left.filter fun u => u != k).getD []
  let s := { s with journal := if left.isEmpty then s.journal.filter fun j => j.item != i
    else s.journal.map fun j => if j.item == i then { j with left := left } else j }
  if !left.isEmpty then s
  else
    match i with
    | .core n => { s with coreOwn := mdel n s.coreOwn }
    | .frame f => { s with frameOwn := mdel f s.frameOwn }
    | .slot _ => s

/-- A returned carve-out of a protected context that a die's engine still has to zero (R400). -/
def State.zeroNext (s : State) (die : Nat) : Option Carve := s.carves.find? fun c => c.zeroing && c.core / 64 == die

/-- LUSTRATION_UNIT: the next work of a die's lustration engine: a carve-out to zero, or the first unit in journal order that falls on
the die. -/
def execLustrationUnit (die : Nat) (s : State) : Res :=
  match s.zeroNext die with
  | some c =>
    .next (({ s with carves := s.carves.filter fun x => !(x.core == c.core && x.launch == c.launch && x.zeroing) }).reenter c.core)
  | none =>
    if !((s.dies[die]?).map fun d => d.live).getD false then .next s
    else
      let units := s.journal.flatMap fun j => (j.left.filter fun k => s.unitDie j.item k == die).map fun k => (j, k)
      match units with
      | [] => .next s.openFix
      | (j, k) :: _ => .next ((((s.scrubUnit j k).unitDone j.item k).journalFix).openFix)

end Sys2Proof.Machine
end

