-- ==== Sys2Proof/Machine/Device.lean ====
section
/-! DEFINITION. Device-wide events: interrupts (R377), block moves (R378), alarms (R404, R405), power and clocks (R24 to R26, R389), resets
(R386, R387, R406, R407), function-level resets (R381), host bindings (R357) and the SPDM responder (R391). -/

namespace Sys2Proof.Machine

open Sys2Proof.Forms

/-! ### Interrupts (R377) -/

def State.vector? (s : State) (fn vec : Nat) : Option Vector := (s.fns[fn]?).bind fun f => f.vectors[vec]?

def State.modVector (s : State) (fn vec : Nat) (f : Vector → Vector) : State :=
  { s with fns := s.fns.modify fn fun (x : Function) => { x with vectors := x.vectors.modify vec f } }

/-- The I/O die runs, so that the host port answers (R10, R26); a package erased at level 2 answers nothing but SPDM (R404). -/
def State.answers (s : State) : Bool := s.boot.ioReleased && s.alarm < 3

/-- Lines of tier 2 that a unit of the device has written, a fault-queue entry's among them, and that are still to be written back. -/
def State.unitLines (s : State) : List Line := s.lines.filter fun l => l.dirty && lineTier l.line == 2 && l.own.isNone

/-- What the device's units have written to tier 2 has been accepted by the host: a fault-queue entry has performed at `sys` scope (R377). -/
def State.unitsAccepted (s : State) : Bool := s.unitLines.isEmpty && !(s.wbs.any fun w => w.own.isNone)

/-- A fault-queue entry of a hardware error of a context of the function is still to be written (R377, R383). -/
def State.errorPosts (s : State) (fn : Nat) : Bool :=
  s.ctxs.any fun c => (c.sup && fn == 0 || (s.fnsOf c.num).contains fn) && c.posts.any fun e => e.kind == 3 && e.grp == 9

/-- MSIX_VECTOR_FIRE: a vector with pending events fires: vector 2 at once, 0 and 1 when enough have come or the coalescing time has
passed. A masked one sets its pending bit. Vectors 0 and 2 do not fire ahead of the entries that they announce (R377). -/
def execMsixVectorFire (fn vec : Nat) (s : State) : Res :=
  match s.fns[fn]?, s.vector? fn vec with
  | some f, some v =>
    if v.pending == 0 || 3 ≤ vec || !s.answers then .next s
    else if vec == 2 && s.errorPosts fn then .next s
    else if vec != 1 && !s.unitsAccepted then .next (s.unitLines.foldl State.cleanLine s)
    else
      let now := vec == 2 || fld f.cfg.toNat 10 6 ≤ v.pending
      let s := if now then s else s.advance (s.clk.untilT (v.since + fld f.cfg.toNat 0 10 * 100))
      if v.masked then .next (s.modVector fn vec fun x => { x with pending := 0, pba := true })
      else .next ({ s with out := s.out ++ [Out.msix fn vec] }.modVector fn vec fun x => { x with pending := 0 })
  | _, _ => .next s

/-- MSIX_VECTOR_UNMASK: the host unmasks a vector; a set pending bit fires. -/
def execMsixVectorUnmask (fn vec : Nat) (s : State) : Res :=
  match s.vector? fn vec with
  | none => .next s
  | some v =>
    if !s.answers then .next s
    else
    let s := s.modVector fn vec fun x => { x with masked := false, pba := false }
    .next (if v.pba then { s with out := s.out ++ [Out.msix fn vec] } else s)

/-! ### Block moves (R378) -/

def moveActive (v : DWord) : Bool := fld v.toNat 63 1 == 1

/-- A block of a partition is in a valid tenant partition. -/
def State.tenantBlock (s : State) (die blk : Nat) : Bool :=
  let h := (s.dies[die]?).bind fun d => d.hier
  s.tenparts.any fun t => fld t.toNat 63 1 == 1 && s.tenantHier t.toNat == h && fld t.toNat 32 12 ≤ blk &&
    blk < fld t.toNat 32 12 + fld t.toNat 44 12

/-- MOVECTL_START: a write of Active 1. -/
def execMovectlStart (die : Nat) (val : DWord) (s : State) : Res :=
  match s.dies[die]? with
  | none => .next s
  | some d =>
    let blocks := hbmBlocks (s.diesWith die).length
    if moveActive d.movectl || blocks ≤ moveDst val || blocks ≤ moveSrc val || s.tenantBlock die (moveDst val) then .next s
    else .next (s.modPart die fun x => { x with
      movectl := BitVec.ofNat 64 (2 ^ 63 + moveSrc val * 2 ^ 48 + moveDst val * 2 ^ 36), moveLine := 0 })

/-- The addresses of a line of a move: source and destination. -/
def moveAddr (d : Die) (line : Nat) : Nat × Nat :=
  (d.hbm * 2 ^ 40 + moveSrc d.movectl * 2 ^ 28 + line * 128, d.hbm * 2 ^ 40 + moveDst d.movectl * 2 ^ 28 + line * 128)

/-- MOVECTL_END: a write of Active 0 once every grain is copied ends the move and clears the forwarding bits of the partition's blocks. -/
def execMovectlEnd (die : Nat) (s : State) : Res :=
  match s.dies[die]? with
  | none => .next s
  | some d =>
    if moveDone d.movectl != 4096 then .next s
    else
      .next (({ s with forward := s.forward.filter fun e => e.1 / 2 ^ 24 != d.hbm }).modPart die fun x => { x with
        movectl := BitVec.ofNat 64 (moveSrc x.movectl * 2 ^ 48 + moveDst x.movectl * 2 ^ 36 + 4096) })

/-- What stands in a line: its bytes, the key they stand under, and which of them are poisoned. -/
def State.lineNow (s : State) (ln : Nat) : List Byte × Option Nat × List Nat :=
  let bad := (s.poison.filter fun k => lineMem ln ≤ k && k < lineMem ln + 128).map (· % 128)
  match s.lineOf? ln with
  | some l => (l.data, some (s.keyId l.key), bad)
  | none => (Memory.readN s.mem (lineMem ln) 128, s.memkey.lookup ln, bad)

/-- One line goes to its destination with the key it stands under and with its poison (R382). -/
def State.moveOne (s : State) (a b : Nat) : State :=
  let r := s.lineNow a
  let s := s.dropLine b false
  { s with
    mem := Memory.writeN s.mem (lineMem b) r.1
    memkey := match r.2.1 with | some k => mput b k s.memkey | none => mdel b s.memkey
    poison := (s.poison.filter fun k => k < lineMem b || lineMem b + 128 ≤ k) ++ r.2.2.map (lineMem b + ·) }

/-- The next lines of the grain under copy, at most 8: those not yet copied, in ascending order; then those whose contents have changed since,
which go again before the grain is forwarded (DESIGN CHOICE, log 125). -/
def State.moveNext (s : State) (d : Die) : List (Nat × Nat) :=
  let pair := fun (k : Nat) => (lineOf 0 (moveAddr d k).1, lineOf 0 (moveAddr d k).2)
  let first := moveDone d.movectl * 512
  if d.moveLine < first + 512 then (List.range 8).map fun k => pair (d.moveLine + k)
  else (((List.range 512).map fun k => pair (first + k)).filter fun e => s.lineNow e.1 != s.lineNow e.2).take 8

/-- Every line of a grain stands at its destination: the grain is forwarded from now on, once no line of it carries a release record,
which its source would lose (R233, R378). -/
def State.moveGrain (s : State) (part : Nat) (d : Die) : State :=
  let g := moveAddr d (moveDone d.movectl * 512)
  match s.lines.find? fun l => l.rel.isSome && lineTier l.line == 0 && linePa l.line / 2 ^ 16 == g.1 / 2 ^ 16 with
  | some l => s.evictProbe l
  | none =>
    { s with forward := mput (g.1 / 2 ^ 16) (g.2 / 2 ^ 16) s.forward }.modPart part fun x => { x with movectl := x.movectl + 1 }

/-- BLOCK_MOVE_LINES: the move engine of a partition claims its next lines at both homes, as a copy engine does (R103), or copies those
that it holds and releases them; with a grain's last lines the grain is forwarded (R378). -/
def execBlockMoveLines (part : Nat) (s : State) : Res :=
  match s.dies[part]? with
  | none => .next s
  | some d =>
    if !(moveActive d.movectl && moveDone d.movectl < 4096 && (s.diesWith part).contains part) then .next s
    else
      let eng := Engine.move (((s.diesWith part).head?).getD part)
      let mine := fun (ln : Nat) => s.heldBy.any fun h => h.line == ln && h.eng == eng
      let next := s.moveNext d
      if next.isEmpty then .next ((s.unclaim eng).moveGrain part d)
      else if next.all fun e => mine e.1 then
        let s := (next.foldl (fun s e => s.moveOne e.1 e.2) s).unclaim eng
        .next (s.modPart part fun x => { x with moveLine := min (x.moveLine + 8) (moveDone x.movectl * 512 + 512) })
      else
        let want := next.flatMap fun e => [e.1, e.2]
        let s := s.unclaim eng
        if s.heldBy.any fun h => want.contains h.line then .next s
        else .next { s with heldBy := s.heldBy ++ want.map fun ln => HeldLine.mk ln eng }

/-! ### Work that is lost -/

/-- Every launch on every die ends, with nothing written (R26, R404, R406). -/
def State.loseWork (s : State) : State :=
  { s with
    agenda := [], cur := none, reqs := [], probes := [], walks := [], wfaults := [], heldBy := [], tlb := [], wbs := [], peerWrites := [], ccache := [],
    launches := [], blocks := [], warps := [], carves := [], placeq := [], placeFrom := none, tasks := [], copies := [], mcasts := [], mx := [], lastMx := [], poolBy := [],
    rings := [], stages := [], pipes := [], groups := [], preempts := [], images := [], inbound := [] }

/-! ### Alarms (R404, R405) -/

/-- An alarm of a level is logged, and the level only rises. -/
def State.alarmAt (s : State) (level : Nat) : State := { s with log := s.log ++ [level], alarm := max s.alarm (level + 1) }

/-- The contexts that own a core, a frame or a Bound slot, ascending. -/
def State.owners (s : State) : List Nat :=
  let of : Own → Option Nat := fun o => match o with | .owned c => some c | .scrub _ => none
  let cs := s.coreOwn.filterMap (fun e => of e.2) ++ s.frameOwn.filterMap (fun e => of e.2) ++
    ((s.keys.drop 1).filter fun k => k.st == .bound).map fun k => k.ctx
  (sortOn (cs.eraseDups.map fun c => (c, ()))).map fun e => e.1

/-- Everything that is Owned becomes Scrubbing, with a job for each owner. -/
def State.scrubAll (s : State) (resumed : Bool) : State :=
  let cs := s.owners
  cs.foldl (fun s c => (s.enterJournal c).setJob c fun j => { j with active := true, resumed := resumed }) s

/-- Level 2: every Bound slot is destroyed, everything Owned is lustrated, and the dies are then held (R404). -/
def State.erase (s : State) : State :=
  let cs := s.owners
  let s := { s.loseWork with opened := false }
  let s := (List.range s.keys.length).foldl (fun s n =>
    if n != 0 && ((s.keys[n]?).map fun k => k.st == .bound).getD false then s.voidSlot n else s) s
  ((cs.foldl (fun s c => (s.enterJournal c).setJob c fun j => { j with active := true, resumed := false }) s).journalFix).openFix

def execAlarmLockWrite (s : State) : Res := .next (s.alarmAt 1)
def execAlarmEraseWrite (s : State) : Res := .next (s.alarmAt 2).erase
def execAlarmLogEvent (s : State) : Res := .next (s.alarmAt 0)
def execAlarmLockEvent (s : State) : Res := .next (s.alarmAt 1)
def execAlarmEraseEvent (s : State) : Res := .next (s.alarmAt 2).erase

/-! ### Power and clocks (R23 to R26, R389) -/

/-- THERMAL_TRIP (R26): the compute dies and the I/O die are held in reset, and the boot log counts the trip. -/
def execThermalTrip (s : State) : Res :=
  .next { (s.loseWork).alarmAt 0 with
    thermal := true, trips := s.trips + 1, opened := false, lines := [], dies := s.dies.map fun (d : Die) => { d with live := false },
    boot := { s.boot with ioReleased := false } }

/-- POWER_SAMPLE: at the next multiple of 1,000 ticks, the power average in milliwatts and the junction temperatures in °C. A junction at
115 °C trips (R24, R26); while the I/O die is held its power controller samples nothing. -/
def execPowerSample (milliwatts : Nat) (junctions : List Nat) (s : State) : Res :=
  let s := s.advance (s.clk.untilT ((s.clk.tick / 1000 + 1) * 1000))
  let k := s.clk
  let bad := (if s.moduleForm then 2400000 else 2150000) < milliwatts || junctions.any fun t => 100 < t
  if !s.boot.ioReleased then .next s
  else if junctions.any fun t => 115 ≤ t then execThermalTrip s
  else if bad then
    .next { s with
      excess := true
      clk := if 1000 < k.coreMHz then { k with coreMHz := k.coreMHz - 100 }
        else if 1600 < k.uncMHz then { k with uncMHz := k.uncMHz - 100 } else k }
  else if s.excess then .next { s with excess := false }
  else
    .next { s with
      clk := if k.uncMHz < (if s.boot.reduced then 1600 else 2000) then { k with uncMHz := k.uncMHz + 100 }
        else if k.coreMHz < (if s.boot.reduced then 1200 else 2500) then { k with coreMHz := k.coreMHz + 100 } else k }

def execHbmTrainingDone (s : State) : Res :=
  .next { s with boot := { s.boot with hbmReady := true, reduced := false } }.openFix

def execLpddrTrainingDone (s : State) : Res :=
  .next { s with boot := { s.boot with lpReady := s.moduleForm } }.openFix

/-! ### Resets (R333, R386, R387, R403, R406, R407) -/

/-- The three checks of an image (R388): its signature under the fused key, the die kind it names, and its security version. -/
def Fuses.accepts (f : Fuses) (kind : Nat) (i : BootImage) : Bool :=
  i.signed && i.kind == kind && (if kind == 0 then f.io else f.compute) ≤ i.version && shakeBytes i.key == f.key

/-- The image found for a compute die. -/
def bootDie (b : BootResult) (k : Nat) : BootImage := b.dies.getD k ⟨false, [], 1, 0, []⟩

/-- The steps of R386 up to the journal, over a state whose registers are at reset. A die that has failed is not tried again in the power
cycle (R10). -/
def State.bootUp (s : State) (b : BootResult) : State :=
  let io := b.romOk && s.fuses.accepts 0 b.io
  let before := fun (k : Nat) => ((s.dies[k]?).map fun d => d.failed).getD false
  let tried := (List.range 4).filter fun k => io && !before k
  let okOf := fun (k : Nat) => tried.contains k && s.fuses.accepts 1 (bootDie b k)
  let failed := fun (k : Nat) => tried.contains k && !(s.fuses.accepts 1 (bootDie b k))
  let fails := (if b.romOk && !io then 1 else 0) + ((List.range 4).filter failed).length
  let digests : List (Nat × List Byte) := (if b.romOk then [(2, b.io.bytes)] else []) ++ tried.map fun k => (k + 3, (bootDie b k).bytes)
  let s := { s with
    dies := (List.range 4).map fun k => { Die.released with live := okOf k, failed := failed k || before k, from_ := s.clk.cyc }
    boot := { s.boot with romOk := b.romOk, ioReleased := io }
    measured := digests.foldl (fun (m : List (Nat × List Byte)) (e : Nat × List Byte) => mput e.1 (shakeBytes e.2) m) s.measured
    log := s.log ++ List.replicate fails 0, alarm := if fails == 0 then s.alarm else max s.alarm 1 }
  let bound := (List.range s.keys.length).filter fun n => n != 0 && ((s.keys[n]?).map fun k => k.st == .bound).getD false
  let s := { (s.scrubAll true) with
    jobs := (s.scrubAll true).jobs.map fun (j : Job) => if j.active then { j with resumed := true } else j }
  let items := bound.filterMap fun n => if s.journalHas (.slot n) then none else (s.keys[n]?).map fun (k : KeySlot) => JItem.mk k.ctx (.slot n) []
  let s := { s with
    journal := s.journal ++ items
    keys := ⟨.bound, 0, s.nextKey⟩ :: (s.keys.drop 1).map fun (k : KeySlot) => { k with st := .void, key := 0 }
    nextKey := s.nextKey + 1 }
  (s.journalFix).openFix

/-- Registers and everything transient at their reset values; what outlives every reset is kept. -/
def State.atReset (s : State) : State :=
  { State.reset with
    free := s.free, nextId := s.nextId, moduleForm := s.moduleForm, ports := s.ports, out := s.out, mem := s.mem, memkey := s.memkey,
    keys := s.keys, nextKey := s.nextKey, coreOwn := s.coreOwn, frameOwn := s.frameOwn, journal := s.journal, jobs := s.jobs,
    poison := s.poison, log := s.log, fuses := s.fuses, measured := s.measured, alarm := s.alarm, trips := s.trips, opened := false,
    dies := s.dies.map fun (d : Die) => { Die.released with live := false, failed := d.failed }, ctxs := [],
    clk := { State.reset.clk with cyc := s.clk.cyc, ucyc := s.clk.ucyc } }

/-- Memory of tiers 0 and 1 whose contents are lost is as it is at power-on. -/
def State.loseMemory (s : State) : State := { s with mem := s.mem.filter fun c => 2 ^ 53 ≤ c.1, poison := s.poison.filter fun k => 2 ^ 53 ≤ k, memkey := [] }

/-- POWER_ON: the retained memory of the Calends die is cleared too. -/
def execPowerOn (b : BootResult) (s : State) : Res :=
  let t := s.atReset.loseMemory
  .next ({ t with
    coreOwn := [], frameOwn := [], journal := [], jobs := [], log := [], measured := [], alarm := 0, trips := 0, dies := List.replicate 4 { Die.released with live := false }, keys := State.reset.keys,
    boot := ⟨false, false, false, false, 0, true⟩ }.bootUp b)

/-- COLD_RESET: it also ends the hold of a thermal trip. -/
def execColdReset (b : BootResult) (s : State) : Res :=
  .next ({ s.atReset.loseMemory with boot := ⟨false, false, false, false, 0, true⟩ }.bootUp b)

/-- WARM_RESET: ignored during the hold of a thermal trip. Memory, training and REFTICK go on. -/
def execWarmReset (b : BootResult) (s : State) : Res :=
  if s.thermal then .next s
  else
    .next ({ s.atReset with
      clk := { State.reset.clk with cyc := s.clk.cyc, ucyc := s.clk.ucyc, tick := s.clk.tick }
      boot := ⟨false, s.boot.hbmReady, s.boot.lpReady, false, min (s.boot.resets + 1) 255, true⟩ }.bootUp b)

/-! ### Function-level reset (R381) -/

/-- Contexts bound to a function. -/
def State.ctxsOfFn (s : State) (fn : Nat) : List Nat :=
  (s.ctxs.filter fun c => if c.sup then fn == 0 else (s.fnsOf c.num).contains fn).map fun c => c.num

def State.resetCtx (s : State) (c : Nat) : State :=
  let s := s.haltCtx c
  { s with
    reqs := s.reqs.filter fun r => r.owner.ctx != c
    walks := s.walks.filter fun k => k.ctx != c
    dies := s.dies.map fun (d : Die) => { d with keeps := d.keeps.map fun k => if k.owner == c then { k with valid := false } else k } }

def execFunctionLevelReset (fn : Nat) (s : State) : Res :=
  let s := (s.ctxsOfFn fn).foldl State.resetCtx s
  .next { s with fns := s.fns.modify fn fun f => { f with vectors := Function.atReset.vectors, reset := true } }

def execFunctionLevelResetDone (fn : Nat) (s : State) : Res :=
  .next { s with fns := s.fns.modify fn fun f => { f with reset := false } }

/-! ### Host bindings (R357) -/

/-- HOST_BINDING_CHANGE: a live die joins a hierarchy or leaves one, while no block is placed in a partition concerned. A die that joins a
partition has its registers. -/
def execHostBindingChange (die : Nat) (hierarchy : Option Nat) (s : State) : Res :=
  let there := (List.range s.dies.length).filter fun k => k != die &&
    ((s.dies[k]?).map fun d => d.live && d.hier.isSome && d.hier == hierarchy).getD false
  let live := ((s.dies[die]?).map fun d => d.live).getD false
  if !s.answers then .next s
  else if !live || 8 ≤ hierarchy.getD 0 || s.placedOn (die :: s.diesWith die ++ there) then .next { s with out := s.out ++ [.error] }
  else
    match (there.head?).bind fun k => s.dies[k]? with
    | some o => .next (s.modDie die fun d => { d with
        hier := hierarchy, hbm := o.hbm, lp := o.lp, lpBlocks := o.lpBlocks, fabric := o.fabric, window := o.window, movectl := o.movectl,
        moveLine := o.moveLine })
    | none => .next (s.modDie die fun d => { d with hier := hierarchy })

/-! ### SPDM (R391) -/

/-- An answer whose bytes the responder fills from its keys, certificates, random generator and the Calends log (R391, R404). -/
def State.spdmAnswer (s : State) (req : Nat) (msg : List Byte) : List Byte :=
  (List.range (Config.spdmLength req s.log msg)).map (Config.spdmByte req s.log msg)

/-- SPDM's error message: ERROR, with InvalidRequest (1) or, for a request out of its place, UnexpectedRequest (4) (log 58). -/
def spdmError (code : Byte) : List Byte := [0x13, 0x7F, code, 0x00]

/-- A request is answered once the Calends ROM runs; out of its place it gets an error. -/
def State.spdmStep (s : State) (ok : Bool) (answer : List Byte) (f : Spdm → Spdm) : Res :=
  if !s.boot.romOk then .next s
  else if !ok then .next { s with out := s.out ++ [.spdm (spdmError 4)] }
  else .next { s with out := s.out ++ [.spdm answer], spdm := f s.spdm }

def execSpdmGetVersion (msg : List Byte) (s : State) : Res :=
  s.spdmStep true (s.spdmAnswer 0 msg) fun _ => ⟨true, false, false, false, false⟩

def execSpdmGetCapabilities (msg : List Byte) (s : State) : Res :=
  s.spdmStep s.spdm.version (s.spdmAnswer 1 msg) fun p => { p with caps := true }

def execSpdmNegotiateAlgorithms (msg : List Byte) (s : State) : Res :=
  s.spdmStep s.spdm.caps (s.spdmAnswer 2 msg) fun p => { p with algs := true }

def execSpdmGetDigests (msg : List Byte) (s : State) : Res := s.spdmStep s.spdm.algs (s.spdmAnswer 3 msg) id

def execSpdmGetCertificate (msg : List Byte) (s : State) : Res := s.spdmStep s.spdm.algs (s.spdmAnswer 4 msg) id

def execSpdmChallenge (msg : List Byte) (s : State) : Res := s.spdmStep s.spdm.algs (s.spdmAnswer 5 msg) id

/-- Measurement block n: the digest recorded of its image, or the fused versions as they are; the low bit of its value type says that its die
failed (log 58). -/
def State.measurement (s : State) (n : Nat) : List Byte :=
  let failed := 3 ≤ n && n ≤ 6 && ((s.dies[n - 3]?).map fun d => d.failed).getD false
  let value := if n == 7 then Config.fusedStream s.fuses.io s.fuses.compute else (s.measured.lookup n).getD (shakeBytes (Config.bootImage n))
  BitVec.ofNat 8 n :: BitVec.ofNat 8 ((Config.spdmByte 10 [] [] n).toNat / 2 * 2 + if failed then 1 else 0) :: value

/-- What GET_MEASUREMENTS asks for by index: the number of blocks (0), one block, or all (0xFF); another index is an invalid request (SPDM,
log 58). -/
def State.measurements (s : State) (index : Nat) : Option (List Byte) :=
  if index == 0 then some [7]
  else if index == 0xFF then some ((List.range 7).flatMap fun k => s.measurement (k + 1))
  else if index ≤ 7 then some (s.measurement index)
  else none

def execSpdmGetMeasurements (index : Nat) (msg : List Byte) (s : State) : Res :=
  s.spdmStep s.spdm.algs (match s.measurements index with
    | some m => m ++ s.spdmAnswer 6 msg
    | none => spdmError 1) id

def execSpdmKeyExchange (msg : List Byte) (s : State) : Res :=
  s.spdmStep s.spdm.algs (s.spdmAnswer 7 msg) fun p => { p with exchanged := true }

def execSpdmFinish (msg : List Byte) (s : State) : Res :=
  s.spdmStep s.spdm.exchanged (s.spdmAnswer 8 msg) fun p => { p with session := true }

end Sys2Proof.Machine
end

