-- ==== Sys2Proof/Machine/Float.lean ====
section
/-! DEFINITION. Floating arithmetic, comparison and classes, special functions, F64 and packed pairs (R154 to R159). -/

namespace Sys2Proof.Machine

open Sys2Proof.Forms

/-! ### F32, F16, BF16 (R154, R155) -/

def execFadd (t : FTy) (ftz : Bool) (r : Rnd) (d a b : Reg) (x : VTail) (s : State) : Res :=
  s.flt3 (.fadd t ftz r d a b x) t ftz r 5 d a b (addFl r)

def execFsub (t : FTy) (ftz : Bool) (r : Rnd) (d a b : Reg) (x : VTail) (s : State) : Res :=
  s.flt3 (.fsub t ftz r d a b x) t ftz r 5 d a b fun p q => addFl r p q.neg

def execFmul (t : FTy) (ftz : Bool) (r : Rnd) (d a b : Reg) (x : VTail) (s : State) : Res :=
  s.flt3 (.fmul t ftz r d a b x) t ftz r 5 d a b mulFl

def execFfma (t : FTy) (ftz : Bool) (r : Rnd) (d a b c : Reg) (x : VTail) (s : State) : Res :=
  s.flt4 (.ffma t ftz r d a b c x) t ftz r 5 d a b c (fmaFl r)

def execFmin (t : FTy) (ftz : Bool) (d a b : Reg) (x : VTail) (s : State) : Res :=
  s.flt3 (.fmin t ftz d a b x) t ftz .rn 5 d a b fun p q => (minFl p q, sigFlag [p, q])

def execFmax (t : FTy) (ftz : Bool) (d a b : Reg) (x : VTail) (s : State) : Res :=
  s.flt3 (.fmax t ftz d a b x) t ftz .rn 5 d a b fun p q => (maxFl p q, sigFlag [p, q])

/-- The bits of a float operand (R114: a 16-bit scalar in bits [15:0]). -/
def Iss.fbits (x : Iss) (t : FTy) (l : Nat) (a : Reg) : Nat := x.rd l a (ftyRegs t) % (2 * (fmtOf t).signBit)

def execFneg (t : FTy) (d a : Reg) (x : VTail) (s : State) : Res :=
  s.regWord (.fneg t d a x) d (ftyRegs t) 5 fun w l => (w.fbits t l a ^^^ (fmtOf t).signBit, 0)

def execFabs (t : FTy) (d a : Reg) (x : VTail) (s : State) : Res :=
  s.regWord (.fabs t d a x) d (ftyRegs t) 5 fun w l => (w.fbits t l a % (fmtOf t).signBit, 0)

def execFcmp (k : Cmp) (t : FTy) (ftz : Bool) (q : Fin 8) (a b : Reg) (x : VTail) (s : State) : Res :=
  s.qWord (.fcmp k t ftz q a b x) q 5 fun w l =>
    let p := w.fl t ftz l a
    let r := w.fl t ftz l b
    (cmpFl k p r, sigFlag [p, r])

/-- The class bit of R156. -/
def classBit (f : Fmt) (v : Fl) : Nat :=
  match v with
  | .nan sig => if sig then 0 else 1
  | .inf neg => if neg then 2 else 9
  | .fin neg m _ =>
    if m == 0 then (if neg then 5 else 6)
    else if m < 2 ^ f.mb then (if neg then 4 else 7) else (if neg then 3 else 8)

def execFclass (t : FTy) (d a : Reg) (x : VTail) (s : State) : Res :=
  s.regWord (.fclass t d a x) d 1 5 fun w l => (2 ^ classBit (fmtOf t) (w.fl t false l a), 0)

/-! ### Special functions (R157) -/

def execFrcp (ftz : Bool) (r : Rnd) (d a : Reg) (x : VTail) (s : State) : Res :=
  s.flt2 (.frcp ftz r d a x) .f32 ftz r 12 d a rcpFl
def execFrsq (ftz : Bool) (d a : Reg) (x : VTail) (s : State) : Res :=
  s.flt2 (.frsq ftz d a x) .f32 ftz .rn 12 d a rsqFl
def execFsqrt (ftz : Bool) (r : Rnd) (d a : Reg) (x : VTail) (s : State) : Res :=
  s.flt2 (.fsqrt ftz r d a x) .f32 ftz r 12 d a sqrtFl
def execFexp2 (ftz : Bool) (d a : Reg) (x : VTail) (s : State) : Res :=
  s.flt2 (.fexp2 ftz d a x) .f32 ftz .rn 12 d a exp2Fl
def execFlog2 (ftz : Bool) (d a : Reg) (x : VTail) (s : State) : Res :=
  s.flt2 (.flog2 ftz d a x) .f32 ftz .rn 12 d a log2Fl
def execFsin (ftz : Bool) (d a : Reg) (x : VTail) (s : State) : Res :=
  s.flt2 (.fsin ftz d a x) .f32 ftz .rn 12 d a sinFl
def execFcos (ftz : Bool) (d a : Reg) (x : VTail) (s : State) : Res :=
  s.flt2 (.fcos ftz d a x) .f32 ftz .rn 12 d a cosFl

/-! ### F64 (R158) -/

def execDadd (r : Rnd) (d a b : Reg) (x : VTail) (s : State) : Res :=
  s.flt3 (.dadd r d a b x) .f64 false r 10 d a b (addFl r)
def execDmul (r : Rnd) (d a b : Reg) (x : VTail) (s : State) : Res :=
  s.flt3 (.dmul r d a b x) .f64 false r 10 d a b mulFl
def execDfma (r : Rnd) (d a b c : Reg) (x : VTail) (s : State) : Res :=
  s.flt4 (.dfma r d a b c x) .f64 false r 10 d a b c (fmaFl r)

def execDcmp (k : Cmp) (q : Fin 8) (a b : Reg) (x : VTail) (s : State) : Res :=
  s.qWord (.dcmp k q a b x) q 10 fun w l =>
    let p := w.fl .f64 false l a
    let r := w.fl .f64 false l b
    (cmpFl k p r, sigFlag [p, r])

/-! ### Packed pairs (R159) -/

def execHadd2 (t : FTy) (r : Rnd) (d a b : Reg) (x : VTail) (s : State) : Res :=
  s.pair3 (.hadd2 t r d a b x) t r d a b (addFl r)
def execHmul2 (t : FTy) (r : Rnd) (d a b : Reg) (x : VTail) (s : State) : Res :=
  s.pair3 (.hmul2 t r d a b x) t r d a b mulFl

def execHfma2 (t : FTy) (r : Rnd) (d a b c : Reg) (x : VTail) (s : State) : Res :=
  s.regWord (.hfma2 t r d a b c x) d 1 5 fun w l =>
    let f := fmtOf t
    let e := fun k => f.encode r false
      (fmaFl r (f.decode (half (w.rd1 l a) k)) (f.decode (half (w.rd1 l b) k)) (f.decode (half (w.rd1 l c) k)))
    ((e 0).1 + 2 ^ 16 * (e 1).1, (e 0).2 ||| (e 1).2)

end Sys2Proof.Machine
end

