-- ==== Sys2Proof/Machine/Host.lean ====
section
/-! DEFINITION. What the host and fabric peers do to device memory: posted writes and the ordering point (R243), reads and AtomicOps
(R360), CXL.mem and back-invalidations (R359), and fabric requests and ports (R361 to R363, R372). -/

namespace Sys2Proof.Machine

open Sys2Proof.Forms

/-! ### Device memory as the outside addresses it -/

/-- The place of an inbound access: backed, and in no frame that is Owned or Scrubbing (R394). -/
def State.outerPlace (s : State) (ds : List Nat) (tier pa slot : Nat) : Option Place :=
  if (s.frameOwn.lookup (frameKey tier pa)).isSome then none
  else
    let h := homeOf ds pa none
    some (s.forwarded ⟨tier, pa, slot, true, h.1, h.2⟩)

def State.hostPlace (s : State) (pa : Nat) : Option Place := (s.backing pa).bind fun b => s.outerPlace b.1 b.2 pa 0

/-- The line of a place is held by an engine. -/
def State.engineHas (s : State) (p : Place) : Bool := s.heldBy.any fun h => h.line == lineOf p.tier p.pa

/-- The places of n bytes, none where one byte has none. -/
def State.outerPlaces (place : Nat → Option Place) (pa : Nat) : Nat → Option (List Place)
  | 0 => some []
  | n + 1 =>
    match place pa, State.outerPlaces place (pa + 1) n with
    | some p, some ps => some (p :: ps)
    | _, _ => none

def State.outerRead (s : State) (ps : List Place) : List Byte := ps.map fun p => s.viewByte p.tier p.pa p.key

/-- Bytes written at their homes; a line's release record is cleared (R233). -/
def State.outerWrite (s : State) (ps : List Place) (data : List Byte) : State :=
  (ps.zip data).foldl (fun s e => s.putLine e.1 [e.2] none none) s

/-- The line of a place stands in L2 under another slot (R392). -/
def State.otherSlot (s : State) (p : Place) : Option Line := (s.lineOf? (lineOf p.tier p.pa)).filter fun l => l.key != p.key

/-- Lines that an outside access meets under another slot are written back and removed (R392); one with a release record leaves once its core
has answered the slice's probe (R233 item 4). -/
def State.outerMiss (s : State) (ps : List Place) : State :=
  ps.foldl (fun s p => match s.otherSlot p with
    | some l => if l.rel.isSome then s.evictProbe l else s.slotMiss p
    | none => s) s

/-- What becomes of an outside access. -/
inductive Outer where
  | wait (s : State)            -- a line is held by an engine, or stands under another slot with a release record
  | refused
  | done (s : State) (data : List Byte)
  deriving DecidableEq, Repr

/-- An access to places, once none of them is held and none stands under another slot. -/
def State.outerAt (s : State) (ps : List Place) (k : State → State × List Byte) : Outer :=
  if ps.any s.engineHas then .wait s
  else
    let t := s.outerMiss ps
    if ps.any fun p => (t.otherSlot p).isSome then .wait t else let r := k t; .done r.1 r.2

/-- An atomic of n bytes, applied by the home slice's service warp (R195, R360, R363). -/
def State.outerAtomic (s : State) (place : Nat → Option Place) (pa : Nat) (o : AtomOp) (w : AWidth) (cas : Bool) (data : List Byte) : Outer :=
  let n := atomSize w
  if pa % n != 0 then .refused
  else
    match State.outerPlaces place pa n with
    | none => .refused
    | some ps =>
      s.outerAt ps fun t => (t.outerWrite ps (atomBytes o w cas (t.outerRead ps) data), t.outerRead ps)

def State.outer (s : State) (place : Nat → Option Place) (pa : Nat) (a : OuterAccess) : Outer :=
  match a with
  | .read n =>
    match State.outerPlaces place pa n with
    | none => .refused
    | some ps => s.outerAt ps fun t => (t, t.outerRead ps)
  | .write data =>
    match State.outerPlaces place pa data.length with
    | none => .refused
    | some ps => s.outerAt ps fun t => (t.outerWrite ps data, [])
  | .atomic o w cas data => s.outerAtomic place pa o w cas data

/-- The outcome of an outside access, with the message that answers it. -/
def State.outerRes (s : State) (o : Outer) (reply : List Byte → Out) : Res :=
  match o with
  | .wait t => .next t
  | .refused => .next { s with out := s.out ++ [.error] }
  | .done t data => .next { t with out := t.out ++ [reply data] }

/-! ### Posted writes (R243) -/

/-- The route of a part: its home slice; an address with no place has none. -/
def State.route (s : State) (pa : Nat) : Option (Nat × Nat) := (s.hostPlace pa).map fun p => (p.die, p.slice)

/-- Bytes of a write cut at line boundaries. -/
def cutLines (pa : Nat) : Nat → List Byte → List (Nat × List Byte)
  | 0, _ => []
  | n + 1, data =>
    let k := 128 - pa % 128
    if data.length ≤ k then (if data.isEmpty then [] else [(pa, data)]) else (pa, data.take k) :: cutLines (pa + k) n (data.drop k)

/-- A write may be sent: at once with Relaxed Ordering set, else when no earlier one is unacknowledged on another route. -/
def State.maySend (s : State) (x : Inbound) : Bool :=
  x.relaxed || (s.inbound.all fun y => x.id ≤ y.id || y.parts.all fun p => x.parts.all fun q => s.route p.1 == s.route q.1)

/-- Held writes are sent in arrival order as they may be; sent ones stand in the order in which they were sent. -/
def State.sendInbound (s : State) : State :=
  let held := (s.inbound.filter fun x => !x.sent).map fun x => (x.id, x)
  (sortOn held).foldl (fun s e =>
    if s.maySend e.2 then { s with inbound := (s.inbound.filter fun y => y.id != e.1) ++ [{ e.2 with sent := true }] } else s) s

/-- HOST_POSTED_WRITE. -/
def execHostPostedWrite (fn pa : Nat) (data : List Byte) (relaxed : Bool) (s : State) : Res :=
  let parts := (cutLines pa (data.length / 128 + 2) data).filter fun p => (s.hostPlace p.1).isSome
  if parts.isEmpty || !s.answers then .next s
  else .next ({ s with nextId := s.nextId + 1, inbound := s.inbound ++ [Inbound.mk s.nextId fn relaxed parts false] }.sendInbound)

/-- INBOUND_WRITE_ACK: the next part of a sent write performs at its home, after earlier ones of its route, and is acknowledged. The
parts of one write perform in the order of their addresses, also those on different routes, which R243 does not order (DESIGN CHOICE, log
123). -/
def execInboundWriteAck (write : Nat) (s : State) : Res :=
  match s.inbound.find? fun x => x.id == write with
  | none => .next s
  | some x =>
    match x.parts with
    | [] => .next { s with inbound := s.inbound.filter fun y => y.id != write }
    | (pa, data) :: rest =>
      let before := s.inbound.takeWhile fun y => y.id != write
      let clear := before.all fun y => !y.sent || y.parts.all fun p => s.route p.1 != s.route pa
      match State.outerPlaces s.hostPlace pa data.length with
      | none => .next { s with inbound := s.inbound.map fun (y : Inbound) => if y.id == write then { y with parts := rest } else y }
      | some ps =>
        if !x.sent || !clear then .next s
        else
          match s.outerAt ps fun t => (t.outerWrite ps data, []) with
          | .refused => .next s
          | .wait t => .next t
          | .done t _ => .next ({ t with inbound := (t.inbound.map fun (y : Inbound) => if y.id == write then { y with parts := rest } else y).filter fun y =>
            !y.parts.isEmpty }.sendInbound)

/-! ### Non-posted requests (R360) -/

/-- The ordering point lets a non-posted request of n bytes pass. -/
def State.mayPass (s : State) (fn pa n : Nat) (relaxed : Bool) : Bool :=
  if relaxed then
    let mine := (List.range ((pa % 128 + n + 127) / 128)).map fun k => s.route (pa / 128 * 128 + 128 * k)
    s.inbound.all fun y => y.parts.all fun p => !mine.contains (s.route p.1)
  else s.inbound.all fun y => y.fn != fn

def execHostNonpostedRead (fn pa len : Nat) (relaxed : Bool) (s : State) : Res :=
  if !s.answers || !s.mayPass fn pa len relaxed then .next s else s.outerRes (s.outer s.hostPlace pa (.read len)) fun d => .hostRead fn d

def execHostAtomicop (fn pa : Nat) (op : AtomOp) (w : AWidth) (cas : Bool) (data : List Byte) (relaxed : Bool) (s : State) : Res :=
  if !s.answers || !s.mayPass fn pa (atomSize w) relaxed then .next s
  else
    s.outerRes (if hostAccepts op w cas then s.outerAtomic s.hostPlace pa op w cas data else .refused) fun d => .hostAtomic fn d

/-! ### CXL (R359, R360) -/

/-- A byte of a partition's HBM range. -/
def State.hbmPlace (s : State) (die slot pa : Nat) : Option Place :=
  match s.dies[die]? with
  | none => none
  | some d =>
    if fld pa 40 12 == d.hbm && fld pa 28 12 < hbmBlocks (s.diesWith die).length then s.outerPlace (s.diesWith die) 0 pa slot else none

def execCxlMemRequest (part pa : Nat) (a : OuterAccess) (s : State) : Res :=
  if !s.answers then .next s
  else s.outerRes (match a with | .atomic _ _ _ _ => .refused | _ => s.outer (s.hbmPlace part 0) pa a) fun d => .cxl d

/-- HOST_BACK_INVALIDATION: a dirty line is written back, and the host port has taken all of it, before the home slice drops the line and
answers (R359); one with a release record leaves once its core has answered the slice's probe (R233 item 4). -/
def execHostBackInvalidation (line : Nat) (s : State) : Res :=
  if !s.answers || lineTier line != 2 || s.heldBy.any (fun h => h.line == line) then .next s
  else
    let drop := { s.dropLine line false with ccache := s.ccache.filter fun e => e.2.2.1 != line, out := s.out ++ [.invalidated line] }
    match s.lineOf? line with
    | some l =>
      if l.rel.isSome then .next (s.evictProbe l)
      else if l.dirty then .next (s.cleanLine l)
      else if s.wbs.any fun w => w.line == line then .next s
      else .next drop
    | none => if s.wbs.any fun w => w.line == line then .next s else .next drop

/-! ### The fabric (R361 to R363) -/

/-- The kind and size of a request that UALink and the window let in. -/
def fabricOk (window addr : Nat) (a : OuterAccess) : Bool :=
  match a with
  | .read n => 1 ≤ n && addr % 64 + n ≤ 64
  | .write data => window.testBit 62 && 1 ≤ data.length && addr % 64 + data.length ≤ 64
  | .atomic _ w cas _ => window.testBit 61 && (if w == .w128 then cas else w != .bf2)

def execFabricInboundRequest (part station addr : Nat) (a : OuterAccess) (s : State) : Res :=
  match s.dies[part]? with
  | none => .next { s with out := s.out ++ [.error] }
  | some d =>
    let w := d.window.toNat
    let known := d.fabric.any fun e => fld e.2.toNat 63 1 == 1 && fld e.2.toNat 0 16 == station
    let blk := fld w 24 12 + addr / 2 ^ 28
    let pa := d.hbm * 2 ^ 40 + blk * 2 ^ 28 + addr % 2 ^ 28
    let ok := (s.diesWith part).contains part && w.testBit 63 && known && addr / 2 ^ 28 < fld w 0 12 && fabricOk w addr a
    if !s.answers then .next s
    else s.outerRes (if ok then s.outer (s.hbmPlace part (fld w 48 8)) pa a else .refused) fun x => .fabric station x

/-- FABRIC_PORT_DOWN: the port bounces what it holds, requests with reason 5 and engines' writes, and goes down; members all of whose ports are down leave their groups
(R372). -/
def execFabricPortDown (port : Nat) (s : State) : Res :=
  let held := (s.reqs.filter fun r => r.loc.isNone && r.place.tier == 3 && r.st == .flight && s.portOf r == some port).map fun r => r.id
  let s := (s.peerWrites.filter fun w => w.due == 0 && s.portAt w.die w.pa == some port).foldl State.bounceWrite s
  .next ({ s with
    reqs := s.reqs.map fun (r : Req) => if held.contains r.id then { r with st := .token 5 } else r
    ports := s.ports.set port false }.portsFix)

def execFabricPortUp (port : Nat) (s : State) : Res := .next { s with ports := s.ports.set port true }

end Sys2Proof.Machine
end

