-- ==== Sys2Proof/Machine/Integer.lean ====
section
/-! DEFINITION. Integer arithmetic, logic, shifts, bit fields, moves, selection and integer comparison (R145 to R153). -/

namespace Sys2Proof.Machine

open Sys2Proof.Forms

/-! ### Arithmetic (R145) -/

def execIadd (t : Ty) (d a b : Reg) (x : VTail) (s : State) : Res := s.int3 (.iadd t d a b x) t d a b (· + ·)
def execIsub (t : Ty) (d a b : Reg) (x : VTail) (s : State) : Res := s.int3 (.isub t d a b x) t d a b (· - ·)
def execImul (t : Ty) (d a b : Reg) (x : VTail) (s : State) : Res := s.int3 (.imul t d a b x) t d a b (· * ·)

def execImulh (t : Ty) (d a b : Reg) (x : VTail) (s : State) : Res :=
  s.int3 (.imulh t d a b x) t d a b fun p q => p * q / 2 ^ tyBits t

def execImad (t : Ty) (d a b c : Reg) (x : VTail) (s : State) : Res :=
  s.regWord (.imad t d a b c x) d (tyRegs t) 4 fun w l =>
    let n := tyRegs t
    (intRes t (intOf t (w.rd l a n) * intOf t (w.rd l b n) + intOf t (w.rd l c n)), 0)

def execImadw (t : Ty) (d a b c : Reg) (x : VTail) (s : State) : Res :=
  s.regWord (.imadw t d a b c x) d 2 4 fun w l =>
    (((intOf t (w.rd l a 1) * intOf t (w.rd l b 1) + numOf (tySigned t) 64 (w.rd l c 2)) % 2 ^ 64).toNat, 0)

def execIaddc (t : Ty) (d a b c : Reg) (x : VTail) (s : State) : Res :=
  s.regWord (.iaddc t d a b c x) d 2 4 fun w l => (w.rd l a 1 + w.rd l b 1 + w.rd l c 1 % 2, 0)

def execImin (t : Ty) (d a b : Reg) (x : VTail) (s : State) : Res := s.int3 (.imin t d a b x) t d a b min
def execImax (t : Ty) (d a b : Reg) (x : VTail) (s : State) : Res := s.int3 (.imax t d a b x) t d a b max
def execIabs (t : Ty) (d a : Reg) (x : VTail) (s : State) : Res := s.int2 (.iabs t d a x) t d a fun p => (p.natAbs : Int)
def execIneg (t : Ty) (d a : Reg) (x : VTail) (s : State) : Res := s.int2 (.ineg t d a x) t d a fun p => -p

def execIsad (t : Ty) (d a b c : Reg) (x : VTail) (s : State) : Res :=
  s.regWord (.isad t d a b c x) d 1 4 fun w l =>
    ((intOf t (w.rd l a 1) - intOf t (w.rd l b 1)).natAbs + w.rd l c 1, 0)

/-! ### Logic (R146, R147) -/

def execLand (wide : Bool) (d a b : Reg) (x : VTail) (s : State) : Res :=
  s.bits3 (.land wide d a b x) wide d a b fun p q => p &&& q
def execLor (wide : Bool) (d a b : Reg) (x : VTail) (s : State) : Res :=
  s.bits3 (.lor wide d a b x) wide d a b fun p q => p ||| q
def execLxor (wide : Bool) (d a b : Reg) (x : VTail) (s : State) : Res :=
  s.bits3 (.lxor wide d a b x) wide d a b fun p q => p ^^^ q
def execLandn (wide : Bool) (d a b : Reg) (x : VTail) (s : State) : Res :=
  s.bits3 (.landn wide d a b x) wide d a b fun p q => p &&& (q ^^^ (2 ^ (32 * wideRegs wide) - 1))

def execLnot (wide : Bool) (d a : Reg) (x : VTail) (s : State) : Res :=
  s.regWord (.lnot wide d a x) d (wideRegs wide) 4 fun w l => (2 ^ (32 * wideRegs wide) - 1 - w.rd l a (wideRegs wide), 0)

/-- Bit i of three sources through the tables F (c = 0) and G (c = 1). -/
def lselBit (f g : Fin 16) (a b c i : Nat) : Bool :=
  (if c.testBit i then g.val else f.val).testBit ((if a.testBit i then 1 else 0) + (if b.testBit i then 2 else 0))

def execLsel (f g : Fin 16) (d a b c : Reg) (x : Tail) (s : State) : Res :=
  s.regWord (.lsel f g d a b c x) d 1 4 fun w l => (bitsFrom 32 (lselBit f g (w.rd1 l a) (w.rd1 l b) (w.rd1 l c)), 0)

/-! ### Shifts (R148) -/

def execShl (t : Ty) (d a b : Reg) (x : VTail) (s : State) : Res :=
  s.regWord (.shl t d a b x) d (tyRegs t) 4 fun w l =>
    let k := w.rd1 l b
    (if tyBits t ≤ k then 0 else w.rd l a (tyRegs t) * 2 ^ k % 2 ^ tyBits t, 0)

def execShr (t : Ty) (d a b : Reg) (x : VTail) (s : State) : Res :=
  s.regWord (.shr t d a b x) d (tyRegs t) 4 fun w l =>
    let k := w.rd1 l b
    (if tyBits t ≤ k then 0 else w.rd l a (tyRegs t) / 2 ^ k, 0)

def execSar (t : Ty) (d a b : Reg) (x : VTail) (s : State) : Res :=
  s.regWord (.sar t d a b x) d (tyRegs t) 4 fun w l =>
    (intRes t (intOf t (w.rd l a (tyRegs t)) / 2 ^ min (w.rd1 l b) (tyBits t - 1)), 0)

def execRot (t : Ty) (d a b : Reg) (x : VTail) (s : State) : Res :=
  s.regWord (.rot t d a b x) d (tyRegs t) 4 fun w l =>
    let n := tyBits t
    let k := w.rd1 l b % n
    let v := w.rd l a (tyRegs t)
    (v * 2 ^ k % 2 ^ n + v / 2 ^ (n - k), 0)

/-! ### Bit fields (R149, R150) -/

/-- `bfx`: n bits of a from p, read with the sign above the width for `i` types. -/
def bfxVal (t : Ty) (a b c : Nat) : Nat :=
  let w := tyBits t
  let p := min b w
  let n := min c w
  if n == 0 then 0
  else intRes t (numOf (tySigned t) n ((intOf t a / 2 ^ p) % 2 ^ n).toNat)

def execBfx (t : Ty) (d a b c : Reg) (x : VTail) (s : State) : Res :=
  s.regWord (.bfx t d a b c x) d (tyRegs t) 4 fun w l => (bfxVal t (w.rd l a (tyRegs t)) (w.rd1 l b) (w.rd1 l c), 0)

/-- `bfi`: c with n bits from p replaced by the low bits of a. -/
def bfiVal (t : Ty) (a b c : Nat) : Nat :=
  let w := tyBits t
  let p := b % 256
  let n := b / 256 % 256
  if w ≤ p || n == 0 then c
  else bitsFrom w fun i => if p ≤ i && i < p + n then a.testBit (i - p) else c.testBit i

def execBfi (t : Ty) (d a b c : Reg) (x : VTail) (s : State) : Res :=
  s.regWord (.bfi t d a b c x) d (tyRegs t) 4 fun w l =>
    (bfiVal t (w.rd l a (tyRegs t)) (w.rd1 l b) (w.rd l c (tyRegs t)), 0)

def execPopc (t : Ty) (d a : Reg) (x : VTail) (s : State) : Res :=
  s.regWord (.popc t d a x) d 1 4 fun w l =>
    (((List.range (tyBits t)).filter fun i => (w.rd l a (tyRegs t)).testBit i).length, 0)

def execClz (t : Ty) (d a : Reg) (x : VTail) (s : State) : Res :=
  s.regWord (.clz t d a x) d 1 4 fun w l =>
    let v := w.rd l a (tyRegs t)
    (if v == 0 then tyBits t else tyBits t - 1 - Nat.log2 v, 0)

def execCtz (t : Ty) (d a : Reg) (x : VTail) (s : State) : Res :=
  s.regWord (.ctz t d a x) d 1 4 fun w l =>
    (((List.range (tyBits t)).find? fun i => (w.rd l a (tyRegs t)).testBit i).getD (tyBits t), 0)

def execBrev (t : Ty) (d a : Reg) (x : VTail) (s : State) : Res :=
  s.regWord (.brev t d a x) d (tyRegs t) 4 fun w l =>
    (bitsFrom (tyBits t) fun i => (w.rd l a (tyRegs t)).testBit (tyBits t - 1 - i), 0)

/-! ### Addresses, comparisons, moves (R151 to R153) -/

def execLea (t : Ty) (d a b c : Reg) (x : VTail) (s : State) : Res :=
  s.regWord (.lea t d a b c x) d 2 4 fun w l =>
    ((((w.rd l a 2 : Int) + intOf t (w.rd l b 1) * 2 ^ (w.rd1 l c % 64)) % 2 ^ 64).toNat, 0)

def cmpInt (k : Cmp) (a b : Int) : Bool :=
  match k with
  | .eq => a == b
  | .ne => a != b
  | .lt => a < b
  | .le => a ≤ b
  | .gt => b < a
  | .ge => b ≤ a

def execIcmp (k : Cmp) (t : Ty) (q : Fin 8) (a b : Reg) (x : VTail) (s : State) : Res :=
  s.qWord (.icmp k t q a b x) q 4 fun w l =>
    (cmpInt k (intOf t (w.rd l a (tyRegs t))) (intOf t (w.rd l b (tyRegs t))), 0)

def execSel (t : Ty) (d a b : Reg) (q : Fin 8) (neg : Bool) (x : VTail) (s : State) : Res :=
  s.regWord (.sel t d a b q neg x) d (tyRegs t) 4 fun w l =>
    (w.rd l (if w.wp.getQ l q.val != neg then a else b) (tyRegs t), 0)

def execMov (t : Ty) (d a : Reg) (x : VTail) (s : State) : Res :=
  s.regWord (.mov t d a x) d (tyRegs t) 4 fun w l => (w.rd l a (tyRegs t), 0)

def execMovi (d : Reg) (imm : Word) (stall : Fin 16) (s : State) : Res :=
  s.regWord (.movi d imm stall) d 1 4 fun _ _ => (imm.toNat, 0)

def execMovhi (d a : Reg) (imm : Word) (stall : Fin 16) (s : State) : Res :=
  s.regWord (.movhi d a imm stall) d 2 4 fun w l => (w.rd1 l a + 2 ^ 32 * imm.toNat, 0)

end Sys2Proof.Machine
end

