-- ==== Sys2Proof/Machine/Schedule.lean ====
section
/-! DEFINITION. Selecting a warp for issue (R256, R258, R297, R382), the octave shadow (R384), and the steps among which the model's own
schedule chooses (log 5). -/

namespace Sys2Proof.Machine

open Sys2Proof.Forms

/-! ### Issue selection (R297) -/

/-- A block that may issue: not of a gang that is not whole on its cores, nor restored before the rest of its gang (R289, R351). -/
def State.gangIssues (s : State) (b : Block) : Bool :=
  match s.launches[b.launch]? with
  | none => false
  | some l => !l.info.gang || (l.st != .placing && !b.back)

/-- A lane waits in the uniform form of `bwait` (R107), or in `macq`, for which the whole warp waits (R176). -/
def Warp.wholeWait (w : Warp) : Bool :=
  w.lanes.any fun y => match y.st with | .waiting (.bwait _ _ true _ _) | .waiting (.macq _ _) => true | _ => false

/-- A warp that a partition may select: its block stands on its cores, nothing holds its next clause (R338, R340), no uniform `bwait` or
`macq` holds it (R107, R176), and no pre-emption takes it there (R46, R343). -/
def State.eligible (s : State) (wp : Warp) : Bool :=
  match s.blkOf wp with
  | none => false
  | some b =>
    let taken := match b.pre with
      | .choose _ | .save _ | .saveAtBarrier _ | .flush _ _ => true
      | _ => false
    !wp.ended && (b.st == .running || (b.st == .ending && wp.clause.isSome)) && s.gangIssues b && wp.hold.all s.holdOver && !wp.wholeWait &&
      !(taken && (wp.clause.map fun c => c.waits).getD true)

/-- The vector unit through which a row goes, as a key of the lane maps: 16 for each core, two for each partition (R18, R382). A unit that is
out of service takes none, and the partition's other unit takes its place (R21). -/
def State.laneKey (s : State) (wp : Warp) (k : Nat) : Nat :=
  let u := wp.core * 16 + wp.part * 2
  let n := k / 17 % 2
  u + if s.unitOut (u + n) then 1 - n else n

/-- A failing residue check marks a physical lane of a unit, or takes the unit out (R382). -/
def State.markLane (s : State) (wp : Warp) (k : Nat) : State :=
  let old := mget s.lanemap (s.laneKey wp k) 0
  let new : Word := if old.getLsbD 5 then old ||| 0x40 else BitVec.ofNat 32 (0x20 + k % 17)
  { s with lanemap := mset (s.laneKey wp k) new 0 s.lanemap }

/-! ### Whose turn it is (R266, R297) -/

/-- A warp that holds a ready lane and stands between clauses; one whose fetch waits for a walk is not in the way of the others. -/
def State.canOpen (s : State) (w : Nat) (wp : Warp) : Bool :=
  s.eligible wp && wp.clause.isNone && !(s.readyLanes w wp).isEmpty && !(s.walks.any fun k => k.warp == some w)

/-- The other warps of a partition that may begin a clause, once their stall is over. -/
def State.rivals (s : State) (w : Nat) (wp : Warp) : List (Warp × Nat) :=
  s.warps.zipIdx.filter fun e => e.2 != w && e.1.core == wp.core && e.1.part == wp.part && s.canOpen e.2 e.1

/-- The priority hint of the header at which a warp would issue (R42). -/
def State.prioOf (s : State) (w : Nat) (wp : Warp) : Nat :=
  let ready := s.readyLanes w wp
  match (issueAddr ready).bind fun a => ready.find? fun e => e.2.pc == a with
  | none => 0
  | some e =>
    match s.fetchAt w wp (s.headOf w wp e.2) with
    | .word hw => ((decodeHeader hw).map fun d => d.prio).getD 0
    | _ => 0

/-- A warp that has yielded, while another of its class that is ready has not issued since, for at most 64 core cycles (R266). -/
def State.passedOver (s : State) (rs : List Warp) (w : Warp) : Bool :=
  match w.yielded with
  | none => false
  | some y => s.clk.cyc < y + 64 && rs.any fun r => r.cls == w.cls && r.lastIssue < y

/-- Whether a partition selects a warp for a clause in this cycle: those first that have not issued for 64 core cycles, the longest-waiting
first; else the lowest class, in it the warp that has issued least recently, by the hint where two have issued together (R297). -/
def State.mayIssue (s : State) (w : Nat) (wp : Warp) : Bool :=
  let rs := (s.rivals w wp).filter fun e => e.1.nextIssue ≤ s.clk.cyc
  let late := fun (x : Warp) => x.lastIssue + 64 ≤ s.clk.cyc
  let ready := wp :: rs.map (·.1)
  if ready.any late then rs.all fun e => wp.lastIssue ≤ e.1.lastIssue
  else
    !s.passedOver ready wp && rs.all fun e =>
      wp.cls < e.1.cls || (wp.cls == e.1.cls && (s.passedOver ready e.1 || wp.lastIssue < e.1.lastIssue ||
        (wp.lastIssue == e.1.lastIssue && s.prioOf e.2 e.1 ≤ s.prioOf w wp)))

/-- Some warp holds an orphaned group: the frontier checker acts before another clause is selected, in time for its 64 core cycles (R274). -/
def State.orphaned (s : State) : Bool := s.warps.any fun w => !w.ended && !w.orphans.isEmpty

/-- The residue check of the word that issues fails: its lanes trap without its taking effect (R382). -/
def State.residueFail (s : State) (w k : Nat) : State :=
  match s.prepare w with
  | .done t => t
  | .run t i =>
    match t.iss i with
    | none => t
    | some x =>
      if Forms.cls i == 0 && !isNop i && !uniform x.w64 i && x.part != 0 then
        (t.markLane x.wp k).trapWord x x.part (fun _ => ⟨9, 3, 0, 0, 0⟩) false
      else t

/-- ISSUE_SELECT: after `wait` core cycles the partition selects a warp: it goes on with the clause it is held in, or, where it is its turn,
takes an issue opportunity. -/
def execIssueSelect (warp wait : Nat) (residue : Option Nat) (s : State) : Res :=
  let t := s.advance wait
  match t.warps[warp]? with
  | none => .next s
  | some wp =>
    let u := t.advanceTo wp.nextIssue
    let turn := wp.clause.isSome || (u.mayIssue warp wp && (wp.nextIssue ≤ t.clk.cyc || (t.rivals warp wp).all fun e => wp.nextIssue ≤ e.1.nextIssue))
    if t.cur.isSome || !t.eligible wp || t.orphaned || !turn then .next s
    else
      let t := (u.settleAt warp u.clk.cyc).modWarp warp fun y => { y with hold := [] }
      let t := if wp.clause.isSome then { t with cur := some warp } else t.opportunity warp
      .next (match residue with
        | some k => if t.cur = some warp then t.residueFail warp k else t
        | none => t)

/-- SHADOW_COMPARE: the shadow of an octave warp comes to the word at which its leading warp waits. What it has drawn on the way leaves its
queue; where the word is one that is compared, it has produced it, and `differ` names the lanes that are unequal (R384). -/
def execShadowCompare (warp : Nat) (differ : Mask) (s : State) : Res :=
  match s.warps[warp]? with
  | none => .next s
  | some wp =>
    match wp.clause with
    | none => .next s
    | some cl =>
      let word := cl.words.head?.map fun d => (Decode.raw d.toNat).2
      let held := (word.map isCompared).getD false && !cl.agreed && cl.differ == 0
      let full := (word.map isDrawn).getD false && 64 ≤ wp.shadowQ
      when (cl.waits && s.octave wp && (held || full)) s (s.modWarp warp fun y =>
        { y with
          shadowQ := 0
          clause := some (if held then { cl with agreed := differ &&& cl.set == 0, differ := differ &&& cl.set } else cl) })

/-! ### Choices of the model's schedule -/

/-- The placement of the next block of the launch at the head of the placement queue (R288). -/
def State.placements (s : State) : List Instr :=
  ((s.placeHead.bind fun li => ((s.launches[li]?).bind fun l => s.roomFor li l).map fun c => Instr.blockPlacement li c.1 c.2)).toList

def State.waves (s : State) : List Instr :=
  ((s.tasks.map fun t => (t.die, t.cluster)).eraseDups).filterMap fun e =>
    (s.tasks.find? fun t => (t.die, t.cluster) == e).bind fun t => (s.launches[t.launch]?).bind fun l =>
      (s.pickCores t.launch l 1 1 (l.info.slotsPer l.info.waveWidth) (fun _ => true) ([e].filter fun k => !s.heldOn l.ctx k.1)).map fun c => .waveStart e.1 e.2 (c.1.headD 0) (c.2.headD 0)

def State.restores (s : State) : List Instr :=
  (s.preempts.filter fun p => p.mode == 3 && !p.done).filterMap fun p =>
    let blk := (p.todo.head?).bind fun k => (s.entryAt p.ctx p.report k).bind fun e =>
      if s.givenBack p e then none
      else if e.out == 1 then (s.launchAt p.target e.rec_ e.lin).bind fun li => s.blocks.findIdx? fun b => b.launch == li && b.lin == e.lin && b.st == .saved
      else (s.imageAt p.ctx (p.area + 4096 * e.info)).map fun i => i.blk
    match blk.bind fun b => (s.blocks[b]?).bind fun x => (s.launches[x.launch]?).map fun l => (b, x, l) with
    | none => some (.restorePlacement p.id [] [])
    | some (b, x, l) =>
      let image := s.images.find? fun i => i.blk == b && x.st == .saved
      (s.pickCores x.launch l x.cores.length (s.warpsOf b).length (l.info.slotsPer x.width) (s.mxFits image)
        ((s.ctxClusters l.ctx).filter fun e => p.dies.testBit e.1)).map fun c => .restorePlacement p.id c.1 c.2

def State.landings (s : State) : List Instr :=
  (List.range s.warps.length).flatMap fun w =>
    match s.seeking w with
    | some (x, _, p, _, _) => (s.landingCores x p).map fun c => .migrLanding w c 7
    | none => []

/-- Steps of requests, probes, walks and write-backs. -/
def State.memorySteps (s : State) : List Instr :=
  (s.walks.map fun k => (k.die, k.cluster)).eraseDups.map (fun e => Instr.tableWalk e.1 e.2) ++
  s.reqs.filterMap (fun r =>
    match r.st, r.op with
    | .token _, _ => some (.bounceTokenReturn r.id)
    | .ordered, .load _ _ | .ordered, .ldc _ _ => some (.loadReply r.id .clean)
    | .ordered, .atomic _ _ _ (some _) => some (.atomicReply r.id .clean)
    | .ordered, _ => some (.writeAck r.id)
    | .bounced, _ => if r.due ≤ s.clk.ucyc then some (.reissue r.id) else none
    | _, _ => none) ++
  s.walks.filterMap (fun k => if k.stored && k.due ≤ s.clk.ucyc then some (.reissue k.id) else none) ++
  s.peerWrites.filterMap (fun w => if 0 < w.due && w.due ≤ s.clk.ucyc then some (.reissue w.id) else none) ++
  s.probes.map (fun p => if p.sent then Instr.promotionAnswer p.id else .promotionProbe p.id) ++
  ((s.reqs.filter fun r => r.st == .flight && r.place.tier ≤ 2).map fun r => (r.place.die, r.place.slice)).eraseDups.flatMap
    (fun e => [Instr.sliceQueueService e.1 e.2, .serviceWarpCycle e.1 e.2]) ++
  (s.lines.filterMap fun l => l.own.map fun o => (o.core, o.slot, l.die, l.slice)).eraseDups.map
    (fun e => Instr.drainProbe e.1 e.2.1 e.2.2.1 e.2.2.2) ++
  (s.wbs.map fun w => Instr.tier2WritebackAccept w.line).take 1 ++
  s.inbound.map fun x => .inboundWriteAck x.id

/-- Steps of the copy and matrix engines. -/
def State.engineSteps (s : State) : List Instr :=
  (s.copies.map (fun c => c.core) ++ s.mcasts.map fun m => m.core).eraseDups.map Instr.copyCommandStart ++
  s.copies.flatMap (fun c => match c.st with
    | .running _ => [.copyCommandComplete c.core c.id, .copyUnitDone c.core c.id .clean, .copyLineClaim c.core c.id]
    | _ => []) ++
  s.heldBy.flatMap (fun h => match h.eng with
    | .copy core k | .matrix core k => [Instr.engineLineRelease core k h.line]
    | .move d => [.blockMoveLines d]
    | .link => []) ++
  s.mcasts.flatMap (fun m => m.left.map fun e => Instr.multicastDelivery m.id e.1) ++
  (s.mx.map fun c => c.core).eraseDups.flatMap fun k => [.matrixCommandFinish k, .matrixBandEnd k, .matrixCommandStart k]

/-- Steps of the link engine, collectives, pre-emption and the fault queues. -/
def State.unitSteps (s : State) : List Instr :=
  s.rings.flatMap (fun r => [Instr.ringClaim r.id, .consumerSpill r.id] ++ (r.poss.map fun p => Instr.elementPublish r.id p.p) ++ [.ringRelease r.id]) ++
  s.groups.map (fun g => Instr.collectiveComplete g.id) ++ s.landings ++
  s.ctxs.flatMap (fun c => [Instr.postedFault c.num, .sliceSecondDescriptor c.num]) ++
  s.preempts.flatMap (fun p => p.todo.flatMap (fun b => [Instr.blockSave p.id b, .blockFlush p.id b, .barrierStopSave p.id b]) ++
    [.preemptSignal p.id]) ++ s.restores ++
  (List.range s.dies.length).flatMap fun d => [.lustrationUnit d, .blockMoveLines d]

/-- Steps of launches, blocks and tasks. -/
def State.launchSteps (s : State) : List Instr :=
  (List.range s.blocks.length).map Instr.blockRetire ++
  (List.range s.launches.length).flatMap (fun l => [.launchComplete l, .launchSignal l]) ++
  s.placements ++ s.waves ++
  s.ctxs.flatMap (fun c => ((s.ctxClusters c.num).take 1).map fun e => .taskRingRefill c.num e.1 e.2) ++ s.dispatches.map Instr.launchDispatch

/-- Steps that come about with time, once their time has come. -/
def State.timedSteps (s : State) : List Instr :=
  s.warps.zipIdx.flatMap (fun e => [Instr.frontierCheck e.2] ++
    (match e.1.wdDue with | some t => if t ≤ s.clk.cyc then [.watchdogExpiry e.2] else [] | none => []) ++
    (match s.seeking e.2 with
      | some (x, _, p, t, b) => if t + b ≤ s.clk.ucyc && (s.landingCores x p).isEmpty then [.migrSlotTimeout e.2] else []
      | none => [])) ++
  s.preempts.flatMap (fun p =>
    (if p.mode == 0 && !p.todo.isEmpty && p.start + s.grace.toNat < s.clk.tick then [Instr.graceExpiry p.id] else []) ++
    p.todo.filterMap fun b => match (s.blocks[b]?).map fun (x : Block) => x.pre with
      | some (.drain _ t) => if t + s.drainbud.toNat ≤ s.clk.tick then some (.drainBudgetExpiry p.id b) else none
      | _ => none) ++
  s.ctxs.filterMap (fun c => match c.sliceFrom with
    | some t => if c.slicelen != 0 && t + c.slicelen.toNat ≤ s.clk.tick then some (.sliceExpiry c.num) else none
    | none => none) ++
  s.launches.zipIdx.flatMap (fun e =>
    match e.1.gangFrom with | some t => if t + 10000 ≤ s.clk.tick then [Instr.gangHoldExpiry e.2] else [] | none => []) ++
  (match s.placeFrom with
    | some (li, t, b) => if t + b ≤ s.clk.ucyc then [.placementHoldExpiry li] else []
    | none => []) ++
  s.fns.zipIdx.flatMap (fun e => e.1.vectors.zipIdx.filterMap fun v =>
    if v.1.pending != 0 && (v.2 == 2 || fld e.1.cfg.toNat 10 6 ≤ v.1.pending || v.1.since + fld e.1.cfg.toNat 0 10 * 100 ≤ s.clk.tick)
    then some (.msixVectorFire e.2 v.2) else none) ++
  s.fns.zipIdx.filterMap (fun e => if e.1.reset then some (.functionLevelResetDone e.2) else none) ++
  s.reqs.filterMap (fun r =>
    match r.waitFrom with
    | some (t, b) => if r.st == .flight && (r.place.tier != 3 || (s.portOf r).isNone) && t + b ≤ s.clk.ucyc
      then some (.holdBoundExpiry (.request r.id) 1) else none
    | none => none) ++
  s.walks.filterMap (fun k => match k.waitFrom with
    | some (t, b) => if t + b ≤ s.clk.ucyc then some (.holdBoundExpiry (.request k.id) 2) else none
    | none => none) ++
  s.copies.filterMap (fun c => match c.waitFrom with
    | some (t, b) => if t + b ≤ s.clk.ucyc then some (.holdBoundExpiry (.copy c.core c.id) 2) else none
    | none => none) ++
  s.mx.filterMap (fun c => match c.waitFrom with
    | some (t, b) => if t + b ≤ s.clk.ucyc then some (.holdBoundExpiry (.matrix c.core) 2) else none
    | none => none) ++
  ((s.tasks.map fun t => (t.die, t.cluster)).eraseDups.filter fun e => (s.balanced.lookup (e.1 * 8 + e.2)).getD 0 < s.clk.ucyc / 256).map
    (fun e => Instr.taskBalance e.1 e.2) ++
  s.groups.flatMap fun g => match g.coll with
    | some c => if c.since + g.timeout ≤ s.clk.tick then g.live.map fun r => .collectiveMemberTimeout g.id r else []
    | none => []

/-- The shadows of octave warps come to the words at which their leading warps wait (R384). -/
def State.shadowSteps (s : State) : List Instr :=
  s.warps.zipIdx.filterMap fun e => if !e.1.ended && s.octave e.1 then some (.shadowCompare e.2 0) else none

/-- Warps in the order in which they can issue, and those of one cycle by class and by how long they have waited; `execIssueSelect` takes the
one whose turn it is. -/
def State.issueSteps (s : State) : List Instr :=
  let key := fun (w : Warp) =>
    2 ^ 72 * max s.clk.cyc w.nextIssue + (if w.lastIssue + 64 ≤ s.clk.cyc then 0 else 2 ^ 64 * (1 + w.cls)) + w.lastIssue
  (sortOn ((s.warps.zipIdx.filter fun e => s.eligible e.1).map fun e => (key e.1, e.2))).map fun e => .issueSelect e.2 0 none

/-- Training ends by itself after a reset (R386). -/
def State.bootSteps (s : State) : List Instr :=
  if !s.boot.ioReleased then []
  else (if s.boot.hbmReady then [] else [.hbmTrainingDone]) ++ if s.moduleForm && !s.boot.lpReady then [.lpddrTrainingDone] else []

/-- Every step that the model's schedule may take by itself, in its order. -/
def State.ownSteps (s : State) : List Instr :=
  s.memorySteps ++ s.timedSteps ++ s.engineSteps ++ s.unitSteps ++ s.launchSteps ++ s.shadowSteps ++ s.issueSteps ++ s.bootSteps

end Sys2Proof.Machine
end

