-- ==== Sys2Proof/Machine/Dispatch.lean ====
section
/-! DEFINITION. What each step does: one arm per constructor, one call of its meaning. -/

namespace Sys2Proof.Machine

def exec (i : Instr) (s : State) : Host.Outcome State Fault Refusal :=
  match i with
  | .iadd t d a b x => Sys2Proof.Machine.execIadd t d a b x s
  | .isub t d a b x => Sys2Proof.Machine.execIsub t d a b x s
  | .imul t d a b x => Sys2Proof.Machine.execImul t d a b x s
  | .imulh t d a b x => Sys2Proof.Machine.execImulh t d a b x s
  | .imad t d a b c x => Sys2Proof.Machine.execImad t d a b c x s
  | .imadw t d a b c x => Sys2Proof.Machine.execImadw t d a b c x s
  | .iaddc t d a b c x => Sys2Proof.Machine.execIaddc t d a b c x s
  | .imin t d a b x => Sys2Proof.Machine.execImin t d a b x s
  | .imax t d a b x => Sys2Proof.Machine.execImax t d a b x s
  | .iabs t d a x => Sys2Proof.Machine.execIabs t d a x s
  | .ineg t d a x => Sys2Proof.Machine.execIneg t d a x s
  | .isad t d a b c x => Sys2Proof.Machine.execIsad t d a b c x s
  | .land wide d a b x => Sys2Proof.Machine.execLand wide d a b x s
  | .lor wide d a b x => Sys2Proof.Machine.execLor wide d a b x s
  | .lxor wide d a b x => Sys2Proof.Machine.execLxor wide d a b x s
  | .landn wide d a b x => Sys2Proof.Machine.execLandn wide d a b x s
  | .lnot wide d a x => Sys2Proof.Machine.execLnot wide d a x s
  | .lsel f g d a b c x => Sys2Proof.Machine.execLsel f g d a b c x s
  | .shl t d a b x => Sys2Proof.Machine.execShl t d a b x s
  | .shr t d a b x => Sys2Proof.Machine.execShr t d a b x s
  | .sar t d a b x => Sys2Proof.Machine.execSar t d a b x s
  | .rot t d a b x => Sys2Proof.Machine.execRot t d a b x s
  | .bfx t d a b c x => Sys2Proof.Machine.execBfx t d a b c x s
  | .bfi t d a b c x => Sys2Proof.Machine.execBfi t d a b c x s
  | .popc t d a x => Sys2Proof.Machine.execPopc t d a x s
  | .clz t d a x => Sys2Proof.Machine.execClz t d a x s
  | .ctz t d a x => Sys2Proof.Machine.execCtz t d a x s
  | .brev t d a x => Sys2Proof.Machine.execBrev t d a x s
  | .lea t d a b c x => Sys2Proof.Machine.execLea t d a b c x s
  | .icmp k t q a b x => Sys2Proof.Machine.execIcmp k t q a b x s
  | .sel t d a b q neg x => Sys2Proof.Machine.execSel t d a b q neg x s
  | .mov t d a x => Sys2Proof.Machine.execMov t d a x s
  | .movi d imm stall => Sys2Proof.Machine.execMovi d imm stall s
  | .movhi d a imm stall => Sys2Proof.Machine.execMovhi d a imm stall s
  | .fadd t ftz r d a b x => Sys2Proof.Machine.execFadd t ftz r d a b x s
  | .fsub t ftz r d a b x => Sys2Proof.Machine.execFsub t ftz r d a b x s
  | .fmul t ftz r d a b x => Sys2Proof.Machine.execFmul t ftz r d a b x s
  | .ffma t ftz r d a b c x => Sys2Proof.Machine.execFfma t ftz r d a b c x s
  | .fmin t ftz d a b x => Sys2Proof.Machine.execFmin t ftz d a b x s
  | .fmax t ftz d a b x => Sys2Proof.Machine.execFmax t ftz d a b x s
  | .fneg t d a x => Sys2Proof.Machine.execFneg t d a x s
  | .fabs t d a x => Sys2Proof.Machine.execFabs t d a x s
  | .fcmp k t ftz q a b x => Sys2Proof.Machine.execFcmp k t ftz q a b x s
  | .fclass t d a x => Sys2Proof.Machine.execFclass t d a x s
  | .frcp ftz r d a x => Sys2Proof.Machine.execFrcp ftz r d a x s
  | .frsq ftz d a x => Sys2Proof.Machine.execFrsq ftz d a x s
  | .fsqrt ftz r d a x => Sys2Proof.Machine.execFsqrt ftz r d a x s
  | .fexp2 ftz d a x => Sys2Proof.Machine.execFexp2 ftz d a x s
  | .flog2 ftz d a x => Sys2Proof.Machine.execFlog2 ftz d a x s
  | .fsin ftz d a x => Sys2Proof.Machine.execFsin ftz d a x s
  | .fcos ftz d a x => Sys2Proof.Machine.execFcos ftz d a x s
  | .dadd r d a b x => Sys2Proof.Machine.execDadd r d a b x s
  | .dmul r d a b x => Sys2Proof.Machine.execDmul r d a b x s
  | .dfma r d a b c x => Sys2Proof.Machine.execDfma r d a b c x s
  | .dcmp k q a b x => Sys2Proof.Machine.execDcmp k q a b x s
  | .hadd2 t r d a b x => Sys2Proof.Machine.execHadd2 t r d a b x s
  | .hmul2 t r d a b x => Sys2Proof.Machine.execHmul2 t r d a b x s
  | .hfma2 t r d a b c x => Sys2Proof.Machine.execHfma2 t r d a b c x s
  | .cvt dt st d a x => Sys2Proof.Machine.execCvt dt st d a x s
  | .cvtq slot d a b x => Sys2Proof.Machine.execCvtq slot d a b x s
  | .cvtd slot d a b x => Sys2Proof.Machine.execCvtd slot d a b x s
  | .trpack d a x => Sys2Proof.Machine.execTrpack d a x s
  | .trunpack d a x => Sys2Proof.Machine.execTrunpack d a x s
  | .pack2 t d a b x => Sys2Proof.Machine.execPack2 t d a b x s
  | .shfl m t d a b c x => Sys2Proof.Machine.execShfl m t d a b c x s
  | .voteBallot t d q x => Sys2Proof.Machine.execVoteBallot t d q x s
  | .voteAny qd q x => Sys2Proof.Machine.execVoteAny qd q x s
  | .voteAll qd q x => Sys2Proof.Machine.execVoteAll qd q x s
  | .voteEq t qd a x => Sys2Proof.Machine.execVoteEq t qd a x s
  | .scan o t d a x => Sys2Proof.Machine.execScan o t d a x s
  | .redux o t d a x => Sys2Proof.Machine.execRedux o t d a x s
  | .lanes m t d x => Sys2Proof.Machine.execLanes m t d x s
  | .bra off x => Sys2Proof.Machine.execBra off x s
  | .brc k c off x => Sys2Proof.Machine.execBrc k c off x s
  | .brx t x => Sys2Proof.Machine.execBrx t x s
  | .call l off x => Sys2Proof.Machine.execCall l off x s
  | .callx t x => Sys2Proof.Machine.execCallx t x s
  | .ret l x => Sys2Proof.Machine.execRet l x s
  | .exit x => Sys2Proof.Machine.execExit x s
  | .yield x => Sys2Proof.Machine.execYield x s
  | .nop x => Sys2Proof.Machine.execNop x s
  | .jenter j x => Sys2Proof.Machine.execJenter j x s
  | .jquit j x => Sys2Proof.Machine.execJquit j x s
  | .jwait j x => Sys2Proof.Machine.execJwait j x s
  | .jread d j x => Sys2Proof.Machine.execJread d j x s
  | .jwrite j a x => Sys2Proof.Machine.execJwrite j a x s
  | .jclear j x => Sys2Proof.Machine.execJclear j x s
  | .ld t d addr off sc o h x => Sys2Proof.Machine.execLd t d addr off sc o h x s
  | .st t d addr off sc o h x => Sys2Proof.Machine.execSt t d addr off sc o h x s
  | .ldc t d addr off x => Sys2Proof.Machine.execLdc t d addr off x s
  | .pf addr off h x => Sys2Proof.Machine.execPf addr off h x s
  | .cflush addr off x => Sys2Proof.Machine.execCflush addr off x s
  | .cinval addr off x => Sys2Proof.Machine.execCinval addr off x s
  | .ckeep k b l w x => Sys2Proof.Machine.execCkeep k b l w x s
  | .cunkeep k x => Sys2Proof.Machine.execCunkeep k x s
  | .binit e addr off x => Sys2Proof.Machine.execBinit e addr off x s
  | .barrive d addr off x => Sys2Proof.Machine.execBarrive d addr off x s
  | .bwait t addr off x => Sys2Proof.Machine.execBwait t addr off x s
  | .btest d addr off x => Sys2Proof.Machine.execBtest d addr off x s
  | .bexpect c addr off x => Sys2Proof.Machine.execBexpect c addr off x s
  | .bsync stall => Sys2Proof.Machine.execBsync stall s
  | .xcopy d src n b out x => Sys2Proof.Machine.execXcopy d src n b out x s
  | .xgather d src n b out x => Sys2Proof.Machine.execXgather d src n b out x s
  | .xscatter d src n b out x => Sys2Proof.Machine.execXscatter d src n b out x s
  | .xmcast d src n l x => Sys2Proof.Machine.execXmcast d src n l x s
  | .xfill d p n b out x => Sys2Proof.Machine.execXfill d p n b out x s
  | .atom o w d addr v sc ord h x => Sys2Proof.Machine.execAtom o w d addr v sc ord h x s
  | .atomx w d addr v sc ord h x => Sys2Proof.Machine.execAtomx w d addr v sc ord h x s
  | .red o w addr v sc ord h x => Sys2Proof.Machine.execRed o w addr v sc ord h x s
  | .fence f ord sc x => Sys2Proof.Machine.execFence f ord sc x s
  | .fwait f x => Sys2Proof.Machine.execFwait f x s
  | .fpoll q f x => Sys2Proof.Machine.execFpoll q f x s
  | .macq t x => Sys2Proof.Machine.execMacq t x s
  | .mrel t x => Sys2Proof.Machine.execMrel t x s
  | .mzero t x => Sys2Proof.Machine.execMzero t x s
  | .mload t src shape slot x => Sys2Proof.Machine.execMload t src shape slot x s
  | .mloadRaw t src shape x => Sys2Proof.Machine.execMloadRaw t src shape x s
  | .mma t a b shape slot x => Sys2Proof.Machine.execMma t a b shape slot x s
  | .mmaSet t a b shape slot x => Sys2Proof.Machine.execMmaSet t a b shape slot x s
  | .mdrain t dst scale shape slot x => Sys2Proof.Machine.execMdrain t dst scale shape slot x s
  | .mdrainRaw t dst shape x => Sys2Proof.Machine.execMdrainRaw t dst shape x s
  | .mread d t pos scale slot x => Sys2Proof.Machine.execMread d t pos scale slot x s
  | .mcommit d x => Sys2Proof.Machine.execMcommit d x s
  | .mwait a x => Sys2Proof.Machine.execMwait a x s
  | .mprog d x => Sys2Proof.Machine.execMprog d x s
  | .mbtake x => Sys2Proof.Machine.execMbtake x s
  | .mbpass x => Sys2Proof.Machine.execMbpass x s
  | .spawn e args x => Sys2Proof.Machine.execSpawn e args x s
  | .rpush src x => Sys2Proof.Machine.execRpush src x s
  | .rpushRing r src n x => Sys2Proof.Machine.execRpushRing r src n x s
  | .rpop dst st x => Sys2Proof.Machine.execRpop dst st x s
  | .rpopRing r dst st x => Sys2Proof.Machine.execRpopRing r dst st x s
  | .reos x => Sys2Proof.Machine.execReos x s
  | .reosRing r n x => Sys2Proof.Machine.execReosRing r n x s
  | .pbind d p x => Sys2Proof.Machine.execPbind d p x s
  | .punbind h x => Sys2Proof.Machine.execPunbind h x s
  | .pquery d h q x => Sys2Proof.Machine.execPquery d h q x s
  | .migr q addr x => Sys2Proof.Machine.execMigr q addr x s
  | .creduce st quad c h x => Sys2Proof.Machine.execCreduce st quad c h x s
  | .cbcast quad c h x => Sys2Proof.Machine.execCbcast quad c h x s
  | .cmembOpen d p o h x => Sys2Proof.Machine.execCmembOpen d p o h x s
  | .cmembQuery d p o h x => Sys2Proof.Machine.execCmembQuery d p o h x s
  | .cmembClose d p o h x => Sys2Proof.Machine.execCmembClose d p o h x s
  | .sread sel wide d x => Sys2Proof.Machine.execSread sel wide d x s
  | .swrite sel wide a x => Sys2Proof.Machine.execSwrite sel wide a x s
  | .trap code a x => Sys2Proof.Machine.execTrap code a x s
  | .rte x => Sys2Proof.Machine.execRte x s
  | .resumeRetry a x => Sys2Proof.Machine.execResumeRetry a x s
  | .resumeDeliver a x => Sys2Proof.Machine.execResumeDeliver a x s
  | .resumeEnd a x => Sys2Proof.Machine.execResumeEnd a x s
  | .preemptSliceEnd p x => Sys2Proof.Machine.execPreemptSliceEnd p x s
  | .preemptAdaptive p x => Sys2Proof.Machine.execPreemptAdaptive p x s
  | .preemptSave p x => Sys2Proof.Machine.execPreemptSave p x s
  | .preemptRestore p x => Sys2Proof.Machine.execPreemptRestore p x s
  | .tlbinvPage c a x => Sys2Proof.Machine.execTlbinvPage c a x s
  | .tlbinvCtx c x => Sys2Proof.Machine.execTlbinvCtx c x s
  | .tlbinvAll x => Sys2Proof.Machine.execTlbinvAll x s
  | .launch d r x => Sys2Proof.Machine.execLaunch d r x s
  | .halt c x => Sys2Proof.Machine.execHalt c x s
  | .assign d r x => Sys2Proof.Machine.execAssign d r x s
  | .kzero c x => Sys2Proof.Machine.execKzero c x s
  | .lstart c x => Sys2Proof.Machine.execLstart c x s
  | .lqerrRead q d x => Sys2Proof.Machine.execLqerrRead q d x s
  | .ecccntRead die d x => Sys2Proof.Machine.execEcccntRead die d x s
  | .lqtailDoorbell q a x => Sys2Proof.Machine.execLqtailDoorbell q a x s
  | .issueSelect warp wait residue => Sys2Proof.Machine.execIssueSelect warp wait residue s
  | .frontierCheck warp => Sys2Proof.Machine.execFrontierCheck warp s
  | .watchdogExpiry warp => Sys2Proof.Machine.execWatchdogExpiry warp s
  | .tableWalk die cluster => Sys2Proof.Machine.execTableWalk die cluster s
  | .postedFault ctx => Sys2Proof.Machine.execPostedFault ctx s
  | .msixVectorFire fn vec => Sys2Proof.Machine.execMsixVectorFire fn vec s
  | .sliceQueueService die slice => Sys2Proof.Machine.execSliceQueueService die slice s
  | .serviceWarpCycle die slice => Sys2Proof.Machine.execServiceWarpCycle die slice s
  | .holdBoundExpiry w reason => Sys2Proof.Machine.execHoldBoundExpiry w reason s
  | .bounceTokenReturn req => Sys2Proof.Machine.execBounceTokenReturn req s
  | .reissue req => Sys2Proof.Machine.execReissue req s
  | .loadReply req e => Sys2Proof.Machine.execLoadReply req e s
  | .writeAck req => Sys2Proof.Machine.execWriteAck req s
  | .atomicReply req e => Sys2Proof.Machine.execAtomicReply req e s
  | .promotionProbe probe => Sys2Proof.Machine.execPromotionProbe probe s
  | .promotionAnswer probe => Sys2Proof.Machine.execPromotionAnswer probe s
  | .drainProbe core slot die slice => Sys2Proof.Machine.execDrainProbe core slot die slice s
  | .tier2WritebackAccept line => Sys2Proof.Machine.execTier2WritebackAccept line s
  | .copyCommandStart core => Sys2Proof.Machine.execCopyCommandStart core s
  | .copyLineClaim core cmd => Sys2Proof.Machine.execCopyLineClaim core cmd s
  | .copyUnitDone core cmd e => Sys2Proof.Machine.execCopyUnitDone core cmd e s
  | .copyCommandComplete core cmd => Sys2Proof.Machine.execCopyCommandComplete core cmd s
  | .engineLineRelease core cmd line => Sys2Proof.Machine.execEngineLineRelease core cmd line s
  | .multicastDelivery cmd receiver => Sys2Proof.Machine.execMulticastDelivery cmd receiver s
  | .matrixCommandStart core => Sys2Proof.Machine.execMatrixCommandStart core s
  | .matrixBandEnd core => Sys2Proof.Machine.execMatrixBandEnd core s
  | .matrixCommandFinish core => Sys2Proof.Machine.execMatrixCommandFinish core s
  | .launchDispatch src => Sys2Proof.Machine.execLaunchDispatch src s
  | .blockPlacement launch cores parts => Sys2Proof.Machine.execBlockPlacement launch cores parts s
  | .placementHoldExpiry launch => Sys2Proof.Machine.execPlacementHoldExpiry launch s
  | .gangHoldExpiry launch => Sys2Proof.Machine.execGangHoldExpiry launch s
  | .blockRetire blk => Sys2Proof.Machine.execBlockRetire blk s
  | .launchComplete launch => Sys2Proof.Machine.execLaunchComplete launch s
  | .launchSignal launch => Sys2Proof.Machine.execLaunchSignal launch s
  | .taskRingRefill ctx die cluster => Sys2Proof.Machine.execTaskRingRefill ctx die cluster s
  | .waveStart die cluster core part => Sys2Proof.Machine.execWaveStart die cluster core part s
  | .taskBalance die cluster => Sys2Proof.Machine.execTaskBalance die cluster s
  | .graceExpiry op => Sys2Proof.Machine.execGraceExpiry op s
  | .drainBudgetExpiry op blk => Sys2Proof.Machine.execDrainBudgetExpiry op blk s
  | .barrierStopSave op blk => Sys2Proof.Machine.execBarrierStopSave op blk s
  | .blockFlush op blk => Sys2Proof.Machine.execBlockFlush op blk s
  | .blockSave op blk => Sys2Proof.Machine.execBlockSave op blk s
  | .preemptSignal op => Sys2Proof.Machine.execPreemptSignal op s
  | .restorePlacement op cores parts => Sys2Proof.Machine.execRestorePlacement op cores parts s
  | .sliceExpiry ctx => Sys2Proof.Machine.execSliceExpiry ctx s
  | .sliceSecondDescriptor ctx => Sys2Proof.Machine.execSliceSecondDescriptor ctx s
  | .ringClaim ring => Sys2Proof.Machine.execRingClaim ring s
  | .elementPublish ring pos => Sys2Proof.Machine.execElementPublish ring pos s
  | .consumerSpill ring => Sys2Proof.Machine.execConsumerSpill ring s
  | .ringRelease ring => Sys2Proof.Machine.execRingRelease ring s
  | .migrLanding warp core part => Sys2Proof.Machine.execMigrLanding warp core part s
  | .migrSlotTimeout warp => Sys2Proof.Machine.execMigrSlotTimeout warp s
  | .collectiveComplete group => Sys2Proof.Machine.execCollectiveComplete group s
  | .collectiveMemberTimeout group rank => Sys2Proof.Machine.execCollectiveMemberTimeout group rank s
  | .shadowCompare warp differ => Sys2Proof.Machine.execShadowCompare warp differ s
  | .blockMoveLines part => Sys2Proof.Machine.execBlockMoveLines part s
  | .movectlStart die val => Sys2Proof.Machine.execMovectlStart die val s
  | .movectlEnd die => Sys2Proof.Machine.execMovectlEnd die s
  | .alarmLockWrite => Sys2Proof.Machine.execAlarmLockWrite s
  | .alarmEraseWrite => Sys2Proof.Machine.execAlarmEraseWrite s
  | .alarmLogEvent => Sys2Proof.Machine.execAlarmLogEvent s
  | .alarmLockEvent => Sys2Proof.Machine.execAlarmLockEvent s
  | .alarmEraseEvent => Sys2Proof.Machine.execAlarmEraseEvent s
  | .powerSample milliwatts junctions => Sys2Proof.Machine.execPowerSample milliwatts junctions s
  | .thermalTrip => Sys2Proof.Machine.execThermalTrip s
  | .powerOn b => Sys2Proof.Machine.execPowerOn b s
  | .coldReset b => Sys2Proof.Machine.execColdReset b s
  | .warmReset b => Sys2Proof.Machine.execWarmReset b s
  | .hbmTrainingDone => Sys2Proof.Machine.execHbmTrainingDone s
  | .lpddrTrainingDone => Sys2Proof.Machine.execLpddrTrainingDone s
  | .lustrationUnit die => Sys2Proof.Machine.execLustrationUnit die s
  | .functionLevelReset fn => Sys2Proof.Machine.execFunctionLevelReset fn s
  | .functionLevelResetDone fn => Sys2Proof.Machine.execFunctionLevelResetDone fn s
  | .hostBindingChange die hierarchy => Sys2Proof.Machine.execHostBindingChange die hierarchy s
  | .hostPostedWrite fn pa data relaxed => Sys2Proof.Machine.execHostPostedWrite fn pa data relaxed s
  | .inboundWriteAck write => Sys2Proof.Machine.execInboundWriteAck write s
  | .hostNonpostedRead fn pa len relaxed => Sys2Proof.Machine.execHostNonpostedRead fn pa len relaxed s
  | .hostAtomicop fn pa op w cas data relaxed => Sys2Proof.Machine.execHostAtomicop fn pa op w cas data relaxed s
  | .cxlMemRequest part pa a => Sys2Proof.Machine.execCxlMemRequest part pa a s
  | .hostBackInvalidation line => Sys2Proof.Machine.execHostBackInvalidation line s
  | .fabricInboundRequest part station addr a => Sys2Proof.Machine.execFabricInboundRequest part station addr a s
  | .fabricPortDown port => Sys2Proof.Machine.execFabricPortDown port s
  | .fabricPortUp port => Sys2Proof.Machine.execFabricPortUp port s
  | .peerResponse req a => Sys2Proof.Machine.execPeerResponse req a s
  | .hostPortCompletion req data => Sys2Proof.Machine.execHostPortCompletion req data s
  | .collectiveMessage group rank m => Sys2Proof.Machine.execCollectiveMessage group rank m s
  | .msixVectorUnmask fn vec => Sys2Proof.Machine.execMsixVectorUnmask fn vec s
  | .spdmGetVersion msg => Sys2Proof.Machine.execSpdmGetVersion msg s
  | .spdmGetCapabilities msg => Sys2Proof.Machine.execSpdmGetCapabilities msg s
  | .spdmNegotiateAlgorithms msg => Sys2Proof.Machine.execSpdmNegotiateAlgorithms msg s
  | .spdmGetDigests msg => Sys2Proof.Machine.execSpdmGetDigests msg s
  | .spdmGetCertificate msg => Sys2Proof.Machine.execSpdmGetCertificate msg s
  | .spdmChallenge msg => Sys2Proof.Machine.execSpdmChallenge msg s
  | .spdmGetMeasurements index msg => Sys2Proof.Machine.execSpdmGetMeasurements index msg s
  | .spdmKeyExchange msg => Sys2Proof.Machine.execSpdmKeyExchange msg s
  | .spdmFinish msg => Sys2Proof.Machine.execSpdmFinish msg s

end Sys2Proof.Machine
end

