-- ==== Sys2Proof/Machine/Select.lean ====
section
/-! DEFINITION. What the machine does next (log 5): the step its agenda names, else the word of the warp that issues, else the first
of its own steps that changes anything; and the block, warp and clause that hold one word for the host's `withFetchWord` (log 16). -/

namespace Sys2Proof.Machine

open Sys2Proof.Forms

/-- The step at the head of the agenda. A program word issues from a fetched clause only (R45), so the agenda places none. -/
def State.runAgenda (s : State) (i : Instr) (rest : List Instr) : Res :=
  if isWord i then .next { s with agenda := rest } else exec i { s with agenda := rest }

/-- The word of warp w issues: a check it fails is taken (R64, R65), else it has its meaning, which the scoreboard judges (R59). An orphaned
group of the warp has trapped before (R274). -/
def State.runWord (s : State) (w : Nat) : Res :=
  if ((s.warps[w]?).map fun x => !x.ended && !x.orphans.isEmpty).getD false then execFrontierCheck w s
  else
    match s.prepare w with
    | .run t i => s.judged t w i (exec i t)
    | .done t => .next t

/-- The first step of a list that changes the state. -/
def State.firstChange (s : State) : List Instr → Option State
  | [] => none
  | i :: is =>
    match exec i s with
    | .next t => if t = s then s.firstChange is else some t
    | _ => s.firstChange is

/-- With nothing placed and no word at issue, the first of the model's own steps that changes anything, or one core cycle passes. -/
def State.runOwn (s : State) : Res :=
  match s.firstChange s.ownSteps with
  | some t => .next t
  | none => .next (s.advance 1)

/-! ### One fetched word (log 16) -/

/-- A launch of one block of one warp of 32 lanes with every register a launch can have: 512 `v`, 512 `s`, 64 tiles. -/
def oneRecord : Record :=
  { entry := 0x10000, gx := 1, gy := 1, gz := 1, bx := 32, by_ := 1, bz := 1, wcode := 2, vcount := 512, scount := 512, tiles := 64,
    pool := BitVec.ofNat 32 (2 ^ 24 + 64 * 2 ^ 17 + 64 * 2 ^ 9 + 44), slots := List.replicate 8 0, arg := 0, sigAddr := 0, sigVal := 0,
    flags := 0, handler := 0x20000, regions := 0, live := 0, stage := 0 }

def oneLaunch (c : Nat) : Launch :=
  { info := oneRecord, recAddr := 0, ctx := c, cls := 0, queue := none, stage := none, next := 1, retired := 0, tasks := 0, lives := [],
    age := 0, deferred := false, gangFrom := none, st := .placed, rollbacks := 0, rollback := false, snaps := [] }

/-- The clause at the launch's entry that holds the word alone. -/
def oneClause (d : DWord) : Clause :=
  { addr := 0x10000, hdr := ⟨cls (Decode.raw d.toNat).2, 1, 0, false, 0, false⟩, words := [d], next := 0x10008,
    set := allLanes 32, entered := 0, grp := 0, agreed := false, differ := 0, waits := false, seek := none, src := none }

/-- The state with a block of the supervisor context on core 0 whose one warp has fetched the clause and issues its word. -/
def State.withWord (s : State) (d : DWord) : State :=
  let s := s.modDie 0 fun x => { x with hier := x.hier.or (some 0) }
  let l := oneLaunch 0
  let b := { s.newBlock s.launches.length 0 0 0x10000 [] 32 0 [0] with fresh := [none], freshT := none }
  let w := { l.warp s.blocks.length 0 0 0 0 0 32 32 0x10000 with clause := some (oneClause d), nextIssue := s.clk.cyc, lastIssue := s.clk.cyc }
  { s with
    agenda := [], cur := some s.warps.length, launches := s.launches ++ [l], blocks := s.blocks ++ [b], warps := s.warps ++ [w],
    carves := s.carves ++ [⟨0, s.launches.length, oneRecord.kib, false, false⟩] }

end Sys2Proof.Machine
end

