-- ==== Sys2Proof/Machine/Step.lean ====
section
/-! DEFINITION. One step of the machine. -/

namespace Sys2Proof.Machine

/-- The step the agenda names, else the word of the warp that issues, else a step of the model's own schedule (log 5). -/
def step (s : State) : Host.Outcome State Fault Refusal :=
  match s.agenda with
  | i :: rest => s.runAgenda i rest
  | [] =>
    match s.cur with
    | some w => s.runWord w
    | none => s.runOwn

/-- s with the word of these bits where `step` takes its next one from: the fetched clause of a warp that issues (log 16). Every
instruction is one word of 64 bits (R47). -/
def State.withFetchWord (s : State) (_nbits w : Nat) : State := s.withWord (BitVec.ofNat 64 w)

end Sys2Proof.Machine
end

