-- ==== Sys2Proof/Safety.lean ====
section
/-! DEFINITION. What counts as safe: the forms that every step keeps, that a step never stops, and what it means that a step leaves
registers, memory, scratchpad, tiles and special registers alone. -/

namespace Sys2Proof.Safety

open Sys2Proof.Machine

/-- Memory is in its canonical form: addresses rise, and no cell holds what an unlisted address reads as. -/
def MemOk (s : State) : Prop := Memory.wf s.mem

/-- The step goes on: it neither faults nor refuses. -/
def Goes (o : Host.Outcome State Fault Refusal) : Prop := ∃ t, o = .next t

/-- The outcome is a next state of which p holds. -/
def Next (o : Host.Outcome State Fault Refusal) (p : State → Prop) : Prop := ∃ t, o = .next t ∧ p t

/-! ### Frames -/

/-- The registers of a warp: vector, scalar, FLAGS, WCTL, the writes on their way, and the predicates of its lanes. -/
def regsOf (w : Warp) : List (Nat × Word) × List (Nat × Word) × Word × Word × List Pend × List (BitVec 8) :=
  (w.v, w.s, w.flags, w.wctl, w.pend, w.lanes.map (·.q))

/-- No register of warp w changes, and none gets a write on its way. -/
def KeepsWarp (s t : State) (w : Nat) : Prop := (t.warps[w]?).map regsOf = (s.warps[w]?).map regsOf

/-- Every byte of every tier reads as before, under every key. -/
def KeepsMemory (s t : State) : Prop := ∀ tier pa slot, t.viewByte tier pa slot = s.viewByte tier pa slot

/-- What a block's window and matrix engine hold: scratchpad, tiles, tile owners, MXCNT. -/
def localOf (b : Block) : List (Nat × Byte) × List (Option Nat) × List (Nat × BitVec 80) × Option Nat × BitVec 64 × MxCount :=
  (b.spad, b.fresh, b.tiles, b.freshT, b.owners, b.mx)

/-- Block b's scratchpad, tiles, tile owners and MXCNT stay. -/
def KeepsBlock (s t : State) (b : Nat) : Prop := (t.blocks[b]?).map localOf = (s.blocks[b]?).map localOf

/-- The special registers of a context. -/
def ctxRegs (c : Context) : Nat × Bool × List DWord × List Word :=
  (c.num, c.sup, [c.ptbase, c.fqbase, c.taskring, c.keepallot, c.slicedesc, c.rollbase, c.rollsize, c.throttled],
    [c.fqhead, c.fqtail, c.sharedom, c.slicelen])

/-- Every special register stays: of contexts, dies, queues, functions and the package. -/
def KeepsSpecial (s t : State) : Prop :=
  t.ctxs.map ctxRegs = s.ctxs.map ctxRegs ∧ t.dies = s.dies ∧ t.queues = s.queues ∧ t.tenparts = s.tenparts ∧ t.fns = s.fns ∧
    t.lanemap = s.lanemap ∧ t.holds = s.holds ∧ t.grace = s.grace ∧ t.drainbud = s.drainbud ∧ t.keys = s.keys

/-- Memory, every block and every special register stay. -/
def KeepsRest (s t : State) : Prop := KeepsMemory s t ∧ (∀ b, KeepsBlock s t b) ∧ KeepsSpecial s t

/-- Memory, every block and every special register stay, and the registers of every warp but w. -/
def KeepsOthers (s t : State) (w : Nat) : Prop := KeepsRest s t ∧ ∀ k, k ≠ w → KeepsWarp s t k

/-- Nothing of the above changes. -/
def KeepsAll (s t : State) : Prop := KeepsRest s t ∧ ∀ k, KeepsWarp s t k

/-- What one warp's vector and scalar registers, WCTL and predicates hold. -/
def heldOf (w : Warp) : List (Nat × Word) × List (Nat × Word) × Word × List (BitVec 8) :=
  (w.v, w.s, w.wctl, w.lanes.map (·.q))

/-- Warp w gets the register writes ps behind those on their way, and the flags f; its registers hold what they held until a write is
readable (R57, R58). -/
def Gets (s t : State) (w : Nat) (ps : List Pend) (f : Nat) : Prop :=
  ∃ x y, s.warps[w]? = some x ∧ t.warps[w]? = some y ∧ y.pend = x.pend ++ ps ∧ y.flags = x.flags ||| BitVec.ofNat 32 f ∧
    heldOf y = heldOf x

/-- A lane's record. -/
def laneOf (s : State) (w l : Nat) : Option Lane := (s.warps[w]?).bind fun x => x.lanes[l]?

end Sys2Proof.Safety
end

