-- ==== Sys2Proof/Certificates/Slice0/Obligations.lean ====
section
/-! DEFINITION. The statements about the CW-880 that are to be proved, each with the rules of spec/ it formalises. -/

namespace Sys2Proof.Claims

open Sys2Proof.Machine Sys2Proof.Forms Sys2Proof.Safety

/-! ### The words these statements use -/

/-- The register writes of a word that gives value `val l` (n registers) in each lane it acts for, readable `lat` cycles after its
last row (R49, R57). -/
def results (s : State) (x : Iss) (i : Instr) (d : Reg) (n lat : Nat) (val : Nat → Nat) : List Pend :=
  (x.acts i).flatMap fun l =>
    resN (uniform x.w64 i) l d (val l) (x.lastRow (uniform x.w64 i) s.clk.cyc + latency lat (uniform x.w64 i)) n

/-- The word completes: its warp gets those writes and the flags, and nothing else changes. -/
def Gives (s : State) (x : Iss) (i : Instr) (d : Reg) (n lat : Nat) (val : Nat → Nat) (fl : Nat) : Prop :=
  Next (exec i s) fun t => Gets s t x.w (results s x i d n lat val) fl ∧ KeepsOthers s t x.w

/-- The bits of an integer operand, at the type's width. -/
def arg (t : Ty) (x : Iss) (l : Nat) (r : Reg) : BitVec (tyBits t) := BitVec.ofNat (tyBits t) (x.rd l r (tyRegs t))

/-- Those bits as a number, signed for the `i` types. -/
def num (t : Ty) (x : Iss) (l : Nat) (r : Reg) : Int := if tySigned t then (arg t x l r).toInt else (arg t x l r).toNat

/-- A result as its registers hold it: extended to 32 or 64 bits by the type's sign (R114, R144). -/
def ext (t : Ty) (v : BitVec (tyBits t)) : Nat :=
  if tySigned t then (v.signExtend (32 * tyRegs t)).toNat else v.toNat

/-- A 32-bit or a 64-bit string of bits. -/
def bits (wide : Bool) (x : Iss) (l : Nat) (r : Reg) : BitVec (32 * wideRegs wide) :=
  BitVec.ofNat _ (x.rd l r (wideRegs wide))

end Sys2Proof.Claims

open Sys2Proof Sys2Proof.Machine Sys2Proof.Forms Sys2Proof.Safety Sys2Proof.Claims

/-- R145: each integer arithmetic word gives its result modulo 2^w in each lane it acts for, sets no flag, and nothing else changes. -/
def Obligations.IntegerArithmetic : Prop :=
  ∀ (s : State) (x : Iss) (t : Ty) (d a b c : Reg) (y : VTail),
    (intTys.contains t → s.iss (.iadd t d a b y) = some x →
      Gives s x (.iadd t d a b y) d (tyRegs t) 4 (fun l => ext t (arg t x l a + arg t x l b)) 0) ∧
    (intTys.contains t → s.iss (.isub t d a b y) = some x →
      Gives s x (.isub t d a b y) d (tyRegs t) 4 (fun l => ext t (arg t x l a - arg t x l b)) 0) ∧
    (intTys.contains t → s.iss (.imul t d a b y) = some x →
      Gives s x (.imul t d a b y) d (tyRegs t) 4 (fun l => ext t (arg t x l a * arg t x l b)) 0) ∧
    (wTys.contains t → s.iss (.imulh t d a b y) = some x →
      Gives s x (.imulh t d a b y) d (tyRegs t) 4
        (fun l => ext t (BitVec.ofInt _ (num t x l a * num t x l b / 2 ^ tyBits t))) 0) ∧
    (intTys.contains t → s.iss (.imad t d a b c y) = some x →
      Gives s x (.imad t d a b c y) d (tyRegs t) 4 (fun l => ext t (arg t x l a * arg t x l b + arg t x l c)) 0) ∧
    ((t = .i32 ∨ t = .n32) → s.iss (.imadw t d a b c y) = some x →
      Gives s x (.imadw t d a b c y) d 2 4 (fun l => (BitVec.ofInt 64 (num t x l a * num t x l b +
        num (if t = .i32 then .i64 else .n64) x l c)).toNat) 0) ∧
    (s.iss (.iaddc .n32 d a b c y) = some x →
      Gives s x (.iaddc .n32 d a b c y) d 2 4 (fun l =>
        (x.rd l a 1 + x.rd l b 1 + x.rd l c 1 % 2) % 2 ^ 32 + 2 ^ 32 * ((x.rd l a 1 + x.rd l b 1 + x.rd l c 1 % 2) / 2 ^ 32)) 0) ∧
    (intTys.contains t → s.iss (.imin t d a b y) = some x →
      Gives s x (.imin t d a b y) d (tyRegs t) 4 (fun l => ext t (if num t x l a ≤ num t x l b then arg t x l a else arg t x l b)) 0) ∧
    (intTys.contains t → s.iss (.imax t d a b y) = some x →
      Gives s x (.imax t d a b y) d (tyRegs t) 4 (fun l => ext t (if num t x l a ≤ num t x l b then arg t x l b else arg t x l a)) 0) ∧
    ((intTys.contains t ∧ tySigned t) → s.iss (.iabs t d a y) = some x →
      Gives s x (.iabs t d a y) d (tyRegs t) 4 (fun l => ext t (if num t x l a < 0 then -arg t x l a else arg t x l a)) 0) ∧
    ((intTys.contains t ∧ tySigned t) → s.iss (.ineg t d a y) = some x →
      Gives s x (.ineg t d a y) d (tyRegs t) 4 (fun l => ext t (-arg t x l a)) 0) ∧
    ((t = .i32 ∨ t = .n32) → s.iss (.isad t d a b c y) = some x →
      Gives s x (.isad t d a b c y) d 1 4 (fun l => ((num t x l a - num t x l b).natAbs + x.rd l c 1) % 2 ^ 32) 0)

/-- R146 and R147: the logical words act on every bit of 32 or 64, and `lsel` reads its two tables.

R148: the shifts and the rotate, with the count read as an unsigned 32-bit number.

R149 and R150: bit fields, counts of bits and the reversal.

R151 and R152: the moves, the selection and the address word. -/
def Obligations.BitWords : Prop :=
  (∀ (s : State) (x : Iss) (w : Bool) (f g : Fin 16) (d a b c : Reg) (y : VTail) (z : Tail),
    (s.iss (.land w d a b y) = some x →
      Gives s x (.land w d a b y) d (wideRegs w) 4 (fun l => (bits w x l a &&& bits w x l b).toNat) 0) ∧
    (s.iss (.lor w d a b y) = some x →
      Gives s x (.lor w d a b y) d (wideRegs w) 4 (fun l => (bits w x l a ||| bits w x l b).toNat) 0) ∧
    (s.iss (.lxor w d a b y) = some x →
      Gives s x (.lxor w d a b y) d (wideRegs w) 4 (fun l => (bits w x l a ^^^ bits w x l b).toNat) 0) ∧
    (s.iss (.landn w d a b y) = some x →
      Gives s x (.landn w d a b y) d (wideRegs w) 4 (fun l => (bits w x l a &&& ~~~bits w x l b).toNat) 0) ∧
    (s.iss (.lnot w d a y) = some x → Gives s x (.lnot w d a y) d (wideRegs w) 4 (fun l => (~~~bits w x l a).toNat) 0) ∧
    (s.iss (.lsel f g d a b c z) = some x → ∃ val : Nat → BitVec 32,
      (∀ l i, i < 32 → (val l).getLsbD i = Nat.testBit (if (x.rd1 l c).testBit i then g.val else f.val)
        ((if (x.rd1 l a).testBit i then 1 else 0) + 2 * (if (x.rd1 l b).testBit i then 1 else 0))) ∧
      Gives s x (.lsel f g d a b c z) d 1 4 (fun l => (val l).toNat) 0)) ∧
  (∀ (s : State) (x : Iss) (t : Ty) (d a b : Reg) (y : VTail),
    (wTys.contains t → s.iss (.shl t d a b y) = some x →
      Gives s x (.shl t d a b y) d (tyRegs t) 4 (fun l => (arg t x l a <<< x.rd1 l b).toNat) 0) ∧
    (nTys.contains t → s.iss (.shr t d a b y) = some x →
      Gives s x (.shr t d a b y) d (tyRegs t) 4 (fun l => (arg t x l a >>> x.rd1 l b).toNat) 0) ∧
    ((t = .i32 ∨ t = .i64) → s.iss (.sar t d a b y) = some x →
      Gives s x (.sar t d a b y) d (tyRegs t) 4 (fun l => ((arg t x l a).sshiftRight (min (x.rd1 l b) (tyBits t - 1))).toNat) 0) ∧
    (nTys.contains t → s.iss (.rot t d a b y) = some x →
      Gives s x (.rot t d a b y) d (tyRegs t) 4 (fun l => ((arg t x l a).rotateLeft (x.rd1 l b % tyBits t)).toNat) 0)) ∧
  (∀ (s : State) (x : Iss) (t : Ty) (d a b c : Reg) (y : VTail),
    (wTys.contains t → s.iss (.bfx t d a b c y) = some x → ∃ val : Nat → BitVec (tyBits t),
      (∀ l i, i < tyBits t → (val l).getLsbD i =
        let p := min (x.rd1 l b) (tyBits t)
        let n := min (x.rd1 l c) (tyBits t)
        let bit := fun k => if k < tyBits t then (arg t x l a).getLsbD k else tySigned t && (arg t x l a).msb
        if n = 0 then false else if i < n then bit (p + i) else tySigned t && bit (p + n - 1)) ∧
      Gives s x (.bfx t d a b c y) d (tyRegs t) 4 (fun l => (val l).toNat) 0) ∧
    (nTys.contains t → s.iss (.bfi t d a b c y) = some x → ∃ val : Nat → BitVec (tyBits t),
      (∀ l i, i < tyBits t → (val l).getLsbD i =
        let p := x.rd1 l b % 256
        let n := x.rd1 l b / 256 % 256
        if p ≤ i ∧ i < p + n then (arg t x l a).getLsbD (i - p) else (arg t x l c).getLsbD i) ∧
      Gives s x (.bfi t d a b c y) d (tyRegs t) 4 (fun l => (val l).toNat) 0) ∧
    (nTys.contains t → s.iss (.popc t d a y) = some x →
      Gives s x (.popc t d a y) d 1 4 (fun l => (List.range (tyBits t)).countP fun i => (arg t x l a).getLsbD i) 0) ∧
    (nTys.contains t → s.iss (.clz t d a y) = some x →
      Gives s x (.clz t d a y) d 1 4 (fun l => (arg t x l a).clz.toNat) 0) ∧
    (nTys.contains t → s.iss (.ctz t d a y) = some x →
      Gives s x (.ctz t d a y) d 1 4 (fun l => (arg t x l a).reverse.clz.toNat) 0) ∧
    (nTys.contains t → s.iss (.brev t d a y) = some x →
      Gives s x (.brev t d a y) d (tyRegs t) 4 (fun l => (arg t x l a).reverse.toNat) 0)) ∧
  (∀ (s : State) (x : Iss) (t : Ty) (d a b c : Reg) (q : Fin 8) (neg : Bool) (imm : Word) (st : Fin 16) (y : VTail),
    (s.iss (.mov t d a y) = some x → Gives s x (.mov t d a y) d (tyRegs t) 4 (fun l => x.rd l a (tyRegs t)) 0) ∧
    (s.iss (.movi d imm st) = some x → Gives s x (.movi d imm st) d 1 4 (fun _ => imm.toNat) 0) ∧
    (s.iss (.movhi d a imm st) = some x → Gives s x (.movhi d a imm st) d 2 4 (fun l => (imm ++ x.wp.reg l a 0).toNat) 0) ∧
    (s.iss (.sel t d a b q neg y) = some x →
      Gives s x (.sel t d a b q neg y) d (tyRegs t) 4 (fun l => if x.wp.getQ l q.val = !neg then x.rd l a (tyRegs t)
        else x.rd l b (tyRegs t)) 0) ∧
    ((t = .i32 ∨ t = .n32) → s.iss (.lea t d a b c y) = some x →
      Gives s x (.lea t d a b c y) d 2 4 (fun l => (BitVec.ofNat 64 (x.rd l a 2) +
        (if t = .i32 then (x.wp.reg l b 0).signExtend 64 else (x.wp.reg l b 0).zeroExtend 64) <<< (x.rd1 l c % 64)).toNat) 0))

namespace Sys2Proof.Claims

/-- The word completes with a predicate write in every participating lane (R141), and nothing else changes. -/
def GivesQ (s : State) (x : Iss) (i : Instr) (q : Fin 8) (lat : Nat) (val : Nat → Bool) (fl : Nat) : Prop :=
  Next (exec i s) fun t =>
    Gets s t x.w ((lanesIn x.part).map fun l =>
      pendQ l q (val l) (x.lastRow (uniform x.w64 i) s.clk.cyc + latency lat (uniform x.w64 i))) fl ∧ KeepsOthers s t x.w

/-- The word completes with one value over its participating lanes: in each of them, or once in an `s` destination (R165). -/
def GivesShared (s : State) (x : Iss) (i : Instr) (d : Reg) (n : Nat) (val fl : Nat) : Prop :=
  Next (exec i s) fun t =>
    Gets s t x.w ((if Reg.isS d then (lanesIn x.part).take 1 else lanesIn x.part).flatMap fun l =>
      resN (uniform x.w64 i) l d val (x.lastRow (uniform x.w64 i) s.clk.cyc + latency 8 (uniform x.w64 i)) n) fl ∧
    KeepsOthers s t x.w

/-- The flags of the lanes a word acts for, ORed (R133). -/
def flagsOf (x : Iss) (i : Instr) (fl : Nat → Nat) : Nat := orAll ((x.acts i).map fl)

/-- A finite value as a rational number. -/
def value : Fl → Option ℚ
  | .fin neg m e => some ((if neg then -1 else 1) * m * (2 : ℚ) ^ e)
  | _ => none

/-- Sign, exponent and fraction fields of a float's bits (R114). -/
def expOf (f : Fmt) (b : Nat) : Nat := b / 2 ^ f.mb % 2 ^ f.eb
def fracOf (f : Fmt) (b : Nat) : Nat := b % 2 ^ f.mb
def negOf (f : Fmt) (b : Nat) : Bool := b / f.signBit % 2 == 1

/-- n is the integer that a float becomes in a range, with its flags (R123). -/
def ToInteger (range : Int × Int) (x : Fl) (n : Int) (fl : Nat) : Prop :=
  (x.isNan = true → n = 0 ∧ fl = fInv) ∧ (∀ neg, x = .inf neg → n = (if neg then range.1 else range.2) ∧ fl = fInv) ∧
    ∀ p : ℚ, value x = some p → ∃ m : Int, 2 * |p - m| ≤ 1 ∧ (2 * |p - m| = 1 → m % 2 = 0) ∧
      (m < range.1 → n = range.1 ∧ fl = fInv) ∧ (range.2 < m → n = range.2 ∧ fl = fInv) ∧
      (range.1 ≤ m → m ≤ range.2 → n = m ∧ fl = if p = m then 0 else fInx)

/-- The class of R156. -/
def classOf (f : Fmt) (b : Nat) : Nat :=
  if expOf f b = 2 ^ f.eb - 1 then
    if fracOf f b = 0 then (if negOf f b then 2 else 9) else (if fracOf f b < 2 ^ (f.mb - 1) then 0 else 1)
  else if expOf f b = 0 then
    if fracOf f b = 0 then (if negOf f b then 5 else 6) else (if negOf f b then 4 else 7)
  else if negOf f b then 3 else 8

end Sys2Proof.Claims

/-- R153: `icmp` compares in the type's signedness and writes one predicate in each participating lane. -/
def Obligations.IntegerComparison : Prop :=
  ∀ (s : State) (x : Iss) (t : Ty) (q : Fin 8) (a b : Reg) (y : VTail), intTys.contains t →
    (s.iss (.icmp .eq t q a b y) = some x →
      GivesQ s x (.icmp .eq t q a b y) q 4 (fun l => decide (num t x l a = num t x l b)) 0) ∧
    (s.iss (.icmp .ne t q a b y) = some x →
      GivesQ s x (.icmp .ne t q a b y) q 4 (fun l => decide (num t x l a ≠ num t x l b)) 0) ∧
    (s.iss (.icmp .lt t q a b y) = some x →
      GivesQ s x (.icmp .lt t q a b y) q 4 (fun l => decide (num t x l a < num t x l b)) 0) ∧
    (s.iss (.icmp .le t q a b y) = some x →
      GivesQ s x (.icmp .le t q a b y) q 4 (fun l => decide (num t x l a ≤ num t x l b)) 0) ∧
    (s.iss (.icmp .gt t q a b y) = some x →
      GivesQ s x (.icmp .gt t q a b y) q 4 (fun l => decide (num t x l b < num t x l a)) 0) ∧
    (s.iss (.icmp .ge t q a b y) = some x →
      GivesQ s x (.icmp .ge t q a b y) q 4 (fun l => decide (num t x l b ≤ num t x l a)) 0)

/-- R154, R157, R158 and R159: each float word gives the exact result of its operands rounded once, with its flags ORed into FLAGS,
and nothing else changes.

R159: each element of a packed pair is computed as `fadd`, `fmul` and `ffma` compute it.

R154 to R156: `fneg` and `fabs` change the sign bit alone and set no flag; `fclass` writes a mask with exactly the bit of its
operand's class; `fcmp` and `dcmp` are unordered on a NaN. -/
def Obligations.FloatWords : Prop :=
  (∀ (s : State) (x : Iss) (t : FTy) (z : Bool) (r : Rnd) (d a b c : Reg) (y : VTail),
    let f := fmtOf t
    let v := fun l g => x.fl t z l g
    let w := fun l g => x.fl .f64 false l g
    let u := fun l g => x.fl .f32 z l g
    let gives := fun (i : Instr) (n lat : Nat) (res : Nat → Nat × Nat) => s.iss i = some x →
      Gives s x i d n lat (fun l => (res l).1) (flagsOf x i fun l => (res l).2)
    gives (.fadd t z r d a b y) (ftyRegs t) 5 (fun l => f.encode r z (addFl r (v l a) (v l b))) ∧
    gives (.fsub t z r d a b y) (ftyRegs t) 5 (fun l => f.encode r z (addFl r (v l a) (v l b).neg)) ∧
    gives (.fmul t z r d a b y) (ftyRegs t) 5 (fun l => f.encode r z (mulFl (v l a) (v l b))) ∧
    gives (.ffma t z r d a b c y) (ftyRegs t) 5 (fun l => f.encode r z (fmaFl r (v l a) (v l b) (v l c))) ∧
    gives (.fmin t z d a b y) (ftyRegs t) 5 (fun l => f.encode .rn z (minFl (v l a) (v l b), sigFlag [v l a, v l b])) ∧
    gives (.fmax t z d a b y) (ftyRegs t) 5 (fun l => f.encode .rn z (maxFl (v l a) (v l b), sigFlag [v l a, v l b])) ∧
    gives (.frcp z r d a y) 1 12 (fun l => fmtF32.encode r z (rcpFl (u l a))) ∧
    gives (.frsq z d a y) 1 12 (fun l => fmtF32.encode .rn z (rsqFl (u l a))) ∧
    gives (.fsqrt z r d a y) 1 12 (fun l => fmtF32.encode r z (sqrtFl (u l a))) ∧
    gives (.fexp2 z d a y) 1 12 (fun l => fmtF32.encode .rn z (exp2Fl (u l a))) ∧
    gives (.flog2 z d a y) 1 12 (fun l => fmtF32.encode .rn z (log2Fl (u l a))) ∧
    gives (.fsin z d a y) 1 12 (fun l => fmtF32.encode .rn z (sinFl (u l a))) ∧
    gives (.fcos z d a y) 1 12 (fun l => fmtF32.encode .rn z (cosFl (u l a))) ∧
    gives (.dadd r d a b y) 2 10 (fun l => fmtF64.encode r false (addFl r (w l a) (w l b))) ∧
    gives (.dmul r d a b y) 2 10 (fun l => fmtF64.encode r false (mulFl (w l a) (w l b))) ∧
    gives (.dfma r d a b c y) 2 10 (fun l => fmtF64.encode r false (fmaFl r (w l a) (w l b) (w l c)))) ∧
  (∀ (s : State) (x : Iss) (t : FTy) (r : Rnd) (d a b c : Reg) (y : VTail),
    let f := fmtOf t
    let v := fun l g k => f.decode (half (x.rd1 l g) k)
    let gives := fun (i : Instr) (res : Nat → Nat → Nat × Nat) => s.iss i = some x →
      Gives s x i d 1 5 (fun l => (res l 0).1 + 2 ^ 16 * (res l 1).1) (flagsOf x i fun l => (res l 0).2 ||| (res l 1).2)
    gives (.hadd2 t r d a b y) (fun l k => f.encode r false (addFl r (v l a k) (v l b k))) ∧
    gives (.hmul2 t r d a b y) (fun l k => f.encode r false (mulFl (v l a k) (v l b k))) ∧
    gives (.hfma2 t r d a b c y) (fun l k => f.encode r false (fmaFl r (v l a k) (v l b k) (v l c k)))) ∧
  (∀ (s : State) (x : Iss) (k : Cmp) (t : FTy) (z : Bool) (q : Fin 8) (d a b : Reg) (y : VTail),
    let f := fmtOf t
    (s.iss (.fneg t d a y) = some x → ∃ val : Nat → Nat,
      (∀ l, (val l).testBit (f.eb + f.mb) = !(x.rd l a (ftyRegs t)).testBit (f.eb + f.mb)) ∧
      (∀ l i, i < f.eb + f.mb → (val l).testBit i = (x.rd l a (ftyRegs t)).testBit i) ∧ (∀ l, val l < 2 * f.signBit) ∧
      Gives s x (.fneg t d a y) d (ftyRegs t) 5 val 0) ∧
    (s.iss (.fabs t d a y) = some x →
      Gives s x (.fabs t d a y) d (ftyRegs t) 5 (fun l => x.rd l a (ftyRegs t) % f.signBit) 0) ∧
    (s.iss (.fclass t d a y) = some x →
      Gives s x (.fclass t d a y) d 1 5 (fun l => 2 ^ classOf f (x.rd l a (ftyRegs t))) 0) ∧
    (s.iss (.fcmp k t z q a b y) = some x → ∃ val : Nat → Bool,
      (∀ l, ((x.fl t z l a).isNan ∨ (x.fl t z l b).isNan) → val l = decide (k = .ne)) ∧
      (∀ l p r, value (x.fl t z l a) = some p → value (x.fl t z l b) = some r → val l =
        match k with
        | .eq => decide (p = r) | .ne => decide (p ≠ r) | .lt => decide (p < r) | .le => decide (p ≤ r)
        | .gt => decide (r < p) | .ge => decide (r ≤ p)) ∧
      GivesQ s x (.fcmp k t z q a b y) q 5 val (flagsOf x (.fcmp k t z q a b y) fun l =>
        if (x.fl t z l a).isSig ∨ (x.fl t z l b).isSig then fInv else 0)) ∧
    (s.iss (.dcmp k q a b y) = some x → ∃ val : Nat → Bool,
      (∀ l, ((x.fl .f64 false l a).isNan ∨ (x.fl .f64 false l b).isNan) → val l = decide (k = .ne)) ∧
      GivesQ s x (.dcmp k q a b y) q 10 val (flagsOf x (.dcmp k q a b y) fun l =>
        if (x.fl .f64 false l a).isSig ∨ (x.fl .f64 false l b).isSig then fInv else 0)))

/-- R120: a magnitude that is not a multiple of 2^q is rounded to the nearer multiple, ties to even; toward zero; down; up.

R154: sums, products and multiply-adds of finite values are exact before they are rounded.

R118: an operation that gives a NaN writes the canonical quiet NaN of its format, and raises no flag of its own.

R116: a finite or infinite bit pattern of F32, F16, BF16 or F64 that is decoded and encoded again comes back, without a flag.

R119: `fmin` and `fmax` take the operand that is a number, order −0 below +0, and give the lesser or greater value.

R157: each special function has the value and the flags of its table at the special inputs, and an exact result has no flag. -/
def Obligations.FloatArithmetic : Prop :=
  (∀ (neg : Bool) (m k : Nat) (e : Int), 0 < k →
    (let n := (roundTo .rn neg m e (e + k)).1;
      2 * (m - n * 2 ^ k : Int).natAbs ≤ 2 ^ k ∧ (2 * (m - n * 2 ^ k : Int).natAbs = 2 ^ k → n % 2 = 0)) ∧
    (let n := (roundTo .rz neg m e (e + k)).1;
      n * 2 ^ k ≤ m ∧ m < (n + 1) * 2 ^ k) ∧
    (let n := (roundTo .rd neg m e (e + k)).1;
      if neg then m ≤ n * 2 ^ k ∧ n * 2 ^ k < m + 2 ^ k else n * 2 ^ k ≤ m ∧ m < (n + 1) * 2 ^ k) ∧
    (let n := (roundTo .ru neg m e (e + k)).1;
      if neg then n * 2 ^ k ≤ m ∧ m < (n + 1) * 2 ^ k else m ≤ n * 2 ^ k ∧ n * 2 ^ k < m + 2 ^ k) ∧
    (∀ r, (roundTo r neg m e (e + k)).2 = true ↔ ¬ 2 ^ k ∣ m)) ∧
  (∀ (r : Rnd) (a b c : Fl) (p q u : ℚ), value a = some p → value b = some q → value c = some u →
    value (addFl r a b).1 = some (p + q) ∧ (addFl r a b).2 = 0 ∧ value (addFl r a b.neg).1 = some (p - q) ∧
    value (mulFl a b).1 = some (p * q) ∧ (mulFl a b).2 = 0 ∧ value (fmaFl r a b c).1 = some (p * q + u)) ∧
  ((∀ (f : Fmt) (r : Rnd) (z sig : Bool) (fl : Nat), f.encode r z (.nan sig, fl) = (f.nanBits, fl)) ∧
    fmtF16.nanBits = 0x7E00 ∧ fmtBf16.nanBits = 0x7FC0 ∧ fmtF32.nanBits = 0x7FC00000 ∧
    fmtF64.nanBits = 0x7FF8000000000000 ∧ fmtA80.nanBits = 0x7FFFC000000000000000) ∧
  (∀ (t : FTy) (r : Rnd) (b : Nat), b < 2 * (fmtOf t).signBit → ((fmtOf t).decode b).isNan = false →
    (fmtOf t).encode r false ((fmtOf t).decode b, 0) = (b, 0)) ∧
  ((∀ (a b : Fl) (p q : ℚ) (e e' : Int),
    (a.isNan = true → b.isNan = true → minFl a b = .nan false ∧ maxFl a b = .nan false) ∧
    (a.isNan = true → b.isNan = false → minFl a b = b ∧ minFl b a = b ∧ maxFl a b = b ∧ maxFl b a = b) ∧
    (value a = some p → value b = some q → value (minFl a b) = some (min p q) ∧ value (maxFl a b) = some (max p q)) ∧
    minFl (.fin false 0 e) (.fin true 0 e') = .fin true 0 e' ∧ minFl (.fin true 0 e) (.fin false 0 e') = .fin true 0 e ∧
    maxFl (.fin false 0 e) (.fin true 0 e') = .fin false 0 e ∧ maxFl (.fin true 0 e) (.fin false 0 e') = .fin false 0 e' ∧
    (b.isNan = false → minFl (.inf true) b = .inf true ∧ minFl b (.inf true) = .inf true ∧ maxFl (.inf true) b = b ∧ maxFl b (.inf true) = b ∧
      maxFl (.inf false) b = .inf false ∧ maxFl b (.inf false) = .inf false ∧ minFl (.inf false) b = b ∧ minFl b (.inf false) = b)) ∧
  (∀ (z : Bool) (r : Rnd),
    let gives := fun (g : Fl → Fl × Nat) (rows : List (Nat × Nat × Nat)) => ∀ e ∈ rows, fmtF32.encode r z (g (fmtF32.decodeZ z e.1)) = e.2
    let one := 0x3F800000
    let inf := 0x7F800000
    let minus := 0x80000000
    let nan := 0x7FC00000
    gives rcpFl [(0, inf, fDz), (minus, minus + inf, fDz), (inf, 0, 0), (minus + inf, minus, 0)] ∧
    gives rsqFl [(0, inf, fDz), (minus, minus + inf, fDz), (inf, 0, 0), (minus + inf, nan, fInv)] ∧
    gives sqrtFl [(0, 0, 0), (minus, minus, 0), (inf, inf, 0), (minus + inf, nan, fInv)] ∧
    gives exp2Fl [(0, one, 0), (minus, one, 0), (inf, inf, 0), (minus + inf, 0, 0)] ∧
    gives log2Fl [(0, minus + inf, fDz), (minus, minus + inf, fDz), (inf, inf, 0), (minus + inf, nan, fInv)] ∧
    gives sinFl [(0, 0, 0), (minus, minus, 0), (inf, nan, fInv), (minus + inf, nan, fInv)] ∧
    gives cosFl [(0, one, 0), (minus, one, 0), (inf, nan, fInv), (minus + inf, nan, fInv)] ∧
    (∀ g ∈ [rcpFl, rsqFl, sqrtFl, exp2Fl, log2Fl, sinFl, cosFl], ∀ sig, fmtF32.encode r z (g (.nan sig)) = (nan, if sig then fInv else 0)) ∧
    ∀ g ∈ [rsqFl, sqrtFl, log2Fl], ∀ m e, m ≠ 0 → fmtF32.encode r z (g (.fin true m e)) = (nan, fInv)) ∧
  (∀ (z : Bool) (b : Nat) (k : Int) (q : ℚ),
    let a := fmtF32.decodeZ z b
    let exact := fun (x : Fl × Nat) (v : ℚ) => value x.1 = some v ∧ x.2 = 0
    (value a = some ((2 : ℚ) ^ k) → exact (rcpFl a) ((2 : ℚ) ^ (-k)) ∧ exact (log2Fl a) k) ∧
    (value a = some ((2 : ℚ) ^ (2 * k)) → exact (rsqFl a) ((2 : ℚ) ^ (-k))) ∧
    (0 < q → value a = some (q ^ 2) → exact (sqrtFl a) q) ∧
    (-256 < k → k < 256 → value a = some (k : ℚ) → exact (exp2Fl a) ((2 : ℚ) ^ k))))

/-- R160 to R164: the conversions complete with the value of their rule and its flags; a format slot that fails a check traps
instead (`FormatSlotTraps`).

R160: an integer converted to an integer type is clamped to that type's range.

R123: a float becomes the nearest integer, ties to even, within the range; a NaN becomes 0; what saturates raises invalid, and what is
rounded inexact.

R160: an integer that its format holds, and a float in a wider format, keep their value, without a flag; a NaN becomes the canonical one; beyond the
range of a narrower format stands an infinity, with overflow and inexact.

R161, R162: `cvtq` and `cvtd` convert the product with the scale, which is 1 for scale format 0; `cvtq` saturates a float output at the largest
finite value.

R164: each element of `pack2` is the conversion of its F32 value.

R163: five weights of −1, 0 and 1 packed into a T5 byte and unpacked again come back, without a flag. -/
def Obligations.Conversions : Prop :=
  (∀ (s : State) (x : Iss) (t dt st : Ty) (k : Fin 8) (d a b : Reg) (y : VTail),
    let slot := slotRead (s.slotOf x.wp k.val)
    let gives := fun (i : Instr) (n : Nat) (res : Nat → Nat × Nat) => s.iss i = some x →
      Gives s x i d n 6 (fun l => (res l).1) (flagsOf x i fun l => (res l).2)
    gives (.cvt dt st d a y) (tyRegs dt) (fun l => cvtVal dt st (x.rd l a (tyRegs st))) ∧
    (slotCheck .cvtq (s.slotOf x.wp k.val) = none →
      gives (.cvtq k d a b y) 1 (fun l => cvtqVal slot (x.rd1 l a) (x.rd1 l b))) ∧
    (slotCheck .cvtd (s.slotOf x.wp k.val) = none →
      gives (.cvtd k d a b y) 1 (fun l => cvtdVal slot (x.rd1 l a) (x.rd1 l b))) ∧
    gives (.trpack d a y) 1 (fun l => trpackVal (x.rd l a 2)) ∧
    gives (.trunpack d a y) 2 (fun l => trunpackVal (x.rd1 l a % 256)) ∧
    gives (.pack2 t d a b y) 1 (fun l => pack2Val (if t == .bf16 then fmtBf16 else fmtF16) (x.rd1 l a) (x.rd1 l b))) ∧
  (∀ (dt st : Ty) (v : Nat), intTys.contains dt → intTys.contains st →
    ∃ r : Int, (cvtVal dt st v).2 = 0 ∧ intOf dt (cvtVal dt st v).1 = r ∧
      (let hi : Int := if tySigned dt then 2 ^ (tyBits dt - 1) - 1 else 2 ^ tyBits dt - 1
       let lo : Int := if tySigned dt then -2 ^ (tyBits dt - 1) else 0
       (intOf st v < lo → r = lo) ∧ (hi < intOf st v → r = hi) ∧ (lo ≤ intOf st v → intOf st v ≤ hi → r = intOf st v))) ∧
  ((∀ (dt st : Ty) (g : Fmt) (v : Nat), intTys.contains dt → tyFmt st = some g →
    ToInteger (if tySigned dt then (-2 ^ (tyBits dt - 1), 2 ^ (tyBits dt - 1) - 1) else (0, 2 ^ tyBits dt - 1)) (g.decode (v % (2 * g.signBit))) (intOf dt (cvtVal dt st v).1) (cvtVal dt st v).2) ∧
  (∀ (dt st : Ty) (f : Fmt) (v : Nat), intTys.contains st → tyFmt dt = some f → (intOf st v).natAbs ≤ 2 ^ (f.mb + 1) →
    value (f.decode (cvtVal dt st v).1) = some (intOf st v : ℚ) ∧ (cvtVal dt st v).2 = 0) ∧
  (∀ (dt st : Ty) (f g : Fmt) (v : Nat), tyFmt dt = some f → tyFmt st = some g →
    let x := g.decode (v % (2 * g.signBit))
    let y := cvtVal dt st v
    (x.isNan = true → y = (f.nanBits, if x.isSig then fInv else 0)) ∧
    (∀ n, x = .inf n → y = ((if n then f.signBit else 0) + f.infBits, 0)) ∧
    (∀ p, value x = some p →
      (g.eb ≤ f.eb → g.mb ≤ f.mb → value (f.decode y.1) = some p ∧ (f.decode y.1).isNeg = x.isNeg ∧ y.2 = 0) ∧
      ((2 - 1 / 2 ^ (f.mb + 1) : ℚ) * 2 ^ (2 ^ (f.eb - 1) - 1) ≤ |p| →
        y = ((if x.isNeg then f.signBit else 0) + f.infBits, fOvf + fInx)))) ∧
  (∀ (k : Slot) (a b : Nat),
    let y := mulFl (fmtF32.decode a) (scaleFl k.scale b)
    let f := if k.out = 4 then fmtF16 else fmtBf16
    (k.scale = 0 → value (scaleFl k.scale b) = some 1) ∧
    (k.out < 4 → ∃ n : Int, (cvtqVal k a b).1 = (n % 2 ^ 32).toNat ∧
      ToInteger (match k.out with | 0 => (-128, 127) | 1 => (0, 255) | 2 => (-32768, 32767) | _ => (-2147483648, 2147483647)) y.1 n (cvtqVal k a b).2) ∧
    (k.out = 4 ∨ k.out = 5 →
      (y.1.isNan = true → cvtqVal k a b = (f.nanBits, y.2)) ∧
      ((∃ n, y.1 = .inf n) ∨ (∃ p, value y.1 = some p ∧ (2 - 1 / 2 ^ (f.mb + 1) : ℚ) * 2 ^ (2 ^ (f.eb - 1) - 1) ≤ |p|) →
        cvtqVal k a b = ((if y.1.isNeg then f.signBit else 0) + f.infBits - 1, fOvf + fInx))) ∧
    (k.scale = 0 → k.a ≤ 2 → value (fmtF32.decode (cvtdVal k a b).1) =
      some (((match k.a with | 0 => (BitVec.ofNat 8 a).toInt | 1 => (BitVec.ofNat 8 a).toNat | _ => (BitVec.ofNat 16 a).toInt) : Int) : ℚ) ∧
        (cvtdVal k a b).2 = 0) ∧
    (k.scale = 0 → ∀ t, (k.a, t) ∈ [(4, Ty.f16), (5, .bf16), (6, .f32)] → cvtdVal k a b = cvtVal .f32 t a)) ∧
  ∀ (t : Ty) (f : Fmt) (a b : Nat), (t, f) ∈ [(Ty.f16, fmtF16), (.bf16, fmtBf16)] → a < 2 ^ 32 → b < 2 ^ 32 →
    pack2Val f a b = ((cvtVal t .f32 a).1 + 2 ^ 16 * (cvtVal t .f32 b).1, (cvtVal t .f32 a).2 ||| (cvtVal t .f32 b).2)) ∧
  (∀ (pair : Nat), (∀ k, k < 5 → weightOf pair k ∈ [(-1 : Int), 0, 1]) →
    (trpackVal pair).1 < 243 ∧ (trpackVal pair).2 = 0 ∧ (trunpackVal (trpackVal pair).1).2 = 0 ∧
    ∀ k, k < 5 → weightOf (trunpackVal (trpackVal pair).1).1 k = weightOf pair k)

/-- R165 to R169: the lane words give their value over the participating lanes, and nothing else changes; `s0` where a `v` destination is
required discards the result.

R166: the source lane of `shfl` is the one of the lane's own group that its mode names; a lane whose source does not take part reads itself. -/
def Obligations.LaneExchange : Prop :=
  (∀ (s : State) (x : Iss) (m : ShflMode) (o : ScanOp) (t : Ty) (d a b c : Reg) (q qd : Fin 8) (y : VTail),
    let ls := lanesIn x.part
    let v := fun l => x.rd l a (tyRegs t)
    (s.iss (.shfl m t d a b c y) = some x →
      Gives s x (.shfl m t d a b c y) d (tyRegs t) 8
        (fun l => v (shflSrc m x.wp.width l (x.rd1 l c) (x.rd1 l b) x.part)) 0) ∧
    (s.iss (.voteBallot t d q y) = some x →
      GivesShared s x (.voteBallot t d q y) d (tyRegs t) (maskOf (ls.filter fun l => x.wp.getQ l q.val)).toNat 0) ∧
    (s.iss (.voteAny qd q y) = some x →
      GivesQ s x (.voteAny qd q y) qd 8 (fun _ => decide (∃ l ∈ ls, x.wp.getQ l q.val = true)) 0) ∧
    (s.iss (.voteAll qd q y) = some x →
      GivesQ s x (.voteAll qd q y) qd 8 (fun _ => decide (∀ l ∈ ls, x.wp.getQ l q.val = true)) 0) ∧
    (s.iss (.voteEq t qd a y) = some x →
      GivesQ s x (.voteEq t qd a y) qd 8 (fun _ => decide (∀ l ∈ ls, ∀ k ∈ ls, v l = v k)) 0) ∧
    (s.iss (.lanes .rank t d y) = some x →
      Next (exec (.lanes .rank t d y) s) fun u => Gets s u x.w (if Reg.isS0 d then [] else
        results s x (.lanes .rank t d y) d (tyRegs t) 8 fun l => ls.countP fun k => decide (k < l)) 0 ∧ KeepsOthers s u x.w) ∧
    (s.iss (.lanes .mask t d y) = some x → GivesShared s x (.lanes .mask t d y) d (tyRegs t) x.part.toNat 0) ∧
    (s.iss (.lanes .count t d y) = some x → GivesShared s x (.lanes .count t d y) d (tyRegs t) ls.length 0) ∧
    (s.iss (.lanes .first t d y) = some x → GivesShared s x (.lanes .first t d y) d (tyRegs t) (ls.headD 0) 0) ∧
    (∃ val : Nat → Nat, (∀ l, ls.head? = some l → val l = v l) ∧
      (∀ pre l k post, ls = pre ++ l :: k :: post → val k = (scanOp o t (val l) (v k)).1) ∧
      let fl := orAll ((ls.zip ls.tail).map fun e => (scanOp o t (val e.1) (v e.2)).2)
      (s.iss (.scan o t d a y) = some x → Next (exec (.scan o t d a y) s) fun u =>
        Gets s u x.w (ls.flatMap fun l => resN false l d (val l)
          (x.lastRow (uniform x.w64 (.scan o t d a y)) s.clk.cyc + 8) (tyRegs t)) fl ∧ KeepsOthers s u x.w) ∧
      (s.iss (.redux o t d a y) = some x →
        GivesShared s x (.redux o t d a y) d (tyRegs t) ((ls.getLast?.map val).getD 0) fl))) ∧
  (∀ (m : ShflMode) (w l c k : Nat) (part : Mask), (w = 32 ∨ w = 64) → l < w → part.getLsbD l = true →
    let size := if c ∈ [1, 2, 4, 8, 16, 32] ∨ (c = 64 ∧ w = 64) then c else w
    let src := shflSrc m w l c k part
    let by_ := (l % size : Int) + (BitVec.ofNat 32 k).toInt
    src / size = l / size ∧ part.getLsbD src = true ∧ ∃ j, j < size ∧
      src = (if part.getLsbD (l / size * size + j) then l / size * size + j else l) ∧
      (match m with
        | .abs => j = k % size
        | .add => if 0 ≤ by_ ∧ by_ < size then (j : Int) = by_ else j = l % size
        | .wrap => (j : Int) = by_ % size
        | .flip => j = l % size ^^^ k % size))

namespace Sys2Proof.Claims

/-- The warp of the word at issue has no trap due at its boundary, and its block runs: no lane is taken from it when the clause ends. -/
def Calm (s : State) (x : Iss) : Prop := x.wp.due = [] ∧ ∃ b, s.blkOf x.wp = some b ∧ b.st = .running

/-- A lane that has taken a program trap at a word (R323, R326): n lanes with it, the handler's address, the cause. -/
def Taken (h n word : Nat) (c : Cause) (y : Lane) : Prop :=
  y.handler = true ∧ y.pc = h ∧ y.hdr = none ∧ y.st = .standing ∧ y.tpc = word ∧
    y.tcause = BitVec.ofNat 32 (n * 2 ^ 16 + c.code * 2 ^ 5 + c.grp) ∧ y.td0 = BitVec.ofNat 32 c.d0 ∧
    y.td1 = BitVec.ofNat 32 c.d1 ∧ y.td2 = BitVec.ofNat 32 c.d2

/-- The launch has a handler and no lane of the mask is in handler mode (R326 to R328). -/
def CanTrap (s : State) (x : Iss) (m : Mask) : Prop :=
  s.handlerOf x.wp ≠ 0 ∧ ∀ l y, m.getLsbD l = true → laneOf s x.w l = some y → y.handler = false

/-- Every lane of the mask takes the trap at the word that issues; registers, memory, blocks and special registers stay. -/
def AllTrap (s t : State) (x : Iss) (m : Mask) (c : Nat → Cause) : Prop :=
  (∀ l y, m.getLsbD l = true → laneOf s x.w l = some y →
    ∃ z, laneOf t x.w l = some z ∧ Taken (s.handlerOf x.wp) (lanesIn m).length x.addr (c l) z) ∧
  Gets s t x.w [] 0 ∧ KeepsOthers s t x.w

/-- Lanes of a mask go to their targets, and stand there with no clause of their own (R44). -/
def Jump (s t : State) (x : Iss) (m : Mask) (target : Nat → Nat) : Prop :=
  ∀ l y, m.getLsbD l = true → laneOf s x.w l = some y →
    laneOf t x.w l = some { y with pc := target l, hdr := none, via := some (x.addr, x.cl.addr) }

/-- The words that only level S may use (R341). -/
def needsS : Instr → Bool
  | .resumeRetry _ _ | .resumeDeliver _ _ | .resumeEnd _ _ | .preemptSliceEnd _ _ | .preemptAdaptive _ _ | .preemptSave _ _
  | .preemptRestore _ _ | .tlbinvPage _ _ _ | .tlbinvCtx _ _ | .tlbinvAll _ | .halt _ _ | .assign _ _ _ | .kzero _ _
  | .lstart _ _ => true
  | _ => false

/-- The selector of a word that names a special register. -/
def selOf : Instr → Option Nat
  | .sread k _ _ _ | .swrite k _ _ _ => some k.toNat
  | .lqerrRead q _ _ => some (0x30004 + 8 * q.val)
  | .ecccntRead d _ _ => some (0x62000 + d.val)
  | .lqtailDoorbell q _ _ => some (0x30002 + 8 * q.val)
  | _ => none

/-- The destination predicate of a word that has one (R153, R155, R158, R167). -/
def qdOf : Instr → Option (Fin 8)
  | .icmp _ _ q _ _ _ | .fcmp _ _ _ q _ _ _ | .dcmp _ q _ _ _ | .voteAny q _ _ | .voteAll q _ _ | .voteEq _ q _ _ => some q
  | _ => none

/-- The words that write a result register or a predicate at a fixed latency, and no memory (R36, R57). -/
def isPlain (i : Instr) : Bool := Forms.cls i == 0

end Sys2Proof.Claims

/-- R49, R57, R139, R141: a word of the vector, uniform and lane units completes, and leaves memory, scratchpad, tiles, special
registers and the registers of every other warp alone; its own warp keeps what its registers hold, and gets writes of the word's destination
register or of its destination predicate only, in lanes that take part. -/
def Obligations.VectorFrame : Prop :=
  ∀ (s : State) (i : Instr) (x : Iss), isPlain i = true → s.iss i = some x →
    (∀ k r d a y, i = .cvtq k r d a y → slotCheck .cvtq (s.slotOf x.wp k.val) = none) →
    (∀ k r d a y, i = .cvtd k r d a y → slotCheck .cvtd (s.slotOf x.wp k.val) = none) →
    Next (exec i s) fun t => KeepsOthers s t x.w ∧ ∃ ps fl, Gets s t x.w ps fl ∧ ∀ p ∈ ps,
      p.tag = none ∧ p.val.isSome = true ∧
      ∃ l ∈ lanesIn x.part, (∃ u ∈ uses x.w64 i, u.dst = true ∧ ∃ k, k < u.n ∧ p.dst = dstOf l u.reg k) ∨ ∃ q, qdOf i = some q ∧ p.dst = .q l q.val

/-- R49, R57, R139, R141, R265 to R269: the words named here complete, whatever their operands hold: each goes on to the next word, with
register writes and flags of its own, and changes nothing of another warp, of memory or of the special registers. -/
def Obligations.WordsComplete : Prop :=
  ∀ (s : State) (x : Iss) (t dt st : Ty) (f : FTy) (z : Bool) (r : Rnd) (k : Cmp) (q p : Fin 8) (m : ShflMode) (o : ScanOp) (lm : LanesMode)
    (j : Fin 12) (d a b c : Reg) (y : VTail) (e : Tail),
    let completes := fun (i : Instr) => s.iss i = some x →
      Next (exec i s) fun u => (∃ ps fl, Gets s u x.w ps fl) ∧ KeepsOthers s u x.w
    (∀ i ∈ [Instr.fadd f z r d a b y, .fsub f z r d a b y, .fmul f z r d a b y, .ffma f z r d a b c y, .fmin f z d a b y, .fmax f z d a b y,
      .fneg f d a y, .fabs f d a y, .fcmp k f z q a b y, .fclass f d a y], completes i) ∧
    (∀ i ∈ [Instr.frcp z r d a y, .frsq z d a y, .fsqrt z r d a y, .fexp2 z d a y, .flog2 z d a y, .fsin z d a y, .fcos z d a y], completes i) ∧
    (∀ i ∈ [Instr.dadd r d a b y, .dmul r d a b y, .dfma r d a b c y, .dcmp k q a b y], completes i) ∧
    (∀ i ∈ [Instr.hadd2 f r d a b y, .hmul2 f r d a b y, .hfma2 f r d a b c y], completes i) ∧
    (∀ i ∈ [Instr.cvt dt st d a y, .trpack d a y, .trunpack d a y, .pack2 t d a b y], completes i) ∧
    (slotCheck .cvtq (s.slotOf x.wp p.val) = none → completes (.cvtq p d a b y)) ∧
    (slotCheck .cvtd (s.slotOf x.wp p.val) = none → completes (.cvtd p d a b y)) ∧
    (∀ i ∈ [Instr.shfl m t d a b c y, .voteBallot t d q y, .voteAny p q y, .voteAll p q y, .voteEq t p a y, .lanes lm t d y, .scan o t d a y,
      .redux o t d a y], completes i) ∧
    (Calm s x → ∀ i ∈ [Instr.nop e, .yield e, .exit e, .jenter j e, .jquit j e, .jclear j e, .jwrite j a e, .jread d j e], completes i)

/-- R44, R262, R263: the transfers send each lane that they take to its target, and write a link only where a call names one; memory
and every other register stay. A call needs its targets' words to be readable, since a bad target leaves no link (R65).

R44: a lane whose target is at or above 2^48 or no multiple of 8 takes the encoding trap, code 5, at the transfer word; a transfer
is absolute or relative to the word's own address. -/
def Obligations.Transfers : Prop :=
  (∀ (s : State) (x : Iss) (k : BrCond) (r : Reg) (off : Word) (y : Tail),
    let far := fun (_ : Nat) => offsetTarget x.addr off
    let reg := fun (l : Nat) => x.rd l r 2
    let good := fun (m : Mask) (f : Nat → Nat) => Calm s x ∧ ∀ l, m.getLsbD l = true → s.badTarget x (f l) = false
    let link := fun (r : Reg) => (if Reg.isS r then (lanesIn x.part).take 1 else lanesIn x.part).flatMap fun l =>
      pendN l r (x.addr + 8) (x.lastRow false s.clk.cyc + 4) 2
    let jumps := fun (i : Instr) (m : Mask) (f : Nat → Nat) (ps : List Pend) => s.iss i = some x → good m f →
      Next (exec i s) fun t => Jump s t x m f ∧ Gets s t x.w ps 0 ∧ KeepsOthers s t x.w
    jumps (.bra off y) x.part far [] ∧
    jumps (.brc k r off y) (lanesWhere x.part fun l => match k with
      | .nz => x.wp.reg l r 0 != 0
      | .z => x.wp.reg l r 0 == 0
      | .lt => decide ((x.wp.reg l r 0).toInt < 0)
      | .ge => decide (0 ≤ (x.wp.reg l r 0).toInt)) far [] ∧
    jumps (.brx r y) x.part reg [] ∧
    ((∀ l ∈ lanesIn x.part, s.targetMiss x (far l) = false) → jumps (.call r off y) x.part far (link r)) ∧
    ((∀ l ∈ lanesIn x.part, s.targetMiss x (reg l) = false) → jumps (.callx r y) x.part reg (link r)) ∧
    jumps (.ret r y) x.part reg []) ∧
  (∀ (s : State) (x : Iss) (r : Reg) (y : Tail),
    s.iss (.brx r y) = some x → Calm s x → CanTrap s x x.part → x.part ≠ 0 →
    (∀ l, x.part.getLsbD l = true → 2 ^ 48 ≤ x.rd l r 2 ∨ x.rd l r 2 % 8 ≠ 0) →
    Next (exec (.brx r y) s) fun t =>
      AllTrap s t x x.part fun _ => ⟨1, 5, x.word.toNat % 2 ^ 32, x.word.toNat / 2 ^ 32, 0⟩)

/-- R326, R335: `trap #n, vA` takes each participating lane to the handler with group 0, code n and its own A in TDETAIL0; the word's
address is saved in TPC.

R327, R328: a trap in a launch without a handler, or of a lane in handler mode, ends the block with one fault-queue entry of kind 3
that records its cause.

R336: `rte` clears the handler bit of each participating lane in handler mode and sets its pc to TPC; a lane outside handler mode
takes group 7, code 3. -/
def Obligations.Traps : Prop :=
  (∀ (s : State) (x : Iss) (n : Fin 2048) (a : Reg) (y : Tail),
    s.iss (.trap n a y) = some x → Calm s x → CanTrap s x x.part → x.part ≠ 0 →
    Next (exec (.trap n a y) s) fun t => AllTrap s t x x.part fun l => ⟨0, n.val, x.rd1 l a, 0, 0⟩) ∧
  (∀ (s : State) (x : Iss) (n : Fin 2048) (a : Reg) (y : Tail) (c : Context),
    s.iss (.trap n a y) = some x → Calm s x → x.part ≠ 0 → s.ctx? (s.ctxOf x.wp) = some c →
    (s.handlerOf x.wp = 0 ∨ ∃ l z, x.part.getLsbD l = true ∧ laneOf s x.w l = some z ∧ z.handler = true) →
    Next (exec (.trap n a y) s) fun t =>
      (t.blocks[x.wp.blk]?).map (·.st) = some .ending ∧
      (∃ d e, t.ctx? (s.ctxOf x.wp) = some d ∧ d.posts = c.posts ++ [e] ∧ e.kind = 3 ∧ e.grp = 0 ∧ e.code = n.val ∧
        e.word = x.addr ∧ e.id = c.faultId) ∧
      (∀ l z, x.part.getLsbD l = true → laneOf t x.w l = some z → z.st = .exited) ∧
      Gets s t x.w [] 0 ∧ KeepsOthers s t x.w) ∧
  (∀ (s : State) (x : Iss) (y : Tail), s.iss (.rte y) = some x → Calm s x →
    ((∀ l, x.part.getLsbD l = true → ∃ z, laneOf s x.w l = some z ∧ z.handler = true) →
      Next (exec (.rte y) s) fun t =>
        (∀ l z, x.part.getLsbD l = true → laneOf s x.w l = some z →
          ∃ u, laneOf t x.w l = some u ∧ u.handler = false ∧ u.pc = z.tpc ∧ u.tpc = z.tpc ∧ u.tcause = z.tcause ∧ u.st = z.st) ∧
        Gets s t x.w [] 0 ∧ KeepsOthers s t x.w) ∧
    (x.part ≠ 0 → CanTrap s x x.part →
      Next (exec (.rte y) s) fun t => AllTrap s t x x.part fun _ => ⟨7, 3, x.word.toNat / 2 ^ 56, 0, 0⟩))

/-- R341: at level U, `resume`, `preempt`, `tlbinv`, `halt`, `assign`, `kzero` and `lstart` take group 7 code 1, and a selector of groups
1 to 4 or of a later chapter takes code 2; `rte` outside handler mode takes code 3; none has another effect. -/
def Obligations.PrivilegeTraps : Prop :=
  ∀ (s : State) (i : Instr) (x : Iss), s.iss i = some x → Calm s x → CanTrap s x x.part → x.part ≠ 0 →
    (s.levelS (s.ctxOf x.wp) = false → needsS i = true →
      Next (exec i s) fun t => AllTrap s t x x.part fun _ => ⟨7, 1, x.word.toNat / 2 ^ 56, 0, 0⟩) ∧
    (∀ k, s.levelS (s.ctxOf x.wp) = false → selOf i = some k → 0x10000 ≤ k →
      Next (exec i s) fun t => AllTrap s t x x.part fun _ => ⟨7, 2, k * 2 ^ 8 + x.word.toNat / 2 ^ 56, 0, 0⟩) ∧
    (∀ y, i = .rte y → Next (exec i s) fun t => AllTrap s t x x.part fun _ => ⟨7, 3, x.word.toNat / 2 ^ 56, 0, 0⟩)

/-- R265, R266, R268, R269: `nop` and `yield` change no register; `exit` ends its lanes; `jenter`, `jquit`, `jclear` and `jwrite` change
the members of one rejoin set, and `jread` reads them.

R268, R270: a lane that is a member waits in `jwait` at the word until every member has arrived, and then all stand behind their
own `jwait`; one that is no member takes group 5, code 1. -/
def Obligations.ControlFlow : Prop :=
  (∀ (s : State) (x : Iss) (j : Fin 12) (d a : Reg) (y : Tail),
    let still := fun (t : State) => Gets s t x.w [] 0 ∧ KeepsOthers s t x.w
    let members := fun (t : State) => ((t.warps[x.w]?).map fun w => (w.setOf j.val).1)
    (s.iss (.nop y) = some x → Calm s x → Next (exec (.nop y) s) fun t => still t ∧ members t = members s) ∧
    (s.iss (.yield y) = some x → Next (exec (.yield y) s) fun t =>
      still t ∧ (x.part ≠ 0 → (t.warps[x.w]?).map (·.yielded) = some (some s.clk.cyc))) ∧
    (s.iss (.exit y) = some x → Next (exec (.exit y) s) fun t =>
      still t ∧ ∀ l z, x.part.getLsbD l = true → laneOf t x.w l = some z → z.st = .exited) ∧
    (s.iss (.jenter j y) = some x → x.wp.sets.length = 12 → Calm s x → Next (exec (.jenter j y) s) fun t =>
      still t ∧ members t = some ((x.wp.setOf j.val).1 ||| x.part)) ∧
    (s.iss (.jquit j y) = some x → x.wp.sets.length = 12 → Calm s x → Next (exec (.jquit j y) s) fun t =>
      still t ∧ members t = some ((x.wp.setOf j.val).1 &&& ~~~x.part)) ∧
    (s.iss (.jclear j y) = some x → x.wp.sets.length = 12 → x.part ≠ 0 → Calm s x → Next (exec (.jclear j y) s) fun t =>
      still t ∧ members t = some 0) ∧
    (s.iss (.jwrite j a y) = some x → x.wp.sets.length = 12 → x.part ≠ 0 → Calm s x →
      (∀ l z, laneOf s x.w l = some z → z.st ≠ .exited) → Next (exec (.jwrite j a y) s) fun t =>
      still t ∧ members t = some (BitVec.ofNat 64 (x.rd 0 a (if x.wp.width = 64 then 2 else 1)) &&& allLanes x.wp.width)) ∧
    (s.iss (.jread d j y) = some x → Calm s x → Next (exec (.jread d j y) s) fun t =>
      Gets s t x.w ((if Reg.isS d then (lanesIn x.part).take 1 else lanesIn x.part).flatMap fun l =>
        resN (Reg.isS d) l d (x.wp.setOf j.val).1.toNat (x.lastRow false s.clk.cyc + 4) (if x.w64 then 2 else 1)) 0 ∧
      KeepsOthers s t x.w ∧ members t = members s)) ∧
  (∀ (s : State) (x : Iss) (j : Fin 12) (y : Tail), s.iss (.jwait j y) = some x → x.wp.sets.length = 12 → Calm s x →
    (x.part &&& (x.wp.setOf j.val).1 = x.part → (x.wp.setOf j.val).2 ||| x.part ≠ (x.wp.setOf j.val).1 →
      Next (exec (.jwait j y) s) fun t =>
        (∀ l z, x.part.getLsbD l = true → laneOf s x.w l = some z →
          ∃ u, laneOf t x.w l = some u ∧ u.st = .waiting (.jwait j.val) ∧ u.pc = x.addr) ∧
        (t.warps[x.w]?).map (fun w => w.setOf j.val) = some ((x.wp.setOf j.val).1, (x.wp.setOf j.val).2 ||| x.part) ∧
        Gets s t x.w [] 0 ∧ KeepsOthers s t x.w) ∧
    (x.part ≠ 0 → x.part &&& (x.wp.setOf j.val).1 = x.part → (x.wp.setOf j.val).2 ||| x.part = (x.wp.setOf j.val).1 →
      Next (exec (.jwait j y) s) fun t =>
        (∀ l z, x.part.getLsbD l = true → laneOf s x.w l = some z →
          ∃ u, laneOf t x.w l = some u ∧ u.st = .standing ∧ u.pc = x.addr + 8) ∧
        (t.warps[x.w]?).map (fun w => w.setOf j.val) = some ((x.wp.setOf j.val).1, 0) ∧
        Gets s t x.w [] 0 ∧ KeepsOthers s t x.w) ∧
    (x.part ≠ 0 → x.part &&& (x.wp.setOf j.val).1 = 0 → CanTrap s x x.part →
      Next (exec (.jwait j y) s) fun t => AllTrap s t x x.part fun _ => ⟨5, 1, j.val, 0, 0⟩))

/-- R66, R93, R190, R206, R276, R284, R332 to R334, R358, R361, R363, R375, R376, R378, R380, R382, R385, R390, R393, R401, R405: `sread` gives the
register behind its selector, field by field, and changes nothing else; the lane's own registers are read per lane.

R284, R382: LQERR and ECCCNT are read and cleared in one access. -/
def Obligations.SpecialReads : Prop :=
  (∀ (s : State) (x : Iss) (k : BitVec 20) (w : Bool) (d : Reg) (y : Tail),
    s.iss (.sread k w d y) = some x → (0x10000 ≤ k.toNat → s.levelS (s.ctxOf x.wp) = true) → ∃ val : Nat → Nat,
      Gives s x (.sread k w d y) d (wideRegs w) 4 val 0 ∧
      let reads := fun (sel v : Nat) => k.toNat = sel → ∀ l, val l = v
      let perLane := fun (sel : Nat) (f : Lane → Nat) => k.toNat = sel → ∀ l z, laneOf s x.w l = some z → val l = f z
      let bit := fun (c : Bool) (n : Nat) => if c then 2 ^ n else 0
      (k = 0 → ∀ l, val l = l) ∧ reads 0x1 x.wp.num ∧ reads 0x2 x.wp.width ∧ reads 0xA x.wp.member ∧ reads 0xB x.wp.core ∧
      reads 0xC (x.wp.core / 8 % 8) ∧ reads 0xD (x.wp.core / 64) ∧ reads 0xE (s.ctxOf x.wp) ∧ reads 0x11 s.clk.tick ∧
      (∀ e, s.dies[x.wp.core / 64]? = some e → reads 0x10 (s.clk.cyc - e.from_)) ∧
      perLane 0x18 (·.tcause.toNat) ∧ perLane 0x19 (·.td0.toNat) ∧ perLane 0x1A (·.td1.toNat) ∧ perLane 0x1B (·.td2.toNat) ∧ perLane 0x1C (·.tpc) ∧
      reads 0x20 x.wp.flags.toNat ∧ reads 0x21 x.wp.wctl.toNat ∧
      (∀ b, s.blkOf x.wp = some b → reads 0x24 b.mx.nan ∧ reads 0x25 b.mx.sat ∧ reads 0x26 b.mx.trit ∧ reads 0x27 b.mx.wrap ∧
        ∀ r, (s.launchOf x.wp).map (·.info) = some r → reads 0x6 r.gx ∧ reads 0x7 r.gy ∧ reads 0x8 r.gz ∧ reads 0x9 (r.stage % 16) ∧
          (0 < r.gx → 0 < r.gy → reads 0x3 (b.lin % r.gx) ∧ reads 0x4 (b.lin / r.gx % r.gy) ∧ reads 0x5 (b.lin / (r.gx * r.gy)))) ∧
      ((∀ c ∈ s.mx, c.blk = x.wp.blk → c.op = .mzero ∨ c.st = .queued) → reads 0x28 0) ∧
      (∀ c cs e, s.mx = c :: cs → c.blk = x.wp.blk → c.op ≠ .mzero → c.st = .running e → reads 0x28 (2 ^ 31 + bit c.stopped 30 + c.tile * 2 ^ 24 +
        (match c.op with | .mload _ => 1 | .mdrain _ => 2 | _ => 0) * 2 ^ 22 + c.batch % 2 ^ 16 * 2 ^ 6 + c.row)) ∧
      (let n := if s.levelS (s.ctxOf x.wp) then x.wp.target else s.ctxOf x.wp;
        ((∀ j ∈ s.jobs, j.ctx ≠ n) → reads 0x30 0) ∧
        ∀ j js, s.jobs = j :: js → j.ctx = n →
          reads 0x30 (bit j.active 31 + bit j.resumed 30 + ((s.journal.filter fun i => i.ctx == n).map fun i => i.left.length).sum % 2 ^ 28)) ∧
      (∀ c, s.ctx? (s.ctxOf x.wp) = some c → reads 0x31 c.throttled.toNat) ∧
      reads 0x10000 x.wp.target ∧
      (∀ c, s.ctx? x.wp.target = some c → reads 0x10001 c.ptbase.toNat ∧ reads 0x10002 c.fqbase.toNat ∧ reads 0x10003 c.fqhead.toNat ∧
        reads 0x10004 c.fqtail.toNat ∧ reads 0x10005 c.taskring.toNat ∧ reads 0x10006 c.sharedom.toNat ∧ reads 0x10007 c.keepallot.toNat ∧
        reads 0x60300 c.slicelen.toNat ∧ reads 0x60301 c.slicedesc.toNat ∧ reads 0x60302 c.rollbase.toNat ∧ reads 0x60303 c.rollsize.toNat) ∧
      reads 0x10008 s.grace.toNat ∧ reads 0x10009 s.drainbud.toNat ∧
      (∀ n h, n < 7 → s.holds[n]? = some h → reads (0x20000 + n) h.toNat) ∧
      (∀ n q, n < 256 → s.queues[n]? = some q → reads (0x30000 + 8 * n) q.ctl.toNat ∧ reads (0x30001 + 8 * n) q.base.toNat ∧
        reads (0x30002 + 8 * n) q.tail.toNat ∧ reads (0x30003 + 8 * n) q.head.toNat) ∧
      (∀ n e, n < 4 → s.dies[n]? = some e →
        (∀ j u, j < 16 → e.keeps[j]? = some u → reads (0x40000 + 64 * n + 4 * j) (u.base % 2 ^ 40 * 2 ^ 12 + bit u.valid 0) ∧
          reads (0x40001 + 64 * n + 4 * j) (u.limit % 2 ^ 40 * 2 ^ 12) ∧
          reads (0x40002 + 64 * n + 4 * j) (u.overflow * 2 ^ 32 + u.owner % 2 ^ 16 * 2 ^ 16 + u.ways % 16)) ∧
        (n ∈ s.diesWith n →
          reads (0x50000 + n) (bit e.live 63 + e.hier.getD 0 % 8 * 2 ^ 56 + e.hbm % 2 ^ 12 * 2 ^ 44 + e.lp % 2 ^ 12 * 2 ^ 32 +
            e.lpBlocks % 2 ^ 12 * 2 ^ 20 + ((s.diesWith n).map fun m => 2 ^ (16 + m)).sum) ∧
          reads (0x50100 + n) e.window.toNat ∧ reads (0x60400 + n) e.movectl.toNat ∧
          ∀ p, p < 0x400 → reads (0x51000 + 0x400 * n + p) (mget e.fabric p 0).toNat) ∧
        (n ∉ s.diesWith n → reads (0x50100 + n) 0 ∧ reads (0x60400 + n) 0 ∧ ∀ p, p < 0x400 → reads (0x51000 + 0x400 * n + p) 0)) ∧
      (∀ n v, n < 32 → s.tenparts[n]? = some v → reads (0x60000 + n) v.toNat) ∧
      (∀ n f, n < 64 → s.fns[n]? = some f → reads (0x60100 + n) f.cfg.toNat) ∧
      (∀ n, n < 4096 → reads (0x61000 + n) (mget s.lanemap n 0).toNat) ∧
      (s.dies.length = 4 → let dies := fun (f : Die → Bool) => ((List.range 4).map fun n => bit ((s.dies[n]?).any f) n).sum
        reads 0x70000 (bit s.boot.reduced 63 + bit s.boot.hbmReady 62 + dies (·.failed) * 2 ^ 16 + dies (·.live) * 2 ^ 12 +
          bit s.boot.ioReleased 8 + min s.boot.resets 255)) ∧
      (∀ n u, n < 256 → s.keys[n]? = some u →
        reads (0x70100 + n) ((match u.st with | .free => 0 | .bound => 1 | .void => 2) * 2 ^ 62 + u.ctx % 2 ^ 16)) ∧
      reads 0x70200 (min s.log.length 0xFFFF * 2 ^ 32 + bit (3 ≤ s.alarm) 1 + bit (2 ≤ s.alarm) 0)) ∧
  (∀ (s : State) (x : Iss) (q : Fin 256) (die : Fin 4) (d : Reg) (y : Tail), s.levelS (s.ctxOf x.wp) = true → x.part ≠ 0 →
    (∀ u, s.iss (.lqerrRead q d y) = some x → s.queues[q.val]? = some u →
      Next (exec (.lqerrRead q d y) s) fun t =>
        Gets s t x.w (results s x (.lqerrRead q d y) d 2 4 fun _ => u.err.toNat) 0 ∧ KeepsMemory s t ∧
        t.queues[q.val]? = some { u with err := 0 }) ∧
    (∀ u, s.iss (.ecccntRead die d y) = some x → s.dies[die.val]? = some u →
      Next (exec (.ecccntRead die d y) s) fun t =>
        Gets s t x.w (results s x (.ecccntRead die d y) d 2 4 fun _ => u.corrected % 2 ^ 32 * 2 ^ 32 + u.uncorr % 2 ^ 32) 0 ∧
        KeepsMemory s t ∧ t.dies[die.val]? = some { u with corrected := 0, uncorr := 0 }))

namespace Sys2Proof.Claims

/-- What one warp's special registers hold, with its other registers. -/
def ownOf (w : Warp) :
    (List (Nat × Word) × List (Nat × Word) × Word × Word × List Pend × List (BitVec 8)) × Nat × List (Word × Word × Word × Word × Nat × Bool) := (regsOf w, w.target, w.lanes.map fun z => (z.tcause, z.td0, z.td1, z.td2, z.tpc, z.handler))

/-- Memory, scratchpad, tiles, every special register and the alarm are those of state u, and so are the registers of every warp; an event
that follows at once stands on u's agenda (log 5). -/
def Leaves (u t : State) : Prop :=
  KeepsRest u t ∧ (∀ k : Nat, (t.warps[k]?).map ownOf = (u.warps[k]?).map ownOf) ∧ t.agenda = u.agenda ∧ t.alarm = u.alarm ∧ t.boot = u.boot

end Sys2Proof.Claims

/-- R6, R206, R276, R284, R294, R304, R327, R333, R334, R358, R361, R363, R375, R376, R378, R380, R382, R385, R405: `swrite` writes the register
behind its selector by its fields, from the lane that writes last, and leaves memory, every other special register, every warp's registers and
every block as they were; the doorbell writes LQTAIL. It is the model's choice that an event of MOVECTL or ALARM stands on the agenda (log 5),
that Src and Dst take what software writes as the move ends (log 57), and that reserved bits of LQBASE and of TASKRING are dropped (log 47). -/
def Obligations.SpecialWrites : Prop :=
  ∀ (s : State) (x : Iss) (k : BitVec 20) (q : Fin 256) (w : Bool) (a : Reg) (y : Tail) (l : Nat),
    let ready := s.levelS (s.ctxOf x.wp) = true ∧ s.devClear x = true
    (let i := Instr.swrite k w a y;
      let v := x.rd l a (wideRegs w)
      let f := fun (lo n : Nat) => v / 2 ^ lo % 2 ^ n * 2 ^ lo
      let one := x.acts i = [l]
      let own := fun (g : Warp → Warp) => { s with warps := s.warps.modify x.w g }
      let ctx := fun (g : Context → Context) => { s with ctxs := s.ctxs.map fun c => if c.num = x.wp.target then g c else c }
      let done := fun (u : State) => Next (exec i s) (Leaves u)
      let writes := fun (sel : Nat) (u : State) => k.toNat = sel → ready → done u
      let named := fun (c : Nat) (u : State) => if (s.ctx? c).isSome then u else { u with ctxs := u.ctxs ++ [Context.fresh c false] }
      s.iss i = some x → (x.acts i).getLast? = some l →
      (k.toNat < 0x1C → done s) ∧
      (k = 0x1C → let tpc := fun (n : Nat) (e : Lane) => if x.part.getLsbD n && e.handler then { e with tpc := x.rd n a (wideRegs w) % 2 ^ 48 } else e;
        done (own fun z => { z with lanes := z.lanes.mapIdx tpc })) ∧
      (k = 0x20 → done (own fun z => { z with flags := BitVec.ofNat 32 (v % 32) })) ∧
      (k = 0x21 → done (own fun z => { z with wctl := (z.wctl &&& ~~~0xF3) ||| (BitVec.ofNat 32 v &&& 0xF3) })) ∧
      writes 0x10000 (own fun z => { z with target := v % 2 ^ 16 }) ∧
      writes 0x10001 (ctx fun c => { c with ptbase := BitVec.ofNat 64 (f 12 40) }) ∧
      writes 0x10002 (ctx fun c => { c with fqbase := BitVec.ofNat 64 (f 12 45 + f 0 5) }) ∧
      writes 0x10003 (ctx fun c => { c with fqhead := BitVec.ofNat 32 v }) ∧
      writes 0x10004 s ∧
      writes 0x10005 (ctx fun c => { c with taskring := BitVec.ofNat 64 (f 12 45 + f 0 5) }) ∧
      writes 0x10006 (ctx fun c => { c with sharedom := BitVec.ofNat 32 (f 0 16) }) ∧
      writes 0x10007 (ctx fun c => { c with keepallot := BitVec.ofNat 64 (f 0 32) }) ∧
      writes 0x10008 { s with grace := BitVec.ofNat 32 v } ∧
      writes 0x10009 { s with drainbud := BitVec.ofNat 32 v } ∧
      writes 0x60300 (ctx fun c => { c with slicelen := BitVec.ofNat 32 v }) ∧
      writes 0x60301 (ctx fun c => { c with slicedesc := BitVec.ofNat 64 v }) ∧
      writes 0x60302 (ctx fun c => { c with rollbase := BitVec.ofNat 64 (f 12 45) }) ∧
      writes 0x60303 (ctx fun c => { c with rollsize := BitVec.ofNat 64 v }) ∧
      (∀ n, n < 7 → writes (0x20000 + n)
        { s with holds := s.holds.modify n fun _ => BitVec.ofNat 32 (max 128 (v / 2 ^ 16 % 2 ^ 16) * 2 ^ 16 + max 32 (v % 2 ^ 16)) }) ∧
      (∀ n, n < 256 →
        (one → writes (0x30000 + 8 * n) (named (v / 2 ^ 32 % 2 ^ 16)
          { s with queues := s.queues.modify n fun z => { z with ctl := BitVec.ofNat 64 (f 63 1 + f 32 16 + f 6 2 + f 0 5) } })) ∧
        writes (0x30001 + 8 * n) { s with queues := s.queues.modify n fun z => { z with base := BitVec.ofNat 64 (f 12 45) } } ∧
        writes (0x30003 + 8 * n) s) ∧
      (∀ n, n < 256 → k.toNat / 4 = 0x10000 + n → k.toNat % 4 ≠ 3 → ready → done s) ∧
      (∀ n, n < 4 → n ∈ s.diesWith n →
        let part := fun (g : Die → Die) => { s with dies := s.dies.mapIdx fun m e => if m ∈ s.diesWith n then g e else e }
        (let placed := ∃ b ∈ s.blocks, (b.st = .running ∨ b.st = .ending) ∧ ∃ c ∈ b.cores, c / 64 ∈ s.diesWith n;
          (placed → writes (0x50000 + n) s) ∧
          (¬ placed → (∀ m e, s.dies[m]? = some e → m ∉ s.diesWith n → e.lpBlocks = 0) → writes (0x50000 + n) (part fun e =>
            { e with hbm := v / 2 ^ 44 % 2 ^ 12, lp := v / 2 ^ 32 % 2 ^ 12, lpBlocks := if 3072 < v / 2 ^ 20 % 2 ^ 12 then 0 else v / 2 ^ 20 % 2 ^ 12 }))) ∧
        writes (0x50100 + n) (part fun e => { e with window := BitVec.ofNat 64 (f 61 3 + f 48 8 + f 24 12 + f 0 12) }) ∧
        (∀ p, p < 0x400 → writes (0x51000 + 0x400 * n + p) (part fun e =>
          { e with fabric := mset p (BitVec.ofNat 64 (f 63 1 + f 32 18 + f 0 16)) 0 e.fabric })) ∧
        (one → v / 2 ^ 63 % 2 = 1 → writes (0x60400 + n) { s with agenda := s.agenda ++ [.movectlStart n (BitVec.ofNat 64 v)] }) ∧
        (one → v / 2 ^ 63 % 2 = 0 → (∀ m ∈ s.diesWith n, (s.dies[m]?).map (fun e => e.movectl.toNat % 2 ^ 13) = some 4096) →
          writes (0x60400 + n) { (part fun e => { e with movectl := BitVec.ofNat 64 (e.movectl.toNat / 2 ^ 63 % 2 * 2 ^ 63 + f 48 12 + f 36 12 + 4096) })
            with agenda := s.agenda ++ [.movectlEnd n] })) ∧
      (∀ n, n < 32 → one →
        ((∀ c ∈ s.ctxs, s.placed c.num = false) → (s.tenantHiers v).length ≤ 1 → (∀ h ds, s.tenantHier v = some h →
            ds = ((List.range 4).filter fun d => ((s.dies[d]?).map fun e => e.live && e.hier == some h).getD false).length →
            v / 2 ^ 32 % 2 ^ 12 + v / 2 ^ 44 % 2 ^ 12 ≤ hbmBlocks ds) → (s.tenantHier v = none → v / 2 ^ 32 % 2 ^ 24 = 0) →
          (v / 2 ^ 63 % 2 = 0 ∨ ∀ m e, s.tenparts[m]? = some e → m ≠ n → e.toNat / 2 ^ 63 = 0) →
          writes (0x60000 + n) { s with tenparts := s.tenparts.set n (BitVec.ofNat 64 (f 63 1 + f 0 56)) }) ∧
        (v / 2 ^ 63 % 2 = 1 → (∃ m e c, m ≠ n ∧ s.tenparts[m]? = some e ∧ e.toNat / 2 ^ 63 = 1 ∧ c < 32 ∧ v.testBit c = true ∧ e.getLsbD c = true) →
          writes (0x60000 + n) s)) ∧
      (∀ n, n < 64 → one → let vc := v / 2 ^ 44 % 16
        let u : State := { s with fns := s.fns.modify n fun z => { z with cfg := BitVec.ofNat 64 (f 63 1 + f 48 5 +
          (if vc = 0 ∨ vc = 15 then 1 else vc) * 2 ^ 44 + f 16 16 + max 1 (v / 2 ^ 10 % 64) * 2 ^ 10 + f 0 10) } }
        writes (0x60100 + n) (if v / 2 ^ 63 % 2 = 1 then named (v / 2 ^ 16 % 2 ^ 16) u else u)) ∧
      (∀ n, n < 4096 → (∀ z ∈ s.warps, z.core ≠ n / 16) → writes (0x61000 + n)
        { s with lanemap := mset n ((mget s.lanemap n 0 &&& ~~~0x3F) ||| (BitVec.ofNat 32 v &&& 0x3F)) 0 s.lanemap }) ∧
      (one → writes 0x70200 { s with agenda := s.agenda ++ (if v % 2 = 1 then [.alarmLockWrite] else []) ++
        (if v / 2 % 2 = 1 then [.alarmEraseWrite] else []) })) ∧
    (s.iss (.lqtailDoorbell q a y) = some x → (x.acts (.lqtailDoorbell q a y)).getLast? = some l → ready →
      Next (exec (.lqtailDoorbell q a y) s) (Leaves { s with queues := s.queues.modify q.val fun z => { z with tail := BitVec.ofNat 32 (x.rd l a 1) } })) ∧
    ∀ c, ctxRegs (Context.fresh c false) = (c, false, [0, 0, 0, 0, 0, 0, 0, 0], [0, 0, 0, 0])

/-- R338: `tlbinv` removes the entries it covers from every TLB of the die partition, and changes no memory. That it removes no
other entry is the model's reading (log 11): R338 allows a page invalidation to remove more of the context's. -/
def Obligations.TlbInvalidation : Prop :=
  ∀ (s : State) (x : Iss) (c a : Reg) (y : Tail), s.levelS (s.ctxOf x.wp) = true → x.part ≠ 0 →
    let l := lowLane x.part
    let ctx := x.rd1 l c
    let va := x.wp.rdOpt l a 2
    let drops := fun (i : Instr) (dies : List Nat) (p : Tlb → Prop) => s.iss i = some x →
      Next (exec i s) fun t => KeepsMemory s t ∧ Gets s t x.w [] 0 ∧
        (∀ e, e ∈ t.tlb ↔ e ∈ s.tlb ∧ ¬ (e.core / 64 ∈ dies ∧ p e))
    drops (.tlbinvPage c a y) (s.diesWith (s.ctxDie ctx)) (fun e => e.ctx = ctx ∧ e.base ≤ va ∧ va < e.base + 2 ^ e.size) ∧
    drops (.tlbinvCtx c y) (s.diesWith (s.ctxDie ctx)) (fun e => e.ctx = ctx) ∧
    drops (.tlbinvAll y) (s.diesWith x.wp.die) (fun _ => True)

namespace Sys2Proof.Claims

/-- The place of an item of the lustration journal among those of one `lstart`: cores by number, frames by address, slots (R408). -/
def itemRank : Item → Nat × Nat
  | .core n => (0, n)
  | .frame k => (1, k % 2 ^ 31)
  | .slot n => (2, n)

end Sys2Proof.Claims

/-- R396 to R399, R408: `assign` makes a free core the context's own and reports 0 (that the status is there at issue is the model's reading, log
49), where the context holds a bound key slot and no other launch has pool bytes there; `kzero` voids the slot of a context with nothing placed,
and `lstart` makes everything it owned Scrubbing and an item of the lustration journal: cores by number, then frames by address, then the slot. -/
def Obligations.TrustWords : Prop :=
  ∀ (s : State) (x : Iss) (d r c : Reg) (z : CTail) (y : Tail), s.levelS (s.ctxOf x.wp) = true → x.part ≠ 0 → s.devClear x = true →
    let l := lowLane x.part
    let core := x.rd l r 2 % 2 ^ 32
    let owner := x.rd l r 2 / 2 ^ 48
    let ctx := x.rd1 l c
    (s.iss (.assign d r z) = some x → x.rd l r 2 / 2 ^ 32 % 2 ^ 16 = 0 → s.liveCore core = true → s.coreOwn.lookup core = none →
      (s.boundSlot owner).isSome = true →
      (∀ v ∈ s.carves, v.core = core → ∃ k, s.launches[v.launch]? = some k ∧ k.ctx = owner) →
      Next (exec (.assign d r z) s) fun t => t.coreOwn.lookup core = some (.owned owner) ∧ KeepsMemory s t ∧
        Gets s t x.w (pendN l d 0 s.clk.cyc 1) 0) ∧
    (∀ n, s.iss (.kzero c y) = some x → s.placed ctx = false → s.boundSlot ctx = some n →
      Next (exec (.kzero c y) s) fun t => (t.keys[n]?).map (fun k => (k.st, k.key)) = some (.void, 0) ∧ t.mem = s.mem ∧
        (∀ e ∈ t.lines, e.key = n → 2 ≤ lineTier e.line)) ∧
    (s.iss (.lstart c y) = some x → s.placed ctx = false → s.boundSlot ctx = none →
      Next (exec (.lstart c y) s) fun t => t.mem = s.mem ∧ (∀ e ∈ t.coreOwn, e.2 ≠ .owned ctx) ∧ (∀ e ∈ t.frameOwn, e.2 ≠ .owned ctx) ∧
        (∀ k o, (k, o) ∈ s.coreOwn → o ≠ .owned ctx → (k, o) ∈ t.coreOwn) ∧
        (s.journal = [] → (∃ e ∈ s.coreOwn, e.2 = .owned ctx) → (s.coreOwn.map (·.1)).Pairwise (· < ·) →
          (∃ j ∈ t.jobs, j.ctx = ctx ∧ j.active = true ∧ j.resumed = false) ∧
          (t.journal.map fun j => itemRank j.item).Pairwise (fun a b => a.1 < b.1 ∨ (a.1 = b.1 ∧ a.2 ≤ b.2)) ∧
          ∀ j, j ∈ t.journal ↔ j.ctx = ctx ∧ match j.item with
            | .core n => (n, .owned ctx) ∈ s.coreOwn ∧ j.left = List.range 48
            | .frame n => (n, .owned ctx) ∈ s.frameOwn ∧ j.left = List.range 32
            | .slot n => n ≠ 0 ∧ (s.keys[n]?).any (fun u => u.st == .void && u.ctx == ctx) = true ∧ j.left = []))


namespace Sys2Proof.Claims

/-- Numbers of requests are below the next one to be given out. -/
def Fresh (s : State) : Prop := ∀ r ∈ s.reqs, r.id < s.nextId

/-- The counter a word names has risen by one in the issuing warp, once for the word (R61). -/
def CountsUp (t : State) (x : Iss) (c : Option (Fin 8)) : Prop :=
  (t.warps[x.w]?).map (·.ctrs) = some (match c with | none => x.wp.ctrs | some n => x.wp.ctrs.modify n.val (· + 1))

/-- The writes that a word's requests owe: n registers of each lane it acts for, none with a value yet (R58, R61). -/
def Owed (ls : List Nat) (d : Reg) (n : Nat) (ps : List Pend) : Prop :=
  (∀ p ∈ ps, p.val = none ∧ ∃ l ∈ ls, ∃ k, k < n ∧ p.dst = dstOf l d k) ∧ ∀ l ∈ ls, ∀ k, k < n → ∃ p ∈ ps, p.dst = dstOf l d k ∧ p.tag.isSome = true

/-- A request as it was, but for what its place in a queue gives it: its admission and the start of its hold time (R206, R278). -/
def SameReq (r q : Req) : Prop := q = { r with admitted := q.admitted, waitFrom := q.waitFrom }

/-- The requests of a word stand in the vigil store: older ones stay, and each lane that the word acts for has its access in a new one
of the issuing owner (R204, R208). -/
def Asks (s t : State) (x : Iss) (i : Instr) (op : ReqOp) (o : Order) (size : Nat) (va : Nat → Nat) (pl : Nat → Place)
    (data : Nat → List Byte) : Prop :=
  (∀ r ∈ s.reqs, ∃ q ∈ t.reqs, SameReq r q) ∧
  (∀ r ∈ t.reqs, (∃ p ∈ s.reqs, SameReq p r) ∨ (s.nextId ≤ r.id ∧ r.warp = x.w ∧ r.word = x.addr ∧ r.owner = s.ownerOf x.wp ∧ r.op = op ∧ r.order = o ∧
    ∀ a ∈ r.accs, a.lane ∈ x.acts i)) ∧
  ∀ l ∈ x.acts i, ∃ r ∈ t.reqs, s.nextId ≤ r.id ∧ ∃ a ∈ r.accs, a.lane = l ∧ a.va = va l ∧ a.pa = (pl l).pa ∧ a.size = size ∧ a.data = data l

/-- What a memory word needs to enter whole: nothing of it has entered, its lanes' addresses translate, and the vigil store has an entry
for each (R46, R71, R209). -/
def Ready (s : State) (x : Iss) (i : Instr) (w : Want) (align n : Nat) (va : Nat → Nat) (pl : Nat → Place) : Prop :=
  s.iss i = some x ∧ Calm s x ∧ Fresh s ∧ x.cl.entered = 0 ∧ x.acts i ≠ [] ∧ (x.acts i).length ≤ s.entriesFree (s.ownerOf x.wp) ∧
    ∀ l ∈ x.acts i, s.xlate x.w x.wp w align n (va l) = .ok (pl l)

end Sys2Proof.Claims

/-- R88, R91, R92, R204: a load, a store, a prefetch, a flush or an invalidation whose lanes' addresses translate to memory makes a
request for each lane it acts for, at the lane's address plus the offset times the size; loads owe their destination, the counter
rises, and registers, memory, blocks and special registers stay until the request performs. -/
def Obligations.MemoryRequests : Prop :=
  ∀ (s : State) (x : Iss) (t : MTy) (d a : Reg) (off : BitVec 12) (sc : Scope) (o : Order) (h : Hint) (y : CTail) (pl : Nat → Place),
    let at_ := fun (n : Nat) (l : Nat) => ((x.rd l a 2 : Int) + off.toInt * n).toNat
    let fits := fun (n : Nat) (i : Instr) => ∀ l ∈ x.acts i, 0 ≤ (x.rd l a 2 : Int) + off.toInt * n ∧ at_ n l < 2 ^ 64
    let size := mtySize t
    let none_ := fun (_ : Nat) => ([] : List Byte)
    let reads := fun (i : Instr) (op : ReqOp) (o : Order) => Ready s x i wantLoad size size (at_ size) pl → fits size i →
      Next (exec i s) fun u => Asks s u x i op o size (at_ size) pl none_ ∧ CountsUp u x y.ctr ∧ KeepsOthers s u x.w ∧
        ∃ ps, Gets s u x.w ps 0 ∧ (Reg.isS0 d = false → Owed (x.acts i) d (mtyRegs t) ps)
    let lines := fun (i : Instr) (op : ReqOp) (w : Want) => Ready s x i w 1 1 (at_ 1) pl → fits 1 i →
      (∀ l ∈ x.acts i, (pl l).cached = true) →
      Next (exec i s) fun u => Asks s u x i op .rlx 1 (at_ 1) pl none_ ∧ CountsUp u x y.ctr ∧ KeepsOthers s u x.w ∧ Gets s u x.w [] 0
    reads (.ld t d a off sc o h y) (.load t d) o ∧
    ((∀ l ∈ x.acts (.ldc t d a off y), s.ccLine x (pl l) = none) → reads (.ldc t d a off y) (.ldc t d) .rlx) ∧
    (let i : Instr := .st t d a off sc o h y
     Ready s x i wantStore size size (at_ size) pl → fits size i → Next (exec i s) fun u =>
      Asks s u x i .store o size (at_ size) pl (fun l => leBytes size (x.rd l d (mtyRegs t))) ∧ CountsUp u x y.ctr ∧
        KeepsOthers s u x.w ∧ Gets s u x.w [] 0) ∧
    lines (.pf a off h y) .prefetch wantLoad ∧
    lines (.cflush a off y) .cflush wantCache ∧
    lines (.cinval a off y) .cinval wantInval

/-- R195, R196, R199, R204: an atomic, a compare-and-exchange or a reduction makes one request for each lane that carries its operand,
or its compare value and its new one; the first two owe the old value to their destination.

R200: what an atomic leaves, as bits of its width, from the bits found and its operand. -/
def Obligations.Atomics : Prop :=
  (∀ (s : State) (x : Iss) (op : AtomOp) (w : AWidth) (d a v : Reg) (sc : Scope) (o : Order) (h : Hint) (y : CTail) (pl : Nat → Place),
    let n := atomSize w
    let k := atomRegs w
    let at_ := fun (l : Nat) => x.rd l a 2
    let asks := fun (i : Instr) (cas : Bool) (res : Option Reg) (bytes : Nat) =>
      Ready s x i wantAtomic n n at_ pl → (∀ l ∈ x.acts i, (pl l).tier = 2 → (pl l).cached = true) →
      (res.isSome = true → s.slotsFull x.w (x.acts i) = false) →
      Next (exec i s) fun u =>
        Asks s u x i (.atomic (if cas then .xchg else op) cas w res) o n at_ pl
          (fun l => leBytes bytes (x.rd l v (if cas then 2 * k else k))) ∧
        CountsUp u x y.ctr ∧ KeepsOthers s u x.w ∧
        ∃ ps, Gets s u x.w ps 0 ∧ (match res with | some r => Reg.isS0 r = false → Owed (x.acts i) r k ps | none => ps = [])
    asks (.atom op w d a v sc o h y) false (some d) n ∧
    asks (.atomx w d a v sc o h y) true (some d) (2 * n) ∧
    asks (.red op w a v sc o h y) false none n) ∧
  (∀ (w : AWidth) (m v c : BitVec (8 * atomSize w)),
    let got := fun (o : AtomOp) => leNat (atomBytes o w false (leBytes (atomSize w) m.toNat) (leBytes (atomSize w) v.toNat))
    got .add = (m + v).toNat ∧ got .and = (m &&& v).toNat ∧ got .or = (m ||| v).toNat ∧ got .xor = (m ^^^ v).toNat ∧
    got .xchg = v.toNat ∧ got .minS = (if m.slt v then m else v).toNat ∧ got .maxS = (if v.slt m then m else v).toNat ∧
    got .minU = (if m.ult v then m else v).toNat ∧ got .maxU = (if v.ult m then m else v).toNat ∧
    got .inc = (if v.ule m then 0 else m + 1).toNat ∧ got .dec = (if m = 0 ∨ v.ult m then v else m - 1).toNat ∧
    leNat (atomBytes .xchg w true (leBytes (atomSize w) m.toNat) (leBytes (atomSize w) c.toNat ++ leBytes (atomSize w) v.toNat)) =
      (if m = c then v else m).toNat)

/-- R78, R79, R88: in the local window, with no acquire before it under way, no copy's range in its way and the release gate open, a store writes its bytes into the block's scratchpad at once and no other byte, and a load has
its bytes at once and owes them to its destination; no other block and no memory changes. -/
def Obligations.LocalAccesses : Prop :=
  ∀ (s : State) (x : Iss) (t : MTy) (d a : Reg) (off : BitVec 12) (sc : Scope) (o : Order) (h : Hint) (y : CTail) (l at_ : Nat),
    let size := mtySize t
    let b := x.wp.blk
    let here := fun (i : Instr) (w : Want) => s.iss i = some x ∧ Calm s x ∧ x.cl.entered = 0 ∧ x.acts i = [l] ∧
      s.xlate x.w x.wp w size size (x.va l a off size) = .loc at_ ∧ s.acquiring (s.ownerOf x.wp) = false ∧
      s.rangeBlocks x.w b at_ size w.write (s.nextId + 1) = false
    (here (.st t d a off sc o h y) wantStore → s.localGate x o = true → Next (exec (.st t d a off sc o h y) s) fun u =>
      u.windowBytes b at_ size = leBytes size (x.rd l d (mtyRegs t)) ∧
      (∀ k, k < at_ ∨ at_ + size ≤ k → (u.blocks[b]?).map (·.getByte k) = (s.blocks[b]?).map (·.getByte k)) ∧
      (∀ c, c ≠ b → KeepsBlock s u c) ∧ KeepsMemory s u ∧ KeepsSpecial s u ∧ Gets s u x.w [] 0) ∧
    (here (.ld t d a off sc o h y) wantLoad → Next (exec (.ld t d a off sc o h y) s) fun u =>
      (∃ r ∈ u.reqs, r.warp = x.w ∧ r.st = .ordered ∧ r.op = .load t d ∧
        r.accs.map (fun a => (a.lane, a.got)) = [(l, (s.windowBytes b at_ size).map some)]) ∧
      KeepsOthers s u x.w ∧ ∃ ps, Gets s u x.w ps 0 ∧ (Reg.isS0 d = false → Owed [l] d (mtyRegs t) ps))

/-- R67, R71, R88, R89: an address above bit 56 raises group 3 code 9, and a misaligned one outside the window code 12, as program
traps with the lane's address in the detail; nothing is accessed. -/
def Obligations.AddressTraps : Prop :=
  ∀ (s : State) (x : Iss) (i : Instr) (t : MTy) (d a : Reg) (off : BitVec 12) (sc : Scope) (o : Order) (h : Hint) (y : CTail),
    s.iss i = some x → Calm s x → CanTrap s x x.part → x.part ≠ 0 →
    let va := fun l => x.va l a off (mtySize t)
    let traps := fun (kind : Nat) =>
      ((∀ l ∈ lanesIn x.part, 2 ^ 57 ≤ va l) → Next (exec i s) fun u =>
        (AllTrap s u x x.part fun l => ⟨3, 9, va l % 2 ^ 32, 7 * 2 ^ 29 + kind * 2 ^ 25 + va l / 2 ^ 32 % 2 ^ 25, 0⟩) ∧ u.reqs = s.reqs) ∧
      ((∀ l ∈ lanesIn x.part, va l < 2 ^ 57 ∧ inWindow (va l) = false ∧ va l % mtySize t ≠ 0) → Next (exec i s) fun u =>
        (AllTrap s u x x.part fun l => ⟨3, 12, va l % 2 ^ 32, 7 * 2 ^ 29 + kind * 2 ^ 25 + va l / 2 ^ 32 % 2 ^ 25, 0⟩) ∧ u.reqs = s.reqs)
    (i = .ld t d a off sc o h y → traps 0) ∧ (i = .st t d a off sc o h y → traps 1)

/-- R83, R93, R94: `ckeep` writes the retention register of its die in one step where the Ways of the die's valid registers stay within 8, and `cunkeep` clears Valid of the context's own. -/
def Obligations.RetentionWords : Prop :=
  ∀ (s : State) (x : Iss) (k b l ways : Reg) (y : Tail) (f g : Place) (v : Die) (c : Context),
    let lane := lowLane x.part
    let n := x.rd1 lane k
    let w := x.rd1 lane ways
    let die := x.wp.die
    x.part ≠ 0 → Calm s x → s.dies[die]? = some v → s.ctx? (s.ctxOf x.wp) = some c → n < v.keeps.length →
    (s.iss (.ckeep k b l ways y) = some x →
      s.xlate x.w x.wp wantLoad 1 1 (x.rd lane b 2) = .ok f → s.xlate x.w x.wp wantLoad 1 1 (x.rd lane l 2) = .ok g → f.tier < 3 →
      x.rd lane b 2 ≤ x.rd lane l 2 → s.pageOf x (x.rd lane b 2) = s.pageOf x (x.rd lane l 2) →
      n < 16 → c.keepallot.toNat.testBit n = true → 1 ≤ w → w ≤ 8 →
      (∀ j u, v.keeps[j]? = some u → j ≠ n → u.valid = true → u.owner ≠ s.ctxOf x.wp) →
      w ≤ c.keepallot.toNat / 2 ^ (16 + 4 * die) % 16 →
      w + ((v.keeps.zipIdx.filter fun e => e.1.valid && e.2 != n).map fun e => e.1.ways).sum ≤ 8 →
      Next (exec (.ckeep k b l ways y) s) fun t => t.mem = s.mem ∧ t.lines = s.lines ∧ Gets s t x.w [] 0 ∧
        t.dies[die]? = some { v with keeps := v.keeps.set n ⟨f.pa / 4096, g.pa / 4096, true, 0, s.ctxOf x.wp, w⟩ } ∧
        ∀ e, e ≠ die → t.dies[e]? = s.dies[e]?) ∧
    (s.iss (.cunkeep k y) = some x → Reg.isS k = true → ∀ u, v.keeps[n]? = some u → u.valid = true → u.owner = s.ctxOf x.wp →
      Next (exec (.cunkeep k y) s) fun t => t.mem = s.mem ∧ t.lines = s.lines ∧ Gets s t x.w [] 0 ∧
        t.dies[die]? = some { v with keeps := v.keeps.set n { u with valid := false } } ∧ ∀ e, e ≠ die → t.dies[e]? = s.dies[e]?)

namespace Sys2Proof.Claims

/-- The registers of every warp, memory and the special registers stay; scratchpad may change. -/
def KeepsRegisters (s t : State) : Prop := KeepsMemory s t ∧ KeepsSpecial s t ∧ ∀ k, KeepsWarp s t k

/-- The same, but that warp w gets writes. -/
def KeepsButGets (s t : State) (w : Nat) (ps : List Pend) : Prop :=
  KeepsMemory s t ∧ KeepsSpecial s t ∧ (∀ k, k ≠ w → KeepsWarp s t k) ∧ Gets s t w ps 0

/-- The word runs for one lane and names a barrier object of its block, which the word may meet now: a good one, with Fault clear
(R106, R110, R219). -/
def Meets (s : State) (x : Iss) (i : Instr) (l off : Nat) (a : Reg) (disp : BitVec 12) : Prop :=
  s.iss i = some x ∧ Calm s x ∧ x.acts i = [l] ∧ x.va l a disp 1 = windowBase + off ∧ off % 16 = 0 ∧ off < 2 ^ 24 ∧
    (∃ b, s.blkOf x.wp = some b ∧ s.windowOk b (windowBase + off) 16 = true) ∧ s.acquiring (s.ownerOf x.wp) = false

/-- A reply of one register stands ready for a lane. -/
def Replies (t : State) (x : Iss) (l : Nat) (d : Reg) (n : Nat) : Prop :=
  ∃ r ∈ t.reqs, r.warp = x.w ∧ r.st = .ordered ∧ r.op = .load .n32 d ∧ r.accs.map (fun a => (a.lane, a.got)) = [(l, (leBytes 4 n).map some)]

/-- Every lane of the mask waits at the word. -/
def AllWait (s t : State) (x : Iss) (m : Mask) (k : Wait) : Prop :=
  ∀ l y, m.getLsbD l = true → laneOf s x.w l = some y → ∃ u, laneOf t x.w l = some u ∧ u.st = .waiting k ∧ u.pc = x.addr

/-- Every lane that waits on an object of a block waits for the generation that the object is in (R107). -/
def StillWait (s : State) (b off : Nat) : Prop :=
  ∀ (w l : Nat) (wp : Warp) (y : Lane) (t g : Nat) (u : Bool) (k : Option Nat), s.warps[w]? = some wp → wp.blk = b → laneOf s w l = some y →
    y.st = .waiting (.bwait off t u g k) → t = (s.barAt b off).gen

/-- No lane changes its state or its place but by the end of the word. -/
def LanesStay (s t : State) (w : Nat) : Prop := ∀ l y, laneOf s w l = some y → ∃ u, laneOf t w l = some u ∧ u.st = y.st ∧ u.handler = y.handler

end Sys2Proof.Claims

/-- R106 to R110: what each barrier word does to the object it meets, for one instance on an object with Fault clear; registers and
memory stay, but for the reply that `barrive` and `btest` owe.

R109: a lane that reaches `bsync` waits while a lane of its block that has not exited is elsewhere; when the last one arrives, all go
on behind the word. -/
def Obligations.Barriers : Prop :=
  (∀ (s : State) (x : Iss) (l off : Nat) (d e a : Reg) (disp : BitVec 12) (y : CTail),
    let b := x.wp.blk
    let o := s.barAt b off
    let v := x.rd1 l e
    let live := o.good = true ∧ o.fault = false ∧ 0 < o.pend ∧ 0 ≤ o.inb ∧ 0 ≤ o.outb
    let owes := fun (t : State) (n : Nat) => Replies t x l d n ∧ ∃ ps, KeepsButGets s t x.w ps ∧ Owed [l] d 1 ps
    (Meets s x (.binit e a disp y) l off a disp → 1 ≤ v → v ≤ 65535 →
      Next (exec (.binit e a disp y) s) fun t => t.barAt b off = ⟨0, v, v, 0, 0, false, 0⟩ ∧ KeepsRegisters s t) ∧
    (Meets s x (.barrive d a disp y) l off a disp → live →
      s.gateOpen (s.ownerOf x.wp) x.wp.seq .die = true → s.gateOpen (s.ownerOf x.wp) x.wp.seq .core = true →
      Next (exec (.barrive d a disp y) s) fun t => owes t o.gen ∧ t.barAt b off =
        if o.pend = 1 ∧ o.inb = 0 ∧ o.outb = 0 then { o with gen := (o.gen + 1) % 16, pend := o.exp } else { o with pend := o.pend - 1 }) ∧
    (Meets s x (.bwait e a disp y) l off a disp → live → v ≤ 15 →
      (o.gen = v → Next (exec (.bwait e a disp y) s) fun t =>
        AllWait s t x (if uniform x.w64 (.bwait e a disp y) then x.part else maskOf [l]) 
          (.bwait off v (uniform x.w64 (.bwait e a disp y)) s.nextId (y.ctr.map fun c => c.val)) ∧ t.barAt b off = o ∧ KeepsRegisters s t) ∧
      (o.gen ≠ v → Next (exec (.bwait e a disp y) s) fun t => LanesStay s t x.w ∧ t.barAt b off = o ∧ KeepsRegisters s t)) ∧
    (Meets s x (.btest d a disp y) l off a disp → live →
      Next (exec (.btest d a disp y) s) fun t => owes t (o.gen + o.pend * 2 ^ 16) ∧ t.barAt b off = o) ∧
    (Meets s x (.bexpect e a disp y) l off a disp → live → o.inb + (v + 63) / 64 < 2 ^ 31 →
      Next (exec (.bexpect e a disp y) s) fun t =>
        t.barAt b off = { o with inb := o.inb + ((v + 63) / 64 : Nat) } ∧ KeepsRegisters s t)) ∧
  (∀ (s : State) (x : Iss) (z : Fin 16) (b : Block), s.iss (.bsync z) = some x → Calm s x → s.blkOf x.wp = some b → b.pre = .none →
    s.gateOpen (s.ownerOf x.wp) x.wp.seq (if b.cores.length ≤ 1 then .core else .die) = true → x.wp.ended = false →
    (∃ l u, x.part.getLsbD l = true ∧ laneOf s x.w l = some u) →
    ((∃ k wk j u, ¬ (k = x.w ∧ x.part.getLsbD j = true) ∧ s.warps[k]? = some wk ∧ wk.blk = x.wp.blk ∧ wk.ended = false ∧ laneOf s k j = some u ∧ u.st ≠ .exited ∧
        u.st ≠ .waiting .bsync) →
      Next (exec (.bsync z) s) fun t => AllWait s t x x.part .bsync ∧ KeepsAll s t) ∧
    ((∀ k wk j u, s.warps[k]? = some wk → wk.blk = x.wp.blk → wk.ended = false → laneOf s k j = some u →
        (k = x.w ∧ x.part.getLsbD j = true) ∨ u.st = .exited ∨ u.st = .waiting .bsync) →
      Next (exec (.bsync z) s) fun t => KeepsAll s t ∧
        (∀ l u, x.part.getLsbD l = true → laneOf s x.w l = some u →
          ∃ y, laneOf t x.w l = some y ∧ y.st = .standing ∧ y.pc = x.addr + 8) ∧
        ∀ k wk j u, s.warps[k]? = some wk → wk.blk = x.wp.blk → laneOf t k j = some u → u.st ≠ .waiting .bsync))

/-- R96 to R99, R104: a copy word whose lane passes its checks puts one command into the queue of its core, with its operands; nothing is
copied yet, and its counter rises. -/
def Obligations.CopyWords : Prop :=
  ∀ (s : State) (x : Iss) (b : Block) (l : Nat) (d sr n q : Reg) (out : Bool) (y : CTail),
    let bar := if Reg.isS0 q then none else some (x.rd l q 2)
    let elem := fun (op : CopyOp) => (⟨op, x.rd l d 2, x.rd l sr 2, x.rd l n 2 % 2 ^ 32, x.rd l n 2 / 2 ^ 32, x.rd l q 4 % 2 ^ 64, 0,
      if x.rd l q 4 / 2 ^ 64 = 0 then none else some (x.rd l q 4 / 2 ^ 64)⟩ : CopyArgs)
    let enters := fun (i : Instr) (a : CopyArgs) => s.iss i = some x → x.acts i = [l] → s.copyCheck b (opOf x.word) a = none →
      (out = true → ∀ v, a.bar = some v → let o := s.barAt x.wp.blk (v - windowBase)
        StillWait s x.wp.blk (v - windowBase) ∧ 0 < o.pend ∧ o.fault = false ∧ o.outb + ((a.bytes + 63) / 64 : Nat) < 2 ^ 31) →
      Next (exec i s) fun t => KeepsRegisters s t ∧ CountsUp t x y.ctr ∧ ∃ c : Copy, t.copies = s.copies ++ [c] ∧
        c.core = x.wp.core ∧ c.blk = x.wp.blk ∧ c.warp = x.w ∧ c.lane = l ∧ c.word = x.addr ∧ c.op = a.op ∧ c.dst = a.dst ∧ c.src = a.src ∧
        c.n = a.n ∧ c.size = a.size ∧ c.idx = a.idx ∧ c.pat = a.pat ∧ c.bar = a.bar.map (· - windowBase) ∧ c.out = out ∧ c.units = 0 ∧
        c.st = .queued
    s.blkOf x.wp = some b → Calm s x → x.cl.entered = 0 → s.copyQueued x.wp.core < 16 → s.rangesUsed x.wp.core ≤ 30 →
    (∀ c ∈ s.copies, c.id < s.nextId) →
    enters (.xcopy d sr n q out y) ⟨.copy, x.rd l d 2, x.rd l sr 2, x.rd1 l n, 1, 0, 0, bar⟩ ∧
    enters (.xgather d sr n q out y) (elem .gather) ∧ enters (.xscatter d sr n q out y) (elem .scatter) ∧
    enters (.xfill d sr n q out y) ⟨.fill, x.rd l d 2, 0, x.rd1 l n, 1, 0, x.wp.reg l sr 0, bar⟩ ∧
    (∀ list rs, s.iss (.xmcast d sr n q y) = some x → x.acts (.xmcast d sr n q y) = [l] →
      s.rangeBlocks x.w x.wp.blk (x.rd l q 2 - windowBase) 128 false s.nextId = false →
      s.mcastCheck b (opOf x.word) (x.wp.core / 8) ⟨x.rd1 l d, x.rd l sr 2, x.rd1 l n, x.rd l q 2⟩ = .ok (list, rs) →
      Next (exec (.xmcast d sr n q y) s) fun t => KeepsAll s t ∧ CountsUp t x y.ctr ∧ ∃ m : Mcast, t.mcasts = s.mcasts ++ [m] ∧
        m.core = x.wp.core ∧ m.warp = x.w ∧ m.off = x.rd1 l d ∧ m.src = x.rd l sr 2 ∧ m.n = x.rd1 l n ∧ m.bar = list ∧
        m.left = rs.map (fun r => (r, 0)) ∧ m.read = false)

/-- R223, R224: a fence token is pending while an access that it covers has not performed at its scope; `fpoll` reads it into a predicate,
and `fwait` waits for it; both read a `fence` from the fourth core cycle after its issue on (R36, R57). -/
def Obligations.FenceWords : Prop :=
  ∀ (s : State) (x : Iss) (f q : Fin 8) (o : Order) (sc : Scope) (y : Tail) (g : Fence), x.wp.fences[f.val]? = some g → x.part ≠ 0 →
    Calm s x →
    (s.iss (.fence f o sc y) = some x → g.pending = false → sc ≠ .rmt → Next (exec (.fence f o sc y) s) fun t =>
      KeepsAll s t ∧ ((t.warps[x.w]?).bind fun w => w.fences[f.val]?).map (·.pending) = some (!decide
        ((∀ r ∈ s.reqs, r.owner = s.ownerOf x.wp → (o = .acq → r.reads = true) → ∀ p, s.req? r.id = some p → p.performedAt sc = true) ∧
          (sc = .sys → s.sysClear (s.ownerOf x.wp) = true)))) ∧
    (s.iss (.fwait f y) = some x →
      (g.pending = true → g.from_ ≤ s.clk.cyc → Next (exec (.fwait f y) s) fun t => AllWait s t x x.part (.fwait f.val) ∧ KeepsAll s t) ∧
      (g.pending = false ∨ s.clk.cyc < g.from_ → Next (exec (.fwait f y) s) fun t => LanesStay s t x.w ∧ KeepsAll s t)) ∧
    (s.iss (.fpoll q f y) = some x → Next (exec (.fpoll q f y) s) fun t => KeepsOthers s t x.w ∧
      Gets s t x.w ((lanesIn x.part).map fun l => ⟨.q l q.val, some (if g.pending = true ∧ g.from_ ≤ s.clk.cyc then 0 else 1),
        s.clk.cyc + 4, none, none⟩) 0)

namespace Sys2Proof.Claims

/-- One matrix command of the word stands behind the others, with its operands and the batch that is open (R170, R172, R184). -/
def CommandEnters (s t : State) (x : Iss) (b : Block) (l : Nat) (op : MxOp) (tile : Fin 64) (slot : DWord) (a : MxArgs) : Prop :=
  ∃ c : MxCmd, t.mx = s.mx ++ [c] ∧ c.core = b.cores.headD x.wp.core ∧ c.blk = x.wp.blk ∧ c.warp = x.w ∧ c.lane = l ∧ c.word = x.addr ∧
    c.op = op ∧ c.tile = tile.val ∧ c.a = a.a ∧ c.b = a.b ∧ c.rs = a.rs ∧ c.cs = a.cs ∧ c.shape = a.shape ∧ c.slot = slot ∧
    c.batch = b.batch + 1 ∧ c.row = 0 ∧ c.st = .queued

end Sys2Proof.Claims

/-- R171 to R175, R181, R182: a matrix word that passes its checks puts one command into the engine's queue, and changes no tile, no
memory and no register.

R129, R194, R325: a word whose format slot fails a check traps in all its lanes with group 4 and the slot's code, and nothing is
queued. -/
def Obligations.MatrixWords : Prop :=
  (∀ (s : State) (x : Iss) (b : Block) (l : Nat) (t : Fin 64) (a c sh : Reg) (k : Fin 8) (y : CTail),
    let w := s.slotOf x.wp k.val
    let shape := BitVec.ofNat 64 (x.rd l sh 2)
    let scale := fun (hi : Nat) => if Reg.isS0 c then 0 else x.rd l c 4 / 2 ^ (64 * hi) % 2 ^ 64
    let enters := fun (i : Instr) (op : MxOp) (slot : DWord) (noScale : Bool) (a : MxArgs) => s.iss i = some x →
      (lanesIn x.part).head? = some l → (op = .mzero ∨ x.acts i = [l]) → s.mxCodes x op t.val (slotRead slot) noScale a = [] →
      Next (exec i s) fun u => KeepsAll s u ∧ CountsUp u x y.ctr ∧ CommandEnters s u x b l op t slot a
    s.blkOf x.wp = some b → Calm s x → x.cl.entered = 0 → s.mxRoom (b.cores.headD x.wp.core) x.wp.blk = true →
    enters (.mzero t y) .mzero 0 true ⟨0, 0, 0, 0, 0⟩ ∧
    (slotCheck .load w = none → enters (.mload t a sh k y) (.mload false) w true ⟨x.rd l a 2, 0, 0, 0, shape⟩) ∧
    enters (.mloadRaw t a sh y) (.mload true) 0 true ⟨x.rd l a 2, 0, 0, 0, shape⟩ ∧
    (slotCheck .mma w = none → enters (.mma t a c sh k y) (.mma false) w true ⟨x.rd l a 2, x.rd l c 2, 0, 0, shape⟩ ∧
      enters (.mmaSet t a c sh k y) (.mma true) w true ⟨x.rd l a 2, x.rd l c 2, 0, 0, shape⟩) ∧
    (slotCheck .drain w = none →
      enters (.mdrain t a c sh k y) (.mdrain false) w (Reg.isS0 c) ⟨x.rd l a 2, 0, scale 0, scale 1, shape⟩) ∧
    enters (.mdrainRaw t a sh y) (.mdrain true) 0 true ⟨x.rd l a 2, 0, 0, 0, shape⟩) ∧
  (∀ (s : State) (x : Iss) (i : Instr) (t : Fin 64) (d a c sh : Reg) (k : Fin 8) (y : CTail) (v : VTail) (u : SlotUse) (e : Nat × Nat),
    (i, u) ∈ [(.mload t a sh k y, SlotUse.load), (.mma t a c sh k y, .mma), (.mmaSet t a c sh k y, .mma), (.mdrain t a c sh k y, .drain),
      (.mread d t a c k y, .drain), (.cvtq k d a c v, .cvtq), (.cvtd k d a c v, .cvtd)] →
    s.iss i = some x → Calm s x → CanTrap s x x.part → x.part ≠ 0 → slotCheck u (s.slotOf x.wp k.val) = some e →
    Next (exec i s) fun z => z.mx = s.mx ∧
      AllTrap s z x x.part fun _ => ⟨4, e.1, x.word.toNat / 2 ^ 56 * 2 ^ 24 + e.2 * 2 ^ 16 + k.val * 2 ^ 8, 0, 0⟩)

/-- R171, R183, R184, R189 to R192: owners, batches, progress and the baton: `macq` and `mrel` set who owns a tile, `mread` gives a
drained element, `mcommit` closes a batch and gives its number, `mwait` passes once it is done, `mprog` reads the engine, and `mbtake`
and `mbpass` wait for the baton and hand it on. -/
def Obligations.MatrixOwnership : Prop :=
  ∀ (s : State) (x : Iss) (b : Block) (l : Nat) (t : Fin 64) (d a : Reg) (k : Fin 8) (y : Tail) (z : CTail),
    let owners := fun (u : State) => (u.blocks[x.wp.blk]?).map (·.owners)
    let once := fun (i : Instr) => s.iss i = some x ∧ (lanesIn x.part).head? = some l
    s.blkOf x.wp = some b → Calm s x →
    (once (.macq t y) → (s.mx.any fun c => c.blk == x.wp.blk && c.tile == t.val) = false →
      Next (exec (.macq t y) s) fun u => owners u = some (b.owners ||| 1#64 <<< t.val) ∧ KeepsRegisters s u ∧ LanesStay s u x.w) ∧
    (once (.mrel t y) → Next (exec (.mrel t y) s) fun u => owners u = some (b.owners &&& ~~~(1#64 <<< t.val)) ∧ KeepsRegisters s u) ∧
    (let w := slotRead (s.slotOf x.wp k.val)
     let r := drainElem w (b.element t.val (x.rd1 l a / 32 % 32) (x.rd1 l a % 32)) (.fin false 1 0) (.fin false 1 0)
     s.iss (.mread d t a (.s 0) k z) = some x → x.acts (.mread d t a (.s 0) k z) = [l] →
      slotCheck .drain (s.slotOf x.wp k.val) = none → w.row = false → w.col = false → b.owners.getLsbD t.val = true →
      s.acquiring (s.ownerOf x.wp) = false →
      Next (exec (.mread d t a (.s 0) k z) s) fun u => Replies u x l d r.1 ∧ KeepsMemory s u ∧
        ∃ ps, Gets s u x.w ps 0 ∧ Owed [l] d 1 ps) ∧
    (once (.mcommit d y) → s.noBaton x.wp = false → b.faults = [] →
      Next (exec (.mcommit d y) s) fun u => (u.blocks[x.wp.blk]?).map (·.batch) = some (b.batch + 1) ∧
        KeepsButGets s u x.w (pendN l d ((b.batch + 1) % 2 ^ 32) (s.clk.cyc + 4) 1)) ∧
    (∀ n, once (.mwait a y) → n ≤ b.batch → b.batch < 2 ^ 31 → x.rd1 l a = n →
      (n ≤ b.done → b.faults = [] → Next (exec (.mwait a y) s) fun u => KeepsAll s u ∧ LanesStay s u x.w) ∧
      (b.done < n → Next (exec (.mwait a y) s) fun u => KeepsAll s u ∧ AllWait s u x x.part (.mwait n))) ∧
    (once (.mprog d y) → (s.mx.any fun c => c.blk == x.wp.blk) = false →
      Next (exec (.mprog d y) s) fun u => KeepsOthers s u x.w ∧ Gets s u x.w (pendN l d 0 (s.clk.cyc + 4) 1) 0) ∧
    (∀ c, once (.mprog d y) → s.mx.find? (fun c => c.blk == x.wp.blk && c.op != .mzero && c.st != .queued) = some c →
      Next (exec (.mprog d y) s) fun u => KeepsOthers s u x.w ∧ Gets s u x.w
        (pendN l d (2 ^ 31 + (match c.st with | .parked _ => 2 ^ 30 | _ => if c.stopped then 2 ^ 30 else 0) + c.tile * 2 ^ 24 +
          (match c.op with | .mload _ => 1 | .mdrain _ => 2 | _ => 0) * 2 ^ 22 + c.batch % 2 ^ 16 * 2 ^ 6 + c.row) (s.clk.cyc + 4) 1) 0) ∧
    (once (.mbtake y) →
      (s.noBaton x.wp = false → Next (exec (.mbtake y) s) fun u => KeepsAll s u ∧ LanesStay s u x.w) ∧
      (s.noBaton x.wp = true → Next (exec (.mbtake y) s) fun u => KeepsAll s u ∧ AllWait s u x x.part .mbtake)) ∧
    (∀ v, once (.mbpass y) → s.batonMode x.wp = true → b.baton = x.wp.num → v ∈ s.warps → v.blk = x.wp.blk → v.ended = false →
      v.allExited = false → v.num ≠ x.wp.num → (∀ u ∈ s.warps, u.blk = x.wp.blk → u.ended = false → u.num = x.wp.num ∨ u.num = v.num) →
      Next (exec (.mbpass y) s) fun u => (u.blocks[x.wp.blk]?).map (·.baton) = some v.num ∧ KeepsAll s u)

namespace Sys2Proof.Claims

/-- The word runs for one lane, in a warp whose earlier accesses have performed at `dev` scope. -/
def OneLane (s : State) (x : Iss) (i : Instr) (l : Nat) : Prop :=
  s.iss i = some x ∧ Calm s x ∧ x.acts i = [l] ∧ (lanesIn x.part).head? = some l ∧ s.gateOpen (s.ownerOf x.wp) x.wp.seq .dev = true

/-- A ring that the engine holds under its number, that no claim waits at and that has room: W < Free − E + P (R299). -/
def OpenRing (s : State) (r : Ring) : Prop := s.ring? r.id = some r ∧ r.claims = [] ∧ r.w < r.free - r.echo + r.cap

/-- The bytes of an element that a lane names, in one page of memory: n bytes at va, in no line that an engine holds (R103). -/
def InPage (s : State) (x : Iss) (w : Want) (va n : Nat) (p : Place) : Prop :=
  va % 4096 + n ≤ 4096 ∧ 0 < n ∧ s.xlate x.w x.wp w 1 n va = .ok p ∧ ∀ h ∈ s.heldBy, ∀ i, i < n → h.line ≠ lineOf p.tier (p.pa + i)

/-- Position W is claimed for an element or an end marker, not yet published (R299, R311, R313). -/
def Claimed (t : State) (r : Ring) (marker : Bool) (prod : Nat) (data : List Byte) : Prop :=
  ∃ r' p, t.ring? r.id = some r' ∧ r'.w = r.w + 1 ∧ r'.ended = (if marker then r.ended + 1 else r.ended) ∧ r'.poss = r.poss ++ [p] ∧
    p.p = r.w ∧ p.marker = marker ∧ p.producer = prod ∧ p.data = data ∧ p.published = false ∧ r'.cons = r.cons

end Sys2Proof.Claims

/-- R299, R310, R311, R313, R317: a push claims the next position with the element's bytes, and an end-of-stream word claims it for an
end marker of its producer, through a stage's output port or a named ring.

R300, R310, R312: a pop takes its consumer's next position, and owes its status until the position is published. -/
def Obligations.RingWords : Prop :=
  (∀ (s : State) (x : Iss) (l : Nat) (r : Ring) (d src n : Reg) (y : CTail) (p : Place),
    let lin := ((s.blkOf x.wp).map (·.lin)).getD 0
    let bytes := (List.range r.size).map fun i => s.viewByte p.tier (p.pa + i) p.key
    let port := s.portRing x.wp 1 = some r
    let ring := s.ringAt x.wp.die (s.ctxOf x.wp) (x.rd l d 2) = .held r ∧ r.stageOut = false
    let mayEnd := fun (prod : Nat) => prod < r.prod ∧ r.doneBy.contains prod = false
    OpenRing s r →
    (OneLane s x (.rpush src y) l → port → mayEnd lin → InPage s x wantLoad (x.rd l src 2) r.size p →
      Next (exec (.rpush src y) s) fun t => Claimed t r false lin bytes ∧ Gets s t x.w [] 0) ∧
    (OneLane s x (.rpushRing d src n y) l → ring → mayEnd (x.rd1 l n) → InPage s x wantLoad (x.rd l src 2) r.size p →
      Next (exec (.rpushRing d src n y) s) fun t => Claimed t r false (x.rd1 l n) bytes ∧ Gets s t x.w [] 0) ∧
    (OneLane s x (.reos y) l → port → mayEnd lin → Next (exec (.reos y) s) fun t => Claimed t r true lin [] ∧ Gets s t x.w [] 0) ∧
    (OneLane s x (.reosRing d n y) l → ring → mayEnd (x.rd1 l n) →
      Next (exec (.reosRing d n y) s) fun t => Claimed t r true (x.rd1 l n) [] ∧ Gets s t x.w [] 0)) ∧
  (∀ (s : State) (x : Iss) (l : Nat) (r : Ring) (d dst st : Reg) (y : CTail) (p : Place) (c : Consumer),
    let takes := fun (i : Instr) (stage : Option Nat) => OneLane s x i l → s.ring? r.id = some r → r.cons = [c] → c.stage = stage →
      c.detached = false → c.final = false → c.overrun = none → c.spill = [] → (∀ z ∈ r.poss, z.p < c.cursor) → r.pops = [] →
      InPage s x wantStore (x.rd l dst 2) r.size p →
      Next (exec i s) fun t => (∃ r' c', t.ring? r.id = some r' ∧ r'.cons = [c'] ∧ c'.cursor = c.cursor + 1 ∧
          r'.pops.map (fun q => (q.p, q.stage, q.warp, q.size)) = [(c.cursor, stage, x.w, r.size)]) ∧
        ∃ ps, Gets s t x.w ps 0 ∧ (Reg.isS0 st = false → Owed [l] st 2 ps)
    (s.portRing x.wp 0 = some r → takes (.rpop dst st y) (s.stageOf x.wp)) ∧
    (s.ringAt x.wp.die (s.ctxOf x.wp) (x.rd l d 2) = .held r → r.ext = true → takes (.rpopRing d dst st y) none))

/-- R301, R306, R314 to R316, R319, R320: `pbind` binds a pipeline of new stages, with one launch, one output ring and one consumer for
each, and gives its handle and join position; `punbind` lets go of an ended one; `pquery` reads one; a handle that names none raises
group 4 code 52. That the results stand there from issue, and not from the counter's fall on, is the model's reading (log 32). -/
def Obligations.PipelineWords : Prop :=
  ∀ (s : State) (x : Iss) (l : Nat) (d p h : Reg) (y : CTail) (b : BindInfo) (es : List (StageRead × Ring)) (k : Pipe),
    let ctx := s.ctxOf x.wp
    let known := s.pipes.find? (fun z => z.ctx == ctx && z.handle == x.rd1 l h) = some k
    (OneLane s x (.pbind d p y) l → s.bindRead x.wp.die ctx (x.rd l p 2) = .ok b → s.domainOf ctx = 0 → b.src.low ≤ b.start →
      b.src.seats < 16 →
      (b.stages.zipIdx.map fun e => (e.1, s.bindOut x.wp.die ctx b.stages.length e.2 e.1.entry)) = es.map (fun e => (e.1, .ok e.2)) →
      s.bindStatus ctx 0 b.src es = [] →
      Next (exec (.pbind d p y) s) fun t => ∃ q : Pipe, t.pipes = s.pipes ++ [q] ∧ q.ctx = ctx ∧ q.depth = 0 ∧ q.join = b.start ∧
        q.stages.length = b.stages.length ∧ q.ended = false ∧ t.launches.length = s.launches.length + b.stages.length ∧
        t.stages.length = s.stages.length + b.stages.length ∧ q.handle ≠ 0 ∧ (∀ z ∈ s.pipes, z.ctx = ctx → z.handle ≠ q.handle) ∧
        Gets s t x.w (pendN 0 d (q.handle + b.start * 2 ^ 64) s.clk.cyc 4) 0) ∧
    (OneLane s x (.punbind h y) l → Reg.isS h = true → known → k.ended = true → Next (exec (.punbind h y) s) fun t =>
      t.pipes = s.pipes.filter (fun z => z.id != k.id) ∧ KeepsAll s t) ∧
    (OneLane s x (.pquery d h p y) l → Reg.isS h = true → Reg.isS p = true → known → x.rd1 l p = 0 → k.depth = 0 → k.stages ≠ [] →
      Next (exec (.pquery d h p y) s) fun t => KeepsOthers s t x.w ∧ Gets s t x.w
        (pendN 0 d ((if k.ended then 2 else if k.detached then 1 else 0) + k.stages.length * 2 ^ 16 + k.join * 2 ^ 64) s.clk.cyc 4) 0) ∧
    (OneLane s x (.pquery d h p y) l → Reg.isS h = true → s.pipeAt ctx (x.rd1 l h) = none → CanTrap s x x.part →
      Next (exec (.pquery d h p y) s) fun t => AllTrap s t x x.part fun _ => ⟨4, 52, x.word.toNat / 2 ^ 56 * 2 ^ 24, 0, 0⟩)

namespace Sys2Proof.Claims

/-- A port of a die's fabric map entry for a peer is up (R361, R372). -/
def Reaches (s : State) (die peer : Nat) : Prop :=
  s.upPorts (((s.dies[die]?).map fun d => (mget d.fabric peer 0).toNat).getD 0) ≠ []

end Sys2Proof.Claims

namespace Sys2Proof.Claims

/-- A privileged word of a level-S warp whose lowest participating lane is l (R32, R341). -/
def Commands (s : State) (x : Iss) (i : Instr) (l : Nat) : Prop :=
  s.iss i = some x ∧ Calm s x ∧ (lanesIn x.part).head? = some l ∧ s.levelS (s.ctxOf x.wp) = true

/-- Entry e is open in the target context, and only lanes of running blocks wait on it, none of them in the clause that issues. -/
def OpenEntry (s : State) (x : Iss) (c : Context) (e : FaultEntry) : Prop :=
  s.ctx? x.wp.target = some c ∧ c.open_.find? (fun f => f.id == e.id) = some e ∧
    (∀ b ∈ s.blocks, ∀ k, s.launches[b.launch]? = some k → k.ctx = x.wp.target → b.st = .running) ∧
    (∀ r ∈ s.copies, r.st ≠ .parked e.id) ∧ (∀ r ∈ s.mcasts, r.st ≠ .parked e.id) ∧ (∀ r ∈ s.mx, r.st ≠ .parked e.id) ∧
    (∀ r ∈ s.reqs, r.fault ≠ some e.id) ∧ e.grp < 32 ∧ e.code < 2 ^ 11 ∧
    ∀ l y, x.cl.set.getLsbD l = true → laneOf s x.w l = some y → y.st ≠ .parked e.id

/-- The lanes of a context's running warps that are parked on an entry. -/
def ParkedHere (s : State) (ctx w l : Nat) (id : Nat) (y : Lane) : Prop :=
  ∃ wp b k, s.warps[w]? = some wp ∧ wp.ended = false ∧ s.blocks[wp.blk]? = some b ∧ s.launches[b.launch]? = some k ∧ k.ctx = ctx ∧
    laneOf s w l = some y ∧ y.st = .parked id

end Sys2Proof.Claims

/-- R342, R343, R351: `preempt` reads its descriptor and begins a pre-emption of the target context in its mode: modes 0 to 2 hold the
context and give each of its blocks on the dies chosen its outcome to come, and mode 3 takes up the report's entries. A malformed
descriptor raises group 4 code 56.

R337: `resume` of an open entry of the target context lets its lanes go on at the word they parked at, or makes them take the trap
that its cause describes, or ends their blocks; the entry is then closed.

R340: `halt` ends every block of the context it names, without a signal, disables its launch queues, and holds the warp's next clause
until they have gone. -/
def Obligations.SupervisorWords : Prop :=
  (∀ (s : State) (x : Iss) (l : Nat) (p : Reg) (y : Tail) (q : Place) (c : Context),
    let va := x.rd l p 2
    let bytes := (List.range 64).map fun k => s.loadByte x q (q.pa + k)
    let f := fun (at_ n : Nat) => leNat ((bytes.drop at_).take n)
    let target := f 0 2
    let words := [(Instr.preemptSliceEnd p y, 0), (.preemptAdaptive p y, 1), (.preemptSave p y, 2), (.preemptRestore p y, 3)]
    let good := f 2 1 / 4 % 4 = 0 ∧ f 3 5 = 0 ∧ f 8 8 % 4096 = 0 ∧ f 0x18 8 % 32 = 0 ∧ f 0x28 8 % 8 = 0 ∧ f 0x38 8 = 0
    s.xlate x.w x.wp wantLoad 64 64 va = .ok q → s.loadWaits x q = false → s.acquiring (s.ownerOf x.wp) = false → s.ctx? target = some c → (∀ o ∈ s.preempts, o.id < s.nextId) → ∀ i m, (i, m) ∈ words → Commands s x i l →
    (good → f 2 1 % 4 = m → 0 < f 0x20 4 →
      Next (exec i s) fun t => KeepsAll (if m < 3 then s.writeVirt (s.ctxDie (s.ctxOf x.wp)) (s.ctxOf x.wp) (va + 0x24) (leBytes 4 0) else s) t ∧ ∃ o : Preempt, t.preempts = s.preempts ++ [o] ∧ o.ctx = s.ctxOf x.wp ∧ o.target = target ∧
        o.mode = m ∧ o.dies = f 2 1 / 16 ∧ o.area = f 8 8 ∧ o.size = f 0x10 8 ∧ o.report = f 0x18 8 ∧ o.cap = f 0x20 4 ∧ o.sigAddr = f 0x28 8 ∧
        (m < 3 → (t.ctx? target).map (·.held) = some (c.held ||| f 2 1 / 16) ∧ o.done = false ∧ ∀ b v k, s.blocks[b]? = some v → v.st = .running →
          s.launches[v.launch]? = some k → k.ctx = target → (f 2 1 / 16).testBit (v.cores.headD 0 / 64) = true →
          b ∈ o.todo ∧ ∃ v', t.blocks[b]? = some v' ∧ v'.pre = (match m with
            | 0 => .stopAtBarrier o.id s.clk.tick
            | 1 => .choose o.id
            | _ => .save o.id))) ∧
    (f 0x38 8 ≠ 0 → CanTrap s x x.part → Next (exec i s) fun t => t.preempts = s.preempts ∧
      AllTrap s t x x.part fun _ => ⟨4, 56, x.word.toNat / 2 ^ 56 * 2 ^ 24, 0, 0⟩)) ∧
  (∀ (s : State) (x : Iss) (l : Nat) (a : Reg) (y : Tail) (c : Context) (e : FaultEntry),
    let closed := fun (t : State) => ∀ d ∈ t.ctxs, d.num = x.wp.target → ∀ f ∈ d.open_, f.id ≠ e.id
    OpenEntry s x c e → x.rd1 l a = e.id → s.devClear x = true →
    (Commands s x (.resumeRetry a y) l → Next (exec (.resumeRetry a y) s) fun t => closed t ∧ KeepsAll s t ∧
      ∀ w k z, ParkedHere s x.wp.target w k e.id z → ∃ u, laneOf t w k = some u ∧ u.st = .standing ∧ u.pc = z.pc) ∧
    (Commands s x (.resumeDeliver a y) l →
      (∀ w k z wp, ParkedHere s x.wp.target w k e.id z → s.warps[w]? = some wp → s.handlerOf wp ≠ 0 ∧ z.handler = false) →
      Next (exec (.resumeDeliver a y) s) fun t => closed t ∧ KeepsAll s t ∧
        ∀ w k z wp, ParkedHere s x.wp.target w k e.id z → s.warps[w]? = some wp →
          ∃ u n, laneOf t w k = some u ∧ Taken (s.handlerOf wp) n z.pc ⟨e.grp, e.code, e.d0, e.d1, e.d2⟩ u) ∧
    (Commands s x (.resumeEnd a y) l → Next (exec (.resumeEnd a y) s) fun t => closed t ∧ KeepsMemory s t ∧
      ∀ w k z wp, ParkedHere s x.wp.target w k e.id z → s.warps[w]? = some wp → (t.blocks[wp.blk]?).map (·.st) = some .ending)) ∧
  (∀ (s : State) (x : Iss) (l : Nat) (c : Reg) (y : Tail), Commands s x (.halt c y) l →
    let ctx := x.rd1 l c % 2 ^ 16
    s.ctxOf x.wp ≠ ctx → (∀ p ∈ s.pipes, p.ctx ≠ ctx) →
    Next (exec (.halt c y) s) fun t => KeepsMemory s t ∧ Gets s t x.w [] 0 ∧
      (t.warps[x.w]?).map (·.hold) = some (x.wp.hold ++ [.halted ctx]) ∧
      (∀ (k : Nat) (v u : Launch), s.launches[k]? = some v → v.ctx = ctx → t.launches[k]? = some u → u.st = .dead ∨ u.st = .signalled) ∧
      (∀ (b : Nat) (v : Block) (k : Launch), s.blocks[b]? = some v → s.launches[v.launch]? = some k → k.ctx = ctx → v.st = .running →
        (t.blocks[b]?).map (·.st) = some .ending) ∧
      (∀ q ∈ t.queues, q.ctl.toNat / 2 ^ 32 % 2 ^ 16 = ctx → q.ctl.toNat < 2 ^ 63))

namespace Sys2Proof.Claims

/-- Memory and every special register stay, and no register of any warp changes. -/
def KeepsData (s t : State) : Prop := KeepsMemory s t ∧ KeepsSpecial s t ∧ ∀ k, KeepsWarp s t k

/-- A request in the state, the only one with its number. -/
def Under (s : State) (r : Req) : Prop := r ∈ s.reqs ∧ ∀ q ∈ s.reqs, q.id = r.id → q = r

/-- A request that has moved on: it stands in the state as f gives it. -/
def Becomes (t : State) (r : Req) (f : Req → Prop) : Prop := ∃ q ∈ t.reqs, q.id = r.id ∧ f q

/-- What a register or a predicate holds; a predicate as bit 0. -/
def holds (w : Warp) : Dst → Word
  | .v l i => w.getV l i
  | .s i => w.getS i
  | .q l i => if w.getQ l i then 1 else 0

/-- A `v` register, or an `s` register but `s0` (R29, R48). -/
def inFile : Dst → Prop
  | .v _ i => i < 512
  | .s i => i ≠ 0
  | .q _ _ => False

/-- Every request to a slice stands in its queues, none on a die link or waiting for admission (R12, R278). -/
def Arrived (s : State) (die slice : Nat) : Prop :=
  ∀ q ∈ s.reqs, (q.slice.map fun k => (k.1, k.2.1)) = some (die, slice) → q.hops = [] ∧ q.admitted = true

/-- The line of a place, in L2 under the place's own key slot, in tier 0 or 1, with no block move under way (R80, R378, R392). -/
def Cached (s : State) (p : Place) (l : Line) : Prop :=
  s.lineOf? (lineOf p.tier p.pa) = some l ∧ l.key = p.key ∧ l.data.length = 128 ∧ p.tier ≤ 1 ∧ s.forward = []

/-- Bytes from a virtual address on, each with its own address. -/
def bytesAt (va : Nat) (bs : List Byte) : List (Nat × Byte) := bs.zipIdx.map fun e => (va + e.2, e.1)

/-- As an engine writes bytes one after another, each goes to the place that follows p. -/
def Hits (die c : Nat) : State → Place → List (Nat × Byte) → Prop
  | _, _, [] => True
  | s, p, (va, b) :: ws => s.xlateUnit die c wantEWrite va = .ok p ∧ Hits die c (s.writeVirt die c va [b]) { p with pa := p.pa + 1 } ws

/-- As an engine writes bytes one after another, none goes to a line. -/
def Avoids (die c line : Nat) : State → List (Nat × Byte) → Prop
  | _, [] => True
  | s, (va, b) :: ws => (∀ z, s.xlateUnit die c wantEWrite va = .ok z → lineOf z.tier z.pa ≠ line) ∧ Avoids die c line (s.writeVirt die c va [b]) ws

/-- Nothing but the bytes from a on, as many as bs has, reads otherwise; those read as bs. -/
def StoresAt (s t : State) (p : Place) (bs : List Byte) : Prop :=
  (∀ i, i < bs.length → t.viewByte p.tier (p.pa + i) p.key = bs.getD i 0) ∧
  (∀ tier pa slot, lineOf tier pa ≠ lineOf p.tier p.pa → t.viewByte tier pa slot = s.viewByte tier pa slot) ∧
  ∀ pa, lineOf p.tier pa = lineOf p.tier p.pa → pa < p.pa ∨ p.pa + bs.length ≤ pa → t.viewByte p.tier pa p.key = s.viewByte p.tier pa p.key

end Sys2Proof.Claims

/-- R45, R256, R257, R274, R275, R297, R384: a partition that selects a warp goes on with the clause it is held in, or fetches the clause
at its lanes' address, and selects none of a higher class number while one of a lower is ready and neither has waited 64 core cycles; the frontier check traps the lanes of an orphaned group with group 5 code 2, and the watchdog every waiting lane
with code 3; the shadow's word lets its leading warp's word go. -/
def Obligations.IssueEvents : Prop :=
  ∀ (s : State) (w : Nat) (wp : Warp), s.warps[w]? = some wp → wp.ended = false →
    (s.cur = none → s.eligible wp = true → s.orphaned = false → wp.clause.isSome = true →
      Next (exec (.issueSelect w 0 none) s) fun t => t.cur = some w ∧ (t.warps[w]?).map (·.clause) = some wp.clause ∧ t.mem = s.mem) ∧
    (∀ (v : Warp) (k : Nat), s.clk.tickAcc < s.clk.coreMHz → s.clk.uAcc < s.clk.coreMHz → wp.clause = none → wp.yielded = none →
      wp.nextIssue ≤ s.clk.cyc → (v, k) ∈ s.rivals w wp → v.nextIssue ≤ s.clk.cyc → v.cls < wp.cls →
      s.clk.cyc < wp.lastIssue + 64 → (∀ e ∈ s.rivals w wp, s.clk.cyc < e.1.lastIssue + 64) →
      exec (.issueSelect w 0 none) s = .next s) ∧
    (∀ a d ws hw, s.cur = none → s.eligible wp = true → s.orphaned = false → wp.clause = none → wp.yielded = none →
      (∀ (k : Nat) (v : Warp), s.warps[k]? = some v → k ≠ w → v.core ≠ wp.core ∨ v.part ≠ wp.part) → wp.pend = [] → wp.lanes ≠ [] →
      wp.lanes.length ≤ 64 → (∀ y ∈ wp.lanes, y.pc = a ∧ y.hdr = none ∧ y.st = .standing) → s.fetchAt w wp a = .word hw →
      decodeHeader hw = some d → wp.maskHolds d.mask = true → (s.tlbUse wp a).fetchWords w wp (a + 8) d.count = .ok ws →
      Next (exec (.issueSelect w 0 none) s) fun t => t.cur = some w ∧ t.mem = s.mem ∧ ∃ u c, t.warps[w]? = some u ∧ u.clause = some c ∧
        c.addr = a ∧ c.hdr = d ∧ c.words = ws ∧ c.next = a + 8 ∧ c.set = allLanes wp.lanes.length ∧ c.entered = 0) ∧
    (∀ (g : List Nat), g ≠ [] → (∀ j ∈ g, j < 12 ∧ (wp.setOf j).1 &&& ~~~(wp.setOf j).2 ≠ 0 ∧
        ∀ l, ((wp.setOf j).1 &&& ~~~(wp.setOf j).2).getLsbD l = true → ∃ y k, wp.lanes[l]? = some y ∧ y.st = .waiting (.jwait k) ∧ k ∈ g) →
      s.handlerOf wp ≠ 0 → (∀ y ∈ wp.lanes, y.handler = false) →
      Next (exec (.frontierCheck w) s) fun t => KeepsAll s t ∧ ∃ m n, (∀ j ∈ g, m.testBit j = true) ∧
        ∀ l y k, wp.lanes[l]? = some y → l < 64 → y.st = .waiting (.jwait k) → k ∈ g →
          ∃ u, laneOf t w l = some u ∧ Taken (s.handlerOf wp) n y.pc ⟨5, 2, m, 0, 0⟩ u) ∧
    (∀ from_, wp.wctl.getLsbD 1 = true → wp.wdFrom = some from_ → wp.orphans = [] →
      (∃ b, s.blkOf wp = some b ∧ b.st = .running) → s.handlerOf wp ≠ 0 → (∀ y ∈ wp.lanes, y.handler = false) →
      Next (exec (.watchdogExpiry w) s) fun t => s.clk.cyc ≤ t.clk.cyc ∧ from_ + 2 ^ (16 + wp.wctl.toNat / 16 % 16) ≤ t.clk.cyc ∧
        ∃ m n, ∀ l y k, wp.lanes[l]? = some y → l < 64 → y.st = .waiting k → k ≠ .bsync →
          ∃ u, laneOf t w l = some u ∧ m.testBit l = true ∧
            Taken (s.handlerOf wp) n y.pc ⟨5, 3, m % 2 ^ 32, m / 2 ^ 32, waitKind k⟩ u) ∧
    (∀ c d ds, wp.clause = some c → c.words = d :: ds → c.waits = true → isCompared (Decode.raw d.toNat).2 = true → s.octave wp = true →
      Next (exec (.shadowCompare w 0) s) fun t => KeepsAll s t ∧
        (t.warps[w]?).map (·.clause) = some (some { c with agreed := true, differ := 0 }))

/-- R61, R88, R196, R210: a reply writes the value got into the registers that its request owes, sign-extended for the signed types
below 32 bits, and frees the entry; an acknowledgement frees the entry of an access without a result. -/
def Obligations.ReplyEvents : Prop :=
  ∀ (s : State) (r : Req) (wp : Warp), Under s r → s.warps[r.warp]? = some wp → r.st = .ordered →
    let regs := fun (t : State) (d : Dst) => (t.warps[r.warp]?).map fun w => holds w d
    let arrives := fun (i : Instr) => Next (exec i s) fun t => KeepsMemory s t ∧ (∀ q ∈ t.reqs, q.id ≠ r.id) ∧
      ((∀ p ∈ wp.pend, inFile p.dst) → ∀ d, inFile d →
        (∀ p, wp.pend.filter (fun z => z.dst == d) = [p] → p.tag = some r.id → p.val = none → regs t d = some (r.result d)) ∧
        ((∀ p ∈ wp.pend, p.dst ≠ d) → regs t d = regs s d))
    (∀ ty d, r.op = .load ty d → arrives (.loadReply r.id .clean) ∧
      ∀ a l k, r.accs.find? (fun a => a.lane == l) = some a → k < mtyRegs ty →
        let bytes := a.got.map fun b => b.getD 0
        r.result (.v l (Reg.index d + k)) = (match ty with
          | .i8 => (BitVec.ofNat 8 (leNat bytes)).signExtend 32
          | .i16 => (BitVec.ofNat 16 (leNat bytes)).signExtend 32
          | _ => BitVec.ofNat 32 (leNat bytes >>> (32 * k)))) ∧
    (∀ o c w d, r.op = .atomic o c w (some d) → arrives (.atomicReply r.id .clean) ∧
      ∀ a l k, r.accs.find? (fun a => a.lane == l) = some a →
        r.result (.v l (Reg.index d + k)) = BitVec.ofNat 32 (leNat (a.got.map fun b => b.getD 0) >>> (32 * k))) ∧
    (r.op = .store ∨ r.op = .cflush ∨ r.op = .cinval ∨ r.op = .prefetch → s.acked r = true →
      Next (exec (.writeAck r.id) s) fun t => KeepsMemory s t ∧ ∀ q ∈ t.reqs, q.id ≠ r.id)

/-- R76, R88, R195, R200, R208: at its home slice a load takes the bytes of its line, a store puts its bytes there and changes no other,
and an atomic leaves the new value and keeps the old one for its reply. -/
def Obligations.HomeEvents : Prop :=
  ∀ (s : State) (r : Req) (a : Access) (l : Line) (die slice : Nat) (k : Launch),
    let p := { r.place with pa := a.pa }
    Under s r → r.accs = [a] → lineOf p.tier r.place.pa = lineOf p.tier p.pa → a.pa % 128 + a.size ≤ 128 → Cached s p l →
    r.place.cached = true → r.hint = .normal → r.scope ≠ .rmt → Arrived s die slice → s.canServe r = true →
    (∃ wp b, s.warps[r.warp]? = some wp ∧ s.blocks[wp.blk]? = some b ∧ s.launches[b.launch]? = some k ∧ k.rollback = false) →
    (∀ t d, r.op = .load t d → a.got = List.replicate a.size none → (∀ i, i < a.size → s.served r (a.pa + i) = none) →
      s.queueOf die slice false = [r] →
      Next (exec (.sliceQueueService die slice) s) fun u => KeepsMemory s u ∧ Becomes u r fun q => q.st = .ordered ∧
        q.accs.map (·.got) = [(List.range a.size).map fun i => some (s.viewByte p.tier (p.pa + i) p.key)]) ∧
    (r.op = .store → a.data.length = a.size → s.queueOf die slice false = [r] →
      Next (exec (.sliceQueueService die slice) s) fun u => StoresAt s u p a.data ∧ Becomes u r fun q => q.st = .ordered) ∧
    (∀ o w d, r.op = .atomic o false w d → a.size = atomSize w → s.queueOf die slice true = [r] →
      let old := (List.range a.size).map fun i => s.viewByte p.tier (p.pa + i) p.key
      Next (exec (.serviceWarpCycle die slice) s) fun u => StoresAt s u p (atomBytes o w false old a.data) ∧
        Becomes u r fun q => q.st = .ordered ∧ q.accs.map (·.got) = [old.map some])

/-- R206, R207, R211, R217, R226, R233, R379: how a request waits and comes back: its hold bound sends it away with a reason (not one of class 0 that
R379 shelters), its token bounces
it, its back-off lets it leave again; a probe reaches its core and is answered; a drain writes dirty tier-2 lines back, and the host port
takes the oldest of a line. -/
def Obligations.RequestEvents : Prop :=
  ∀ (s : State) (r : Req), Under s r → r.loc = none →
    (∀ k, r.st = .flight → r.waitFrom.isSome = true → r.cls ≠ 0 ∨ r.place.tier ≠ 0 → Next (exec (.holdBoundExpiry (.request r.id) k) s) fun t => KeepsMemory s t ∧
      Becomes t r fun q => (∃ n, q.st = .token n) ∧ q.bounces = r.bounces ∧ q.accs = r.accs) ∧
    (∀ k, s.sheltered r = true → exec (.holdBoundExpiry (.request r.id) k) s = .next s) ∧
    (∀ n, r.st = .token n → r.op ≠ .prefetch → r.bounces < 63 → (∀ q ∈ s.reqs, q.owner = r.owner → q.id ≠ r.id → q.bounces < 63 ∧ q.op ≠ .prefetch) →
      Next (exec (.bounceTokenReturn r.id) s) fun t => KeepsAll s t ∧ Becomes t r fun q =>
        q.st = .bounced ∧ q.bounces = r.bounces + 1 ∧ q.reason = n ∧ q.due = s.clk.ucyc + 64 * 2 ^ min (r.bounces + 1) 6) ∧
    (r.st = .bounced → r.stale = false → r.op = .store → r.due ≤ s.clk.ucyc → r.fault = none → r.order = .rlx →
      (∀ q ∈ s.reqs, q.id ≠ r.id → q.owner ≠ r.owner) → s.clk.tickAcc < s.clk.coreMHz → s.clk.uAcc < s.clk.coreMHz →
      Next (exec (.reissue r.id) s) fun t => KeepsAll s t ∧ Becomes t r fun q => q.st = .flight ∧ q.accs = r.accs) ∧
    (∀ a d, r.place.tier = 3 → r.st = .flight → r.op = .store → r.accs = [a] → s.leads r = true → s.portOf r ≠ none → (∀ z ∈ s.peerWrites, z.id ≠ r.id) →
      a.pa % 128 + a.data.length ≤ 128 → s.lineOf? (lineOf 3 a.pa) = none → (∀ z ∈ s.wbs, z.line ≠ lineOf 3 a.pa) →
      Next (exec (.peerResponse r.id (.done d)) s) fun t => StoresAt s t { r.place with pa := a.pa } a.data ∧
        (Becomes t r fun q => q.st = .ordered) ∧ t.out = s.out ++ [Out.fabric (a.pa / 2 ^ 42) a.data]) ∧
    (∀ o a d, r.accs = [a] → r.op = .atomic o false .w64 none → r.place.tier = 2 → r.place.cached = false → r.st = .flight →
      s.leads r = true → (∀ l, s.lineOf? r.line = some l → l.dirty = false) → (∀ z ∈ s.wbs, z.line ≠ r.line) →
      let old := (List.range a.size).map fun i => d.getD i 0
      Next (exec (.hostPortCompletion r.id d) s) fun t => t.mem = Memory.writeN s.mem (memKey 2 a.pa) (atomBytes o .w64 false old a.data) ∧
        t.out = s.out ++ [Out.atomicOp a.pa a.data] ∧ Becomes t r fun q => q.st = .ordered ∧ q.accs.map (·.got) = [old.map some]) ∧
    (∀ p, s.probes = [p] → p.sent = false → Next (exec (.promotionProbe p.id) s) fun t =>
      KeepsAll s t ∧ t.probes = [{ p with sent := true, upTo := s.nextId }]) ∧
    (∀ p, s.probes = [p] → p.sent = true → p.req = some r.id → r.st = .probing → (∀ q ∈ s.reqs ++ s.images.flatMap (fun m => m.reqs), q.took ≠ p.dest) →
      (∀ w ∈ s.warps, w.fences.all (fun f => !f.pending) = true) →
      Next (exec (.promotionAnswer p.id) s) fun t => KeepsAll s t ∧ t.probes = [] ∧ Becomes t r fun q => q.st = .ordered) ∧
    (∀ l, s.lines = [l] → l.dirty = true → lineTier l.line = 2 → l.own = some r.owner → r.scope = .sys → l.die < 4 → l.slice < 8 →
      Next (exec (.drainProbe r.owner.core r.owner.slot l.die l.slice) s) fun t => t.mem = s.mem ∧ t.lines = [{ l with dirty := false, own := none }] ∧
        ∃ b, t.wbs = s.wbs ++ [b] ∧ b.line = l.line ∧ b.off = 0 ∧ b.data = l.data ∧ b.own = some r.owner) ∧
    (∀ b, s.wbs = [b] → s.poison = [] → Next (exec (.tier2WritebackAccept b.line) s) fun t => t.wbs = [] ∧
      t.mem = Memory.writeN s.mem (lineMem b.line + b.off) b.data ∧ t.out = s.out ++ [.hostWrite (linePa b.line + b.off) b.data])

/-- R68, R73, R329, R330: a walk that finds a leaf puts the translation into the core's TLB, and one that fails a check is reported to what
waits for it; a posted fault's 128 bytes stand at place FQTAIL of its context's queue, and FQTAIL passes it; each field of an entry stands where R330
puts it. -/
def Obligations.WalkEvents : Prop :=
  (∀ (s : State) (k : Walk), s.walks = [k] → k.started = true → k.stored = false → (∀ l ∈ s.lines, l.key = 0 ∨ 2 ≤ lineTier l.line) →
    (∀ size leaf, s.walk (s.diesWith k.die) k.ctx k.va = .ok size leaf → s.leafOwn k size leaf = none →
      Next (exec (.tableWalk k.die k.cluster) s) fun t => KeepsAll s t ∧ t.walks = [] ∧ t.wfaults = s.wfaults ∧
        ∃ e ∈ t.tlb, e.core = k.core ∧ e.ctx = k.ctx ∧ e.base ≤ k.va ∧ k.va < e.base + 2 ^ e.size ∧ e.size = size ∧ e.leaf = leaf) ∧
    (∀ g c l e, s.walk (s.diesWith k.die) k.ctx k.va = .bad g c l e →
      Next (exec (.tableWalk k.die k.cluster) s) fun t => KeepsAll s t ∧ t.walks = [] ∧ t.tlb = s.tlb ∧
        t.wfaults = s.wfaults ++ [⟨k.core, k.warp, k.va / 4096, g, c, l, e⟩])) ∧
  (∀ (s : State) (c : Context) (e : FaultEntry) (es : List FaultEntry) (n : Nat),
    let die := s.ctxDie c.num
    let at_ := c.fqbase.toNat / 2 ^ 12 % 2 ^ 45 * 4096 + 128 * (c.fqtail.toNat % n)
    s.ctx? c.num = some c → c.posts = e :: es → c.fqCount = some n → (c.fqtail - c.fqhead).toNat < n → s.unitHeld die c.num at_ 128 = false →
    Next (exec (.postedFault c.num) s) fun t =>
      (∃ d, t.ctx? c.num = some d ∧ d.posts = es ∧ d.fqtail = c.fqtail + 1 ∧ d.fqhead = c.fqhead) ∧
      ∀ p l, Cached s p l → Hits die c.num s p (bytesAt at_ e.bytes) → p.pa % 128 = 0 → StoresAt s t p e.bytes) ∧
  (∀ e : FaultEntry, e.id < 2 ^ 32 → e.kind < 16 → e.grp < 32 → e.code < 2 ^ 11 → e.va < 2 ^ 64 → e.word < 2 ^ 64 → e.core < 2 ^ 16 → e.rows < 64 →
    e.d0 < 2 ^ 32 → e.d1 < 2 ^ 32 → e.d2 < 2 ^ 32 → e.recAddr < 2 ^ 64 → e.lin < 2 ^ 64 →
    let f := fun (at_ n : Nat) => leNat ((e.bytes.drop at_).take n)
    e.bytes.length = 128 ∧ f 0 4 = e.id ∧ f 4 1 = e.kind ∧ f 5 1 = e.grp ∧ f 6 2 = e.code ∧ f 8 8 = e.va ∧ f 0x10 8 = e.word ∧
      f 0x18 2 = e.core ∧ f 0x1A 1 = e.slot % 256 ∧ f 0x1C 1 = e.rows ∧ f 0x20 8 = e.mask.toNat ∧ f 0x28 4 = e.d0 ∧ f 0x2C 4 = e.d1 ∧
      f 0x30 4 = e.d2 ∧ f 0x38 8 = e.recAddr ∧ f 0x40 8 = e.lin ∧ f 0x1B 1 = 0 ∧ f 0x1D 3 = 0 ∧ f 0x34 4 = 0 ∧ f 0x48 56 = 0)

namespace Sys2Proof.Claims

/-- A barrier object with Fault clear that can take one unit of a copy off its inbound, or its outbound, count: no phase ends there, or the
phase's last unit does (R106). -/
def Counts (o : BarObj) (inbound : Bool) : Prop :=
  o.fault = false ∧ -(2 ^ 31) < (if inbound then o.inb else o.outb) ∧
    (0 < o.pend ∨ (o.pend = 0 ∧ o.inb = (if inbound then 1 else 0) ∧ o.outb = (if inbound then 0 else 1)))

/-- What that unit leaves of it (R98, R106). -/
def Counted (o : BarObj) (inbound : Bool) (u : BarObj) : Prop :=
  u = if o.pend = 0 then { o with gen := (o.gen + 1) % 16, pend := o.exp, inb := 0, outb := 0 }
    else if inbound then { o with inb := o.inb - 1 } else { o with outb := o.outb - 1 }

end Sys2Proof.Claims

/-- R96 to R100, R103, R105: a copy engine takes its core's oldest command, claims the lines of its destination, which it then holds, copies 64
bytes at a time and counts each unit at the barrier, gives its lines back and ends; a multicast delivers beats to its receivers, and
counts them at the receiver's barrier. -/
def Obligations.CopyEngineEvents : Prop :=
  ∀ (s : State) (c : Copy) (wp : Warp) (b : Block), s.copies = [c] → s.warps[c.warp]? = some wp → s.blocks[c.blk]? = some b →
    (c.st = .queued → s.mcasts = [] → Next (exec (.copyCommandStart c.core) s) fun t => KeepsAll s t ∧ t.copies = [{ c with st := .running 0 }]) ∧
    (∀ e, c.st = .running e →
      (∀ pl : Nat → Place, c.op = .copy → c.win = 0 → 0 < c.n → c.n ≤ 4096 → (∀ h ∈ s.heldBy, h.eng = .copy c.core c.id) → s.heldBy.length ≤ 1 →
        c.due ≤ s.clk.ucyc → (∀ q ∈ s.reqs, q.st = .ordered) →
        (∀ j, j < (c.dst % 128 + c.n + 127) / 128 → let va := max (c.dst / 128 * 128 + 128 * j) c.dst
          s.coreMiss c.core (s.ctxOf wp) va = false ∧ s.spot c.core (s.ctxOf wp) b wantEWrite va = .mem (pl j) ∧ (pl j).tier ≠ 3) →
        Next (exec (.copyLineClaim c.core c.id) s) fun t => KeepsAll s t ∧
          (∃ d, t.copies = [d] ∧ d.win = (c.dst % 128 + c.n + 127) / 128 ∧ d.units = c.units) ∧ (∀ h ∈ t.heldBy, h.eng = .copy c.core c.id) ∧
          ∀ j, j < (c.dst % 128 + c.n + 127) / 128 → ⟨lineOf (pl j).tier (pl j).pa, .copy c.core c.id⟩ ∈ t.heldBy) ∧
      (c.bytes ≤ 64 * c.units → s.peerWrites = [] → Next (exec (.copyCommandComplete c.core c.id) s) fun t => KeepsMemory s t ∧ t.copies = [] ∧
        ∀ h ∈ t.heldBy, h.eng ≠ .copy c.core c.id) ∧
      (∀ line, s.copyLineDone c line = true → Next (exec (.engineLineRelease c.core c.id line) s) fun t => KeepsAll s t ∧
        t.heldBy = s.heldBy.filter fun h => !(h.line == line && h.eng == .copy c.core c.id)) ∧
      (∀ from_ to_, c.op = .copy → c.units = 0 → 0 < c.n → c.n ≤ 64 → c.src = windowBase + from_ → c.dst = windowBase + to_ →
        s.windowOk b c.src c.n = true → s.windowOk b c.dst c.n = true → s.rings = [] → s.mcasts = [] → (∀ q ∈ s.reqs, q.st ≠ .range) →
        from_ + c.n ≤ 2 ^ 22 → to_ + c.n ≤ 2 ^ 22 → c.kept = [] → (from_ + c.n ≤ to_ ∨ to_ + c.n ≤ from_) → b.bad = [] → c.due ≤ s.clk.ucyc →
        (∀ off, c.bar = some off → (off + 16 ≤ to_ ∨ to_ + c.n ≤ off) ∧ StillWait s c.blk off ∧ Counts (s.barAt c.blk off) (!c.out)) →
        Next (exec (.copyUnitDone c.core c.id .clean) s) fun t => KeepsRegisters s t ∧ t.copies = [{ c with units := 1, waitFrom := none }] ∧
          (∀ i, i < c.n → (t.blocks[c.blk]?).map (·.getByte (to_ + i)) = some (b.getByte (from_ + i))) ∧
          (∀ off, c.bar = some off → Counted (s.barAt c.blk off) (!c.out) (t.barAt c.blk off)) ∧
          ∀ i, i < to_ ∨ to_ + c.n ≤ i → (∀ off, c.bar = some off → i < off ∨ off + 16 ≤ i) →
            (t.blocks[c.blk]?).map (·.getByte i) = some (b.getByte i))) ∧
    (∀ (m : Mcast) (d : Block) (k v : Nat), s.mcasts = [m] → m.read = true → m.st = .running 0 → m.left.lookup k = some v →
      s.blocks[k]? = some d → d.st = .running → (∀ q ∈ s.reqs, q.st ≠ .range) → m.off + m.n ≤ s.shareOf d → 64 * v < m.n → m.data.length = m.n →
      s.rangeBlocks m.warp k (m.off + 64 * v) ((m.data.drop (64 * v)).take 64).length true m.id = false →
      (v = 0 → s.rangesUsed (d.cores.headD 0) < 32) →
      (∀ off, m.bar = some off → (off + 16 ≤ m.off ∨ m.off + m.n ≤ off) ∧ off + 16 ≤ s.shareOf d ∧ StillWait s k off ∧ Counts (s.barAt k off) true) →
      Next (exec (.multicastDelivery m.id k) s) fun t => KeepsMemory s t ∧
        (∀ off, m.bar = some off → Counted (s.barAt k off) true (t.barAt k off)) ∧
        (∀ i, 64 * v + i < m.n → i < 64 → (t.blocks[k]?).map (·.getByte (m.off + 64 * v + i)) = some (m.data.getD (64 * v + i) 0)) ∧
        ∀ i, i < m.off + 64 * v ∨ m.off + min m.n (64 * v + 64) ≤ i → (∀ off, m.bar = some off → i < off ∨ off + 16 ≤ i) →
          (t.blocks[k]?).map (·.getByte i) = some (d.getByte i))

namespace Sys2Proof.Claims

/-- The rows of a command's next band: all up to the next stop point (R186). -/
def bandTo (c : MxCmd) : Nat := if 8 < c.rowsAll then min c.rowsAll (c.row + 8) else c.row + 1

/-- The band of a running command can be done now: its rows are left, its addresses are in the core's TLB, and nothing is poisoned (R73, R186, R382). -/
def BandReady (s : State) (c : MxCmd) (wp : Warp) (b : Block) : Prop :=
  c.st = .running 0 ∧ c.op ≠ .mzero ∧ c.row < c.rowsAll ∧ c.due ≤ s.clk.ucyc ∧ s.poison = [] ∧ b.bad = [] ∧
    ∀ a ∈ bandVas c (bandTo c) ++ bandStores c (bandTo c), s.coreMiss c.core (s.ctxOf wp) a = false

/-- n bytes at an address are what v is made of, and a command may read them now (R101 to R103, R175). -/
def Reads (s : State) (c : MxCmd) (wp : Warp) (b : Block) (va n v : Nat) : Prop :=
  ∃ xs : List Spot, xs.length = n ∧ v = leNat (xs.map (s.spotByte b)) ∧ ∀ i x, xs[i]? = some x →
    s.spot c.core (s.ctxOf wp) b wantERead ((va + i) % 2 ^ 64) = x ∧ s.mxBusy c false x = false ∧ ∀ g k l e a d, x ≠ .bad g k l e a d

/-- n bytes at an address lie in the block's window, at a place that a command may write now. -/
def WritesAt (s : State) (c : MxCmd) (wp : Warp) (b : Block) (va n off : Nat) : Prop :=
  va = windowBase + off ∧ ∀ i, i < n → s.spot c.core (s.ctxOf wp) b wantEWrite (va + i) = .loc (off + i) ∧ s.mxBusy c true (.loc (off + i)) = false

/-- A byte's weight at digit j, on the T5 or on the I8 side (R124, R125, R180). -/
def weight (t5 : Bool) (j v : Nat) : Int :=
  if t5 then (if 243 ≤ v then 0 else (v / 3 ^ (j % 5) % 3 : Nat) - 1) else (BitVec.ofNat 8 v).toInt

/-- The bits that a rational takes in a float format, rounded toward zero and saturated (R131). -/
def TowardZero (f : Fmt) (p : ℚ) (bits : Nat) : Prop :=
  ∃ v, value (f.decode bits) = some v ∧ 0 ≤ v * p ∧ |v| ≤ |p| ∧
    (bits % f.signBit + 1 = f.infBits ∨ ∃ w, value (f.decode (bits % f.signBit + 1)) = some w ∧ |p| < w)

end Sys2Proof.Claims

/-- R172, R178, R186, R187: the matrix engine takes up a command, does its rows band by band, and finishes: `mzero` leaves zeros in every
element of its tile and touches no other.

R174, R175, R178 to R182: what a band computes, element by element, from the bytes at the addresses of R175: an integer multiply adds the exact
products, or what `.set` begins with 0; a float multiply adds the exact sum of each eight products with one rounding; a load gives the value
in the tile's kind, or the 80 bits; a drain stores the value times its scales, rounded toward zero and saturated, or the 80 bits. -/
def Obligations.MatrixEngineEvents : Prop :=
  (∀ (s : State) (c : MxCmd) (wp : Warp) (b : Block), s.mx = [c] → s.warps[c.warp]? = some wp → s.blocks[c.blk]? = some b →
    (c.st = .queued → Next (exec (.matrixCommandStart c.core) s) fun t => KeepsAll s t ∧ t.mx = [{ c with st := .running 0, stopped := false }]) ∧
    (c.st = .running 0 → c.op ≠ .mzero → c.rowsAll ≤ c.row → b.faults = [] → s.peerWrites = [] → Next (exec (.matrixCommandFinish c.core) s) fun t =>
      KeepsMemory s t ∧ t.mx = [] ∧ (t.blocks[c.blk]?).map (·.tiles) = some b.tiles) ∧
    (c.st = .running 0 → c.op = .mzero → c.tile < 64 → b.faults = [] → Next (exec (.matrixCommandFinish c.core) s) fun t => KeepsMemory s t ∧ t.mx = [] ∧
      (∀ m n, m < 32 → n < 32 → (t.blocks[c.blk]?).map (·.element c.tile m n) = some 0) ∧
      ∀ k m n, k ≠ c.tile → m < 32 → n < 32 → (t.blocks[c.blk]?).map (·.element k m n) = some (b.element k m n)) ∧
    (∀ d, BandReady s c wp b → s.band c (s.ctxOf wp) b (bandTo c) = .ok d → d.bytes = [] →
      Next (exec (.matrixBandEnd c.core) s) fun t =>
        ((∀ a ∈ bandVas c (bandTo c), inWindow a = true) → KeepsMemory s t) ∧ t.mx.map (·.row) = [bandTo c] ∧
        ∀ m n v, m < 32 → n < 32 → d.elems.filter (fun e => e.1 == m && e.2.1 == n) = [(m, n, v)] →
          (∀ e ∈ d.elems, e.1 < 32 ∧ e.2.1 < 32) → (t.blocks[c.blk]?).map (·.element c.tile m n) = some v)) ∧
  (∀ (s : State) (c : MxCmd) (wp : Warp) (b : Block), s.mx = [c] → s.warps[c.warp]? = some wp → s.blocks[c.blk]? = some b → BandReady s c wp b →
    let k := slotRead c.slot
    let sh := shapeRead c.shape
    let f := if k.out = 4 then fmtF16 else if k.out = 5 then fmtBf16 else fmtF32
    let size := if k.out = 0 ∨ k.out = 1 then 1 else if k.out = 3 ∨ k.out = 6 then 4 else 2
    let inBand := fun (m n : Nat) => c.row ≤ m ∧ m < bandTo c ∧ n < sh.n
    let leaves := fun (p : Nat → Nat → BitVec 80 → Prop) => Next (exec (.matrixBandEnd c.core) s) fun t => t.mx.map (·.row) = [bandTo c] ∧
      (∀ m n, inBand m n → ∃ v, (t.blocks[c.blk]?).map (·.element c.tile m n) = some v ∧ p m n v) ∧
      ∀ i m n, m < 32 → n < 32 → ¬ (i = c.tile ∧ inBand m n) → (t.blocks[c.blk]?).map (·.element i m n) = some (b.element i m n)
    let stores := fun (size : Nat) (off : Nat → Nat → Nat) (p : Nat → Nat → Nat → Prop) => Next (exec (.matrixBandEnd c.core) s) fun t =>
      t.mx.map (·.row) = [bandTo c] ∧ (t.blocks[c.blk]?).map (·.tiles) = some b.tiles ∧
      ∀ m n, inBand m n → ∃ v, v < 256 ^ size ∧ p m n v ∧
        ∀ i, i < size → (t.blocks[c.blk]?).map (·.getByte (off m n + i)) = some (BitVec.ofNat 8 (v / 256 ^ i))
    (∀ (set : Bool) (x y : Nat → Nat → Nat), c.op = .mma set → (k.a, k.b, k.acc) ∈ [(0, 7, 0), (0, 0, 0), (4, 4, 1), (5, 5, 1)] →
      let e := if k.acc = 1 then 2 else 1
      let g := if k.a = 4 then fmtF16 else fmtBf16
      (∀ m j, c.row ≤ m → m < bandTo c → j < sh.k → Reads s c wp b ((if k.trA then c.a + j * sh.st1 + m * e else c.a + m * sh.st1 + j * e) % 2 ^ 64) e (x m j)) →
      (∀ j n, j < sh.k → n < sh.n → Reads s c wp b ((if k.b = 7 then c.b + n * sh.st2 + j / 5 else if k.trB then c.b + n * sh.st2 + j * e
        else c.b + j * sh.st2 + n * e) % 2 ^ 64) e (y j n)) →
      leaves fun m n v =>
        let old := if set then 0 else b.element c.tile m n
        (k.acc = 0 → v = BitVec.ofInt 80 (old.toInt + ((List.range sh.k).map fun j => (BitVec.ofNat 8 (x m j)).toInt * weight (k.b == 7) j (y j n)).sum)) ∧
        (k.acc = 1 → ∀ p q : Nat → ℚ, (∀ j, j < sh.k → value (g.decode (x m j)) = some (p j) ∧ value (g.decode (y j n)) = some (q j)) →
          ∃ z : Nat → BitVec 80, z 0 = old ∧ z ((sh.k + 7) / 8) = v ∧ ∀ i a, 8 * i < sh.k → value (fmtA80.decode (z i).toNat) = some a →
            ∃ w, value w = some (a + ((List.range (min 8 (sh.k - 8 * i))).map fun j => p (8 * i + j) * q (8 * i + j)).sum) ∧
              z (i + 1) = BitVec.ofNat 80 (fmtA80.encode .rn false (w, 0)).1)) ∧
    (∀ x : Nat → Nat → Nat, c.op = .mload true → (∀ m n, inBand m n → Reads s c wp b (c.a + m * sh.st1 + n * 10) 10 (x m n)) →
      leaves fun m n v => v = BitVec.ofNat 80 (x m n)) ∧
    (∀ x : Nat → Nat → Nat, c.op = .mload false → k.out ≤ 6 → k.acc = (if k.out ≤ 3 then 0 else 1) →
      (∀ m n, inBand m n → Reads s c wp b (c.a + m * sh.st1 + n * size) size (x m n)) →
      leaves fun m n v =>
        (k.out = 0 → v = (BitVec.ofNat 8 (x m n)).signExtend 80) ∧ (k.out = 1 → v = (BitVec.ofNat 8 (x m n)).zeroExtend 80) ∧
        (k.out = 2 → v = (BitVec.ofNat 16 (x m n)).signExtend 80) ∧ (k.out = 3 → v = (BitVec.ofNat 32 (x m n)).signExtend 80) ∧
        (4 ≤ k.out → (∀ q, value (f.decode (x m n)) = some q → value (fmtA80.decode v.toNat) = some q) ∧
          ((f.decode (x m n)).isNan = true → v = BitVec.ofNat 80 fmtA80.nanBits) ∧
          ∀ neg, f.decode (x m n) = .inf neg → v = BitVec.ofNat 80 ((if neg then fmtA80.signBit else 0) + fmtA80.infBits))) ∧
    (∀ off : Nat → Nat → Nat, c.op = .mdrain true → sh.n * 10 ≤ sh.st1 →
      (∀ m n, inBand m n → WritesAt s c wp b (c.a + m * sh.st1 + n * 10) 10 (off m n)) →
      stores 10 off fun m n v => v = (b.element c.tile m n).toNat) ∧
    (∀ (off : Nat → Nat → Nat) (r q : Nat → ℚ) (x y : Nat → Nat), c.op = .mdrain false → k.out ≤ 6 → k.acc ≤ 1 → sh.n * size ≤ sh.st1 →
      (k.row = true ∨ k.col = true → k.scale = 1 ∨ k.scale = 2) →
      let z := if k.scale = 2 then 2 else 4
      let g := if k.scale = 2 then fmtBf16 else fmtF32
      (∀ m, m < bandTo c → if k.row then Reads s c wp b (c.rs + m * z) z (x m) ∧ value (g.decode (x m)) = some (r m) else r m = 1) →
      (∀ n, n < sh.n → if k.col then Reads s c wp b (c.cs + n * z) z (y n) ∧ value (g.decode (y n)) = some (q n) else q n = 1) →
      (∀ m n, inBand m n → WritesAt s c wp b (c.a + m * sh.st1 + n * size) size (off m n)) →
      stores size off fun m n v => ∀ e, (if k.acc = 0 then some ((b.element c.tile m n).toInt : ℚ) else value (fmtA80.decode (b.element c.tile m n).toNat)) = some e →
        let p := e * r m * q n
        (k.out ≤ 3 → ∃ i : Int, 0 ≤ i * p ∧ |(i : ℚ)| ≤ |p| ∧ |p| < |(i : ℚ)| + 1 ∧
          v = (max (match k.out with | 0 => -128 | 1 => 0 | 2 => -32768 | _ => -2147483648)
            (min (match k.out with | 0 => 127 | 1 => 255 | 2 => 32767 | _ => 2147483647) i) % 256 ^ size).toNat) ∧
        (4 ≤ k.out → TowardZero f p v)))

namespace Sys2Proof.Claims

/-- The clock runs: both clocks have a rate. -/
def Ticks (s : State) : Prop := 0 < s.clk.coreMHz ∧ 0 < s.clk.uncMHz

/-- A result that device work owed warp w under a number has come: each register that it alone was to write holds its word (R61). -/
def Answered (s t : State) (w tag : Nat) (val : Dst → Word) : Prop :=
  ∀ wp, s.warps[w]? = some wp → (∀ p ∈ wp.pend, inFile p.dst) → ∀ d p, inFile d → wp.pend.filter (fun z => z.dst == d) = [p] →
    p.tag = some tag → p.val = none → (t.warps[w]?).map (fun u => holds u d) = some (val d)

/-- A new launch at the end of the list: nothing of it has been placed. -/
def Launched (s t : State) (r : Record) (c cls : Nat) : Prop :=
  ∃ l, t.launches = s.launches ++ [l] ∧ l.info = r ∧ l.ctx = c ∧ l.cls = cls ∧ l.st = .placing ∧ l.next = 0 ∧ l.retired = 0 ∧ l.tasks = 0

/-- Room for one warp of launch li on core c, in partition p from slot n on where no pre-emption holds its context (R85, R287, R342). -/
def Room (s : State) (li : Nat) (l : Launch) (c p width n : Nat) : Prop :=
  s.shareRoom li l c = true ∧ s.reserved li c = false ∧ s.heldOn l.ctx (c / 64) = false ∧ c ∈ s.ctxCores l.ctx ∧ p < 8 ∧
    s.findSlot c p (l.info.slotsPer width) 0 false = some n ∧ (∀ w ∈ s.warps, w.blk < s.blocks.length)

/-- A warp as its placement leaves it (R283): every lane at the entry, those without a thread exited, registers zero but the argument. -/
def AtEntry (w : Warp) (entry lanes : Nat) (arg : DWord) : Prop :=
  (∀ k y, w.lanes[k]? = some y → y.pc = entry ∧ y.hdr = none ∧ y.q = 0 ∧ y.handler = false ∧
    y.st = if k < lanes then .standing else .exited) ∧
  w.getS 2 = BitVec.ofNat 32 arg.toNat ∧ w.getS 3 = BitVec.ofNat 32 (arg.toNat / 2 ^ 32) ∧
  (∀ i, i ≠ 2 → i ≠ 3 → w.getS i = 0) ∧ w.flags = 0 ∧ w.pend = [] ∧ w.clause = none ∧ w.ended = false ∧ (∀ n ∈ w.ctrs, n = 0)

end Sys2Proof.Claims

/-- R284 to R286, R339: the queue whose turn it is serves the launch at its head: it is read and checked, a good one begins placement at the class that
the queue allows, a bad one leaves its cause in LQERR, and the queue goes on; a device launch gives its lane the status.

R339: `launch` puts each lane's record, at the warp's own class, behind the records of its context's device queue; the lane's status is
owed to the destination under the tag of its entry, and the counter rises. -/
def Obligations.Dispatch : Prop :=
  (∀ (s : State),
    (∀ (q n va : Nat) (x : LaunchQueue), s.dispatches.head? = some (.queue q) → (∀ l ∈ s.launches, l.queue ≠ some q) → s.queues[q]? = some x → x.size = some n → x.head ≠ x.tail →
      s.read64 (s.ctxDie x.ctx) x.ctx (x.base.toNat + 8 * (x.head.toNat % n)) = some va →
      (∀ r, s.fetchRecord x.ctx va = .ok r → Next (exec (.launchDispatch (.queue q)) s) fun t => KeepsMemory s t ∧
        Launched s t r x.ctx (max (r.flags.toNat / 8 % 4) (x.ctl.toNat / 64 % 4)) ∧ t.queues[q]? = some { x with head := x.head + 1 }) ∧
      (∀ k, s.fetchRecord x.ctx va = .error k → Next (exec (.launchDispatch (.queue q)) s) fun t => KeepsMemory s t ∧
        t.launches = s.launches ∧
        t.queues[q]? = some { x with head := x.head + 1, err := BitVec.ofNat 64 (k * 2 ^ 48 + x.head.toNat) })) ∧
    (∀ (c : Nat) (x : Context) (d : DevLaunch) (ds : List DevLaunch) (w : Warp), s.dispatches.head? = some (.device c) →
      (∀ l ∈ s.launches, l.queue ≠ some (256 + c)) → s.ctx? c = some x → x.devq = d :: ds → s.warps[d.warp]? = some w →
      let answered := fun (t : State) (n : Nat) => (t.ctx? c).map (·.devq) = some ds ∧
        Answered s t d.warp d.tag fun _ => BitVec.ofNat 32 n
      (∀ r, s.fetchRecord c d.recAddr = .ok r → Next (exec (.launchDispatch (.device c)) s) fun t => KeepsMemory s t ∧
        Launched s t r c (max (r.flags.toNat / 8 % 4) d.cls) ∧ answered t 0) ∧
      (∀ k, s.fetchRecord c d.recAddr = .error k → Next (exec (.launchDispatch (.device c)) s) fun t => KeepsMemory s t ∧
        t.launches = s.launches ∧ answered t k))) ∧
  (∀ (s : State) (x : Iss) (d r : Reg) (y : CTail) (c : Context),
    let i : Instr := .launch d r y
    s.iss i = some x → Calm s x → x.acts i ≠ [] → s.ctx? (s.ctxOf x.wp) = some c → c.devq.length + (x.acts i).length ≤ 64 → s.devClear x = true →
    Next (exec i s) fun t => KeepsOthers s t x.w ∧ CountsUp t x y.ctr ∧ ∃ (es : List DevLaunch) (ps : List Pend),
      (t.ctx? (s.ctxOf x.wp)).map (·.devq) = some (c.devq ++ es) ∧ Gets s t x.w ps 0 ∧ es.length = (x.acts i).length ∧ (es.map (·.tag)).Nodup ∧
      (∀ p ∈ ps, p.val = none ∧ ∃ l ∈ x.acts i, p.dst = dstOf l d 0) ∧
      ∀ (k l : Nat) (e : DevLaunch), (x.acts i)[k]? = some l → es[k]? = some e → e.recAddr = x.rd l r 2 ∧ e.cls = s.clsOf x.wp ∧ e.warp = x.w ∧
        ∃ p ∈ ps, p.dst = dstOf l d 0 ∧ p.tag = some e.tag)

/-- R193, R283, R287 to R290: the next block of a launch is placed with its registers as R283 says; the launch at the placement queue's head without room within
HOLD5 is deferred, a gang that is not whole within 10,000 ticks gives its blocks back; a block whose lanes have all exited retires and is counted;
a launch whose blocks have all retired is complete, and its signal is written once. -/
def Obligations.LaunchEvents : Prop :=
  ∀ (s : State) (li : Nat) (l : Launch), s.launches[li]? = some l →
    (∀ c p n, s.opened = true → s.placeHead = some li → l.st = .placing → l.deferred = false →
      l.info.members = some 1 → l.info.nwarps = 1 → Room s li l c p l.info.width n →
      Next (exec (.blockPlacement li [c] [p]) s) fun t => KeepsMemory s t ∧ (t.launches[li]?).map (·.next) = some (l.next + 1) ∧
        (∃ b, t.blocks = s.blocks ++ [b] ∧ b.launch = li ∧ b.lin = l.next ∧ b.wave = 0 ∧ b.cores = [c] ∧ b.st = .running ∧ b.tiles = [] ∧
          b.spad = [] ∧ b.owners = 0 ∧ b.batch = 0 ∧ b.baton = 0) ∧
        ∃ w, t.warps = s.warps ++ [w] ∧ w.blk = s.blocks.length ∧ w.num = 0 ∧ w.core = c ∧ w.part = p ∧ w.slot = n ∧
          w.lanes.length = l.info.width ∧ AtEntry w l.info.entry (min l.info.width l.info.threads) l.info.arg ∧ w.v = []) ∧
    (∀ t0 bound, Ticks s → l.st = .placing → l.deferred = false → s.placeHead = some li → s.placeFrom = some (li, t0, bound) → s.roomFor li l = none →
      Next (exec (.placementHoldExpiry li) s) fun t => KeepsMemory s t ∧ (t.launches[li]?).map (·.deferred) = some true ∧ li ∉ t.placeq ∧
        t0 + bound ≤ t.clk.ucyc) ∧
    (∀ t0, Ticks s → l.st = .placing → l.gangFrom = some t0 → Next (exec (.gangHoldExpiry li) s) fun t => KeepsMemory s t ∧
      t0 + 10000 ≤ t.clk.tick ∧ (t.launches[li]?).map (fun x => (x.next, x.gangFrom, x.age)) = some (0, none, l.age) ∧
      (∀ (b : Nat) (x : Block), s.blocks[b]? = some x → x.launch = li → x.st = .running → (t.blocks[b]?).map (·.st) = some .released)) ∧
    (∀ (b : Nat) (x : Block), s.blocks[b]? = some x → x.launch = li → x.st = .running → x.pre = .none → x.dropped = false → x.wave = 0 → x.faults = [] →
      (∀ w ∈ s.warps, w.blk = b → w.ended = false → w.allExited = true ∧ w.clause = none ∧ w.due = []) → s.workDone b = true →
      Next (exec (.blockRetire b) s) fun t => KeepsMemory s t ∧ (t.launches[li]?).map (·.retired) = some (l.retired + 1) ∧
        (t.blocks[b]?).map (·.st) = some .retired ∧ ∀ w ∈ t.warps, w.blk = b → w.ended = true) ∧
    (l.st = .placed → l.retired = l.info.blocks → l.tasks = 0 → s.pipes = [] → Next (exec (.launchComplete li) s) fun t =>
      KeepsAll s t ∧ (t.launches[li]?).map (·.st) = some .complete) ∧
    (l.st = .complete → s.reqs = [] → s.lines = [] → s.wbs = [] → s.heldBy = [] →
      (l.info.sigAddr = 0 → Next (exec (.launchSignal li) s) fun t => KeepsAll s t ∧ (t.launches[li]?).map (·.st) = some .signalled) ∧
      (∀ p, l.info.sigAddr ≠ 0 → l.info.sigAddr % 8 = 0 → l.info.sigAddr < windowBase → s.xlateUnit (s.ctxDie l.ctx) l.ctx wantStore l.info.sigAddr = .ok p →
        Next (exec (.launchSignal li) s) fun t => (t.launches[li]?).map (·.st) = some .signalled ∧
          t.mem = (s.writeVirt (s.ctxDie l.ctx) l.ctx l.info.sigAddr (leBytes 8 l.info.sigVal.toNat)).mem))

/-- R292, R293: `spawn` puts a task with the lane's entry address and arguments behind those of its cluster's queue, where the queue has
room; the launch's task count rises. A bad entry address raises group 4 code 40.

R294 to R296: the oldest ring record moves into a cluster queue as it was written, a wave starts its tasks with their arguments and
numbers, and once in every 256 uncore cycles a cluster moves its youngest tasks to a neighbour with fewer, by the depths
that the clusters exchanged. -/
def Obligations.Tasks : Prop :=
  (∀ (s : State) (x : Iss) (l : Nat) (e args : Reg) (y : CTail) (c : Context) (b : Block) (k : Launch),
    let i : Instr := .spawn e args y
    OneLane s x i l → s.blkOf x.wp = some b → s.launches[b.launch]? = some k → s.ctx? k.ctx = some c →
    (x.rd l e 2 % 8 = 0 → x.rd l e 2 < 2 ^ 48 → (s.tasks.filter fun t => t.die == x.wp.die && t.cluster == x.wp.cluster).length < 4096 →
      Next (exec i s) fun t => KeepsAll s t ∧ (∃ z : Task, t.tasks = s.tasks ++ [z] ∧ z.entry = x.rd l e 2 ∧
        z.args = (List.range 6).map (fun j => x.wp.reg l args j) ∧ z.num = c.taskCount % 2 ^ 32 ∧ z.launch = b.launch) ∧
        (t.launches[b.launch]?).map (·.tasks) = some (k.tasks + 1)) ∧
    (x.rd l e 2 % 8 ≠ 0 ∨ 2 ^ 48 ≤ x.rd l e 2 → CanTrap s x x.part →
      Next (exec i s) fun t => t.tasks = s.tasks ∧ AllTrap s t x x.part fun _ => ⟨4, 40, x.word.toNat / 2 ^ 56 * 2 ^ 24, 0, 0⟩)) ∧
  (∀ (s : State) (die cluster : Nat),
    (∀ (c n : Nat) (x : Context) (k : Task), s.ctx? c = some x → x.ringSize = some n → x.ringHead < x.ringTail → s.queueDepth die cluster < 4096 →
      (die, cluster) ∈ s.ctxClusters c → k.args.length = 6 → k.entry < 2 ^ 64 → k.num < 2 ^ 32 → k.launch < 2 ^ 32 →
      s.readPiece (s.ctxDie c) c (x.taskring.toNat / 2 ^ 12 % 2 ^ 45 * 4096 + 64 * (x.ringHead % n)) 64 = .ok k.bytes →
      (∃ l, s.launches[k.launch]? = some l ∧ l.ctx = c ∧ l.st ≠ .dead) →
      Next (exec (.taskRingRefill c die cluster) s) fun t => KeepsAll s t ∧
        t.tasks = s.tasks ++ [{ k with die := die, cluster := cluster }] ∧ (t.ctx? c).map (·.ringHead) = some (x.ringHead + 1)) ∧
    (∀ (c p n : Nat) (k : Task) (l : Launch), s.tasks = [k] → k.die = die → k.cluster = cluster → k.args.length = 6 → s.launches[k.launch]? = some l →
      s.opened = true → c / 8 = die * 8 + cluster → Room s k.launch l c p l.info.waveWidth n →
      Next (exec (.waveStart die cluster c p) s) fun t => KeepsMemory s t ∧ t.tasks = [] ∧
        (∃ b, t.blocks = s.blocks ++ [b] ∧ b.launch = k.launch ∧ b.wave = 1 ∧ b.width = l.info.waveWidth ∧ b.cores = [c] ∧ b.st = .running) ∧
        ∃ w, t.warps = s.warps ++ [w] ∧ w.blk = s.blocks.length ∧ w.core = c ∧ w.slot = n ∧ AtEntry w k.entry 1 l.info.arg ∧
          (∀ j a, k.args[j]? = some a → w.getV 0 j = a) ∧ w.getV 0 6 = BitVec.ofNat 32 k.num) ∧
    (die < 4 → cluster < 8 → die ∈ s.diesWith die → (s.balanced.lookup (die * 8 + cluster)).getD 0 < s.clk.ucyc / 256 →
      let depth := fun (d c : Nat) => if s.depths.1 = s.clk.ucyc / 256 ∧ s.depths.2 ≠ [] then s.depths.2.getD (d * 8 + c) 0 else s.queueDepth d c
      let k := min 64 ((depth die cluster - depth die ((cluster + 1) % 8)) / 4)
      depth die ((cluster + 1) % 8) < depth die cluster → k ≤ s.queueDepth die cluster →
      (∀ e ∈ (neighbours die cluster).tail, depth die cluster ≤ depth e.1 e.2) →
      Next (exec (.taskBalance die cluster) s) fun t => KeepsMemory s t ∧ t.tasks.length = s.tasks.length ∧
        t.queueDepth die cluster + k = s.queueDepth die cluster ∧
        t.queueDepth die ((cluster + 1) % 8) = s.queueDepth die ((cluster + 1) % 8) + k ∧
        t.balanced.lookup (die * 8 + cluster) = some (s.clk.ucyc / 256)) ∧
    (Ticks s → s.clk.ucyc / 256 ≤ (s.balanced.lookup (die * 8 + cluster)).getD 0 → Next (exec (.taskBalance die cluster) s) fun t =>
      KeepsMemory s t ∧ (s.clk.ucyc / 256 + 1) * 256 ≤ t.clk.ucyc))

namespace Sys2Proof.Claims

/-- The next entry of a pre-emption's report: the launch record's address, the outcome with its information, the block's linear index (R348). -/
def reportEntry (l : Launch) (x : Block) (outcome info : Nat) : List Byte :=
  leBytes 8 l.recAddr ++ leBytes 8 (outcome * 2 ^ 32 + info * 2 ^ 36) ++ leBytes 8 x.lin ++ leBytes 8 0

/-- A block's outcome is in the report, as its next entry, unless what the device writes after it (the descriptor's count, an image) falls into
its line. -/
def Reported (s t : State) (p : Preempt) (entry image : List Byte) : Prop :=
  let die := s.ctxDie p.ctx
  ∀ pl ln, Cached s pl ln → pl.pa % 32 = 0 → Hits die p.ctx s pl (bytesAt (p.report + 32 * p.count) entry) →
    Avoids die p.ctx (lineOf pl.tier pl.pa) (s.writeVirt die p.ctx (p.report + 32 * p.count) entry)
      (bytesAt (p.desc + 0x24) (leBytes 4 (p.count + 1)) ++ bytesAt (p.area + p.used) image) →
    ∀ i v, entry[i]? = some v → t.viewByte pl.tier (pl.pa + i) pl.key = v

end Sys2Proof.Claims

/-- R342 to R348, R380: how a pre-emption decides and carries out its outcomes, reports them, signals, and places blocks again; how a slice
ends. -/
def Obligations.PreemptEvents : Prop :=
  ∀ (s : State),
    (∀ (c : Context) (k t0 : Nat), s.ctx? k = some c → Ticks s → c.slicelen ≠ 0 → c.sliceFrom = some t0 →
      Next (exec (.sliceExpiry k) s) fun t => (t.ctx? k).map (·.sliceFrom) = some none ∧ t0 + c.slicelen.toNat ≤ t.clk.tick ∧
        ∀ f, s.fnOf k = some f → (t.vector? f 1).map (·.pending) = (s.vector? f 1).map (·.pending + 1)) ∧
    ∀ (op : Nat) (p : Preempt), s.pre? op = some p →
    (∀ (c : Context) (k : Nat), s.ctx? k = some c → c.sliceOp = some op → p.done = true →
      Next (exec (.sliceSecondDescriptor k) s) fun t => (t.ctx? k).map (·.sliceOp) = some none) ∧
    (∀ (b : Nat) (x : Block) (l : Launch), s.blocks[b]? = some x → s.launches[x.launch]? = some l →
      (∀ t0, Ticks s → p.mode = 0 → p.todo = [b] → x.pre = .stopAtBarrier op t0 → Next (exec (.graceExpiry op) s) fun t =>
        KeepsMemory s t ∧ p.start + s.grace.toNat < t.clk.tick ∧ (t.blocks[b]?).map (·.pre) = some (.choose op)) ∧
      (x.st = .running → (∀ w ∈ s.warps, w.blk = b → w.clause = none) → x.pre = .choose op → Next (exec (.blockFlush op b) s) fun t =>
        KeepsMemory s t ∧ t.reqs = s.reqs ∧ (t.blocks[b]?).map (fun y => (y.st, y.pre)) = some (.running,
          match s.regionOf b, s.estimate b with
          | some r, _ => .flush op r
          | none, some e => if e < s.drainbud.toNat then .drain op s.clk.tick else .save op
          | none, none => .save op)) ∧
      (∀ t0, Ticks s → x.pre = .drain op t0 → Next (exec (.drainBudgetExpiry op b) s) fun t => KeepsMemory s t ∧
        (t.blocks[b]?).map (·.pre) = some (.save op) ∧ t0 + s.drainbud.toNat ≤ t.clk.tick) ∧
      (x.st = .running → s.canSave b = true → (∀ w ∈ s.warps, w.blk = b → w.clause = none) →
        p.used + imageSize l.info x.cores.length ≤ p.size →
        let saved := fun (outcome : Nat) (t : State) => (∃ head, head.length = 64 ∧ Reported s t p (reportEntry l x outcome (p.used / 4096))
            (head ++ (List.range (imageSize l.info x.cores.length - 64)).map (Config.imageByte s.nextId))) ∧
           (t.blocks[b]?).map (fun y => (y.st, y.pre)) = some (.saved, .none) ∧
          (∃ i ∈ t.images, i.op = op ∧ i.blk = b ∧ i.size = imageSize l.info x.cores.length ∧ i.reqs = s.reqs.filter (s.isOf b)) ∧
          (∀ r ∈ t.reqs, s.isOf b r = false) ∧
          (t.pre? op).map (fun q => (q.used, q.count)) = some (p.used + imageSize l.info x.cores.length, p.count + 1)
        (x.pre = .save op → Next (exec (.blockSave op b) s) (saved 2)) ∧
        (x.pre = .saveAtBarrier op → s.liveTable l.ctx l.info.live = [] → Next (exec (.barrierStopSave op b) s) fun t => saved 3 t ∧
          ∀ w wp k y, s.warps[w]? = some wp → wp.blk = b → wp.lanes[k]? = some y → y.st = .waiting .bsync → laneOf t w k = some y.goOn)) ∧
      (∀ r0 r, x.st = .running → s.canSave b = true → (∀ w ∈ s.warps, w.blk = b → w.clause = none) → x.pre = .flush op r0 → s.regionOf b = some r →
        Next (exec (.blockFlush op b) s) fun t => (t.blocks[b]?).map (fun y => (y.st, y.pre)) = some (.saved, .flush op r) ∧
          Reported s t p (reportEntry l x 1 r) [] ∧ (∀ i ∈ t.images, i.blk ≠ b) ∧ (t.pre? op).map (·.count) = some (p.count + 1)) ∧
      (∀ k e i u cores parts c, p.mode = 3 → p.todo = [k] → s.mcasts = [] → s.entryAt p.ctx p.report k = some e → e.out = 2 ∨ e.out = 3 →
        s.imageAt p.ctx (p.area + 4096 * e.info) = some i → i.blk = b → l.st ≠ .dead → x.later = [] →
        s.putBack p.dies b (some i) cores parts = some u → s.ctx? p.target = some c →
        Next (exec (.restorePlacement op cores parts) s) fun t => (t.blocks[b]?).map (fun y => (y.st, y.cores)) = some (.running, cores) ∧
          (∀ j ∈ t.images, j.id ≠ i.id) ∧ (t.pre? op).map (·.done) = some true ∧ (t.ctx? p.target).map (·.held) = some 0)) ∧
    (p.mode ≠ 3 → p.done = false → p.todo = [] → s.mcasts = [] → s.heldBy = [] →
      (p.sigAddr = 0 → Next (exec (.preemptSignal op) s) fun t => KeepsAll s t ∧ (t.pre? op).map (·.done) = some true) ∧
      (∀ pl, p.sigAddr ≠ 0 → p.sigAddr % 8 = 0 → p.sigAddr < windowBase → s.xlateUnit (s.ctxDie p.ctx) p.ctx wantStore p.sigAddr = .ok pl →
        Next (exec (.preemptSignal op) s) fun t => KeepsRegisters s t ∧ (t.pre? op).map (·.done) = some true ∧
          ∀ ln, Cached s pl ln → pl.pa % 8 = 0 → Hits (s.ctxDie p.ctx) p.ctx s pl (bytesAt p.sigAddr (leBytes 8 p.sigVal.toNat)) →
            StoresAt s t pl (leBytes 8 p.sigVal.toNat)))

namespace Sys2Proof.Claims

/-- The number of a register in its file. -/
def regNo : Dst → Nat
  | .v _ i | .s i | .q _ i => i

/-- The cursor fields at 0x10 of a ring's descriptor: W, Free, the external consumer's cursor, and the end markers so far (R298). -/
def ringCursors (r : Ring) : List Byte :=
  leBytes 8 r.w ++ leBytes 8 r.free ++ leBytes 8 (((r.cons.find? fun c => c.stage.isNone).map (·.cursor)).getD 0) ++ leBytes 8 r.ended

end Sys2Proof.Claims

/-- R298, R299, R305, R307, R309, R311, R312: the first waiting claim takes position W once the ring has room; a position is published, and an
instance that waits for it gets its status pair, with an element's bytes at its destination and an element's origin in its lanes; a claim that
has waited for the bound it found spills the consumers at Free, and proceeds; a ring that nothing uses any more is released. -/
def Obligations.RingEvents : Prop :=
  ∀ (s : State) (id : Nat) (r : Ring), s.ring? id = some r →
    (∀ c cs, r.claims = c :: cs → r.w < r.free - r.echo + r.cap → Next (exec (.ringClaim id) s) fun t => ∃ q, t.ring? id = some q ∧
      q.w = r.w + 1 ∧ q.claims = cs ∧ q.ended = (if c.marker then r.ended + 1 else r.ended) ∧
      ∃ p, q.poss = r.poss ++ [p] ∧ p.p = r.w ∧ p.marker = c.marker ∧ p.producer = c.producer ∧ p.data = c.data ∧ p.published = false ∧
        p.origin = (if c.marker then 0 else c.origin)) ∧
    (∀ pos x, r.pos? pos = some x → x.published = false → r.pops = [] → r.low ≤ pos →
      (x.marker = true ∨ s.unitHeld (s.ctxDie r.ctx) r.ctx (r.base + pos % r.cap * r.size) x.data.length = false) →
      Next (exec (.elementPublish id pos) s) fun t => (t.ring? id).bind (·.pos? pos) = some { x with published := true }) ∧
    (∀ pos x q k b, r.pos? pos = some x → x.published = false → r.pops = [q] → q.p = pos → r.cons.find? (fun c => c.stage == q.stage) = some k →
      s.blocks[q.blk]? = some b → s.reqs = [] → s.forward = [] → (x.marker = false → x.data.length = q.size) →
      (x.marker = true ∨ s.unitHeld (s.ctxDie r.ctx) r.ctx (r.base + pos % r.cap * r.size) x.data.length = false) →
      let die := s.ctxDie r.ctx
      let kind := if x.marker then (if x.last then 2 else 1) else 0
      Next (exec (.elementPublish id pos) s) fun t => ∃ y, t.ring? id = some y ∧ y.pops = [] ∧
        Answered s t q.warp q.id (fun d => BitVec.ofNat 32 (if regNo d % 2 = 0 then kind + (if kind = 1 then x.producer * 2 ^ 16 else 0) else pos)) ∧
        (x.last = true → x.marker = true → ∃ c ∈ y.cons, c.stage = q.stage ∧ c.final = true) ∧
        (x.marker = true → (t.blocks[q.blk]?).map (·.spad) = some b.spad) ∧
        (x.marker = false → q.stage ≠ none → ∀ w l z, t.warps[q.warp]? = some w → w.lanes[l]? = some z → q.mask.getLsbD l = true → z.origin = x.origin) ∧
        (∀ off, x.marker = false → q.loc = some off → ∀ i v, x.data[i]? = some v → (t.blocks[q.blk]?).map (·.getByte (off + i)) = some v) ∧
        let own := ((s.warps[q.warp]?).map s.ownerOf).getD ⟨0, 0, 0⟩
        let u := s.writeVirt die r.ctx (r.base + pos % r.cap * r.size) x.data
        let u' := (q.dst.zip x.data).foldl (fun u e => u.devWrite .link q.warp own e.1 [e.2]) u
        ∀ p l, x.marker = false → q.loc = none → Cached u p l → p.pa % 128 + q.size ≤ 128 → y.stageOut = false →
          q.dst = (List.range q.size).map (fun i => { p with pa := p.pa + i }) →
          Avoids die r.ctx (lineOf p.tier p.pa) u' (bytesAt (r.desc + 0x10) (ringCursors y)) →
          ∀ i v, x.data[i]? = some v → t.viewByte p.tier (p.pa + i) p.key = v) ∧
    (∀ c cs, Ticks s → r.claims = c :: cs → r.free + r.cap ≤ r.w → 2 ≤ r.seats → r.echo = 0 → (∃ y ∈ r.cons, y.live = true ∧ r.free < y.cursor) →
      Next (exec (.consumerSpill id) s) fun t =>
        c.since + c.bound ≤ t.clk.ucyc ∧ ∃ q, t.ring? id = some q ∧
          (r.w = r.free + r.cap → q.w = r.w + 1 ∧ q.claims = cs) ∧ ∀ x ∈ r.cons, x.live = true → x.cursor = r.free → ∃ y ∈ q.cons, y.stage = x.stage ∧ y.cursor = x.cursor ∧ y.spilled = true ∧
            (x.stage = none → y.overrun = some x.cursor)) ∧
    (s.stages = [] → s.pipes = [] → r.cons ≠ [] → (∀ c ∈ r.cons, c.final = true ∨ c.detached = true) → r.claims = [] → r.pops = [] →
      (∀ p ∈ r.poss, p.published = true) →
      Next (exec (.ringRelease id) s) fun t => KeepsAll s t ∧ t.rings = s.rings.filter fun q => q.id ≠ id)

/-- R364, R365: `migr` to an address whose home is the warp's own die sets its predicate in every lane that issues; from another die a
warp that may not leave its core now clears it.

R17, R365: a warp held at `migr` lands in a landing slot of a core in its address's cluster and gets a true predicate, with every
register as it was; where no slot has come free within the HOLD3 bound that it found when it came there, it stays and gets a false one. -/
def Obligations.Migration : Prop :=
  (∀ (s : State) (x : Iss) (l : Nat) (q : Fin 8) (a : Reg) (y : Tail) (p : Place),
    s.iss (.migr q a y) = some x → Calm s x → (lanesIn x.part).head? = some l →
    s.xlate x.w x.wp wantLoad 1 1 (x.rd l a 2) = .ok p → s.migrCode x.wp p.tier = none →
    (p.die = x.wp.die ∨ (p.die ≠ x.wp.die ∧ x.wp.stuck = true)) →
    Next (exec (.migr q a y) s) fun t => KeepsOthers s t x.w ∧
      Gets s t x.w ((lanesIn x.cl.set).map fun k => ⟨.q k q.val, some (if p.die = x.wp.die then 1 else 0), s.clk.cyc, none, none⟩) 0) ∧
  (∀ (s : State) (w : Nat) (x : Iss) (q : Fin 8) (p : Place) (from_ bound : Nat), s.seeking w = some (x, q, p, from_, bound) →
    let answers := fun (t : State) (ok : Bool) => (t.warps[w]?).map (fun y => (y.v, y.s, y.pend)) =
      some (x.wp.v, x.wp.s, x.wp.pend ++ (lanesIn x.cl.set).map fun l => pendQ l q ok t.clk.cyc)
    (∀ b l core n, s.blkOf x.wp = some b → s.launches[b.launch]? = some l → core / 8 = p.die * 8 + p.slice →
      s.findSlot core 7 (s.warpSlots x.wp) 252 true = some n → s.mayMove x.wp = true → x.wp.stuck = false → s.shareRoom b.launch l core = true → s.reserved b.launch core = false →
      Next (exec (.migrLanding w core 7) s) fun t => KeepsMemory s t ∧ answers t true ∧
        (t.warps[w]?).map (fun y => (y.core, y.part, y.slot, y.member)) = some (core, 7, n, 0) ∧
        (t.blocks[x.wp.blk]?).map (fun y => (y.cores, y.lin, y.spad)) = some ([core], b.lin, b.spad)) ∧
    (Ticks s → (∀ core, core / 8 = p.die * 8 + p.slice → s.landingSlot x p core 7 = none) →
      Next (exec (.migrSlotTimeout w) s) fun t => KeepsMemory s t ∧ answers t false ∧
        (t.warps[w]?).map (·.core) = some x.wp.core ∧ from_ + bound ≤ t.clk.ucyc))

/-- R368 to R371, R373: a collective word on an open group that has none under way starts one; `cmemb` makes a group that waits for its
members, reads one, and lets one go.

R371: one element over the live ranks: a float sum, minimum or maximum step by step in ascending rank order, each step rounded by `rn`; an
integer sum modulo 2^32, the least or the greatest value; `mean` divides the sum by the count.

R370 to R372: a group opens once every member has opened the tag with the same members in the same order; a reduction over every live
member's part, once the live members agree on who they are, gives its status; a member that sends nothing in time, or an error, is out;
a live set and a contribution are kept by rank. -/
def Obligations.Collectives : Prop :=
  (∀ (s : State) (x : Iss) (l : Nat) (d c o p h : Reg) (y : CTail) (g : Group),
    let quad := x.rd l p 4
    let ctl := x.rd l c 2 % 2 ^ 32
    let n := x.rd l c 2 / 2 ^ 32
    let ready := fun (i : Instr) => s.iss i = some x ∧ Calm s x ∧ (lanesIn x.part).head? = some l ∧
      s.groupAt (s.ctxOf x.wp) x.wp.die (x.rd1 l h) = some g ∧ g.coll = none
    let starts := fun (i : Instr) (kind : CollKind) (bytes : Nat) =>
      ready i → s.gateOpen (s.ownerOf x.wp) x.wp.seq .sys = true →
      Next (exec i s) fun t => KeepsMemory s t ∧ CountsUp t x y.ctr ∧ ∀ k ∈ t.groups, k.id = g.id →
        ∃ z : Coll, k.coll = some z ∧ z.kind = kind ∧ z.dst = quad % 2 ^ 64 ∧ z.src = quad / 2 ^ 64 ∧ z.bytes = bytes ∧ z.warp = x.w ∧ z.parts = []
    (ctl / 4 % 4 = 0 → ctl < 2 ^ 6 → (ctl % 4 = 3 → ctl / 16 < 2) → 1 ≤ n → n ≤ 4194304 →
      (quad % 2 ^ 64) % (if ctl / 16 = 1 then 2 else 4) = 0 → (quad / 2 ^ 64) % (if ctl / 16 = 1 then 2 else 4) = 0 →
      starts (.creduce d p c h y) (.reduce (ctl % 4) (ctl / 16)) ((if ctl / 16 = 1 then 2 else 4) * n)) ∧
    (1 ≤ n → n ≤ 16777216 → starts (.cbcast p c h y) (.bcast ctl) n) ∧
    (∀ q m r tag t0 ps, s.iss (.cmembOpen d p o (.s 0) y) = some x → Calm s x → (lanesIn x.part).head? = some l → x.rd1 l o = 0 →
      Reg.isS0 p = false → x.rd l p 2 % 64 = 0 → s.loadWaits x q = false → s.xlate x.w x.wp wantLoad 64 64 (x.rd l p 2) = .ok q →
      (let head := (List.range 64).map fun k => s.loadByte x q (q.pa + k)
       ∃ es, s.groupTable (s.ctxOf x.wp) x.wp.die (x.rd l p 2) (min 1024 (leNat (head.take 8) % 2 ^ 11)) = some es ∧
        groupRead head es = some (m, r, t0, tag, ps)) →
      (s.groupsOf (s.ctxOf x.wp) x.wp.die).length < 16 → s.acquiring (s.ownerOf x.wp) = false → (∀ k ∈ s.groups, k.id < s.nextId) →
      (∀ k ∈ s.groups, ∀ i ∈ k.live, i ≠ k.rank → Reaches s k.die (k.peers.getD i 0)) → (∀ i, i < m → i ≠ r → Reaches s x.wp.die (ps.getD i 0)) →
      Next (exec (.cmembOpen d p o (.s 0) y) s) fun t => KeepsMemory s t ∧ CountsUp t x y.ctr ∧ ∃ k : Group, t.groups = s.groups ++ [k] ∧
        k.ctx = s.ctxOf x.wp ∧ k.n = m ∧ k.rank = r ∧ k.tag = tag ∧ k.live = List.range m ∧ k.isOpen = false ∧ k.handle ≠ 0) ∧
    (ready (.cmembQuery d (.s 0) o h y) → x.rd1 l o = 1 → Next (exec (.cmembQuery d (.s 0) o h y) s) fun t => t.groups = s.groups ∧
      Gets s t x.w (pendN l d (g.live.length + g.epoch % 2 ^ 16 * 2 ^ 16 + g.rank * 2 ^ 32) s.clk.cyc 2) 0) ∧
    (ready (.cmembClose d (.s 0) o h y) → x.rd1 l o = 2 → Next (exec (.cmembClose d (.s 0) o h y) s) fun t =>
      t.groups = s.groups.filter (fun k => k.id != g.id) ∧ KeepsOthers s t x.w ∧ Gets s t x.w (pendN l d 0 s.clk.cyc 2) 0)) ∧
  ((∀ (op ty a b : Nat) (vs : List Nat), vs ≠ [] → op < 3 → ty < 2 →
    let f := if ty = 1 then fmtBf16 else fmtF32
    let x := f.decode (collElem op ty vs)
    collElem op ty [a] = a ∧ collElem op ty (vs ++ [b]) = (f.encode .rn false (match op with
      | 0 => ((addFl .rn x (f.decode b)).1, 0)
      | 1 => (minFl x (f.decode b), 0)
      | _ => (maxFl x (f.decode b), 0))).1) ∧
  (∀ (ty : Nat) (vs : List Nat) (p q : ℚ), vs ≠ [] → ty < 2 →
    let f := if ty = 1 then fmtBf16 else fmtF32
    value (f.decode (collElem 0 ty vs)) = some p → p = q * vs.length → (∃ b, value (f.decode b) = some q) →
      value (f.decode (collElem 3 ty vs)) = some q) ∧
  (∀ (vs : List Nat), vs ≠ [] → (∀ v ∈ vs, v < 2 ^ 32) →
    (∀ ty ∈ [2, 3], collElem 0 ty vs = vs.sum % 2 ^ 32 ∧ collElem 1 ty vs ∈ vs ∧ collElem 2 ty vs ∈ vs) ∧
    ∀ v ∈ vs, collElem 1 3 vs ≤ v ∧ v ≤ collElem 2 3 vs ∧
      (BitVec.ofNat 32 (collElem 1 2 vs)).toInt ≤ (BitVec.ofNat 32 v).toInt ∧ (BitVec.ofNat 32 v).toInt ≤ (BitVec.ofNat 32 (collElem 2 2 vs)).toInt)) ∧
  (∀ (s : State) (id : Nat) (g : Group), s.group? id = some g →
    (∀ c, g.coll = some c → (∀ k ∈ g.live, k ≠ g.rank → k ∈ g.opened) → c.kind = .opened → Next (exec (.collectiveComplete id) s) fun t =>
      KeepsMemory s t ∧ (t.group? id).map (fun y => (y.isOpen, y.coll, y.handle)) = some (true, none, g.handle)) ∧
    (∀ c op ty w, g.coll = some c → c.kind = .reduce op ty → g.removed = false → g.lost = false → s.warps[c.warp]? = some w →
      (∀ k ∈ g.live, k ≠ g.rank → (c.parts.lookup k).isSome = true ∧ c.views.lookup k = some g.live) →
      let status := if c.shrunk then 1 else 0
      Next (exec (.collectiveComplete id) s) fun t => (t.group? id).map (·.coll) = some none ∧
        Answered s t c.warp c.tag (fun d => if (w.pend.find? fun p => p.tag == some c.tag).map (·.dst) = some d
          then BitVec.ofNat 32 (g.live.length + status * 2 ^ 16 + g.epoch % 256 * 2 ^ 24) else 0) ∧
        (∀ b, s.blocks[w.blk]? = some b → w.ended = false → inWindow c.dst = true → s.windowOk b c.dst (c.bytes / collSize ty * collSize ty) = true →
          KeepsMemory s t ∧ ∀ k v, c.dst - windowBase + k < 2 ^ 24 →
            (collReduce op ty (c.bytes / collSize ty) (g.live.map fun r =>
              if r == g.rank then s.collRead g.die g.ctx w.blk c.src c.bytes else (c.parts.lookup r).getD []))[k]? = some v →
            (t.blocks[w.blk]?).map (·.getByte (c.dst - windowBase + k)) = some v)) ∧
    (∀ c k op ty, Ticks s → g.coll = some c → c.kind = .reduce op ty → k ≠ g.rank → k ∈ g.live → c.parts.lookup k = none →
      Next (exec (.collectiveMemberTimeout id k) s) fun t => KeepsMemory s t ∧ c.since + g.timeout ≤ t.clk.tick ∧
        (t.group? id).map (fun y => (y.live, y.coll.map (·.parts))) = some (g.live.filter (· ≠ k), some [])) ∧
    (∀ k, k ≠ g.rank → k ∈ g.live →
      (k ∉ g.opened → g.peers.length = g.n → Next (exec (.collectiveMessage id k (.opened g.tag (s.stations g))) s) fun t =>
        KeepsAll s t ∧ (t.group? id).map (·.opened) = some (g.opened ++ [k])) ∧
      (∀ ranks, k < g.n → ranks.length = g.n → (∃ i, i < g.n ∧ i ≠ k ∧ i ≠ g.rank ∧ ranks[i]? ≠ (s.stations g)[i]?) →
        exec (.collectiveMessage id k (.opened g.tag ranks)) s = .next s) ∧
      (∀ c ranks, g.coll = some c → c.kind ≠ .opened → g.rank ∈ ranks → (∀ i ∈ g.live, i ∈ ranks) →
        Next (exec (.collectiveMessage id k (.live ranks)) s) fun t => KeepsAll s t ∧
          (t.group? id).map (fun y => (y.live, y.coll.map fun z => z.views.lookup k)) = some (g.live, some (some ranks))) ∧
      (∀ c ranks, g.coll = some c → c.kind ≠ .opened → g.rank ∉ ranks →
        Next (exec (.collectiveMessage id k (.live ranks)) s) fun t => KeepsAll s t ∧ (t.group? id).map (·.removed) = some true) ∧
      (∀ c op ty data, g.coll = some c → c.kind = .reduce op ty → data.length = c.bytes → c.parts.lookup k = none →
        Next (exec (.collectiveMessage id k (.contribution data)) s) fun t =>
          KeepsAll s t ∧ (t.group? id).map (·.coll) = some (some { c with parts := c.parts ++ [(k, data)] })) ∧
      (g.coll = none → Next (exec (.collectiveMessage id k .error) s) fun t =>
        KeepsAll s t ∧ (t.group? id).map (·.live) = some (g.live.filter (· ≠ k)))) ∧
    (Next (exec (.collectiveMessage id g.rank .error) s) fun t => KeepsAll s t ∧ (t.group? id).map (·.removed) = some true))

namespace Sys2Proof.Claims

/-- Every launch and every request is gone, and placement is closed or has been opened anew. -/
def Emptied (t : State) : Prop := t.launches = [] ∧ t.blocks = [] ∧ t.warps = [] ∧ t.reqs = [] ∧ t.agenda = [] ∧ t.cur = none

/-- The key slots but slot 0 hold no key. -/
def Unbound (t : State) : Prop := ∀ n k, n ≠ 0 → t.keys[n]? = some k → k.st ≠ .bound

/-- The registers that every reset sets, at their reset values (R206, R284, R333, R342, R376). -/
def RegistersReset (t : State) : Prop :=
  t.holds = List.replicate 7 0x00800200 ∧ t.grace = 2000 ∧ t.drainbud = 500 ∧ t.queues = List.replicate 256 LaunchQueue.atReset ∧
    t.tenparts = List.replicate 32 0 ∧ t.fns = List.replicate 64 Function.atReset ∧ t.lanemap = [] ∧ t.forward = []

end Sys2Proof.Claims

/-- R376 to R378: a vector fires when enough events have come (vector 0 once the host has accepted what the device's units wrote), or sets its pending bit while it is masked; unmasking fires that; MOVECTL
starts a move over a partition, eight lines at a time reach the destination as they stand at the source, and the end of a whole move
keeps its fields, clears Active and forwards no grain any more. -/
def Obligations.InterruptsAndMoves : Prop :=
  ∀ (s : State),
    (∀ (fn vec : Nat) (f : Function) (v : Vector), s.answers = true → s.fns[fn]? = some f → f.vectors[vec]? = some v →
      (v.pending ≠ 0 → vec < 3 → (vec ≠ 1 → s.unitsAccepted = true) → (vec = 2 → s.errorPosts fn = false) → (vec = 2 ∨ f.cfg.toNat / 2 ^ 10 % 64 ≤ v.pending) → Next (exec (.msixVectorFire fn vec) s) fun t => KeepsMemory s t ∧
        (v.masked = false → t.out = s.out ++ [.msix fn vec] ∧ t.vector? fn vec = some { v with pending := 0 }) ∧
        (v.masked = true → t.out = s.out ∧ t.vector? fn vec = some { v with pending := 0, pba := true })) ∧
      Next (exec (.msixVectorUnmask fn vec) s) fun t => KeepsMemory s t ∧ t.vector? fn vec = some { v with masked := false, pba := false } ∧
        t.out = s.out ++ if v.pba then [.msix fn vec] else []) ∧
    (∀ (die : Nat) (d : Die), s.dies[die]? = some d → die ∈ s.diesWith die →
      (∀ val : DWord, d.movectl.getLsbD 63 = false → val.toNat / 2 ^ 48 % 2 ^ 12 < hbmBlocks (s.diesWith die).length →
        val.toNat / 2 ^ 36 % 2 ^ 12 < hbmBlocks (s.diesWith die).length → s.tenantBlock die (val.toNat / 2 ^ 36 % 2 ^ 12) = false →
        Next (exec (.movectlStart die val) s) fun t => KeepsMemory s t ∧ ∀ k ∈ s.diesWith die, (t.dies[k]?).map (fun x => (x.movectl, x.moveLine)) =
          some (BitVec.ofNat 64 (2 ^ 63 + val.toNat / 2 ^ 48 % 2 ^ 12 * 2 ^ 48 + val.toNat / 2 ^ 36 % 2 ^ 12 * 2 ^ 36), 0)) ∧
      (let eng := Engine.move (((s.diesWith die).head?).getD die)
       let line := fun (k : Nat) => (lineOf 0 (moveAddr d (d.moveLine + k)).1, lineOf 0 (moveAddr d (d.moveLine + k)).2)
       moveActive d.movectl = true → moveDone d.movectl < 4096 → moveDone d.movectl * 512 ≤ d.moveLine → d.moveLine + 8 ≤ moveDone d.movectl * 512 + 512 →
        (s.heldBy = [] → Next (exec (.blockMoveLines die) s) fun t => KeepsAll s t ∧
          t.heldBy = (List.range 8).flatMap fun k => [⟨(line k).1, eng⟩, ⟨(line k).2, eng⟩]) ∧
        ((∀ k, k < 8 → ⟨(line k).1, eng⟩ ∈ s.heldBy) → s.lines = [] → moveSrc d.movectl ≠ moveDst d.movectl →
          Next (exec (.blockMoveLines die) s) fun t => (t.dies[die]?).map (·.moveLine) = some (d.moveLine + 8) ∧ (∀ h ∈ t.heldBy, h.eng ≠ eng) ∧
          (∀ i, i < 1024 → Memory.read t.mem ((moveAddr d d.moveLine).2 + i) = Memory.read s.mem ((moveAddr d d.moveLine).1 + i)) ∧
          ∀ a, a < (moveAddr d d.moveLine).2 ∨ (moveAddr d d.moveLine).2 + 1024 ≤ a → Memory.read t.mem a = Memory.read s.mem a)) ∧
      (moveActive d.movectl = true → moveDone d.movectl = 4096 → Next (exec (.movectlEnd die) s) fun t => KeepsMemory s t ∧
        (t.dies[die]?).map (·.movectl) = some (BitVec.ofNat 64 (moveSrc d.movectl * 2 ^ 48 + moveDst d.movectl * 2 ^ 36 + 4096)) ∧
        ∀ i, i < 4096 → t.forward.lookup (d.hbm * 2 ^ 24 + moveSrc d.movectl * 2 ^ 12 + i) = none))

/-- R404, R405: an alarm is logged with its level, and the level in force only rises; from level 2 on nothing runs, no key is left, and placement is closed. That a write of ALARM that reaches a level is logged as such an alarm is the
model's reading (log 51). -/
def Obligations.AlarmEvents : Prop :=
  ∀ (s : State),
    (∀ i n, (i, n) ∈ [(Instr.alarmLogEvent, 0), (.alarmLockEvent, 1), (.alarmLockWrite, 1)] → exec i s =
      .next { s with log := s.log ++ [n], alarm := max s.alarm (n + 1) }) ∧
    (∀ i, i = .alarmEraseWrite ∨ i = .alarmEraseEvent → Next (exec i s) fun t => Emptied t ∧ Unbound t ∧ t.opened = false ∧ 3 ≤ t.alarm ∧
      t.log = s.log ++ [2] ∧ ∀ e ∈ t.coreOwn, ∃ c, e.2 = .scrub c)

/-- R23 to R26, R386, R387, R406, R407: a power sample over a limit takes 100 MHz from the core clock; a junction at 115 °C trips, which
holds the dies and the I/O die and counts in the log, and a held power controller samples nothing; a die that has failed stays so until
power-on; each reset leaves nothing running, no key and the registers at their reset values, and REFTICK starts again but at a warm one. -/
def Obligations.PowerAndResets : Prop :=
  ∀ (s : State),
    let trips := fun (t : State) => Emptied t ∧ t.thermal = true ∧ t.opened = false ∧ (∀ d ∈ t.dies, d.live = false) ∧
      t.boot.ioReleased = false ∧ t.trips = s.trips + 1 ∧ t.keys = s.keys
    (∀ mw js, Ticks s → s.boot.ioReleased = true → (∀ t ∈ js, t < 115) → (2400000 < mw ∨ (∃ t ∈ js, 100 < t)) → 1000 < s.clk.coreMHz → Next (exec (.powerSample mw js) s) fun t => KeepsMemory s t ∧
      t.excess = true ∧ t.clk.coreMHz = s.clk.coreMHz - 100 ∧ s.clk.tick < t.clk.tick) ∧
    (∀ mw, Ticks s → s.boot.ioReleased = true → mw ≤ 2150000 → s.excess = true → Next (exec (.powerSample mw []) s) fun t => KeepsMemory s t ∧ t.excess = false ∧
      t.clk.coreMHz = s.clk.coreMHz ∧ t.clk.uncMHz = s.clk.uncMHz) ∧
    (Next (exec .thermalTrip s) trips ∧
      ∀ mw js, s.boot.ioReleased = true → (∃ t ∈ js, 115 ≤ t) → Next (exec (.powerSample mw js) s) trips) ∧
    (∀ mw js, s.boot.ioReleased = false → Next (exec (.powerSample mw js) s) fun t => t = { s with clk := t.clk }) ∧
    (Next (exec .hbmTrainingDone s) fun t => t.boot.hbmReady = true ∧ t.mem = s.mem) ∧
    (Next (exec .lpddrTrainingDone s) fun t => t.boot.lpReady = s.moduleForm ∧ t.mem = s.mem) ∧
    ∀ b : BootResult,
      let failed := fun (t : State) => ∀ k d, k < 4 → s.dies[k]? = some d → d.failed = true →
        (t.dies[k]?).map (fun x => (x.failed, x.live)) = some (true, false)
      let booted := fun (t : State) => Emptied t ∧ Unbound t ∧ RegistersReset t ∧ t.boot.romOk = b.romOk ∧ 
        t.boot.ioReleased = (b.romOk && s.fuses.accepts 0 b.io)
      (Next (exec (.powerOn b) s) fun t => booted t ∧ t.clk.tick = 0 ∧ t.boot.resets = 0 ∧ t.journal = [] ∧ t.coreOwn = [] ∧ ∀ c ∈ t.mem, 2 ^ 53 ≤ c.1) ∧
      (Next (exec (.coldReset b) s) fun t => booted t ∧ t.clk.tick = 0 ∧ t.boot.resets = 0 ∧ t.thermal = false ∧ failed t ∧ ∀ c ∈ t.mem, 2 ^ 53 ≤ c.1) ∧
      (s.thermal = false → Next (exec (.warmReset b) s) fun t => booted t ∧ t.clk.tick = s.clk.tick ∧ t.boot.resets = min (s.boot.resets + 1) 255 ∧
        failed t ∧ t.mem = s.mem) ∧
      (s.thermal = true → exec (.warmReset b) s = .next s)

/-- R357, R381, R400, R402: a function-level reset leaves no request of its contexts and its vectors at reset, and its end lets it serve again;
a die joins a hierarchy while no block is placed; a lustration engine zeroes the next unit, and with the last one its item is done. That a function's vectors are masked at reset is the
model's choice (log 14). -/
def Obligations.BindingAndLustration : Prop :=
  ∀ (s : State),
    (∀ (fn : Nat) (f : Function), s.fns[fn]? = some f →
      (Next (exec (.functionLevelReset fn) s) fun t => (t.fns[fn]?).map (fun x => (x.cfg, x.vectors, x.reset)) =
        some (f.cfg, List.replicate 4 ⟨0, 0, true, false⟩, true) ∧ ∀ r ∈ t.reqs, r.owner.ctx ∉ s.ctxsOfFn fn) ∧
      exec (.functionLevelResetDone fn) s = .next { s with fns := s.fns.set fn { f with reset := false } }) ∧
    (∀ (die : Nat) (d : Die) (h : Option Nat), s.answers = true → s.dies[die]? = some d → d.live = true → (∀ n, h = some n → n < 8) →
      (∀ b ∈ s.blocks, b.st ≠ .running ∧ b.st ≠ .ending) → Next (exec (.hostBindingChange die h) s) fun t => KeepsMemory s t ∧
        (t.dies[die]?).map (·.hier) = some h ∧ ∀ k, k ≠ die → t.dies[k]? = s.dies[k]?) ∧
    (∀ (die core : Nat) (j : JItem) (d : Die), s.zeroNext die = none → s.dies[die]? = some d → d.live = true → s.journal = [j] → j.item = .core core →
      core / 64 = die → j.left = [47] → Next (exec (.lustrationUnit die) s) fun t => KeepsMemory s t ∧ t.journal = [] ∧
        t.coreOwn = s.coreOwn.filter (fun e => e.1 != core) ∧ ∀ e ∈ t.tlb, e.core = core → e.ctx ≠ j.ctx) ∧
    (∀ (die f k : Nat) (ks : List Nat) (j : JItem) (d : Die), s.zeroNext die = none → s.dies[die]? = some d → d.live = true → s.journal = [j] →
      j.item = .frame f → j.left = k :: ks → f / 2 ^ 31 ≤ 1 → ks ≠ [] → k ∉ ks → k < 32 → s.unitDie j.item k = die → s.wbs = [] → s.alarm < 3 →
      Next (exec (.lustrationUnit die) s) fun t => t.journal = [{ j with left := ks }] ∧
        ∀ i, i < 65536 → t.viewByte (f / 2 ^ 31) (f % 2 ^ 31 * 2 ^ 21 + k * 2 ^ 16 + i) 0 = 0)

/-- R243, R359 to R363: while the I/O die runs, what the host and fabric peers do to device memory: a posted write is held at the ordering point and performed line by
line, a read answers with the bytes, an AtomicOp leaves the new value and answers with the old one; a back-invalidation writes a dirty
line back, drops a clean one and answers once no write-back of it is left, and lets one with a release record go once its core has answered (the model's reading, log 107); a peer's request passes its window; ports go down and
up. -/
def Obligations.HostEvents : Prop :=
  ∀ (s : State),
    let clear := fun (ps : List Place) => ∀ p ∈ ps, s.engineHas p = false ∧ s.otherSlot p = none
    (∀ fn pa data relaxed, s.answers = true → s.inbound = [] → data ≠ [] → pa % 128 + data.length ≤ 128 → (s.hostPlace pa).isSome = true →
      exec (.hostPostedWrite fn pa data relaxed) s =
        .next { s with nextId := s.nextId + 1, inbound := [⟨s.nextId, fn, relaxed, [(pa, data)], true⟩] }) ∧
    (∀ (x : Inbound) pa data ps, s.inbound = [x] → x.sent = true → x.parts = [(pa, data)] →
      State.outerPlaces s.hostPlace pa data.length = some ps → clear ps →
      exec (.inboundWriteAck x.id) s = .next { s.outerWrite ps data with inbound := [] }) ∧
    (∀ p l v, Cached s p l → StoresAt s (s.outerWrite [p] [v]) p [v]) ∧
    (∀ fn pa n relaxed ps, s.answers = true → s.mayPass fn pa n relaxed = true → State.outerPlaces s.hostPlace pa n = some ps → clear ps →
      exec (.hostNonpostedRead fn pa n relaxed) s =
        .next { s with out := s.out ++ [.hostRead fn (ps.map fun p => s.viewByte p.tier p.pa p.key)] }) ∧
    (∀ fn pa o w c data relaxed ps, s.answers = true → s.mayPass fn pa (atomSize w) relaxed = true → hostAccepts o w c = true → pa % atomSize w = 0 →
      State.outerPlaces s.hostPlace pa (atomSize w) = some ps → clear ps →
      let old := ps.map fun p => s.viewByte p.tier p.pa p.key
      Next (exec (.hostAtomicop fn pa o w c data relaxed) s) fun t => t.out = s.out ++ [.hostAtomic fn old] ∧
        t.mem = (s.outerWrite ps (atomBytes o w c old data)).mem ∧ t.lines = (s.outerWrite ps (atomBytes o w c old data)).lines) ∧
    (∀ die pa n ps, s.answers = true → State.outerPlaces (s.hbmPlace die 0) pa n = some ps → clear ps →
      exec (.cxlMemRequest die pa (.read n)) s = .next { s with out := s.out ++ [.cxl (ps.map fun p => s.viewByte p.tier p.pa p.key)] }) ∧
    (∀ l, s.answers = true → s.lines = [l] → lineTier l.line = 2 → s.heldBy = [] → l.rel = none →
      (l.dirty = true → Next (exec (.hostBackInvalidation l.line) s) fun t => t.mem = s.mem ∧ t.lines = [{ l with dirty := false, own := none }] ∧
        t.out = s.out ∧ t.wbs.map (fun b => (b.line, b.off, b.data)) = s.wbs.map (fun b => (b.line, b.off, b.data)) ++ [(l.line, 0, l.data)]) ∧
      (l.dirty = false → (∃ w ∈ s.wbs, w.line = l.line) → exec (.hostBackInvalidation l.line) s = .next s) ∧
      (l.dirty = false → (∀ w ∈ s.wbs, w.line ≠ l.line) → Next (exec (.hostBackInvalidation l.line) s) fun t => t.mem = s.mem ∧ t.lines = [] ∧
        t.wbs = s.wbs ∧ t.out = s.out ++ [.invalidated l.line] ∧ ∀ e ∈ t.ccache, e.2.2.1 ≠ l.line)) ∧
    (∀ l c, s.answers = true → s.lines = [l] → lineTier l.line = 2 → s.heldBy = [] → l.rel = some c → s.probes = [] →
      Next (exec (.hostBackInvalidation l.line) s) fun t => t.mem = s.mem ∧ t.lines = s.lines ∧ t.wbs = s.wbs ∧
        t.probes.map (fun q => (q.dest, q.ctx, q.line)) = [(c, none, some l.line)]) ∧
    (∀ die (d : Die) station addr n ps, s.answers = true → s.dies[die]? = some d → die ∈ s.diesWith die → d.window.getLsbD 63 = true →
      (∃ e ∈ d.fabric, e.2.getLsbD 63 = true ∧ e.2.toNat % 2 ^ 16 = station) → addr / 2 ^ 28 < d.window.toNat % 2 ^ 12 → 1 ≤ n → addr % 64 + n ≤ 64 →
      State.outerPlaces (s.hbmPlace die (d.window.toNat / 2 ^ 48 % 2 ^ 8))
        (d.hbm * 2 ^ 40 + (d.window.toNat / 2 ^ 24 % 2 ^ 12 + addr / 2 ^ 28) * 2 ^ 28 + addr % 2 ^ 28) n = some ps → clear ps →
      exec (.fabricInboundRequest die station addr (.read n)) s =
        .next { s with out := s.out ++ [.fabric station (ps.map fun p => s.viewByte p.tier p.pa p.key)] }) ∧
    (∀ port, (s.groups = [] → (∀ w ∈ s.peerWrites, w.bounces < 63) → Next (exec (.fabricPortDown port) s) fun t => KeepsAll s t ∧ t.ports = s.ports.set port false ∧
        ∀ r q, Under s r → q ∈ t.reqs → q.id = r.id → r.st = .flight → r.place.tier = 3 → r.loc = none → s.portOf r = some port → q.st = .token 5) ∧
      (∀ w ∈ s.peerWrites, w.due = 0 → s.portAt w.die w.pa = some port → (s.peerWrites.map (·.id)).Nodup → (∀ v ∈ s.peerWrites, v.bounces < 63) →
        Next (exec (.fabricPortDown port) s) fun t => ∃ v ∈ t.peerWrites, v.id = w.id ∧ v.data = w.data ∧ s.clk.ucyc < v.due) ∧
      exec (.fabricPortUp port) s = .next { s with ports := s.ports.set port true })

/-- R391: the SPDM responder answers each request in its order once the ROM runs, and moves on; a request out of its place gets an error. The order of
the requests and the bytes of the answers are those that the model takes from SPDM 1.3 (log 58). -/
def Obligations.SpdmEvents : Prop :=
  ∀ (s : State) (m : List Byte), s.boot.romOk = true →
    let answers := fun (i : Instr) (a : List Byte) (p : Spdm) => exec i s = .next { s with out := s.out ++ [.spdm a], spdm := p }
    answers (.spdmGetVersion m) (s.spdmAnswer 0 m) ⟨true, false, false, false, false⟩ ∧
    (s.spdm.version = true → answers (.spdmGetCapabilities m) (s.spdmAnswer 1 m) { s.spdm with caps := true }) ∧
    (s.spdm.caps = true → answers (.spdmNegotiateAlgorithms m) (s.spdmAnswer 2 m) { s.spdm with algs := true }) ∧
    (s.spdm.algs = true → answers (.spdmGetDigests m) (s.spdmAnswer 3 m) s.spdm ∧ answers (.spdmGetCertificate m) (s.spdmAnswer 4 m) s.spdm ∧
      answers (.spdmChallenge m) (s.spdmAnswer 5 m) s.spdm ∧ answers (.spdmKeyExchange m) (s.spdmAnswer 7 m) { s.spdm with exchanged := true } ∧
      (∀ n, 1 ≤ n → n ≤ 7 → answers (.spdmGetMeasurements n m) (s.measurement n ++ s.spdmAnswer 6 m) s.spdm) ∧
      answers (.spdmGetMeasurements 0 m) (7 :: s.spdmAnswer 6 m) s.spdm ∧
      answers (.spdmGetMeasurements 0xFF m) ((s.measurement 1 ++ s.measurement 2 ++ s.measurement 3 ++ s.measurement 4 ++ s.measurement 5 ++
        s.measurement 6 ++ s.measurement 7) ++ s.spdmAnswer 6 m) s.spdm ∧
      ∀ n, 7 < n → n ≠ 0xFF → answers (.spdmGetMeasurements n m) (spdmError 1) s.spdm) ∧
    (s.spdm.exchanged = true → answers (.spdmFinish m) (s.spdmAnswer 8 m) { s.spdm with session := true }) ∧
    (s.spdm.algs = false → exec (.spdmGetDigests m) s = .next { s with out := s.out ++ [.spdm (spdmError 4)] })

/-- R28, R47 to R63: each word that an assembler can write is decoded as what it was written for, every operand at every value that its
field takes (rows that share a word with another are told apart at issue, log 3). -/
def Obligations.EncodeDecode : Prop := ∀ i : Instr, i.canonical = true → i.wellFormed = true → ∃ w, encode i = some w ∧ decode w = .ok i

/-- R63, R64, R65: what decodes is well formed; a word with an opcode that R63 leaves unassigned, a header's among them, raises code 2. -/
def Obligations.DecodeRefusals : Prop :=
  (∀ w i, decode w = .ok i → i.wellFormed = true) ∧
  ∀ (w : DWord) (lo hi : Nat), (lo, hi) ∈ [(0x1E, 0x1F), (0x38, 0x3F), (0x46, 0x47), (0x4D, 0x4F), (0x5F, 0x5F), (0x6E, 0x6F), (0x75, 0x7F),
    (0x83, 0x87), (0x8B, 0x8F), (0x9C, 0x9F), (0xAB, 0xAF), (0xBC, 0xBF), (0xC0, 0xFF)] → lo ≤ w.toNat / 2 ^ 56 → w.toNat / 2 ^ 56 ≤ hi →
    decode w = .error 2

/-- R47 to R63: words that the spec writes out decode to the instruction it gives for each. -/
def Obligations.DecodeWords : Prop :=
  let q7 : Guard := ⟨false, 7⟩
  decode 0x0002808024000704 = .ok (.iadd .i32 (.v 10) (.v 8) (.v 9) ⟨q7, 0, 4⟩) ∧
  decode 0x1900402800001704 = .ok (.icmp .eq .n32 1 (.v 2) (.s 0) ⟨q7, 0, 4⟩) ∧
  decode 0x2303004014060710 = .ok (.ffma .f32 false .rz (.v 12) (.v 4) (.v 5) (.v 6) ⟨q7, 0, 0⟩) ∧
  decode 0x50003FFFFFF80200 = .ok (.bra (BitVec.ofInt 32 (-32)) ⟨⟨false, 2⟩, 0⟩) ∧
  decode 0x6002402001540780 = .ok (.ld .i32 (.v 9) (.v 2) 1 .dev .rlx .normal ⟨q7, some 0, 0⟩) ∧
  decode 0x8002C02024040790 = .ok (.atom .add .w32 (.v 11) (.v 2) (.v 9) .dev .rlx .normal ⟨q7, some 1, 0⟩) ∧
  decode 0x8800800000050700 = .ok (.fence 2 .rel .dev ⟨q7, 0⟩) ∧
  decode 0x94002288AA2C6100 = .ok (.mma 0 (.s 40) (.s 42) (.s 44) 3 ⟨⟨false, 1⟩, none, 0⟩) ∧
  decode 0xA08F014000000400 = .ok (.spawn (.s 60) (.v 20) ⟨⟨false, 4⟩, none, 0⟩) ∧
  decode 0xB080400000010700 = .ok (.sread 1 false (.s 1) ⟨q7, 0⟩) ∧
  decode 0xB300000000000700 = .ok (.rte ⟨q7, 0⟩) ∧
  decode 0xB40020C000000700 = .ok (.resumeRetry (.s 12) ⟨q7, 0⟩)

/-- R45, R57, R64: where a word stands at issue in its partition's turn, breaks no rule, waits for nothing and is not compared, a step is that word's own effect;
an event on the agenda comes first, and with neither the machine takes one of its own steps or lets a cycle pass (log 5). -/
def Obligations.StepRunsWord : Prop :=
  ∀ (s : State),
    (∀ (w : Nat) (wp : Warp) (cl : Clause) (word : DWord) (rest : List DWord) (i : Instr) (x : Iss), s.agenda = [] → s.cur = some w →
      s.warps[w]? = some wp → wp.clause = some cl → cl.words = word :: rest → cl.waits = false → wp.pend = [] → wp.orphans = [] → wp.nextIssue ≤ s.clk.cyc →
      s.issueFrom wp (Forms.uniform (wp.width == 64) i) ≤ s.clk.cyc →
      s.clk.tickAcc < s.clk.coreMHz → s.clk.uAcc < s.clk.coreMHz → decode word = .ok i → Forms.launchCodes (s.limitsOf wp) i = [] →
      placeCodes cl.hdr.cls (rest == []) i = [] → s.iss i = some x → wp.wctl.getLsbD 0 = false → cl.hdr.check = false →
      wp.ctrFull (ctrOfWord i) = false → s.octave wp = false → x.pipe i = none → step s = exec (s.rowOf x i) s) ∧
    (∀ i rest, s.agenda = i :: rest → Forms.isWord i = false → step s = exec i { s with agenda := rest }) ∧
    (s.agenda = [] → s.cur = none → (∃ i ∈ s.ownSteps, ∃ t, exec i s = .next t ∧ t ≠ s ∧ step s = .next t) ∨ step s = .next (s.advance 1))

/-- What `withFetchWord` places is the next word to issue: from the state after reset, a step runs any word that decodes and fits 512
registers and 64 tiles (log 16). -/
def Obligations.FetchedWordRuns : Prop :=
  ∀ (n : Nat) (i : Instr), decodeTableWord 64 n = some i → n < 2 ^ 64 → Forms.launchCodes ⟨32, 512, 512, 64⟩ i = [] →
    ∃ p, step (State.reset.withFetchWord 64 n) = exec i { State.reset.withFetchWord 64 n with pipes_ := p }

/-- No step stops the machine: every step of every state has a next state. -/
def Obligations.StepNeverStops : Prop := ∀ s : State, Goes (step s)

/-- R206, R284, R333, R342, R358, R376, R386: what the registers hold after reset: the hold bounds, GRACE and DRAINBUD, disabled launch queues
with MinClass 3, functions without a context and CoalCount 1, tenant partitions that are not valid, and the supervisor context alone.
That LQBASE, LQTAIL, LQHEAD, LQERR, SLICELEN and SLICEDESC are 0 is the model's choice (log 14), and that placement is open its reading (log 5). -/
def Obligations.ResetValues : Prop :=
  State.reset.holds = List.replicate 7 (BitVec.ofNat 32 (128 * 2 ^ 16 + 512)) ∧ State.reset.grace = 2000 ∧ State.reset.drainbud = 500 ∧
  (∀ q ∈ State.reset.queues, q.ctl = BitVec.ofNat 64 (3 * 2 ^ 6) ∧ q.base = 0 ∧ q.tail = 0 ∧ q.head = 0 ∧ q.err = 0) ∧
  State.reset.queues.length = 256 ∧ (∀ t ∈ State.reset.tenparts, t = 0) ∧ State.reset.tenparts.length = 32 ∧
  (∀ f ∈ State.reset.fns, f.cfg = BitVec.ofNat 64 (1 * 2 ^ 10)) ∧ State.reset.fns.length = 64 ∧
  (∀ d ∈ State.reset.dies, d.hbm = 0 ∧ d.lp = 0 ∧ d.lpBlocks = 0 ∧ d.window = 0 ∧ d.movectl = 0 ∧ d.fabric = [] ∧
    ∀ k ∈ d.keeps, k.valid = false ∧ k.overflow = 0) ∧ State.reset.dies.length = 4 ∧
  (∃ c, State.reset.ctxs = [c] ∧ c.sup = true ∧ c.ptbase = 0 ∧ c.fqbase = 0 ∧ c.fqhead = 0 ∧ c.fqtail = 0 ∧ c.taskring = 0 ∧ c.sharedom = 0 ∧
    c.keepallot = 0 ∧ c.slicelen = 0 ∧ c.slicedesc = 0 ∧ c.throttled = 0) ∧
  State.reset.launches = [] ∧ State.reset.warps = [] ∧ State.reset.clk.tick = 0 ∧ State.reset.opened = true

namespace Sys2Proof.Claims

/-- Requests, and those that saved images hold. -/
def numbered (s : State) : List Req := s.reqs ++ s.images.flatMap (·.reqs)

/-- Each request has a number of its own, below the next one to be given out, and so has each pre-emption. -/
def Numbered (s : State) : Prop :=
  ((numbered s).map (·.id)).Nodup ∧ (∀ r ∈ numbered s, r.id < s.nextId) ∧ (s.preempts.map (·.id)).Nodup ∧ ∀ p ∈ s.preempts, p.id < s.nextId

end Sys2Proof.Claims

/-- After reset memory is in its canonical form, and the numbers of requests and pre-emptions are their own (R386; the forms are the model's). -/
def Obligations.ResetKeepsForms : Prop := MemOk State.reset ∧ Numbered State.reset ∧ Fresh State.reset

/-- Memory keeps its canonical form in every step: addresses rise, and no cell holds what an unlisted address reads as. -/
def Obligations.StepKeepsMemoryForm : Prop := ∀ s t : State, MemOk s → step s = .next t → MemOk t

/-- Every step keeps the numbers of requests and pre-emptions their own: no two of them share a number, so that a reply or an event that
names a request names one lane's access (R204, R210, R212). -/
def Obligations.StepKeepsNumbers : Prop := ∀ s t : State, Numbered s → step s = .next t → Numbered t
end

