-- ==== Sys2Proof/Laws/Encoding.lean ====
section
/-! SUPPORT. The formats of R47 read back the fields they were made from, and the field codes of R48 to R56 read back their values. -/

namespace Sys2Proof.Decode

open Forms

/-! ### Field codes -/

theorem regCode_lt (r : Reg) : regCode r < 1024 := by cases r <;> simp only [regCode] <;> omega
@[simp] theorem regOf_regCode (r : Reg) : regOf (regCode r) = r := by
  obtain i | i := r <;> obtain ⟨i, hi⟩ := i
  · have h : regCode (.v ⟨i, hi⟩) = i := rfl
    rw [h, regOf, if_pos hi]
    simp [Fin.ofNat, Nat.mod_eq_of_lt hi]
  · have h : regCode (.s ⟨i, hi⟩) = 512 + i := rfl
    rw [h, regOf, if_neg (by omega)]
    simp [Fin.ofNat, Nat.mod_eq_of_lt hi]
theorem guardCode_lt (g : Guard) : guardCode g < 16 := by
  obtain ⟨n, q⟩ := g; revert n q; decide
@[simp] theorem guardOf_guardCode (g : Guard) : guardOf (guardCode g) = g := by
  obtain ⟨n, q⟩ := g; revert n q; decide
theorem ctrCode_lt (c : Option (Fin 8)) : ctrCode c < 16 := by
  cases c <;> simp only [ctrCode] <;> omega
@[simp] theorem ctrOf_ctrCode (c : Option (Fin 8)) : ctrOf (ctrCode c) = c := by revert c; decide
theorem tyCode_lt (t : Ty) : tyCode t < 13 := by cases t <;> decide
@[simp] theorem tyOf_tyCode (t : Ty) : tyOf (tyCode t) = t := by cases t <;> rfl
theorem ftyCode_lt (t : FTy) : ftyCode t < 4 := by cases t <;> decide
@[simp] theorem ftyOf_ftyCode (t : FTy) : ftyOf (ftyCode t) = t := by cases t <;> rfl
theorem mtyCode_lt (t : MTy) : mtyCode t < 12 := by cases t <;> decide
@[simp] theorem mtyOf_mtyCode (t : MTy) : mtyOf (mtyCode t) = t := by cases t <;> rfl
theorem rndCode_lt (r : Rnd) : rndCode r < 4 := by cases r <;> decide
@[simp] theorem rndOf_rndCode (r : Rnd) : rndOf (rndCode r) = r := by cases r <;> rfl
theorem cmpCode_lt (k : Cmp) : cmpCode k < 6 := by cases k <;> decide
@[simp] theorem cmpOf_cmpCode (k : Cmp) : cmpOf (cmpCode k) = k := by cases k <;> rfl
theorem scopeCode_lt (c : Scope) : scopeCode c < 5 := by cases c <;> decide
@[simp] theorem scopeOf_scopeCode (c : Scope) : scopeOf (scopeCode c) = c := by cases c <;> rfl
theorem orderCode_lt (o : Order) : orderCode o < 4 := by cases o <;> decide
@[simp] theorem orderOf_orderCode (o : Order) : orderOf (orderCode o) = o := by cases o <;> rfl
theorem hintCode_lt (h : Hint) : hintCode h < 5 := by cases h <;> decide
@[simp] theorem hintOf_hintCode (h : Hint) : hintOf (hintCode h) = h := by cases h <;> rfl
theorem aopCode_lt (o : AtomOp) : aopCode o < 12 := by cases o <;> decide
@[simp] theorem aopOf_aopCode (o : AtomOp) : aopOf (aopCode o) = o := by cases o <;> rfl
theorem widthCode_lt (w : AWidth) : widthCode w < 4 := by cases w <;> decide
@[simp] theorem widthOf_widthCode (w : AWidth) : widthOf (widthCode w) = w := by cases w <;> rfl
theorem shflCode_lt (m : ShflMode) : shflCode m < 4 := by cases m <;> decide
@[simp] theorem shflOf_shflCode (m : ShflMode) : shflOf (shflCode m) = m := by cases m <;> rfl
theorem scanCode_lt (o : ScanOp) : scanCode o < 4 := by cases o <;> decide
@[simp] theorem scanOf_scanCode (o : ScanOp) : scanOf (scanCode o) = o := by cases o <;> rfl
theorem lanesCode_lt (m : LanesMode) : lanesCode m < 4 := by cases m <;> decide
@[simp] theorem lanesOf_lanesCode (m : LanesMode) : lanesOf (lanesCode m) = m := by cases m <;> rfl
theorem condCode_lt (k : BrCond) : condCode k < 4 := by cases k <;> decide
@[simp] theorem condOf_condCode (k : BrCond) : condOf (condCode k) = k := by cases k <;> rfl
theorem bit_lt (b : Bool) : bit b < 2 := by cases b <;> decide
@[simp] theorem bit_beq_one (b : Bool) : (bit b == 1) = b := by cases b <;> rfl
@[simp] theorem ofNat_val {n : Nat} [NeZero n] (i : Fin n) : Fin.ofNat n i.val = i := by
  apply Fin.ext; simp [Fin.ofNat, Nat.mod_eq_of_lt i.isLt]

/-! ### The formats -/

def VF.ok (f : VF) : Prop :=
  f.op < 256 ∧ f.dst < 1024 ∧ f.a < 1024 ∧ f.b < 1024 ∧ f.c < 1024 ∧ f.var < 16 ∧ f.pred < 16 ∧ f.hold < 4 ∧ f.ext < 4 ∧
    f.stall < 16
theorem vWord_lt {f : VF} (h : f.ok) : vWord f < 2 ^ 64 := by
  simp only [VF.ok] at h; simp only [vWord]; omega
theorem vOf_vWord {f : VF} (h : f.ok) : vOf (vWord f) = f := by
  obtain ⟨op, dst, a, b, c, var, pred, hold, ext, stall⟩ := f
  simp only [VF.ok] at h
  simp only [vOf, vWord, VF.mk.injEq]
  refine ⟨?_, ?_, ?_, ?_, ?_, ?_, ?_, ?_, ?_, ?_⟩ <;> omega

def IF.ok (f : IF) : Prop := f.op < 256 ∧ f.dst < 1024 ∧ f.a < 1024 ∧ f.imm < 2 ^ 32 ∧ f.stall < 16
theorem iWord_lt {f : IF} (h : f.ok) : iWord f < 2 ^ 64 := by
  simp only [IF.ok] at h; simp only [iWord]; omega
theorem iOf_iWord {f : IF} (h : f.ok) : iOf (iWord f) = f := by
  obtain ⟨op, dst, a, imm, stall⟩ := f
  simp only [IF.ok] at h
  simp only [iOf, iWord, IF.mk.injEq]
  refine ⟨?_, ?_, ?_, ?_, ?_⟩ <;> omega

def MF.ok (f : MF) : Prop :=
  f.op < 256 ∧ f.data < 1024 ∧ f.addr < 1024 ∧ f.off < 4096 ∧ f.ty < 16 ∧ f.scope < 8 ∧ f.order < 4 ∧ f.hint < 8 ∧
    f.pred < 16 ∧ f.ctr < 16 ∧ f.stall < 16
theorem mWord_lt {f : MF} (h : f.ok) : mWord f < 2 ^ 64 := by
  simp only [MF.ok] at h; simp only [mWord]; omega
theorem mOf_mWord {f : MF} (h : f.ok) : mOf (mWord f) = f := by
  obtain ⟨op, data, addr, off, ty, scope, order, hint, pred, ctr, stall⟩ := f
  simp only [MF.ok] at h
  simp only [mOf, mWord, MF.mk.injEq]
  refine ⟨?_, ?_, ?_, ?_, ?_, ?_, ?_, ?_, ?_, ?_, ?_⟩ <;> omega

def AF.ok (f : AF) : Prop :=
  f.op < 256 ∧ f.dst < 1024 ∧ f.addr < 1024 ∧ f.data < 1024 ∧ f.aop < 16 ∧ f.width < 4 ∧ f.scope < 8 ∧ f.order < 4 ∧
    f.hint < 8 ∧ f.pred < 16 ∧ f.ctr < 16 ∧ f.stall < 16
theorem aWord_lt {f : AF} (h : f.ok) : aWord f < 2 ^ 64 := by
  simp only [AF.ok] at h; simp only [aWord]; omega
theorem aOf_aWord {f : AF} (h : f.ok) : aOf (aWord f) = f := by
  obtain ⟨op, dst, addr, data, aop, width, scope, order, hint, pred, ctr, stall⟩ := f
  simp only [AF.ok] at h
  simp only [aOf, aWord, AF.mk.injEq]
  refine ⟨?_, ?_, ?_, ?_, ?_, ?_, ?_, ?_, ?_, ?_, ?_, ?_⟩ <;> omega

def XF.ok (f : XF) : Prop :=
  f.op < 256 ∧ f.a < 1024 ∧ f.b < 1024 ∧ f.c < 1024 ∧ f.d < 1024 ∧ f.slot < 8 ∧ f.sub < 2 ∧ f.pred < 16 ∧ f.ctr < 16 ∧
    f.stall < 16
theorem xWord_lt {f : XF} (h : f.ok) : xWord f < 2 ^ 64 := by
  simp only [XF.ok] at h; simp only [xWord]; omega
theorem xOf_xWord {f : XF} (h : f.ok) : xOf (xWord f) = f := by
  obtain ⟨op, a, b, c, d, slot, sub, pred, ctr, stall⟩ := f
  simp only [XF.ok] at h
  simp only [xOf, xWord, XF.mk.injEq]
  refine ⟨?_, ?_, ?_, ?_, ?_, ?_, ?_, ?_, ?_, ?_⟩ <;> omega

def CF.ok (f : CF) : Prop :=
  f.op < 256 ∧ f.reg < 1024 ∧ f.off < 2 ^ 32 ∧ f.kind < 4 ∧ f.pred < 16 ∧ f.rej < 16 ∧ f.stall < 16
theorem cWord_lt {f : CF} (h : f.ok) : cWord f < 2 ^ 64 := by
  simp only [CF.ok] at h; simp only [cWord]; omega
theorem cOf_cWord {f : CF} (h : f.ok) : cOf (cWord f) = f := by
  obtain ⟨op, reg, off, kind, pred, rej, stall⟩ := f
  simp only [CF.ok] at h
  simp only [cOf, cWord, CF.mk.injEq]
  refine ⟨?_, ?_, ?_, ?_, ?_, ?_, ?_⟩ <;> omega

def SF.ok (f : SF) : Prop :=
  f.op < 256 ∧ f.dst < 1024 ∧ f.a < 1024 ∧ f.sel < 2 ^ 20 ∧ f.var < 16 ∧ f.pred < 16 ∧ f.low < 16 ∧ f.stall < 16
theorem sWord_lt {f : SF} (h : f.ok) : sWord f < 2 ^ 64 := by
  simp only [SF.ok] at h; simp only [sWord]; omega
theorem sOf_sWord {f : SF} (h : f.ok) : sOf (sWord f) = f := by
  obtain ⟨op, dst, a, sel, var, pred, low, stall⟩ := f
  simp only [SF.ok] at h
  simp only [sOf, sWord, SF.mk.injEq]
  refine ⟨?_, ?_, ?_, ?_, ?_, ?_, ?_, ?_⟩ <;> omega

end Sys2Proof.Decode
end

