-- ==== Sys2Proof/Laws/State.lean ====
section
/-! SUPPORT. What each named update of the state leaves in each field, one lemma per field, so that no proof unfolds a record update. -/

namespace Sys2Proof.Machine

@[simp] theorem State.modWarp_agenda (s : State) (w : Nat) (f : Warp → Warp) : (s.modWarp w f).agenda = s.agenda := rfl
@[simp] theorem State.modWarp_cur (s : State) (w : Nat) (f : Warp → Warp) : (s.modWarp w f).cur = s.cur := rfl
@[simp] theorem State.modWarp_free (s : State) (w : Nat) (f : Warp → Warp) : (s.modWarp w f).free = s.free := rfl
@[simp] theorem State.modWarp_nextId (s : State) (w : Nat) (f : Warp → Warp) : (s.modWarp w f).nextId = s.nextId := rfl
@[simp] theorem State.modWarp_clk (s : State) (w : Nat) (f : Warp → Warp) : (s.modWarp w f).clk = s.clk := rfl
@[simp] theorem State.modWarp_moduleForm (s : State) (w : Nat) (f : Warp → Warp) : (s.modWarp w f).moduleForm = s.moduleForm := rfl
@[simp] theorem State.modWarp_boot (s : State) (w : Nat) (f : Warp → Warp) : (s.modWarp w f).boot = s.boot := rfl
@[simp] theorem State.modWarp_opened (s : State) (w : Nat) (f : Warp → Warp) : (s.modWarp w f).opened = s.opened := rfl
@[simp] theorem State.modWarp_thermal (s : State) (w : Nat) (f : Warp → Warp) : (s.modWarp w f).thermal = s.thermal := rfl
@[simp] theorem State.modWarp_excess (s : State) (w : Nat) (f : Warp → Warp) : (s.modWarp w f).excess = s.excess := rfl
@[simp] theorem State.modWarp_alarm (s : State) (w : Nat) (f : Warp → Warp) : (s.modWarp w f).alarm = s.alarm := rfl
@[simp] theorem State.modWarp_log (s : State) (w : Nat) (f : Warp → Warp) : (s.modWarp w f).log = s.log := rfl
@[simp] theorem State.modWarp_trips (s : State) (w : Nat) (f : Warp → Warp) : (s.modWarp w f).trips = s.trips := rfl
@[simp] theorem State.modWarp_poison (s : State) (w : Nat) (f : Warp → Warp) : (s.modWarp w f).poison = s.poison := rfl
@[simp] theorem State.modWarp_measured (s : State) (w : Nat) (f : Warp → Warp) : (s.modWarp w f).measured = s.measured := rfl
@[simp] theorem State.modWarp_fuses (s : State) (w : Nat) (f : Warp → Warp) : (s.modWarp w f).fuses = s.fuses := rfl
@[simp] theorem State.modWarp_dies (s : State) (w : Nat) (f : Warp → Warp) : (s.modWarp w f).dies = s.dies := rfl
@[simp] theorem State.modWarp_ports (s : State) (w : Nat) (f : Warp → Warp) : (s.modWarp w f).ports = s.ports := rfl
@[simp] theorem State.modWarp_lanemap (s : State) (w : Nat) (f : Warp → Warp) : (s.modWarp w f).lanemap = s.lanemap := rfl
@[simp] theorem State.modWarp_issued (s : State) (w : Nat) (f : Warp → Warp) : (s.modWarp w f).issued = s.issued := rfl
@[simp] theorem State.modWarp_pipes_ (s : State) (w : Nat) (f : Warp → Warp) : (s.modWarp w f).pipes_ = s.pipes_ := rfl
@[simp] theorem State.modWarp_holds (s : State) (w : Nat) (f : Warp → Warp) : (s.modWarp w f).holds = s.holds := rfl
@[simp] theorem State.modWarp_grace (s : State) (w : Nat) (f : Warp → Warp) : (s.modWarp w f).grace = s.grace := rfl
@[simp] theorem State.modWarp_drainbud (s : State) (w : Nat) (f : Warp → Warp) : (s.modWarp w f).drainbud = s.drainbud := rfl
@[simp] theorem State.modWarp_forward (s : State) (w : Nat) (f : Warp → Warp) : (s.modWarp w f).forward = s.forward := rfl
@[simp] theorem State.modWarp_mem (s : State) (w : Nat) (f : Warp → Warp) : (s.modWarp w f).mem = s.mem := rfl
@[simp] theorem State.modWarp_memkey (s : State) (w : Nat) (f : Warp → Warp) : (s.modWarp w f).memkey = s.memkey := rfl
@[simp] theorem State.modWarp_lines (s : State) (w : Nat) (f : Warp → Warp) : (s.modWarp w f).lines = s.lines := rfl
@[simp] theorem State.modWarp_wbs (s : State) (w : Nat) (f : Warp → Warp) : (s.modWarp w f).wbs = s.wbs := rfl
@[simp] theorem State.modWarp_peerWrites (s : State) (w : Nat) (f : Warp → Warp) : (s.modWarp w f).peerWrites = s.peerWrites := rfl
@[simp] theorem State.modWarp_ccache (s : State) (w : Nat) (f : Warp → Warp) : (s.modWarp w f).ccache = s.ccache := rfl
@[simp] theorem State.modWarp_tlb (s : State) (w : Nat) (f : Warp → Warp) : (s.modWarp w f).tlb = s.tlb := rfl
@[simp] theorem State.modWarp_walks (s : State) (w : Nat) (f : Warp → Warp) : (s.modWarp w f).walks = s.walks := rfl
@[simp] theorem State.modWarp_wfaults (s : State) (w : Nat) (f : Warp → Warp) : (s.modWarp w f).wfaults = s.wfaults := rfl
@[simp] theorem State.modWarp_heldBy (s : State) (w : Nat) (f : Warp → Warp) : (s.modWarp w f).heldBy = s.heldBy := rfl
@[simp] theorem State.modWarp_reqs (s : State) (w : Nat) (f : Warp → Warp) : (s.modWarp w f).reqs = s.reqs := rfl
@[simp] theorem State.modWarp_probes (s : State) (w : Nat) (f : Warp → Warp) : (s.modWarp w f).probes = s.probes := rfl
@[simp] theorem State.modWarp_served_ (s : State) (w : Nat) (f : Warp → Warp) : (s.modWarp w f).served_ = s.served_ := rfl
@[simp] theorem State.modWarp_turns (s : State) (w : Nat) (f : Warp → Warp) : (s.modWarp w f).turns = s.turns := rfl
@[simp] theorem State.modWarp_ctxs (s : State) (w : Nat) (f : Warp → Warp) : (s.modWarp w f).ctxs = s.ctxs := rfl
@[simp] theorem State.modWarp_queues (s : State) (w : Nat) (f : Warp → Warp) : (s.modWarp w f).queues = s.queues := rfl
@[simp] theorem State.modWarp_tenparts (s : State) (w : Nat) (f : Warp → Warp) : (s.modWarp w f).tenparts = s.tenparts := rfl
@[simp] theorem State.modWarp_fns (s : State) (w : Nat) (f : Warp → Warp) : (s.modWarp w f).fns = s.fns := rfl
@[simp] theorem State.modWarp_launches (s : State) (w : Nat) (f : Warp → Warp) : (s.modWarp w f).launches = s.launches := rfl
@[simp] theorem State.modWarp_blocks (s : State) (w : Nat) (f : Warp → Warp) : (s.modWarp w f).blocks = s.blocks := rfl
@[simp] theorem State.modWarp_warps (s : State) (w : Nat) (f : Warp → Warp) : (s.modWarp w f).warps = s.warps.modify w f := rfl
@[simp] theorem State.modWarp_carves (s : State) (w : Nat) (f : Warp → Warp) : (s.modWarp w f).carves = s.carves := rfl
@[simp] theorem State.modWarp_placeq (s : State) (w : Nat) (f : Warp → Warp) : (s.modWarp w f).placeq = s.placeq := rfl
@[simp] theorem State.modWarp_placeFrom (s : State) (w : Nat) (f : Warp → Warp) : (s.modWarp w f).placeFrom = s.placeFrom := rfl
@[simp] theorem State.modWarp_tasks (s : State) (w : Nat) (f : Warp → Warp) : (s.modWarp w f).tasks = s.tasks := rfl
@[simp] theorem State.modWarp_balanced (s : State) (w : Nat) (f : Warp → Warp) : (s.modWarp w f).balanced = s.balanced := rfl
@[simp] theorem State.modWarp_depths (s : State) (w : Nat) (f : Warp → Warp) : (s.modWarp w f).depths = s.depths := rfl
@[simp] theorem State.modWarp_lastDisp (s : State) (w : Nat) (f : Warp → Warp) : (s.modWarp w f).lastDisp = s.lastDisp := rfl
@[simp] theorem State.modWarp_copies (s : State) (w : Nat) (f : Warp → Warp) : (s.modWarp w f).copies = s.copies := rfl
@[simp] theorem State.modWarp_mcasts (s : State) (w : Nat) (f : Warp → Warp) : (s.modWarp w f).mcasts = s.mcasts := rfl
@[simp] theorem State.modWarp_mx (s : State) (w : Nat) (f : Warp → Warp) : (s.modWarp w f).mx = s.mx := rfl
@[simp] theorem State.modWarp_lastMx (s : State) (w : Nat) (f : Warp → Warp) : (s.modWarp w f).lastMx = s.lastMx := rfl
@[simp] theorem State.modWarp_poolBy (s : State) (w : Nat) (f : Warp → Warp) : (s.modWarp w f).poolBy = s.poolBy := rfl
@[simp] theorem State.modWarp_rings (s : State) (w : Nat) (f : Warp → Warp) : (s.modWarp w f).rings = s.rings := rfl
@[simp] theorem State.modWarp_stages (s : State) (w : Nat) (f : Warp → Warp) : (s.modWarp w f).stages = s.stages := rfl
@[simp] theorem State.modWarp_pipes (s : State) (w : Nat) (f : Warp → Warp) : (s.modWarp w f).pipes = s.pipes := rfl
@[simp] theorem State.modWarp_groups (s : State) (w : Nat) (f : Warp → Warp) : (s.modWarp w f).groups = s.groups := rfl
@[simp] theorem State.modWarp_preempts (s : State) (w : Nat) (f : Warp → Warp) : (s.modWarp w f).preempts = s.preempts := rfl
@[simp] theorem State.modWarp_images (s : State) (w : Nat) (f : Warp → Warp) : (s.modWarp w f).images = s.images := rfl
@[simp] theorem State.modWarp_keys (s : State) (w : Nat) (f : Warp → Warp) : (s.modWarp w f).keys = s.keys := rfl
@[simp] theorem State.modWarp_nextKey (s : State) (w : Nat) (f : Warp → Warp) : (s.modWarp w f).nextKey = s.nextKey := rfl
@[simp] theorem State.modWarp_coreOwn (s : State) (w : Nat) (f : Warp → Warp) : (s.modWarp w f).coreOwn = s.coreOwn := rfl
@[simp] theorem State.modWarp_frameOwn (s : State) (w : Nat) (f : Warp → Warp) : (s.modWarp w f).frameOwn = s.frameOwn := rfl
@[simp] theorem State.modWarp_journal (s : State) (w : Nat) (f : Warp → Warp) : (s.modWarp w f).journal = s.journal := rfl
@[simp] theorem State.modWarp_jobs (s : State) (w : Nat) (f : Warp → Warp) : (s.modWarp w f).jobs = s.jobs := rfl
@[simp] theorem State.modWarp_spdm (s : State) (w : Nat) (f : Warp → Warp) : (s.modWarp w f).spdm = s.spdm := rfl
@[simp] theorem State.modWarp_inbound (s : State) (w : Nat) (f : Warp → Warp) : (s.modWarp w f).inbound = s.inbound := rfl
@[simp] theorem State.modWarp_out (s : State) (w : Nat) (f : Warp → Warp) : (s.modWarp w f).out = s.out := rfl

@[simp] theorem State.modBlk_agenda (s : State) (b : Nat) (f : Block → Block) : (s.modBlk b f).agenda = s.agenda := rfl
@[simp] theorem State.modBlk_cur (s : State) (b : Nat) (f : Block → Block) : (s.modBlk b f).cur = s.cur := rfl
@[simp] theorem State.modBlk_free (s : State) (b : Nat) (f : Block → Block) : (s.modBlk b f).free = s.free := rfl
@[simp] theorem State.modBlk_nextId (s : State) (b : Nat) (f : Block → Block) : (s.modBlk b f).nextId = s.nextId := rfl
@[simp] theorem State.modBlk_clk (s : State) (b : Nat) (f : Block → Block) : (s.modBlk b f).clk = s.clk := rfl
@[simp] theorem State.modBlk_moduleForm (s : State) (b : Nat) (f : Block → Block) : (s.modBlk b f).moduleForm = s.moduleForm := rfl
@[simp] theorem State.modBlk_boot (s : State) (b : Nat) (f : Block → Block) : (s.modBlk b f).boot = s.boot := rfl
@[simp] theorem State.modBlk_opened (s : State) (b : Nat) (f : Block → Block) : (s.modBlk b f).opened = s.opened := rfl
@[simp] theorem State.modBlk_thermal (s : State) (b : Nat) (f : Block → Block) : (s.modBlk b f).thermal = s.thermal := rfl
@[simp] theorem State.modBlk_excess (s : State) (b : Nat) (f : Block → Block) : (s.modBlk b f).excess = s.excess := rfl
@[simp] theorem State.modBlk_alarm (s : State) (b : Nat) (f : Block → Block) : (s.modBlk b f).alarm = s.alarm := rfl
@[simp] theorem State.modBlk_log (s : State) (b : Nat) (f : Block → Block) : (s.modBlk b f).log = s.log := rfl
@[simp] theorem State.modBlk_trips (s : State) (b : Nat) (f : Block → Block) : (s.modBlk b f).trips = s.trips := rfl
@[simp] theorem State.modBlk_poison (s : State) (b : Nat) (f : Block → Block) : (s.modBlk b f).poison = s.poison := rfl
@[simp] theorem State.modBlk_measured (s : State) (b : Nat) (f : Block → Block) : (s.modBlk b f).measured = s.measured := rfl
@[simp] theorem State.modBlk_fuses (s : State) (b : Nat) (f : Block → Block) : (s.modBlk b f).fuses = s.fuses := rfl
@[simp] theorem State.modBlk_dies (s : State) (b : Nat) (f : Block → Block) : (s.modBlk b f).dies = s.dies := rfl
@[simp] theorem State.modBlk_ports (s : State) (b : Nat) (f : Block → Block) : (s.modBlk b f).ports = s.ports := rfl
@[simp] theorem State.modBlk_lanemap (s : State) (b : Nat) (f : Block → Block) : (s.modBlk b f).lanemap = s.lanemap := rfl
@[simp] theorem State.modBlk_issued (s : State) (b : Nat) (f : Block → Block) : (s.modBlk b f).issued = s.issued := rfl
@[simp] theorem State.modBlk_pipes_ (s : State) (b : Nat) (f : Block → Block) : (s.modBlk b f).pipes_ = s.pipes_ := rfl
@[simp] theorem State.modBlk_holds (s : State) (b : Nat) (f : Block → Block) : (s.modBlk b f).holds = s.holds := rfl
@[simp] theorem State.modBlk_grace (s : State) (b : Nat) (f : Block → Block) : (s.modBlk b f).grace = s.grace := rfl
@[simp] theorem State.modBlk_drainbud (s : State) (b : Nat) (f : Block → Block) : (s.modBlk b f).drainbud = s.drainbud := rfl
@[simp] theorem State.modBlk_forward (s : State) (b : Nat) (f : Block → Block) : (s.modBlk b f).forward = s.forward := rfl
@[simp] theorem State.modBlk_mem (s : State) (b : Nat) (f : Block → Block) : (s.modBlk b f).mem = s.mem := rfl
@[simp] theorem State.modBlk_memkey (s : State) (b : Nat) (f : Block → Block) : (s.modBlk b f).memkey = s.memkey := rfl
@[simp] theorem State.modBlk_lines (s : State) (b : Nat) (f : Block → Block) : (s.modBlk b f).lines = s.lines := rfl
@[simp] theorem State.modBlk_wbs (s : State) (b : Nat) (f : Block → Block) : (s.modBlk b f).wbs = s.wbs := rfl
@[simp] theorem State.modBlk_peerWrites (s : State) (b : Nat) (f : Block → Block) : (s.modBlk b f).peerWrites = s.peerWrites := rfl
@[simp] theorem State.modBlk_ccache (s : State) (b : Nat) (f : Block → Block) : (s.modBlk b f).ccache = s.ccache := rfl
@[simp] theorem State.modBlk_tlb (s : State) (b : Nat) (f : Block → Block) : (s.modBlk b f).tlb = s.tlb := rfl
@[simp] theorem State.modBlk_walks (s : State) (b : Nat) (f : Block → Block) : (s.modBlk b f).walks = s.walks := rfl
@[simp] theorem State.modBlk_wfaults (s : State) (b : Nat) (f : Block → Block) : (s.modBlk b f).wfaults = s.wfaults := rfl
@[simp] theorem State.modBlk_heldBy (s : State) (b : Nat) (f : Block → Block) : (s.modBlk b f).heldBy = s.heldBy := rfl
@[simp] theorem State.modBlk_reqs (s : State) (b : Nat) (f : Block → Block) : (s.modBlk b f).reqs = s.reqs := rfl
@[simp] theorem State.modBlk_probes (s : State) (b : Nat) (f : Block → Block) : (s.modBlk b f).probes = s.probes := rfl
@[simp] theorem State.modBlk_served_ (s : State) (b : Nat) (f : Block → Block) : (s.modBlk b f).served_ = s.served_ := rfl
@[simp] theorem State.modBlk_turns (s : State) (b : Nat) (f : Block → Block) : (s.modBlk b f).turns = s.turns := rfl
@[simp] theorem State.modBlk_ctxs (s : State) (b : Nat) (f : Block → Block) : (s.modBlk b f).ctxs = s.ctxs := rfl
@[simp] theorem State.modBlk_queues (s : State) (b : Nat) (f : Block → Block) : (s.modBlk b f).queues = s.queues := rfl
@[simp] theorem State.modBlk_tenparts (s : State) (b : Nat) (f : Block → Block) : (s.modBlk b f).tenparts = s.tenparts := rfl
@[simp] theorem State.modBlk_fns (s : State) (b : Nat) (f : Block → Block) : (s.modBlk b f).fns = s.fns := rfl
@[simp] theorem State.modBlk_launches (s : State) (b : Nat) (f : Block → Block) : (s.modBlk b f).launches = s.launches := rfl
@[simp] theorem State.modBlk_blocks (s : State) (b : Nat) (f : Block → Block) : (s.modBlk b f).blocks = s.blocks.modify b f := rfl
@[simp] theorem State.modBlk_warps (s : State) (b : Nat) (f : Block → Block) : (s.modBlk b f).warps = s.warps := rfl
@[simp] theorem State.modBlk_carves (s : State) (b : Nat) (f : Block → Block) : (s.modBlk b f).carves = s.carves := rfl
@[simp] theorem State.modBlk_placeq (s : State) (b : Nat) (f : Block → Block) : (s.modBlk b f).placeq = s.placeq := rfl
@[simp] theorem State.modBlk_placeFrom (s : State) (b : Nat) (f : Block → Block) : (s.modBlk b f).placeFrom = s.placeFrom := rfl
@[simp] theorem State.modBlk_tasks (s : State) (b : Nat) (f : Block → Block) : (s.modBlk b f).tasks = s.tasks := rfl
@[simp] theorem State.modBlk_balanced (s : State) (b : Nat) (f : Block → Block) : (s.modBlk b f).balanced = s.balanced := rfl
@[simp] theorem State.modBlk_depths (s : State) (b : Nat) (f : Block → Block) : (s.modBlk b f).depths = s.depths := rfl
@[simp] theorem State.modBlk_lastDisp (s : State) (b : Nat) (f : Block → Block) : (s.modBlk b f).lastDisp = s.lastDisp := rfl
@[simp] theorem State.modBlk_copies (s : State) (b : Nat) (f : Block → Block) : (s.modBlk b f).copies = s.copies := rfl
@[simp] theorem State.modBlk_mcasts (s : State) (b : Nat) (f : Block → Block) : (s.modBlk b f).mcasts = s.mcasts := rfl
@[simp] theorem State.modBlk_mx (s : State) (b : Nat) (f : Block → Block) : (s.modBlk b f).mx = s.mx := rfl
@[simp] theorem State.modBlk_lastMx (s : State) (b : Nat) (f : Block → Block) : (s.modBlk b f).lastMx = s.lastMx := rfl
@[simp] theorem State.modBlk_poolBy (s : State) (b : Nat) (f : Block → Block) : (s.modBlk b f).poolBy = s.poolBy := rfl
@[simp] theorem State.modBlk_rings (s : State) (b : Nat) (f : Block → Block) : (s.modBlk b f).rings = s.rings := rfl
@[simp] theorem State.modBlk_stages (s : State) (b : Nat) (f : Block → Block) : (s.modBlk b f).stages = s.stages := rfl
@[simp] theorem State.modBlk_pipes (s : State) (b : Nat) (f : Block → Block) : (s.modBlk b f).pipes = s.pipes := rfl
@[simp] theorem State.modBlk_groups (s : State) (b : Nat) (f : Block → Block) : (s.modBlk b f).groups = s.groups := rfl
@[simp] theorem State.modBlk_preempts (s : State) (b : Nat) (f : Block → Block) : (s.modBlk b f).preempts = s.preempts := rfl
@[simp] theorem State.modBlk_images (s : State) (b : Nat) (f : Block → Block) : (s.modBlk b f).images = s.images := rfl
@[simp] theorem State.modBlk_keys (s : State) (b : Nat) (f : Block → Block) : (s.modBlk b f).keys = s.keys := rfl
@[simp] theorem State.modBlk_nextKey (s : State) (b : Nat) (f : Block → Block) : (s.modBlk b f).nextKey = s.nextKey := rfl
@[simp] theorem State.modBlk_coreOwn (s : State) (b : Nat) (f : Block → Block) : (s.modBlk b f).coreOwn = s.coreOwn := rfl
@[simp] theorem State.modBlk_frameOwn (s : State) (b : Nat) (f : Block → Block) : (s.modBlk b f).frameOwn = s.frameOwn := rfl
@[simp] theorem State.modBlk_journal (s : State) (b : Nat) (f : Block → Block) : (s.modBlk b f).journal = s.journal := rfl
@[simp] theorem State.modBlk_jobs (s : State) (b : Nat) (f : Block → Block) : (s.modBlk b f).jobs = s.jobs := rfl
@[simp] theorem State.modBlk_spdm (s : State) (b : Nat) (f : Block → Block) : (s.modBlk b f).spdm = s.spdm := rfl
@[simp] theorem State.modBlk_inbound (s : State) (b : Nat) (f : Block → Block) : (s.modBlk b f).inbound = s.inbound := rfl
@[simp] theorem State.modBlk_out (s : State) (b : Nat) (f : Block → Block) : (s.modBlk b f).out = s.out := rfl

@[simp] theorem State.modLaunch_agenda (s : State) (l : Nat) (f : Launch → Launch) : (s.modLaunch l f).agenda = s.agenda := rfl
@[simp] theorem State.modLaunch_cur (s : State) (l : Nat) (f : Launch → Launch) : (s.modLaunch l f).cur = s.cur := rfl
@[simp] theorem State.modLaunch_free (s : State) (l : Nat) (f : Launch → Launch) : (s.modLaunch l f).free = s.free := rfl
@[simp] theorem State.modLaunch_nextId (s : State) (l : Nat) (f : Launch → Launch) : (s.modLaunch l f).nextId = s.nextId := rfl
@[simp] theorem State.modLaunch_clk (s : State) (l : Nat) (f : Launch → Launch) : (s.modLaunch l f).clk = s.clk := rfl
@[simp] theorem State.modLaunch_moduleForm (s : State) (l : Nat) (f : Launch → Launch) : (s.modLaunch l f).moduleForm = s.moduleForm := rfl
@[simp] theorem State.modLaunch_boot (s : State) (l : Nat) (f : Launch → Launch) : (s.modLaunch l f).boot = s.boot := rfl
@[simp] theorem State.modLaunch_opened (s : State) (l : Nat) (f : Launch → Launch) : (s.modLaunch l f).opened = s.opened := rfl
@[simp] theorem State.modLaunch_thermal (s : State) (l : Nat) (f : Launch → Launch) : (s.modLaunch l f).thermal = s.thermal := rfl
@[simp] theorem State.modLaunch_excess (s : State) (l : Nat) (f : Launch → Launch) : (s.modLaunch l f).excess = s.excess := rfl
@[simp] theorem State.modLaunch_alarm (s : State) (l : Nat) (f : Launch → Launch) : (s.modLaunch l f).alarm = s.alarm := rfl
@[simp] theorem State.modLaunch_log (s : State) (l : Nat) (f : Launch → Launch) : (s.modLaunch l f).log = s.log := rfl
@[simp] theorem State.modLaunch_trips (s : State) (l : Nat) (f : Launch → Launch) : (s.modLaunch l f).trips = s.trips := rfl
@[simp] theorem State.modLaunch_poison (s : State) (l : Nat) (f : Launch → Launch) : (s.modLaunch l f).poison = s.poison := rfl
@[simp] theorem State.modLaunch_measured (s : State) (l : Nat) (f : Launch → Launch) : (s.modLaunch l f).measured = s.measured := rfl
@[simp] theorem State.modLaunch_fuses (s : State) (l : Nat) (f : Launch → Launch) : (s.modLaunch l f).fuses = s.fuses := rfl
@[simp] theorem State.modLaunch_dies (s : State) (l : Nat) (f : Launch → Launch) : (s.modLaunch l f).dies = s.dies := rfl
@[simp] theorem State.modLaunch_ports (s : State) (l : Nat) (f : Launch → Launch) : (s.modLaunch l f).ports = s.ports := rfl
@[simp] theorem State.modLaunch_lanemap (s : State) (l : Nat) (f : Launch → Launch) : (s.modLaunch l f).lanemap = s.lanemap := rfl
@[simp] theorem State.modLaunch_issued (s : State) (l : Nat) (f : Launch → Launch) : (s.modLaunch l f).issued = s.issued := rfl
@[simp] theorem State.modLaunch_pipes_ (s : State) (l : Nat) (f : Launch → Launch) : (s.modLaunch l f).pipes_ = s.pipes_ := rfl
@[simp] theorem State.modLaunch_holds (s : State) (l : Nat) (f : Launch → Launch) : (s.modLaunch l f).holds = s.holds := rfl
@[simp] theorem State.modLaunch_grace (s : State) (l : Nat) (f : Launch → Launch) : (s.modLaunch l f).grace = s.grace := rfl
@[simp] theorem State.modLaunch_drainbud (s : State) (l : Nat) (f : Launch → Launch) : (s.modLaunch l f).drainbud = s.drainbud := rfl
@[simp] theorem State.modLaunch_forward (s : State) (l : Nat) (f : Launch → Launch) : (s.modLaunch l f).forward = s.forward := rfl
@[simp] theorem State.modLaunch_mem (s : State) (l : Nat) (f : Launch → Launch) : (s.modLaunch l f).mem = s.mem := rfl
@[simp] theorem State.modLaunch_memkey (s : State) (l : Nat) (f : Launch → Launch) : (s.modLaunch l f).memkey = s.memkey := rfl
@[simp] theorem State.modLaunch_lines (s : State) (l : Nat) (f : Launch → Launch) : (s.modLaunch l f).lines = s.lines := rfl
@[simp] theorem State.modLaunch_wbs (s : State) (l : Nat) (f : Launch → Launch) : (s.modLaunch l f).wbs = s.wbs := rfl
@[simp] theorem State.modLaunch_peerWrites (s : State) (l : Nat) (f : Launch → Launch) : (s.modLaunch l f).peerWrites = s.peerWrites := rfl
@[simp] theorem State.modLaunch_ccache (s : State) (l : Nat) (f : Launch → Launch) : (s.modLaunch l f).ccache = s.ccache := rfl
@[simp] theorem State.modLaunch_tlb (s : State) (l : Nat) (f : Launch → Launch) : (s.modLaunch l f).tlb = s.tlb := rfl
@[simp] theorem State.modLaunch_walks (s : State) (l : Nat) (f : Launch → Launch) : (s.modLaunch l f).walks = s.walks := rfl
@[simp] theorem State.modLaunch_wfaults (s : State) (l : Nat) (f : Launch → Launch) : (s.modLaunch l f).wfaults = s.wfaults := rfl
@[simp] theorem State.modLaunch_heldBy (s : State) (l : Nat) (f : Launch → Launch) : (s.modLaunch l f).heldBy = s.heldBy := rfl
@[simp] theorem State.modLaunch_reqs (s : State) (l : Nat) (f : Launch → Launch) : (s.modLaunch l f).reqs = s.reqs := rfl
@[simp] theorem State.modLaunch_probes (s : State) (l : Nat) (f : Launch → Launch) : (s.modLaunch l f).probes = s.probes := rfl
@[simp] theorem State.modLaunch_served_ (s : State) (l : Nat) (f : Launch → Launch) : (s.modLaunch l f).served_ = s.served_ := rfl
@[simp] theorem State.modLaunch_turns (s : State) (l : Nat) (f : Launch → Launch) : (s.modLaunch l f).turns = s.turns := rfl
@[simp] theorem State.modLaunch_ctxs (s : State) (l : Nat) (f : Launch → Launch) : (s.modLaunch l f).ctxs = s.ctxs := rfl
@[simp] theorem State.modLaunch_queues (s : State) (l : Nat) (f : Launch → Launch) : (s.modLaunch l f).queues = s.queues := rfl
@[simp] theorem State.modLaunch_tenparts (s : State) (l : Nat) (f : Launch → Launch) : (s.modLaunch l f).tenparts = s.tenparts := rfl
@[simp] theorem State.modLaunch_fns (s : State) (l : Nat) (f : Launch → Launch) : (s.modLaunch l f).fns = s.fns := rfl
@[simp] theorem State.modLaunch_launches (s : State) (l : Nat) (f : Launch → Launch) : (s.modLaunch l f).launches = s.launches.modify l f := rfl
@[simp] theorem State.modLaunch_blocks (s : State) (l : Nat) (f : Launch → Launch) : (s.modLaunch l f).blocks = s.blocks := rfl
@[simp] theorem State.modLaunch_warps (s : State) (l : Nat) (f : Launch → Launch) : (s.modLaunch l f).warps = s.warps := rfl
@[simp] theorem State.modLaunch_carves (s : State) (l : Nat) (f : Launch → Launch) : (s.modLaunch l f).carves = s.carves := rfl
@[simp] theorem State.modLaunch_placeq (s : State) (l : Nat) (f : Launch → Launch) : (s.modLaunch l f).placeq = s.placeq := rfl
@[simp] theorem State.modLaunch_placeFrom (s : State) (l : Nat) (f : Launch → Launch) : (s.modLaunch l f).placeFrom = s.placeFrom := rfl
@[simp] theorem State.modLaunch_tasks (s : State) (l : Nat) (f : Launch → Launch) : (s.modLaunch l f).tasks = s.tasks := rfl
@[simp] theorem State.modLaunch_balanced (s : State) (l : Nat) (f : Launch → Launch) : (s.modLaunch l f).balanced = s.balanced := rfl
@[simp] theorem State.modLaunch_depths (s : State) (l : Nat) (f : Launch → Launch) : (s.modLaunch l f).depths = s.depths := rfl
@[simp] theorem State.modLaunch_lastDisp (s : State) (l : Nat) (f : Launch → Launch) : (s.modLaunch l f).lastDisp = s.lastDisp := rfl
@[simp] theorem State.modLaunch_copies (s : State) (l : Nat) (f : Launch → Launch) : (s.modLaunch l f).copies = s.copies := rfl
@[simp] theorem State.modLaunch_mcasts (s : State) (l : Nat) (f : Launch → Launch) : (s.modLaunch l f).mcasts = s.mcasts := rfl
@[simp] theorem State.modLaunch_mx (s : State) (l : Nat) (f : Launch → Launch) : (s.modLaunch l f).mx = s.mx := rfl
@[simp] theorem State.modLaunch_lastMx (s : State) (l : Nat) (f : Launch → Launch) : (s.modLaunch l f).lastMx = s.lastMx := rfl
@[simp] theorem State.modLaunch_poolBy (s : State) (l : Nat) (f : Launch → Launch) : (s.modLaunch l f).poolBy = s.poolBy := rfl
@[simp] theorem State.modLaunch_rings (s : State) (l : Nat) (f : Launch → Launch) : (s.modLaunch l f).rings = s.rings := rfl
@[simp] theorem State.modLaunch_stages (s : State) (l : Nat) (f : Launch → Launch) : (s.modLaunch l f).stages = s.stages := rfl
@[simp] theorem State.modLaunch_pipes (s : State) (l : Nat) (f : Launch → Launch) : (s.modLaunch l f).pipes = s.pipes := rfl
@[simp] theorem State.modLaunch_groups (s : State) (l : Nat) (f : Launch → Launch) : (s.modLaunch l f).groups = s.groups := rfl
@[simp] theorem State.modLaunch_preempts (s : State) (l : Nat) (f : Launch → Launch) : (s.modLaunch l f).preempts = s.preempts := rfl
@[simp] theorem State.modLaunch_images (s : State) (l : Nat) (f : Launch → Launch) : (s.modLaunch l f).images = s.images := rfl
@[simp] theorem State.modLaunch_keys (s : State) (l : Nat) (f : Launch → Launch) : (s.modLaunch l f).keys = s.keys := rfl
@[simp] theorem State.modLaunch_nextKey (s : State) (l : Nat) (f : Launch → Launch) : (s.modLaunch l f).nextKey = s.nextKey := rfl
@[simp] theorem State.modLaunch_coreOwn (s : State) (l : Nat) (f : Launch → Launch) : (s.modLaunch l f).coreOwn = s.coreOwn := rfl
@[simp] theorem State.modLaunch_frameOwn (s : State) (l : Nat) (f : Launch → Launch) : (s.modLaunch l f).frameOwn = s.frameOwn := rfl
@[simp] theorem State.modLaunch_journal (s : State) (l : Nat) (f : Launch → Launch) : (s.modLaunch l f).journal = s.journal := rfl
@[simp] theorem State.modLaunch_jobs (s : State) (l : Nat) (f : Launch → Launch) : (s.modLaunch l f).jobs = s.jobs := rfl
@[simp] theorem State.modLaunch_spdm (s : State) (l : Nat) (f : Launch → Launch) : (s.modLaunch l f).spdm = s.spdm := rfl
@[simp] theorem State.modLaunch_inbound (s : State) (l : Nat) (f : Launch → Launch) : (s.modLaunch l f).inbound = s.inbound := rfl
@[simp] theorem State.modLaunch_out (s : State) (l : Nat) (f : Launch → Launch) : (s.modLaunch l f).out = s.out := rfl

@[simp] theorem State.modDie_agenda (s : State) (d : Nat) (f : Die → Die) : (s.modDie d f).agenda = s.agenda := rfl
@[simp] theorem State.modDie_cur (s : State) (d : Nat) (f : Die → Die) : (s.modDie d f).cur = s.cur := rfl
@[simp] theorem State.modDie_free (s : State) (d : Nat) (f : Die → Die) : (s.modDie d f).free = s.free := rfl
@[simp] theorem State.modDie_nextId (s : State) (d : Nat) (f : Die → Die) : (s.modDie d f).nextId = s.nextId := rfl
@[simp] theorem State.modDie_clk (s : State) (d : Nat) (f : Die → Die) : (s.modDie d f).clk = s.clk := rfl
@[simp] theorem State.modDie_moduleForm (s : State) (d : Nat) (f : Die → Die) : (s.modDie d f).moduleForm = s.moduleForm := rfl
@[simp] theorem State.modDie_boot (s : State) (d : Nat) (f : Die → Die) : (s.modDie d f).boot = s.boot := rfl
@[simp] theorem State.modDie_opened (s : State) (d : Nat) (f : Die → Die) : (s.modDie d f).opened = s.opened := rfl
@[simp] theorem State.modDie_thermal (s : State) (d : Nat) (f : Die → Die) : (s.modDie d f).thermal = s.thermal := rfl
@[simp] theorem State.modDie_excess (s : State) (d : Nat) (f : Die → Die) : (s.modDie d f).excess = s.excess := rfl
@[simp] theorem State.modDie_alarm (s : State) (d : Nat) (f : Die → Die) : (s.modDie d f).alarm = s.alarm := rfl
@[simp] theorem State.modDie_log (s : State) (d : Nat) (f : Die → Die) : (s.modDie d f).log = s.log := rfl
@[simp] theorem State.modDie_trips (s : State) (d : Nat) (f : Die → Die) : (s.modDie d f).trips = s.trips := rfl
@[simp] theorem State.modDie_poison (s : State) (d : Nat) (f : Die → Die) : (s.modDie d f).poison = s.poison := rfl
@[simp] theorem State.modDie_measured (s : State) (d : Nat) (f : Die → Die) : (s.modDie d f).measured = s.measured := rfl
@[simp] theorem State.modDie_fuses (s : State) (d : Nat) (f : Die → Die) : (s.modDie d f).fuses = s.fuses := rfl
@[simp] theorem State.modDie_dies (s : State) (d : Nat) (f : Die → Die) : (s.modDie d f).dies = s.dies.modify d f := rfl
@[simp] theorem State.modDie_ports (s : State) (d : Nat) (f : Die → Die) : (s.modDie d f).ports = s.ports := rfl
@[simp] theorem State.modDie_lanemap (s : State) (d : Nat) (f : Die → Die) : (s.modDie d f).lanemap = s.lanemap := rfl
@[simp] theorem State.modDie_issued (s : State) (d : Nat) (f : Die → Die) : (s.modDie d f).issued = s.issued := rfl
@[simp] theorem State.modDie_pipes_ (s : State) (d : Nat) (f : Die → Die) : (s.modDie d f).pipes_ = s.pipes_ := rfl
@[simp] theorem State.modDie_holds (s : State) (d : Nat) (f : Die → Die) : (s.modDie d f).holds = s.holds := rfl
@[simp] theorem State.modDie_grace (s : State) (d : Nat) (f : Die → Die) : (s.modDie d f).grace = s.grace := rfl
@[simp] theorem State.modDie_drainbud (s : State) (d : Nat) (f : Die → Die) : (s.modDie d f).drainbud = s.drainbud := rfl
@[simp] theorem State.modDie_forward (s : State) (d : Nat) (f : Die → Die) : (s.modDie d f).forward = s.forward := rfl
@[simp] theorem State.modDie_mem (s : State) (d : Nat) (f : Die → Die) : (s.modDie d f).mem = s.mem := rfl
@[simp] theorem State.modDie_memkey (s : State) (d : Nat) (f : Die → Die) : (s.modDie d f).memkey = s.memkey := rfl
@[simp] theorem State.modDie_lines (s : State) (d : Nat) (f : Die → Die) : (s.modDie d f).lines = s.lines := rfl
@[simp] theorem State.modDie_wbs (s : State) (d : Nat) (f : Die → Die) : (s.modDie d f).wbs = s.wbs := rfl
@[simp] theorem State.modDie_peerWrites (s : State) (d : Nat) (f : Die → Die) : (s.modDie d f).peerWrites = s.peerWrites := rfl
@[simp] theorem State.modDie_ccache (s : State) (d : Nat) (f : Die → Die) : (s.modDie d f).ccache = s.ccache := rfl
@[simp] theorem State.modDie_tlb (s : State) (d : Nat) (f : Die → Die) : (s.modDie d f).tlb = s.tlb := rfl
@[simp] theorem State.modDie_walks (s : State) (d : Nat) (f : Die → Die) : (s.modDie d f).walks = s.walks := rfl
@[simp] theorem State.modDie_wfaults (s : State) (d : Nat) (f : Die → Die) : (s.modDie d f).wfaults = s.wfaults := rfl
@[simp] theorem State.modDie_heldBy (s : State) (d : Nat) (f : Die → Die) : (s.modDie d f).heldBy = s.heldBy := rfl
@[simp] theorem State.modDie_reqs (s : State) (d : Nat) (f : Die → Die) : (s.modDie d f).reqs = s.reqs := rfl
@[simp] theorem State.modDie_probes (s : State) (d : Nat) (f : Die → Die) : (s.modDie d f).probes = s.probes := rfl
@[simp] theorem State.modDie_served_ (s : State) (d : Nat) (f : Die → Die) : (s.modDie d f).served_ = s.served_ := rfl
@[simp] theorem State.modDie_turns (s : State) (d : Nat) (f : Die → Die) : (s.modDie d f).turns = s.turns := rfl
@[simp] theorem State.modDie_ctxs (s : State) (d : Nat) (f : Die → Die) : (s.modDie d f).ctxs = s.ctxs := rfl
@[simp] theorem State.modDie_queues (s : State) (d : Nat) (f : Die → Die) : (s.modDie d f).queues = s.queues := rfl
@[simp] theorem State.modDie_tenparts (s : State) (d : Nat) (f : Die → Die) : (s.modDie d f).tenparts = s.tenparts := rfl
@[simp] theorem State.modDie_fns (s : State) (d : Nat) (f : Die → Die) : (s.modDie d f).fns = s.fns := rfl
@[simp] theorem State.modDie_launches (s : State) (d : Nat) (f : Die → Die) : (s.modDie d f).launches = s.launches := rfl
@[simp] theorem State.modDie_blocks (s : State) (d : Nat) (f : Die → Die) : (s.modDie d f).blocks = s.blocks := rfl
@[simp] theorem State.modDie_warps (s : State) (d : Nat) (f : Die → Die) : (s.modDie d f).warps = s.warps := rfl
@[simp] theorem State.modDie_carves (s : State) (d : Nat) (f : Die → Die) : (s.modDie d f).carves = s.carves := rfl
@[simp] theorem State.modDie_placeq (s : State) (d : Nat) (f : Die → Die) : (s.modDie d f).placeq = s.placeq := rfl
@[simp] theorem State.modDie_placeFrom (s : State) (d : Nat) (f : Die → Die) : (s.modDie d f).placeFrom = s.placeFrom := rfl
@[simp] theorem State.modDie_tasks (s : State) (d : Nat) (f : Die → Die) : (s.modDie d f).tasks = s.tasks := rfl
@[simp] theorem State.modDie_balanced (s : State) (d : Nat) (f : Die → Die) : (s.modDie d f).balanced = s.balanced := rfl
@[simp] theorem State.modDie_depths (s : State) (d : Nat) (f : Die → Die) : (s.modDie d f).depths = s.depths := rfl
@[simp] theorem State.modDie_lastDisp (s : State) (d : Nat) (f : Die → Die) : (s.modDie d f).lastDisp = s.lastDisp := rfl
@[simp] theorem State.modDie_copies (s : State) (d : Nat) (f : Die → Die) : (s.modDie d f).copies = s.copies := rfl
@[simp] theorem State.modDie_mcasts (s : State) (d : Nat) (f : Die → Die) : (s.modDie d f).mcasts = s.mcasts := rfl
@[simp] theorem State.modDie_mx (s : State) (d : Nat) (f : Die → Die) : (s.modDie d f).mx = s.mx := rfl
@[simp] theorem State.modDie_lastMx (s : State) (d : Nat) (f : Die → Die) : (s.modDie d f).lastMx = s.lastMx := rfl
@[simp] theorem State.modDie_poolBy (s : State) (d : Nat) (f : Die → Die) : (s.modDie d f).poolBy = s.poolBy := rfl
@[simp] theorem State.modDie_rings (s : State) (d : Nat) (f : Die → Die) : (s.modDie d f).rings = s.rings := rfl
@[simp] theorem State.modDie_stages (s : State) (d : Nat) (f : Die → Die) : (s.modDie d f).stages = s.stages := rfl
@[simp] theorem State.modDie_pipes (s : State) (d : Nat) (f : Die → Die) : (s.modDie d f).pipes = s.pipes := rfl
@[simp] theorem State.modDie_groups (s : State) (d : Nat) (f : Die → Die) : (s.modDie d f).groups = s.groups := rfl
@[simp] theorem State.modDie_preempts (s : State) (d : Nat) (f : Die → Die) : (s.modDie d f).preempts = s.preempts := rfl
@[simp] theorem State.modDie_images (s : State) (d : Nat) (f : Die → Die) : (s.modDie d f).images = s.images := rfl
@[simp] theorem State.modDie_keys (s : State) (d : Nat) (f : Die → Die) : (s.modDie d f).keys = s.keys := rfl
@[simp] theorem State.modDie_nextKey (s : State) (d : Nat) (f : Die → Die) : (s.modDie d f).nextKey = s.nextKey := rfl
@[simp] theorem State.modDie_coreOwn (s : State) (d : Nat) (f : Die → Die) : (s.modDie d f).coreOwn = s.coreOwn := rfl
@[simp] theorem State.modDie_frameOwn (s : State) (d : Nat) (f : Die → Die) : (s.modDie d f).frameOwn = s.frameOwn := rfl
@[simp] theorem State.modDie_journal (s : State) (d : Nat) (f : Die → Die) : (s.modDie d f).journal = s.journal := rfl
@[simp] theorem State.modDie_jobs (s : State) (d : Nat) (f : Die → Die) : (s.modDie d f).jobs = s.jobs := rfl
@[simp] theorem State.modDie_spdm (s : State) (d : Nat) (f : Die → Die) : (s.modDie d f).spdm = s.spdm := rfl
@[simp] theorem State.modDie_inbound (s : State) (d : Nat) (f : Die → Die) : (s.modDie d f).inbound = s.inbound := rfl
@[simp] theorem State.modDie_out (s : State) (d : Nat) (f : Die → Die) : (s.modDie d f).out = s.out := rfl

@[simp] theorem State.modCtx_agenda (s : State) (c : Nat) (f : Context → Context) : (s.modCtx c f).agenda = s.agenda := rfl
@[simp] theorem State.modCtx_cur (s : State) (c : Nat) (f : Context → Context) : (s.modCtx c f).cur = s.cur := rfl
@[simp] theorem State.modCtx_free (s : State) (c : Nat) (f : Context → Context) : (s.modCtx c f).free = s.free := rfl
@[simp] theorem State.modCtx_nextId (s : State) (c : Nat) (f : Context → Context) : (s.modCtx c f).nextId = s.nextId := rfl
@[simp] theorem State.modCtx_clk (s : State) (c : Nat) (f : Context → Context) : (s.modCtx c f).clk = s.clk := rfl
@[simp] theorem State.modCtx_moduleForm (s : State) (c : Nat) (f : Context → Context) : (s.modCtx c f).moduleForm = s.moduleForm := rfl
@[simp] theorem State.modCtx_boot (s : State) (c : Nat) (f : Context → Context) : (s.modCtx c f).boot = s.boot := rfl
@[simp] theorem State.modCtx_opened (s : State) (c : Nat) (f : Context → Context) : (s.modCtx c f).opened = s.opened := rfl
@[simp] theorem State.modCtx_thermal (s : State) (c : Nat) (f : Context → Context) : (s.modCtx c f).thermal = s.thermal := rfl
@[simp] theorem State.modCtx_excess (s : State) (c : Nat) (f : Context → Context) : (s.modCtx c f).excess = s.excess := rfl
@[simp] theorem State.modCtx_alarm (s : State) (c : Nat) (f : Context → Context) : (s.modCtx c f).alarm = s.alarm := rfl
@[simp] theorem State.modCtx_log (s : State) (c : Nat) (f : Context → Context) : (s.modCtx c f).log = s.log := rfl
@[simp] theorem State.modCtx_trips (s : State) (c : Nat) (f : Context → Context) : (s.modCtx c f).trips = s.trips := rfl
@[simp] theorem State.modCtx_poison (s : State) (c : Nat) (f : Context → Context) : (s.modCtx c f).poison = s.poison := rfl
@[simp] theorem State.modCtx_measured (s : State) (c : Nat) (f : Context → Context) : (s.modCtx c f).measured = s.measured := rfl
@[simp] theorem State.modCtx_fuses (s : State) (c : Nat) (f : Context → Context) : (s.modCtx c f).fuses = s.fuses := rfl
@[simp] theorem State.modCtx_dies (s : State) (c : Nat) (f : Context → Context) : (s.modCtx c f).dies = s.dies := rfl
@[simp] theorem State.modCtx_ports (s : State) (c : Nat) (f : Context → Context) : (s.modCtx c f).ports = s.ports := rfl
@[simp] theorem State.modCtx_lanemap (s : State) (c : Nat) (f : Context → Context) : (s.modCtx c f).lanemap = s.lanemap := rfl
@[simp] theorem State.modCtx_issued (s : State) (c : Nat) (f : Context → Context) : (s.modCtx c f).issued = s.issued := rfl
@[simp] theorem State.modCtx_pipes_ (s : State) (c : Nat) (f : Context → Context) : (s.modCtx c f).pipes_ = s.pipes_ := rfl
@[simp] theorem State.modCtx_holds (s : State) (c : Nat) (f : Context → Context) : (s.modCtx c f).holds = s.holds := rfl
@[simp] theorem State.modCtx_grace (s : State) (c : Nat) (f : Context → Context) : (s.modCtx c f).grace = s.grace := rfl
@[simp] theorem State.modCtx_drainbud (s : State) (c : Nat) (f : Context → Context) : (s.modCtx c f).drainbud = s.drainbud := rfl
@[simp] theorem State.modCtx_forward (s : State) (c : Nat) (f : Context → Context) : (s.modCtx c f).forward = s.forward := rfl
@[simp] theorem State.modCtx_mem (s : State) (c : Nat) (f : Context → Context) : (s.modCtx c f).mem = s.mem := rfl
@[simp] theorem State.modCtx_memkey (s : State) (c : Nat) (f : Context → Context) : (s.modCtx c f).memkey = s.memkey := rfl
@[simp] theorem State.modCtx_lines (s : State) (c : Nat) (f : Context → Context) : (s.modCtx c f).lines = s.lines := rfl
@[simp] theorem State.modCtx_wbs (s : State) (c : Nat) (f : Context → Context) : (s.modCtx c f).wbs = s.wbs := rfl
@[simp] theorem State.modCtx_peerWrites (s : State) (c : Nat) (f : Context → Context) : (s.modCtx c f).peerWrites = s.peerWrites := rfl
@[simp] theorem State.modCtx_ccache (s : State) (c : Nat) (f : Context → Context) : (s.modCtx c f).ccache = s.ccache := rfl
@[simp] theorem State.modCtx_tlb (s : State) (c : Nat) (f : Context → Context) : (s.modCtx c f).tlb = s.tlb := rfl
@[simp] theorem State.modCtx_walks (s : State) (c : Nat) (f : Context → Context) : (s.modCtx c f).walks = s.walks := rfl
@[simp] theorem State.modCtx_wfaults (s : State) (c : Nat) (f : Context → Context) : (s.modCtx c f).wfaults = s.wfaults := rfl
@[simp] theorem State.modCtx_heldBy (s : State) (c : Nat) (f : Context → Context) : (s.modCtx c f).heldBy = s.heldBy := rfl
@[simp] theorem State.modCtx_reqs (s : State) (c : Nat) (f : Context → Context) : (s.modCtx c f).reqs = s.reqs := rfl
@[simp] theorem State.modCtx_probes (s : State) (c : Nat) (f : Context → Context) : (s.modCtx c f).probes = s.probes := rfl
@[simp] theorem State.modCtx_served_ (s : State) (c : Nat) (f : Context → Context) : (s.modCtx c f).served_ = s.served_ := rfl
@[simp] theorem State.modCtx_turns (s : State) (c : Nat) (f : Context → Context) : (s.modCtx c f).turns = s.turns := rfl
@[simp] theorem State.modCtx_ctxs (s : State) (c : Nat) (f : Context → Context) : (s.modCtx c f).ctxs = s.ctxs.map fun x => if x.num == c then f x else x := rfl
@[simp] theorem State.modCtx_queues (s : State) (c : Nat) (f : Context → Context) : (s.modCtx c f).queues = s.queues := rfl
@[simp] theorem State.modCtx_tenparts (s : State) (c : Nat) (f : Context → Context) : (s.modCtx c f).tenparts = s.tenparts := rfl
@[simp] theorem State.modCtx_fns (s : State) (c : Nat) (f : Context → Context) : (s.modCtx c f).fns = s.fns := rfl
@[simp] theorem State.modCtx_launches (s : State) (c : Nat) (f : Context → Context) : (s.modCtx c f).launches = s.launches := rfl
@[simp] theorem State.modCtx_blocks (s : State) (c : Nat) (f : Context → Context) : (s.modCtx c f).blocks = s.blocks := rfl
@[simp] theorem State.modCtx_warps (s : State) (c : Nat) (f : Context → Context) : (s.modCtx c f).warps = s.warps := rfl
@[simp] theorem State.modCtx_carves (s : State) (c : Nat) (f : Context → Context) : (s.modCtx c f).carves = s.carves := rfl
@[simp] theorem State.modCtx_placeq (s : State) (c : Nat) (f : Context → Context) : (s.modCtx c f).placeq = s.placeq := rfl
@[simp] theorem State.modCtx_placeFrom (s : State) (c : Nat) (f : Context → Context) : (s.modCtx c f).placeFrom = s.placeFrom := rfl
@[simp] theorem State.modCtx_tasks (s : State) (c : Nat) (f : Context → Context) : (s.modCtx c f).tasks = s.tasks := rfl
@[simp] theorem State.modCtx_balanced (s : State) (c : Nat) (f : Context → Context) : (s.modCtx c f).balanced = s.balanced := rfl
@[simp] theorem State.modCtx_depths (s : State) (c : Nat) (f : Context → Context) : (s.modCtx c f).depths = s.depths := rfl
@[simp] theorem State.modCtx_lastDisp (s : State) (c : Nat) (f : Context → Context) : (s.modCtx c f).lastDisp = s.lastDisp := rfl
@[simp] theorem State.modCtx_copies (s : State) (c : Nat) (f : Context → Context) : (s.modCtx c f).copies = s.copies := rfl
@[simp] theorem State.modCtx_mcasts (s : State) (c : Nat) (f : Context → Context) : (s.modCtx c f).mcasts = s.mcasts := rfl
@[simp] theorem State.modCtx_mx (s : State) (c : Nat) (f : Context → Context) : (s.modCtx c f).mx = s.mx := rfl
@[simp] theorem State.modCtx_lastMx (s : State) (c : Nat) (f : Context → Context) : (s.modCtx c f).lastMx = s.lastMx := rfl
@[simp] theorem State.modCtx_poolBy (s : State) (c : Nat) (f : Context → Context) : (s.modCtx c f).poolBy = s.poolBy := rfl
@[simp] theorem State.modCtx_rings (s : State) (c : Nat) (f : Context → Context) : (s.modCtx c f).rings = s.rings := rfl
@[simp] theorem State.modCtx_stages (s : State) (c : Nat) (f : Context → Context) : (s.modCtx c f).stages = s.stages := rfl
@[simp] theorem State.modCtx_pipes (s : State) (c : Nat) (f : Context → Context) : (s.modCtx c f).pipes = s.pipes := rfl
@[simp] theorem State.modCtx_groups (s : State) (c : Nat) (f : Context → Context) : (s.modCtx c f).groups = s.groups := rfl
@[simp] theorem State.modCtx_preempts (s : State) (c : Nat) (f : Context → Context) : (s.modCtx c f).preempts = s.preempts := rfl
@[simp] theorem State.modCtx_images (s : State) (c : Nat) (f : Context → Context) : (s.modCtx c f).images = s.images := rfl
@[simp] theorem State.modCtx_keys (s : State) (c : Nat) (f : Context → Context) : (s.modCtx c f).keys = s.keys := rfl
@[simp] theorem State.modCtx_nextKey (s : State) (c : Nat) (f : Context → Context) : (s.modCtx c f).nextKey = s.nextKey := rfl
@[simp] theorem State.modCtx_coreOwn (s : State) (c : Nat) (f : Context → Context) : (s.modCtx c f).coreOwn = s.coreOwn := rfl
@[simp] theorem State.modCtx_frameOwn (s : State) (c : Nat) (f : Context → Context) : (s.modCtx c f).frameOwn = s.frameOwn := rfl
@[simp] theorem State.modCtx_journal (s : State) (c : Nat) (f : Context → Context) : (s.modCtx c f).journal = s.journal := rfl
@[simp] theorem State.modCtx_jobs (s : State) (c : Nat) (f : Context → Context) : (s.modCtx c f).jobs = s.jobs := rfl
@[simp] theorem State.modCtx_spdm (s : State) (c : Nat) (f : Context → Context) : (s.modCtx c f).spdm = s.spdm := rfl
@[simp] theorem State.modCtx_inbound (s : State) (c : Nat) (f : Context → Context) : (s.modCtx c f).inbound = s.inbound := rfl
@[simp] theorem State.modCtx_out (s : State) (c : Nat) (f : Context → Context) : (s.modCtx c f).out = s.out := rfl

@[simp] theorem State.modReq_agenda (s : State) (id : Nat) (f : Req → Req) : (s.modReq id f).agenda = s.agenda := rfl
@[simp] theorem State.modReq_cur (s : State) (id : Nat) (f : Req → Req) : (s.modReq id f).cur = s.cur := rfl
@[simp] theorem State.modReq_free (s : State) (id : Nat) (f : Req → Req) : (s.modReq id f).free = s.free := rfl
@[simp] theorem State.modReq_nextId (s : State) (id : Nat) (f : Req → Req) : (s.modReq id f).nextId = s.nextId := rfl
@[simp] theorem State.modReq_clk (s : State) (id : Nat) (f : Req → Req) : (s.modReq id f).clk = s.clk := rfl
@[simp] theorem State.modReq_moduleForm (s : State) (id : Nat) (f : Req → Req) : (s.modReq id f).moduleForm = s.moduleForm := rfl
@[simp] theorem State.modReq_boot (s : State) (id : Nat) (f : Req → Req) : (s.modReq id f).boot = s.boot := rfl
@[simp] theorem State.modReq_opened (s : State) (id : Nat) (f : Req → Req) : (s.modReq id f).opened = s.opened := rfl
@[simp] theorem State.modReq_thermal (s : State) (id : Nat) (f : Req → Req) : (s.modReq id f).thermal = s.thermal := rfl
@[simp] theorem State.modReq_excess (s : State) (id : Nat) (f : Req → Req) : (s.modReq id f).excess = s.excess := rfl
@[simp] theorem State.modReq_alarm (s : State) (id : Nat) (f : Req → Req) : (s.modReq id f).alarm = s.alarm := rfl
@[simp] theorem State.modReq_log (s : State) (id : Nat) (f : Req → Req) : (s.modReq id f).log = s.log := rfl
@[simp] theorem State.modReq_trips (s : State) (id : Nat) (f : Req → Req) : (s.modReq id f).trips = s.trips := rfl
@[simp] theorem State.modReq_poison (s : State) (id : Nat) (f : Req → Req) : (s.modReq id f).poison = s.poison := rfl
@[simp] theorem State.modReq_measured (s : State) (id : Nat) (f : Req → Req) : (s.modReq id f).measured = s.measured := rfl
@[simp] theorem State.modReq_fuses (s : State) (id : Nat) (f : Req → Req) : (s.modReq id f).fuses = s.fuses := rfl
@[simp] theorem State.modReq_dies (s : State) (id : Nat) (f : Req → Req) : (s.modReq id f).dies = s.dies := rfl
@[simp] theorem State.modReq_ports (s : State) (id : Nat) (f : Req → Req) : (s.modReq id f).ports = s.ports := rfl
@[simp] theorem State.modReq_lanemap (s : State) (id : Nat) (f : Req → Req) : (s.modReq id f).lanemap = s.lanemap := rfl
@[simp] theorem State.modReq_issued (s : State) (id : Nat) (f : Req → Req) : (s.modReq id f).issued = s.issued := rfl
@[simp] theorem State.modReq_pipes_ (s : State) (id : Nat) (f : Req → Req) : (s.modReq id f).pipes_ = s.pipes_ := rfl
@[simp] theorem State.modReq_holds (s : State) (id : Nat) (f : Req → Req) : (s.modReq id f).holds = s.holds := rfl
@[simp] theorem State.modReq_grace (s : State) (id : Nat) (f : Req → Req) : (s.modReq id f).grace = s.grace := rfl
@[simp] theorem State.modReq_drainbud (s : State) (id : Nat) (f : Req → Req) : (s.modReq id f).drainbud = s.drainbud := rfl
@[simp] theorem State.modReq_forward (s : State) (id : Nat) (f : Req → Req) : (s.modReq id f).forward = s.forward := rfl
@[simp] theorem State.modReq_mem (s : State) (id : Nat) (f : Req → Req) : (s.modReq id f).mem = s.mem := rfl
@[simp] theorem State.modReq_memkey (s : State) (id : Nat) (f : Req → Req) : (s.modReq id f).memkey = s.memkey := rfl
@[simp] theorem State.modReq_lines (s : State) (id : Nat) (f : Req → Req) : (s.modReq id f).lines = s.lines := rfl
@[simp] theorem State.modReq_wbs (s : State) (id : Nat) (f : Req → Req) : (s.modReq id f).wbs = s.wbs := rfl
@[simp] theorem State.modReq_peerWrites (s : State) (id : Nat) (f : Req → Req) : (s.modReq id f).peerWrites = s.peerWrites := rfl
@[simp] theorem State.modReq_ccache (s : State) (id : Nat) (f : Req → Req) : (s.modReq id f).ccache = s.ccache := rfl
@[simp] theorem State.modReq_tlb (s : State) (id : Nat) (f : Req → Req) : (s.modReq id f).tlb = s.tlb := rfl
@[simp] theorem State.modReq_walks (s : State) (id : Nat) (f : Req → Req) : (s.modReq id f).walks = s.walks := rfl
@[simp] theorem State.modReq_wfaults (s : State) (id : Nat) (f : Req → Req) : (s.modReq id f).wfaults = s.wfaults := rfl
@[simp] theorem State.modReq_heldBy (s : State) (id : Nat) (f : Req → Req) : (s.modReq id f).heldBy = s.heldBy := rfl
@[simp] theorem State.modReq_reqs (s : State) (id : Nat) (f : Req → Req) : (s.modReq id f).reqs = s.reqs.map fun r => if r.id == id then f r else r := rfl
@[simp] theorem State.modReq_probes (s : State) (id : Nat) (f : Req → Req) : (s.modReq id f).probes = s.probes := rfl
@[simp] theorem State.modReq_served_ (s : State) (id : Nat) (f : Req → Req) : (s.modReq id f).served_ = s.served_ := rfl
@[simp] theorem State.modReq_turns (s : State) (id : Nat) (f : Req → Req) : (s.modReq id f).turns = s.turns := rfl
@[simp] theorem State.modReq_ctxs (s : State) (id : Nat) (f : Req → Req) : (s.modReq id f).ctxs = s.ctxs := rfl
@[simp] theorem State.modReq_queues (s : State) (id : Nat) (f : Req → Req) : (s.modReq id f).queues = s.queues := rfl
@[simp] theorem State.modReq_tenparts (s : State) (id : Nat) (f : Req → Req) : (s.modReq id f).tenparts = s.tenparts := rfl
@[simp] theorem State.modReq_fns (s : State) (id : Nat) (f : Req → Req) : (s.modReq id f).fns = s.fns := rfl
@[simp] theorem State.modReq_launches (s : State) (id : Nat) (f : Req → Req) : (s.modReq id f).launches = s.launches := rfl
@[simp] theorem State.modReq_blocks (s : State) (id : Nat) (f : Req → Req) : (s.modReq id f).blocks = s.blocks := rfl
@[simp] theorem State.modReq_warps (s : State) (id : Nat) (f : Req → Req) : (s.modReq id f).warps = s.warps := rfl
@[simp] theorem State.modReq_carves (s : State) (id : Nat) (f : Req → Req) : (s.modReq id f).carves = s.carves := rfl
@[simp] theorem State.modReq_placeq (s : State) (id : Nat) (f : Req → Req) : (s.modReq id f).placeq = s.placeq := rfl
@[simp] theorem State.modReq_placeFrom (s : State) (id : Nat) (f : Req → Req) : (s.modReq id f).placeFrom = s.placeFrom := rfl
@[simp] theorem State.modReq_tasks (s : State) (id : Nat) (f : Req → Req) : (s.modReq id f).tasks = s.tasks := rfl
@[simp] theorem State.modReq_balanced (s : State) (id : Nat) (f : Req → Req) : (s.modReq id f).balanced = s.balanced := rfl
@[simp] theorem State.modReq_depths (s : State) (id : Nat) (f : Req → Req) : (s.modReq id f).depths = s.depths := rfl
@[simp] theorem State.modReq_lastDisp (s : State) (id : Nat) (f : Req → Req) : (s.modReq id f).lastDisp = s.lastDisp := rfl
@[simp] theorem State.modReq_copies (s : State) (id : Nat) (f : Req → Req) : (s.modReq id f).copies = s.copies := rfl
@[simp] theorem State.modReq_mcasts (s : State) (id : Nat) (f : Req → Req) : (s.modReq id f).mcasts = s.mcasts := rfl
@[simp] theorem State.modReq_mx (s : State) (id : Nat) (f : Req → Req) : (s.modReq id f).mx = s.mx := rfl
@[simp] theorem State.modReq_lastMx (s : State) (id : Nat) (f : Req → Req) : (s.modReq id f).lastMx = s.lastMx := rfl
@[simp] theorem State.modReq_poolBy (s : State) (id : Nat) (f : Req → Req) : (s.modReq id f).poolBy = s.poolBy := rfl
@[simp] theorem State.modReq_rings (s : State) (id : Nat) (f : Req → Req) : (s.modReq id f).rings = s.rings := rfl
@[simp] theorem State.modReq_stages (s : State) (id : Nat) (f : Req → Req) : (s.modReq id f).stages = s.stages := rfl
@[simp] theorem State.modReq_pipes (s : State) (id : Nat) (f : Req → Req) : (s.modReq id f).pipes = s.pipes := rfl
@[simp] theorem State.modReq_groups (s : State) (id : Nat) (f : Req → Req) : (s.modReq id f).groups = s.groups := rfl
@[simp] theorem State.modReq_preempts (s : State) (id : Nat) (f : Req → Req) : (s.modReq id f).preempts = s.preempts := rfl
@[simp] theorem State.modReq_images (s : State) (id : Nat) (f : Req → Req) : (s.modReq id f).images = s.images := rfl
@[simp] theorem State.modReq_keys (s : State) (id : Nat) (f : Req → Req) : (s.modReq id f).keys = s.keys := rfl
@[simp] theorem State.modReq_nextKey (s : State) (id : Nat) (f : Req → Req) : (s.modReq id f).nextKey = s.nextKey := rfl
@[simp] theorem State.modReq_coreOwn (s : State) (id : Nat) (f : Req → Req) : (s.modReq id f).coreOwn = s.coreOwn := rfl
@[simp] theorem State.modReq_frameOwn (s : State) (id : Nat) (f : Req → Req) : (s.modReq id f).frameOwn = s.frameOwn := rfl
@[simp] theorem State.modReq_journal (s : State) (id : Nat) (f : Req → Req) : (s.modReq id f).journal = s.journal := rfl
@[simp] theorem State.modReq_jobs (s : State) (id : Nat) (f : Req → Req) : (s.modReq id f).jobs = s.jobs := rfl
@[simp] theorem State.modReq_spdm (s : State) (id : Nat) (f : Req → Req) : (s.modReq id f).spdm = s.spdm := rfl
@[simp] theorem State.modReq_inbound (s : State) (id : Nat) (f : Req → Req) : (s.modReq id f).inbound = s.inbound := rfl
@[simp] theorem State.modReq_out (s : State) (id : Nat) (f : Req → Req) : (s.modReq id f).out = s.out := rfl

@[simp] theorem State.advance_agenda (s : State) (n : Nat) : (s.advance n).agenda = s.agenda := rfl
@[simp] theorem State.advance_cur (s : State) (n : Nat) : (s.advance n).cur = s.cur := rfl
@[simp] theorem State.advance_free (s : State) (n : Nat) : (s.advance n).free = s.free := rfl
@[simp] theorem State.advance_nextId (s : State) (n : Nat) : (s.advance n).nextId = s.nextId := rfl
@[simp] theorem State.advance_clk (s : State) (n : Nat) : (s.advance n).clk = s.clk.advance n := rfl
@[simp] theorem State.advance_moduleForm (s : State) (n : Nat) : (s.advance n).moduleForm = s.moduleForm := rfl
@[simp] theorem State.advance_boot (s : State) (n : Nat) : (s.advance n).boot = s.boot := rfl
@[simp] theorem State.advance_opened (s : State) (n : Nat) : (s.advance n).opened = s.opened := rfl
@[simp] theorem State.advance_thermal (s : State) (n : Nat) : (s.advance n).thermal = s.thermal := rfl
@[simp] theorem State.advance_excess (s : State) (n : Nat) : (s.advance n).excess = s.excess := rfl
@[simp] theorem State.advance_alarm (s : State) (n : Nat) : (s.advance n).alarm = s.alarm := rfl
@[simp] theorem State.advance_log (s : State) (n : Nat) : (s.advance n).log = s.log := rfl
@[simp] theorem State.advance_trips (s : State) (n : Nat) : (s.advance n).trips = s.trips := rfl
@[simp] theorem State.advance_poison (s : State) (n : Nat) : (s.advance n).poison = s.poison := rfl
@[simp] theorem State.advance_measured (s : State) (n : Nat) : (s.advance n).measured = s.measured := rfl
@[simp] theorem State.advance_fuses (s : State) (n : Nat) : (s.advance n).fuses = s.fuses := rfl
@[simp] theorem State.advance_dies (s : State) (n : Nat) : (s.advance n).dies = s.dies := rfl
@[simp] theorem State.advance_ports (s : State) (n : Nat) : (s.advance n).ports = s.ports := rfl
@[simp] theorem State.advance_lanemap (s : State) (n : Nat) : (s.advance n).lanemap = s.lanemap := rfl
@[simp] theorem State.advance_issued (s : State) (n : Nat) : (s.advance n).issued = s.issued := rfl
@[simp] theorem State.advance_pipes_ (s : State) (n : Nat) : (s.advance n).pipes_ = s.pipes_ := rfl
@[simp] theorem State.advance_holds (s : State) (n : Nat) : (s.advance n).holds = s.holds := rfl
@[simp] theorem State.advance_grace (s : State) (n : Nat) : (s.advance n).grace = s.grace := rfl
@[simp] theorem State.advance_drainbud (s : State) (n : Nat) : (s.advance n).drainbud = s.drainbud := rfl
@[simp] theorem State.advance_forward (s : State) (n : Nat) : (s.advance n).forward = s.forward := rfl
@[simp] theorem State.advance_mem (s : State) (n : Nat) : (s.advance n).mem = s.mem := rfl
@[simp] theorem State.advance_memkey (s : State) (n : Nat) : (s.advance n).memkey = s.memkey := rfl
@[simp] theorem State.advance_lines (s : State) (n : Nat) : (s.advance n).lines = s.lines := rfl
@[simp] theorem State.advance_wbs (s : State) (n : Nat) : (s.advance n).wbs = s.wbs := rfl
@[simp] theorem State.advance_peerWrites (s : State) (n : Nat) : (s.advance n).peerWrites = s.peerWrites := rfl
@[simp] theorem State.advance_ccache (s : State) (n : Nat) : (s.advance n).ccache = s.ccache := rfl
@[simp] theorem State.advance_tlb (s : State) (n : Nat) : (s.advance n).tlb = s.tlb := rfl
@[simp] theorem State.advance_walks (s : State) (n : Nat) : (s.advance n).walks = s.walks := rfl
@[simp] theorem State.advance_wfaults (s : State) (n : Nat) : (s.advance n).wfaults = s.wfaults := rfl
@[simp] theorem State.advance_heldBy (s : State) (n : Nat) : (s.advance n).heldBy = s.heldBy := rfl
@[simp] theorem State.advance_reqs (s : State) (n : Nat) : (s.advance n).reqs = s.reqs := rfl
@[simp] theorem State.advance_probes (s : State) (n : Nat) : (s.advance n).probes = s.probes := rfl
@[simp] theorem State.advance_served_ (s : State) (n : Nat) : (s.advance n).served_ = s.served_ := rfl
@[simp] theorem State.advance_turns (s : State) (n : Nat) : (s.advance n).turns = s.turns := rfl
@[simp] theorem State.advance_queues (s : State) (n : Nat) : (s.advance n).queues = s.queues := rfl
@[simp] theorem State.advance_tenparts (s : State) (n : Nat) : (s.advance n).tenparts = s.tenparts := rfl
@[simp] theorem State.advance_fns (s : State) (n : Nat) : (s.advance n).fns = s.fns := rfl
@[simp] theorem State.advance_launches (s : State) (n : Nat) : (s.advance n).launches = s.launches := rfl
@[simp] theorem State.advance_blocks (s : State) (n : Nat) : (s.advance n).blocks = s.blocks := rfl
@[simp] theorem State.advance_warps (s : State) (n : Nat) : (s.advance n).warps = s.warps := rfl
@[simp] theorem State.advance_carves (s : State) (n : Nat) : (s.advance n).carves = s.carves := rfl
@[simp] theorem State.advance_placeq (s : State) (n : Nat) : (s.advance n).placeq = s.placeq := rfl
@[simp] theorem State.advance_placeFrom (s : State) (n : Nat) : (s.advance n).placeFrom = s.placeFrom := rfl
@[simp] theorem State.advance_tasks (s : State) (n : Nat) : (s.advance n).tasks = s.tasks := rfl
@[simp] theorem State.advance_balanced (s : State) (n : Nat) : (s.advance n).balanced = s.balanced := rfl
@[simp] theorem State.advance_depths (s : State) (n : Nat) : (s.advance n).depths = s.depths := rfl
@[simp] theorem State.advance_lastDisp (s : State) (n : Nat) : (s.advance n).lastDisp = s.lastDisp := rfl
@[simp] theorem State.advance_copies (s : State) (n : Nat) : (s.advance n).copies = s.copies := rfl
@[simp] theorem State.advance_mcasts (s : State) (n : Nat) : (s.advance n).mcasts = s.mcasts := rfl
@[simp] theorem State.advance_mx (s : State) (n : Nat) : (s.advance n).mx = s.mx := rfl
@[simp] theorem State.advance_lastMx (s : State) (n : Nat) : (s.advance n).lastMx = s.lastMx := rfl
@[simp] theorem State.advance_poolBy (s : State) (n : Nat) : (s.advance n).poolBy = s.poolBy := rfl
@[simp] theorem State.advance_rings (s : State) (n : Nat) : (s.advance n).rings = s.rings := rfl
@[simp] theorem State.advance_stages (s : State) (n : Nat) : (s.advance n).stages = s.stages := rfl
@[simp] theorem State.advance_pipes (s : State) (n : Nat) : (s.advance n).pipes = s.pipes := rfl
@[simp] theorem State.advance_groups (s : State) (n : Nat) : (s.advance n).groups = s.groups := rfl
@[simp] theorem State.advance_preempts (s : State) (n : Nat) : (s.advance n).preempts = s.preempts := rfl
@[simp] theorem State.advance_images (s : State) (n : Nat) : (s.advance n).images = s.images := rfl
@[simp] theorem State.advance_keys (s : State) (n : Nat) : (s.advance n).keys = s.keys := rfl
@[simp] theorem State.advance_nextKey (s : State) (n : Nat) : (s.advance n).nextKey = s.nextKey := rfl
@[simp] theorem State.advance_coreOwn (s : State) (n : Nat) : (s.advance n).coreOwn = s.coreOwn := rfl
@[simp] theorem State.advance_frameOwn (s : State) (n : Nat) : (s.advance n).frameOwn = s.frameOwn := rfl
@[simp] theorem State.advance_journal (s : State) (n : Nat) : (s.advance n).journal = s.journal := rfl
@[simp] theorem State.advance_jobs (s : State) (n : Nat) : (s.advance n).jobs = s.jobs := rfl
@[simp] theorem State.advance_spdm (s : State) (n : Nat) : (s.advance n).spdm = s.spdm := rfl
@[simp] theorem State.advance_inbound (s : State) (n : Nat) : (s.advance n).inbound = s.inbound := rfl
@[simp] theorem State.advance_out (s : State) (n : Nat) : (s.advance n).out = s.out := rfl

end Sys2Proof.Machine
end

