-- ==== Sys2Proof/Laws/Memory.lean ====
section
/-! SUPPORT. Sorted maps and memory: a read after a write, what a write leaves alone, and that every operation on memory keeps its
canonical form. -/

namespace Sys2Proof.Machine

/-! ### Sorted maps -/

theorem mput_mem {α : Type} {k : Nat} {v : α} {m : List (Nat × α)} {e : Nat × α} (h : e ∈ mput k v m) :
    e = (k, v) ∨ e ∈ m := by
  induction m with
  | nil => exact .inl (by simpa [mput] using h)
  | cons x m ih =>
    obtain ⟨k', v'⟩ := x
    simp only [mput] at h
    split at h
    · simpa using h
    · split at h
      · rcases List.mem_cons.mp h with h | h
        · exact .inl h
        · exact .inr (List.mem_cons_of_mem _ h)
      · rcases List.mem_cons.mp h with h | h
        · exact .inr (h ▸ List.mem_cons_self)
        · exact (ih h).imp_right (List.mem_cons_of_mem _)

theorem mput_sorted {α : Type} (k : Nat) (v : α) {m : List (Nat × α)} (h : m.Pairwise fun c d => c.1 < d.1) :
    (mput k v m).Pairwise fun c d => c.1 < d.1 := by
  induction m with
  | nil => simp [mput]
  | cons x m ih =>
    obtain ⟨k', v'⟩ := x
    rw [List.pairwise_cons] at h
    simp only [mput]
    split
    · rename_i hk
      refine List.pairwise_cons.mpr ⟨fun e he => ?_, List.pairwise_cons.mpr h⟩
      rcases List.mem_cons.mp he with rfl | he
      · exact hk
      · exact Nat.lt_trans hk (h.1 e he)
    · split
      · rename_i hk
        subst hk
        exact List.pairwise_cons.mpr h
      · refine List.pairwise_cons.mpr ⟨fun e he => ?_, ih h.2⟩
        rcases mput_mem he with rfl | he
        · simp only; omega
        · exact h.1 e he

theorem mget_cons {α : Type} (k : Nat) (e : Nat × α) (m : List (Nat × α)) (d : α) :
    mget (e :: m) k d = if e.1 = k then e.2 else mget m k d := by
  obtain ⟨a, v⟩ := e
  simp only [mget, List.lookup_cons]
  by_cases h : a = k
  · simp [h]
  · rw [if_neg h, beq_false_of_ne (Ne.symm h)]

theorem mget_mput {α : Type} (k : Nat) (v d : α) (m : List (Nat × α)) : mget (mput k v m) k d = v := by
  induction m with
  | nil => simp [mput, mget_cons]
  | cons e m ih =>
    obtain ⟨k', v'⟩ := e
    simp only [mput]
    split
    · simp [mget_cons]
    · split
      · simp [mget_cons]
      · rw [mget_cons, if_neg (by simp only; omega)]; exact ih

theorem mget_mput_ne {α : Type} {a k : Nat} (v d : α) (m : List (Nat × α)) (h : a ≠ k) :
    mget (mput k v m) a d = mget m a d := by
  induction m with
  | nil => rw [mput, mget_cons, if_neg (Ne.symm h)]
  | cons e m ih =>
    obtain ⟨k', v'⟩ := e
    simp only [mput]
    split
    · rw [mget_cons, if_neg (Ne.symm h)]
    · split
      · rename_i hk
        subst hk
        simp [mget_cons, Ne.symm h]
      · rw [mget_cons, mget_cons, ih]

theorem mget_mdel {α : Type} (k : Nat) (d : α) (m : List (Nat × α)) : mget (mdel k m) k d = d := by
  induction m with
  | nil => rfl
  | cons e m ih =>
    simp only [mdel, List.filter_cons] at ih ⊢
    by_cases h : e.1 = k
    · simp [h, ih]
    · rw [if_pos (by simpa using h), mget_cons, if_neg h]; exact ih

theorem mget_mdel_ne {α : Type} {a k : Nat} (d : α) (m : List (Nat × α)) (h : a ≠ k) : mget (mdel k m) a d = mget m a d := by
  induction m with
  | nil => rfl
  | cons e m ih =>
    simp only [mdel, List.filter_cons] at ih ⊢
    by_cases hk : e.1 = k
    · rw [if_neg (by simp [hk]), mget_cons, if_neg (by omega)]; exact ih
    · rw [if_pos (by simpa using hk), mget_cons, mget_cons, ih]

theorem mget_mset {α : Type} [DecidableEq α] (k : Nat) (v d : α) (m : List (Nat × α)) : mget (mset k v d m) k d = v := by
  unfold mset; split
  · rename_i h; rw [mget_mdel, h]
  · exact mget_mput ..

theorem mget_mset_ne {α : Type} [DecidableEq α] {a k : Nat} (v d : α) (m : List (Nat × α)) (h : a ≠ k) :
    mget (mset k v d m) a d = mget m a d := by
  unfold mset; split
  · exact mget_mdel_ne d m h
  · exact mget_mput_ne v d m h

/-! ### Memory -/

/-- Memory with nothing listed, as after reset, has the form. -/
theorem Memory.wf_nil : Memory.wf [] := ⟨List.Pairwise.nil, fun _ h => absurd h (List.not_mem_nil)⟩

theorem Memory.wf_write {m : Memory} (h : Memory.wf m) (a : Nat) (b : Byte) : Memory.wf (m.write a b) := by
  unfold Memory.write mset
  split
  · exact ⟨h.1.filter _, fun c hc => h.2 c (List.mem_of_mem_filter hc)⟩
  · rename_i hb
    refine ⟨mput_sorted a b h.1, fun c hc => ?_⟩
    rcases mput_mem hc with rfl | hc
    · exact hb
    · exact h.2 c hc

theorem Memory.wf_writeN {m : Memory} (h : Memory.wf m) (a : Nat) (bs : List Byte) : Memory.wf (m.writeN a bs) := by
  induction bs generalizing m a with
  | nil => exact h
  | cons b bs ih => exact ih (Memory.wf_write h a b) (a + 1)

theorem Memory.wf_filter {m : Memory} (h : Memory.wf m) (p : Host.Cell → Bool) : Memory.wf (m.filter p) :=
  ⟨h.1.filter _, fun c hc => h.2 c (List.mem_of_mem_filter hc)⟩

theorem Memory.read_write (m : Memory) (a : Nat) (b : Byte) : (m.write a b).read a = b := mget_mset ..

theorem Memory.read_write_ne {m : Memory} {a x : Nat} (b : Byte) (h : x ≠ a) : (m.write a b).read x = m.read x :=
  mget_mset_ne _ _ _ h

/-- A write of bytes from a on leaves every address outside them alone. -/
theorem Memory.read_writeN_out {m : Memory} {a x : Nat} (bs : List Byte) (h : x < a ∨ a + bs.length ≤ x) :
    (m.writeN a bs).read x = m.read x := by
  induction bs generalizing m a with
  | nil => rfl
  | cons b bs ih =>
    simp only [List.length_cons] at h
    rw [Memory.writeN, ih (by omega), Memory.read_write_ne _ (by omega)]

/-- The bytes written from a on read back in order. -/
theorem Memory.readN_writeN (m : Memory) (a : Nat) (bs : List Byte) : (m.writeN a bs).readN a bs.length = bs := by
  induction bs generalizing m a with
  | nil => rfl
  | cons b bs ih =>
    simp only [List.length_cons, Memory.readN, Memory.writeN]
    rw [Memory.read_writeN_out _ (by omega), Memory.read_write, ih]

/-! ### The operations of the machine on memory -/

theorem State.reset_memOk : Safety.MemOk State.reset := Memory.wf_nil

theorem State.ramWrite_memOk {s : State} (h : Safety.MemOk s) (ln slot : Nat) (data : List Byte) :
    Safety.MemOk (s.ramWrite ln slot data) := Memory.wf_writeN h _ _

theorem State.loseMemory_memOk {s : State} (h : Safety.MemOk s) : Safety.MemOk s.loseMemory := Memory.wf_filter h _

end Sys2Proof.Machine
end

