-- ==== Sys2Proof/Laws/PerInstr.lean ====
section
/-! SUPPORT. Decoding the word that `encode` gives a well-formed step gives the step back, one lemma per constructor. -/

set_option linter.unusedSimpArgs false

namespace Sys2Proof.Laws.RoundTrip

open Sys2Proof.Decode Sys2Proof.Forms

/-- Decode of encode is the step itself: every operand field of R47 to R63 comes back. -/
def Statement (i : Instr) : Prop :=
  i.canonical = true → i.wellFormed = true → ∃ w, encode i = some w ∧ decode w = .ok i

theorem notCanonical {i : Instr} (h : i.canonical = false) : Statement i := fun hc => by rw [h] at hc; cases hc

theorem ofRaw {i : Instr} {n : Nat} (he : Encode.word i = some n) (hn : n < 2 ^ 64) (hr : raw n = ([], i)) : Statement i := by
  intro _ hw
  have e : (BitVec.ofNat 64 n).toNat = n := by simp; omega
  simp only [Instr.wellFormed, Bool.and_eq_true, List.isEmpty_iff] at hw
  exact ⟨BitVec.ofNat 64 n, by rw [encode, he]; rfl, by simp [decode, wordCodes, e, hr, hw.2, Forms.lowest]⟩

/-! ### One lemma per format: the opcode selects it (R47, R63) -/

theorem roundV {i : Instr} {f : VF} (he : Encode.word i = some (vWord f)) (h : f.ok) (ho : decide (f.op < 0x50) = true)
    (hr : ∀ n, vOf n = f → rawV n = ([], i)) : Statement i := by
  refine ofRaw he (vWord_lt h) ?_
  have e : vWord f / 2 ^ 56 % 256 = f.op := congrArg VF.op (vOf_vWord h)
  unfold raw
  simp only [e, if_pos (of_decide_eq_true ho)]
  exact hr _ (vOf_vWord h)

theorem roundI {i : Instr} {f : IF} (he : Encode.word i = some (iWord f)) (h : f.ok) (ho : decide (f.op < 0x50) = true)
    (hr : ∀ n, (vOf n).op = f.op → (vOf n).stall = f.stall → iOf n = f → rawV n = ([], i)) : Statement i := by
  refine ofRaw he (iWord_lt h) ?_
  have e : iWord f / 2 ^ 56 % 256 = f.op := congrArg IF.op (iOf_iWord h)
  have e2 : iWord f % 16 = f.stall := congrArg IF.stall (iOf_iWord h)
  unfold raw
  simp only [e, if_pos (of_decide_eq_true ho)]
  exact hr _ e e2 (iOf_iWord h)

theorem roundC {i : Instr} {f : CF} (he : Encode.word i = some (cWord f)) (h : f.ok)
    (ho : decide (0x50 ≤ f.op ∧ f.op < 0x60) = true) (hr : ∀ n, cOf n = f → rawC n = ([], i)) : Statement i := by
  refine ofRaw he (cWord_lt h) ?_
  have e : cWord f / 2 ^ 56 % 256 = f.op := congrArg CF.op (cOf_cWord h)
  have o := of_decide_eq_true ho
  unfold raw
  simp only [e]
  rw [if_neg (by omega), if_pos o.2]
  exact hr _ (cOf_cWord h)

theorem roundM {i : Instr} {f : MF} (he : Encode.word i = some (mWord f)) (h : f.ok)
    (ho : decide (0x60 ≤ f.op ∧ f.op < 0x6D ∧ f.op ≠ 0x66 ∧ f.op ≠ 0x67) = true) (hr : ∀ n, mOf n = f → rawM n = ([], i)) :
    Statement i := by
  refine ofRaw he (mWord_lt h) ?_
  have e : mWord f / 2 ^ 56 % 256 = f.op := congrArg MF.op (mOf_mWord h)
  have o := of_decide_eq_true ho
  unfold raw
  simp only [e]
  rw [if_neg (by omega), if_neg (by omega), if_pos (by simp; omega)]
  exact hr _ (mOf_mWord h)

theorem roundA {i : Instr} {f : AF} (he : Encode.word i = some (aWord f)) (h : f.ok)
    (ho : decide (0x80 ≤ f.op ∧ f.op < 0x90) = true) (hr : ∀ n, aOf n = f → rawA n = ([], i)) : Statement i := by
  refine ofRaw he (aWord_lt h) ?_
  have e : aWord f / 2 ^ 56 % 256 = f.op := congrArg AF.op (aOf_aWord h)
  have o := of_decide_eq_true ho
  unfold raw
  simp only [e]
  rw [if_neg (by omega), if_neg (by omega), if_neg (by simp; omega), if_pos (by simp; omega)]
  exact hr _ (aOf_aWord h)

theorem roundX {i : Instr} {f : XF} (he : Encode.word i = some (xWord f)) (h : f.ok)
    (ho : decide (0x66 ≤ f.op ∧ f.op < 0xA0 ∧ (f.op < 0x68 ∨ 0x6D ≤ f.op) ∧ (f.op < 0x80 ∨ 0x90 ≤ f.op)) = true)
    (hr : ∀ n, xOf n = f → rawX n = ([], i)) : Statement i := by
  refine ofRaw he (xWord_lt h) ?_
  have e : xWord f / 2 ^ 56 % 256 = f.op := congrArg XF.op (xOf_xWord h)
  have o := of_decide_eq_true ho
  unfold raw
  simp only [e]
  rw [if_neg (by omega), if_neg (by omega), if_neg (by simp; omega), if_neg (by simp; omega), if_pos o.2.1]
  exact hr _ (xOf_xWord h)

theorem roundT {i : Instr} {f : XF} (he : Encode.word i = some (xWord f)) (h : f.ok)
    (ho : decide (0xA0 ≤ f.op ∧ f.op < 0xB0) = true) (hr : ∀ n, xOf n = f → rawT n = ([], i)) : Statement i := by
  refine ofRaw he (xWord_lt h) ?_
  have e : xWord f / 2 ^ 56 % 256 = f.op := congrArg XF.op (xOf_xWord h)
  have o := of_decide_eq_true ho
  unfold raw
  simp only [e]
  rw [if_neg (by omega), if_neg (by omega), if_neg (by simp; omega), if_neg (by simp; omega), if_neg (by omega), if_pos o.2]
  exact hr _ (xOf_xWord h)

theorem roundS {i : Instr} {f : SF} (he : Encode.word i = some (sWord f)) (h : f.ok) (ho : decide (0xB0 ≤ f.op) = true)
    (hr : ∀ n, sOf n = f → rawS n = ([], i)) : Statement i := by
  refine ofRaw he (sWord_lt h) ?_
  have e : sWord f / 2 ^ 56 % 256 = f.op := congrArg SF.op (sOf_sWord h)
  have o := of_decide_eq_true ho
  unfold raw
  simp only [e]
  rw [if_neg (by omega), if_neg (by omega), if_neg (by simp; omega), if_neg (by simp; omega), if_neg (by omega),
    if_neg (by omega)]
  exact hr _ (sOf_sWord h)

/-! ### Bounds of the fields -/

@[simp] theorem regCode_bound (r : Reg) : regCode r < 1024 := regCode_lt r
@[simp] theorem guardCode_bound (g : Guard) : guardCode g < 16 := guardCode_lt g
@[simp] theorem ctrCode_bound (c : Option (Fin 8)) : ctrCode c < 16 := ctrCode_lt c
@[simp] theorem tyCode_bound (t : Ty) : tyCode t < 16 := Nat.lt_trans (tyCode_lt t) (by decide)
@[simp] theorem tyCode_le (t : Ty) : tyCode t ≤ 12 := Nat.le_of_lt_succ (tyCode_lt t)
@[simp] theorem tyCode_wide (t : Ty) : tyCode t < 1024 := Nat.lt_trans (tyCode_lt t) (by decide)
@[simp] theorem tyCode_mod (t : Ty) : tyCode t % 16 = tyCode t := Nat.mod_eq_of_lt (tyCode_bound t)
@[simp] theorem tyCode_div (t : Ty) : tyCode t / 16 = 0 := Nat.div_eq_of_lt (tyCode_bound t)
@[simp] theorem mtyCode_bound (t : MTy) : mtyCode t < 16 := Nat.lt_trans (mtyCode_lt t) (by decide)
@[simp] theorem mtyCode_le (t : MTy) : mtyCode t ≤ 11 := Nat.le_of_lt_succ (mtyCode_lt t)
@[simp] theorem rndCode_bound (r : Rnd) : rndCode r < 4 := rndCode_lt r
@[simp] theorem scopeCode_bound (c : Scope) : scopeCode c < 8 := Nat.lt_trans (scopeCode_lt c) (by decide)
@[simp] theorem scopeCode_le (c : Scope) : scopeCode c ≤ 4 := Nat.le_of_lt_succ (scopeCode_lt c)
@[simp] theorem orderCode_bound (o : Order) : orderCode o < 4 := orderCode_lt o
@[simp] theorem hintCode_bound (h : Hint) : hintCode h < 8 := Nat.lt_trans (hintCode_lt h) (by decide)
@[simp] theorem hintCode_le (h : Hint) : hintCode h ≤ 4 := Nat.le_of_lt_succ (hintCode_lt h)
@[simp] theorem aopCode_bound (o : AtomOp) : aopCode o < 16 := Nat.lt_trans (aopCode_lt o) (by decide)
@[simp] theorem aopCode_le (o : AtomOp) : aopCode o ≤ 11 := Nat.le_of_lt_succ (aopCode_lt o)
@[simp] theorem widthCode_bound (w : AWidth) : widthCode w < 4 := widthCode_lt w
@[simp] theorem shflCode_bound (m : ShflMode) : shflCode m < 4 := shflCode_lt m
@[simp] theorem scanCode_bound (o : ScanOp) : scanCode o < 4 := scanCode_lt o
@[simp] theorem lanesCode_bound (m : LanesMode) : lanesCode m < 4 := lanesCode_lt m
@[simp] theorem condCode_bound (k : BrCond) : condCode k < 4 := condCode_lt k
@[simp] theorem bit_bound (b : Bool) : bit b < 4 := Nat.lt_trans (bit_lt b) (by decide)
@[simp] theorem bit_bound2 (b : Bool) : bit b < 2 := bit_lt b
@[simp] theorem bit_bound16 (b : Bool) : bit b < 16 := Nat.lt_trans (bit_lt b) (by decide)
@[simp] theorem bit_le (b : Bool) : bit b ≤ 1 := Nat.le_of_lt_succ (bit_lt b)
@[simp] theorem s0Code_bound : s0Code < 1024 := by decide
@[simp] theorem fin4_bound (i : Fin 4) : i.val < 4 := i.isLt
@[simp] theorem fin8_bound (i : Fin 8) : i.val < 8 := i.isLt
@[simp] theorem fin8_wide (i : Fin 8) : i.val < 1024 := Nat.lt_trans i.isLt (by decide)
@[simp] theorem fin12_bound (i : Fin 12) : i.val < 12 := i.isLt
@[simp] theorem fin12_wide (i : Fin 12) : i.val < 16 := Nat.lt_trans i.isLt (by decide)
@[simp] theorem fin16_bound (i : Fin 16) : i.val < 16 := i.isLt
@[simp] theorem fin64_bound (i : Fin 64) : i.val < 64 := i.isLt
@[simp] theorem fin64_wide (i : Fin 64) : i.val < 1024 := Nat.lt_trans i.isLt (by decide)
@[simp] theorem fin2048_bound (i : Fin 2048) : i.val < 2048 := i.isLt
@[simp] theorem fin2048_wide (i : Fin 2048) : i.val < 1048576 := Nat.lt_trans i.isLt (by decide)
@[simp] theorem word_bound (x : BitVec 32) : x.toNat < 4294967296 := x.isLt
@[simp] theorem off_bound (x : BitVec 12) : x.toNat < 4096 := x.isLt
@[simp] theorem sel_bound (x : BitVec 20) : x.toNat < 1048576 := x.isLt
@[simp] theorem ftyCode_f32 : ftyCode .f32 = 0 := rfl
@[simp] theorem fv_bound (t : FTy) (z : Bool) : Encode.fv t z < 16 := by cases t <;> cases z <;> decide
@[simp] theorem fv_mod (t : FTy) (z : Bool) : Encode.fv t z % 8 = ftyCode t := by cases t <;> cases z <;> rfl
@[simp] theorem fv_div (t : FTy) (z : Bool) : (Encode.fv t z / 8 == 1) = z := by cases t <;> cases z <;> rfl
@[simp] theorem fv_plain (t : FTy) : Encode.fv t false < 8 := by cases t <;> decide
@[simp] theorem ftyCode_le (t : FTy) : ftyCode t ≤ 3 := Nat.le_of_lt_succ (ftyCode_lt t)
@[simp] theorem fsplit (g : Fin 16) : Fin.ofNat 16 (g.val / 4 * 4 + g.val % 4) = g := by revert g; decide
@[simp] theorem fsplit_hi (g : Fin 16) : g.val / 4 < 4 := by omega
@[simp] theorem fsplit_lo (g : Fin 16) : g.val % 4 < 4 := by omega
@[simp] theorem cmpD_bound (k : Cmp) (q : Fin 8) : Encode.cmpD k q < 1024 := by
  have := cmpCode_lt k; simp only [Encode.cmpD]; omega
@[simp] theorem cmpD_top (k : Cmp) (q : Fin 8) : Encode.cmpD k q / 64 = 0 := by
  have := cmpCode_lt k; simp only [Encode.cmpD]; omega
@[simp] theorem cmpD_cmp (k : Cmp) (q : Fin 8) : Encode.cmpD k q / 8 % 8 = cmpCode k := by
  have := cmpCode_lt k; simp only [Encode.cmpD]; omega
@[simp] theorem cmpD_q (k : Cmp) (q : Fin 8) : Fin.ofNat 8 (Encode.cmpD k q) = q := by
  cases k <;> revert q <;> decide
@[simp] theorem cmpCode_le (k : Cmp) : cmpCode k ≤ 5 := Nat.le_of_lt_succ (cmpCode_lt k)

/-! ### The constructors -/

theorem iadd (t : Ty) (d : Reg) (a : Reg) (b : Reg) (x : VTail) : Statement (.iadd t d a b x) :=
  roundV rfl (by simp [VF.ok]) rfl fun _ e => by simp [rawV, e, -Fin.ofNat_eq_cast, int2, int3, int4, flt2, flt3, fltM, sfR, sf, dbl3, half3, logic, vote, tyOk, ftyOk, noFtz, cmpOk, cmpK, cmpQ, low3, z, need, vTail]
theorem isub (t : Ty) (d : Reg) (a : Reg) (b : Reg) (x : VTail) : Statement (.isub t d a b x) :=
  roundV rfl (by simp [VF.ok]) rfl fun _ e => by simp [rawV, e, -Fin.ofNat_eq_cast, int2, int3, int4, flt2, flt3, fltM, sfR, sf, dbl3, half3, logic, vote, tyOk, ftyOk, noFtz, cmpOk, cmpK, cmpQ, low3, z, need, vTail]
theorem imul (t : Ty) (d : Reg) (a : Reg) (b : Reg) (x : VTail) : Statement (.imul t d a b x) :=
  roundV rfl (by simp [VF.ok]) rfl fun _ e => by simp [rawV, e, -Fin.ofNat_eq_cast, int2, int3, int4, flt2, flt3, fltM, sfR, sf, dbl3, half3, logic, vote, tyOk, ftyOk, noFtz, cmpOk, cmpK, cmpQ, low3, z, need, vTail]
theorem imulh (t : Ty) (d : Reg) (a : Reg) (b : Reg) (x : VTail) : Statement (.imulh t d a b x) :=
  roundV rfl (by simp [VF.ok]) rfl fun _ e => by simp [rawV, e, -Fin.ofNat_eq_cast, int2, int3, int4, flt2, flt3, fltM, sfR, sf, dbl3, half3, logic, vote, tyOk, ftyOk, noFtz, cmpOk, cmpK, cmpQ, low3, z, need, vTail]
theorem imad (t : Ty) (d : Reg) (a : Reg) (b : Reg) (c : Reg) (x : VTail) : Statement (.imad t d a b c x) :=
  roundV rfl (by simp [VF.ok]) rfl fun _ e => by simp [rawV, e, -Fin.ofNat_eq_cast, int2, int3, int4, flt2, flt3, fltM, sfR, sf, dbl3, half3, logic, vote, tyOk, ftyOk, noFtz, cmpOk, cmpK, cmpQ, low3, z, need, vTail]
theorem imadw (t : Ty) (d : Reg) (a : Reg) (b : Reg) (c : Reg) (x : VTail) : Statement (.imadw t d a b c x) :=
  roundV rfl (by simp [VF.ok]) rfl fun _ e => by simp [rawV, e, -Fin.ofNat_eq_cast, int2, int3, int4, flt2, flt3, fltM, sfR, sf, dbl3, half3, logic, vote, tyOk, ftyOk, noFtz, cmpOk, cmpK, cmpQ, low3, z, need, vTail]
theorem iaddc (t : Ty) (d : Reg) (a : Reg) (b : Reg) (c : Reg) (x : VTail) : Statement (.iaddc t d a b c x) :=
  roundV rfl (by simp [VF.ok]) rfl fun _ e => by simp [rawV, e, -Fin.ofNat_eq_cast, int2, int3, int4, flt2, flt3, fltM, sfR, sf, dbl3, half3, logic, vote, tyOk, ftyOk, noFtz, cmpOk, cmpK, cmpQ, low3, z, need, vTail]
theorem imin (t : Ty) (d : Reg) (a : Reg) (b : Reg) (x : VTail) : Statement (.imin t d a b x) :=
  roundV rfl (by simp [VF.ok]) rfl fun _ e => by simp [rawV, e, -Fin.ofNat_eq_cast, int2, int3, int4, flt2, flt3, fltM, sfR, sf, dbl3, half3, logic, vote, tyOk, ftyOk, noFtz, cmpOk, cmpK, cmpQ, low3, z, need, vTail]
theorem imax (t : Ty) (d : Reg) (a : Reg) (b : Reg) (x : VTail) : Statement (.imax t d a b x) :=
  roundV rfl (by simp [VF.ok]) rfl fun _ e => by simp [rawV, e, -Fin.ofNat_eq_cast, int2, int3, int4, flt2, flt3, fltM, sfR, sf, dbl3, half3, logic, vote, tyOk, ftyOk, noFtz, cmpOk, cmpK, cmpQ, low3, z, need, vTail]
theorem iabs (t : Ty) (d : Reg) (a : Reg) (x : VTail) : Statement (.iabs t d a x) :=
  roundV rfl (by simp [VF.ok]) rfl fun _ e => by simp [rawV, e, -Fin.ofNat_eq_cast, int2, int3, int4, flt2, flt3, fltM, sfR, sf, dbl3, half3, logic, vote, tyOk, ftyOk, noFtz, cmpOk, cmpK, cmpQ, low3, z, need, vTail]
theorem ineg (t : Ty) (d : Reg) (a : Reg) (x : VTail) : Statement (.ineg t d a x) :=
  roundV rfl (by simp [VF.ok]) rfl fun _ e => by simp [rawV, e, -Fin.ofNat_eq_cast, int2, int3, int4, flt2, flt3, fltM, sfR, sf, dbl3, half3, logic, vote, tyOk, ftyOk, noFtz, cmpOk, cmpK, cmpQ, low3, z, need, vTail]
theorem isad (t : Ty) (d : Reg) (a : Reg) (b : Reg) (c : Reg) (x : VTail) : Statement (.isad t d a b c x) :=
  roundV rfl (by simp [VF.ok]) rfl fun _ e => by simp [rawV, e, -Fin.ofNat_eq_cast, int2, int3, int4, flt2, flt3, fltM, sfR, sf, dbl3, half3, logic, vote, tyOk, ftyOk, noFtz, cmpOk, cmpK, cmpQ, low3, z, need, vTail]
theorem land (wide : Bool) (d : Reg) (a : Reg) (b : Reg) (x : VTail) : Statement (.land wide d a b x) :=
  roundV rfl (by simp [VF.ok]) rfl fun _ e => by simp [rawV, e, -Fin.ofNat_eq_cast, int2, int3, int4, flt2, flt3, fltM, sfR, sf, dbl3, half3, logic, vote, tyOk, ftyOk, noFtz, cmpOk, cmpK, cmpQ, low3, z, need, vTail]
theorem lor (wide : Bool) (d : Reg) (a : Reg) (b : Reg) (x : VTail) : Statement (.lor wide d a b x) :=
  roundV rfl (by simp [VF.ok]) rfl fun _ e => by simp [rawV, e, -Fin.ofNat_eq_cast, int2, int3, int4, flt2, flt3, fltM, sfR, sf, dbl3, half3, logic, vote, tyOk, ftyOk, noFtz, cmpOk, cmpK, cmpQ, low3, z, need, vTail]
theorem lxor (wide : Bool) (d : Reg) (a : Reg) (b : Reg) (x : VTail) : Statement (.lxor wide d a b x) :=
  roundV rfl (by simp [VF.ok]) rfl fun _ e => by simp [rawV, e, -Fin.ofNat_eq_cast, int2, int3, int4, flt2, flt3, fltM, sfR, sf, dbl3, half3, logic, vote, tyOk, ftyOk, noFtz, cmpOk, cmpK, cmpQ, low3, z, need, vTail]
theorem landn (wide : Bool) (d : Reg) (a : Reg) (b : Reg) (x : VTail) : Statement (.landn wide d a b x) :=
  roundV rfl (by simp [VF.ok]) rfl fun _ e => by simp [rawV, e, -Fin.ofNat_eq_cast, int2, int3, int4, flt2, flt3, fltM, sfR, sf, dbl3, half3, logic, vote, tyOk, ftyOk, noFtz, cmpOk, cmpK, cmpQ, low3, z, need, vTail]
theorem lnot (wide : Bool) (d : Reg) (a : Reg) (x : VTail) : Statement (.lnot wide d a x) :=
  roundV rfl (by simp [VF.ok]) rfl fun _ e => by simp [rawV, e, -Fin.ofNat_eq_cast, int2, int3, int4, flt2, flt3, fltM, sfR, sf, dbl3, half3, logic, vote, tyOk, ftyOk, noFtz, cmpOk, cmpK, cmpQ, low3, z, need, vTail]
theorem lsel (f : Fin 16) (g : Fin 16) (d : Reg) (a : Reg) (b : Reg) (c : Reg) (x : Tail) : Statement (.lsel f g d a b c x) :=
  roundV rfl (by simp [VF.ok]) rfl fun _ e => by simp [rawV, e, -Fin.ofNat_eq_cast, int2, int3, int4, flt2, flt3, fltM, sfR, sf, dbl3, half3, logic, vote, tyOk, ftyOk, noFtz, cmpOk, cmpK, cmpQ, low3, z, need, vTail]
theorem shl (t : Ty) (d : Reg) (a : Reg) (b : Reg) (x : VTail) : Statement (.shl t d a b x) :=
  roundV rfl (by simp [VF.ok]) rfl fun _ e => by simp [rawV, e, -Fin.ofNat_eq_cast, int2, int3, int4, flt2, flt3, fltM, sfR, sf, dbl3, half3, logic, vote, tyOk, ftyOk, noFtz, cmpOk, cmpK, cmpQ, low3, z, need, vTail]
theorem shr (t : Ty) (d : Reg) (a : Reg) (b : Reg) (x : VTail) : Statement (.shr t d a b x) :=
  roundV rfl (by simp [VF.ok]) rfl fun _ e => by simp [rawV, e, -Fin.ofNat_eq_cast, int2, int3, int4, flt2, flt3, fltM, sfR, sf, dbl3, half3, logic, vote, tyOk, ftyOk, noFtz, cmpOk, cmpK, cmpQ, low3, z, need, vTail]
theorem sar (t : Ty) (d : Reg) (a : Reg) (b : Reg) (x : VTail) : Statement (.sar t d a b x) :=
  roundV rfl (by simp [VF.ok]) rfl fun _ e => by simp [rawV, e, -Fin.ofNat_eq_cast, int2, int3, int4, flt2, flt3, fltM, sfR, sf, dbl3, half3, logic, vote, tyOk, ftyOk, noFtz, cmpOk, cmpK, cmpQ, low3, z, need, vTail]
theorem rot (t : Ty) (d : Reg) (a : Reg) (b : Reg) (x : VTail) : Statement (.rot t d a b x) :=
  roundV rfl (by simp [VF.ok]) rfl fun _ e => by simp [rawV, e, -Fin.ofNat_eq_cast, int2, int3, int4, flt2, flt3, fltM, sfR, sf, dbl3, half3, logic, vote, tyOk, ftyOk, noFtz, cmpOk, cmpK, cmpQ, low3, z, need, vTail]
theorem bfx (t : Ty) (d : Reg) (a : Reg) (b : Reg) (c : Reg) (x : VTail) : Statement (.bfx t d a b c x) :=
  roundV rfl (by simp [VF.ok]) rfl fun _ e => by simp [rawV, e, -Fin.ofNat_eq_cast, int2, int3, int4, flt2, flt3, fltM, sfR, sf, dbl3, half3, logic, vote, tyOk, ftyOk, noFtz, cmpOk, cmpK, cmpQ, low3, z, need, vTail]
theorem bfi (t : Ty) (d : Reg) (a : Reg) (b : Reg) (c : Reg) (x : VTail) : Statement (.bfi t d a b c x) :=
  roundV rfl (by simp [VF.ok]) rfl fun _ e => by simp [rawV, e, -Fin.ofNat_eq_cast, int2, int3, int4, flt2, flt3, fltM, sfR, sf, dbl3, half3, logic, vote, tyOk, ftyOk, noFtz, cmpOk, cmpK, cmpQ, low3, z, need, vTail]
theorem popc (t : Ty) (d : Reg) (a : Reg) (x : VTail) : Statement (.popc t d a x) :=
  roundV rfl (by simp [VF.ok]) rfl fun _ e => by simp [rawV, e, -Fin.ofNat_eq_cast, int2, int3, int4, flt2, flt3, fltM, sfR, sf, dbl3, half3, logic, vote, tyOk, ftyOk, noFtz, cmpOk, cmpK, cmpQ, low3, z, need, vTail]
theorem clz (t : Ty) (d : Reg) (a : Reg) (x : VTail) : Statement (.clz t d a x) :=
  roundV rfl (by simp [VF.ok]) rfl fun _ e => by simp [rawV, e, -Fin.ofNat_eq_cast, int2, int3, int4, flt2, flt3, fltM, sfR, sf, dbl3, half3, logic, vote, tyOk, ftyOk, noFtz, cmpOk, cmpK, cmpQ, low3, z, need, vTail]
theorem ctz (t : Ty) (d : Reg) (a : Reg) (x : VTail) : Statement (.ctz t d a x) :=
  roundV rfl (by simp [VF.ok]) rfl fun _ e => by simp [rawV, e, -Fin.ofNat_eq_cast, int2, int3, int4, flt2, flt3, fltM, sfR, sf, dbl3, half3, logic, vote, tyOk, ftyOk, noFtz, cmpOk, cmpK, cmpQ, low3, z, need, vTail]
theorem brev (t : Ty) (d : Reg) (a : Reg) (x : VTail) : Statement (.brev t d a x) :=
  roundV rfl (by simp [VF.ok]) rfl fun _ e => by simp [rawV, e, -Fin.ofNat_eq_cast, int2, int3, int4, flt2, flt3, fltM, sfR, sf, dbl3, half3, logic, vote, tyOk, ftyOk, noFtz, cmpOk, cmpK, cmpQ, low3, z, need, vTail]
theorem lea (t : Ty) (d : Reg) (a : Reg) (b : Reg) (c : Reg) (x : VTail) : Statement (.lea t d a b c x) :=
  roundV rfl (by simp [VF.ok]) rfl fun _ e => by simp [rawV, e, -Fin.ofNat_eq_cast, int2, int3, int4, flt2, flt3, fltM, sfR, sf, dbl3, half3, logic, vote, tyOk, ftyOk, noFtz, cmpOk, cmpK, cmpQ, low3, z, need, vTail]
theorem icmp (k : Cmp) (t : Ty) (q : Fin 8) (a : Reg) (b : Reg) (x : VTail) : Statement (.icmp k t q a b x) :=
  roundV rfl (by simp [VF.ok]) rfl fun _ e => by simp [rawV, e, -Fin.ofNat_eq_cast, int2, int3, int4, flt2, flt3, fltM, sfR, sf, dbl3, half3, logic, vote, tyOk, ftyOk, noFtz, cmpOk, cmpK, cmpQ, low3, z, need, vTail]
theorem sel (t : Ty) (d : Reg) (a : Reg) (b : Reg) (q : Fin 8) (neg : Bool) (x : VTail) : Statement (.sel t d a b q neg x) :=
  roundV rfl (by simp [VF.ok]) rfl fun _ e => by simp [rawV, e, -Fin.ofNat_eq_cast, int2, int3, int4, flt2, flt3, fltM, sfR, sf, dbl3, half3, logic, vote, tyOk, ftyOk, noFtz, cmpOk, cmpK, cmpQ, low3, z, need, vTail]
theorem mov (t : Ty) (d : Reg) (a : Reg) (x : VTail) : Statement (.mov t d a x) :=
  roundV rfl (by simp [VF.ok]) rfl fun _ e => by simp [rawV, e, -Fin.ofNat_eq_cast, int2, int3, int4, flt2, flt3, fltM, sfR, sf, dbl3, half3, logic, vote, tyOk, ftyOk, noFtz, cmpOk, cmpK, cmpQ, low3, z, need, vTail]
theorem movi (d : Reg) (imm : Word) (stall : Fin 16) : Statement (.movi d imm stall) :=
  roundI rfl (by simp [IF.ok]) rfl fun _ h t e => by simp [rawV, h, t, e, z, need]
theorem movhi (d : Reg) (a : Reg) (imm : Word) (stall : Fin 16) : Statement (.movhi d a imm stall) :=
  roundI rfl (by simp [IF.ok]) rfl fun _ h t e => by simp [rawV, h, t, e, z, need]
theorem fadd (t : FTy) (ftz : Bool) (r : Rnd) (d : Reg) (a : Reg) (b : Reg) (x : VTail) : Statement (.fadd t ftz r d a b x) :=
  roundV rfl (by simp [VF.ok]) rfl fun _ e => by simp [rawV, e, -Fin.ofNat_eq_cast, int2, int3, int4, flt2, flt3, fltM, sfR, sf, dbl3, half3, logic, vote, tyOk, ftyOk, noFtz, cmpOk, cmpK, cmpQ, low3, z, need, vTail]
theorem fsub (t : FTy) (ftz : Bool) (r : Rnd) (d : Reg) (a : Reg) (b : Reg) (x : VTail) : Statement (.fsub t ftz r d a b x) :=
  roundV rfl (by simp [VF.ok]) rfl fun _ e => by simp [rawV, e, -Fin.ofNat_eq_cast, int2, int3, int4, flt2, flt3, fltM, sfR, sf, dbl3, half3, logic, vote, tyOk, ftyOk, noFtz, cmpOk, cmpK, cmpQ, low3, z, need, vTail]
theorem fmul (t : FTy) (ftz : Bool) (r : Rnd) (d : Reg) (a : Reg) (b : Reg) (x : VTail) : Statement (.fmul t ftz r d a b x) :=
  roundV rfl (by simp [VF.ok]) rfl fun _ e => by simp [rawV, e, -Fin.ofNat_eq_cast, int2, int3, int4, flt2, flt3, fltM, sfR, sf, dbl3, half3, logic, vote, tyOk, ftyOk, noFtz, cmpOk, cmpK, cmpQ, low3, z, need, vTail]
theorem ffma (t : FTy) (ftz : Bool) (r : Rnd) (d : Reg) (a : Reg) (b : Reg) (c : Reg) (x : VTail) : Statement (.ffma t ftz r d a b c x) :=
  roundV rfl (by simp [VF.ok]) rfl fun _ e => by simp [rawV, e, -Fin.ofNat_eq_cast, int2, int3, int4, flt2, flt3, fltM, sfR, sf, dbl3, half3, logic, vote, tyOk, ftyOk, noFtz, cmpOk, cmpK, cmpQ, low3, z, need, vTail]
theorem fmin (t : FTy) (ftz : Bool) (d : Reg) (a : Reg) (b : Reg) (x : VTail) : Statement (.fmin t ftz d a b x) :=
  roundV rfl (by simp [VF.ok]) rfl fun _ e => by simp [rawV, e, -Fin.ofNat_eq_cast, int2, int3, int4, flt2, flt3, fltM, sfR, sf, dbl3, half3, logic, vote, tyOk, ftyOk, noFtz, cmpOk, cmpK, cmpQ, low3, z, need, vTail]
theorem fmax (t : FTy) (ftz : Bool) (d : Reg) (a : Reg) (b : Reg) (x : VTail) : Statement (.fmax t ftz d a b x) :=
  roundV rfl (by simp [VF.ok]) rfl fun _ e => by simp [rawV, e, -Fin.ofNat_eq_cast, int2, int3, int4, flt2, flt3, fltM, sfR, sf, dbl3, half3, logic, vote, tyOk, ftyOk, noFtz, cmpOk, cmpK, cmpQ, low3, z, need, vTail]
theorem fneg (t : FTy) (d : Reg) (a : Reg) (x : VTail) : Statement (.fneg t d a x) :=
  roundV rfl (by simp [VF.ok]) rfl fun _ e => by simp [rawV, e, -Fin.ofNat_eq_cast, int2, int3, int4, flt2, flt3, fltM, sfR, sf, dbl3, half3, logic, vote, tyOk, ftyOk, noFtz, cmpOk, cmpK, cmpQ, low3, z, need, vTail]
theorem fabs (t : FTy) (d : Reg) (a : Reg) (x : VTail) : Statement (.fabs t d a x) :=
  roundV rfl (by simp [VF.ok]) rfl fun _ e => by simp [rawV, e, -Fin.ofNat_eq_cast, int2, int3, int4, flt2, flt3, fltM, sfR, sf, dbl3, half3, logic, vote, tyOk, ftyOk, noFtz, cmpOk, cmpK, cmpQ, low3, z, need, vTail]
theorem fcmp (k : Cmp) (t : FTy) (ftz : Bool) (q : Fin 8) (a : Reg) (b : Reg) (x : VTail) : Statement (.fcmp k t ftz q a b x) :=
  roundV rfl (by simp [VF.ok]) rfl fun _ e => by simp [rawV, e, -Fin.ofNat_eq_cast, int2, int3, int4, flt2, flt3, fltM, sfR, sf, dbl3, half3, logic, vote, tyOk, ftyOk, noFtz, cmpOk, cmpK, cmpQ, low3, z, need, vTail]
theorem fclass (t : FTy) (d : Reg) (a : Reg) (x : VTail) : Statement (.fclass t d a x) :=
  roundV rfl (by simp [VF.ok]) rfl fun _ e => by simp [rawV, e, -Fin.ofNat_eq_cast, int2, int3, int4, flt2, flt3, fltM, sfR, sf, dbl3, half3, logic, vote, tyOk, ftyOk, noFtz, cmpOk, cmpK, cmpQ, low3, z, need, vTail]
theorem frcp (ftz : Bool) (r : Rnd) (d : Reg) (a : Reg) (x : VTail) : Statement (.frcp ftz r d a x) :=
  roundV rfl (by simp [VF.ok]) rfl fun _ e => by simp [rawV, e, -Fin.ofNat_eq_cast, int2, int3, int4, flt2, flt3, fltM, sfR, sf, dbl3, half3, logic, vote, tyOk, ftyOk, noFtz, cmpOk, cmpK, cmpQ, low3, z, need, vTail]
theorem frsq (ftz : Bool) (d : Reg) (a : Reg) (x : VTail) : Statement (.frsq ftz d a x) :=
  roundV rfl (by simp [VF.ok]) rfl fun _ e => by simp [rawV, e, -Fin.ofNat_eq_cast, int2, int3, int4, flt2, flt3, fltM, sfR, sf, dbl3, half3, logic, vote, tyOk, ftyOk, noFtz, cmpOk, cmpK, cmpQ, low3, z, need, vTail]
theorem fsqrt (ftz : Bool) (r : Rnd) (d : Reg) (a : Reg) (x : VTail) : Statement (.fsqrt ftz r d a x) :=
  roundV rfl (by simp [VF.ok]) rfl fun _ e => by simp [rawV, e, -Fin.ofNat_eq_cast, int2, int3, int4, flt2, flt3, fltM, sfR, sf, dbl3, half3, logic, vote, tyOk, ftyOk, noFtz, cmpOk, cmpK, cmpQ, low3, z, need, vTail]
theorem fexp2 (ftz : Bool) (d : Reg) (a : Reg) (x : VTail) : Statement (.fexp2 ftz d a x) :=
  roundV rfl (by simp [VF.ok]) rfl fun _ e => by simp [rawV, e, -Fin.ofNat_eq_cast, int2, int3, int4, flt2, flt3, fltM, sfR, sf, dbl3, half3, logic, vote, tyOk, ftyOk, noFtz, cmpOk, cmpK, cmpQ, low3, z, need, vTail]
theorem flog2 (ftz : Bool) (d : Reg) (a : Reg) (x : VTail) : Statement (.flog2 ftz d a x) :=
  roundV rfl (by simp [VF.ok]) rfl fun _ e => by simp [rawV, e, -Fin.ofNat_eq_cast, int2, int3, int4, flt2, flt3, fltM, sfR, sf, dbl3, half3, logic, vote, tyOk, ftyOk, noFtz, cmpOk, cmpK, cmpQ, low3, z, need, vTail]
theorem fsin (ftz : Bool) (d : Reg) (a : Reg) (x : VTail) : Statement (.fsin ftz d a x) :=
  roundV rfl (by simp [VF.ok]) rfl fun _ e => by simp [rawV, e, -Fin.ofNat_eq_cast, int2, int3, int4, flt2, flt3, fltM, sfR, sf, dbl3, half3, logic, vote, tyOk, ftyOk, noFtz, cmpOk, cmpK, cmpQ, low3, z, need, vTail]
theorem fcos (ftz : Bool) (d : Reg) (a : Reg) (x : VTail) : Statement (.fcos ftz d a x) :=
  roundV rfl (by simp [VF.ok]) rfl fun _ e => by simp [rawV, e, -Fin.ofNat_eq_cast, int2, int3, int4, flt2, flt3, fltM, sfR, sf, dbl3, half3, logic, vote, tyOk, ftyOk, noFtz, cmpOk, cmpK, cmpQ, low3, z, need, vTail]
theorem dadd (r : Rnd) (d : Reg) (a : Reg) (b : Reg) (x : VTail) : Statement (.dadd r d a b x) :=
  roundV rfl (by simp [VF.ok]) rfl fun _ e => by simp [rawV, e, -Fin.ofNat_eq_cast, int2, int3, int4, flt2, flt3, fltM, sfR, sf, dbl3, half3, logic, vote, tyOk, ftyOk, noFtz, cmpOk, cmpK, cmpQ, low3, z, need, vTail]
theorem dmul (r : Rnd) (d : Reg) (a : Reg) (b : Reg) (x : VTail) : Statement (.dmul r d a b x) :=
  roundV rfl (by simp [VF.ok]) rfl fun _ e => by simp [rawV, e, -Fin.ofNat_eq_cast, int2, int3, int4, flt2, flt3, fltM, sfR, sf, dbl3, half3, logic, vote, tyOk, ftyOk, noFtz, cmpOk, cmpK, cmpQ, low3, z, need, vTail]
theorem dfma (r : Rnd) (d : Reg) (a : Reg) (b : Reg) (c : Reg) (x : VTail) : Statement (.dfma r d a b c x) :=
  roundV rfl (by simp [VF.ok]) rfl fun _ e => by simp [rawV, e, -Fin.ofNat_eq_cast, int2, int3, int4, flt2, flt3, fltM, sfR, sf, dbl3, half3, logic, vote, tyOk, ftyOk, noFtz, cmpOk, cmpK, cmpQ, low3, z, need, vTail]
theorem dcmp (k : Cmp) (q : Fin 8) (a : Reg) (b : Reg) (x : VTail) : Statement (.dcmp k q a b x) :=
  roundV rfl (by simp [VF.ok]) rfl fun _ e => by simp [rawV, e, -Fin.ofNat_eq_cast, int2, int3, int4, flt2, flt3, fltM, sfR, sf, dbl3, half3, logic, vote, tyOk, ftyOk, noFtz, cmpOk, cmpK, cmpQ, low3, z, need, vTail]
theorem hadd2 (t : FTy) (r : Rnd) (d : Reg) (a : Reg) (b : Reg) (x : VTail) : Statement (.hadd2 t r d a b x) :=
  roundV rfl (by simp [VF.ok]) rfl fun _ e => by simp [rawV, e, -Fin.ofNat_eq_cast, int2, int3, int4, flt2, flt3, fltM, sfR, sf, dbl3, half3, logic, vote, tyOk, ftyOk, noFtz, cmpOk, cmpK, cmpQ, low3, z, need, vTail]
theorem hmul2 (t : FTy) (r : Rnd) (d : Reg) (a : Reg) (b : Reg) (x : VTail) : Statement (.hmul2 t r d a b x) :=
  roundV rfl (by simp [VF.ok]) rfl fun _ e => by simp [rawV, e, -Fin.ofNat_eq_cast, int2, int3, int4, flt2, flt3, fltM, sfR, sf, dbl3, half3, logic, vote, tyOk, ftyOk, noFtz, cmpOk, cmpK, cmpQ, low3, z, need, vTail]
theorem hfma2 (t : FTy) (r : Rnd) (d : Reg) (a : Reg) (b : Reg) (c : Reg) (x : VTail) : Statement (.hfma2 t r d a b c x) :=
  roundV rfl (by simp [VF.ok]) rfl fun _ e => by simp [rawV, e, -Fin.ofNat_eq_cast, int2, int3, int4, flt2, flt3, fltM, sfR, sf, dbl3, half3, logic, vote, tyOk, ftyOk, noFtz, cmpOk, cmpK, cmpQ, low3, z, need, vTail]
theorem cvt (dt : Ty) (st : Ty) (d : Reg) (a : Reg) (x : VTail) : Statement (.cvt dt st d a x) :=
  roundV rfl (by simp [VF.ok]) rfl fun _ e => by simp [rawV, e, -Fin.ofNat_eq_cast, int2, int3, int4, flt2, flt3, fltM, sfR, sf, dbl3, half3, logic, vote, tyOk, ftyOk, noFtz, cmpOk, cmpK, cmpQ, low3, z, need, vTail]
theorem cvtq (slot : Fin 8) (d : Reg) (a : Reg) (b : Reg) (x : VTail) : Statement (.cvtq slot d a b x) :=
  roundV rfl (by simp [VF.ok]) rfl fun _ e => by simp [rawV, e, -Fin.ofNat_eq_cast, int2, int3, int4, flt2, flt3, fltM, sfR, sf, dbl3, half3, logic, vote, tyOk, ftyOk, noFtz, cmpOk, cmpK, cmpQ, low3, z, need, vTail]
theorem cvtd (slot : Fin 8) (d : Reg) (a : Reg) (b : Reg) (x : VTail) : Statement (.cvtd slot d a b x) :=
  roundV rfl (by simp [VF.ok]) rfl fun _ e => by simp [rawV, e, -Fin.ofNat_eq_cast, int2, int3, int4, flt2, flt3, fltM, sfR, sf, dbl3, half3, logic, vote, tyOk, ftyOk, noFtz, cmpOk, cmpK, cmpQ, low3, z, need, vTail]
theorem trpack (d : Reg) (a : Reg) (x : VTail) : Statement (.trpack d a x) :=
  roundV rfl (by simp [VF.ok]) rfl fun _ e => by simp [rawV, e, -Fin.ofNat_eq_cast, int2, int3, int4, flt2, flt3, fltM, sfR, sf, dbl3, half3, logic, vote, tyOk, ftyOk, noFtz, cmpOk, cmpK, cmpQ, low3, z, need, vTail]
theorem trunpack (d : Reg) (a : Reg) (x : VTail) : Statement (.trunpack d a x) :=
  roundV rfl (by simp [VF.ok]) rfl fun _ e => by simp [rawV, e, -Fin.ofNat_eq_cast, int2, int3, int4, flt2, flt3, fltM, sfR, sf, dbl3, half3, logic, vote, tyOk, ftyOk, noFtz, cmpOk, cmpK, cmpQ, low3, z, need, vTail]
theorem pack2 (t : Ty) (d : Reg) (a : Reg) (b : Reg) (x : VTail) : Statement (.pack2 t d a b x) :=
  roundV rfl (by simp [VF.ok]) rfl fun _ e => by simp [rawV, e, -Fin.ofNat_eq_cast, int2, int3, int4, flt2, flt3, fltM, sfR, sf, dbl3, half3, logic, vote, tyOk, ftyOk, noFtz, cmpOk, cmpK, cmpQ, low3, z, need, vTail]
theorem shfl (m : ShflMode) (t : Ty) (d : Reg) (a : Reg) (b : Reg) (c : Reg) (x : VTail) : Statement (.shfl m t d a b c x) :=
  roundV rfl (by simp [VF.ok]) rfl fun _ e => by simp [rawV, e, -Fin.ofNat_eq_cast, int2, int3, int4, flt2, flt3, fltM, sfR, sf, dbl3, half3, logic, vote, tyOk, ftyOk, noFtz, cmpOk, cmpK, cmpQ, low3, z, need, vTail]
theorem voteBallot (t : Ty) (d : Reg) (q : Fin 8) (x : VTail) : Statement (.voteBallot t d q x) :=
  roundV rfl (by simp [VF.ok]) rfl fun _ e => by simp [rawV, e, -Fin.ofNat_eq_cast, int2, int3, int4, flt2, flt3, fltM, sfR, sf, dbl3, half3, logic, vote, tyOk, ftyOk, noFtz, cmpOk, cmpK, cmpQ, low3, z, need, vTail]
theorem voteAny (qd : Fin 8) (q : Fin 8) (x : VTail) : Statement (.voteAny qd q x) :=
  roundV rfl (by simp [VF.ok]) rfl fun _ e => by simp [rawV, e, -Fin.ofNat_eq_cast, int2, int3, int4, flt2, flt3, fltM, sfR, sf, dbl3, half3, logic, vote, tyOk, ftyOk, noFtz, cmpOk, cmpK, cmpQ, low3, z, need, vTail]
theorem voteAll (qd : Fin 8) (q : Fin 8) (x : VTail) : Statement (.voteAll qd q x) :=
  roundV rfl (by simp [VF.ok]) rfl fun _ e => by simp [rawV, e, -Fin.ofNat_eq_cast, int2, int3, int4, flt2, flt3, fltM, sfR, sf, dbl3, half3, logic, vote, tyOk, ftyOk, noFtz, cmpOk, cmpK, cmpQ, low3, z, need, vTail]
theorem voteEq (t : Ty) (qd : Fin 8) (a : Reg) (x : VTail) : Statement (.voteEq t qd a x) :=
  roundV rfl (by simp [VF.ok]) rfl fun _ e => by simp [rawV, e, -Fin.ofNat_eq_cast, int2, int3, int4, flt2, flt3, fltM, sfR, sf, dbl3, half3, logic, vote, tyOk, ftyOk, noFtz, cmpOk, cmpK, cmpQ, low3, z, need, vTail]
theorem scan (o : ScanOp) (t : Ty) (d : Reg) (a : Reg) (x : VTail) : Statement (.scan o t d a x) :=
  roundV rfl (by simp [VF.ok]) rfl fun _ e => by simp [rawV, e, -Fin.ofNat_eq_cast, int2, int3, int4, flt2, flt3, fltM, sfR, sf, dbl3, half3, logic, vote, tyOk, ftyOk, noFtz, cmpOk, cmpK, cmpQ, low3, z, need, vTail]
theorem redux (o : ScanOp) (t : Ty) (d : Reg) (a : Reg) (x : VTail) : Statement (.redux o t d a x) :=
  roundV rfl (by simp [VF.ok]) rfl fun _ e => by simp [rawV, e, -Fin.ofNat_eq_cast, int2, int3, int4, flt2, flt3, fltM, sfR, sf, dbl3, half3, logic, vote, tyOk, ftyOk, noFtz, cmpOk, cmpK, cmpQ, low3, z, need, vTail]
theorem lanes (m : LanesMode) (t : Ty) (d : Reg) (x : VTail) : Statement (.lanes m t d x) :=
  roundV rfl (by simp [VF.ok]) rfl fun _ e => by simp [rawV, e, -Fin.ofNat_eq_cast, int2, int3, int4, flt2, flt3, fltM, sfR, sf, dbl3, half3, logic, vote, tyOk, ftyOk, noFtz, cmpOk, cmpK, cmpQ, low3, z, need, vTail]
theorem bra (off : Word) (x : Tail) : Statement (.bra off x) :=
  roundC rfl (by simp [CF.ok]) rfl fun _ e => by simp [rawC, e, kind0, noRej, noOff, rejOk, rejOf, z, need, cTail]
theorem brc (k : BrCond) (c : Reg) (off : Word) (x : Tail) : Statement (.brc k c off x) :=
  roundC rfl (by simp [CF.ok]) rfl fun _ e => by simp [rawC, e, kind0, noRej, noOff, rejOk, rejOf, z, need, cTail]
theorem brx (t : Reg) (x : Tail) : Statement (.brx t x) :=
  roundC rfl (by simp [CF.ok]) rfl fun _ e => by simp [rawC, e, kind0, noRej, noOff, rejOk, rejOf, z, need, cTail]
theorem call (l : Reg) (off : Word) (x : Tail) : Statement (.call l off x) :=
  roundC rfl (by simp [CF.ok]) rfl fun _ e => by simp [rawC, e, kind0, noRej, noOff, rejOk, rejOf, z, need, cTail]
theorem callx (t : Reg) (x : Tail) : Statement (.callx t x) :=
  roundC rfl (by simp [CF.ok]) rfl fun _ e => by simp [rawC, e, kind0, noRej, noOff, rejOk, rejOf, z, need, cTail]
theorem ret (l : Reg) (x : Tail) : Statement (.ret l x) :=
  roundC rfl (by simp [CF.ok]) rfl fun _ e => by simp [rawC, e, kind0, noRej, noOff, rejOk, rejOf, z, need, cTail]
theorem exit (x : Tail) : Statement (.exit x) :=
  roundC rfl (by simp [CF.ok]) rfl fun _ e => by simp [rawC, e, kind0, noRej, noOff, rejOk, rejOf, z, need, cTail]
theorem yield (x : Tail) : Statement (.yield x) :=
  roundC rfl (by simp [CF.ok]) rfl fun _ e => by simp [rawC, e, kind0, noRej, noOff, rejOk, rejOf, z, need, cTail]
theorem nop (x : Tail) : Statement (.nop x) :=
  roundC rfl (by simp [CF.ok]) rfl fun _ e => by simp [rawC, e, kind0, noRej, noOff, rejOk, rejOf, z, need, cTail]
theorem jenter (j : Fin 12) (x : Tail) : Statement (.jenter j x) :=
  roundC rfl (by simp [CF.ok]) rfl fun _ e => by simp [rawC, e, kind0, noRej, noOff, rejOk, rejOf, z, need, cTail]
theorem jquit (j : Fin 12) (x : Tail) : Statement (.jquit j x) :=
  roundC rfl (by simp [CF.ok]) rfl fun _ e => by simp [rawC, e, kind0, noRej, noOff, rejOk, rejOf, z, need, cTail]
theorem jwait (j : Fin 12) (x : Tail) : Statement (.jwait j x) :=
  roundC rfl (by simp [CF.ok]) rfl fun _ e => by simp [rawC, e, kind0, noRej, noOff, rejOk, rejOf, z, need, cTail]
theorem jread (d : Reg) (j : Fin 12) (x : Tail) : Statement (.jread d j x) :=
  roundC rfl (by simp [CF.ok]) rfl fun _ e => by simp [rawC, e, kind0, noRej, noOff, rejOk, rejOf, z, need, cTail]
theorem jwrite (j : Fin 12) (a : Reg) (x : Tail) : Statement (.jwrite j a x) :=
  roundC rfl (by simp [CF.ok]) rfl fun _ e => by simp [rawC, e, kind0, noRej, noOff, rejOk, rejOf, z, need, cTail]
theorem jclear (j : Fin 12) (x : Tail) : Statement (.jclear j x) :=
  roundC rfl (by simp [CF.ok]) rfl fun _ e => by simp [rawC, e, kind0, noRej, noOff, rejOk, rejOf, z, need, cTail]
theorem ld (t : MTy) (d : Reg) (addr : Reg) (off : BitVec 12) (sc : Scope) (o : Order) (h : Hint) (x : CTail) : Statement (.ld t d addr off sc o h x) :=
  roundM rfl (by simp [MF.ok]) rfl fun _ e => by simp [rawM, e, sohOk, mPlain, z, need, mTail]
theorem st (t : MTy) (d : Reg) (addr : Reg) (off : BitVec 12) (sc : Scope) (o : Order) (h : Hint) (x : CTail) : Statement (.st t d addr off sc o h x) :=
  roundM rfl (by simp [MF.ok]) rfl fun _ e => by simp [rawM, e, sohOk, mPlain, z, need, mTail]
theorem ldc (t : MTy) (d : Reg) (addr : Reg) (off : BitVec 12) (x : CTail) : Statement (.ldc t d addr off x) :=
  roundM rfl (by simp [MF.ok]) rfl fun _ e => by simp [rawM, e, sohOk, mPlain, z, need, mTail]
theorem pf (addr : Reg) (off : BitVec 12) (h : Hint) (x : CTail) : Statement (.pf addr off h x) :=
  roundM rfl (by simp [MF.ok]) rfl fun _ e => by simp [rawM, e, sohOk, mPlain, z, need, mTail]
theorem cflush (addr : Reg) (off : BitVec 12) (x : CTail) : Statement (.cflush addr off x) :=
  roundM rfl (by simp [MF.ok]) rfl fun _ e => by simp [rawM, e, sohOk, mPlain, z, need, mTail]
theorem cinval (addr : Reg) (off : BitVec 12) (x : CTail) : Statement (.cinval addr off x) :=
  roundM rfl (by simp [MF.ok]) rfl fun _ e => by simp [rawM, e, sohOk, mPlain, z, need, mTail]
theorem ckeep (k : Reg) (b : Reg) (l : Reg) (w : Reg) (x : Tail) : Statement (.ckeep k b l w x) :=
  roundX rfl (by simp [XF.ok]) rfl fun _ e => by simp [rawX, e, slot0, sub0, ctr0, tileOk, z, need, xTail, xBare]
theorem cunkeep (k : Reg) (x : Tail) : Statement (.cunkeep k x) :=
  roundX rfl (by simp [XF.ok]) rfl fun _ e => by simp [rawX, e, slot0, sub0, ctr0, tileOk, z, need, xTail, xBare]
theorem binit (e : Reg) (addr : Reg) (off : BitVec 12) (x : CTail) : Statement (.binit e addr off x) :=
  roundM rfl (by simp [MF.ok]) rfl fun _ e => by simp [rawM, e, sohOk, mPlain, z, need, mTail]
theorem barrive (d : Reg) (addr : Reg) (off : BitVec 12) (x : CTail) : Statement (.barrive d addr off x) :=
  roundM rfl (by simp [MF.ok]) rfl fun _ e => by simp [rawM, e, sohOk, mPlain, z, need, mTail]
theorem bwait (t : Reg) (addr : Reg) (off : BitVec 12) (x : CTail) : Statement (.bwait t addr off x) :=
  roundM rfl (by simp [MF.ok]) rfl fun _ e => by simp [rawM, e, sohOk, mPlain, z, need, mTail]
theorem btest (d : Reg) (addr : Reg) (off : BitVec 12) (x : CTail) : Statement (.btest d addr off x) :=
  roundM rfl (by simp [MF.ok]) rfl fun _ e => by simp [rawM, e, sohOk, mPlain, z, need, mTail]
theorem bexpect (c : Reg) (addr : Reg) (off : BitVec 12) (x : CTail) : Statement (.bexpect c addr off x) :=
  roundM rfl (by simp [MF.ok]) rfl fun _ e => by simp [rawM, e, sohOk, mPlain, z, need, mTail]
theorem bsync (stall : Fin 16) : Statement (.bsync stall) :=
  roundX rfl (by simp [XF.ok]) rfl fun _ e => by simp [rawX, e, slot0, sub0, ctr0, tileOk, z, need, xTail, xBare]
theorem xcopy (d : Reg) (s : Reg) (n : Reg) (b : Reg) (out : Bool) (x : CTail) : Statement (.xcopy d s n b out x) :=
  roundX rfl (by simp [XF.ok]) rfl fun _ e => by simp [rawX, e, slot0, sub0, ctr0, tileOk, z, need, xTail, xBare]
theorem xgather (d : Reg) (s : Reg) (n : Reg) (b : Reg) (out : Bool) (x : CTail) : Statement (.xgather d s n b out x) :=
  roundX rfl (by simp [XF.ok]) rfl fun _ e => by simp [rawX, e, slot0, sub0, ctr0, tileOk, z, need, xTail, xBare]
theorem xscatter (d : Reg) (s : Reg) (n : Reg) (b : Reg) (out : Bool) (x : CTail) : Statement (.xscatter d s n b out x) :=
  roundX rfl (by simp [XF.ok]) rfl fun _ e => by simp [rawX, e, slot0, sub0, ctr0, tileOk, z, need, xTail, xBare]
theorem xmcast (d : Reg) (s : Reg) (n : Reg) (l : Reg) (x : CTail) : Statement (.xmcast d s n l x) :=
  roundX rfl (by simp [XF.ok]) rfl fun _ e => by simp [rawX, e, slot0, sub0, ctr0, tileOk, z, need, xTail, xBare]
theorem xfill (d : Reg) (p : Reg) (n : Reg) (b : Reg) (out : Bool) (x : CTail) : Statement (.xfill d p n b out x) :=
  roundX rfl (by simp [XF.ok]) rfl fun _ e => by simp [rawX, e, slot0, sub0, ctr0, tileOk, z, need, xTail, xBare]
theorem atom (o : AtomOp) (w : AWidth) (d : Reg) (addr : Reg) (v : Reg) (sc : Scope) (ord : Order) (h : Hint) (x : CTail) : Statement (.atom o w d addr v sc ord h x) :=
  roundA rfl (by simp [AF.ok]) rfl fun _ e => by simp [rawA, e, sohOk, low3, z, need, aTail, aBare]
theorem atomx (w : AWidth) (d : Reg) (addr : Reg) (v : Reg) (sc : Scope) (ord : Order) (h : Hint) (x : CTail) : Statement (.atomx w d addr v sc ord h x) :=
  roundA rfl (by simp [AF.ok]) rfl fun _ e => by simp [rawA, e, sohOk, low3, z, need, aTail, aBare]
theorem red (o : AtomOp) (w : AWidth) (addr : Reg) (v : Reg) (sc : Scope) (ord : Order) (h : Hint) (x : CTail) : Statement (.red o w addr v sc ord h x) :=
  roundA rfl (by simp [AF.ok]) rfl fun _ e => by simp [rawA, e, sohOk, low3, z, need, aTail, aBare]
theorem fence (f : Fin 8) (ord : Order) (sc : Scope) (x : Tail) : Statement (.fence f ord sc x) :=
  roundA rfl (by simp [AF.ok]) rfl fun _ e => by simp [rawA, e, sohOk, low3, z, need, aTail, aBare]
theorem fwait (f : Fin 8) (x : Tail) : Statement (.fwait f x) :=
  roundA rfl (by simp [AF.ok]) rfl fun _ e => by simp [rawA, e, sohOk, low3, z, need, aTail, aBare]
theorem fpoll (q : Fin 8) (f : Fin 8) (x : Tail) : Statement (.fpoll q f x) :=
  roundA rfl (by simp [AF.ok]) rfl fun _ e => by simp [rawA, e, sohOk, low3, z, need, aTail, aBare]
theorem macq (t : Fin 64) (x : Tail) : Statement (.macq t x) :=
  roundX rfl (by simp [XF.ok]) rfl fun _ e => by simp [rawX, e, slot0, sub0, ctr0, tileOk, z, need, xTail, xBare]
theorem mrel (t : Fin 64) (x : Tail) : Statement (.mrel t x) :=
  roundX rfl (by simp [XF.ok]) rfl fun _ e => by simp [rawX, e, slot0, sub0, ctr0, tileOk, z, need, xTail, xBare]
theorem mzero (t : Fin 64) (x : CTail) : Statement (.mzero t x) :=
  roundX rfl (by simp [XF.ok]) rfl fun _ e => by simp [rawX, e, slot0, sub0, ctr0, tileOk, z, need, xTail, xBare]
theorem mload (t : Fin 64) (src : Reg) (shape : Reg) (slot : Fin 8) (x : CTail) : Statement (.mload t src shape slot x) :=
  roundX rfl (by simp [XF.ok]) rfl fun _ e => by simp [rawX, e, slot0, sub0, ctr0, tileOk, z, need, xTail, xBare]
theorem mloadRaw (t : Fin 64) (src : Reg) (shape : Reg) (x : CTail) : Statement (.mloadRaw t src shape x) :=
  roundX rfl (by simp [XF.ok]) rfl fun _ e => by simp [rawX, e, slot0, sub0, ctr0, tileOk, z, need, xTail, xBare]
theorem mma (t : Fin 64) (a : Reg) (b : Reg) (shape : Reg) (slot : Fin 8) (x : CTail) : Statement (.mma t a b shape slot x) :=
  roundX rfl (by simp [XF.ok]) rfl fun _ e => by simp [rawX, e, slot0, sub0, ctr0, tileOk, z, need, xTail, xBare]
theorem mmaSet (t : Fin 64) (a : Reg) (b : Reg) (shape : Reg) (slot : Fin 8) (x : CTail) : Statement (.mmaSet t a b shape slot x) :=
  roundX rfl (by simp [XF.ok]) rfl fun _ e => by simp [rawX, e, slot0, sub0, ctr0, tileOk, z, need, xTail, xBare]
theorem mdrain (t : Fin 64) (dst : Reg) (scale : Reg) (shape : Reg) (slot : Fin 8) (x : CTail) : Statement (.mdrain t dst scale shape slot x) :=
  roundX rfl (by simp [XF.ok]) rfl fun _ e => by simp [rawX, e, slot0, sub0, ctr0, tileOk, z, need, xTail, xBare]
theorem mdrainRaw (t : Fin 64) (dst : Reg) (shape : Reg) (x : CTail) : Statement (.mdrainRaw t dst shape x) :=
  roundX rfl (by simp [XF.ok]) rfl fun _ e => by simp [rawX, e, slot0, sub0, ctr0, tileOk, z, need, xTail, xBare]
theorem mread (d : Reg) (t : Fin 64) (pos : Reg) (scale : Reg) (slot : Fin 8) (x : CTail) : Statement (.mread d t pos scale slot x) :=
  roundX rfl (by simp [XF.ok]) rfl fun _ e => by simp [rawX, e, slot0, sub0, ctr0, tileOk, z, need, xTail, xBare]
theorem mcommit (d : Reg) (x : Tail) : Statement (.mcommit d x) :=
  roundX rfl (by simp [XF.ok]) rfl fun _ e => by simp [rawX, e, slot0, sub0, ctr0, tileOk, z, need, xTail, xBare]
theorem mwait (a : Reg) (x : Tail) : Statement (.mwait a x) :=
  roundX rfl (by simp [XF.ok]) rfl fun _ e => by simp [rawX, e, slot0, sub0, ctr0, tileOk, z, need, xTail, xBare]
theorem mprog (d : Reg) (x : Tail) : Statement (.mprog d x) :=
  roundX rfl (by simp [XF.ok]) rfl fun _ e => by simp [rawX, e, slot0, sub0, ctr0, tileOk, z, need, xTail, xBare]
theorem mbtake (x : Tail) : Statement (.mbtake x) :=
  roundX rfl (by simp [XF.ok]) rfl fun _ e => by simp [rawX, e, slot0, sub0, ctr0, tileOk, z, need, xTail, xBare]
theorem mbpass (x : Tail) : Statement (.mbpass x) :=
  roundX rfl (by simp [XF.ok]) rfl fun _ e => by simp [rawX, e, slot0, sub0, ctr0, tileOk, z, need, xTail, xBare]
theorem spawn (e : Reg) (args : Reg) (x : CTail) : Statement (.spawn e args x) :=
  roundT rfl (by simp [XF.ok]) rfl fun _ e => by simp [rawT, e, slot0, sub0, ctr0, isS0, low3, z, need, xTail, xBare]
theorem rpush (src : Reg) (x : CTail) : Statement (.rpush src x) :=
  roundT rfl (by simp [XF.ok]) rfl fun _ e => by simp [rawT, e, slot0, sub0, ctr0, isS0, low3, z, need, xTail, xBare]
theorem rpushRing (r : Reg) (src : Reg) (n : Reg) (x : CTail) : Statement (.rpushRing r src n x) :=
  roundT rfl (by simp [XF.ok]) rfl fun _ e => by simp [rawT, e, slot0, sub0, ctr0, isS0, low3, z, need, xTail, xBare]
theorem rpop (dst : Reg) (st : Reg) (x : CTail) : Statement (.rpop dst st x) :=
  roundT rfl (by simp [XF.ok]) rfl fun _ e => by simp [rawT, e, slot0, sub0, ctr0, isS0, low3, z, need, xTail, xBare]
theorem rpopRing (r : Reg) (dst : Reg) (st : Reg) (x : CTail) : Statement (.rpopRing r dst st x) :=
  roundT rfl (by simp [XF.ok]) rfl fun _ e => by simp [rawT, e, slot0, sub0, ctr0, isS0, low3, z, need, xTail, xBare]
theorem reos (x : CTail) : Statement (.reos x) :=
  roundT rfl (by simp [XF.ok]) rfl fun _ e => by simp [rawT, e, slot0, sub0, ctr0, isS0, low3, z, need, xTail, xBare]
theorem reosRing (r : Reg) (n : Reg) (x : CTail) : Statement (.reosRing r n x) :=
  roundT rfl (by simp [XF.ok]) rfl fun _ e => by simp [rawT, e, slot0, sub0, ctr0, isS0, low3, z, need, xTail, xBare]
theorem pbind (d : Reg) (p : Reg) (x : CTail) : Statement (.pbind d p x) :=
  roundT rfl (by simp [XF.ok]) rfl fun _ e => by simp [rawT, e, slot0, sub0, ctr0, isS0, low3, z, need, xTail, xBare]
theorem punbind (h : Reg) (x : CTail) : Statement (.punbind h x) :=
  roundT rfl (by simp [XF.ok]) rfl fun _ e => by simp [rawT, e, slot0, sub0, ctr0, isS0, low3, z, need, xTail, xBare]
theorem pquery (d : Reg) (h : Reg) (q : Reg) (x : CTail) : Statement (.pquery d h q x) :=
  roundT rfl (by simp [XF.ok]) rfl fun _ e => by simp [rawT, e, slot0, sub0, ctr0, isS0, low3, z, need, xTail, xBare]
theorem migr (q : Fin 8) (addr : Reg) (x : Tail) : Statement (.migr q addr x) :=
  roundT rfl (by simp [XF.ok]) rfl fun _ e => by simp [rawT, e, slot0, sub0, ctr0, isS0, low3, z, need, xTail, xBare]
theorem creduce (st : Reg) (quad : Reg) (c : Reg) (h : Reg) (x : CTail) : Statement (.creduce st quad c h x) :=
  roundT rfl (by simp [XF.ok]) rfl fun _ e => by simp [rawT, e, slot0, sub0, ctr0, isS0, low3, z, need, xTail, xBare]
theorem cbcast (quad : Reg) (c : Reg) (h : Reg) (x : CTail) : Statement (.cbcast quad c h x) :=
  roundT rfl (by simp [XF.ok]) rfl fun _ e => by simp [rawT, e, slot0, sub0, ctr0, isS0, low3, z, need, xTail, xBare]
theorem cmembOpen (d : Reg) (p : Reg) (o : Reg) (h : Reg) (x : CTail) : Statement (.cmembOpen d p o h x) :=
  roundT rfl (by simp [XF.ok]) rfl fun _ e => by simp [rawT, e, slot0, sub0, ctr0, isS0, low3, z, need, xTail, xBare]
theorem cmembQuery (d : Reg) (p : Reg) (o : Reg) (h : Reg) (x : CTail) : Statement (.cmembQuery d p o h x) := notCanonical rfl
theorem cmembClose (d : Reg) (p : Reg) (o : Reg) (h : Reg) (x : CTail) : Statement (.cmembClose d p o h x) := notCanonical rfl
theorem trap (code : Fin 2048) (a : Reg) (x : Tail) : Statement (.trap code a x) :=
  roundS rfl (by simp [SF.ok]) rfl fun _ e => by simp [rawS, e, var0, isS0, z, need, sTail, scTail]
theorem rte (x : Tail) : Statement (.rte x) :=
  roundS rfl (by simp [SF.ok]) rfl fun _ e => by simp [rawS, e, var0, isS0, z, need, sTail, scTail]
theorem resumeRetry (a : Reg) (x : Tail) : Statement (.resumeRetry a x) :=
  roundS rfl (by simp [SF.ok]) rfl fun _ e => by simp [rawS, e, var0, isS0, z, need, sTail, scTail]
theorem resumeDeliver (a : Reg) (x : Tail) : Statement (.resumeDeliver a x) :=
  roundS rfl (by simp [SF.ok]) rfl fun _ e => by simp [rawS, e, var0, isS0, z, need, sTail, scTail]
theorem resumeEnd (a : Reg) (x : Tail) : Statement (.resumeEnd a x) :=
  roundS rfl (by simp [SF.ok]) rfl fun _ e => by simp [rawS, e, var0, isS0, z, need, sTail, scTail]
theorem preemptSliceEnd (p : Reg) (x : Tail) : Statement (.preemptSliceEnd p x) :=
  roundS rfl (by simp [SF.ok]) rfl fun _ e => by simp [rawS, e, var0, isS0, z, need, sTail, scTail]
theorem preemptAdaptive (p : Reg) (x : Tail) : Statement (.preemptAdaptive p x) := notCanonical rfl
theorem preemptSave (p : Reg) (x : Tail) : Statement (.preemptSave p x) := notCanonical rfl
theorem preemptRestore (p : Reg) (x : Tail) : Statement (.preemptRestore p x) := notCanonical rfl
theorem tlbinvPage (c : Reg) (a : Reg) (x : Tail) : Statement (.tlbinvPage c a x) :=
  roundS rfl (by simp [SF.ok]) rfl fun _ e => by simp [rawS, e, var0, isS0, z, need, sTail, scTail]
theorem tlbinvCtx (c : Reg) (x : Tail) : Statement (.tlbinvCtx c x) :=
  roundS rfl (by simp [SF.ok]) rfl fun _ e => by simp [rawS, e, var0, sZero, s0Code, isS0, z, need, sTail, scTail]
theorem tlbinvAll (x : Tail) : Statement (.tlbinvAll x) :=
  roundS rfl (by simp [SF.ok]) rfl fun _ e => by simp [rawS, e, var0, sZero, s0Code, isS0, z, need, sTail, scTail]
theorem launch (d : Reg) (r : Reg) (x : CTail) : Statement (.launch d r x) :=
  roundS rfl (by simp [SF.ok]) rfl fun _ e => by simp [rawS, e, var0, isS0, z, need, sTail, scTail]
theorem halt (c : Reg) (x : Tail) : Statement (.halt c x) :=
  roundS rfl (by simp [SF.ok]) rfl fun _ e => by simp [rawS, e, var0, isS0, z, need, sTail, scTail]
theorem assign (d : Reg) (r : Reg) (x : CTail) : Statement (.assign d r x) :=
  roundS rfl (by simp [SF.ok]) rfl fun _ e => by simp [rawS, e, var0, isS0, z, need, sTail, scTail]
theorem kzero (c : Reg) (x : Tail) : Statement (.kzero c x) :=
  roundS rfl (by simp [SF.ok]) rfl fun _ e => by simp [rawS, e, var0, isS0, z, need, sTail, scTail]
theorem lstart (c : Reg) (x : Tail) : Statement (.lstart c x) :=
  roundS rfl (by simp [SF.ok]) rfl fun _ e => by simp [rawS, e, var0, isS0, z, need, sTail, scTail]
theorem issueSelect (warp : Nat) (wait : Nat) (residue : Option Nat) : Statement (.issueSelect warp wait residue) := notCanonical rfl
theorem frontierCheck (warp : Nat) : Statement (.frontierCheck warp) := notCanonical rfl
theorem watchdogExpiry (warp : Nat) : Statement (.watchdogExpiry warp) := notCanonical rfl
theorem tableWalk (die : Nat) (cluster : Nat) : Statement (.tableWalk die cluster) := notCanonical rfl
theorem postedFault (ctx : Nat) : Statement (.postedFault ctx) := notCanonical rfl
theorem msixVectorFire (fn : Nat) (vec : Nat) : Statement (.msixVectorFire fn vec) := notCanonical rfl
theorem sliceQueueService (die : Nat) (slice : Nat) : Statement (.sliceQueueService die slice) := notCanonical rfl
theorem serviceWarpCycle (die : Nat) (slice : Nat) : Statement (.serviceWarpCycle die slice) := notCanonical rfl
theorem holdBoundExpiry (w : Waiter) (reason : Nat) : Statement (.holdBoundExpiry w reason) := notCanonical rfl
theorem bounceTokenReturn (req : Nat) : Statement (.bounceTokenReturn req) := notCanonical rfl
theorem reissue (req : Nat) : Statement (.reissue req) := notCanonical rfl
theorem loadReply (req : Nat) (e : Ecc) : Statement (.loadReply req e) := notCanonical rfl
theorem writeAck (req : Nat) : Statement (.writeAck req) := notCanonical rfl
theorem atomicReply (req : Nat) (e : Ecc) : Statement (.atomicReply req e) := notCanonical rfl
theorem promotionProbe (probe : Nat) : Statement (.promotionProbe probe) := notCanonical rfl
theorem promotionAnswer (probe : Nat) : Statement (.promotionAnswer probe) := notCanonical rfl
theorem drainProbe (core : Nat) (slot : Nat) (die : Nat) (slice : Nat) : Statement (.drainProbe core slot die slice) := notCanonical rfl
theorem tier2WritebackAccept (line : Nat) : Statement (.tier2WritebackAccept line) := notCanonical rfl
theorem copyCommandStart (core : Nat) : Statement (.copyCommandStart core) := notCanonical rfl
theorem copyLineClaim (core : Nat) (cmd : Nat) : Statement (.copyLineClaim core cmd) := notCanonical rfl
theorem copyUnitDone (core : Nat) (cmd : Nat) (e : Ecc) : Statement (.copyUnitDone core cmd e) := notCanonical rfl
theorem copyCommandComplete (core : Nat) (cmd : Nat) : Statement (.copyCommandComplete core cmd) := notCanonical rfl
theorem engineLineRelease (core : Nat) (cmd : Nat) (line : Nat) : Statement (.engineLineRelease core cmd line) := notCanonical rfl
theorem multicastDelivery (cmd : Nat) (receiver : Nat) : Statement (.multicastDelivery cmd receiver) := notCanonical rfl
theorem matrixCommandStart (core : Nat) : Statement (.matrixCommandStart core) := notCanonical rfl
theorem matrixBandEnd (core : Nat) : Statement (.matrixBandEnd core) := notCanonical rfl
theorem matrixCommandFinish (core : Nat) : Statement (.matrixCommandFinish core) := notCanonical rfl
theorem launchDispatch (src : LaunchSource) : Statement (.launchDispatch src) := notCanonical rfl
theorem blockPlacement (launch : Nat) (cores : List Nat) (parts : List Nat) : Statement (.blockPlacement launch cores parts) := notCanonical rfl
theorem placementHoldExpiry (launch : Nat) : Statement (.placementHoldExpiry launch) := notCanonical rfl
theorem gangHoldExpiry (launch : Nat) : Statement (.gangHoldExpiry launch) := notCanonical rfl
theorem blockRetire (blk : Nat) : Statement (.blockRetire blk) := notCanonical rfl
theorem launchComplete (launch : Nat) : Statement (.launchComplete launch) := notCanonical rfl
theorem launchSignal (launch : Nat) : Statement (.launchSignal launch) := notCanonical rfl
theorem taskRingRefill (ctx : Nat) (die : Nat) (cluster : Nat) : Statement (.taskRingRefill ctx die cluster) := notCanonical rfl
theorem waveStart (die : Nat) (cluster : Nat) (core : Nat) (part : Nat) : Statement (.waveStart die cluster core part) := notCanonical rfl
theorem taskBalance (die : Nat) (cluster : Nat) : Statement (.taskBalance die cluster) := notCanonical rfl
theorem graceExpiry (op : Nat) : Statement (.graceExpiry op) := notCanonical rfl
theorem drainBudgetExpiry (op : Nat) (blk : Nat) : Statement (.drainBudgetExpiry op blk) := notCanonical rfl
theorem barrierStopSave (op : Nat) (blk : Nat) : Statement (.barrierStopSave op blk) := notCanonical rfl
theorem blockFlush (op : Nat) (blk : Nat) : Statement (.blockFlush op blk) := notCanonical rfl
theorem blockSave (op : Nat) (blk : Nat) : Statement (.blockSave op blk) := notCanonical rfl
theorem preemptSignal (op : Nat) : Statement (.preemptSignal op) := notCanonical rfl
theorem restorePlacement (op : Nat) (cores : List Nat) (parts : List Nat) : Statement (.restorePlacement op cores parts) := notCanonical rfl
theorem sliceExpiry (ctx : Nat) : Statement (.sliceExpiry ctx) := notCanonical rfl
theorem sliceSecondDescriptor (ctx : Nat) : Statement (.sliceSecondDescriptor ctx) := notCanonical rfl
theorem ringClaim (ring : Nat) : Statement (.ringClaim ring) := notCanonical rfl
theorem elementPublish (ring : Nat) (pos : Nat) : Statement (.elementPublish ring pos) := notCanonical rfl
theorem consumerSpill (ring : Nat) : Statement (.consumerSpill ring) := notCanonical rfl
theorem ringRelease (ring : Nat) : Statement (.ringRelease ring) := notCanonical rfl
theorem migrLanding (warp : Nat) (core : Nat) (part : Nat) : Statement (.migrLanding warp core part) := notCanonical rfl
theorem migrSlotTimeout (warp : Nat) : Statement (.migrSlotTimeout warp) := notCanonical rfl
theorem collectiveComplete (group : Nat) : Statement (.collectiveComplete group) := notCanonical rfl
theorem collectiveMemberTimeout (group : Nat) (rank : Nat) : Statement (.collectiveMemberTimeout group rank) := notCanonical rfl
theorem shadowCompare (warp : Nat) (differ : Mask) : Statement (.shadowCompare warp differ) := notCanonical rfl
theorem blockMoveLines (part : Nat) : Statement (.blockMoveLines part) := notCanonical rfl
theorem movectlStart (die : Nat) (val : DWord) : Statement (.movectlStart die val) := notCanonical rfl
theorem movectlEnd (die : Nat) : Statement (.movectlEnd die) := notCanonical rfl
theorem alarmLockWrite : Statement (.alarmLockWrite) := notCanonical rfl
theorem alarmEraseWrite : Statement (.alarmEraseWrite) := notCanonical rfl
theorem alarmLogEvent : Statement (.alarmLogEvent) := notCanonical rfl
theorem alarmLockEvent : Statement (.alarmLockEvent) := notCanonical rfl
theorem alarmEraseEvent : Statement (.alarmEraseEvent) := notCanonical rfl
theorem powerSample (milliwatts : Nat) (junctions : List Nat) : Statement (.powerSample milliwatts junctions) := notCanonical rfl
theorem thermalTrip : Statement (.thermalTrip) := notCanonical rfl
theorem powerOn (b : BootResult) : Statement (.powerOn b) := notCanonical rfl
theorem coldReset (b : BootResult) : Statement (.coldReset b) := notCanonical rfl
theorem warmReset (b : BootResult) : Statement (.warmReset b) := notCanonical rfl
theorem hbmTrainingDone : Statement (.hbmTrainingDone) := notCanonical rfl
theorem lpddrTrainingDone : Statement (.lpddrTrainingDone) := notCanonical rfl
theorem lustrationUnit (die : Nat) : Statement (.lustrationUnit die) := notCanonical rfl
theorem functionLevelReset (fn : Nat) : Statement (.functionLevelReset fn) := notCanonical rfl
theorem functionLevelResetDone (fn : Nat) : Statement (.functionLevelResetDone fn) := notCanonical rfl
theorem hostBindingChange (die : Nat) (hierarchy : Option Nat) : Statement (.hostBindingChange die hierarchy) := notCanonical rfl
theorem hostPostedWrite (fn : Nat) (pa : Nat) (data : List Byte) (relaxed : Bool) : Statement (.hostPostedWrite fn pa data relaxed) := notCanonical rfl
theorem inboundWriteAck (write : Nat) : Statement (.inboundWriteAck write) := notCanonical rfl
theorem hostNonpostedRead (fn : Nat) (pa : Nat) (len : Nat) (relaxed : Bool) : Statement (.hostNonpostedRead fn pa len relaxed) := notCanonical rfl
theorem hostAtomicop (fn : Nat) (pa : Nat) (op : AtomOp) (w : AWidth) (cas : Bool) (data : List Byte) (relaxed : Bool) : Statement (.hostAtomicop fn pa op w cas data relaxed) := notCanonical rfl
theorem cxlMemRequest (part : Nat) (pa : Nat) (a : OuterAccess) : Statement (.cxlMemRequest part pa a) := notCanonical rfl
theorem hostBackInvalidation (line : Nat) : Statement (.hostBackInvalidation line) := notCanonical rfl
theorem fabricInboundRequest (part : Nat) (station : Nat) (addr : Nat) (a : OuterAccess) : Statement (.fabricInboundRequest part station addr a) := notCanonical rfl
theorem fabricPortDown (port : Nat) : Statement (.fabricPortDown port) := notCanonical rfl
theorem fabricPortUp (port : Nat) : Statement (.fabricPortUp port) := notCanonical rfl
theorem peerResponse (req : Nat) (a : PeerAnswer) : Statement (.peerResponse req a) := notCanonical rfl
theorem hostPortCompletion (req : Nat) (data : List Byte) : Statement (.hostPortCompletion req data) := notCanonical rfl
theorem collectiveMessage (group : Nat) (rank : Nat) (m : GroupMessage) : Statement (.collectiveMessage group rank m) := notCanonical rfl
theorem msixVectorUnmask (fn : Nat) (vec : Nat) : Statement (.msixVectorUnmask fn vec) := notCanonical rfl
theorem spdmGetVersion (msg : List Byte) : Statement (.spdmGetVersion msg) := notCanonical rfl
theorem spdmGetCapabilities (msg : List Byte) : Statement (.spdmGetCapabilities msg) := notCanonical rfl
theorem spdmNegotiateAlgorithms (msg : List Byte) : Statement (.spdmNegotiateAlgorithms msg) := notCanonical rfl
theorem spdmGetDigests (msg : List Byte) : Statement (.spdmGetDigests msg) := notCanonical rfl
theorem spdmGetCertificate (msg : List Byte) : Statement (.spdmGetCertificate msg) := notCanonical rfl
theorem spdmChallenge (msg : List Byte) : Statement (.spdmChallenge msg) := notCanonical rfl
theorem spdmGetMeasurements (index : Nat) (msg : List Byte) : Statement (.spdmGetMeasurements index msg) := notCanonical rfl
theorem spdmKeyExchange (msg : List Byte) : Statement (.spdmKeyExchange msg) := notCanonical rfl
theorem spdmFinish (msg : List Byte) : Statement (.spdmFinish msg) := notCanonical rfl
theorem lqerrRead (q : Fin 256) (d : Reg) (x : Tail) : Statement (.lqerrRead q d x) := by
  have hq := q.isLt
  have h1 : isLqerr (0x30004 + 8 * q.val) = true := by simp [isLqerr]; omega
  have h2 : Fin.ofNat 256 ((0x30004 + 8 * q.val - 0x30000) / 8) = q := by
    rw [show (0x30004 + 8 * q.val - 0x30000) / 8 = q.val by omega, ofNat_val]
  refine roundS rfl (by simp [SF.ok]; omega) rfl fun _ e => ?_
  simp only [rawS, e, h1, h2]
  simp [z, need, sTail]
theorem ecccntRead (die : Fin 4) (d : Reg) (x : Tail) : Statement (.ecccntRead die d x) := by
  have hq := die.isLt
  have h0 : isLqerr (0x62000 + die.val) = false := by simp [isLqerr]; omega
  have h1 : isEcccnt (0x62000 + die.val) = true := by simp [isEcccnt]; omega
  have h2 : Fin.ofNat 4 (0x62000 + die.val - 0x62000) = die := by
    rw [show 0x62000 + die.val - 0x62000 = die.val by omega, ofNat_val]
  refine roundS rfl (by simp [SF.ok]; omega) rfl fun _ e => ?_
  simp only [rawS, e, h0, h1, h2]
  simp [z, need, sTail]
theorem lqtailDoorbell (q : Fin 256) (a : Reg) (x : Tail) : Statement (.lqtailDoorbell q a x) := by
  have hq := q.isLt
  have h1 : isLqtail (0x30002 + 8 * q.val) = true := by simp [isLqtail]; omega
  have h2 : Fin.ofNat 256 ((0x30002 + 8 * q.val - 0x30000) / 8) = q := by
    rw [show (0x30002 + 8 * q.val - 0x30000) / 8 = q.val by omega, ofNat_val]
  refine roundS rfl (by simp [SF.ok]; omega) rfl fun _ e => ?_
  simp only [rawS, e, h1, h2]
  simp [z, need, sTail]
theorem sread (sel : BitVec 20) (wide : Bool) (d : Reg) (x : Tail) : Statement (.sread sel wide d x) := by
  intro hc hw
  have hc' : (!isLqerr sel.toNat && !isEcccnt sel.toNat) = true := hc
  simp only [Bool.and_eq_true, Bool.not_eq_true'] at hc'
  refine roundS rfl (by simp [SF.ok]) rfl (fun _ e => ?_) hc hw
  simp only [rawS, e, hc'.1, hc'.2]
  simp [z, need, sTail]
theorem swrite (sel : BitVec 20) (wide : Bool) (a : Reg) (x : Tail) : Statement (.swrite sel wide a x) := by
  intro hc hw
  have hc' : (!isLqtail sel.toNat) = true := hc
  simp only [Bool.not_eq_true'] at hc'
  refine roundS rfl (by simp [SF.ok]) rfl (fun _ e => ?_) hc hw
  simp only [rawS, e, hc']
  simp [z, need, sTail]

end Sys2Proof.Laws.RoundTrip
end

