-- ==== Sys2Proof/Laws/Words.lean ====
section
/-! SUPPORT. What the shared ends of a word do: a trap, a clause boundary and `wordDone` keep registers, memory, blocks and special
registers, and `retire` adds exactly its writes and flags. -/

namespace Sys2Proof.Safety

open Sys2Proof.Machine Sys2Proof.Forms

/-! ### Keeping everything -/

theorem KeepsMemory.of_eq {s t : State} (h1 : t.mem = s.mem) (h2 : t.memkey = s.memkey) (h3 : t.lines = s.lines)
    (h4 : t.wbs = s.wbs) (h5 : t.keys = s.keys) (h6 : t.forward = s.forward) : KeepsMemory s t := by
  intro tier pa slot
  simp only [State.viewByte, State.viewLine, State.viewAt, State.fwdLine, State.lineOf?, State.ramLine, State.keyId, h1, h2, h3, h4, h5, h6]
  rfl

theorem KeepsAll.refl (s : State) : KeepsAll s s :=
  ⟨⟨fun _ _ _ => rfl, fun _ => rfl, rfl, rfl, rfl, rfl, rfl, rfl, rfl, rfl, rfl, rfl⟩, fun _ => rfl⟩

theorem KeepsRest.trans {s t u : State} (h : KeepsRest s t) (k : KeepsRest t u) : KeepsRest s u := by
  obtain ⟨m, b, a1, a2, a3, a4, a5, a6, a7, a8, a9, a10⟩ := h
  obtain ⟨m', b', c1, c2, c3, c4, c5, c6, c7, c8, c9, c10⟩ := k
  exact ⟨fun x y z => (m' x y z).trans (m x y z), fun x => (b' x).trans (b x), c1.trans a1, c2.trans a2, c3.trans a3,
    c4.trans a4, c5.trans a5, c6.trans a6, c7.trans a7, c8.trans a8, c9.trans a9, c10.trans a10⟩

theorem KeepsAll.trans {s t u : State} (h : KeepsAll s t) (k : KeepsAll t u) : KeepsAll s u :=
  ⟨h.1.trans k.1, fun x => (k.2 x).trans (h.2 x)⟩

/-- A state whose fields of R3, R29, R80 and R331 are those of another, warps and blocks compared by what they hold. -/
theorem KeepsAll.of_eq {s t : State} (hm : t.mem = s.mem) (hk : t.memkey = s.memkey) (hl : t.lines = s.lines)
    (hb : t.wbs = s.wbs) (hy : t.keys = s.keys) (hfw : t.forward = s.forward) (hblk : ∀ b, KeepsBlock s t b) (hc : t.ctxs.map ctxRegs = s.ctxs.map ctxRegs)
    (hd : t.dies = s.dies) (hq : t.queues = s.queues) (ht : t.tenparts = s.tenparts) (hf : t.fns = s.fns)
    (hn : t.lanemap = s.lanemap) (hh : t.holds = s.holds) (hg : t.grace = s.grace) (hr : t.drainbud = s.drainbud)
    (hw : ∀ k, KeepsWarp s t k) : KeepsAll s t :=
  ⟨⟨.of_eq hm hk hl hb hy hfw, hblk, hc, hd, hq, ht, hf, hn, hh, hg, hr, hy⟩, hw⟩

theorem keepsAll_modWarp (s : State) (w : Nat) (f : Warp → Warp) (h : ∀ x, regsOf (f x) = regsOf x) :
    KeepsAll s (s.modWarp w f) := by
  refine .of_eq rfl rfl rfl rfl rfl rfl (fun _ => rfl) rfl rfl rfl rfl rfl rfl rfl rfl rfl fun k => ?_
  simp only [KeepsWarp, State.modWarp_warps, List.getElem?_modify]
  cases s.warps[k]? with
  | none => rfl
  | some x => by_cases e : w = k <;> simp [e, h]

theorem keepsAll_mapWarps (s : State) (f : Warp → Warp) (h : ∀ x, regsOf (f x) = regsOf x) :
    KeepsAll s { s with warps := s.warps.map f } := by
  refine .of_eq rfl rfl rfl rfl rfl rfl (fun _ => rfl) rfl rfl rfl rfl rfl rfl rfl rfl rfl fun k => ?_
  simp only [KeepsWarp, List.getElem?_map]
  cases s.warps[k]? <;> simp [h]

theorem keepsAll_modBlk (s : State) (b : Nat) (f : Block → Block) (h : ∀ x, localOf (f x) = localOf x) :
    KeepsAll s (s.modBlk b f) := by
  refine .of_eq rfl rfl rfl rfl rfl rfl (fun k => ?_) rfl rfl rfl rfl rfl rfl rfl rfl rfl fun _ => rfl
  simp only [KeepsBlock, State.modBlk_blocks, List.getElem?_modify]
  cases s.blocks[k]? with
  | none => rfl
  | some x => by_cases e : b = k <;> simp [e, h]

theorem keepsAll_modCtx (s : State) (c : Nat) (f : Context → Context) (h : ∀ x, ctxRegs (f x) = ctxRegs x) :
    KeepsAll s (s.modCtx c f) := by
  refine .of_eq rfl rfl rfl rfl rfl rfl (fun _ => rfl) ?_ rfl rfl rfl rfl rfl rfl rfl rfl fun _ => rfl
  simp only [State.modCtx_ctxs, List.map_map]
  congr 1
  funext x
  simp only [Function.comp]
  split <;> simp [h]

/-! ### Lanes -/

theorem regsOf_setLanes {w : Warp} {ls : List Lane} (h : ls.map (·.q) = w.lanes.map (·.q)) :
    regsOf { w with lanes := ls } = regsOf w := by simp [regsOf, h]

theorem mapIdx_q (ls : List Lane) (f : Nat → Lane → Lane) (h : ∀ l x, (f l x).q = x.q) :
    (ls.mapIdx f).map (·.q) = ls.map (·.q) := by
  apply List.ext_getElem? 
  intro i
  simp only [List.getElem?_map, List.getElem?_mapIdx]
  cases ls[i]? <;> simp [h]

@[simp] theorem regsOf_mapLanes (w : Warp) (m : Mask) (f : Nat → Lane → Lane) (h : ∀ l x, (f l x).q = x.q) :
    regsOf (w.mapLanes m f) = regsOf w := by
  refine regsOf_setLanes (mapIdx_q _ _ fun l x => ?_)
  split <;> simp [h]

@[simp] theorem regsOf_leaveClause (w : Warp) (m : Mask) : regsOf (w.leaveClause m) = regsOf w := rfl
@[simp] theorem regsOf_wdStart (w : Warp) (n : Nat) : regsOf (w.wdStart n) = regsOf w := by
  unfold Warp.wdStart
  split
  · split <;> rfl
  · rfl

theorem regsOf_checkSet (w : Warp) (n j : Nat) : regsOf (w.checkSet n j) = regsOf w := by
  unfold Warp.checkSet
  split
  · rfl
  · split
    · exact regsOf_mapLanes w _ (fun _ x => x.release j) fun _ x => by
        unfold Lane.release
        repeat' split
        all_goals rfl
    · rfl

theorem regsOf_leaveSets (w : Warp) (n : Nat) (m : Mask) : regsOf (w.leaveSets n m) = regsOf w := by
  unfold Warp.leaveSets
  generalize List.range 12 = ls
  induction ls generalizing w with
  | nil => rfl
  | cons j ls ih =>
    rw [List.foldl_cons, ih]
    split
    · rfl
    · rw [regsOf_checkSet]; rfl

theorem regsOf_exitLanes (w : Warp) (n : Nat) (m : Mask) : regsOf (w.exitLanes n m) = regsOf w := by
  rw [Warp.exitLanes, regsOf_wdStart, regsOf_leaveSets, regsOf_mapLanes]
  intros; rfl

theorem regsOf_wdLeave (w old : Warp) (n : Nat) (m : Mask) : regsOf (Warp.wdLeave n old m w) = regsOf w := by
  unfold Warp.wdLeave
  rw [regsOf_wdStart]
  split <;> rfl

theorem regsOf_goOnMap (w : Warp) (p : Lane → Bool) :
    regsOf { w with lanes := w.lanes.map fun x => if p x then x.goOn else x } = regsOf w := by
  refine regsOf_setLanes ?_
  rw [List.map_map]
  congr 1
  funext x
  simp only [Function.comp]
  split <;> rfl

theorem regsOf_endWaits (w : Warp) (n : Nat) (p : Wait → Bool) : regsOf (w.endWaits n p) = regsOf w := by
  simp only [Warp.endWaits]
  split
  · rw [regsOf_wdStart]; exact regsOf_goOnMap w _
  · rfl

theorem regsOf_waitAt (w : Warp) (m : Mask) (x : Iss) (k : Nat → Wait) : regsOf (w.waitAt m x k) = regsOf w := by
  rw [Warp.waitAt, regsOf_mapLanes, regsOf_leaveClause]
  intros; rfl

/-! ### Ending blocks, posts and traps (R326 to R330) -/

theorem keepsAll_post (s : State) (c : Nat) (e : FaultEntry) : KeepsAll s (s.post c e) := keepsAll_modCtx _ _ _ fun _ => rfl

theorem keepsAll_endLanes (s : State) (b : Nat) : KeepsAll s (s.endLanes b) := by
  refine keepsAll_mapWarps _ _ fun x => ?_
  split
  · simp only [regsOf, List.map_map]; rfl
  · rfl

theorem keepsAll_dropWork (s : State) (b : Nat) : KeepsAll s (s.dropWork b) :=
  .of_eq rfl rfl rfl rfl rfl rfl (fun _ => rfl) rfl rfl rfl rfl rfl rfl rfl rfl rfl fun _ => rfl

theorem keepsAll_endQuiet (s : State) (b : Nat) : KeepsAll s (s.endQuiet b) := by
  unfold State.endQuiet
  split
  · exact .refl s
  · split
    · exact ((keepsAll_endLanes s b).trans (keepsAll_dropWork _ b)).trans (keepsAll_modBlk _ _ _ fun _ => rfl)
    · exact .refl s

theorem keepsAll_endBlock (s : State) (w : Warp) (c : Cause) (word : Nat) : KeepsAll s (s.endBlock w c word) := by
  unfold State.endBlock
  split
  · exact .refl s
  · split
    · exact (keepsAll_post _ _ _).trans (keepsAll_endQuiet _ _)
    · exact .refl s

theorem keepsAll_partDone (s : State) (w g : Nat) (c : Option Nat) : KeepsAll s (s.partDone w g c) := by
  unfold State.partDone
  split
  · exact .refl s
  · refine keepsAll_modWarp _ _ _ fun x => ?_
    cases c <;> rfl

theorem keepsAll_foldl {α : Type} (g : State → α → State) (h : ∀ s a, KeepsAll s (g s a)) (l : List α) (s : State) :
    KeepsAll s (l.foldl g s) := by
  induction l generalizing s with
  | nil => exact .refl s
  | cons a l ih => exact (h s a).trans (ih (g s a))

theorem keepsAll_bwaitsEnd (s : State) (w : Nat) (old : Warp) : KeepsAll s (s.bwaitsEnd w old) := by
  unfold State.bwaitsEnd
  split
  · exact .refl s
  · exact keepsAll_foldl _ (fun _ _ => keepsAll_partDone _ _ _ _) _ _

theorem keepsAll_barrierMissed (s : State) (b : Nat) : KeepsAll s (s.barrierMissed b) := keepsAll_modBlk _ _ _ fun _ => rfl

theorem keepsAll_releaseBsync (s : State) (b : Nat) : KeepsAll s (s.releaseBsync b) := by
  refine keepsAll_mapWarps _ _ fun x => ?_
  split
  · exact regsOf_goOnMap x _
  · rfl

theorem keepsAll_bsyncFix (s : State) (b : Nat) : KeepsAll s (s.bsyncFix b) := by
  unfold State.bsyncFix
  dsimp only
  repeat' split
  all_goals first | exact .refl s | exact keepsAll_releaseBsync s b | exact keepsAll_modBlk _ _ _ fun _ => rfl

theorem keepsAll_trap (s : State) (w : Nat) (m : Mask) (det : Nat → Cause) (tpc : Nat → Nat) (hdr : Nat → Option Nat) :
    KeepsAll s (s.trap w m det tpc hdr) := by
  unfold State.trap
  split
  · exact .refl s
  · split
    · exact .refl s
    · dsimp only
      split
      · refine ((keepsAll_modWarp _ _ _ fun x => ?_).trans (keepsAll_bwaitsEnd _ _ _)).trans (keepsAll_endBlock _ _ _ _)
        rw [regsOf_mapLanes, regsOf_leaveClause]
        intros; rfl
      · refine ((keepsAll_modWarp _ _ _ fun x => ?_).trans (keepsAll_bwaitsEnd _ _ _)).trans (keepsAll_barrierMissed _ _)
        rw [regsOf_wdLeave, regsOf_mapLanes, regsOf_leaveClause]
        intros; rfl

theorem keepsAll_trapHere (s : State) (x : Iss) (m : Mask) (det : Nat → Cause) : KeepsAll s (s.trapHere x m det) :=
  keepsAll_trap ..

theorem keepsAll_park (s : State) (w : Nat) (m : Mask) (kind va word : Nat) (hdr : Option Nat) (det : Nat → Cause) :
    KeepsAll s (s.park w m kind va word hdr det) := by
  unfold State.park
  split
  · exact .refl s
  · split
    · exact .refl s
    · dsimp only
      split
      · exact keepsAll_trap ..
      · split
        · refine (keepsAll_modWarp _ _ _ fun x => ?_).trans (keepsAll_endBlock _ _ _ _)
          rw [regsOf_mapLanes, regsOf_leaveClause]
          intros; rfl
        · refine (((keepsAll_modWarp _ _ _ fun x => ?_).trans (keepsAll_bwaitsEnd _ _ _)).trans (keepsAll_barrierMissed _ _)).trans
            (keepsAll_post _ _ _)
          rw [regsOf_wdLeave, regsOf_mapLanes, regsOf_leaveClause]
          intros; rfl

/-! ### The end of a word (R44, R57) -/

theorem keepsAll_deliverDue (s : State) (w : Nat) : KeepsAll s (s.deliverDue w) := by
  unfold State.deliverDue
  split
  · exact .refl s
  · refine KeepsAll.trans ((keepsAll_modWarp s w (fun x => { x with due := [] }) fun _ => rfl).trans
      (keepsAll_foldl _ (fun s d => ?_) _ _)) (by dsimp only; split; exacts [.refl _, keepsAll_bsyncFix _ _])
    split
    · exact .refl s
    · split
      · split
        · refine ((keepsAll_modWarp _ _ _ fun x => ?_).trans (keepsAll_bwaitsEnd _ _ _)).trans (keepsAll_barrierMissed _ _)
          rw [regsOf_wdLeave, regsOf_mapLanes]
          intros; rfl
        · refine (keepsAll_modWarp _ _ _ fun x => ?_).trans (keepsAll_endBlock _ _ _ _)
          rw [regsOf_mapLanes]
          intros; rfl
      · exact keepsAll_trap ..

theorem keepsAll_cur (s : State) (c : Option Nat) : KeepsAll s { s with cur := c } :=
  .of_eq rfl rfl rfl rfl rfl rfl (fun _ => rfl) rfl rfl rfl rfl rfl rfl rfl rfl rfl fun _ => rfl

theorem keepsAll_boundary (s : State) (w : Nat) (cl : Clause) : KeepsAll s (s.boundary w cl) := by
  unfold State.boundary
  have h : KeepsAll s ({ s with cur := none }.modWarp w fun x =>
      { x.mapLanes cl.set (fun _ y => { y with pc := cl.next, hdr := none, via := none }) with
        clause := none, yielded := if cl.hdr.yield then some s.clk.cyc else x.yielded
        cls := ((s.launchOf x).map fun (l : Launch) => l.cls).getD x.cls }) :=
    (keepsAll_cur s none).trans (keepsAll_modWarp _ _ _ fun x =>
      regsOf_mapLanes x cl.set (fun _ y => { y with pc := cl.next, hdr := none, via := none }) fun _ _ => rfl)
  dsimp only
  split
  · exact h
  · split
    · split
      · exact h.trans (keepsAll_endLanes _ _)
      · exact h.trans (keepsAll_deliverDue _ _)
    · exact h.trans (keepsAll_deliverDue _ _)

theorem keepsAll_useIssue (s : State) (x : Iss) (unif : Bool) : KeepsAll s (s.useIssue x unif) :=
  .of_eq rfl rfl rfl rfl rfl rfl (fun _ => rfl) rfl rfl rfl rfl rfl rfl rfl rfl rfl fun _ => rfl

/-- The end of a word changes no register, no memory, no block and no special register. -/
theorem keepsAll_wordDone (s : State) (x : Iss) (unif : Bool) : KeepsAll s (s.wordDone x unif) := by
  unfold State.wordDone
  split
  · exact .refl s
  · dsimp only
    refine (keepsAll_useIssue s x unif).trans ((keepsAll_cur _ none).trans ?_)
    split
    · exact keepsAll_modWarp _ _ (fun y => { y with nextIssue := _, lastIssue := _ }) fun _ => rfl
    · have h (f : Warp → Option Clause) (m n : Nat) (q : Warp → Nat) (t : State) : KeepsAll t
          (t.modWarp x.w fun y => { y with clause := f y, nextIssue := m, lastIssue := n, shadowQ := q y }) :=
        keepsAll_modWarp _ _ _ fun _ => rfl
      split
      · exact (h (fun _ => _) _ _ (fun y => y.shadowQ + _) _).trans (keepsAll_boundary _ _ _)
      · exact h (fun _ => _) _ _ (fun y => y.shadowQ + _) _

/-! ### Results (R49, R57) -/

theorem KeepsAll.keepsOthers {s t : State} (h : KeepsAll s t) (w : Nat) : KeepsOthers s t w := ⟨h.1, fun k _ => h.2 k⟩

theorem KeepsOthers.trans {s t u : State} {w : Nat} (h : KeepsOthers s t w) (k : KeepsOthers t u w) : KeepsOthers s u w :=
  ⟨h.1.trans k.1, fun x hx => (k.2 x hx).trans (h.2 x hx)⟩

theorem keepsOthers_modWarp (s : State) (w : Nat) (f : Warp → Warp) : KeepsOthers s (s.modWarp w f) w := by
  refine ⟨⟨.of_eq rfl rfl rfl rfl rfl rfl, fun _ => rfl, rfl, rfl, rfl, rfl, rfl, rfl, rfl, rfl, rfl, rfl⟩, fun k hk => ?_⟩
  simp only [KeepsWarp, State.modWarp_warps, List.getElem?_modify, if_neg (Ne.symm hk)]
  cases s.warps[k]? <;> rfl

/-- What comes after a word that keeps everything leaves what the word did to its warp. -/
theorem Gets.trans {s t u : State} {w : Nat} {ps : List Pend} {f : Nat} (h : Gets s t w ps f) (k : KeepsWarp t u w) :
    Gets s u w ps f := by
  obtain ⟨x, y, hx, hy, h1, h2, h3⟩ := h
  simp only [KeepsWarp, hy, Option.map_some, Option.map_eq_some_iff] at k
  obtain ⟨z, hz, e⟩ := k
  simp only [regsOf, Prod.mk.injEq] at e
  refine ⟨x, z, hx, hz, e.2.2.2.2.1.trans h1, e.2.2.1.trans h2, ?_⟩
  rw [← h3]
  simp only [heldOf, e.1, e.2.1, e.2.2.2.1, e.2.2.2.2.2]

theorem KeepsAll.gets {s t : State} {w : Nat} {x : Warp} (h : KeepsAll s t) (hw : s.warps[w]? = some x) : Gets s t w [] 0 :=
  Gets.trans (t := s) ⟨x, x, hw, hw, by simp, by simp, rfl⟩ (h.2 w)

/-- A word's results: its warp gets the writes and the flags, and nothing else changes. -/
theorem retire_spec (s : State) (x : Iss) (unif : Bool) (ps : List Pend) (fl : Nat) {wp : Warp} (h : s.warps[x.w]? = some wp) :
    Gets s (s.retire x unif ps fl) x.w ps fl ∧ KeepsOthers s (s.retire x unif ps fl) x.w := by
  have k := keepsAll_wordDone (s.modWarp x.w fun w => { w with pend := w.pend ++ ps, flags := w.flags ||| BitVec.ofNat 32 fl }) x unif
  refine ⟨Gets.trans ⟨wp, { wp with pend := wp.pend ++ ps, flags := wp.flags ||| BitVec.ofNat 32 fl }, h, ?_, rfl, rfl, rfl⟩ (k.2 x.w), (keepsOthers_modWarp _ _ _).trans (k.keepsOthers _)⟩
  simp [h]

/-- The word that issues belongs to a warp of the state. -/
theorem iss_warp {s : State} {i : Instr} {x : Iss} (h : s.iss i = some x) :
    s.cur = some x.w ∧ ∃ wp, s.warps[x.w]? = some wp := by
  unfold State.iss at h
  split at h
  · cases h
  · split at h
    · cases h
    · split at h
      · cases h
      · split at h
        · cases h
        · split at h <;> cases h <;> exact ⟨‹_›, _, ‹_›⟩

theorem atIssue_some {s : State} {i : Instr} {x : Iss} (h : s.iss i = some x) (k : Iss → State) :
    s.atIssue i k = .next (k x) := by
  simp only [State.atIssue, h]

/-- A word without one at issue is the one fault of the model. -/
theorem atIssue_none {s : State} {i : Instr} (h : s.iss i = none) (k : Iss → State) : s.atIssue i k = .fault .noIssue := by
  simp only [State.atIssue, h]

/-! ### The shapes of the vector words (R49, R57, R58, R141, R165) -/

theorem regWord_spec {s : State} {i : Instr} {x : Iss} (h : s.iss i = some x) (d : Reg) (n lat : Nat) (f : Iss → Nat → Nat × Nat) :
    Next (s.regWord i d n lat f) fun t =>
      Gets s t x.w ((x.acts i).flatMap fun l => resN (uniform x.w64 i) l d (f x l).1
        (x.lastRow (uniform x.w64 i) s.clk.cyc + latency lat (uniform x.w64 i)) n) (orAll ((x.acts i).map fun l => (f x l).2)) ∧
      KeepsOthers s t x.w :=
  ⟨_, atIssue_some h _, retire_spec _ _ _ _ _ (iss_warp h).2.choose_spec⟩

theorem sharedWord_spec {s : State} {i : Instr} {x : Iss} (h : s.iss i = some x) (d : Reg) (n lat : Nat) (f : Iss → Nat × Nat) :
    Next (s.sharedWord i d n lat f) fun t =>
      Gets s t x.w ((if Reg.isS d then (lanesIn x.part).take 1 else lanesIn x.part).flatMap fun l =>
        resN (uniform x.w64 i) l d (f x).1 (x.lastRow (uniform x.w64 i) s.clk.cyc + latency lat (uniform x.w64 i)) n)
        (if (lanesIn x.part).isEmpty then 0 else (f x).2) ∧
      KeepsOthers s t x.w :=
  ⟨_, atIssue_some h _, retire_spec _ _ _ _ _ (iss_warp h).2.choose_spec⟩

theorem qWord_spec {s : State} {i : Instr} {x : Iss} (h : s.iss i = some x) (q : Fin 8) (lat : Nat) (f : Iss → Nat → Bool × Nat) :
    Next (s.qWord i q lat f) fun t =>
      Gets s t x.w ((lanesIn x.part).map fun l => pendQ l q (f x l).1
        (x.lastRow (uniform x.w64 i) s.clk.cyc + latency lat (uniform x.w64 i))) (orAll ((x.acts i).map fun l => (f x l).2)) ∧
      KeepsOthers s t x.w :=
  ⟨_, atIssue_some h _, retire_spec _ _ _ _ _ (iss_warp h).2.choose_spec⟩

/-- The writes of n registers depend on the value below 2^(32n) only. -/
theorem resN_congr {u : Bool} {l : Nat} {r : Reg} {v v' at_ n : Nat} (h : v % 2 ^ (32 * n) = v' % 2 ^ (32 * n)) :
    resN u l r v at_ n = resN u l r v' at_ n := by
  have key : ∀ k, k ≤ n → pendN l r v at_ k = pendN l r v' at_ k := by
    intro k hk
    induction k with
    | zero => rfl
    | succ k ih =>
      have e : BitVec.ofNat 32 (v / 2 ^ (32 * k)) = BitVec.ofNat 32 (v' / 2 ^ (32 * k)) := by
        apply BitVec.eq_of_toNat_eq
        have step : ∀ z : Nat, z / 2 ^ (32 * k) % 2 ^ 32 = z % 2 ^ (32 * n) / 2 ^ (32 * k) % 2 ^ 32 := by
          intro z
          obtain ⟨m, hm⟩ : ∃ m, n = k + 1 + m := ⟨n - (k + 1), by omega⟩
          rw [hm, show 32 * (k + 1 + m) = 32 * k + (32 + 32 * m) by ring, pow_add, Nat.mod_mul_right_div_self, pow_add,
            Nat.mod_mul_right_mod]
        simp only [BitVec.toNat_ofNat]
        rw [step v, step v', h]
      rw [pendN, pendN, ih (by omega), e]
  rw [resN, resN, key n (Nat.le_refl n)]

theorem orAll_zero (ls : List Nat) : orAll (ls.map fun _ => 0) = 0 := by
  unfold orAll
  induction ls with
  | nil => rfl
  | cons a ls ih => simpa using ih

/-! ### Integer sources and results (R114, R144) -/

theorem tyBits_pos (t : Ty) : 0 < tyBits t := by cases t <;> decide
theorem tyBits_le (t : Ty) : tyBits t ≤ 32 * tyRegs t := by cases t <;> decide

theorem numOf_signed {w : Nat} (hw : 0 < w) (x : Nat) : numOf true w x = (BitVec.ofNat w x).toInt := by
  have h2 : 2 ^ w = 2 * 2 ^ (w - 1) := by rw [← pow_succ']; congr 1; omega
  rw [BitVec.toInt_eq_toNat_cond, BitVec.toNat_ofNat, numOf]
  by_cases h : 2 ^ (w - 1) ≤ x % 2 ^ w
  · rw [if_pos (by simpa using h), if_neg (by omega)]; push_cast; rfl
  · rw [if_neg (by simpa using h), if_pos (by omega)]

theorem numOf_unsigned (w x : Nat) : numOf false w x = ((BitVec.ofNat w x).toNat : Int) := by simp [numOf]

/-- A source read by its type is the number its low w bits stand for (R144). -/
theorem intOf_eq (t : Ty) (x : Nat) :
    intOf t x = if tySigned t then (BitVec.ofNat (tyBits t) x).toInt else ((BitVec.ofNat (tyBits t) x).toNat : Int) := by
  unfold intOf
  split
  · rename_i h; rw [h]; exact numOf_signed (tyBits_pos t) x
  · rename_i h; rw [Bool.not_eq_true] at h; rw [h]; exact numOf_unsigned _ _

/-- A result is reduced modulo 2^w and extended by its type's sign (R114, R144). -/
theorem intRes_eq (t : Ty) (r : Int) :
    intRes t r = if tySigned t then ((BitVec.ofInt (tyBits t) r).signExtend (32 * tyRegs t)).toNat
      else (BitVec.ofInt (tyBits t) r).toNat := by
  have e : BitVec.ofNat (tyBits t) (r % 2 ^ tyBits t).toNat = BitVec.ofInt (tyBits t) r := by
    apply BitVec.eq_of_toNat_eq
    rw [BitVec.toNat_ofNat, BitVec.toNat_ofInt]
    refine Nat.mod_eq_of_lt ?_
    have := Int.emod_lt_of_pos r (show (0 : Int) < 2 ^ tyBits t by positivity)
    have := Int.emod_nonneg r (show (2 : Int) ^ tyBits t ≠ 0 by positivity)
    zify; rw [Int.toNat_of_nonneg ‹_›]; assumption
  unfold intRes
  rw [intOf_eq, e]
  split
  · rw [BitVec.signExtend, BitVec.toNat_ofInt]; push_cast; rfl
  · have h1 : (BitVec.ofInt (tyBits t) r).toNat < 2 ^ (32 * tyRegs t) :=
      Nat.lt_of_lt_of_le (BitVec.isLt _) (Nat.pow_le_pow_right (by decide) (tyBits_le t))
    rw [show ((2 : Int) ^ (32 * tyRegs t)) = ((2 ^ (32 * tyRegs t) : Nat) : Int) by push_cast; rfl, ← Int.natCast_emod,
      Nat.mod_eq_of_lt h1, Int.toNat_natCast]


end Sys2Proof.Safety
end

