-- ==== Sys2Proof/Tests/Slice0.lean ====
section
/-! SUPPORT. Tests: words written out from the spec's encodings, ill-formed terms that the checks refuse, single steps with results
worked out by hand from the spec, and for each statement a small state that meets its hypotheses. -/

namespace Sys2Proof.Tests

open Sys2Proof.Machine Sys2Proof.Forms Sys2Proof.Safety Sys2Proof.Claims

/-! ### Small states -/

def q7 : Guard := ⟨false, 7⟩
def vt : VTail := ⟨q7, 0, 0⟩
def tl : Tail := ⟨q7, 0⟩
def ct : CTail := ⟨q7, none, 0⟩

/-- The state after reset with one word at issue, in a warp of 32 lanes of the supervisor context. -/
def put (i : Instr) : State := State.reset.withFetchWord 64 ((encode i).getD 0).toNat

def onWarp (f : Warp → Warp) (s : State) : State := s.modWarp 0 f
def onBlock (f : Block → Block) (s : State) : State := s.modBlk 0 f
def onLaunch (f : Launch → Launch) (s : State) : State := s.modLaunch 0 f
def onInfo (f : Record → Record) (s : State) : State := s.modLaunch 0 fun l => { l with info := f l.info }
def onLanes (f : Nat → Lane → Lane) (s : State) : State := s.modWarp 0 fun w => { w with lanes := w.lanes.mapIdx f }
def sregs (l : List (Nat × Word)) : State → State := onWarp fun w => { w with s := l }
def vregs (l : List (Nat × Word)) : State → State := onWarp fun w => { w with v := l }
/-- The clause is that of some lanes only. -/
def only (m : Mask) : State → State := onWarp fun w => { w with clause := w.clause.map fun c => { c with set := m } }
/-- The word issues at level U, in context 1. -/
def asUser (s : State) : State :=
  { s with ctxs := s.ctxs ++ [Context.fresh 1 false], launches := s.launches.map fun l => { l with ctx := 1 } }
/-- The page of 2 MiB at 0x4000_0000 is mapped to the first bytes of HBM, for the core's supervisor context. -/
def mapped (s : State) : State := { s with tlb := [⟨0, 0, 0x40000000, 21, 0x1F, some 0⟩] }
def inHandler : State → State := onLanes fun _ y => { y with handler := true }
def noHandler : State → State := onInfo fun r => { r with handler := 0 }

/-! ### The hypotheses of the statements, as they are evaluated -/

/-- The word is at issue, and p holds of its issue. -/
def holds (s : State) (i : Instr) (p : State → Iss → Bool) : Bool :=
  match s.iss i with
  | some x => p s x
  | none => false

theorem iss_of_holds {s : State} {i : Instr} {p : State → Iss → Bool} (h : holds s i p = true) :
    ∃ x, s.iss i = some x ∧ p s x = true := by
  unfold holds at h
  split at h
  · exact ⟨_, ‹_›, h⟩
  · cases h

def calm (s : State) (x : Iss) : Bool :=
  x.wp.due.isEmpty && match s.blkOf x.wp with | some b => b.st == .running | none => false

theorem calm_sound {s : State} {x : Iss} (h : calm s x = true) : Calm s x := by
  simp only [calm, Bool.and_eq_true, List.isEmpty_iff] at h
  obtain ⟨h1, h2⟩ := h
  split at h2
  · exact ⟨h1, _, ‹_›, by simpa using h2⟩
  · cases h2

def canTrap (s : State) (x : Iss) : Bool :=
  s.handlerOf x.wp != 0 && ((s.warps[x.w]?).map fun w => w.lanes.all fun y => !y.handler).getD false

theorem canTrap_sound {s : State} {x : Iss} (h : canTrap s x = true) (m : Mask) : CanTrap s x m := by
  simp only [canTrap, Bool.and_eq_true, bne_iff_ne, ne_eq] at h
  obtain ⟨h1, h2⟩ := h
  refine ⟨h1, fun l y _ hy => ?_⟩
  unfold laneOf at hy
  cases hw : s.warps[x.w]? with
  | none => rw [hw] at hy; cases hy
  | some w =>
    rw [hw] at hy h2
    simp only [Option.map_some, Option.getD_some, List.all_eq_true, Bool.not_eq_eq_eq_not, Bool.not_true] at h2
    exact h2 y (List.mem_of_getElem? hy)

/-- Some lane takes part. -/
def takesPart (x : Iss) : Bool := x.part != 0

/-! ### Well-formedness: one ill-formed term for each check, and well-formed neighbours -/

/-- R53, R146 to R169: a type that the row does not list (code 7); beside it the same word with a listed type. -/
theorem test_wellFormed_types :
    ([.iadd .f32 (.v 1) (.v 2) (.v 3) vt, .imulh .i16 (.v 1) (.v 2) (.v 3) vt, .imadw .i64 (.v 2) (.v 4) (.v 6) (.v 8) vt,
      .iaddc .i32 (.v 1) (.v 2) (.v 3) (.v 4) vt, .iabs .n32 (.v 1) (.v 2) vt, .sar .n32 (.v 1) (.v 2) (.v 3) vt,
      .popc .i32 (.v 1) (.v 2) vt, .mov .i16 (.v 1) (.v 2) vt, .scan .or .f32 (.v 1) (.v 2) vt, .cvt .t5 .i32 (.v 1) (.v 2) vt,
      .pack2 .f32 (.v 1) (.v 2) (.v 3) vt, .fadd .f64 false .rn (.v 2) (.v 4) (.v 6) vt, .fadd .f16 true .rn (.v 1) (.v 2) (.v 3) vt,
      .hadd2 .f32 .rn (.v 1) (.v 2) (.v 3) vt] : List Instr).all (fun i => typeCodes i == [7] && !i.wellFormed) = true ∧
    ([.iadd .n8 (.v 1) (.v 2) (.v 3) vt, .imulh .i64 (.v 2) (.v 4) (.v 6) vt, .sar .i32 (.v 1) (.v 2) (.v 3) vt,
      .scan .or .n32 (.v 1) (.v 2) vt, .fadd .f32 true .rn (.v 1) (.v 2) (.v 3) vt,
      .fmin .f64 false (.v 2) (.v 4) (.v 6) vt] : List Instr).all Instr.wellFormed = true := by
  decide

/-- R55, R87, R198, R223: an order, hint or scope that the row does not take (codes 7 and 8). -/
theorem test_wellFormed_orders :
    ([.ld .i32 (.v 1) (.v 2) 0 .dev .rel .normal ⟨q7, some 0, 0⟩, .st .i32 (.v 1) (.v 2) 0 .dev .acq .normal ct,
      .pf (.v 2) 0 .nc ct, .atom .add .w128 (.v 4) (.v 2) (.v 8) .dev .rlx .normal ⟨q7, some 0, 0⟩,
      .atom .fadd .w64 (.v 4) (.v 2) (.v 8) .dev .rlx .normal ⟨q7, some 0, 0⟩,
      .red .add .w32 (.v 2) (.v 8) .dev .rlx .stream ct, .atomx .bf2 (.v 4) (.v 2) (.v 8) .dev .rlx .normal ⟨q7, some 0, 0⟩,
      .fence 1 .rlx .dev tl] : List Instr).all (fun i => orderCodes i == [7] && !i.wellFormed) = true ∧
    ([.ld .i32 (.v 1) (.v 2) 0 .rmt .rlx .normal ⟨q7, some 0, 0⟩, .st .i32 (.v 1) (.v 2) 0 .rmt .rel .normal ct,
      .red .add .w32 (.v 2) (.v 8) .rmt .rel .normal ct, .fence 1 .rel .rmt tl] : List Instr).all
        (fun i => orderCodes i == [8] && !i.wellFormed) = true := by
  decide

/-- R93, R173, R261, R310, R331, R364, R369, R396: a `v` register where only `s` registers may stand (codes 15 and 7). -/
theorem test_wellFormed_uniform_operands :
    ([.ckeep (.s 1) (.v 2) (.s 4) (.s 6) tl, .cunkeep (.v 1) tl] : List Instr).all
        (fun i => sOnlyCodes i == [15] && !i.wellFormed) = true ∧
    ([.jwrite 1 (.v 1) tl, .mwait (.v 1) tl, .mcommit (.v 1) tl, .mprog (.v 1) tl, .punbind (.v 1) ct, .migr 1 (.v 2) tl,
      .resumeRetry (.v 1) tl, .resumeDeliver (.v 1) tl, .resumeEnd (.v 1) tl, .preemptSliceEnd (.v 2) tl, .tlbinvPage (.s 1) (.v 2) tl,
      .tlbinvCtx (.v 1) tl, .halt (.v 1) tl, .kzero (.v 1) tl, .lstart (.v 1) tl, .pbind (.s 4) (.v 8) ⟨q7, some 0, 0⟩,
      .pquery (.s 4) (.v 8) (.s 9) ⟨q7, some 0, 0⟩, .creduce (.s 1) (.s 4) (.v 8) (.s 10) ⟨q7, some 0, 0⟩,
      .cbcast (.s 4) (.s 8) (.v 10) ct, .cmembOpen (.s 2) (.s 4) (.v 6) (.s 7) ⟨q7, some 0, 0⟩,
      .assign (.s 1) (.v 2) ⟨q7, some 0, 0⟩] : List Instr).all (fun i => sOnlyCodes i == [7] && !i.wellFormed) = true := by
  decide

/-- R331: an unassigned selector, and a variant against the width (code 7); R47: an offset off the multiples of 8 (code 13);
R61: no counter (code 14). -/
theorem test_wellFormed_selectors_offsets_counters :
    ([.sread 0xF false (.v 2) tl, .sread 0x10 false (.v 2) tl, .swrite 1 true (.v 2) tl] : List Instr).all
        (fun i => selCodes i == [7] && !i.wellFormed) = true ∧
    ([.bra 4 tl, .brc .nz (.v 1) 0xFFFFFFFF tl, .call (.v 2) 12 tl] : List Instr).all
        (fun i => offsetCodes i == [13] && !i.wellFormed) = true ∧
    ([.ld .i32 (.v 1) (.v 2) 0 .dev .rlx .normal ct, .ldc .i32 (.v 1) (.v 2) 0 ct, .barrive (.v 1) (.v 2) 0 ct, .btest (.v 1) (.v 2) 0 ct,
      .atom .add .w32 (.v 4) (.v 2) (.v 8) .dev .rlx .normal ct, .atomx .w32 (.v 4) (.v 2) (.v 8) .dev .rlx .normal ct,
      .mread (.v 1) 0 (.v 2) (.s 0) 0 ct, .rpop (.v 2) (.v 4) ct, .rpopRing (.v 6) (.v 2) (.v 4) ct, .pbind (.s 4) (.s 8) ct,
      .pquery (.s 4) (.s 8) (.s 9) ct, .creduce (.s 1) (.s 4) (.s 8) (.s 10) ct, .cmembOpen (.s 2) (.s 4) (.s 6) (.s 7) ct,
      .launch (.v 1) (.v 2) ct, .assign (.s 1) (.s 2) ct] : List Instr).all (fun i => counterCodes i == [14] && !i.wellFormed) = true := by
  decide

/-- R48, R173: a pair, quad or group at an index that its size does not allow (code 12); R49: an `s` destination of a word that runs
per lane (code 15), which `s0` and a uniform word never raise; a step that is no program word. -/
theorem test_wellFormed_groups_and_destinations :
    ([.iadd .i64 (.v 3) (.v 4) (.v 6) vt, .iadd .i64 (.v 4) (.v 5) (.v 6) vt, .ld .i32 (.v 1) (.v 3) 0 .dev .rlx .normal ⟨q7, some 0, 0⟩,
      .xgather (.s 2) (.s 4) (.s 6) (.s 10) false ct, .mread (.v 1) 0 (.v 2) (.v 6) 0 ⟨q7, some 0, 0⟩, .brx (.v 7) tl,
      .pbind (.s 6) (.s 8) ⟨q7, some 0, 0⟩, .spawn (.s 2) (.v 3) ct] : List Instr).all
        (fun i => pairCodes false i == [12] && !i.wellFormed) = true ∧
    ([.iadd .i32 (.s 1) (.v 2) (.s 3) vt, .sel .n32 (.s 1) (.s 2) (.s 3) 1 false vt, .scan .add .i32 (.s 1) (.s 2) vt,
      .lanes .rank .n32 (.s 1) vt] : List Instr).all (fun i => uniformCodes false i == [15] && !i.wellFormed) = true ∧
    ([.iadd .i32 (.s 0) (.v 2) (.s 3) vt, .iadd .i32 (.s 1) (.s 2) (.s 3) vt, .redux .add .i32 (.s 1) (.v 2) vt,
      .lanes .count .n32 (.s 1) vt, .iadd .i64 (.v 4) (.v 6) (.s 8) vt] : List Instr).all Instr.wellFormed = true ∧
    Instr.wellFormed (.thermalTrip) = false := by
  decide

/-! ### Decoding: refusals by code, and words written out bit by bit from the encodings of R47 to R63 -/

/-- R64: one word for each code that a word alone can raise: an unassigned opcode, a non-zero reserved field, an illegal variant, an
illegal scope, size-and-type code 12, rejoin index 12, an odd pair, an offset of 4, no counter, an `s` destination of a per-lane word. -/
theorem test_decode_refusals :
    ([(0xC000000000000700, 2), (0x5800000000004700, 6), (0x000280802400D704, 7), (0x60024020015A0780, 8), (0x6002402001C40780, 9),
      (0x5B000000000007C0, 10), (0x0002809024002704, 12), (0x5000000000010700, 13), (0x6002402001540700, 14),
      (0x0080808024000704, 15)] : List (DWord × Nat)).all (fun e => match decode e.1 with
        | .error c => c == e.2
        | .ok _ => false) = true := by
  decide

/-- R65: a word that breaks several rules raises the lowest code: `ld` of size 12 at scope 5 without a counter raises 8. -/
theorem test_decode_lowest_code : (match decode 0x6002402001CA0700 with | .error c => c == 8 | .ok _ => false) = true := by
  decide

/-- R48, R199: a register at the launch's count and a tile at its count (code 11). -/
theorem test_launch_limits :
    launchCodes ⟨32, 8, 8, 2⟩ (.iadd .i32 (.v 8) (.v 1) (.v 2) vt) = [11] ∧ launchCodes ⟨32, 8, 8, 2⟩ (.macq 2 tl) = [11] ∧
      launchCodes ⟨32, 8, 8, 2⟩ (.iadd .i64 (.v 6) (.v 0) (.v 2) vt) = [] := by
  decide

/-- R47 to R63: words of the integer family, written out field by field from the tables of the spec. -/
theorem test_decode_integer :
    ([(0x0019102090001145, .iadd .n32 (.v 100) (.v 258) (.v 36) ⟨⟨false, 1⟩, 1, 5⟩),
      (0x011910209000228A, .isub .i64 (.v 100) (.v 258) (.v 36) ⟨⟨false, 2⟩, 2, 10⟩),
      (0x02191020900073CF, .imul .n8 (.v 100) (.v 258) (.v 36) ⟨⟨false, 3⟩, 3, 15⟩),
      (0x0319102090003404, .imulh .n64 (.v 100) (.v 258) (.v 36) ⟨⟨false, 4⟩, 0, 4⟩),
      (0x0419102091A64549, .imad .i16 (.v 100) (.v 258) (.v 36) (.v 422) ⟨⟨false, 5⟩, 1, 9⟩),
      (0x0519102091A6168E, .imadw .n32 (.v 100) (.v 258) (.v 36) (.v 422) ⟨⟨false, 6⟩, 2, 14⟩),
      (0x0619102091A617C3, .iaddc .n32 (.v 100) (.v 258) (.v 36) (.v 422) ⟨⟨false, 7⟩, 3, 3⟩),
      (0x0719102090005808, .imin .n16 (.v 100) (.v 258) (.v 36) ⟨⟨true, 0⟩, 0, 8⟩),
      (0x081910209000694D, .imax .i8 (.v 100) (.v 258) (.v 36) ⟨⟨true, 1⟩, 1, 13⟩),
      (0x0919102000002A82, .iabs .i64 (.v 100) (.v 258) ⟨⟨true, 2⟩, 2, 2⟩),
      (0x0A19102000004BC7, .ineg .i16 (.v 100) (.v 258) ⟨⟨true, 3⟩, 3, 7⟩),
      (0x0B19102091A60C0C, .isad .i32 (.v 100) (.v 258) (.v 36) (.v 422) ⟨⟨true, 4⟩, 0, 12⟩)] : List (DWord × Instr)).all (fun e => (decode e.1).toOption == some e.2) = true := by
  decide

/-- R47 to R63: words of the logic family, written out field by field from the tables of the spec. -/
theorem test_decode_logic :
    ([(0x0C4B2803F8000D41, .land false (.v 300) (.s 128) (.v 254) ⟨⟨true, 5⟩, 1, 1⟩),
      (0x0C4B2803F8000E96, .land true (.v 300) (.s 128) (.v 254) ⟨⟨true, 6⟩, 2, 6⟩),
      (0x0C4B2803F8001FCB, .lor false (.v 300) (.s 128) (.v 254) ⟨⟨true, 7⟩, 3, 11⟩),
      (0x0C4B2803F8001010, .lor true (.v 300) (.s 128) (.v 254) ⟨⟨false, 0⟩, 0, 0⟩),
      (0x0C4B2803F8002145, .lxor false (.v 300) (.s 128) (.v 254) ⟨⟨false, 1⟩, 1, 5⟩),
      (0x0C4B2803F800229A, .lxor true (.v 300) (.s 128) (.v 254) ⟨⟨false, 2⟩, 2, 10⟩),
      (0x0C4B2803F80033CF, .landn false (.v 300) (.s 128) (.v 254) ⟨⟨false, 3⟩, 3, 15⟩),
      (0x0C4B2803F8003414, .landn true (.v 300) (.s 128) (.v 254) ⟨⟨false, 4⟩, 0, 4⟩),
      (0x0C4B280000004549, .lnot false (.v 300) (.s 128) ⟨⟨false, 5⟩, 1, 9⟩),
      (0x0C4B28000000469E, .lnot true (.v 300) (.s 128) ⟨⟨false, 6⟩, 2, 14⟩),
      (0x0D0140681C08C7A1, .lsel 12 10 (.v 5) (.v 6) (.s 7) (.v 8) ⟨⟨false, 7⟩, 1⟩),
      (0x0E10042110002808, .shl .i64 (.v 64) (.v 66) (.v 68) ⟨⟨true, 0⟩, 0, 8⟩),
      (0x0F1004211000394D, .shr .n64 (.v 64) (.v 66) (.v 68) ⟨⟨true, 1⟩, 1, 13⟩),
      (0x1010042110000A82, .sar .i32 (.v 64) (.v 66) (.v 68) ⟨⟨true, 2⟩, 2, 2⟩),
      (0x1110042110001BC7, .rot .n32 (.v 64) (.v 66) (.v 68) ⟨⟨true, 3⟩, 3, 7⟩),
      (0x1210042110460C0C, .bfx .i32 (.v 64) (.v 66) (.v 68) (.v 70) ⟨⟨true, 4⟩, 0, 12⟩),
      (0x1310042110463D41, .bfi .n64 (.v 64) (.v 66) (.v 68) (.v 70) ⟨⟨true, 5⟩, 1, 1⟩),
      (0x1410042000003E86, .popc .n64 (.v 64) (.v 66) ⟨⟨true, 6⟩, 2, 6⟩),
      (0x1510042000001FCB, .clz .n32 (.v 64) (.v 66) ⟨⟨true, 7⟩, 3, 11⟩),
      (0x1610042000003000, .ctz .n64 (.v 64) (.v 66) ⟨⟨false, 0⟩, 0, 0⟩),
      (0x1710042000001145, .brev .n32 (.v 64) (.v 66) ⟨⟨false, 1⟩, 1, 5⟩)] : List (DWord × Instr)).all (fun e => (decode e.1).toOption == some e.2) = true := by
  decide

/-- R47 to R63: words of the moves family, written out field by field from the tables of the spec. -/
theorem test_decode_moves :
    ([(0x180280C03810028A, .lea .i32 (.v 10) (.v 12) (.v 14) (.v 16) ⟨⟨false, 2⟩, 2, 10⟩),
      (0x190080C8480063CF, .icmp .eq .i8 2 (.v 12) (.s 18) ⟨⟨false, 3⟩, 3, 15⟩),
      (0x1902C0C848003404, .icmp .ne .n64 3 (.v 12) (.s 18) ⟨⟨false, 4⟩, 0, 4⟩),
      (0x190500C848005549, .icmp .lt .n16 4 (.v 12) (.s 18) ⟨⟨false, 5⟩, 1, 9⟩),
      (0x190740C84800068E, .icmp .le .i32 5 (.v 12) (.s 18) ⟨⟨false, 6⟩, 2, 14⟩),
      (0x190980C8480027C3, .icmp .gt .i64 6 (.v 12) (.s 18) ⟨⟨false, 7⟩, 3, 3⟩),
      (0x190BC0C848001808, .icmp .ge .n32 7 (.v 12) (.s 18) ⟨⟨true, 0⟩, 0, 8⟩),
      (0x1A0501606005B94D, .sel .f64 (.v 20) (.v 22) (.v 24) 5 false ⟨⟨true, 1⟩, 1, 13⟩),
      (0x1A0501606005BA92, .sel .f64 (.v 20) (.v 22) (.v 24) 5 true ⟨⟨true, 2⟩, 2, 2⟩),
      (0x1B00A04000002BC7, .mov .i64 (.v 2) (.s 4) ⟨⟨true, 3⟩, 3, 7⟩),
      (0x1C82400DEADBEEFB, .movi (.s 9) 0xDEADBEEF 11),
      (0x1D02808800000015, .movhi (.v 10) (.v 8) 0x80000001 5)] : List (DWord × Instr)).all (fun e => (decode e.1).toOption == some e.2) = true := by
  decide

/-- R47 to R63: words of the float family, written out field by field from the tables of the spec. -/
theorem test_decode_float :
    ([(0x200A02A0B0008C2C, .fadd .f32 true .rd (.v 40) (.v 42) (.v 44) ⟨⟨true, 4⟩, 0, 12⟩),
      (0x210A02A0B0001D71, .fsub .f16 false .ru (.v 40) (.v 42) (.v 44) ⟨⟨true, 5⟩, 1, 1⟩),
      (0x220A02A0B0002E96, .fmul .bf16 false .rz (.v 40) (.v 42) (.v 44) ⟨⟨true, 6⟩, 2, 6⟩),
      (0x230A02A0B02E8FCB, .ffma .f32 true .rn (.v 40) (.v 42) (.v 44) (.v 46) ⟨⟨true, 7⟩, 3, 11⟩),
      (0x240A02A0B0003000, .fmin .f64 false (.v 40) (.v 42) (.v 44) ⟨⟨false, 0⟩, 0, 0⟩),
      (0x250A02A0B0008145, .fmax .f32 true (.v 40) (.v 42) (.v 44) ⟨⟨false, 1⟩, 1, 5⟩),
      (0x260A02A00000328A, .fneg .f64 (.v 40) (.v 42) ⟨⟨false, 2⟩, 2, 10⟩),
      (0x270A02A0000013CF, .fabs .f16 (.v 40) (.v 42) ⟨⟨false, 3⟩, 3, 15⟩),
      (0x290A02A000002404, .fclass .bf16 (.v 40) (.v 42) ⟨⟨false, 4⟩, 0, 4⟩),
      (0x2809803014008549, .fcmp .gt .f32 true 6 (.v 3) (.v 5) ⟨⟨false, 5⟩, 1, 9⟩),
      (0x2A01C090000086BE, .frcp true .ru (.v 7) (.v 9) ⟨⟨false, 6⟩, 2, 14⟩),
      (0x2B01C090000087C3, .frsq true (.v 7) (.v 9) ⟨⟨false, 7⟩, 3, 3⟩),
      (0x2C01C09000000818, .fsqrt false .rz (.v 7) (.v 9) ⟨⟨true, 0⟩, 0, 8⟩),
      (0x2D01C0900000894D, .fexp2 true (.v 7) (.v 9) ⟨⟨true, 1⟩, 1, 13⟩),
      (0x2E01C09000000A82, .flog2 false (.v 7) (.v 9) ⟨⟨true, 2⟩, 2, 2⟩),
      (0x2F01C09000008BC7, .fsin true (.v 7) (.v 9) ⟨⟨true, 3⟩, 3, 7⟩),
      (0x3001C09000000C0C, .fcos false (.v 7) (.v 9) ⟨⟨true, 4⟩, 0, 12⟩),
      (0x310A02A0B0003D51, .dadd .rz (.v 40) (.v 42) (.v 44) ⟨⟨true, 5⟩, 1, 1⟩),
      (0x320A02A0B0003EA6, .dmul .rd (.v 40) (.v 42) (.v 44) ⟨⟨true, 6⟩, 2, 6⟩),
      (0x330A02A0B02E3FFB, .dfma .ru (.v 40) (.v 42) (.v 44) (.v 46) ⟨⟨true, 7⟩, 3, 11⟩),
      (0x3404404018003000, .dcmp .lt 1 (.v 4) (.v 6) ⟨⟨false, 0⟩, 0, 0⟩),
      (0x350A02A0B0001175, .hadd2 .f16 .ru (.v 40) (.v 42) (.v 44) ⟨⟨false, 1⟩, 1, 5⟩),
      (0x360A02A0B000228A, .hmul2 .bf16 .rn (.v 40) (.v 42) (.v 44) ⟨⟨false, 2⟩, 2, 10⟩),
      (0x370A02A0B02E13EF, .hfma2 .f16 .rd (.v 40) (.v 42) (.v 44) (.v 46) ⟨⟨false, 3⟩, 3, 15⟩)] : List (DWord × Instr)).all (fun e => (decode e.1).toOption == some e.2) = true := by
  decide

/-- R47 to R63: words of the conversions family, written out field by field from the tables of the spec. -/
theorem test_decode_conversions :
    ([(0x40078200000B7404, .cvt .n8 .f64 (.v 30) (.v 32) ⟨⟨false, 4⟩, 0, 4⟩),
      (0x4007820000029549, .cvt .f16 .i64 (.v 30) (.v 32) ⟨⟨false, 5⟩, 1, 9⟩),
      (0x410040280C05068E, .cvtq 5 (.v 1) (.v 2) (.s 3) ⟨⟨false, 6⟩, 2, 14⟩),
      (0x420040280C0707C3, .cvtd 7 (.v 1) (.v 2) (.s 3) ⟨⟨false, 7⟩, 3, 3⟩),
      (0x430040200000C808, .trpack (.v 1) (.v 2) ⟨⟨true, 0⟩, 0, 8⟩),
      (0x440080100000C94D, .trunpack (.v 2) (.v 1) ⟨⟨true, 1⟩, 1, 13⟩),
      (0x450040200C00AA82, .pack2 .bf16 (.v 1) (.v 2) (.v 3) ⟨⟨true, 2⟩, 2, 2⟩)] : List (DWord × Instr)).all (fun e => (decode e.1).toOption == some e.2) = true := by
  decide

/-- R47 to R63: words of the lanes family, written out field by field from the tables of the spec. -/
theorem test_decode_lanes :
    ([(0x480C8340DA381BC7, .shfl .abs .n32 (.v 50) (.v 52) (.v 54) (.s 56) ⟨⟨true, 3⟩, 3, 7⟩),
      (0x480C8340DA38BC1C, .shfl .add .f64 (.v 50) (.v 52) (.v 54) (.s 56) ⟨⟨true, 4⟩, 0, 12⟩),
      (0x480C8340DA382D61, .shfl .wrap .i64 (.v 50) (.v 52) (.v 54) (.s 56) ⟨⟨true, 5⟩, 1, 1⟩),
      (0x480C8340DA388EB6, .shfl .flip .f32 (.v 50) (.v 52) (.v 54) (.s 56) ⟨⟨true, 6⟩, 2, 6⟩),
      (0x498F00000C003FCB, .voteBallot .n64 (.s 60) 3 ⟨⟨true, 7⟩, 3, 11⟩),
      (0x4901400008001010, .voteAny 5 2 ⟨⟨false, 0⟩, 0, 0⟩),
      (0x4901800004001165, .voteAll 6 1 ⟨⟨false, 1⟩, 1, 5⟩),
      (0x49010120000022BA, .voteEq .i64 4 (.v 18) ⟨⟨false, 2⟩, 2, 10⟩),
      (0x4A140520000083CF, .scan .add .f32 (.v 80) (.v 82) ⟨⟨false, 3⟩, 3, 15⟩),
      (0x4B94052000008404, .redux .add .f32 (.s 80) (.v 82) ⟨⟨false, 4⟩, 0, 4⟩),
      (0x4A14052000002559, .scan .min .i64 (.v 80) (.v 82) ⟨⟨false, 5⟩, 1, 9⟩),
      (0x4B9405200000269E, .redux .min .i64 (.s 80) (.v 82) ⟨⟨false, 6⟩, 2, 14⟩),
      (0x4A140520000017E3, .scan .max .n32 (.v 80) (.v 82) ⟨⟨false, 7⟩, 3, 3⟩),
      (0x4B94052000001828, .redux .max .n32 (.s 80) (.v 82) ⟨⟨true, 0⟩, 0, 8⟩),
      (0x4A1405200000397D, .scan .or .n64 (.v 80) (.v 82) ⟨⟨true, 1⟩, 1, 13⟩),
      (0x4B94052000003AB2, .redux .or .n64 (.s 80) (.v 82) ⟨⟨true, 2⟩, 2, 2⟩),
      (0x4C15000000003BC7, .lanes .mask .n64 (.v 84) ⟨⟨true, 3⟩, 3, 7⟩),
      (0x4C15000000001C1C, .lanes .count .n32 (.v 84) ⟨⟨true, 4⟩, 0, 12⟩),
      (0x4C15000000001D61, .lanes .rank .n32 (.v 84) ⟨⟨true, 5⟩, 1, 1⟩),
      (0x4C15000000003EB6, .lanes .first .n64 (.v 84) ⟨⟨true, 6⟩, 2, 6⟩)] : List (DWord × Instr)).all (fun e => (decode e.1).toOption == some e.2) = true := by
  decide

/-- R47 to R63: words of the control family, written out field by field from the tables of the spec. -/
theorem test_decode_control :
    ([(0x50003FFFFC000F09, .bra (BitVec.ofInt 32 (-4096)) ⟨⟨true, 7⟩, 9⟩),
      (0x51135FFFFFFE0000, .brc .nz (.v 77) 0x7FFFFFF8 ⟨⟨false, 0⟩, 0⟩),
      (0x51135FFFFFFE1107, .brc .z (.v 77) 0x7FFFFFF8 ⟨⟨false, 1⟩, 7⟩),
      (0x51135FFFFFFE220E, .brc .lt (.v 77) 0x7FFFFFF8 ⟨⟨false, 2⟩, 14⟩),
      (0x51135FFFFFFE3305, .brc .ge (.v 77) 0x7FFFFFF8 ⟨⟨false, 3⟩, 5⟩),
      (0x521380000000040C, .brx (.v 78) ⟨⟨false, 4⟩, 12⟩),
      (0x5387800000100503, .call (.s 30) 64 ⟨⟨false, 5⟩, 3⟩),
      (0x540780000000060A, .callx (.v 30) ⟨⟨false, 6⟩, 10⟩),
      (0x5587800000000701, .ret (.s 30) ⟨⟨false, 7⟩, 1⟩),
      (0x5600000000000808, .exit ⟨⟨true, 0⟩, 8⟩),
      (0x570000000000090F, .yield ⟨⟨true, 1⟩, 15⟩),
      (0x5800000000000A06, .nop ⟨⟨true, 2⟩, 6⟩),
      (0x5900000000000BBD, .jenter 11 ⟨⟨true, 3⟩, 13⟩),
      (0x5A00000000000C34, .jquit 3 ⟨⟨true, 4⟩, 4⟩),
      (0x5B00000000000D7B, .jwait 7 ⟨⟨true, 5⟩, 11⟩),
      (0x5C07C00000000E92, .jread (.v 31) 9 ⟨⟨true, 6⟩, 2⟩),
      (0x5D87C00000000FA9, .jwrite 10 (.s 31) ⟨⟨true, 7⟩, 9⟩),
      (0x5E00000000000010, .jclear 1 ⟨⟨false, 0⟩, 0⟩)] : List (DWord × Instr)).all (fun e => (decode e.1).toOption == some e.2) = true := by
  decide

/-- R47 to R63: words of the memory family, written out field by field from the tables of the spec. -/
theorem test_decode_memory :
    ([(0x601685CFFF001193, .ld .n8 (.v 90) (.v 92) (BitVec.ofInt 12 (-1)) .core .rlx .ef ⟨⟨false, 1⟩, some 1, 3⟩),
      (0x601685C80032A2A6, .ld .i16 (.v 90) (.v 92) (BitVec.ofInt 12 (-2048)) .die .acq .keep ⟨⟨false, 2⟩, some 2, 6⟩),
      (0x601685C7FFB433B9, .ld .f64 (.v 90) (.v 92) (BitVec.ofInt 12 (2047)) .dev .rlx .stream ⟨⟨false, 3⟩, some 3, 9⟩),
      (0x601685C00596C4CC, .ld .bf16 (.v 90) (.v 92) (BitVec.ofInt 12 (5)) .sys .acq .nc ⟨⟨false, 4⟩, some 4, 12⟩),
      (0x601685CFF97885DF, .ld .i64 (.v 90) (.v 92) (BitVec.ofInt 12 (-7)) .rmt .acq .normal ⟨⟨false, 5⟩, some 5, 15⟩),
      (0x6116A5C0091106E2, .st .i8 (.v 90) (.s 92) (BitVec.ofInt 12 (9)) .core .rel .normal ⟨⟨false, 6⟩, some 6, 2⟩),
      (0x6116A5CFF7A24705, .st .f32 (.v 90) (.s 92) (BitVec.ofInt 12 (-9)) .die .rlx .nc ⟨⟨false, 7⟩, none, 5⟩),
      (0x6116A5C064673888, .st .n64 (.v 90) (.s 92) (BitVec.ofInt 12 (100)) .sys .rel .stream ⟨⟨true, 0⟩, some 0, 8⟩),
      (0x6216A5CFFD84099B, .ldc .f16 (.v 90) (.s 92) (BitVec.ofInt 12 (-3)) ⟨⟨true, 1⟩, some 1, 11⟩),
      (0x630005C04D043AAE, .pf (.v 92) (BitVec.ofInt 12 (77)) .stream ⟨⟨true, 2⟩, some 2, 14⟩),
      (0x640005CFB3040B01, .cflush (.v 92) (BitVec.ofInt 12 (-77)) ⟨⟨true, 3⟩, none, 1⟩),
      (0x650025C04E040CC4, .cinval (.s 92) (BitVec.ofInt 12 (78)) ⟨⟨true, 4⟩, some 4, 4⟩),
      (0x6696A5C97A610D0B, .ckeep (.s 90) (.s 92) (.s 94) (.s 97) ⟨⟨true, 5⟩, 11⟩),
      (0x6796C00000000E02, .cunkeep (.s 91) ⟨⟨true, 6⟩, 2⟩)] : List (DWord × Instr)).all (fun e => (decode e.1).toOption == some e.2) = true := by
  decide

/-- R47 to R63: words of the barriers and copies family, written out field by field from the tables of the spec. -/
theorem test_decode_barriers_and_copies :
    ([(0x688F43CFD8000F0D, .binit (.s 61) (.v 60) (BitVec.ofInt 12 (-40)) ⟨⟨true, 7⟩, none, 13⟩),
      (0x690F43CFD8000080, .barrive (.v 61) (.v 60) (BitVec.ofInt 12 (-40)) ⟨⟨false, 0⟩, some 0, 0⟩),
      (0x6A0F83CFD8000103, .bwait (.v 62) (.v 60) (BitVec.ofInt 12 (-40)) ⟨⟨false, 1⟩, none, 3⟩),
      (0x6B0FC3CFD80002A6, .btest (.v 63) (.v 60) (BitVec.ofInt 12 (-40)) ⟨⟨false, 2⟩, some 2, 6⟩),
      (0x6C1003CFD8000309, .bexpect (.v 64) (.v 60) (BitVec.ofInt 12 (-40)) ⟨⟨false, 3⟩, none, 9⟩),
      (0x6D00000000000709, .bsync 9),
      (0x70B20CAB32D004CC, .xcopy (.s 200) (.v 202) (.s 204) (.s 208) false ⟨⟨false, 4⟩, some 4, 12⟩),
      (0x70B20CAB32D0150F, .xcopy (.s 200) (.v 202) (.s 204) (.s 208) true ⟨⟨false, 5⟩, none, 15⟩),
      (0x71B20CAB32D006E2, .xgather (.s 200) (.v 202) (.s 204) (.s 208) false ⟨⟨false, 6⟩, some 6, 2⟩),
      (0x71B20CAB32D01705, .xgather (.s 200) (.v 202) (.s 204) (.s 208) true ⟨⟨false, 7⟩, none, 5⟩),
      (0x72B20CAB32D00888, .xscatter (.s 200) (.v 202) (.s 204) (.s 208) false ⟨⟨true, 0⟩, some 0, 8⟩),
      (0x72B20CAB32D0190B, .xscatter (.s 200) (.v 202) (.s 204) (.s 208) true ⟨⟨true, 1⟩, none, 11⟩),
      (0x74B20CAB32D00AAE, .xfill (.s 200) (.v 202) (.s 204) (.s 208) false ⟨⟨true, 2⟩, some 2, 14⟩),
      (0x74B20CAB32D01B01, .xfill (.s 200) (.v 202) (.s 204) (.s 208) true ⟨⟨true, 3⟩, none, 1⟩),
      (0x73B20CAB32CE0CC4, .xmcast (.s 200) (.v 202) (.s 204) (.s 206) ⟨⟨true, 4⟩, some 4, 4⟩)] : List (DWord × Instr)).all (fun e => (decode e.1).toOption == some e.2) = true := by
  decide

/-- R47 to R63: words of the atomics family, written out field by field from the tables of the spec. -/
theorem test_decode_atomics :
    ([(0x801885E180000DD7, .atom .add .w32 (.v 98) (.v 94) (.v 96) .core .rlx .normal ⟨⟨true, 5⟩, some 5, 7⟩),
      (0x801885E180529EEA, .atom .minS .w64 (.v 98) (.v 94) (.v 96) .die .acq .ef ⟨⟨true, 6⟩, some 6, 10⟩),
      (0x801885E180852FFD, .atom .minU .w32 (.v 98) (.v 94) (.v 96) .dev .rel .keep ⟨⟨true, 7⟩, some 7, 13⟩),
      (0x801885E180D7C080, .atom .maxS .w64 (.v 98) (.v 94) (.v 96) .sys .acqrel .nc ⟨⟨false, 0⟩, some 0, 0⟩),
      (0x801885E181000193, .atom .maxU .w32 (.v 98) (.v 94) (.v 96) .core .rlx .normal ⟨⟨false, 1⟩, some 1, 3⟩),
      (0x801885E1815292A6, .atom .and .w64 (.v 98) (.v 94) (.v 96) .die .acq .ef ⟨⟨false, 2⟩, some 2, 6⟩),
      (0x801885E1818523B9, .atom .or .w32 (.v 98) (.v 94) (.v 96) .dev .rel .keep ⟨⟨false, 3⟩, some 3, 9⟩),
      (0x801885E181D7C4CC, .atom .xor .w64 (.v 98) (.v 94) (.v 96) .sys .acqrel .nc ⟨⟨false, 4⟩, some 4, 12⟩),
      (0x801885E1820005DF, .atom .xchg .w32 (.v 98) (.v 94) (.v 96) .core .rlx .normal ⟨⟨false, 5⟩, some 5, 15⟩),
      (0x801885E1827296E2, .atom .fadd .bf2 (.v 98) (.v 94) (.v 96) .die .acq .ef ⟨⟨false, 6⟩, some 6, 2⟩),
      (0x801885E1828527F5, .atom .inc .w32 (.v 98) (.v 94) (.v 96) .dev .rel .keep ⟨⟨false, 7⟩, some 7, 5⟩),
      (0x801885E182D7C888, .atom .dec .w64 (.v 98) (.v 94) (.v 96) .sys .acqrel .nc ⟨⟨true, 0⟩, some 0, 8⟩),
      (0x811905E18009899B, .atomx .w32 (.v 100) (.v 94) (.v 96) .rmt .acqrel .normal ⟨⟨true, 1⟩, some 1, 11⟩),
      (0x811905E180150AAE, .atomx .w64 (.v 100) (.v 94) (.v 96) .dev .rel .normal ⟨⟨true, 2⟩, some 2, 14⟩),
      (0x811905E180268BB1, .atomx .w128 (.v 100) (.v 94) (.v 96) .sys .acq .normal ⟨⟨true, 3⟩, some 3, 1⟩),
      (0x820005E182440CC4, .red .fadd .w32 (.v 94) (.v 96) .dev .rlx .normal ⟨⟨true, 4⟩, some 4, 4⟩),
      (0x820005E18118AD07, .red .maxU .w64 (.v 94) (.v 96) .rmt .acq .keep ⟨⟨true, 5⟩, none, 7⟩),
      (0x8801C00000098E02, .fence 7 .acqrel .rmt ⟨⟨true, 6⟩, 2⟩),
      (0x8800400000068F09, .fence 1 .acq .sys ⟨⟨true, 7⟩, 9⟩),
      (0x8900000014000000, .fwait 5 ⟨⟨false, 0⟩, 0⟩),
      (0x8A00C00018000107, .fpoll 3 6 ⟨⟨false, 1⟩, 7⟩)] : List (DWord × Instr)).all (fun e => (decode e.1).toOption == some e.2) = true := by
  decide

/-- R47 to R63: words of the matrix family, written out field by field from the tables of the spec. -/
theorem test_decode_matrix :
    ([(0x900FC0000000020E, .macq 63 ⟨⟨false, 2⟩, 14⟩),
      (0x910F800000000305, .mrel 62 ⟨⟨false, 3⟩, 5⟩),
      (0x920F4000000004CC, .mzero 61 ⟨⟨false, 4⟩, some 4, 12⟩),
      (0x930F20A0000CC50F, .mload 60 (.s 10) (.v 12) 6 ⟨⟨false, 5⟩, none, 15⟩),
      (0x930F00A0020C16E2, .mloadRaw 60 (.v 10) (.s 12) ⟨⟨false, 6⟩, some 6, 2⟩),
      (0x940EE0A0320EA705, .mma 59 (.s 10) (.v 12) (.s 14) 5 ⟨⟨false, 7⟩, none, 5⟩),
      (0x940EA0A0320E5888, .mmaSet 58 (.s 10) (.v 12) (.s 14) 2 ⟨⟨true, 0⟩, some 0, 8⟩),
      (0x950E40A8400EE90B, .mdrain 57 (.v 10) (.s 16) (.v 14) 7 ⟨⟨true, 1⟩, none, 11⟩),
      (0x950E00A8000E1AAE, .mdrainRaw 56 (.v 10) (.v 14) ⟨⟨true, 2⟩, some 2, 14⟩),
      (0x960843708E008BB1, .mread (.v 33) 55 (.v 35) (.s 0) 4 ⟨⟨true, 3⟩, some 3, 1⟩),
      (0x9788400000000C04, .mcommit (.s 33) ⟨⟨true, 4⟩, 4⟩),
      (0x9888800000000D0B, .mwait (.s 34) ⟨⟨true, 5⟩, 11⟩),
      (0x9988C00000000E02, .mprog (.s 35) ⟨⟨true, 6⟩, 2⟩),
      (0x9A00000000000F09, .mbtake ⟨⟨true, 7⟩, 9⟩),
      (0x9B00000000000000, .mbpass ⟨⟨false, 0⟩, 0⟩)] : List (DWord × Instr)).all (fun e => (decode e.1).toOption == some e.2) = true := by
  decide

/-- R47 to R63: words of the tasks and pipelines family, written out field by field from the tables of the spec. -/
theorem test_decode_tasks_and_pipelines :
    ([(0xA005016000000103, .spawn (.v 20) (.v 22) ⟨⟨false, 1⟩, none, 3⟩),
      (0xA1800160000002A6, .rpush (.v 22) ⟨⟨false, 2⟩, some 2, 6⟩),
      (0xA185016864001309, .rpushRing (.s 20) (.v 22) (.s 25) ⟨⟨false, 3⟩, none, 9⟩),
      (0xA2800160600004CC, .rpop (.v 22) (.v 24) ⟨⟨false, 4⟩, some 4, 12⟩),
      (0xA2850160600015DF, .rpopRing (.s 20) (.v 22) (.v 24) ⟨⟨false, 5⟩, some 5, 15⟩),
      (0xA3800000000006E2, .reos ⟨⟨false, 6⟩, some 6, 2⟩),
      (0xA305219000001705, .reosRing (.v 20) (.s 25) ⟨⟨false, 7⟩, none, 5⟩),
      (0xA48621E000000888, .pbind (.s 24) (.s 30) ⟨⟨true, 0⟩, some 0, 8⟩),
      (0xA587C0000000090B, .punbind (.s 31) ⟨⟨true, 1⟩, none, 11⟩),
      (0xA68621F884000AAE, .pquery (.s 24) (.s 31) (.s 33) ⟨⟨true, 2⟩, some 2, 14⟩),
      (0xA700A46000000B0D, .migr 2 (.s 70) ⟨⟨true, 3⟩, 13⟩)] : List (DWord × Instr)).all (fun e => (decode e.1).toOption == some e.2) = true := by
  decide

/-- R47 to R63: words of the collectives family, written out field by field from the tables of the spec. -/
theorem test_decode_collectives :
    ([(0xA881608832110CC4, .creduce (.s 5) (.s 8) (.s 12) (.s 17) ⟨⟨true, 4⟩, some 4, 4⟩),
      (0xA900208832110D07, .cbcast (.s 8) (.s 12) (.s 17) ⟨⟨true, 5⟩, none, 7⟩),
      (0xAA81A0E84E150EEA, .cmembOpen (.s 6) (.s 14) (.s 19) (.s 21) ⟨⟨true, 6⟩, some 6, 10⟩)] : List (DWord × Instr)).all (fun e => (decode e.1).toOption == some e.2) = true := by
  decide

/-- R47 to R63: words of the system family, written out field by field from the tables of the spec. -/
theorem test_decode_system :
    ([(0xB00A400000050F09, .sread 5 false (.v 41) ⟨⟨true, 7⟩, 9⟩),
      (0xB08A800600011000, .sread 0x60001 true (.s 42) ⟨⟨false, 0⟩, 0⟩),
      (0xB100029200040107, .swrite 0x20004 false (.v 41) ⟨⟨false, 1⟩, 7⟩),
      (0xB10022A70000120E, .swrite 0x70000 true (.s 42) ⟨⟨false, 2⟩, 14⟩),
      (0xB20002B007FF0305, .trap 2047 (.v 43) ⟨⟨false, 3⟩, 5⟩),
      (0xB30000000000040C, .rte ⟨⟨false, 4⟩, 12⟩),
      (0xB40022C000000503, .resumeRetry (.s 44) ⟨⟨false, 5⟩, 3⟩),
      (0xB40022C00000160A, .resumeDeliver (.s 44) ⟨⟨false, 6⟩, 10⟩),
      (0xB40022C000002701, .resumeEnd (.s 44) ⟨⟨false, 7⟩, 1⟩),
      (0xB50022E000000808, .preemptSliceEnd (.s 46) ⟨⟨true, 0⟩, 8⟩),
      (0xB68BE3000000090F, .tlbinvPage (.s 47) (.s 48) ⟨⟨true, 1⟩, 15⟩),
      (0xB68BE00000001A06, .tlbinvCtx (.s 47) ⟨⟨true, 2⟩, 6⟩),
      (0xB680200000002B0D, .tlbinvAll ⟨⟨true, 3⟩, 13⟩),
      (0xB70C432000000CC4, .launch (.v 49) (.v 50) ⟨⟨true, 4⟩, some 4, 4⟩),
      (0xB800233000000D0B, .halt (.s 51) ⟨⟨true, 5⟩, 11⟩),
      (0xB98D236000000EEA, .assign (.s 52) (.s 54) ⟨⟨true, 6⟩, some 6, 10⟩),
      (0xBA00237000000F09, .kzero (.s 55) ⟨⟨true, 7⟩, 9⟩),
      (0xBB00238000000000, .lstart (.s 56) ⟨⟨false, 0⟩, 0⟩),
      (0xB08A800307FC1107, .lqerrRead 255 (.s 42) ⟨⟨false, 1⟩, 7⟩),
      (0xB08A80062003120E, .ecccntRead 3 (.s 42) ⟨⟨false, 2⟩, 14⟩),
      (0xB10022B3008A0305, .lqtailDoorbell 17 (.s 43) ⟨⟨false, 3⟩, 5⟩)] : List (DWord × Instr)).all (fun e => (decode e.1).toOption == some e.2) = true := by
  decide

/-! ### Single steps, with results worked out by hand from the rules -/

/-- The values that the word's issue gives lane 0's `v` registers and the warp's `FLAGS`, from those registers. -/
def gave (regs : List (Nat × Word)) (i : Instr) : List Word × Nat :=
  match exec i (vregs regs (put i)) with
  | .next t => match t.warps[0]? with
    | some w => (w.pend.filterMap fun p => match p.dst with
        | .v 0 _ => p.val
        | _ => none, w.flags.toNat)
    | none => ([], 99)
  | _ => ([], 99)

/-- R145, R153: overflow wraps, a narrow sum keeps its sign, a source that is also the destination, the high half of a signed and of
an unsigned product, the carry out, |x − y| + c of n32. -/
theorem test_integer_results :
    gave [(1, 0x7FFFFFFF), (2, 1)] (.iadd .i32 (.v 3) (.v 1) (.v 2) vt) = ([0x80000000], 0) ∧
    gave [(1, 127), (2, 1)] (.iadd .i8 (.v 3) (.v 1) (.v 2) vt) = ([0xFFFFFF80], 0) ∧
    gave [(1, 5), (2, 7)] (.isub .n32 (.v 1) (.v 1) (.v 2) vt) = ([0xFFFFFFFE], 0) ∧
    gave [(2, 0xFFFFFFFF), (4, 1)] (.iadd .n64 (.v 6) (.v 2) (.v 4) vt) = ([0, 1], 0) ∧
    gave [(1, 0xFFFFFFFB), (2, 7)] (.imulh .i32 (.v 3) (.v 1) (.v 2) vt) = ([0xFFFFFFFF], 0) ∧
    gave [(1, 0xFFFFFFFB), (2, 7)] (.imulh .n32 (.v 3) (.v 1) (.v 2) vt) = ([6], 0) ∧
    gave [(1, 0xFFFFFFFF), (2, 0xFFFFFFFF), (3, 3)] (.iaddc .n32 (.v 4) (.v 1) (.v 2) (.v 3) vt) = ([0xFFFFFFFF, 1], 0) ∧
    gave [(1, 0x80000000)] (.iabs .i32 (.v 3) (.v 1) vt) = ([0x80000000], 0) ∧
    gave [(1, 0xFFFFFFFF), (2, 1)] (.imin .i32 (.v 3) (.v 1) (.v 2) vt) = ([0xFFFFFFFF], 0) ∧
    gave [(1, 0xFFFFFFFF), (2, 1)] (.imax .n32 (.v 3) (.v 1) (.v 2) vt) = ([0xFFFFFFFF], 0) ∧
    gave [(1, 3), (2, 10), (4, 100)] (.isad .n32 (.v 3) (.v 1) (.v 2) (.v 4) vt) = ([107], 0) := by
  decide +kernel

/-- R146 to R152: shifts by the width and more, a rotate by more than the width, a field that runs past the top of an `i32`, an
insertion at bit 28 that loses its upper bits, the majority of R147, counts of 0, `lea` with a negative index. -/
theorem test_bit_results :
    gave [(1, 0x80000001), (2, 32)] (.shl .n32 (.v 3) (.v 1) (.v 2) vt) = ([0], 0) ∧
    gave [(1, 0x80000001), (2, 40)] (.sar .i32 (.v 3) (.v 1) (.v 2) vt) = ([0xFFFFFFFF], 0) ∧
    gave [(1, 0x80000001), (2, 33)] (.rot .n32 (.v 3) (.v 1) (.v 2) vt) = ([3], 0) ∧
    gave [(1, 0xA0000000), (2, 28), (3, 8)] (.bfx .i32 (.v 4) (.v 1) (.v 2) (.v 3) vt) = ([0xFFFFFFFA], 0) ∧
    gave [(1, 0xA0000000), (2, 28), (3, 8)] (.bfx .n32 (.v 4) (.v 1) (.v 2) (.v 3) vt) = ([0xA], 0) ∧
    gave [(1, 0xFFF), (2, 0x081C), (3, 1)] (.bfi .n32 (.v 4) (.v 1) (.v 2) (.v 3) vt) = ([0xF0000001], 0) ∧
    gave [(1, 0xA), (2, 0xC), (3, 0xF0)] (.lsel 8 14 (.v 4) (.v 1) (.v 2) (.v 3) tl) = ([0x8], 0) ∧
    gave [(1, 0)] (.clz .n32 (.v 4) (.v 1) vt) = ([32], 0) ∧ gave [(2, 0), (3, 8)] (.ctz .n64 (.v 4) (.v 2) vt) = ([35], 0) ∧
    gave [(1, 0x1)] (.brev .n32 (.v 4) (.v 1) vt) = ([0x80000000], 0) ∧
    gave [(2, 16), (4, 0xFFFFFFFF), (5, 3)] (.lea .i32 (.v 6) (.v 2) (.v 4) (.v 5) vt) = ([8, 0], 0) ∧
    gave [(1, 1), (2, 2)] (.sel .n32 (.v 3) (.v 1) (.v 2) 0 true vt) = ([1], 0) ∧
    gave [(1, 7)] (.movhi (.v 2) (.v 1) 9 0) = ([7, 9], 0) := by
  decide +kernel

/-- R117 to R122, R154 to R158: 1 + 2^−24 under `rn` and `ru` (inexact), the largest number doubled (overflow, inexact), half the
smallest subnormal (underflow, inexact), a subnormal input under `.ftz`, 0 × ∞ (invalid, the canonical NaN), 1 ÷ 0 (divide by zero),
√−1 (invalid), √2, −0 from x − x under `rd`, the class of −∞. -/
theorem test_float_results :
    gave [(1, 0x3F800000), (2, 0x33800000)] (.fadd .f32 false .rn (.v 3) (.v 1) (.v 2) vt) = ([0x3F800000], 16) ∧
    gave [(1, 0x3F800000), (2, 0x33800000)] (.fadd .f32 false .ru (.v 3) (.v 1) (.v 2) vt) = ([0x3F800001], 16) ∧
    gave [(1, 0x7F7FFFFF), (2, 0x40000000)] (.fmul .f32 false .rn (.v 3) (.v 1) (.v 2) vt) = ([0x7F800000], 20) ∧
    gave [(1, 1), (2, 0x3F000000)] (.fmul .f32 false .rn (.v 3) (.v 1) (.v 2) vt) = ([0], 24) ∧
    gave [(1, 1), (2, 0x3F800000)] (.fmul .f32 true .rn (.v 3) (.v 1) (.v 2) vt) = ([0], 0) ∧
    gave [(1, 0), (2, 0x7F800000)] (.fmul .f32 false .rn (.v 3) (.v 1) (.v 2) vt) = ([0x7FC00000], 1) ∧
    gave [(1, 0)] (.frcp false .rn (.v 3) (.v 1) vt) = ([0x7F800000], 2) ∧
    gave [(1, 0xBF800000)] (.fsqrt false .rn (.v 3) (.v 1) vt) = ([0x7FC00000], 1) ∧
    gave [(1, 0x40000000)] (.fsqrt false .rn (.v 3) (.v 1) vt) = ([0x3FB504F3], 16) ∧
    gave [(1, 0x3F800000)] (.fsub .f32 false .rd (.v 3) (.v 1) (.v 1) vt) = ([0x80000000], 0) ∧
    gave [(2, 0), (3, 0x40000000)] (.dadd .rn (.v 4) (.v 2) (.v 2) vt) = ([0, 0x40100000], 0) ∧
    gave [(1, 0x40003C00), (2, 0x3C003C00)] (.hadd2 .f16 .rn (.v 3) (.v 1) (.v 2) vt) = ([0x42004000], 0) := by
  decide +kernel

/-- R123, R124, R160, R163: 2.5 and 3.5 to the even integer (inexact), −1 to `n8` and NaN (invalid), 300 clamped to `i8`, the largest
`n64` to F32 (inexact), the byte 200 of R35 both ways, a weight of 2 (invalid). -/
theorem test_conversion_results :
    gave [(1, 0x40200000)] (.cvt .i32 .f32 (.v 3) (.v 1) vt) = ([2], 16) ∧ gave [(1, 0x40600000)] (.cvt .i32 .f32 (.v 3) (.v 1) vt) = ([4], 16) ∧
    gave [(1, 0xBF800000)] (.cvt .n8 .f32 (.v 3) (.v 1) vt) = ([0], 1) ∧ gave [(1, 0x7FC00000)] (.cvt .i32 .f32 (.v 3) (.v 1) vt) = ([0], 1) ∧
    gave [(1, 300)] (.cvt .i8 .i32 (.v 3) (.v 1) vt) = ([127], 0) ∧
    gave [(2, 0xFFFFFFFF), (3, 0xFFFFFFFF)] (.cvt .f32 .n64 (.v 4) (.v 2) vt) = ([0x5F800000], 16) ∧
    gave [(2, 0x0000FF01 + 0x01000000 - 0x01000000), (3, 1)] (.trpack (.v 4) (.v 2) vt) = ([2 + 0 + 9 + 27 + 162], 0) ∧
    gave [(1, 200)] (.trunpack (.v 4) (.v 1) vt) = ([0x0000FF01, 1], 0) ∧
    gave [(2, 2), (3, 0)] (.trpack (.v 4) (.v 2) vt) = ([122], 1) ∧ gave [(1, 250)] (.trunpack (.v 4) (.v 1) vt) = ([0, 0], 1) ∧
    gave [(1, 0x3F800000), (2, 0xC0000000)] (.pack2 .bf16 (.v 3) (.v 1) (.v 2) vt) = ([0xC0003F80], 0) := by
  decide +kernel

/-- R166 to R169: lane 0 of a full warp of 32 takes lane 1's value under `flip 1` and keeps its own under `add −1`; the count, the mask. -/
theorem test_lane_results :
    gave [(1, 10), (513, 20), (2, 1), (3, 0)] (.shfl .flip .n32 (.v 4) (.v 1) (.v 2) (.v 3) vt) = ([20], 0) ∧
    gave [(1, 10), (513, 20), (2, 0xFFFFFFFF), (3, 0)] (.shfl .add .n32 (.v 4) (.v 1) (.v 2) (.v 3) vt) = ([10], 0) ∧
    gave [] (.lanes .count .n32 (.v 4) vt) = ([32], 0) ∧ gave [] (.lanes .mask .n64 (.v 4) vt) = ([0xFFFFFFFF, 0], 0) ∧
    gave [(1, 10), (513, 20)] (.redux .add .i32 (.v 4) (.v 1) vt) = ([30], 0) := by
  decide +kernel

/-- Some lane of the state a step gives. -/
def laneAfter (i : Instr) (s : State) (l : Nat) (p : Lane → Bool) : Bool :=
  match exec i s with
  | .next t => (laneOf t 0 l).any p
  | _ => false

/-- R326, R335: `trap #5` takes code 5 of group 0 in each lane, with the value of `v3` as its detail, and goes to the handler. -/
theorem test_trap_entry :
    laneAfter (.trap 5 (.v 3) tl) (vregs [(3, 77)] (put (.trap 5 (.v 3) tl))) 0
      (fun y => y.handler && y.pc == 0x20000 && y.tpc == 0x10008 && y.tcause == 32 * 2 ^ 16 + 5 * 2 ^ 5 && y.td0 == 77) = true := by
  decide +kernel

/-- R262: a taken branch lands at the word's address plus the offset; R264: `exit` ends the lane. -/
theorem test_transfers :
    laneAfter (.brc .lt (.v 1) 64 tl) (vregs [(1, 0x80000000)] (put (.brc .lt (.v 1) 64 tl))) 0 (fun y => y.pc == 0x10048) = true ∧
    laneAfter (.brc .lt (.v 1) 64 tl) (vregs [(1, 0x80000000)] (put (.brc .lt (.v 1) 64 tl))) 1 (fun y => y.pc == 0x10010) = true ∧
    laneAfter (.exit tl) (put (.exit tl)) 0 (fun y => y.st == .exited) = true := by
  decide +kernel

/-- The worked line of spec/01_package.md: with four dies it is homed at die 0, slice 7; with the list 0, 1, 3 at die 3, slice 6. -/
theorem test_home_of_line : homeOf [0, 1, 2, 3] 0x1234567890000 none = (0, 7) ∧ homeOf [0, 1, 3] 0x1234567890000 none = (3, 6) := by
  decide +kernel

/-- R374: the mean of 1.0, 2.0 and 4.0 in F32. -/
theorem test_mean_of_three : collReduce 3 0 1 [[0, 0, 0x80, 0x3F], [0, 0, 0, 0x40], [0, 0, 0x80, 0x40]] = [0x55, 0x55, 0x15, 0x40] := by
  decide +kernel

/-! ### The hypotheses of the statements about numbers, decoding and steps -/

/-- R120: four binary digits below the rounded place; a tie, a remainder and an exact multiple of either sign. -/
theorem witness_RoundingModes :
    0 < 4 ∧ roundTo .rn false 24 0 4 = (2, true) ∧ roundTo .rd true 17 0 4 = (2, true) ∧ roundTo .ru true 17 0 4 = (1, true) ∧
      roundTo .rz false 32 0 4 = (2, false) := by
  decide +kernel

/-- R154: 3, −1/2 and 0 are values of the float operations. -/
theorem witness_ExactFloatOperations : value (.fin false 3 0) = some 3 ∧ value (.fin true 1 (-1)) = some (-1 / 2) ∧ value (.fin true 0 0) = some 0 := by
  refine ⟨?_, ?_, ?_⟩ <;> norm_num [value]

/-- R116: the smallest subnormal, −∞, −0 and the largest number, in each format. -/
theorem witness_DecodeEncodeFloat :
    ([(.f16, 1), (.bf16, 0xFF80), (.f32, 0x80000000), (.f64, 0x7FEFFFFFFFFFFFFF)] : List (FTy × Nat)).all (fun e =>
      decide (e.2 < 2 * (fmtOf e.1).signBit) && !((fmtOf e.1).decode e.2).isNan) = true := by
  decide +kernel

/-- R160: −1 as `i32` lies below every `n` type, 300 above `i8`, 5 inside it. -/
theorem witness_IntegerConversionsClamp :
    intTys.contains .i8 = true ∧ intTys.contains .i32 = true ∧ intOf .i32 0xFFFFFFFF = -1 ∧ intOf .i32 300 = 300 ∧ intOf .n64 0xFFFFFFFFFFFFFFFF = 2 ^ 64 - 1 := by
  decide +kernel

/-- R35, R163: the weights of byte 200. -/
theorem witness_TernaryRoundTrip : ∀ k, k < 5 → weightOf 0x10000FF01 k ∈ [(-1 : Int), 0, 1] := by decide +kernel

/-- R166: lane 31 of a full warp of 32 and lane 0 of a warp of 64, each taking part. -/
theorem witness_ShuffleStaysInGroup : (31 < 32 ∧ (0xFFFFFFFF : Mask).getLsbD 31 = true) ∧ (0 < 64 ∧ (1 : Mask).getLsbD 0 = true) := by decide

/-- R47, R64: canonical well-formed words of each format, and one reserved opcode beside a header. -/
theorem witness_EncodeDecode :
    ([.iadd .i32 (.v 511) (.s 511) (.v 0) ⟨⟨true, 7⟩, 3, 15⟩, .movhi (.v 510) (.v 511) 0xFFFFFFFF 15, .bra (BitVec.ofInt 32 (-8)) tl,
      .ld .f64 (.v 510) (.s 510) 0x800 .rmt .acqrel .nc ⟨q7, some 7, 15⟩] : List Instr).all (fun i => i.canonical) = true ∧
    ([.iadd .i32 (.v 511) (.s 511) (.v 0) ⟨⟨true, 7⟩, 3, 15⟩, .movhi (.v 510) (.v 511) 0xFFFFFFFF 15, .bra (BitVec.ofInt 32 (-8)) tl,
      .ld .f64 (.v 510) (.s 510) 0x800 .rmt .acq .nc ⟨q7, some 7, 15⟩] : List Instr).all Instr.wellFormed = true := by
  decide

/-- R63: an unassigned opcode and a header's. -/
theorem witness_DecodeRefusals : (0x6E00000000000000 : DWord).toNat / 2 ^ 56 = 0x6E ∧ 0xC0 ≤ (0xF010100000000000 : DWord).toNat / 2 ^ 56 := by decide

/-- R64, R65: the state after reset with a word at issue keeps the forms, and its step goes on. -/
theorem witness_StepKeepsForms :
    (match step (put (.nop tl)) with | .next _ => true | _ => false) = true ∧ Memory.wf (put (.nop tl)).mem = true ∧
      ((put (.nop tl)).reqs.isEmpty && (put (.nop tl)).images.isEmpty && (put (.nop tl)).preempts.isEmpty) = true := by
  refine ⟨?_, ?_, ?_⟩ <;> decide +kernel


/-- R303: SHAKE256 of the empty message, from FIPS 202's published example: its digest begins 46 B9 DD 2B 0B A8 8D 13. -/
theorem test_shake256_empty : (shakeBytes []).take 8 = [0x46, 0xB9, 0xDD, 0x2B, 0x0B, 0xA8, 0x8D, 0x13] := by
  decide +kernel

/-! ### States that meet the hypotheses -/

/-- Lane 0 holds −5 and 7, 3 and 9, lane 1 numbers whose sum carries; s4 and s6 hold pairs. -/
def data : State → State := fun s => sregs [(4, 3), (5, 1), (6, 0xFFFFFFFF), (7, 0x7FFFFFFF)] (vregs [(1, 0xFFFFFFFB), (2, 7), (3, 3), (4, 9),
  (513, 0x80000001), (514, 0xFFFFFFFF), (515, 33), (516, 1)] s)

/-- R145: each form issues. -/
theorem witness_IntegerArithmetic :
    (([.iadd .i32 (.v 20) (.v 1) (.v 2) vt,
      .isub .i32 (.v 20) (.v 1) (.v 2) vt,
      .imul .i32 (.v 20) (.v 1) (.v 2) vt,
      .imin .i32 (.v 20) (.v 1) (.v 2) vt,
      .imax .i32 (.v 20) (.v 1) (.v 2) vt,
      .imad .i32 (.v 20) (.v 1) (.v 2) (.v 3) vt,
      .iadd .n64 (.v 20) (.v 1) (.v 2) vt,
      .isub .n64 (.v 20) (.v 1) (.v 2) vt,
      .imul .n64 (.v 20) (.v 1) (.v 2) vt,
      .imin .n64 (.v 20) (.v 1) (.v 2) vt,
      .imax .n64 (.v 20) (.v 1) (.v 2) vt,
      .imad .n64 (.v 20) (.v 1) (.v 2) (.v 3) vt,
      .iadd .i8 (.v 20) (.v 1) (.v 2) vt,
      .isub .i8 (.v 20) (.v 1) (.v 2) vt,
      .imul .i8 (.v 20) (.v 1) (.v 2) vt,
      .imin .i8 (.v 20) (.v 1) (.v 2) vt,
      .imax .i8 (.v 20) (.v 1) (.v 2) vt,
      .imad .i8 (.v 20) (.v 1) (.v 2) (.v 3) vt,
      .imulh .i32 (.v 20) (.v 1) (.v 2) vt,
      .imulh .n64 (.v 20) (.v 1) (.v 2) vt,
      .imulh .i64 (.v 20) (.v 1) (.v 2) vt,
      .iabs .i32 (.v 20) (.v 1) vt,
      .ineg .i32 (.v 20) (.v 1) vt,
      .iabs .i64 (.v 20) (.v 1) vt,
      .ineg .i64 (.v 20) (.v 1) vt,
      .iabs .i16 (.v 20) (.v 1) vt,
      .ineg .i16 (.v 20) (.v 1) vt,
      .imadw .i32 (.v 20) (.v 1) (.v 2) (.v 3) vt,
      .isad .i32 (.v 20) (.v 1) (.v 2) (.v 3) vt,
      .imadw .n32 (.v 20) (.v 1) (.v 2) (.v 3) vt,
      .isad .n32 (.v 20) (.v 1) (.v 2) (.v 3) vt,
      .iaddc .n32 (.v 20) (.v 1) (.v 2) (.v 3) vt,
      .iadd .i32 (.s 20) (.s 4) (.s 6) vt,
      .iadd .i32 (.s 0) (.v 1) (.s 6) vt] : List Instr).all fun i =>
    holds (data (put i)) i fun _ _ => true) = true := by
  decide

/-- R146 to R152: each form issues. -/
theorem witness_BitWords :
    (([.land false (.v 20) (.v 1) (.v 2) vt,
      .lor false (.v 20) (.v 1) (.v 2) vt,
      .lxor false (.v 20) (.v 1) (.v 2) vt,
      .landn false (.v 20) (.v 1) (.v 2) vt,
      .lnot false (.v 20) (.v 1) vt,
      .land true (.v 20) (.v 1) (.v 2) vt,
      .lor true (.v 20) (.v 1) (.v 2) vt,
      .lxor true (.v 20) (.v 1) (.v 2) vt,
      .landn true (.v 20) (.v 1) (.v 2) vt,
      .lnot true (.v 20) (.v 1) vt,
      .lsel 9 6 (.v 20) (.v 1) (.v 2) (.v 3) tl,
      .shl .n32 (.v 20) (.v 1) (.v 3) vt,
      .shl .i64 (.v 20) (.v 1) (.v 3) vt,
      .shr .n32 (.v 20) (.v 1) (.v 3) vt,
      .rot .n32 (.v 20) (.v 1) (.v 3) vt,
      .popc .n32 (.v 20) (.v 1) vt,
      .clz .n32 (.v 20) (.v 3) vt,
      .ctz .n32 (.v 20) (.v 3) vt,
      .brev .n32 (.v 20) (.v 3) vt,
      .bfi .n32 (.v 20) (.v 1) (.s 9) (.v 2) vt,
      .shr .n64 (.v 20) (.v 1) (.v 3) vt,
      .rot .n64 (.v 20) (.v 1) (.v 3) vt,
      .popc .n64 (.v 20) (.v 1) vt,
      .clz .n64 (.v 20) (.v 3) vt,
      .ctz .n64 (.v 20) (.v 3) vt,
      .brev .n64 (.v 20) (.v 3) vt,
      .bfi .n64 (.v 20) (.v 1) (.s 9) (.v 2) vt,
      .sar .i32 (.v 20) (.v 1) (.v 3) vt,
      .sar .i64 (.v 20) (.v 1) (.v 3) vt,
      .bfx .n32 (.v 20) (.v 1) (.v 3) (.v 4) vt,
      .bfx .i64 (.v 20) (.v 1) (.v 3) (.v 4) vt,
      .bfx .n64 (.v 20) (.v 1) (.v 3) (.v 4) vt,
      .bfx .i32 (.v 20) (.v 1) (.v 3) (.v 4) vt,
      .mov .i32 (.v 20) (.v 1) vt,
      .sel .i32 (.v 20) (.v 1) (.v 2) 1 true vt,
      .mov .f64 (.v 20) (.v 1) vt,
      .sel .f64 (.v 20) (.v 1) (.v 2) 1 true vt,
      .movi (.v 20) 0xDEADBEEF 0,
      .movhi (.v 20) (.v 1) 0xDEADBEEF 0,
      .lea .i32 (.v 20) (.v 2) (.v 1) (.v 3) vt,
      .lea .n32 (.v 20) (.v 2) (.v 1) (.v 3) vt] : List Instr).all fun i =>
    holds (data (put i)) i fun _ _ => true) = true := by
  decide

/-- R153: each comparison issues. -/
theorem witness_IntegerComparison :
    (([.icmp .eq .i32 2 (.v 1) (.v 2) vt,
      .icmp .eq .n64 2 (.v 1) (.v 2) vt,
      .icmp .ne .i32 2 (.v 1) (.v 2) vt,
      .icmp .ne .n64 2 (.v 1) (.v 2) vt,
      .icmp .lt .i32 2 (.v 1) (.v 2) vt,
      .icmp .lt .n64 2 (.v 1) (.v 2) vt,
      .icmp .le .i32 2 (.v 1) (.v 2) vt,
      .icmp .le .n64 2 (.v 1) (.v 2) vt,
      .icmp .gt .i32 2 (.v 1) (.v 2) vt,
      .icmp .gt .n64 2 (.v 1) (.v 2) vt,
      .icmp .ge .i32 2 (.v 1) (.v 2) vt,
      .icmp .ge .n64 2 (.v 1) (.v 2) vt] : List Instr).all fun i =>
    holds (data (put i)) i fun _ _ => true) = true := by
  decide

/-- Registers that hold 1.5, −2.25, a denormal and NaNs in their formats. -/
def floats : State → State := vregs [(1, 0x3FC00000), (2, 0xC0100000), (3, 0x00000003), (4, 0x3FF80000), (513, 0x7F800001), (514, 0x3F800000),
  (516, 0x7FF80000), (1025, 0xFF800000), (1026, 0x7F800000)]

/-- R154, R157 to R159: each form issues. -/
theorem witness_FloatWordsPart :
    (([.fadd .f32 true .rz (.v 20) (.v 1) (.v 2) vt,
      .fsub .f32 true .rz (.v 20) (.v 1) (.v 2) vt,
      .fmul .f32 true .rz (.v 20) (.v 1) (.v 2) vt,
      .ffma .f32 true .rd (.v 20) (.v 1) (.v 2) (.v 3) vt,
      .fmin .f32 true (.v 20) (.v 1) (.v 2) vt,
      .fmax .f32 true (.v 20) (.v 1) (.v 2) vt,
      .fadd .f16 true .rz (.v 20) (.v 1) (.v 2) vt,
      .fsub .f16 true .rz (.v 20) (.v 1) (.v 2) vt,
      .fmul .f16 true .rz (.v 20) (.v 1) (.v 2) vt,
      .ffma .f16 true .rd (.v 20) (.v 1) (.v 2) (.v 3) vt,
      .fmin .f16 true (.v 20) (.v 1) (.v 2) vt,
      .fmax .f16 true (.v 20) (.v 1) (.v 2) vt,
      .frcp true .ru (.v 20) (.v 1) vt,
      .frsq true (.v 20) (.v 1) vt,
      .fsqrt true .ru (.v 20) (.v 1) vt,
      .fexp2 true (.v 20) (.v 1) vt,
      .flog2 true (.v 20) (.v 1) vt,
      .fsin true (.v 20) (.v 1) vt,
      .fcos true (.v 20) (.v 1) vt,
      .dadd .ru (.v 20) (.v 1) (.v 3) vt,
      .dmul .ru (.v 20) (.v 1) (.v 3) vt,
      .dfma .ru (.v 20) (.v 1) (.v 3) (.v 1) vt] : List Instr).all fun i =>
    holds (floats (put i)) i fun _ _ => true) = true := by
  decide

/-- R159: each form issues. -/
theorem witness_PackedPairs :
    (([.hadd2 .f16 .rn (.v 20) (.v 1) (.v 2) vt,
      .hmul2 .f16 .rn (.v 20) (.v 1) (.v 2) vt,
      .hfma2 .f16 .rn (.v 20) (.v 1) (.v 2) (.v 3) vt,
      .hadd2 .bf16 .rn (.v 20) (.v 1) (.v 2) vt,
      .hmul2 .bf16 .rn (.v 20) (.v 1) (.v 2) vt,
      .hfma2 .bf16 .rn (.v 20) (.v 1) (.v 2) (.v 3) vt] : List Instr).all fun i =>
    holds (floats (put i)) i fun _ _ => true) = true := by
  decide

/-- R154 to R156: each form issues, with a NaN among its operands in one lane and finite values in another. -/
theorem witness_FloatBitsAndClasses :
    (([.fneg .f32 (.v 20) (.v 1) vt,
      .fabs .f32 (.v 20) (.v 1) vt,
      .fclass .f32 (.v 20) (.v 1) vt,
      .fneg .f16 (.v 20) (.v 1) vt,
      .fabs .f16 (.v 20) (.v 1) vt,
      .fclass .f16 (.v 20) (.v 1) vt] : List Instr).all fun i =>
    holds (floats (put i)) i fun _ _ => true) = true ∧
    (([.fcmp .eq .f32 false 2 (.v 1) (.v 2) vt,
      .fcmp .ne .f32 false 2 (.v 1) (.v 2) vt,
      .fcmp .lt .f32 false 2 (.v 1) (.v 2) vt,
      .fcmp .le .f32 false 2 (.v 1) (.v 2) vt,
      .fcmp .gt .f32 false 2 (.v 1) (.v 2) vt,
      .fcmp .ge .f32 false 2 (.v 1) (.v 2) vt] : List Instr).all fun i =>
    holds (floats (put i)) i fun s x => (x.fl .f32 false 1 (.v 1)).isNan && !(x.fl .f32 false 0 (.v 1)).isNan && !(x.fl .f32 false 0 (.v 2)).isNan) = true ∧
    (let i : Instr := .dcmp .le 2 (.v 3) (.v 3) vt
    holds (floats (put i)) i fun s x => (x.fl .f64 false 1 (.v 3)).isNan) = true := by
  decide

/-- A format slot that its own word and its conversions accept: F8E4 with unit blocks (R128). -/
def slotted (k : Nat) (w : DWord) : State → State := onInfo fun r => { r with slots := r.slots.set k w }

/-- R160 to R164: each form issues, with a format slot that passes its checks. -/
theorem witness_ConversionWords :
    (([.cvt .i32 .f32 (.v 20) (.v 1) vt,
      .cvt .n8 .i32 (.v 20) (.v 1) vt,
      .cvt .f16 .f32 (.v 20) (.v 1) vt,
      .cvt .f64 .i64 (.v 20) (.v 1) vt,
      .cvt .f32 .f64 (.v 20) (.v 1) vt,
      .cvt .i64 .i8 (.v 20) (.v 1) vt] : List Instr).all fun i =>
    holds (floats (slotted 3 0x42000 (put i))) i fun _ _ => true) = true ∧
    (let i : Instr := .cvtq 3 (.v 20) (.v 1) (.v 2) vt
    holds (floats (slotted 3 0x42000 (put i))) i fun s x => slotCheck .cvtq (s.slotOf x.wp 3) = none) = true ∧
    (let i : Instr := .cvtd 3 (.v 20) (.v 1) (.v 2) vt
    holds (floats (slotted 3 0x42000 (put i))) i fun s x => slotCheck .cvtd (s.slotOf x.wp 3) = none) = true ∧
    (([.trpack (.v 20) (.v 1) vt,
      .trunpack (.v 20) (.v 1) vt,
      .pack2 .bf16 (.v 20) (.v 1) (.v 2) vt] : List Instr).all fun i =>
    holds (floats (slotted 3 0x42000 (put i))) i fun _ _ => true) = true := by
  decide

/-- R129: a slot of zeros fails the check of Saturate, in each word that reads one. -/
theorem witness_FormatSlotTraps :
    (let i : Instr := .mload 0 (.s 2) (.s 4) 3 ct
    holds (put i) i fun s x => calm s x && canTrap s x && takesPart x && decide (slotCheck .load (s.slotOf x.wp 3) = some (18, 18))) = true ∧
    (([.mma 0 (.s 2) (.s 6) (.s 4) 3 ct,
      .mmaSet 0 (.s 2) (.s 6) (.s 4) 3 ct] : List Instr).all fun i =>
    holds (put i) i fun s x => calm s x && canTrap s x && takesPart x && decide (slotCheck .mma (s.slotOf x.wp 3) = some (18, 18))) = true ∧
    (([.mdrain 0 (.s 2) (.s 0) (.s 4) 3 ct,
      .mread (.v 9) 0 (.v 2) (.s 0) 3 ct] : List Instr).all fun i =>
    holds (put i) i fun s x => calm s x && canTrap s x && takesPart x && decide (slotCheck .drain (s.slotOf x.wp 3) = some (18, 18))) = true ∧
    (let i : Instr := .cvtq 3 (.v 9) (.v 2) (.v 3) vt
    holds (put i) i fun s x => calm s x && canTrap s x && takesPart x && decide (slotCheck .cvtq (s.slotOf x.wp 3) = some (18, 18))) = true ∧
    (let i : Instr := .cvtd 3 (.v 9) (.v 2) (.v 3) vt
    holds (put i) i fun s x => calm s x && canTrap s x && takesPart x && decide (slotCheck .cvtd (s.slotOf x.wp 3) = some (18, 18))) = true := by
  decide

/-- R165 to R169: each form issues, with a lane whose predicate is set and one whose is not. -/
theorem witness_LaneWords :
    (([.shfl .abs .i32 (.v 20) (.v 1) (.v 2) (.v 3) vt,
      .shfl .add .i32 (.v 20) (.v 1) (.v 2) (.v 3) vt,
      .shfl .wrap .i32 (.v 20) (.v 1) (.v 2) (.v 3) vt,
      .shfl .flip .i32 (.v 20) (.v 1) (.v 2) (.v 3) vt,
      .voteBallot .n32 (.v 20) 1 vt,
      .voteBallot .n32 (.s 20) 1 vt] : List Instr).all fun i =>
    holds (onLanes (fun l y => { y with q := if l < 3 then 2 else 0 }) (data (put i))) i fun _ _ => true) = true ∧
    (([.voteAny 2 1 vt,
      .voteAll 2 1 vt] : List Instr).all fun i =>
    holds (onLanes (fun l y => { y with q := if l < 3 then 2 else 0 }) (data (put i))) i fun s x => x.wp.getQ 0 1 && !x.wp.getQ 31 1) = true ∧
    (([.voteEq .n64 2 (.v 1) vt,
      .lanes .rank .n32 (.v 20) vt,
      .lanes .mask .n32 (.v 20) vt,
      .lanes .count .n32 (.s 20) vt,
      .lanes .first .n32 (.v 20) vt,
      .scan .add .i32 (.v 20) (.v 1) vt,
      .redux .add .i32 (.v 20) (.v 1) vt,
      .scan .min .i32 (.v 20) (.v 1) vt,
      .redux .min .i32 (.v 20) (.v 1) vt,
      .scan .or .i32 (.v 20) (.v 1) vt,
      .redux .or .i32 (.v 20) (.v 1) vt,
      .scan .add .f32 (.v 20) (.v 1) vt] : List Instr).all fun i =>
    holds (onLanes (fun l y => { y with q := if l < 3 then 2 else 0 }) (data (put i))) i fun _ _ => true) = true := by
  decide

/-- R49: words of the vector, uniform and lane units issue. -/
theorem witness_VectorFrame :
    (([.iadd .i32 (.v 20) (.v 1) (.v 2) vt,
      .mov .i64 (.s 20) (.s 4) vt,
      .movi (.s 20) 7 0,
      .fcmp .lt .f16 true 3 (.v 1) (.v 2) vt,
      .scan .or .n32 (.v 20) (.v 1) vt,
      .cvtq 3 (.v 9) (.v 2) (.v 3) vt] : List Instr).all fun i =>
    holds (slotted 3 0x42000 (put i)) i fun s x => isPlain i && decide (slotCheck .cvtq (s.slotOf x.wp 3) = none)) = true := by
  decide

/-- each form of the float, conversion, lane and control words answers a next state, where its slot passes its checks or its block runs. -/
theorem witness_WordsComplete :
    (([.ffma .f32 false .rz (.v 20) (.v 1) (.v 2) (.v 3) vt,
      .fclass .bf16 (.v 20) (.v 1) vt,
      .flog2 true (.v 20) (.v 1) vt,
      .dcmp .lt 3 (.v 2) (.v 4) vt,
      .hfma2 .f16 .rn (.v 20) (.v 1) (.v 2) (.v 3) vt,
      .trunpack (.v 20) (.v 1) vt] : List Instr).all fun i =>
    holds (floats (slotted 3 0x42000 (put i))) i fun _ _ => true) = true ∧
    (let i : Instr := .cvtq 3 (.v 20) (.v 1) (.v 2) vt
    holds (floats (slotted 3 0x42000 (put i))) i fun s x => slotCheck .cvtq (s.slotOf x.wp 3) = none) = true ∧
    (let i : Instr := .cvtd 3 (.v 20) (.v 1) (.v 2) vt
    holds (floats (slotted 3 0x42000 (put i))) i fun s x => slotCheck .cvtd (s.slotOf x.wp 3) = none) = true ∧
    (([.scan .add .i32 (.v 20) (.v 1) vt,
      .voteBallot .n64 (.s 20) 7 vt] : List Instr).all fun i =>
    holds (onLanes (fun l y => { y with q := if l < 3 then 2 else 0 }) (data (put i))) i fun _ _ => true) = true ∧
    (([.nop tl,
      .exit tl,
      .jwrite 11 (.s 4) tl,
      .jread (.v 6) 0 tl] : List Instr).all fun i =>
    holds (put i) i fun s x => calm s x) = true := by
  decide

/-- Target addresses in v1:v2, a number that is no address in v3:v4, and a link in s8:s9. -/
def targets : State → State := fun s => sregs [(8, 0x18000), (10, 0xFFFFFFFF)] (vregs ((List.range 32).flatMap fun l => [(l * 512 + 1, 0x12000), (l * 512 + 3, 4)]) s)

/-- A header for one word stands at 0x4000_0000, in L2. -/
def callable (s : State) : State :=
  { mapped s with lines := [⟨0, 0, 0, 0, true, ((List.replicate 128 (0 : Byte)).set 7 0xF0), 0, false, none, none⟩] }

/-- R44, R262, R263: each transfer issues, with targets below 2^48 that are multiples of 8; a backward one from the entry, and a conditional one that some lanes take. -/
theorem witness_TransferWords :
    (let i : Instr := .bra (BitVec.ofInt 32 (-32)) tl
    holds (targets (put i)) i fun s x => calm s x && (lanesIn x.part).all fun l => !s.badTarget x ((fun (_ : Nat) => offsetTarget x.addr (BitVec.ofInt 32 (-32))) l)) = true ∧
    (([.brc .nz (.v 5) 64 tl,
      .brc .z (.v 5) 64 tl,
      .brc .lt (.v 5) 64 tl,
      .brc .ge (.v 5) 64 tl] : List Instr).all fun i =>
    holds (vregs [(5, 1), (517, 0x80000000)] (put i)) i fun s x => calm s x && (lanesIn x.part).all fun l => !s.badTarget x ((fun (_ : Nat) => offsetTarget x.addr 64) l)) = true ∧
    (let i : Instr := .brx (.v 1) tl
    holds (targets (put i)) i fun s x => calm s x && (lanesIn x.part).all fun l => !s.badTarget x ((fun l => x.rd l (.v 1) 2) l)) = true ∧
    (let i : Instr := .brx (.s 8) tl
    holds (targets (put i)) i fun s x => calm s x && (lanesIn x.part).all fun l => !s.badTarget x ((fun l => x.rd l (.s 8) 2) l)) = true ∧
    (([.call (.v 20) 0x3FFEFFF8 tl,
      .call (.s 20) 0x3FFEFFF8 tl] : List Instr).all fun i =>
    holds (targets (callable (put i))) i fun s x => calm s x && (lanesIn x.part).all fun l => !s.badTarget x ((fun (_ : Nat) => offsetTarget x.addr 0x3FFEFFF8) l) && (lanesIn x.part).all fun l => !s.targetMiss x ((fun (_ : Nat) => offsetTarget x.addr 0x3FFEFFF8) l)) = true ∧
    (let i : Instr := .callx (.v 1) tl
    holds (vregs ((List.range 32).map fun l => (l * 512 + 1, 0x40000000)) (callable (put i))) i fun s x => calm s x && (lanesIn x.part).all fun l => !s.badTarget x ((fun l => x.rd l (.v 1) 2) l) && (lanesIn x.part).all fun l => !s.targetMiss x ((fun l => x.rd l (.v 1) 2) l)) = true ∧
    (let i : Instr := .ret (.s 8) tl
    holds (targets (put i)) i fun s x => calm s x && (lanesIn x.part).all fun l => !s.badTarget x ((fun l => x.rd l (.s 8) 2) l)) = true := by
  decide

/-- R44: a target that is no multiple of 8 in every lane. -/
theorem witness_BadTargetTraps :
    (let i : Instr := .brx (.v 3) tl
    holds (targets (put i)) i fun s x => calm s x && canTrap s x && takesPart x && (lanesIn x.part).all fun l => decide (2 ^ 48 ≤ x.rd l (.v 3) 2 ∨ x.rd l (.v 3) 2 % 8 ≠ 0)) = true := by
  decide

/-- R335: the trap word at both ends of its code. -/
theorem witness_TrapEntry :
    (([.trap 0 (.v 1) tl,
      .trap 2047 (.v 1) tl] : List Instr).all fun i =>
    holds (data (put i)) i fun s x => calm s x && canTrap s x && takesPart x) = true := by
  decide

/-- R327, R328: a launch without a handler, and lanes in handler mode. -/
theorem witness_TrapEndsBlock :
    (let i : Instr := .trap 5 (.v 1) tl
    holds (noHandler (data (put i))) i fun s x => calm s x && takesPart x && (s.ctx? (s.ctxOf x.wp)).isSome && s.handlerOf x.wp == 0) = true ∧
    (let i : Instr := .trap 5 (.v 1) tl
    holds (inHandler (data (put i))) i fun s x => calm s x && takesPart x && (s.ctx? (s.ctxOf x.wp)).isSome && (laneOf s x.w 0).any (·.handler) && x.part.getLsbD 0) = true := by
  decide

/-- R336: lanes in handler mode, and lanes outside it. -/
theorem witness_ReturnFromHandler :
    (let i : Instr := .rte tl
    holds (onLanes (fun _ y => { y with handler := true, tpc := 0x10040 }) (put i)) i fun s x => calm s x && (lanesIn x.part).all fun l => (laneOf s x.w l).any (·.handler)) = true ∧
    (let i : Instr := .rte tl
    holds (put i) i fun s x => calm s x && canTrap s x && takesPart x) = true := by
  decide

/-- R341: each privileged word at level U, selectors at both ends of groups 1 to 4, and `rte` outside handler mode. -/
theorem witness_PrivilegeTraps :
    (([.resumeRetry (.s 12) tl,
      .resumeDeliver (.s 12) tl,
      .resumeEnd (.s 12) tl,
      .preemptSliceEnd (.s 20) tl,
      .preemptAdaptive (.s 20) tl,
      .preemptSave (.s 20) tl,
      .preemptRestore (.s 20) tl,
      .tlbinvPage (.s 12) (.s 20) tl,
      .tlbinvCtx (.s 12) tl,
      .tlbinvAll tl,
      .halt (.s 4) tl,
      .assign (.s 5) (.s 8) ct,
      .kzero (.s 12) tl,
      .lstart (.s 12) tl] : List Instr).all fun i =>
    holds (asUser (put i)) i fun s x => calm s x && canTrap s x && takesPart x && !s.levelS (s.ctxOf x.wp) && needsS i) = true ∧
    (([.sread 0x10000 false (.s 5) tl,
      .swrite 0x10001 true (.s 8) tl,
      .sread 0x63FFF false (.s 5) tl,
      .swrite 0x20006 false (.s 8) tl,
      .lqerrRead 255 (.s 8) tl,
      .ecccntRead 3 (.s 8) tl,
      .lqtailDoorbell 0 (.s 8) tl,
      .sread 0x40000 false (.v 5) tl,
      .sread 0x50000 true (.s 8) tl] : List Instr).all fun i =>
    holds (asUser (put i)) i fun s x => calm s x && canTrap s x && takesPart x && !s.levelS (s.ctxOf x.wp) && (selOf i).any (0x10000 ≤ ·)) = true ∧
    (let i : Instr := .rte tl
    holds (put i) i fun s x => calm s x && canTrap s x && takesPart x) = true := by
  decide

/-- R265 to R269: each word issues, with members in the set j3. -/
theorem witness_ControlWords :
    (let i : Instr := .nop tl
    holds (onWarp (fun w => { w with sets := w.sets.set 3 (0xF0, 0x10) }) (sregs [(4, 0xFF)] (put i))) i fun s x => calm s x) = true ∧
    (([.yield tl,
      .exit tl] : List Instr).all fun i =>
    holds (onWarp (fun w => { w with sets := w.sets.set 3 (0xF0, 0x10) }) (sregs [(4, 0xFF)] (put i))) i fun _ _ => true) = true ∧
    (let i : Instr := .jenter 3 tl
    holds (onWarp (fun w => { w with sets := w.sets.set 3 (0xF0, 0x10) }) (sregs [(4, 0xFF)] (put i))) i fun s x => calm s x && takesPart x && x.wp.sets.length == 12) = true ∧
    (let i : Instr := .jquit 3 tl
    holds (only 0x20 (onWarp (fun w => { w with sets := w.sets.set 3 (0xF0, 0x10) }) (sregs [(4, 0xFF)] (put i)))) i fun s x => calm s x && takesPart x && x.wp.sets.length == 12) = true ∧
    (let i : Instr := .jclear 3 tl
    holds (onWarp (fun w => { w with sets := w.sets.set 3 (0xF0, 0x10) }) (sregs [(4, 0xFF)] (put i))) i fun s x => calm s x && takesPart x && x.wp.sets.length == 12) = true ∧
    (let i : Instr := .jwrite 3 (.s 4) tl
    holds (onWarp (fun w => { w with sets := w.sets.set 3 (0xF0, 0x10) }) (sregs [(4, 0xFF)] (put i))) i fun s x => calm s x && takesPart x && x.wp.sets.length == 12 && (lanesIn (allLanes 32)).all fun l => (laneOf s x.w l).any (·.st != .exited)) = true ∧
    (([.jread (.s 6) 3 tl,
      .jread (.v 6) 3 tl] : List Instr).all fun i =>
    holds (onWarp (fun w => { w with sets := w.sets.set 3 (0xF0, 0x10) }) (sregs [(4, 0xFF)] (put i))) i fun s x => calm s x) = true := by
  decide

/-- R268, R270: a member that is not the last to arrive, and lanes that are no members. -/
theorem witness_RejoinWait :
    (let i : Instr := .jwait 3 tl
    holds (only 0x20 (onWarp (fun w => { w with sets := w.sets.set 3 (0xF0, 0x10) }) (sregs [(4, 0xFF)] (put i)))) i fun s x => calm s x && takesPart x && x.wp.sets.length == 12 && x.part &&& (x.wp.setOf 3).1 == x.part && (x.wp.setOf 3).2 ||| x.part != (x.wp.setOf 3).1) = true ∧
    (let i : Instr := .jwait 3 tl
    holds (only 0xE0 (onWarp (fun w => { w with sets := w.sets.set 3 (0xF0, 0x10) }) (sregs [(4, 0xFF)] (put i)))) i fun s x => calm s x && takesPart x && x.wp.sets.length == 12 && x.part &&& (x.wp.setOf 3).1 == x.part && (x.wp.setOf 3).2 ||| x.part == (x.wp.setOf 3).1) = true ∧
    (let i : Instr := .jwait 3 tl
    holds (only 0xF (onWarp (fun w => { w with sets := w.sets.set 3 (0xF0, 0x10) }) (sregs [(4, 0xFF)] (put i)))) i fun s x => calm s x && takesPart x && x.wp.sets.length == 12 && canTrap s x && x.part &&& (x.wp.setOf 3).1 == 0) = true := by
  decide

/-- Registers of every group at values of their own. -/
def rich (s : State) : State :=
  { s with
    ctxs := s.ctxs.map fun c => { c with ptbase := 0x1000, fqbase := 0x2004, fqhead := 3, taskring := 0x4005, sharedom := 5, keepallot := 6, slicelen := 7, slicedesc := 8, rollbase := 0x9000, rollsize := 10, throttled := 11 }
    drainbud := 12, queues := s.queues.modify 255 (fun q => { q with ctl := 13, base := 0xE000, tail := 15, head := 16 })
    dies := s.dies.modify 0 (fun d => { d with hier := some 5, hbm := 0xABC, lp := 0x123, lpBlocks := 0x45, window := 17, movectl := 18, fabric := [(0x3FF, 19)], keeps := d.keeps.modify 15 fun k => { k with valid := true, base := 20, limit := 21, overflow := 22, owner := 23, ways := 4 } })
    tenparts := s.tenparts.set 31 24, lanemap := [(4095, 25)], keys := s.keys.set 255 ⟨.void, 26, 0⟩, log := List.replicate 3 1, alarm := 2, jobs := [⟨0, true, true⟩]
    journal := [⟨0, .core 3, [5, 6, 7]⟩] }
    |> onLanes (fun l y => { y with td0 := BitVec.ofNat 32 (l + 1), td1 := BitVec.ofNat 32 (l + 2), td2 := BitVec.ofNat 32 (l + 3) })
    |> onInfo (fun r => { r with gx := 3, gy := 5, gz := 7, stage := 0x39 })
    |> onBlock fun b => { b with lin := 100, mx := ⟨31, 32, 33, 34⟩ }

/-- R332, R334: the selectors at both ends of their groups, wide and narrow, at level S and at level U. -/
theorem witness_SpecialReadsPart :
    (let i : Instr := .sread 0x0 false (.v 20) tl
    holds (asUser (onLanes (fun l y => { y with tcause := BitVec.ofNat 32 l, tpc := 0x10000 + 8 * l }) (onWarp (fun w => { w with flags := 5 }) (put i)))) i fun s x => decide (0x10000 ≤ (0x0 : BitVec 20).toNat → s.levelS (s.ctxOf x.wp) = true)) = true ∧
    (let i : Instr := .sread 0x1 false (.v 20) tl
    holds (asUser (onLanes (fun l y => { y with tcause := BitVec.ofNat 32 l, tpc := 0x10000 + 8 * l }) (onWarp (fun w => { w with flags := 5 }) (put i)))) i fun s x => decide (0x10000 ≤ (0x1 : BitVec 20).toNat → s.levelS (s.ctxOf x.wp) = true)) = true ∧
    (let i : Instr := .sread 0x2 false (.v 20) tl
    holds (asUser (onLanes (fun l y => { y with tcause := BitVec.ofNat 32 l, tpc := 0x10000 + 8 * l }) (onWarp (fun w => { w with flags := 5 }) (put i)))) i fun s x => decide (0x10000 ≤ (0x2 : BitVec 20).toNat → s.levelS (s.ctxOf x.wp) = true)) = true ∧
    (let i : Instr := .sread 0xB false (.v 20) tl
    holds (asUser (onLanes (fun l y => { y with tcause := BitVec.ofNat 32 l, tpc := 0x10000 + 8 * l }) (onWarp (fun w => { w with flags := 5 }) (put i)))) i fun s x => decide (0x10000 ≤ (0xB : BitVec 20).toNat → s.levelS (s.ctxOf x.wp) = true)) = true ∧
    (let i : Instr := .sread 0xD false (.v 20) tl
    holds (asUser (onLanes (fun l y => { y with tcause := BitVec.ofNat 32 l, tpc := 0x10000 + 8 * l }) (onWarp (fun w => { w with flags := 5 }) (put i)))) i fun s x => decide (0x10000 ≤ (0xD : BitVec 20).toNat → s.levelS (s.ctxOf x.wp) = true)) = true ∧
    (let i : Instr := .sread 0xE false (.v 20) tl
    holds (asUser (onLanes (fun l y => { y with tcause := BitVec.ofNat 32 l, tpc := 0x10000 + 8 * l }) (onWarp (fun w => { w with flags := 5 }) (put i)))) i fun s x => decide (0x10000 ≤ (0xE : BitVec 20).toNat → s.levelS (s.ctxOf x.wp) = true)) = true ∧
    (let i : Instr := .sread 0x18 false (.v 20) tl
    holds (asUser (onLanes (fun l y => { y with tcause := BitVec.ofNat 32 l, tpc := 0x10000 + 8 * l }) (onWarp (fun w => { w with flags := 5 }) (put i)))) i fun s x => decide (0x10000 ≤ (0x18 : BitVec 20).toNat → s.levelS (s.ctxOf x.wp) = true)) = true ∧
    (let i : Instr := .sread 0x20 false (.v 20) tl
    holds (asUser (onLanes (fun l y => { y with tcause := BitVec.ofNat 32 l, tpc := 0x10000 + 8 * l }) (onWarp (fun w => { w with flags := 5 }) (put i)))) i fun s x => decide (0x10000 ≤ (0x20 : BitVec 20).toNat → s.levelS (s.ctxOf x.wp) = true)) = true ∧
    (let i : Instr := .sread 0x21 false (.v 20) tl
    holds (asUser (onLanes (fun l y => { y with tcause := BitVec.ofNat 32 l, tpc := 0x10000 + 8 * l }) (onWarp (fun w => { w with flags := 5 }) (put i)))) i fun s x => decide (0x10000 ≤ (0x21 : BitVec 20).toNat → s.levelS (s.ctxOf x.wp) = true)) = true ∧
    (let i : Instr := .sread 0x11 true (.s 20) tl
    holds (put i) i fun s x => decide (0x10000 ≤ (0x11 : BitVec 20).toNat → s.levelS (s.ctxOf x.wp) = true)) = true ∧
    (let i : Instr := .sread 0x1C true (.v 20) tl
    holds (onLanes (fun l y => { y with tpc := 0x10000 + 8 * l }) (put i)) i fun s x => decide (0x10000 ≤ (0x1C : BitVec 20).toNat → s.levelS (s.ctxOf x.wp) = true)) = true ∧
    (let i : Instr := .sread 0x10000 false (.v 20) tl
    holds (put i) i fun s x => decide (0x10000 ≤ (0x10000 : BitVec 20).toNat → s.levelS (s.ctxOf x.wp) = true)) = true ∧
    (let i : Instr := .sread 0x10001 true (.v 20) tl
    holds (put i) i fun s x => decide (0x10000 ≤ (0x10001 : BitVec 20).toNat → s.levelS (s.ctxOf x.wp) = true)) = true ∧
    (let i : Instr := .sread 0x10002 true (.v 20) tl
    holds (put i) i fun s x => decide (0x10000 ≤ (0x10002 : BitVec 20).toNat → s.levelS (s.ctxOf x.wp) = true)) = true ∧
    (let i : Instr := .sread 0x10004 true (.v 20) tl
    holds (put i) i fun s x => decide (0x10000 ≤ (0x10004 : BitVec 20).toNat → s.levelS (s.ctxOf x.wp) = true)) = true ∧
    (let i : Instr := .sread 0x10008 false (.v 20) tl
    holds (put i) i fun s x => decide (0x10000 ≤ (0x10008 : BitVec 20).toNat → s.levelS (s.ctxOf x.wp) = true)) = true ∧
    (let i : Instr := .sread 0x20000 false (.v 20) tl
    holds (put i) i fun s x => decide (0x10000 ≤ (0x20000 : BitVec 20).toNat → s.levelS (s.ctxOf x.wp) = true)) = true ∧
    (let i : Instr := .sread 0x20006 false (.v 20) tl
    holds (put i) i fun s x => decide (0x10000 ≤ (0x20006 : BitVec 20).toNat → s.levelS (s.ctxOf x.wp) = true)) = true ∧
    (let i : Instr := .sread 0x10 true (.v 20) tl
    holds (put i) i fun s x => decide (0x10000 ≤ (0x10 : BitVec 20).toNat → s.levelS (s.ctxOf x.wp) = true)) = true ∧
    (let i : Instr := .sread 0x4 true (.v 20) tl
    holds (rich (put i)) i fun s x => decide (0x10000 ≤ (0x4 : BitVec 20).toNat → s.levelS (s.ctxOf x.wp) = true)) = true ∧
    (let i : Instr := .sread 0x701FF true (.v 20) tl
    holds (rich (put i)) i fun s x => decide (0x10000 ≤ (0x701FF : BitVec 20).toNat → s.levelS (s.ctxOf x.wp) = true)) = true := by
  decide

/-- Queue 255 holds an error, die 3 counted errors. -/
def counted (s : State) : State := { s with queues := s.queues.modify 255 (fun q => { q with err := 0x5000000000007 }), dies := s.dies.modify 3 fun d => { d with corrected := 9, uncorr := 2 } }

/-- R284, R382: the last queue and the last die. -/
theorem witness_ReadsThatClear :
    (let i : Instr := .lqerrRead 255 (.s 8) tl
    holds (counted (put i)) i fun s x => takesPart x && s.levelS (s.ctxOf x.wp) && (s.queues[(255 : Nat)]?).isSome) = true ∧
    (let i : Instr := .ecccntRead 3 (.v 8) tl
    holds (counted (put i)) i fun s x => takesPart x && s.levelS (s.ctxOf x.wp) && (s.dies[(3 : Nat)]?).isSome) = true := by
  decide

/-- R6, R206, R276 to R405: registers of each group, at both ends of its range: from s registers, and from the v registers of two lanes. -/
theorem witness_SpecialWrites :
    (([.swrite 0xB true (.s 8) tl,
      .swrite 0x20 true (.s 8) tl,
      .swrite 0x21 true (.s 8) tl] : List Instr).all fun i =>
    holds (sregs [(8, 0xFFFF1234), (9, 0x89ABCDEF)] (put i)) i fun s x => ((x.acts i).getLast?).isSome && x.rd (((x.acts i).getLast?).getD 0) (.s 8) 2 == 0x89ABCDEFFFFF1234) = true ∧
    (([.swrite 0x10000 false (.s 8) tl,
      .swrite 0x10001 true (.s 8) tl,
      .swrite 0x10002 true (.s 8) tl,
      .swrite 0x10003 false (.s 8) tl,
      .swrite 0x10004 true (.s 8) tl,
      .swrite 0x10005 true (.s 8) tl,
      .swrite 0x10006 true (.s 8) tl,
      .swrite 0x10007 true (.s 8) tl,
      .swrite 0x10008 true (.s 8) tl,
      .swrite 0x10009 true (.s 8) tl,
      .swrite 0x60300 true (.s 8) tl,
      .swrite 0x60301 true (.s 8) tl,
      .swrite 0x60302 true (.s 8) tl,
      .swrite 0x60303 true (.s 8) tl] : List Instr).all fun i =>
    holds (sregs [(8, 0xFFFF1234), (9, 0x89ABCDEF)] (put i)) i fun s x => takesPart x && s.levelS (s.ctxOf x.wp) && s.devClear x && ((x.acts i).getLast?).isSome && x.rd (((x.acts i).getLast?).getD 0) (.s 8) 2 == 0x89ABCDEFFFFF1234) = true ∧
    (let i : Instr := .swrite 0x20000 false (.s 8) tl
    holds (sregs [(8, 0xFFFF1234), (9, 0x89ABCDEF)] (put i)) i fun s x => takesPart x && s.levelS (s.ctxOf x.wp) && s.devClear x && ((x.acts i).getLast?).isSome && x.rd (((x.acts i).getLast?).getD 0) (.s 8) 2 == 0x89ABCDEFFFFF1234 && (s.holds[(0 : Nat)]?).isSome) = true ∧
    (let i : Instr := .swrite 0x20006 false (.s 8) tl
    holds (sregs [(8, 0xFFFF1234), (9, 0x89ABCDEF)] (put i)) i fun s x => takesPart x && s.levelS (s.ctxOf x.wp) && s.devClear x && ((x.acts i).getLast?).isSome && x.rd (((x.acts i).getLast?).getD 0) (.s 8) 2 == 0x89ABCDEFFFFF1234 && (s.holds[(6 : Nat)]?).isSome) = true ∧
    (([.swrite 0x30001 true (.s 8) tl,
      .swrite 0x30003 true (.s 8) tl,
      .swrite 0x307F9 true (.s 8) tl,
      .swrite 0x307FB true (.s 8) tl,
      .swrite 0x403FE true (.s 8) tl] : List Instr).all fun i =>
    holds (sregs [(8, 0xFFFF1234), (9, 0x89ABCDEF)] (put i)) i fun s x => takesPart x && s.levelS (s.ctxOf x.wp) && s.devClear x && ((x.acts i).getLast?).isSome && x.rd (((x.acts i).getLast?).getD 0) (.s 8) 2 == 0x89ABCDEFFFFF1234) = true ∧
    (([.swrite 0x50100 true (.s 8) tl,
      .swrite 0x513FF true (.s 8) tl] : List Instr).all fun i =>
    holds (sregs [(8, 0xFFFF1234), (9, 0x89ABCDEF)] (put i)) i fun s x => takesPart x && s.levelS (s.ctxOf x.wp) && s.devClear x && ((x.acts i).getLast?).isSome && x.rd (((x.acts i).getLast?).getD 0) (.s 8) 2 == 0x89ABCDEFFFFF1234 && s.diesWith 0 == [0]) = true ∧
    (let i : Instr := .swrite 0x61FFF false (.s 8) tl
    holds (sregs [(8, 0xFFFF1234), (9, 0x89ABCDEF)] (put i)) i fun s x => takesPart x && s.levelS (s.ctxOf x.wp) && s.devClear x && ((x.acts i).getLast?).isSome && x.rd (((x.acts i).getLast?).getD 0) (.s 8) 2 == 0x89ABCDEFFFFF1234 && s.warps.all fun z => z.core != 255) = true ∧
    (let i : Instr := .swrite 0x20 true (.v 8) tl
    holds (only 0x12 (vregs [(1 * 512 + 8, 7), (1 * 512 + 9, 3), (4 * 512 + 8, 0xFFFF1234), (4 * 512 + 9, 0x89ABCDEF)] (put i))) i fun s x => ((x.acts i).getLast?).isSome && x.rd (((x.acts i).getLast?).getD 0) (.v 8) 2 == 0x89ABCDEFFFFF1234) = true ∧
    (let i : Instr := .swrite 0x1C true (.s 8) tl
    holds (inHandler (sregs [(8, 0xFFFF1234), (9, 0x89ABCDEF)] (put i))) i fun s x => ((x.acts i).getLast?).isSome && x.rd (((x.acts i).getLast?).getD 0) (.s 8) 2 == 0x89ABCDEFFFFF1234 && x.part == allLanes 32) = true ∧
    (let i : Instr := .swrite 0x1C true (.v 8) tl
    holds (onLanes (fun l y => { y with handler := l == 1 }) (only 0x12 (vregs [(1 * 512 + 8, 7), (1 * 512 + 9, 3), (4 * 512 + 8, 0xFFFF1234), (4 * 512 + 9, 0x89ABCDEF)] (put i)))) i fun s x => ((x.acts i).getLast?).isSome && x.rd (((x.acts i).getLast?).getD 0) (.v 8) 2 == 0x89ABCDEFFFFF1234 && x.part == 0x12) = true ∧
    (([.swrite 0x30000 true (.s 8) tl,
      .swrite 0x307F8 true (.s 8) tl] : List Instr).all fun i =>
    holds (sregs [(8, 0xFFFF1234), (9, 0x89ABCDEF)] (put i)) i fun s x => takesPart x && s.levelS (s.ctxOf x.wp) && s.devClear x && ((x.acts i).getLast?).isSome && x.rd (((x.acts i).getLast?).getD 0) (.s 8) 2 == 0x89ABCDEFFFFF1234 && (x.acts i).length == 1 && (s.ctx? 0xCDEF).isNone) = true ∧
    (let i : Instr := .swrite 0x50000 true (.s 8) tl
    holds (sregs [(8, 0xFFFF1234), (9, 0x89ABCDEF)] (put i)) i fun s x => takesPart x && s.levelS (s.ctxOf x.wp) && s.devClear x && ((x.acts i).getLast?).isSome && x.rd (((x.acts i).getLast?).getD 0) (.s 8) 2 == 0x89ABCDEFFFFF1234 && s.diesWith 0 == [0] && s.blocks.any fun b => b.st == .running && b.cores == [0]) = true ∧
    (let i : Instr := .swrite 0x50000 true (.s 8) tl
    holds (onBlock (fun b => { b with cores := [64] }) (sregs [(8, 0xFFFF1234), (9, 0x89ABCDEF)] (put i))) i fun s x => takesPart x && s.levelS (s.ctxOf x.wp) && s.devClear x && ((x.acts i).getLast?).isSome && x.rd (((x.acts i).getLast?).getD 0) (.s 8) 2 == 0x89ABCDEFFFFF1234 && s.diesWith 0 == [0] && s.blocks.all (fun b => b.cores == [64]) && s.dies.all (fun e => e.lpBlocks == 0)) = true ∧
    (let i : Instr := .swrite 0x60400 true (.s 8) tl
    holds (sregs [(8, 0xFFFF1234), (9, 0x89ABCDEF)] (put i)) i fun s x => takesPart x && s.levelS (s.ctxOf x.wp) && s.devClear x && ((x.acts i).getLast?).isSome && x.rd (((x.acts i).getLast?).getD 0) (.s 8) 2 == 0x89ABCDEFFFFF1234 && (x.acts i).length == 1 && s.diesWith 0 == [0]) = true ∧
    (let i : Instr := .swrite 0x60400 true (.s 8) tl
    holds ((fun s => s.modDie 0 fun d => { d with movectl := 0x8005006000001000 }) (sregs [(8, 5), (9, 0x00010030)] (put i))) i fun s x => takesPart x && s.levelS (s.ctxOf x.wp) && s.devClear x && (x.acts i).length == 1 && x.rd 0 (.s 8) 2 == 281681135140869 && s.diesWith 0 == [0] && (s.dies[(0 : Nat)]?).any (fun d => moveDone d.movectl == 4096 && d.movectl.getLsbD 63)) = true ∧
    (let i : Instr := .swrite 0x6001F true (.s 8) tl
    holds ((fun s => { s with blocks := [], launches := s.launches.map (fun l => { l with ctx := 0 }), dies := s.dies.modify 1 fun d => { d with hier := some 1, live := true } }) (sregs [(8, 65280), (9, 4278255624)] (put i))) i fun s x => takesPart x && s.levelS (s.ctxOf x.wp) && s.devClear x && (x.acts i).length == 1 && x.rd 0 (.s 8) 2 == 18374967989008137984 && s.ctxs.all (fun k => !s.placed k.num) && (s.tenantHiers 18374967989008137984).length == 1 && s.tenantHier 18374967989008137984 == some 1 && s.tenparts.all (· == 0)) = true ∧
    (let i : Instr := .swrite 0x6001F true (.s 8) tl
    holds ((fun s => { s with tenparts := s.tenparts.set 3 (BitVec.ofNat 64 (2 ^ 63 + 2 ^ 15)) }) (sregs [(8, 65280), (9, 4278255624)] (put i))) i fun s x => takesPart x && s.levelS (s.ctxOf x.wp) && s.devClear x && (x.acts i).length == 1 && x.rd 0 (.s 8) 2 == 18374967989008137984 && (s.tenparts[(3 : Nat)]?).any fun e => e.getLsbD 63 && e.getLsbD 15) = true ∧
    (let i : Instr := .swrite 0x6013F true (.s 8) tl
    holds (sregs [(8, 589829), (9, 2149576704)] (put i)) i fun s x => takesPart x && s.levelS (s.ctxOf x.wp) && s.devClear x && (x.acts i).length == 1 && x.rd 0 (.s 8) 2 == 9232361643924062213 && (s.ctx? 9).isNone && (s.fns[(63 : Nat)]?).isSome) = true ∧
    (let i : Instr := .swrite 0x60100 true (.s 8) tl
    holds (sregs [(8, 654341), (9, 225280)] (put i)) i fun s x => takesPart x && s.levelS (s.ctxOf x.wp) && s.devClear x && (x.acts i).length == 1 && x.rd 0 (.s 8) 2 == 967570233097221 && (s.ctx? 9).isNone && (s.fns[(0 : Nat)]?).isSome) = true ∧
    (let i : Instr := .swrite 0x70200 true (.s 8) tl
    holds (sregs [(8, 0), (9, 0)] (put i)) i fun s x => takesPart x && s.levelS (s.ctxOf x.wp) && s.devClear x && (x.acts i).length == 1 && x.rd 0 (.s 8) 2 == 0) = true ∧
    (let i : Instr := .swrite 0x70200 true (.s 8) tl
    holds (sregs [(8, 1), (9, 0)] (put i)) i fun s x => takesPart x && s.levelS (s.ctxOf x.wp) && s.devClear x && (x.acts i).length == 1 && x.rd 0 (.s 8) 2 == 1) = true ∧
    (let i : Instr := .swrite 0x70200 true (.s 8) tl
    holds (sregs [(8, 2), (9, 0)] (put i)) i fun s x => takesPart x && s.levelS (s.ctxOf x.wp) && s.devClear x && (x.acts i).length == 1 && x.rd 0 (.s 8) 2 == 2) = true ∧
    (let i : Instr := .swrite 0x70200 true (.s 8) tl
    holds (sregs [(8, 3), (9, 0)] (put i)) i fun s x => takesPart x && s.levelS (s.ctxOf x.wp) && s.devClear x && (x.acts i).length == 1 && x.rd 0 (.s 8) 2 == 3) = true ∧
    (let i : Instr := .lqtailDoorbell 0 (.s 8) tl
    holds (sregs [(8, 0xFFFF1234), (9, 0x89ABCDEF)] (put i)) i fun s x => takesPart x && s.levelS (s.ctxOf x.wp) && s.devClear x && (s.queues[(0 : Nat)]?).isSome) = true ∧
    (let i : Instr := .lqtailDoorbell 0 (.v 8) tl
    holds (only 0x12 (vregs [(1 * 512 + 8, 7), (1 * 512 + 9, 3), (4 * 512 + 8, 0xFFFF1234), (4 * 512 + 9, 0x89ABCDEF)] (put i))) i fun s x => takesPart x && s.levelS (s.ctxOf x.wp) && s.devClear x && (s.queues[(0 : Nat)]?).isSome && (x.acts i).getLast? == some 4) = true ∧
    (let i : Instr := .lqtailDoorbell 255 (.s 8) tl
    holds (sregs [(8, 0xFFFF1234), (9, 0x89ABCDEF)] (put i)) i fun s x => takesPart x && s.levelS (s.ctxOf x.wp) && s.devClear x && (s.queues[(255 : Nat)]?).isSome) = true ∧
    (let i : Instr := .lqtailDoorbell 255 (.v 8) tl
    holds (only 0x12 (vregs [(1 * 512 + 8, 7), (1 * 512 + 9, 3), (4 * 512 + 8, 0xFFFF1234), (4 * 512 + 9, 0x89ABCDEF)] (put i))) i fun s x => takesPart x && s.levelS (s.ctxOf x.wp) && s.devClear x && (s.queues[(255 : Nat)]?).isSome && (x.acts i).getLast? == some 4) = true := by
  decide

/-- R338: an entry of the page, of the context, and of all. -/
theorem witness_TlbInvalidation :
    (([.tlbinvPage (.s 12) (.s 20) tl,
      .tlbinvCtx (.s 0) tl,
      .tlbinvAll tl] : List Instr).all fun i =>
    holds ((fun s => { s with tlb := s.tlb ++ [⟨1, 1, 0, 12, 0x1F, none⟩] }) (sregs [(20, 0x40000008)] (mapped (put i)))) i fun s x => takesPart x && s.levelS (s.ctxOf x.wp) && s.tlb.length == 2) = true := by
  decide

/-- R339: an empty queue, and one with 62 records, at level U; from s registers, and from the v registers of two lanes. -/
theorem witness_DeviceLaunch :
    (let i : Instr := .launch (.s 8) (.s 4) ⟨q7, some 7, 0⟩
    holds ((fun s => s.modCtx 1 fun c => { c with devq := List.replicate 0 ⟨0, 0, 0, 0, 0, none⟩ }) ((sregs [(4, 0x1000), (5, 1)]) (asUser (put i)))) i fun s x => calm s x && (x.acts i).length == 1 && (s.ctx? (s.ctxOf x.wp)).any (fun c => decide (c.devq.length + 1 ≤ 64)) && s.devClear x) = true ∧
    (let i : Instr := .launch (.v 8) (.v 4) ⟨q7, some 7, 0⟩
    holds ((fun s => s.modCtx 1 fun c => { c with devq := List.replicate 62 ⟨0, 0, 0, 0, 0, none⟩ }) ((fun s => only 0x12 (vregs [(1 * 512 + 4, 0x1000), (1 * 512 + 5, 1), (4 * 512 + 4, 0x2000)] s)) (asUser (put i)))) i fun s x => calm s x && (x.acts i).length == 2 && (s.ctx? (s.ctxOf x.wp)).any (fun c => decide (c.devq.length + 2 ≤ 64)) && s.devClear x) = true := by
  decide

/-- R396 to R399: a context with a key slot and no launch, for `assign` and `kzero`, and one whose slot is void, for `lstart`. -/
theorem witness_TrustWords :
    (let i : Instr := .assign (.s 4) (.s 8) ct
    holds ((fun s => { s with keys := s.keys.set 5 ⟨.bound, 9, 2⟩ }) (sregs [(8, 63), (9, 0x90000)] (put i))) i fun s x => takesPart x && s.levelS (s.ctxOf x.wp) && s.devClear x && x.rd 0 (.s 8) 2 / 2 ^ 32 % 2 ^ 16 == 0 && s.liveCore 63 && (s.coreOwn.lookup 63).isNone && (s.boundSlot 9).isSome && s.carves.all fun v => v.core != 63) = true ∧
    (let i : Instr := .kzero (.s 8) tl
    holds ((fun s => { s with keys := s.keys.set 5 ⟨.bound, 9, 2⟩ }) (sregs [(8, 9)] (put i))) i fun s x => takesPart x && s.levelS (s.ctxOf x.wp) && s.devClear x && !s.placed 9 && s.boundSlot 9 == some 5) = true ∧
    (let i : Instr := .lstart (.s 8) tl
    holds ((fun s => { s with coreOwn := [(1, .owned 9), (2, .owned 8)], frameOwn := [(4, .owned 9)], keys := s.keys.set 5 ⟨.void, 9, 0⟩ }) (sregs [(8, 9)] (put i))) i fun s x => takesPart x && s.levelS (s.ctxOf x.wp) && s.devClear x && !s.placed 9 && (s.boundSlot 9).isNone && s.journal.isEmpty && s.coreOwn.any (·.2 == .owned 9)) = true := by
  refine ⟨?_, ?_, ?_⟩ <;> decide +kernel

/-- Lane l holds 0x4000_0000 + 16 l in v2:v3 and in v4:v5, and data in v6:v7; s8:s9 hold 0x4000_0000, s10:s11 the first byte of the local
window and s12:s13 its byte 0x100. -/
def addressed (s : State) : State :=
  sregs [(8, 0x40000000), (10, 0xFF000000), (11, 0x01FFFFFF), (12, 0xFF000100), (13, 0x01FFFFFF), (14, 3), (15, 64)]
    (vregs ((List.range 32).flatMap fun l => [(l * 512 + 2, BitVec.ofNat 32 (0x40000000 + 16 * l)), (l * 512 + 4, BitVec.ofNat 32 (0x40000000 + 16 * l)),
      (l * 512 + 6, BitVec.ofNat 32 (0x1234 + l)), (l * 512 + 7, 0xAABBCCDD)]) (mapped s))

/-- What a memory word needs to enter whole, for lanes whose addresses at is gives. -/
def ready (s : State) (x : Iss) (i : Instr) (w : Want) (align n : Nat) (at_ : Nat → Nat) (q : Place → Bool) : Bool :=
  calm s x && s.reqs.all (fun r => r.id < s.nextId) && x.cl.entered == 0 && !(x.acts i).isEmpty &&
    decide ((x.acts i).length ≤ s.entriesFree (s.ownerOf x.wp)) && (x.acts i).all fun l =>
      match s.xlate x.w x.wp w align n (at_ l) with | .ok p => q p | _ => false

def atOff (x : Iss) (a : Reg) (off : BitVec 12) (n l : Nat) : Nat := ((x.rd l a 2 : Int) + off.toInt * n).toNat

/-- R88, R91, R92, R204: each word with its lanes' addresses in a mapped page, per lane and uniform, at both ends of its offset's sign. -/
theorem witness_MemoryRequests :
    (let i : Instr := .ld .i32 (.v 20) (.v 2) 1 .dev .rlx .normal ⟨q7, some 1, 0⟩
    holds (addressed (put i)) i fun s x => ready s x i wantLoad 4 4 (atOff x (.v 2) 1 4) (fun _ => true)) = true ∧
    (let i : Instr := .ld .n64 (.s 20) (.s 8) 2047 .sys .acq .stream ⟨q7, some 1, 0⟩
    holds (addressed (put i)) i fun s x => ready s x i wantLoad 8 8 (atOff x (.s 8) 2047 8) (fun _ => true)) = true ∧
    (let i : Instr := .ld .i8 (.v 20) (.v 2) 0 .core .rlx .normal ⟨q7, some 1, 0⟩
    holds (addressed (put i)) i fun s x => ready s x i wantLoad 1 1 (atOff x (.v 2) 0 1) (fun _ => true)) = true ∧
    (let i : Instr := .st .n64 (.v 6) (.v 2) 0 .dev .rel .normal ⟨q7, some 1, 0⟩
    holds (addressed (put i)) i fun s x => ready s x i wantStore 8 8 (atOff x (.v 2) 0 8) (fun _ => true)) = true ∧
    (let i : Instr := .ldc .n32 (.v 20) (.v 2) 0 ⟨q7, some 1, 0⟩
    holds (addressed (put i)) i fun s x => ready s x i wantLoad 4 4 (atOff x (.v 2) 0 4) (fun _ => true)) = true ∧
    (let i : Instr := .pf (.v 2) 64 .normal ⟨q7, some 1, 0⟩
    holds (addressed (put i)) i fun s x => ready s x i wantLoad 1 1 (atOff x (.v 2) 64 1) (fun p => p.cached)) = true ∧
    (let i : Instr := .cflush (.v 2) 64 ⟨q7, some 1, 0⟩
    holds (addressed (put i)) i fun s x => ready s x i wantCache 1 1 (atOff x (.v 2) 64 1) (fun p => p.cached)) = true ∧
    (let i : Instr := .cinval (.v 2) 64 ⟨q7, some 1, 0⟩
    holds (addressed (put i)) i fun s x => ready s x i wantInval 1 1 (atOff x (.v 2) 64 1) (fun p => p.cached)) = true := by
  decide

/-- R195 to R199: each word with its lanes' addresses in a mapped page, with and without a return slot's need. -/
theorem witness_AtomicRequests :
    (let i : Instr := .atom .add .w32 (.v 20) (.v 2) (.v 6) .dev .rlx .normal ⟨q7, some 1, 0⟩
    holds (addressed (put i)) i fun s x => ready s x i wantAtomic 4 4 (fun l => x.rd l (.v 2) 2) (fun p => p.tier != 2 || p.cached) && !s.slotsFull x.w (x.acts i)) = true ∧
    (let i : Instr := .atomx .w64 (.v 20) (.v 2) (.v 4) .dev .rlx .normal ⟨q7, some 1, 0⟩
    holds (addressed (put i)) i fun s x => ready s x i wantAtomic 8 8 (fun l => x.rd l (.v 2) 2) (fun p => p.tier != 2 || p.cached) && !s.slotsFull x.w (x.acts i)) = true ∧
    (let i : Instr := .red .maxS .w64 (.v 2) (.v 6) .dev .rlx .normal ⟨q7, some 1, 0⟩
    holds (addressed (put i)) i fun s x => ready s x i wantAtomic 8 8 (fun l => x.rd l (.v 2) 2) (fun p => p.tier != 2 || p.cached)) = true := by
  decide

/-- R78, R79, R88: the last word of the share, for the lane that holds its address. -/
theorem witness_LocalAccesses :
    (let i : Instr := .st .n32 (.s 14) (.s 10) 4 .dev .rlx .normal ct
    holds (addressed (put i)) i fun s x => calm s x && x.cl.entered == 0 && x.acts i == [0] && decide (s.xlate x.w x.wp wantStore 4 4 (x.va 0 (.s 10) 4 4) = .loc 16) && !s.acquiring (s.ownerOf x.wp) && !s.rangeBlocks 0 0 16 4 wantStore.write (s.nextId + 1) && s.localGate x .rlx) = true ∧
    (let i : Instr := .ld .n32 (.s 20) (.s 10) 4 .dev .rlx .normal ct
    holds (onBlock (fun b => b.setBytes 16 [1, 2, 3, 4]) (addressed (put i))) i fun s x => calm s x && x.cl.entered == 0 && x.acts i == [0] && decide (s.xlate x.w x.wp wantLoad 4 4 (x.va 0 (.s 10) 4 4) = .loc 16) && !s.acquiring (s.ownerOf x.wp) && !s.rangeBlocks 0 0 16 4 wantLoad.write (s.nextId + 1)) = true ∧
    (let i : Instr := .st .n8 (.v 6) (.s 10) 0 .dev .rlx .normal ct
    holds (only 1 (sregs [(10, 0xFF0FFFFF), (11, 0x01FFFFFF)] (put i))) i fun s x => calm s x && x.cl.entered == 0 && x.acts i == [0] && decide (s.xlate x.w x.wp wantStore 1 1 (x.va 0 (.s 10) 0 1) = .loc 0xFFFFF) && !s.acquiring (s.ownerOf x.wp) && !s.rangeBlocks 0 0 0xFFFFF 1 true (s.nextId + 1) && s.localGate x .rlx) = true := by
  decide

/-- R71: the lowest address above bit 56, and an odd address of a word. -/
theorem witness_AddressTraps :
    (let i : Instr := .ld .n32 (.v 20) (.s 8) 0 .dev .rlx .normal ct
    holds (sregs [(9, 0x02000000)] (put i)) i fun s x => calm s x && canTrap s x && takesPart x && (lanesIn x.part).all fun l => 2 ^ 57 ≤ x.va l (.s 8) 0 4) = true ∧
    (let i : Instr := .ld .n32 (.v 20) (.s 8) 0 .dev .rlx .normal ct
    holds (sregs [(8, 0x40000001)] (put i)) i fun s x => calm s x && canTrap s x && takesPart x && (lanesIn x.part).all fun l => x.va l (.s 8) 0 4 < 2 ^ 57 && !inWindow (x.va l (.s 8) 0 4) && x.va l (.s 8) 0 4 % 4 != 0) = true ∧
    (let i : Instr := .st .n32 (.v 20) (.s 8) 0 .dev .rlx .normal ct
    holds (sregs [(9, 0x02000000)] (put i)) i fun s x => calm s x && canTrap s x && takesPart x && (lanesIn x.part).all fun l => 2 ^ 57 ≤ x.va l (.s 8) 0 4) = true ∧
    (let i : Instr := .st .n32 (.v 20) (.s 8) 0 .dev .rlx .normal ct
    holds (sregs [(8, 0x40000001)] (put i)) i fun s x => calm s x && canTrap s x && takesPart x && (lanesIn x.part).all fun l => x.va l (.s 8) 0 4 < 2 ^ 57 && !inWindow (x.va l (.s 8) 0 4) && x.va l (.s 8) 0 4 % 4 != 0) = true := by
  decide

/-- R93, R94: the last register and 8 ways, allotted to the context; a register of its own. -/
theorem witness_RetentionWords :
    (let i : Instr := .ckeep (.s 4) (.s 6) (.s 8) (.s 10) tl
    holds ((fun s => s.modCtx 0 fun c => { c with keepallot := 0x88000 }) (sregs [(4, 15), (6, 0x40000000), (8, 0x40001000), (10, 8)] (mapped (put i)))) i fun s x => takesPart x && calm s x && (s.dies[x.wp.die]?).any (fun v => decide (x.rd1 0 (.s 4) < v.keeps.length)) && (s.ctx? (s.ctxOf x.wp)).isSome && (match s.xlate x.w x.wp wantLoad 1 1 (x.rd 0 (.s 6) 2), s.xlate x.w x.wp wantLoad 1 1 (x.rd 0 (.s 8) 2) with | .ok f, .ok _ => decide (f.tier < 3) | _, _ => false) && s.pageOf x (x.rd 0 (.s 6) 2) == s.pageOf x (x.rd 0 (.s 8) 2) && (s.ctx? 0).any (fun c => c.keepallot.toNat.testBit 15 && decide (8 ≤ c.keepallot.toNat / 2 ^ 16 % 16)) && (s.dies[(0 : Nat)]?).any fun v => v.keeps.all fun k => !k.valid) = true ∧
    (let i : Instr := .cunkeep (.s 4) tl
    holds ((fun s => s.modDie 0 fun d => { d with keeps := d.keeps.set 15 ⟨0, 1, true, 0, 0, 8⟩ }) (sregs [(4, 15)] (put i))) i fun s x => takesPart x && calm s x && (s.dies[x.wp.die]?).any (fun v => decide (x.rd1 0 (.s 4) < v.keeps.length)) && (s.ctx? (s.ctxOf x.wp)).isSome && (s.dies[(0 : Nat)]?).any fun v => (v.keeps[(15 : Nat)]?).any fun u => u.valid && u.owner == s.ctxOf x.wp) = true := by
  decide

/-- A barrier object at window offset 0x100: generation g, n arrivals of each phase expected, p of them pending. -/
def barrier (g n p : Nat) : State → State := onBlock fun b => b.setBytes 0x100 (leBytes 16 (g + n * 2 ^ 4 + p * 2 ^ 20))

def meetsBarrier (s : State) (x : Iss) (i : Instr) (a : Reg) : Bool :=
  calm s x && x.acts i == [0] && x.va 0 a 0 1 == windowBase + 0x100 && (s.blkOf x.wp).any (fun b => s.windowOk b (windowBase + 0x100) 16) &&
    !s.acquiring (s.ownerOf x.wp)

def liveBar (o : BarObj) : Bool := o.good && !o.fault && decide (0 < o.pend) && decide (0 ≤ o.inb) && decide (0 ≤ o.outb)

/-- R106 to R110: an object at the offset 0x100, uniform and per lane; the last arrival and an earlier one, a wait that ends and one that does not, the bounds of each operand. -/
theorem witness_BarrierWords :
    (let i : Instr := .binit (.s 14) (.s 12) 0 ct
    holds (sregs [(12, 0xFF000100), (13, 0x01FFFFFF), (14, 1)] (put i)) i fun s x => meetsBarrier s x i (.s 12) && x.rd1 0 (.s 14) == 1) = true ∧
    (let i : Instr := .binit (.s 14) (.s 12) 0 ct
    holds (sregs [(12, 0xFF000100), (13, 0x01FFFFFF), (14, 65535)] (put i)) i fun s x => meetsBarrier s x i (.s 12) && x.rd1 0 (.s 14) == 65535) = true ∧
    (let i : Instr := .barrive (.s 20) (.s 12) 0 ct
    holds (barrier 15 5 1 (addressed (put i))) i fun s x => meetsBarrier s x i (.s 12) && liveBar (s.barAt x.wp.blk 0x100) && s.gateOpen (s.ownerOf x.wp) x.wp.seq .die && s.gateOpen (s.ownerOf x.wp) x.wp.seq .core && (s.barAt 0 0x100).pend == 1) = true ∧
    (let i : Instr := .barrive (.s 20) (.s 12) 0 ct
    holds (barrier 3 5 4 (addressed (put i))) i fun s x => meetsBarrier s x i (.s 12) && liveBar (s.barAt x.wp.blk 0x100) && s.gateOpen (s.ownerOf x.wp) x.wp.seq .die && s.gateOpen (s.ownerOf x.wp) x.wp.seq .core) = true ∧
    (let i : Instr := .barrive (.v 20) (.v 12) 0 ct
    holds (only 1 (vregs [(12, 0xFF000100), (13, 0x01FFFFFF)] (barrier 3 5 4 (addressed (put i))))) i fun s x => meetsBarrier s x i (.v 12) && liveBar (s.barAt x.wp.blk 0x100) && s.gateOpen (s.ownerOf x.wp) x.wp.seq .die && s.gateOpen (s.ownerOf x.wp) x.wp.seq .core) = true ∧
    (let i : Instr := .bwait (.s 14) (.s 12) 0 ct
    holds (barrier 3 5 4 (addressed (put i))) i fun s x => meetsBarrier s x i (.s 12) && liveBar (s.barAt x.wp.blk 0x100) && (s.barAt 0 0x100).gen == x.rd1 0 (.s 14) && decide (x.rd1 0 (.s 14) ≤ 15)) = true ∧
    (let i : Instr := .bwait (.v 14) (.v 12) 0 ct
    holds (only 1 (vregs [(12, 0xFF000100), (13, 0x01FFFFFF), (14, 3)] (barrier 3 5 4 (addressed (put i))))) i fun s x => meetsBarrier s x i (.v 12) && liveBar (s.barAt x.wp.blk 0x100) && (s.barAt 0 0x100).gen == x.rd1 0 (.v 14)) = true ∧
    (let i : Instr := .bwait (.s 14) (.s 12) 0 ct
    holds (barrier 4 5 4 (addressed (put i))) i fun s x => meetsBarrier s x i (.s 12) && liveBar (s.barAt x.wp.blk 0x100) && (s.barAt 0 0x100).gen != x.rd1 0 (.s 14) && decide (x.rd1 0 (.s 14) ≤ 15)) = true ∧
    (let i : Instr := .btest (.s 20) (.s 12) 0 ct
    holds (barrier 3 5 4 (addressed (put i))) i fun s x => meetsBarrier s x i (.s 12) && liveBar (s.barAt x.wp.blk 0x100)) = true ∧
    (let i : Instr := .bexpect (.s 15) (.s 12) 0 ct
    holds (barrier 3 5 4 (addressed (put i))) i fun s x => meetsBarrier s x i (.s 12) && liveBar (s.barAt x.wp.blk 0x100) && decide ((s.barAt 0 0x100).inb + (x.rd1 0 (.s 15) + 63) / 64 < 2 ^ 31)) = true := by
  decide

/-- R109: some lanes arrive while others are elsewhere, and the last ones arrive. -/
theorem witness_BlockBarrier :
    (let i : Instr := .bsync 0
    holds (only 0xF (put i)) i fun s x => calm s x && (s.blkOf x.wp).any (fun b => b.pre == .none) && s.gateOpen (s.ownerOf x.wp) x.wp.seq .core && !x.wp.ended && takesPart x && (laneOf s x.w 4).any (fun y => y.st == .standing) && !x.part.getLsbD 4) = true ∧
    (let i : Instr := .bsync 0
    holds (only 0xF (onLanes (fun l y => if l < 4 then y else if l < 30 then { y with st := .waiting .bsync } else { y with st := .exited }) (put i))) i fun s x => calm s x && (s.blkOf x.wp).any (fun b => b.pre == .none) && s.gateOpen (s.ownerOf x.wp) x.wp.seq .core && !x.wp.ended && takesPart x && s.warps.length == 1 && (List.range 32).all fun l => x.part.getLsbD l || (laneOf s x.w l).any fun y => y.st == .exited || y.st == .waiting .bsync) = true := by
  decide

/-- Operands of a copy word: 0x200 bytes from 0x4000_0000 to the window's byte 0x1000, counted at the barrier object, and eight elements. -/
def copying (s : State) : State :=
  sregs [(16, 0xFF001000), (17, 0x01FFFFFF), (18, 0x40000000), (20, 0x200), (22, 8), (23, 4), (24, 0xFF002000), (25, 0x01FFFFFF),
    (26, 0xFF000100), (27, 0x01FFFFFF)] (barrier 0 5 4 (mapped s))

/-- R96 to R99, R104: each command passes its checks, with a barrier object, and counts outbound units at one. -/
theorem witness_CopyWords :
    (let i : Instr := .xcopy (.s 16) (.s 18) (.s 20) (.s 26) false ct
    holds (copying (put i)) i fun s x => calm s x && x.cl.entered == 0 && x.acts i == [0] && decide (s.copyQueued x.wp.core < 16) && decide (s.rangesUsed x.wp.core ≤ 30) && (s.blkOf x.wp).any fun b => s.copyCheck b (opOf x.word) ⟨.copy, x.rd 0 (.s 16) 2, x.rd 0 (.s 18) 2, x.rd1 0 (.s 20), 1, 0, 0, some (x.rd 0 (.s 26) 2)⟩ == none) = true ∧
    (let i : Instr := .xcopy (.s 18) (.s 16) (.s 20) (.s 26) true ct
    holds (copying (put i)) i fun s x => calm s x && x.cl.entered == 0 && x.acts i == [0] && decide (s.copyQueued x.wp.core < 16) && decide (s.rangesUsed x.wp.core ≤ 30) && (s.blkOf x.wp).any fun b => s.copyCheck b (opOf x.word) ⟨.copy, x.rd 0 (.s 18) 2, x.rd 0 (.s 16) 2, x.rd1 0 (.s 20), 1, 0, 0, some (x.rd 0 (.s 26) 2)⟩ == none && liveBar (s.barAt 0 0x100)) = true ∧
    (let i : Instr := .xgather (.s 16) (.s 18) (.s 22) (.s 24) false ct
    holds (copying (put i)) i fun s x => calm s x && x.cl.entered == 0 && x.acts i == [0] && decide (s.copyQueued x.wp.core < 16) && decide (s.rangesUsed x.wp.core ≤ 30) && (s.blkOf x.wp).any fun b => s.copyCheck b (opOf x.word) ⟨.gather, x.rd 0 (.s 16) 2, x.rd 0 (.s 18) 2, x.rd 0 (.s 22) 2 % 2 ^ 32, x.rd 0 (.s 22) 2 / 2 ^ 32, x.rd 0 (.s 24) 4 % 2 ^ 64, 0, some (x.rd 0 (.s 24) 4 / 2 ^ 64)⟩ == none) = true ∧
    (let i : Instr := .xscatter (.s 18) (.s 16) (.s 22) (.s 24) false ct
    holds (copying (put i)) i fun s x => calm s x && x.cl.entered == 0 && x.acts i == [0] && decide (s.copyQueued x.wp.core < 16) && decide (s.rangesUsed x.wp.core ≤ 30) && (s.blkOf x.wp).any fun b => s.copyCheck b (opOf x.word) ⟨.scatter, x.rd 0 (.s 18) 2, x.rd 0 (.s 16) 2, x.rd 0 (.s 22) 2 % 2 ^ 32, x.rd 0 (.s 22) 2 / 2 ^ 32, x.rd 0 (.s 24) 4 % 2 ^ 64, 0, some (x.rd 0 (.s 24) 4 / 2 ^ 64)⟩ == none) = true ∧
    (let i : Instr := .xfill (.s 16) (.s 22) (.s 20) (.s 0) false ct
    holds (copying (put i)) i fun s x => calm s x && x.cl.entered == 0 && x.acts i == [0] && decide (s.copyQueued x.wp.core < 16) && decide (s.rangesUsed x.wp.core ≤ 30) && (s.blkOf x.wp).any fun b => s.copyCheck b (opOf x.word) ⟨.fill, x.rd 0 (.s 16) 2, 0, x.rd1 0 (.s 20), 1, 0, x.wp.reg 0 (.s 22) 0, none⟩ == none) = true ∧
    (let i : Instr := .xmcast (.s 30) (.s 18) (.s 20) (.s 24) ct
    holds (onBlock (fun b => b.setBytes 0x2000 (leBytes 8 (0x100 * 2 ^ 32 + 1))) (copying (put i))) i fun s x => calm s x && x.acts i == [0] && (s.blkOf x.wp).any fun b => match s.mcastCheck b (opOf x.word) 0 ⟨x.rd1 0 (.s 30), x.rd 0 (.s 18) 2, x.rd1 0 (.s 20), x.rd 0 (.s 24) 2⟩ with | .ok _ => !s.rangeBlocks x.w x.wp.blk (x.rd 0 (.s 24) 2 - windowBase) 128 false s.nextId | _ => false) = true := by
  decide

/-- R223, R224: a token that is complete and one that is pending; an access that a fence covers. -/
theorem witness_FenceWords :
    (let i : Instr := .fence 2 .rel .dev tl
    holds (put i) i fun s x => takesPart x && calm s x && (x.wp.fences[(2 : Nat)]?).any fun g => g.pending == false) = true ∧
    (let i : Instr := .fence 2 .rel .dev tl
    holds ((fun s => match exec (.st .n32 (.v 6) (.v 2) 0 .dev .rlx .normal ct) (addressed (put (.st .n32 (.v 6) (.v 2) 0 .dev .rlx .normal ct))) with | .next t => { t with cur := some 0, warps := t.warps.map fun w => { w with clause := (((put i).warps[(0 : Nat)]?).bind (·.clause)) } } | _ => s) (put i)) i fun s x => takesPart x && calm s x && (x.wp.fences[(2 : Nat)]?).any fun g => g.pending == false && !s.reqs.isEmpty) = true ∧
    (let i : Instr := .fwait 2 tl
    holds (onWarp (fun w => { w with fences := w.fences.modify 2 fun f => { f with pending := true } }) (put i)) i fun s x => takesPart x && calm s x && (x.wp.fences[(2 : Nat)]?).any fun g => g.pending == true && decide (g.from_ ≤ s.clk.cyc)) = true ∧
    (let i : Instr := .fwait 2 tl
    holds (onWarp (fun w => { w with fences := w.fences.modify 2 fun f => { f with pending := true, from_ := 10 ^ 6 } }) (put i)) i fun s x => takesPart x && calm s x && (x.wp.fences[(2 : Nat)]?).any fun g => g.pending == true && decide (s.clk.cyc < g.from_)) = true ∧
    (([.fwait 2 tl,
      .fpoll 1 2 tl] : List Instr).all fun i =>
    holds (put i) i fun s x => takesPart x && calm s x && (x.wp.fences[(2 : Nat)]?).any fun g => g.pending == false) = true ∧
    (let i : Instr := .fpoll 1 2 tl
    holds (onWarp (fun w => { w with fences := w.fences.modify 2 fun f => { f with pending := true } }) (put i)) i fun s x => takesPart x && calm s x && (x.wp.fences[(2 : Nat)]?).any fun g => g.pending == true) = true := by
  decide

/-- Operands of a matrix command: A at the window's byte 0, B and scales further on, a shape of 4 × 4 × 4, and format slot 3 with its scale format. -/
def matrix (s : State) : State :=
  sregs [(16, 0xFF000000), (17, 0x01FFFFFF), (18, 0xFF001000), (19, 0x01FFFFFF), (20, 4 * 1024 + 3 * 32 + 3), (21, 0x00040004), (24, 0xFF002000),
    (25, 0x01FFFFFF), (26, 0), (27, 0)] (slotted 3 0x40000 (slotted 4 0x52000 (mapped s)))

/-- R171 to R175, R181, R182: each command passes its checks, on the first tile and the last. -/
theorem witness_MatrixCommands :
    (let i : Instr := .mzero 63 ⟨q7, some 2, 0⟩
    holds (matrix (put i)) i fun s x => calm s x && x.cl.entered == 0 && (lanesIn x.part).head? == some 0 && ((.mzero : MxOp) == .mzero || x.acts i == [0]) && s.mxRoom 0 0 && decide (s.mxCodes x (.mzero : MxOp) 63 (slotRead 0) true (⟨0, 0, 0, 0, 0⟩ : MxArgs) = []) && true) = true ∧
    (let i : Instr := .mload 0 (.s 16) (.s 20) 3 ⟨q7, some 2, 0⟩
    holds (matrix (put i)) i fun s x => calm s x && x.cl.entered == 0 && (lanesIn x.part).head? == some 0 && ((.mload false : MxOp) == .mzero || x.acts i == [0]) && s.mxRoom 0 0 && decide (s.mxCodes x (.mload false : MxOp) 0 (slotRead (s.slotOf x.wp 3)) true (⟨x.rd 0 (.s 16) 2, 0, 0, 0, BitVec.ofNat 64 (x.rd 0 (.s 20) 2)⟩ : MxArgs) = []) && decide (slotCheck .load (s.slotOf x.wp 3) = none)) = true ∧
    (let i : Instr := .mloadRaw 63 (.s 16) (.s 20) ⟨q7, some 2, 0⟩
    holds (matrix (put i)) i fun s x => calm s x && x.cl.entered == 0 && (lanesIn x.part).head? == some 0 && ((.mload true : MxOp) == .mzero || x.acts i == [0]) && s.mxRoom 0 0 && decide (s.mxCodes x (.mload true : MxOp) 63 (slotRead 0) true (⟨x.rd 0 (.s 16) 2, 0, 0, 0, BitVec.ofNat 64 (x.rd 0 (.s 20) 2)⟩ : MxArgs) = []) && true) = true ∧
    (let i : Instr := .mma 0 (.s 16) (.s 18) (.s 20) 3 ⟨q7, some 2, 0⟩
    holds (matrix (put i)) i fun s x => calm s x && x.cl.entered == 0 && (lanesIn x.part).head? == some 0 && ((.mma false : MxOp) == .mzero || x.acts i == [0]) && s.mxRoom 0 0 && decide (s.mxCodes x (.mma false : MxOp) 0 (slotRead (s.slotOf x.wp 3)) true (⟨x.rd 0 (.s 16) 2, x.rd 0 (.s 18) 2, 0, 0, BitVec.ofNat 64 (x.rd 0 (.s 20) 2)⟩ : MxArgs) = []) && decide (slotCheck .mma (s.slotOf x.wp 3) = none)) = true ∧
    (let i : Instr := .mmaSet 63 (.s 16) (.s 18) (.s 20) 3 ⟨q7, some 2, 0⟩
    holds (matrix (put i)) i fun s x => calm s x && x.cl.entered == 0 && (lanesIn x.part).head? == some 0 && ((.mma true : MxOp) == .mzero || x.acts i == [0]) && s.mxRoom 0 0 && decide (s.mxCodes x (.mma true : MxOp) 63 (slotRead (s.slotOf x.wp 3)) true (⟨x.rd 0 (.s 16) 2, x.rd 0 (.s 18) 2, 0, 0, BitVec.ofNat 64 (x.rd 0 (.s 20) 2)⟩ : MxArgs) = []) && decide (slotCheck .mma (s.slotOf x.wp 3) = none)) = true ∧
    (let i : Instr := .mdrain 0 (.s 16) (.s 0) (.s 20) 3 ⟨q7, some 2, 0⟩
    holds (matrix (put i)) i fun s x => calm s x && x.cl.entered == 0 && (lanesIn x.part).head? == some 0 && ((.mdrain false : MxOp) == .mzero || x.acts i == [0]) && s.mxRoom 0 0 && decide (s.mxCodes x (.mdrain false : MxOp) 0 (slotRead (s.slotOf x.wp 3)) true (⟨x.rd 0 (.s 16) 2, 0, 0, 0, BitVec.ofNat 64 (x.rd 0 (.s 20) 2)⟩ : MxArgs) = []) && decide (slotCheck .drain (s.slotOf x.wp 3) = none)) = true ∧
    (let i : Instr := .mdrain 0 (.s 16) (.s 24) (.s 20) 4 ⟨q7, some 2, 0⟩
    holds (matrix (put i)) i fun s x => calm s x && x.cl.entered == 0 && (lanesIn x.part).head? == some 0 && ((.mdrain false : MxOp) == .mzero || x.acts i == [0]) && s.mxRoom 0 0 && decide (s.mxCodes x (.mdrain false : MxOp) 0 (slotRead (s.slotOf x.wp 4)) false (⟨x.rd 0 (.s 16) 2, 0, x.rd 0 (.s 24) 4 % 2 ^ 64, x.rd 0 (.s 24) 4 / 2 ^ 64 % 2 ^ 64, BitVec.ofNat 64 (x.rd 0 (.s 20) 2)⟩ : MxArgs) = []) && decide (slotCheck .drain (s.slotOf x.wp 4) = none)) = true ∧
    (let i : Instr := .mdrainRaw 0 (.s 16) (.s 20) ⟨q7, some 2, 0⟩
    holds (matrix (put i)) i fun s x => calm s x && x.cl.entered == 0 && (lanesIn x.part).head? == some 0 && ((.mdrain true : MxOp) == .mzero || x.acts i == [0]) && s.mxRoom 0 0 && decide (s.mxCodes x (.mdrain true : MxOp) 0 (slotRead 0) true (⟨x.rd 0 (.s 16) 2, 0, 0, 0, BitVec.ofNat 64 (x.rd 0 (.s 20) 2)⟩ : MxArgs) = []) && true) = true := by
  decide

/-- A matrix command of the warp, on tile t and batch n. -/
def command (op : MxOp) (t n : Nat) (st : CmdSt) : MxCmd :=
  { id := 1, core := 0, blk := 0, warp := 0, lane := 0, word := 0x10008, op := op, tile := t, a := windowBase, b := windowBase + 0x1000, rs := 0, cs := 0,
    shape := BitVec.ofNat 64 (0x00040004 * 2 ^ 32 + 4 * 1024 + 3 * 32 + 3), slot := 0x40000, batch := n, ctr := none, grp := 1, row := 0,
    rows := ⟨0, 0, 0, 0⟩, bounces := 0, due := 0, waitFrom := none, stopped := false, st := st }

def queuing (k : MxCmd) (s : State) : State := { s with mx := [k], nextId := 9 }

/-- R171, R183, R184, R189 to R192: owners, an element to read, a batch to commit, waits on both sides of the batch that is done, a free and a busy engine, the baton held and not held. -/
theorem witness_MatrixOwnership :
    (let i : Instr := .macq 63 tl
    holds (matrix (put i)) i fun s x => calm s x && (lanesIn x.part).head? == some 0 && (s.blkOf x.wp).isSome && !(s.mx.any fun k => k.blk == 0 && k.tile == 63)) = true ∧
    (let i : Instr := .mrel 0 tl
    holds (onBlock (fun b => { b with owners := 3 }) (matrix (put i))) i fun s x => calm s x && (lanesIn x.part).head? == some 0 && (s.blkOf x.wp).isSome) = true ∧
    (let i : Instr := .mread (.s 40) 0 (.s 30) (.s 0) 3 ct
    holds (onBlock (fun b => { b with owners := 1, tiles := [(31 * 32 + 30, 77)] }) (onWarp (fun w => { w with s := w.s ++ [(30, 31 * 32 + 30)] }) (slotted 3 0x40600 (matrix (put i))))) i fun s x => calm s x && (lanesIn x.part).head? == some 0 && (s.blkOf x.wp).isSome && x.acts i == [0] && decide (slotCheck .drain (s.slotOf x.wp 3) = none) && !(slotRead (s.slotOf x.wp 3)).row && !(slotRead (s.slotOf x.wp 3)).col && (s.blkOf x.wp).any (·.owners.getLsbD 0) && !s.acquiring (s.ownerOf x.wp)) = true ∧
    (let i : Instr := .mcommit (.s 40) tl
    holds (matrix (put i)) i fun s x => calm s x && (lanesIn x.part).head? == some 0 && (s.blkOf x.wp).isSome && !s.noBaton x.wp && (s.blkOf x.wp).any (·.faults.isEmpty)) = true ∧
    (let i : Instr := .mwait (.s 40) tl
    holds (onBlock (fun b => { b with batch := 5, done := 4 }) (sregs [(40, 3)] (matrix (put i)))) i fun s x => calm s x && (lanesIn x.part).head? == some 0 && (s.blkOf x.wp).isSome && x.rd1 0 (.s 40) == 3 && (s.blkOf x.wp).any fun b => decide (3 ≤ b.batch ∧ 3 ≤ b.done) && b.faults.isEmpty) = true ∧
    (let i : Instr := .mwait (.s 40) tl
    holds (onBlock (fun b => { b with batch := 5, done := 4 }) (sregs [(40, 5)] (matrix (put i)))) i fun s x => calm s x && (lanesIn x.part).head? == some 0 && (s.blkOf x.wp).isSome && x.rd1 0 (.s 40) == 5 && (s.blkOf x.wp).any fun b => decide (5 ≤ b.batch ∧ 5 > b.done) && b.faults.isEmpty) = true ∧
    (let i : Instr := .mprog (.s 40) tl
    holds (matrix (put i)) i fun s x => calm s x && (lanesIn x.part).head? == some 0 && (s.blkOf x.wp).isSome && !(s.mx.any fun k => k.blk == 0)) = true ∧
    (let i : Instr := .mprog (.s 40) tl
    holds (queuing (command (.mdrain false) 63 65537 (.running 0)) (matrix (put i))) i fun s x => calm s x && (lanesIn x.part).head? == some 0 && (s.blkOf x.wp).isSome && (s.mx.find? fun k => k.blk == 0 && k.op != .mzero && k.st != .queued).isSome) = true ∧
    (let i : Instr := .mprog (.s 40) tl
    holds (queuing (command (.mdrain false) 63 65537 (.parked 1)) (matrix (put i))) i fun s x => calm s x && (lanesIn x.part).head? == some 0 && (s.blkOf x.wp).isSome && (s.mx.find? fun k => k.blk == 0 && k.op != .mzero && k.st != .queued).isSome) = true ∧
    (let i : Instr := .mbtake tl
    holds (matrix (put i)) i fun s x => calm s x && (lanesIn x.part).head? == some 0 && (s.blkOf x.wp).isSome && !s.noBaton x.wp) = true ∧
    (let i : Instr := .mbtake tl
    holds (onBlock (fun b => { b with baton := 1 }) (onInfo (fun r => { r with flags := 32 }) (matrix (put i)))) i fun s x => calm s x && (lanesIn x.part).head? == some 0 && (s.blkOf x.wp).isSome && s.noBaton x.wp) = true ∧
    (let i : Instr := .mbpass tl
    holds ((fun s => { s with warps := s.warps ++ ((s.warps[(0 : Nat)]?).map fun w => { w with num := 3, clause := none, slot := 4 }).toList }) (onInfo (fun r => { r with flags := 32 }) (matrix (put i)))) i fun s x => calm s x && (lanesIn x.part).head? == some 0 && (s.blkOf x.wp).isSome && s.batonMode x.wp && (s.blkOf x.wp).any (·.baton == x.wp.num) && s.warps.map (fun v => (v.num, v.blk, v.ended, v.allExited)) == [(0, 0, false, false), (3, 0, false, false)]) = true := by
  decide

/-- Bytes of HBM behind those that are listed. -/
def poke (l : List Host.Cell) (s : State) : State := { s with mem := s.mem ++ l }

/-- Page tables of the supervisor context at 0x1000 to 0x3FFF, which map the 1 GiB at 0x4000_0000 to the first bytes of HBM. -/
def paged (s : State) : State :=
  poke [(0x1000, 0x1), (0x1001, 0x20), (0x2000, 0x1), (0x2001, 0x30), (0x3008, 0x1F)] { (mapped s) with ctxs := s.ctxs.map fun k => { k with ptbase := 0x1000 } }

/-- A ring of four elements of 64 bytes, with two producers and an external consumer, whose descriptor stands at 0x4010_0000. -/
def aRing : Ring :=
  { id := 1, ctx := 0, desc := 0x40100000, key := 0x100000, base := 0x40110000, size := 64, cap := 4, echo := 0, prod := 2, ext := true, w := 0,
    ended := 0, left := none, gone := 0, stageOut := false, poss := [], cons := [⟨none, 0, false, none, false, false, []⟩], claims := [], pops := [], doneBy := [] }

/-- The engine holds the ring; s8:s9 name its descriptor, s10:s11 an element, s12 a producer. The launch is a stage's, with the ring at both ports. -/
def ringed (r : Ring) (s : State) : State :=
  onLaunch (fun l => { l with stage := some 5 }) (sregs [(8, 0x40100000), (10, 0x40120000), (12, 1)]
    (poke [(0x120000, 0x88), (0x120001, 0x77), (0x120002, 0x66), (0x120003, 0x55), (0x120004, 0x44), (0x120005, 0x33), (0x120006, 0x22), (0x120007, 0x11)] (paged { s with rings := [r], stages := [⟨5, 0, 0, 0, [], 1, 1⟩], nextId := 9 })))

def oneLane (s : State) (x : Iss) (i : Instr) : Bool :=
  calm s x && x.acts i == [0] && (lanesIn x.part).head? == some 0 && s.gateOpen (s.ownerOf x.wp) x.wp.seq .dev

def inPage (s : State) (x : Iss) (w : Want) (va n : Nat) : Bool :=
  decide (va % 4096 + n ≤ 4096) && decide (0 < n) && match s.xlate x.w x.wp w 1 n va with | .ok _ => true | _ => false

/-- R292, R293: an entry address that is good, with room for one more task, and one that is not. -/
theorem witness_SpawnWord :
    (let i : Instr := .spawn (.s 4) (.v 8) ct
    holds (sregs [(4, 0x18000), (5, 0)] (vregs [(8, 3), (13, 9)] (only 1 (put i)))) i fun s x => oneLane s x i && (s.blkOf x.wp).isSome && decide (x.rd 0 (.s 4) 2 % 8 = 0 ∧ x.rd 0 (.s 4) 2 < 2 ^ 48) && s.tasks.isEmpty) = true ∧
    (let i : Instr := .spawn (.s 4) (.v 8) ct
    holds (sregs [(4, 0x18004), (5, 0)] (only 1 (put i))) i fun s x => oneLane s x i && canTrap s x && decide (x.rd 0 (.s 4) 2 % 8 ≠ 0)) = true ∧
    (let i : Instr := .spawn (.s 4) (.v 8) ct
    holds (sregs [(4, 0), (5, 0x10000)] (only 1 (put i))) i fun s x => oneLane s x i && canTrap s x && decide (2 ^ 48 ≤ x.rd 0 (.s 4) 2)) = true := by
  decide

/-- R299, R310 to R313: a ring with room at its last free position, through the port and by name. -/
theorem witness_RingPushWords :
    (let i : Instr := .rpush (.s 10) ct
    holds (ringed { aRing with w := 3 } (put i)) i fun s x => oneLane s x i && (s.ring? 1).any (fun r => r.claims.isEmpty && decide (r.w < r.free - r.echo + r.cap) && decide (0 < r.prod) && !r.doneBy.contains (0)) && (s.portRing x.wp 1).any (·.id == 1) && (s.blkOf x.wp).any (·.lin == 0) && inPage s x wantLoad (x.rd 0 (.s 10) 2) 64) = true ∧
    (let i : Instr := .rpushRing (.s 8) (.s 10) (.s 12) ct
    holds (ringed { aRing with w := 3 } (put i)) i fun s x => oneLane s x i && (s.ring? 1).any (fun r => r.claims.isEmpty && decide (r.w < r.free - r.echo + r.cap) && decide (1 < r.prod) && !r.doneBy.contains (1)) && (match s.ringAt 0 (s.ctxOf x.wp) (x.rd 0 (.s 8) 2) with | .held r => r.id == 1 && !r.stageOut | _ => false) && x.rd1 0 (.s 12) == 1 && inPage s x wantLoad (x.rd 0 (.s 10) 2) 64) = true ∧
    (let i : Instr := .reos ct
    holds (ringed { aRing with w := 3 } (put i)) i fun s x => oneLane s x i && (s.ring? 1).any (fun r => r.claims.isEmpty && decide (r.w < r.free - r.echo + r.cap) && decide (0 < r.prod) && !r.doneBy.contains (0)) && (s.portRing x.wp 1).any (·.id == 1) && (s.blkOf x.wp).any (·.lin == 0)) = true ∧
    (let i : Instr := .reosRing (.s 8) (.s 12) ct
    holds (ringed { aRing with w := 3 } (put i)) i fun s x => oneLane s x i && (s.ring? 1).any (fun r => r.claims.isEmpty && decide (r.w < r.free - r.echo + r.cap) && decide (1 < r.prod) && !r.doneBy.contains (1)) && (match s.ringAt 0 (s.ctxOf x.wp) (x.rd 0 (.s 8) 2) with | .held r => r.id == 1 && !r.stageOut | _ => false) && x.rd1 0 (.s 12) == 1) = true := by
  refine ⟨?_, ?_, ?_, ?_⟩ <;> decide +kernel

/-- R300, R310, R312: one consumer, the stage's own and the external one. -/
theorem witness_RingPopWords :
    (let i : Instr := .rpop (.s 10) (.s 20) ct
    holds (ringed { aRing with cons := [⟨some 5, 0, false, none, false, false, []⟩] } (put i)) i fun s x => oneLane s x i && inPage s x wantStore (x.rd 0 (.s 10) 2) 64 && (s.portRing x.wp 0).any (·.id == 1) && s.stageOf x.wp == some 5) = true ∧
    (let i : Instr := .rpopRing (.s 8) (.s 10) (.s 20) ct
    holds (ringed { aRing with cons := [⟨none, 0, false, none, false, false, []⟩] } (put i)) i fun s x => oneLane s x i && inPage s x wantStore (x.rd 0 (.s 10) 2) 64 && (match s.ringAt 0 (s.ctxOf x.wp) (x.rd 0 (.s 8) 2) with | .held r => r.id == 1 && r.ext && r.poss.isEmpty | _ => false)) = true := by
  refine ⟨?_, ?_⟩ <;> decide +kernel

/-- A dirty line of L2 under slot 0, with its bytes that are not zero. -/
def aLine (n : Nat) (l : List (Nat × Byte)) : Line :=
  ⟨n, 0, 0, 0, true, l.foldl (fun d e => d.set e.1 e.2) (List.replicate 128 0), 0, false, none, none⟩

/-- In L2: page tables as those of `paged`; a pipeline descriptor at 0x4013_0000 of one stage, its record at 0x4013_1000, two words of code at 0x4014_0000, a
source ring at 0x4010_0000 and an output ring at 0x4010_1000 with an external consumer. -/
def bindable (s : State) : State :=
  sregs [(8, 0x40130000), (10, 5)] { (mapped s) with
    ctxs := s.ctxs.map fun k => { k with ptbase := 0x1000 },
    lines := [aLine 0x20 [(0, 0x1), (1, 0x20)],
      aLine 0x40 [(0, 0x1), (1, 0x30)],
      aLine 0x60 [(8, 0x1F)],
      aLine 0x2000 [(2, 0x11), (3, 0x40), (8, 0x40), (10, 0x2), (14, 0x10)],
      aLine 0x2020 [(1, 0x80), (2, 0x11), (3, 0x40), (8, 0x40), (10, 0x2), (14, 0x10), (15, 0x80)],
      aLine 0x2600 [(2, 0x10), (3, 0x40), (16, 0x1), (65, 0x10), (66, 0x13), (67, 0x40), (72, 0x10), (97, 0x10), (98, 0x10), (99, 0x40)],
      aLine 0x2620 [(2, 0x14), (3, 0x40), (8, 0x1), (12, 0x1), (14, 0x1), (16, 0x20), (18, 0x1), (19, 0x1), (20, 0x2), (22, 0x8), (24, 0x8), (28, 0x10), (29, 0x20), (30, 0x8), (31, 0x4)],
      aLine 0x2621 [],
      aLine 0x2800 [(0, 0x7)]] }

/-- One bound pipeline of the supervisor context, of one stage, that has ended or not. -/
def piped (fin : Bool) (s : State) : State := { bindable s with nextId := 9, pipes := [⟨7, 5, 0, 0, [6], 1, 4, false, fin, 0, 0, 0⟩] }

/-- R301, R306, R314 to R316: a descriptor that binds, a pipeline that has ended, one to read, and a handle that names none. -/
theorem witness_PipelineWords :
    (let i : Instr := .pbind (.s 20) (.s 8) ct
    holds (bindable (put i)) i fun s x => oneLane s x i && (match s.bindRead 0 0 (x.rd 0 (.s 8) 2) with | .ok b => decide (b.src.low ≤ b.start) && decide (b.src.seats < 16) && (let outs := b.stages.zipIdx.map fun e => (e.1, s.bindOut 0 0 b.stages.length e.2 e.1.entry); outs.all (fun e => match e.2 with | .ok _ => true | _ => false) && s.bindStatus 0 0 b.src (outs.filterMap fun e => match e.2 with | .ok r => some (e.1, r) | _ => none) == []) | _ => false) && s.domainOf 0 == 0) = true ∧
    (let i : Instr := .punbind (.s 10) ct
    holds (piped true (put i)) i fun s x => oneLane s x i && (s.pipes.find? (fun z => z.ctx == 0 && z.handle == x.rd1 0 (.s 10))).any (·.ended)) = true ∧
    (let i : Instr := .pquery (.s 20) (.s 10) (.s 12) ct
    holds (piped false (put i)) i fun s x => oneLane s x i && x.rd1 0 (.s 12) == 0 && (s.pipes.find? (fun z => z.ctx == 0 && z.handle == x.rd1 0 (.s 10))).any (fun k => k.depth == 0 && !k.stages.isEmpty)) = true ∧
    (let i : Instr := .pquery (.s 20) (.s 10) (.s 12) ct
    holds (put i) i fun s x => oneLane s x i && (s.pipeAt 0 (x.rd1 0 (.s 10))).isNone && canTrap s x) = true := by
  refine ⟨?_, ?_, ?_, ?_⟩ <;> decide +kernel

/-- A warp that may migrate: no tile, 64 KiB of scratchpad, dies 0 and 1 in one hierarchy. -/
def mobile (s : State) : State :=
  onInfo (fun r => { r with tiles := 0, pool := 0x0100082C }) { s with dies := s.dies.modify 1 fun d => { d with hier := some 0 } }

/-- R364, R365: an address at home, and one whose home is die 1 for a warp in handler mode. -/
theorem witness_MigrationWord :
    (let i : Instr := .migr 1 (.s 8) tl
    holds (mobile (sregs [(8, 0x40000000)] (mapped (put i)))) i fun s x => calm s x && (lanesIn x.part).head? == some 0 && match s.xlate x.w x.wp wantLoad 1 1 (x.rd 0 (.s 8) 2) with | .ok p => (s.migrCode x.wp p.tier).isNone && p.die == x.wp.die | _ => false) = true ∧
    (let i : Instr := .migr 1 (.s 8) tl
    holds (inHandler (mobile (sregs [(8, 0x40010000)] (mapped (put i))))) i fun s x => calm s x && (lanesIn x.part).head? == some 0 && match s.xlate x.w x.wp wantLoad 1 1 (x.rd 0 (.s 8) 2) with | .ok p => (s.migrCode x.wp p.tier).isNone && p.die == 1 && x.wp.stuck | _ => false) = true := by
  decide

/-- An open group of three members, of which this is rank 1, and a collective of it. -/
def aGroup : Group :=
  { id := 3, handle := 5, ctx := 0, die := 0, desc := 0x40100000, n := 3, rank := 1, timeout := 100000, tag := 77, peers := [0, 0, 0], opened := [1],
    live := [0, 1, 2], removed := false, lost := false, epoch := 1, isOpen := true, coll := none }

/-- Peer 0 reached by port 13 of die 0. -/
def reaching (s : State) : State := { s with dies := s.dies.modify 0 fun d => { d with fabric := [(0, BitVec.ofNat 64 (2 ^ 63 + 2 ^ 45 + 9))] } }

def grouped (g : Group) (s : State) : State := { s with groups := [g], nextId := 9 }

/-- s8:s11 name 0x100 in the window as destination and 0x40 as source, s12:s13 eight elements and the control word, s14 the handle. -/
def collective (ctl n : Word) : State → State :=
  sregs [(8, 0xFF000100), (9, 0x01FFFFFF), (10, 0xFF000040), (11, 0x01FFFFFF), (12, ctl), (13, n), (14, 5), (16, 0x40100000)]

/-- R368 to R371, R373: a reduction at both ends of its length, a broadcast, and the three operations of `cmemb`. -/
theorem witness_CollectiveWords :
    (let i : Instr := .creduce (.s 20) (.s 8) (.s 12) (.s 14) ⟨q7, some 1, 0⟩
    holds (grouped aGroup (collective 0 1 (put i))) i fun s x => calm s x && (lanesIn x.part).head? == some 0 && (s.groupAt (s.ctxOf x.wp) x.wp.die (x.rd1 0 (.s 14))).any (·.coll.isNone) && s.gateOpen (s.ownerOf x.wp) x.wp.seq .sys && decide (let ctl := x.rd 0 (.s 12) 2 % 2 ^ 32; let n := x.rd 0 (.s 12) 2 / 2 ^ 32; ctl / 4 % 4 = 0 ∧ ctl < 2 ^ 6 ∧ (ctl % 4 = 3 → ctl / 16 < 2) ∧ 1 ≤ n ∧ n ≤ 4194304)) = true ∧
    (let i : Instr := .creduce (.s 20) (.s 8) (.s 12) (.s 14) ⟨q7, some 1, 0⟩
    holds (grouped aGroup (collective 19 4194304 (put i))) i fun s x => calm s x && (lanesIn x.part).head? == some 0 && (s.groupAt (s.ctxOf x.wp) x.wp.die (x.rd1 0 (.s 14))).any (·.coll.isNone) && s.gateOpen (s.ownerOf x.wp) x.wp.seq .sys && decide (let ctl := x.rd 0 (.s 12) 2 % 2 ^ 32; let n := x.rd 0 (.s 12) 2 / 2 ^ 32; ctl / 4 % 4 = 0 ∧ ctl < 2 ^ 6 ∧ (ctl % 4 = 3 → ctl / 16 < 2) ∧ 1 ≤ n ∧ n ≤ 4194304)) = true ∧
    (let i : Instr := .creduce (.s 20) (.s 8) (.s 12) (.s 14) ⟨q7, some 1, 0⟩
    holds (grouped aGroup (collective 50 8 (put i))) i fun s x => calm s x && (lanesIn x.part).head? == some 0 && (s.groupAt (s.ctxOf x.wp) x.wp.die (x.rd1 0 (.s 14))).any (·.coll.isNone) && s.gateOpen (s.ownerOf x.wp) x.wp.seq .sys && decide (let ctl := x.rd 0 (.s 12) 2 % 2 ^ 32; let n := x.rd 0 (.s 12) 2 / 2 ^ 32; ctl / 4 % 4 = 0 ∧ ctl < 2 ^ 6 ∧ (ctl % 4 = 3 → ctl / 16 < 2) ∧ 1 ≤ n ∧ n ≤ 4194304)) = true ∧
    (let i : Instr := .cbcast (.s 8) (.s 12) (.s 14) ⟨q7, some 1, 0⟩
    holds (grouped aGroup (collective 2 16777216 (put i))) i fun s x => calm s x && (lanesIn x.part).head? == some 0 && (s.groupAt (s.ctxOf x.wp) x.wp.die (x.rd1 0 (.s 14))).any (·.coll.isNone) && s.gateOpen (s.ownerOf x.wp) x.wp.seq .sys && decide (1 ≤ x.rd 0 (.s 12) 2 / 2 ^ 32 ∧ x.rd 0 (.s 12) 2 / 2 ^ 32 ≤ 16777216)) = true ∧
    (let i : Instr := .cmembOpen (.s 20) (.s 16) (.s 0) (.s 0) ⟨q7, some 1, 0⟩
    holds (poke [(0x100000, 0x3), (0x100002, 0x1), (0x100008, 0xE8), (0x100009, 0x3), (0x100010, 0x4D)] (paged (collective 0 0 (put i))) |> sregs [(16, 0x40100000)] |> reaching) i fun s x => calm s x && (lanesIn x.part).head? == some 0 && x.rd1 0 (.s 0) == 0 && decide (x.rd 0 (.s 16) 2 % 64 = 0) && match s.xlate x.w x.wp wantLoad 64 64 (x.rd 0 (.s 16) 2) with
      | .ok q => let head := (List.range 64).map fun k => s.loadByte x q (q.pa + k)
        (match s.groupTable (s.ctxOf x.wp) x.wp.die (x.rd 0 (.s 16) 2) (min 1024 (leNat (head.take 8) % 2 ^ 11)) with
          | some es => groupRead head es == some (3, 1, 1000, 77, [0, 0, 0]) | none => false) && decide ((s.groupsOf (s.ctxOf x.wp) x.wp.die).length < 16)
      | _ => false) = true ∧
    (let i : Instr := .cmembQuery (.s 20) (.s 0) (.s 12) (.s 14) ⟨q7, some 1, 0⟩
    holds (grouped aGroup (collective 1 0 (put i))) i fun s x => calm s x && (lanesIn x.part).head? == some 0 && (s.groupAt (s.ctxOf x.wp) x.wp.die (x.rd1 0 (.s 14))).any (·.coll.isNone) && x.rd1 0 (.s 12) == 1) = true ∧
    (let i : Instr := .cmembClose (.s 20) (.s 0) (.s 12) (.s 14) ⟨q7, some 1, 0⟩
    holds (grouped aGroup (collective 2 0 (put i))) i fun s x => calm s x && (lanesIn x.part).head? == some 0 && (s.groupAt (s.ctxOf x.wp) x.wp.die (x.rd1 0 (.s 14))).any (·.coll.isNone) && x.rd1 0 (.s 12) == 2) = true := by
  refine ⟨?_, ?_, ?_, ?_, ?_, ?_, ?_⟩ <;> decide +kernel

/-- An open entry of context 0, on which lane 3 of a second warp of the block waits. -/
def anEntry : FaultEntry := ⟨6, 1, 3, 1, 0x40000000, 0x18000, 0, 0, 0, 8, 0x40000000, 7, 0, 0, 0⟩

def waitsOn (s : State) : State :=
  let w := (s.warps[0]?).map fun w => { w with num := 1, slot := 2, clause := none, lanes := w.lanes.modify 3 fun y => { y with st := .parked 6, pc := 0x18000 } }
  { s with warps := s.warps ++ w.toList, ctxs := s.ctxs.map fun k => { k with open_ := [anEntry] } }

def commands (s : State) (x : Iss) : Bool := calm s x && (lanesIn x.part).head? == some 0 && s.levelS (s.ctxOf x.wp)

def openEntry (s : State) (x : Iss) : Bool :=
  (s.ctx? x.wp.target).any (fun c => c.open_.find? (fun f => f.id == 6) == some anEntry) && s.blocks.all (·.st == .running) && s.copies.isEmpty && s.mcasts.isEmpty &&
    s.mx.isEmpty && s.reqs.isEmpty && (s.warps[0]?).any (fun w => w.lanes.all fun y => y.st != .parked 6) && ((s.warps[1]?).bind (·.lanes[3]?)).any (·.st == .parked 6)

/-- R337: an entry that a lane waits on, in a launch with a handler. -/
theorem witness_ResumeWords :
    (let i : Instr := .resumeRetry (.s 12) tl
    holds (waitsOn (sregs [(12, 6)] (put i))) i fun s x => commands s x && openEntry s x && x.rd1 0 (.s 12) == 6 && s.devClear x) = true ∧
    (let i : Instr := .resumeDeliver (.s 12) tl
    holds (waitsOn (sregs [(12, 6)] (put i))) i fun s x => commands s x && openEntry s x && x.rd1 0 (.s 12) == 6 && s.devClear x && (s.warps[(1 : Nat)]?).any fun w => s.handlerOf w != 0 && w.lanes.all fun y => !y.handler) = true ∧
    (let i : Instr := .resumeEnd (.s 12) tl
    holds (waitsOn (sregs [(12, 6)] (put i))) i fun s x => commands s x && openEntry s x && x.rd1 0 (.s 12) == 6 && s.devClear x) = true := by
  decide

/-- A descriptor at 0x4010_0000: target context 1, a mode, die 0, a save area at 0x4020_0000 and a report at 0x4030_0000. -/
def described (m last : Nat) (s : State) : State :=
  sregs [(20, 0x40100000)] (poke ([(0x100000, 1), (0x100002, BitVec.ofNat 8 (16 + m)), (0x10000A, 0x20), (0x10000B, 0x40), (0x100012, 0x10),
    (0x10001A, 0x30), (0x10001B, 0x40), (0x100020, 64)] ++ if last = 0 then [] else [(0x100038, BitVec.ofNat 8 last)]) (paged { s with ctxs := s.ctxs ++ [Context.fresh 1 false] }))

/-- A running block of context 1 on die 0. -/
def otherBlock (s : State) : State :=
  { s with launches := s.launches ++ (s.launches[0]?.map fun l => { l with ctx := 1 }).toList,
           blocks := s.blocks ++ (s.blocks[0]?.map fun b => { b with launch := 1, cores := [1] }).toList }

/-- The bytes of the descriptor that s20:s21 name, as its word reads them. -/
def descBytes (s : State) (x : Iss) : Option (List Byte) :=
  match s.xlate x.w x.wp wantLoad 64 64 (x.rd 0 (.s 20) 2) with
  | .ok q => some ((List.range 64).map fun k => s.loadByte x q (q.pa + k))
  | _ => none

/-- R342, R343, R351: a good descriptor of each mode, with a block of the target that runs, and a malformed one. -/
theorem witness_PreemptWords :
    (let i : Instr := .preemptSliceEnd (.s 20) tl
    holds (described 0 0 (otherBlock (put i))) i fun s x => commands s x && (s.ctx? 1).isSome && s.preempts.isEmpty && (descBytes s x).any fun (bytes : List Byte) => let f := fun (a n : Nat) => leNat ((bytes.drop a).take n); decide (f 0 2 = 1 ∧ f 2 1 / 4 % 4 = 0 ∧ f 3 5 = 0 ∧ f 8 8 % 4096 = 0 ∧ f 0x18 8 % 32 = 0 ∧ f 0x28 8 % 8 = 0 ∧ f 0x38 8 = 0 ∧ f 2 1 % 4 = 0 ∧ 0 < f 0x20 4)) = true ∧
    (let i : Instr := .preemptAdaptive (.s 20) tl
    holds (described 1 0 (otherBlock (put i))) i fun s x => commands s x && (s.ctx? 1).isSome && s.preempts.isEmpty && (descBytes s x).any fun (bytes : List Byte) => let f := fun (a n : Nat) => leNat ((bytes.drop a).take n); decide (f 0 2 = 1 ∧ f 2 1 / 4 % 4 = 0 ∧ f 3 5 = 0 ∧ f 8 8 % 4096 = 0 ∧ f 0x18 8 % 32 = 0 ∧ f 0x28 8 % 8 = 0 ∧ f 0x38 8 = 0 ∧ f 2 1 % 4 = 1 ∧ 0 < f 0x20 4)) = true ∧
    (let i : Instr := .preemptSave (.s 20) tl
    holds (described 2 0 (otherBlock (put i))) i fun s x => commands s x && (s.ctx? 1).isSome && s.preempts.isEmpty && (descBytes s x).any fun (bytes : List Byte) => let f := fun (a n : Nat) => leNat ((bytes.drop a).take n); decide (f 0 2 = 1 ∧ f 2 1 / 4 % 4 = 0 ∧ f 3 5 = 0 ∧ f 8 8 % 4096 = 0 ∧ f 0x18 8 % 32 = 0 ∧ f 0x28 8 % 8 = 0 ∧ f 0x38 8 = 0 ∧ f 2 1 % 4 = 2 ∧ 0 < f 0x20 4)) = true ∧
    (let i : Instr := .preemptRestore (.s 20) tl
    holds (described 3 0 (otherBlock (put i))) i fun s x => commands s x && (s.ctx? 1).isSome && s.preempts.isEmpty && (descBytes s x).any fun (bytes : List Byte) => let f := fun (a n : Nat) => leNat ((bytes.drop a).take n); decide (f 0 2 = 1 ∧ f 2 1 / 4 % 4 = 0 ∧ f 3 5 = 0 ∧ f 8 8 % 4096 = 0 ∧ f 0x18 8 % 32 = 0 ∧ f 0x28 8 % 8 = 0 ∧ f 0x38 8 = 0 ∧ f 2 1 % 4 = 3 ∧ 0 < f 0x20 4)) = true ∧
    (let i : Instr := .preemptSave (.s 20) tl
    holds (described 2 8 (put i)) i fun s x => commands s x && canTrap s x && (descBytes s x).any fun (bytes : List Byte) => leNat (bytes.drop 0x38) != 0) = true := by
  refine ⟨?_, ?_, ?_, ?_, ?_⟩ <;> decide +kernel

/-- R340: a context with a running block and a launch queue. -/
theorem witness_HaltWord :
    (let i : Instr := .halt (.s 4) tl
    holds ((fun s => { otherBlock s with ctxs := s.ctxs ++ [Context.fresh 1 false], queues := s.queues.modify 3 fun q => { q with ctl := 0x80000001000000CA } }) (sregs [(4, 1)] (put i))) i fun s x => commands s x && x.rd1 0 (.s 4) % 2 ^ 16 == 1 && s.ctxOf x.wp != 1 && s.pipes.isEmpty && (s.blocks[(1 : Nat)]?).any (·.st == .running)) = true := by
  decide

/-- No word is at issue; the warp stands between clauses. -/
def idle (s : State) : State := onWarp (fun w => { w with clause := none }) { s with cur := none }

def nop1 : State := put (.nop tl)

/-- The warp stands at 0x4000_0000, where a header for one word and a word are in L2. -/
def fetching : State :=
  onLanes (fun _ y => { y with pc := 0x40000000 }) (idle { mapped nop1 with lines := [aLine 0 [(7, 0xF0), (14, 0x10), (15, 7)]] })

/-- Two warps of one partition stand at 0x4000_0000; the second one is of a higher class. -/
def rivalling : State :=
  { fetching with warps := fetching.warps.flatMap fun w => [{ w with cls := 1 }, { w with num := 1, cls := 0 }] }

/-- The lanes 4 and 5 wait at j3, whose only members they are; lane 5 has arrived. -/
def orphans : State :=
  onWarp (fun w => { w with sets := w.sets.set 3 (0x30, 0x20) }) (onLanes (fun l y => if l = 4 then { y with st := .waiting (.jwait 3) } else y) (idle nop1))

/-- R45, R256, R257, R274, R275, R384: a warp held in its clause, one to fetch for, an orphaned group, a watchdog that has run out, a word of an octave warp. -/
theorem witness_IssueEvents :
    (fun s : State => (s.warps[(0 : Nat)]?).any fun wp => !wp.ended && s.eligible wp && wp.clause.isSome && s.cur.isNone && !s.orphaned)
    ({ nop1 with cur := none }) = true ∧
    (fun s : State => (s.warps[(0 : Nat)]?).any fun wp => !wp.ended && wp.clause.isNone && wp.yielded.isNone && decide (wp.nextIssue ≤ s.clk.cyc) && decide (s.clk.tickAcc < s.clk.coreMHz) && decide (s.clk.uAcc < s.clk.coreMHz) &&
        decide (s.clk.cyc < wp.lastIssue + 64) && ((s.rivals 0 wp)[(0 : Nat)]?).any (fun e => decide (e.1.nextIssue ≤ s.clk.cyc ∧ e.1.cls < wp.cls)) &&
        (s.rivals 0 wp).all fun e => decide (s.clk.cyc < e.1.lastIssue + 64))
    (rivalling) = true ∧
    (fun s : State => (s.warps[(0 : Nat)]?).any fun wp => !wp.ended && s.cur.isNone && !s.orphaned && s.eligible wp && wp.clause.isNone && wp.yielded.isNone && s.warps.length == 1 && wp.pend.isEmpty && wp.lanes.length == 32 &&
        wp.lanes.all (fun y => y.pc == 0x40000000 && y.hdr.isNone && y.st == .standing) &&
        match s.fetchAt 0 wp 0x40000000 with
        | .word hw => (decodeHeader hw).any fun d => wp.maskHolds d.mask && match (s.tlbUse wp 0x40000000).fetchWords 0 wp 0x40000008 d.count with | .ok ws => ws == [0x0710000000000000] | _ => false
        | _ => false)
    (fetching) = true ∧
    (fun s : State => (s.warps[(0 : Nat)]?).any fun wp => !wp.ended && (wp.setOf 3).1 &&& ~~~(wp.setOf 3).2 == 0x10 && (wp.lanes[(4 : Nat)]?).any (·.st == .waiting (.jwait 3)) && s.handlerOf wp != 0 && wp.lanes.all (fun y => !y.handler))
    (orphans) = true ∧
    (fun s : State => (s.warps[(0 : Nat)]?).any fun wp => !wp.ended && wp.orphans.isEmpty && (s.blkOf wp).any (·.st == .running) && wp.wctl.getLsbD 1 && wp.wdFrom == some 5 && s.handlerOf wp != 0 && wp.lanes.all (fun y => !y.handler))
    (onWarp (fun w => { w with wctl := 2, wdFrom := some 5 }) (onLanes (fun l y => if l = 4 then { y with st := .waiting (.mwait 3) } else y) (idle nop1))) = true ∧
    (fun s : State => (s.warps[(0 : Nat)]?).any fun wp => !wp.ended && s.octave wp && wp.clause.any fun k => k.waits && match k.words with | d :: _ => isCompared (Decode.raw d.toNat).2 | [] => false)
    (onWarp (fun w => { w with clause := w.clause.map fun k => { k with waits := true } }) (onInfo (fun r => { r with flags := 2 }) (put (.st .n32 (.v 6) (.v 2) 0 .dev .rlx .normal ct)))) = true := by
  decide

/-- A request of the warp for four bytes at line 0, of lane 0. -/
def aReq (op : ReqOp) (st : ReqSt) : Req :=
  { id := 3, owner := ⟨0, 0, 0⟩, warp := 0, seq := 1, word := 0x10008, grp := 1, op := op, scope := .dev, order := .rlx, hint := .normal, cls := 0, loc := none,
    place := ⟨0, 0, 0, true, 0, 0⟩, accs := [⟨0, 0x40000000, 0, 4, [1, 2, 3, 4], List.replicate 4 none⟩], ctr := none, unif := false, mask := 1,
    floor := false, serves := false, bounces := 0, reason := 0, st := st, due := 0, stale := false, fault := none, admitted := true, hops := [], waitFrom := none, took := 0, poison := false }

/-- The request is the only one, and v9 of lane 0 is owed to it. -/
def asked (r : Req) : State :=
  onWarp (fun w => { w with pend := pendTag 0 (.v 9) 3 1 }) { idle nop1 with reqs := [r], nextId := 9 }

def under (s : State) (r : Req) : Bool := s.reqs == [r]

/-- R88, R196, R210: a reply of a signed byte, of an atomic, and an acknowledgement of a store. -/
theorem witness_ReplyEvents :
    (fun s : State => under s ({ aReq (.load .i8 (.v 9)) .ordered with accs := [⟨0, 0x40000000, 0, 1, [], [some 0x85]⟩] }) && (s.warps[(0 : Nat)]?).any fun w => w.pend.all fun p => match p.dst with | .v l k => decide (l < 64 ∧ k < 256) | _ => false)
    (asked { aReq (.load .i8 (.v 9)) .ordered with accs := [⟨0, 0x40000000, 0, 1, [], [some 0x85]⟩] }) = true ∧
    (fun s : State => under s ({ aReq (.load .i16 (.v 9)) .ordered with accs := [⟨0, 0x40000000, 0, 2, [], [some 0x85, some 0x91]⟩] }) && (s.warps[(0 : Nat)]?).any fun w => w.pend.all fun p => match p.dst with | .v l k => decide (l < 64 ∧ k < 256) | _ => false)
    (asked { aReq (.load .i16 (.v 9)) .ordered with accs := [⟨0, 0x40000000, 0, 2, [], [some 0x85, some 0x91]⟩] }) = true ∧
    (fun s : State => under s ({ aReq (.load .n32 (.v 9)) .ordered with accs := [⟨0, 0x40000000, 0, 4, [], [some 0x85, some 0, some 0, some 0x80]⟩] }) && (s.warps[(0 : Nat)]?).any fun w => w.pend.all fun p => match p.dst with | .v l k => decide (l < 64 ∧ k < 256) | _ => false)
    (asked { aReq (.load .n32 (.v 9)) .ordered with accs := [⟨0, 0x40000000, 0, 4, [], [some 0x85, some 0, some 0, some 0x80]⟩] }) = true ∧
    (fun s : State => under s ({ aReq (.atomic .add false .w32 (some (.v 9))) .ordered with accs := [⟨0, 0x40000000, 0, 4, [], [some 0x85, some 0, some 0, some 0x80]⟩] }) && (s.warps[(0 : Nat)]?).any fun w => w.pend.all fun p => match p.dst with | .v l k => decide (l < 64 ∧ k < 256) | _ => false)
    (asked { aReq (.atomic .add false .w32 (some (.v 9))) .ordered with accs := [⟨0, 0x40000000, 0, 4, [], [some 0x85, some 0, some 0, some 0x80]⟩] }) = true ∧
    (fun s : State => under s (aReq .store .ordered) && s.acked (aReq .store .ordered) && (s.warps[(0 : Nat)]?).isSome)
    (asked (aReq .store .ordered)) = true ∧
    (fun s : State => under s (aReq .cflush .ordered) && s.acked (aReq .cflush .ordered) && (s.warps[(0 : Nat)]?).isSome)
    (asked (aReq .cflush .ordered)) = true ∧
    (fun s : State => under s (aReq .cinval .ordered) && s.acked (aReq .cinval .ordered) && (s.warps[(0 : Nat)]?).isSome)
    (asked (aReq .cinval .ordered)) = true ∧
    (fun s : State => under s (aReq .prefetch .ordered) && s.acked (aReq .prefetch .ordered) && (s.warps[(0 : Nat)]?).isSome)
    (asked (aReq .prefetch .ordered)) = true := by
  decide

/-- The same, with the request's line in L2. -/
def homed (r : Req) : State := { asked r with lines := [aLine 0 [(0, 0x80), (3, 0xFF), (4, 7)]] }

def cachedHere (s : State) (r : Req) : Bool :=
  under s r && (s.lineOf? 0).any (fun l => l.key == r.place.key && l.data.length == 128) && s.forward.isEmpty && s.canServe r && r.hops.isEmpty && r.admitted && r.accs.all (fun a => (List.range a.size).all fun k => (s.served r (a.pa + k)).isNone) && s.launches.all fun k => !k.rollback

/-- R76, R88, R195, R200: a load, a store and an atomic that stand at the head of their slice's queue. -/
theorem witness_HomeEvents :
    (fun s : State => cachedHere s (aReq (.load .n32 (.v 9)) .flight) && s.queueOf 0 0 false == [aReq (.load .n32 (.v 9)) .flight])
    (homed (aReq (.load .n32 (.v 9)) .flight)) = true ∧
    (fun s : State => cachedHere s (aReq .store .flight) && s.queueOf 0 0 false == [aReq .store .flight])
    (homed (aReq .store .flight)) = true ∧
    (fun s : State => cachedHere s (aReq (.atomic .add false .w32 none) .flight) && s.queueOf 0 0 true == [aReq (.atomic .add false .w32 none) .flight])
    (homed (aReq (.atomic .add false .w32 none) .flight)) = true := by
  refine ⟨?_, ?_, ?_⟩ <;> decide +kernel

def probe1 : Probe := ⟨5, 0, some 0, none, false, 0, some 3⟩

/-- A place at the host. -/
def hostPlace1 (k : Bool) : Place := ⟨2, 0, 0, k, 0, 0⟩

/-- R206, R207, R211, R217, R226, R233: a request in flight, with a token at both ends of its count of bounces, bounced and due, at a peer, at the host; a probe not yet sent and one to answer; a dirty line of tier 2; a write-back. -/
theorem witness_RequestEvents :
    (fun s : State => under s ({ aReq .store .flight with waitFrom := some (0, 512) }) && s.reqs.all s.sheltered)
    (asked { aReq .store .flight with waitFrom := some (0, 512) }) = true ∧
    (fun s : State => under s ({ aReq .store .flight with waitFrom := some (0, 512), cls := 3 }) && s.reqs.all (·.waitFrom.isSome))
    (asked { aReq .store .flight with waitFrom := some (0, 512), cls := 3 }) = true ∧
    (fun s : State => under s ({ aReq .store (.token 4) with bounces := 0 }))
    (asked { aReq .store (.token 4) with bounces := 0 }) = true ∧
    (fun s : State => under s ({ aReq .store (.token 4) with bounces := 62 }))
    (asked { aReq .store (.token 4) with bounces := 62 }) = true ∧
    (fun s : State => under s ((aReq .store .bounced)) && decide (s.clk.tickAcc < s.clk.coreMHz) && decide (s.clk.uAcc < s.clk.coreMHz))
    (asked (aReq .store .bounced)) = true ∧
    (fun s : State => under s ({ aReq .store .flight with place := ⟨3, 2 ^ 42, 0, false, 0, 0⟩, accs := [⟨0, 0x40000000, 2 ^ 42, 4, [1, 2, 3, 4], List.replicate 4 none⟩] }) && s.reqs.all (fun q => (s.portOf q).isSome) && s.peerWrites.isEmpty && s.lines.isEmpty && s.wbs.isEmpty && s.reqs.all s.leads)
    ({ asked ({ aReq .store .flight with place := ⟨3, 2 ^ 42, 0, false, 0, 0⟩, accs := [⟨0, 0x40000000, 2 ^ 42, 4, [1, 2, 3, 4], List.replicate 4 none⟩] }) with dies := (idle nop1).dies.modify 0 fun d => { d with fabric := [(1, BitVec.ofNat 64 (2 ^ 63 + 2 ^ 45 + 9))] } }) = true ∧
    (fun s : State => under s ({ aReq (.atomic .add false .w64 none) .flight with place := hostPlace1 false, accs := [⟨0, 0x40000000, 0, 8, leBytes 8 1, List.replicate 8 none⟩] }) && s.reqs.all s.leads && s.lines.all (fun l => l.line != 2 * 2 ^ 45) && s.wbs.isEmpty)
    (asked { aReq (.atomic .add false .w64 none) .flight with place := hostPlace1 false, accs := [⟨0, 0x40000000, 0, 8, leBytes 8 1, List.replicate 8 none⟩] }) = true ∧
    (fun s : State => under s ((aReq .store .flight)) && s.probes == [probe1])
    ({ asked (aReq .store .flight) with probes := [probe1] }) = true ∧
    (fun s : State => under s ({ aReq (.load .n32 (.v 9)) .probing with owner := ⟨0, 8, 0⟩ }) && s.warps.all fun w => w.fences.all fun f => !f.pending)
    ({ asked { aReq (.load .n32 (.v 9)) .probing with owner := ⟨0, 8, 0⟩ } with probes := [{ probe1 with sent := true, upTo := 1 }] }) = true ∧
    (fun s : State => under s ({ aReq .store .ordered with scope := .sys, place := hostPlace1 true }))
    ({ asked { aReq .store .ordered with scope := .sys, place := hostPlace1 true } with lines := [{ aLine (2 * 2 ^ 45) [(0, 1)] with own := some ⟨0, 0, 0⟩ }] }) = true ∧
    (fun s : State => under s ((aReq .store .flight)) && s.wbs.length == 1)
    ({ asked (aReq .store .flight) with wbs := [⟨1, 2 * 2 ^ 45, 4, [7, 8], none⟩] }) = true := by
  decide

/-- `Cached`, as it is evaluated. -/
def cached (s : State) (p : Place) : Bool :=
  (s.lineOf? (lineOf p.tier p.pa)).any (fun l => l.key == p.key && l.data.length == 128) && decide (p.tier ≤ 1) && s.forward.isEmpty

/-- `Hits`, as it is evaluated where the bytes go to one line in L2: what is written before a byte stands in that line alone. -/
def hitsIn (die c : Nat) (s : State) (ln : Nat) : List Byte → Place → List (Nat × Byte) → Bool
  | _, _, [] => true
  | d, p, (va, b) :: ws =>
    let u := { s with lines := s.lines.map fun (x : Line) => if x.line == ln then { x with data := d, dirty := true } else x }
    (match u.xlateUnit die c wantEWrite va with | .ok q => q == p | _ => false) && lineOf p.tier p.pa == ln &&
      hitsIn die c s ln (patch d (p.pa % 128) [b]) { p with pa := p.pa + 1 } ws

def hits (die c : Nat) (s : State) (p : Place) (ws : List (Nat × Byte)) : Bool :=
  (s.lineOf? (lineOf p.tier p.pa)).any fun l => hitsIn die c s l.line l.data p ws

def avoids (die c line : Nat) : State → List (Nat × Byte) → Bool
  | _, [] => true
  | s, (va, b) :: ws => (match s.xlateUnit die c wantEWrite va with | .ok z => lineOf z.tier z.pa != line | _ => true) &&
      avoids die c line (s.writeVirt die c va [b]) ws

def aWalk (va : Nat) : Walk := { id := 4, die := 0, cluster := 0, core := 0, warp := some 0, ctx := 0, va := va, bounces := 0, cls := 0, queued := true, started := true, stored := false, due := 0, waitFrom := none }

/-- R68, R73, R329, R330: a walk that finds the 1 GiB leaf, one that meets an entry that is not valid, and a fault to post where the queue has one place left. -/
theorem witness_WalkEvents :
    (fun s : State => (match s.walk (s.diesWith 0) 0 0x40012345 with | .ok z l => z == 30 && l == 0x1F && (s.leafOwn (aWalk 0x40012345) z l).isNone | _ => false))
    ({ bindable (idle nop1) with tlb := [], walks := [aWalk 0x40012345] }) = true ∧
    (fun s : State => (match s.walk (s.diesWith 0) 0 0x80000000 with | .bad g k l _ => g == 3 && k == 1 && l == 2 | _ => false))
    ({ bindable (idle nop1) with tlb := [], walks := [aWalk 0x80000000] }) = true ∧
    (fun s : State => (s.ctx? 0).any (fun k => k.posts == [anEntry] && k.fqCount == some 16 && decide ((k.fqtail - k.fqhead).toNat < 16)) && !s.unitHeld 0 0 (0x40110000 + 128 * 15) 128 && cached s ⟨0, 0x110780, 0, true, 0, 1⟩ && hits 0 0 s ⟨0, 0x110780, 0, true, 0, 1⟩ (bytesAt 0x40110780 anEntry.bytes))
    ((fun s => { s with lines := s.lines.take 3 ++ [aLine 0x220F []], ctxs := s.ctxs.map fun k => { k with fqbase := 0x40110004, fqhead := 0, fqtail := 15, posts := [anEntry] } }) (bindable (idle nop1))) = true := by
  refine ⟨?_, ?_, ?_⟩ <;> decide +kernel

/-- A copy of the block, from the window's byte 0x40 to its byte 0x1000, n bytes. -/
def aCopy (n : Nat) (st : CmdSt) : Copy :=
  { id := 4, turn := 4, core := 0, blk := 0, warp := 0, lane := 0, word := 0x10008, op := .copy, dst := windowBase + 0x1000, src := windowBase + 0x40, n := n, size := 1,
    idx := 0, pat := 0, bar := none, out := false, units := 0, kept := [], ctr := none, grp := 1, win := 0, bounces := 0, due := 0, waitFrom := none, st := st }

def copyingNow (k : Copy) : State := onBlock (fun b => b.setBytes 0x40 [9, 8, 7]) { idle nop1 with copies := [k], nextId := 9 }

/-- A multicast of 65 bytes at 0x200 of its receiver, block 0, of which v beats have been delivered. -/
def aMcast (v : Nat) : Mcast :=
  { id := 6, turn := 6, core := 0, blk := 0, warp := 0, lane := 0, word := 0x10008, off := 0x200, src := 0x40000000, n := 65, read := true,
    data := List.replicate 64 5 ++ [6], bar := none, left := [(0, v)], ctr := none, grp := 1, told := false, orphan := false, st := .running 0 }

/-- R96 to R105: a queued command, one that has no line yet, one that is done, a line that is done, a unit within a line, and a multicast's first and last beat. -/
theorem witness_CopyEngineEvents :
    (fun s : State => s.copies == [aCopy 64 .queued] && (s.warps[(0 : Nat)]?).isSome && (s.blocks[(0 : Nat)]?).isSome && s.mcasts.isEmpty)
    ((copyingNow (aCopy 64 .queued))) = true ∧
    (fun s : State => s.copies == [{ aCopy 4096 (.running 0) with dst := 0x4000007F }] && (s.warps[(0 : Nat)]?).isSome && (s.blocks[(0 : Nat)]?).isSome && s.heldBy.isEmpty && s.reqs.isEmpty && (s.copies.all fun k => decide (k.due ≤ s.clk.ucyc)) && (List.range 33).all fun j => !s.coreMiss 0 0 (max (0x40000000 + 128 * j) 0x4000007F) && (s.warps[(0 : Nat)]?).any fun wp => (s.blocks[(0 : Nat)]?).any fun b => match s.spot 0 (s.ctxOf wp) b wantEWrite (max (0x40000000 + 128 * j) 0x4000007F) with | .mem p => lineOf p.tier p.pa == j | _ => false)
    ((fun s => { s with tlb := [⟨0, 0, 0x40000000, 21, 0x1F, none⟩] }) (copyingNow ({ aCopy 4096 (.running 0) with dst := 0x4000007F }))) = true ∧
    (fun s : State => s.copies == [{ aCopy 64 (.running 1) with units := 1 }] && (s.warps[(0 : Nat)]?).isSome && (s.blocks[(0 : Nat)]?).isSome && s.peerWrites.isEmpty && s.copies.all fun k => decide (k.bytes ≤ 64 * k.units))
    ((copyingNow ({ aCopy 64 (.running 1) with units := 1 }))) = true ∧
    (fun s : State => s.copies.all (fun k => s.copyLineDone k 0) && s.copies.length == 1 && (s.warps[(0 : Nat)]?).isSome && (s.blocks[(0 : Nat)]?).isSome)
    ({ copyingNow { aCopy 256 (.running 0) with dst := 0x40000000, units := 3, win := 2 } with heldBy := [⟨0, .copy 0 4⟩, ⟨1, .copy 0 4⟩], tlb := [⟨0, 0, 0x40000000, 21, 0x1F, some 0⟩] }) = true ∧
    (fun s : State => s.copies == [aCopy 1 (.running 0)] && (s.warps[(0 : Nat)]?).isSome && (s.blocks[(0 : Nat)]?).isSome && (s.blocks[(0 : Nat)]?).any (fun b => s.windowOk b (windowBase + 0x40) 64 && s.windowOk b (windowBase + 0x1000) 64) && s.rings.isEmpty && s.mcasts.isEmpty && s.reqs.isEmpty)
    ((copyingNow (aCopy 1 (.running 0)))) = true ∧
    (fun s : State => s.copies == [aCopy 64 (.running 0)] && (s.warps[(0 : Nat)]?).isSome && (s.blocks[(0 : Nat)]?).isSome && (s.blocks[(0 : Nat)]?).any (fun b => s.windowOk b (windowBase + 0x40) 64 && s.windowOk b (windowBase + 0x1000) 64) && s.rings.isEmpty && s.mcasts.isEmpty && s.reqs.isEmpty)
    ((copyingNow (aCopy 64 (.running 0)))) = true ∧
    (fun s : State => s.copies == [{ aCopy 33 (.running 0) with bar := some 0x3000, out := false }] && (s.warps[(0 : Nat)]?).isSome && (s.blocks[(0 : Nat)]?).isSome && (s.blocks[(0 : Nat)]?).any (fun b => s.windowOk b (windowBase + 0x40) 64 && s.windowOk b (windowBase + 0x1000) 64 && b.bad.isEmpty) && s.rings.isEmpty && s.mcasts.isEmpty && s.reqs.isEmpty && s.warps.all (fun w => w.lanes.all fun y => match y.st with | .waiting (.bwait _ _ _ _ _) => false | _ => true) && let o := s.barAt 0 0x3000; !o.fault && (decide (0 < o.pend) || (o.inb == 1 && o.outb == 0)))
    (onBlock (fun b => b.setBytes 0x3000 (leBytes 16 (1 + 5 * 2 ^ 4 + 2 ^ 36))) (copyingNow ({ aCopy 33 (.running 0) with bar := some 0x3000, out := false }))) = true ∧
    (fun s : State => s.copies == [{ aCopy 33 (.running 0) with bar := some 0x3000, out := false }] && (s.warps[(0 : Nat)]?).isSome && (s.blocks[(0 : Nat)]?).isSome && (s.blocks[(0 : Nat)]?).any (fun b => s.windowOk b (windowBase + 0x40) 64 && s.windowOk b (windowBase + 0x1000) 64 && b.bad.isEmpty) && s.rings.isEmpty && s.mcasts.isEmpty && s.reqs.isEmpty && s.warps.all (fun w => w.lanes.all fun y => match y.st with | .waiting (.bwait _ _ _ _ _) => false | _ => true) && let o := s.barAt 0 0x3000; !o.fault && (decide (0 < o.pend) || (o.inb == 1 && o.outb == 0)))
    (onBlock (fun b => b.setBytes 0x3000 (leBytes 16 (1 + 5 * 2 ^ 4 + 3 * 2 ^ 20 + 7 * 2 ^ 36))) (copyingNow ({ aCopy 33 (.running 0) with bar := some 0x3000, out := false }))) = true ∧
    (fun s : State => s.copies == [{ aCopy 33 (.running 0) with bar := some 0x3000, out := true }] && (s.warps[(0 : Nat)]?).isSome && (s.blocks[(0 : Nat)]?).isSome && (s.blocks[(0 : Nat)]?).any (fun b => s.windowOk b (windowBase + 0x40) 64 && s.windowOk b (windowBase + 0x1000) 64 && b.bad.isEmpty) && s.rings.isEmpty && s.mcasts.isEmpty && s.reqs.isEmpty && s.warps.all (fun w => w.lanes.all fun y => match y.st with | .waiting (.bwait _ _ _ _ _) => false | _ => true) && let o := s.barAt 0 0x3000; !o.fault && (decide (0 < o.pend) || (o.inb == 1 && o.outb == 0)))
    (onBlock (fun b => b.setBytes 0x3000 (leBytes 16 (1 + 5 * 2 ^ 4 + 3 * 2 ^ 20 + 7 * 2 ^ 68))) (copyingNow ({ aCopy 33 (.running 0) with bar := some 0x3000, out := true }))) = true ∧
    (fun s : State => s.mcasts == [{ aMcast 0 with bar := some 0x3000 }] && (s.blocks[(0 : Nat)]?).any (fun d => d.st == .running && decide (0x3010 ≤ s.shareOf d)) && s.reqs.isEmpty && !s.rangeBlocks 0 0 0x200 64 true 6 && decide (s.rangesUsed 0 < 32) && let o := s.barAt 0 0x3000; !o.fault && decide (0 < o.pend))
    (onBlock (fun b => b.setBytes 0x3000 (leBytes 16 (1 + 5 * 2 ^ 4 + 3 * 2 ^ 20 + 7 * 2 ^ 36))) { idle nop1 with mcasts := [{ aMcast 0 with bar := some 0x3000 }], nextId := 9 }) = true ∧
    (fun s : State => s.mcasts == [aMcast 0] && (s.blocks[(0 : Nat)]?).any (fun d => d.st == .running && decide (0x200 + 65 ≤ s.shareOf d)) && s.reqs.isEmpty && !s.rangeBlocks 0 0 (0x200 + 64 * 0) 64 true 6 && decide ((0 : Nat) = 0 → s.rangesUsed 0 < 32))
    ({ idle nop1 with mcasts := [aMcast 0], nextId := 9 }) = true ∧
    (fun s : State => s.mcasts == [aMcast 1] && (s.blocks[(0 : Nat)]?).any (fun d => d.st == .running && decide (0x200 + 65 ≤ s.shareOf d)) && s.reqs.isEmpty && !s.rangeBlocks 0 0 (0x200 + 64 * 1) 1 true 6 && decide ((1 : Nat) = 0 → s.rangesUsed 0 < 32))
    ({ idle nop1 with mcasts := [aMcast 1], nextId := 9 }) = true := by
  decide

/-- R172, R178, R186, R187: a queued command, one that is done, `mzero` on the last tile, a band of one row. -/
theorem witness_MatrixEngineEvents :
    (fun s : State => s.mx == [command (.mma false) 0 1 .queued] && (s.warps[(0 : Nat)]?).isSome && (s.blocks[(0 : Nat)]?).isSome && (s.blocks[(0 : Nat)]?).any (·.faults.isEmpty))
    ({ idle (matrix nop1) with mx := [command (.mma false) 0 1 .queued], nextId := 9 }) = true ∧
    (fun s : State => s.mx == [{ command (.mdrain true) 0 1 (.running 0) with row := 4 }] && (s.warps[(0 : Nat)]?).isSome && (s.blocks[(0 : Nat)]?).isSome && (s.blocks[(0 : Nat)]?).any (·.faults.isEmpty) && s.peerWrites.isEmpty && s.mx.all fun k => decide (k.rowsAll ≤ k.row))
    ({ idle (matrix nop1) with mx := [{ command (.mdrain true) 0 1 (.running 0) with row := 4 }], nextId := 9 }) = true ∧
    (fun s : State => s.mx == [command .mzero 63 1 (.running 0)] && (s.warps[(0 : Nat)]?).isSome && (s.blocks[(0 : Nat)]?).isSome && (s.blocks[(0 : Nat)]?).any (·.faults.isEmpty))
    (onBlock (fun b => { b with tiles := [(0, 5), (62 * 1024 + 1023, 9), (63 * 1024, 7), (63 * 1024 + 1023, 8)] }) { idle (matrix nop1) with mx := [command .mzero 63 1 (.running 0)], nextId := 9 }) = true ∧
    (fun s : State => s.mx == [command (.mma true) 0 1 (.running 0)] && (s.warps[(0 : Nat)]?).isSome && (s.blocks[(0 : Nat)]?).isSome && (s.blocks[(0 : Nat)]?).any (·.faults.isEmpty) && (s.warps[(0 : Nat)]?).any (fun wp => (s.blocks[(0 : Nat)]?).any fun b => s.mx.all fun k => decide (0 < k.rowsAll ∧ k.rowsAll ≤ 8 ∧ k.due ≤ s.clk.ucyc) && match s.band k (s.ctxOf wp) b 1 with | .ok d => d.bytes.isEmpty && d.elems.filter (fun e => e.1 == 0 && e.2.1 == 0) == [(0, 0, 6)] && d.elems.all fun e => decide (e.1 < 32 ∧ e.2.1 < 32) | _ => false))
    (onBlock (fun b => (b.setBytes 0 [2]).setBytes 0x1000 [3]) { idle (matrix nop1) with mx := [command (.mma true) 0 1 (.running 0)], nextId := 9 }) = true := by
  decide

/-- `BandReady`, and bytes of the window that a command may read, as they are evaluated. -/
def bandReady (s : State) (c : MxCmd) : Bool :=
  (s.warps[0]?).any fun wp => (s.blocks[0]?).any fun b =>
    c.st == .running 0 && c.op != .mzero && decide (c.row < c.rowsAll) && decide (c.due ≤ s.clk.ucyc) && s.poison.isEmpty && b.bad.isEmpty &&
      (bandVas c (bandTo c) ++ bandStores c (bandTo c)).all fun a => !s.coreMiss c.core (s.ctxOf wp) a

def spanFree (s : State) (c : MxCmd) (w : Bool) (off n : Nat) : Bool :=
  (s.warps[0]?).any fun wp => (s.blocks[0]?).any fun b => (List.range n).all fun i =>
    s.spot c.core (s.ctxOf wp) b (if w then wantEWrite else wantERead) (windowBase + off + i) == .loc (off + i) && !s.mxBusy c w (.loc (off + i))

/-- R174, R175, R178 to R182: a band of an integer and of a float multiply, raw and converting loads, raw and scaled drains. -/
theorem witness_MatrixValues :
    (fun s : State => s.mx == [{ command (.mma true) 0 1 (.running 0) with slot := 0, shape := BitVec.ofNat 64 (4 * 2 ^ 48 + 4 * 2 ^ 32 + 3 * 1024 + 1 * 32 + 1) }] && s.mx.all fun k => bandReady s k && spanFree s k false 0 3 && spanFree s k false 0x1000 10)
    (onBlock (fun b => (b.setBytes 0 [2, 0xFF, 3]).setBytes 0x1000 [1, 5, 0, 0, 0x80, 1, 0, 0, 7, 2]) { idle (matrix nop1) with mx := [{ command (.mma true) 0 1 (.running 0) with slot := 0, shape := BitVec.ofNat 64 (4 * 2 ^ 48 + 4 * 2 ^ 32 + 3 * 1024 + 1 * 32 + 1) }], nextId := 9 }) = true ∧
    (fun s : State => s.mx == [{ command (.mma true) 0 1 (.running 0) with slot := 0x155, shape := BitVec.ofNat 64 (2 * 2 ^ 48 + 4 * 2 ^ 32 + 2 * 1024 + 0 * 32 + 1) }] && s.mx.all fun k => bandReady s k && spanFree s k false 0 4 && spanFree s k false 0x1000 4)
    (onBlock (fun b => (b.setBytes 0 [0xC0, 0x3F, 0x00, 0x40]).setBytes 0x1000 [0x00, 0x40, 0x40, 0x40]) { idle (matrix nop1) with mx := [{ command (.mma true) 0 1 (.running 0) with slot := 0x155, shape := BitVec.ofNat 64 (2 * 2 ^ 48 + 4 * 2 ^ 32 + 2 * 1024 + 0 * 32 + 1) }], nextId := 9 }) = true ∧
    (fun s : State => s.mx == [{ command (.mload true) 0 1 (.running 0) with slot := 0, shape := BitVec.ofNat 64 (0 * 2 ^ 48 + 32 * 2 ^ 32 + 1 * 1024 + 1 * 32 + 1) }] && s.mx.all fun k => bandReady s k && spanFree s k false 0 20)
    (onBlock (fun b => b.setBytes 0 ((List.range 20).map fun k => BitVec.ofNat 8 (k + 1))) { idle (matrix nop1) with mx := [{ command (.mload true) 0 1 (.running 0) with slot := 0, shape := BitVec.ofNat 64 (0 * 2 ^ 48 + 32 * 2 ^ 32 + 1 * 1024 + 1 * 32 + 1) }], nextId := 9 }) = true ∧
    (fun s : State => s.mx == [{ command (.mload false) 0 1 (.running 0) with slot := 0, shape := BitVec.ofNat 64 (0 * 2 ^ 48 + 4 * 2 ^ 32 + 1 * 1024 + 1 * 32 + 1) }] && s.mx.all fun k => bandReady s k && spanFree s k false 0 2)
    (onBlock (fun b => b.setBytes 0 [0x80, 0x7F]) { idle (matrix nop1) with mx := [{ command (.mload false) 0 1 (.running 0) with slot := 0, shape := BitVec.ofNat 64 (0 * 2 ^ 48 + 4 * 2 ^ 32 + 1 * 1024 + 1 * 32 + 1) }], nextId := 9 }) = true ∧
    (fun s : State => s.mx == [{ command (.mload false) 0 1 (.running 0) with slot := (5 * 512 + 256), shape := BitVec.ofNat 64 (0 * 2 ^ 48 + 4 * 2 ^ 32 + 1 * 1024 + 0 * 32 + 1) }] && s.mx.all fun k => bandReady s k && spanFree s k false 0 2)
    (onBlock (fun b => b.setBytes 0 [0x10, 0x41]) { idle (matrix nop1) with mx := [{ command (.mload false) 0 1 (.running 0) with slot := (5 * 512 + 256), shape := BitVec.ofNat 64 (0 * 2 ^ 48 + 4 * 2 ^ 32 + 1 * 1024 + 0 * 32 + 1) }], nextId := 9 }) = true ∧
    (fun s : State => s.mx == [{ command (.mdrain true) 0 1 (.running 0) with slot := 0, shape := BitVec.ofNat 64 (0 * 2 ^ 48 + 16 * 2 ^ 32 + 1 * 1024 + 0 * 32 + 1) }] && s.mx.all fun k => bandReady s k && spanFree s k true 0 10)
    (onBlock (fun b => { b with tiles := [(0, 0x0A090807060504030201)] }) { idle (matrix nop1) with mx := [{ command (.mdrain true) 0 1 (.running 0) with slot := 0, shape := BitVec.ofNat 64 (0 * 2 ^ 48 + 16 * 2 ^ 32 + 1 * 1024 + 0 * 32 + 1) }], nextId := 9 }) = true ∧
    (fun s : State => s.mx == [{ command (.mdrain false) 0 1 (.running 0) with slot := (65536 + 8192), shape := BitVec.ofNat 64 (0 * 2 ^ 48 + 16 * 2 ^ 32 + 1 * 1024 + 0 * 32 + 1), rs := windowBase + 0x2000 }] && s.mx.all fun k => bandReady s k && spanFree s k true 0 1 && spanFree s k false 0x2000 4)
    (onBlock (fun b => { b.setBytes 0x2000 [0, 0, 0xC0, 0x3F] with tiles := [(0, BitVec.ofInt 80 (-5))] }) { idle (matrix nop1) with mx := [{ command (.mdrain false) 0 1 (.running 0) with slot := (65536 + 8192), shape := BitVec.ofNat 64 (0 * 2 ^ 48 + 16 * 2 ^ 32 + 1 * 1024 + 0 * 32 + 1), rs := windowBase + 0x2000 }], nextId := 9 }) = true ∧
    (fun s : State => s.mx == [{ command (.mdrain false) 0 1 (.running 0) with slot := 0, shape := BitVec.ofNat 64 (0 * 2 ^ 48 + 16 * 2 ^ 32 + 1 * 1024 + 0 * 32 + 1) }] && s.mx.all fun k => bandReady s k && spanFree s k true 0 1)
    (onBlock (fun b => { b with tiles := [(0, 200)] }) { idle (matrix nop1) with mx := [{ command (.mdrain false) 0 1 (.running 0) with slot := 0, shape := BitVec.ofNat 64 (0 * 2 ^ 48 + 16 * 2 ^ 32 + 1 * 1024 + 0 * 32 + 1) }], nextId := 9 }) = true := by
  decide

/-- Queue 7 of the supervisor context has 16 entries at 0x4011_0000 and one launch, at its slot 15: the record at 0x4013_1000. -/
def queued (s : State) : State :=
  { s with lines := s.lines ++ [aLine 0x2200 [(121, 0x10), (122, 0x13), (123, 0x40)]],
           queues := s.queues.set 7 ⟨0x8000000000000044, 0x40110000, 32, 31, 0⟩ }

def devQueued (va : Nat) (s : State) : State := { s with ctxs := s.ctxs.map fun k => { k with devq := [⟨va, 2, 1, 5, 0, none⟩] } }

/-- R284 to R286, R339: a queue's last slot with a good record and with one that is not aligned, and a device queue with each. -/
theorem witness_LaunchDispatch :
    (fun s : State => s.dispatches.head? == some (.queue 7) && (s.queues[(7 : Nat)]?).any (fun x => x.size == some 16 && x.head != x.tail && s.read64 (s.ctxDie x.ctx) x.ctx (x.base.toNat + 8 * (x.head.toNat % 16)) == some 0x40131000) && s.launches.all (fun l => l.queue != some 7) && match s.fetchRecord 0 0x40131000 with | .ok r => r.vcount == 8 | _ => false)
    (queued (bindable (idle nop1))) = true ∧
    (fun s : State => s.dispatches.head? == some (.queue 7) && (s.queues[(7 : Nat)]?).any (fun x => x.size == some 16 && x.head != x.tail && s.read64 (s.ctxDie x.ctx) x.ctx (x.base.toNat + 8 * (x.head.toNat % 16)) == some 0x40131008) && s.launches.all (fun l => l.queue != some 7) && match s.fetchRecord 0 0x40131008 with | .error k => k == 10 | _ => false)
    ((fun s => { s with lines := s.lines.dropLast ++ [aLine 0x2200 [(120, 0x8), (121, 0x10), (122, 0x13), (123, 0x40)]] }) (queued (bindable (idle nop1)))) = true ∧
    (fun s : State => s.dispatches.head? == some (.device 0) && (s.ctx? 0).any (fun k => k.devq.length == 1) && s.launches.all (fun l => l.queue != some 256) && (s.warps[(0 : Nat)]?).isSome && match s.fetchRecord 0 0x40131000 with | .ok r => r.vcount == 8 | _ => false)
    (onWarp (fun w => { w with pend := pendTag 0 (.s 9) 5 1 }) (devQueued 0x40131000 (bindable (idle nop1)))) = true ∧
    (fun s : State => s.dispatches.head? == some (.device 0) && (s.ctx? 0).any (fun k => k.devq.length == 1) && s.launches.all (fun l => l.queue != some 256) && (s.warps[(0 : Nat)]?).isSome && match s.fetchRecord 0 0x40131008 with | .error k => k == 10 | _ => false)
    (onWarp (fun w => { w with pend := pendTag 0 (.s 9) 5 1 }) (devQueued 0x40131008 (bindable (idle nop1)))) = true := by
  refine ⟨?_, ?_, ?_, ?_⟩ <;> decide +kernel

/-- The launch's second block is to be placed. -/
def placing : State :=
  onLaunch (fun l => { l with st := .placing, info := { l.info with gx := 3, vcount := 8, scount := 8, tiles := 0, pool := 0x02000228, bx := 31 } }) { idle nop1 with placeq := [0], placeFrom := some (0, 3, 40) }

def allExited : State := onLanes (fun _ y => { y with st := .exited }) (idle nop1)

def roomFor (s : State) (c p n : Nat) (width : Nat → Nat) : Bool :=
  (s.launches[0]?).any fun l => s.shareRoom 0 l c && !s.reserved 0 c && !s.heldOn l.ctx (c / 64) && (s.ctxCores l.ctx).contains c && decide (p < 8) &&
    s.findSlot c p (l.info.slotsPer (width l.info.width)) 0 false == some n && s.warps.all (fun w => decide (w.blk < s.blocks.length)) && s.opened

/-- R193, R283, R287 to R290: a block to place in the last partition, a launch without room, a gang that is not whole, a block whose lanes have exited, a launch whose blocks have retired, with and without a signal. -/
theorem witness_LaunchEvents :
    (fun s : State => s.placeHead == some 0 && (s.launches[(0 : Nat)]?).any (fun l => l.st == .placing && !l.deferred && l.info.members == some 1 && l.info.nwarps == 1) && roomFor s 63 7 224 id)
    (placing) = true ∧
    (fun s : State => decide (0 < s.clk.coreMHz) && decide (0 < s.clk.uncMHz) && (s.launches[(0 : Nat)]?).any (fun l => l.st == .placing && !l.deferred && (s.roomFor 0 l).isNone) && s.placeHead == some 0 && s.placeFrom == some (0, 3, 40))
    ((fun s => { s with coreOwn := (List.range 64).map fun c => (c, .owned 9) }) placing) = true ∧
    (fun s : State => decide (0 < s.clk.coreMHz) && decide (0 < s.clk.uncMHz) && (s.launches[(0 : Nat)]?).any (fun l => l.st == .placing && l.gangFrom == some 9) && s.blocks.all (·.st == .running))
    (onLaunch (fun l => { l with gangFrom := some 9, info := { l.info with flags := 0x80 } }) placing) = true ∧
    (fun s : State => (s.blocks[(0 : Nat)]?).any (fun b => b.st == .running && b.pre == .none && !b.dropped && b.wave == 0 && b.faults.isEmpty) && s.warps.all (fun w => w.allExited && w.clause.isNone && w.due.isEmpty) && s.workDone 0)
    (allExited) = true ∧
    (fun s : State => (s.launches[(0 : Nat)]?).any (fun l => l.st == .placed && l.retired == l.info.blocks && l.tasks == 0) && s.pipes.isEmpty)
    (onLaunch (fun l => { l with retired := 1 }) allExited) = true ∧
    (fun s : State => (s.launches[(0 : Nat)]?).any (fun l => l.st == .complete && l.info.sigAddr == 0) && s.reqs.isEmpty && s.lines.isEmpty && s.wbs.isEmpty && s.heldBy.isEmpty)
    (onLaunch (fun l => { l with st := .complete }) allExited) = true ∧
    (fun s : State => (s.launches[(0 : Nat)]?).any (fun l => l.st == .complete && l.info.sigAddr == 0x40120008) && s.reqs.isEmpty && s.lines.isEmpty && s.wbs.isEmpty && s.heldBy.isEmpty && match s.xlateUnit 0 0 wantStore 0x40120008 with | .ok p => p.pa == 0x120008 | _ => false)
    (onLaunch (fun l => { l with st := .complete, info := { l.info with sigAddr := 0x40120008, sigVal := 0x0102030405060708 } }) (paged allExited)) = true := by
  refine ⟨?_, ?_, ?_, ?_, ?_, ?_, ?_⟩ <;> decide +kernel

def aTask : Task := ⟨0x18000, [1, 2, 3, 4, 5, 6], 9, 0, 0, 3⟩

/-- The task ring of the context, of 64 records at 0x4011_0000, holds one at its last place. -/
def taskRinged (s : State) : State :=
  { s with lines := s.lines ++ [aLine 0x221F [(65, 0x80), (66, 0x1), (72, 0x1), (76, 0x2), (80, 0x3), (84, 0x4), (88, 0x5), (92, 0x6), (96, 0x9)]],
           ctxs := s.ctxs.map fun k => { k with taskring := 0x40110006, ringHead := 63, ringTail := 64 } }

/-- R294 to R296: a record at the ring's last place, a wave of one task, a cluster with four tasks more than each of its neighbours. -/
theorem witness_TaskEvents :
    (fun s : State => (s.ctx? 0).any (fun x => x.ringSize == some 64 && decide (x.ringHead < x.ringTail)) && decide (s.queueDepth 0 3 < 4096) && (s.ctxClusters 0).contains (0, 3) && decide (s.readPiece (s.ctxDie 0) 0 (0x40110000 + 64 * 63) 64 = .ok aTask.bytes) && (s.launches[(0 : Nat)]?).any (fun l => l.ctx == 0 && l.st != .dead))
    (taskRinged (bindable (idle nop1))) = true ∧
    (fun s : State => s.tasks == [aTask] && (s.launches[(0 : Nat)]?).isSome && roomFor s 31 0 0 (fun _ => s.launches.foldl (fun _ l => l.info.waveWidth) 0))
    ({ placing with tasks := [aTask] }) = true ∧
    (fun s : State => (s.diesWith 0).contains 0 && (s.balanced.lookup 3).getD 0 == 0 && s.clk.ucyc / 256 == 1 && s.depths.1 == 0 && decide (s.queueDepth 0 4 < s.queueDepth 0 3) && ((neighbours 0 3).tail).all (fun e => decide (s.queueDepth 0 3 ≤ s.queueDepth e.1 e.2)))
    ({ idle nop1 with clk := { State.reset.clk with ucyc := 300 }, tasks := List.replicate 4 aTask ++ List.replicate 4 { aTask with cluster := 2 } }) = true ∧
    (fun s : State => decide (0 < s.clk.coreMHz) && decide (0 < s.clk.uncMHz) && decide (s.clk.ucyc / 256 ≤ (s.balanced.lookup 3).getD 0))
    ({ idle nop1 with clk := { State.reset.clk with ucyc := 300 }, balanced := [(3, 1)] }) = true := by
  refine ⟨?_, ?_, ?_, ?_⟩ <;> decide +kernel

/-- A pre-emption of context 0 in a mode, with blocks to do; its save area at 0x4012_0000, its report at 0x4011_0000. -/
def aPre (m : Nat) (todo : List Nat) : Preempt :=
  { id := 5, ctx := 0, target := 0, mode := m, dies := 1, area := 0x40120000, size := 0x1000000, used := 0, desc := 0x40130000, report := 0x40110000, cap := 64,
    count := 0, sigAddr := 0, sigVal := 0, start := 0, todo := todo, done := false, slice := none, last := none }

def preempting (m : Nat) (todo : List Nat) (p : PreSt) : State :=
  onBlock (fun b => { b with pre := p }) { bindable (idle nop1) with preempts := [aPre m todo], nextId := 9 }

/-- A saved block whose image, of 64 bytes, stands at the save area, with its report entry of outcome 2. -/
def restorable : State :=
  onBlock (fun b => { b with st := .saved }) (onWarp (fun w => { w with clause := none }) { preempting 3 [0] .none with
    lines := (bindable nop1).lines ++ [aLine 0x2200 [(12, 0x2)], aLine 0x2400 [(0, 0x22), (1, 0x11)]],
    images := [⟨2, 4, leBytes 8 0x1122 ++ List.replicate 56 0, 64, 0, [], [], []⟩],
    ctxs := (bindable nop1).ctxs.map fun k => { k with held := 1 } })

def bytesB (va : Nat) (bs : List Byte) : List (Nat × Byte) := bs.zipIdx.map fun e => (va + e.2, e.1)

/-- R342 to R347, R380: a slice that has run out, and the end of its pre-emption; a block that stops at its barrier, with and without a lifetime that fits the drain budget, one that takes its choice at a boundary (in a region, with and without an estimate), one that drains, one to save, one to save at its barrier, one to flush, one to restore, and a pre-emption with nothing left to do. -/
theorem witness_PreemptEvents :
    (fun s : State => (s.ctx? 0).any (fun c => c.slicelen != 0 && c.sliceFrom == some 7) && decide (0 < s.clk.coreMHz) && decide (0 < s.clk.uncMHz))
    ((fun s => { s with ctxs := s.ctxs.map fun k => { k with slicelen := 1000, sliceFrom := some 7 } }) (idle nop1)) = true ∧
    (fun s : State => (s.pre? 5).any (fun p => p.done) && (s.ctx? 0).any (·.sliceOp == some 5))
    ((fun s => { s with ctxs := s.ctxs.map fun k => { k with slicelen := 1000, sliceOp := some 5 } }) { preempting 0 [] .none with preempts := [{ aPre 0 [] with done := true }] }) = true ∧
    (fun s : State => (s.pre? 5).any (fun p => p.mode == 0 && p.todo == [0]) && (s.blocks[(0 : Nat)]?).any (·.pre == .stopAtBarrier 5 0) && decide (0 < s.clk.coreMHz) && decide (0 < s.clk.uncMHz))
    (preempting 0 [0] (.stopAtBarrier 5 0)) = true ∧
    (fun s : State => (s.pre? 5).isSome && (s.blocks[(0 : Nat)]?).any (fun b => b.st == .running && b.pre == .choose 5) && s.warps.all (·.clause.isNone) && s.regionOf 0 == none && s.estimate 0 == none)
    (onLaunch (fun l => { l with lives := [] }) (preempting 1 [0] (.choose 5))) = true ∧
    (fun s : State => (s.pre? 5).isSome && (s.blocks[(0 : Nat)]?).any (fun b => b.st == .running && b.pre == .choose 5) && s.warps.all (·.clause.isNone) && s.regionOf 0 == none && (s.estimate 0).any fun e => decide (e < s.drainbud.toNat))
    (onLaunch (fun l => { l with lives := [7] }) (preempting 1 [0] (.choose 5))) = true ∧
    (fun s : State => (s.pre? 5).any (fun p => true) && (s.blocks[(0 : Nat)]?).any (·.pre == .drain 5 3))
    (preempting 0 [0] (.drain 5 3)) = true ∧
    (fun s : State => (s.pre? 5).any (fun p => (s.launches[(0 : Nat)]?).any fun l => decide (p.used + imageSize l.info 1 ≤ p.size)) && (s.blocks[(0 : Nat)]?).any (fun b => b.st == .running && b.pre == .save 5) && s.canSave 0 && s.warps.all (·.clause.isNone))
    ({ preempting 2 [0] (.save 5) with preempts := [{ aPre 2 [0] with area := 0x80000000 }], reqs := [aReq .store .bounced] }) = true ∧
    (fun s : State => (s.pre? 5).any (fun p => (s.launches[(0 : Nat)]?).any fun l => decide (p.used + imageSize l.info 1 ≤ p.size)) && (s.blocks[(0 : Nat)]?).any (fun b => b.st == .running && b.pre == .saveAtBarrier 5) && s.canSave 0 && s.warps.all (·.clause.isNone) && s.liveTable 0 0 == [])
    (onLanes (fun _ y => { y with st := .waiting .bsync }) { preempting 0 [0] (.saveAtBarrier 5) with preempts := [{ aPre 0 [0] with area := 0x80000000 }] }) = true ∧
    (fun s : State => (s.pre? 5).isSome && (s.blocks[(0 : Nat)]?).any (fun b => b.st == .running && b.pre == .flush 5 0) && s.canSave 0 && s.warps.all (·.clause.isNone) && s.regionOf 0 == some 0)
    ((fun s => { s with lines := s.lines ++ [aLine 0x2300 [(0, 0x1), (18, 0x1), (25, 0x1), (26, 0x1)]] }) (onInfo (fun r => { r with flags := 1, regions := 0x40118000 }) (preempting 1 [0] (.flush 5 0)))) = true ∧
    (fun s : State => (s.pre? 5).isSome && (s.blocks[(0 : Nat)]?).any (fun b => b.st == .running && b.pre == .choose 5) && s.warps.all (·.clause.isNone) && s.regionOf 0 == some 0)
    ((fun s => { s with lines := s.lines ++ [aLine 0x2300 [(0, 0x1), (18, 0x1), (25, 0x1), (26, 0x1)]] }) (onInfo (fun r => { r with flags := 1, regions := 0x40118000 }) (preempting 1 [0] (.choose 5)))) = true ∧
    (fun s : State => (s.pre? 5).any (fun p => p.mode == 3 && p.todo == [0]) && (s.entryAt 0 0x40110000 0).any (fun e => e.out == 2 && e.info == 0) && (s.imageAt 0 0x40120000).any (fun i => i.blk == 0) && (s.blocks[(0 : Nat)]?).any (·.later.isEmpty) && (s.putBack 1 0 (s.images.head?) [9] [2]).isSome && (s.ctx? 0).isSome && (s.launches[(0 : Nat)]?).any (·.st != .dead))
    (restorable) = true ∧
    (fun s : State => (s.pre? 5).any (fun p => p.mode != 3 && !p.done && p.todo.isEmpty && p.sigAddr == 0) && s.mcasts.isEmpty && s.heldBy.isEmpty)
    (preempting 0 [] .none) = true ∧
    (fun s : State => (s.pre? 5).any (fun p => (s.launches[(0 : Nat)]?).any fun l => decide (p.used + imageSize l.info 1 ≤ p.size)) && (s.blocks[(0 : Nat)]?).any (fun b => b.st == .running && b.pre == .save 5) && s.canSave 0 && s.warps.all (·.clause.isNone) && ((s.blocks[(0 : Nat)]?).any fun b => (s.launches[(0 : Nat)]?).any fun l =>  cached s ⟨0, 0x110000, 0, true, 0, 1⟩ && hits 0 0 s ⟨0, 0x110000, 0, true, 0, 1⟩ (bytesB 0x40110000 (leBytes 8 l.recAddr ++ leBytes 8 (2 * 2 ^ 32 + 0 * 2 ^ 36) ++ leBytes 8 b.lin ++ leBytes 8 0)) && avoids 0 0 0x2200 s (bytesB 0x40130024 (leBytes 4 1)) && match s.xlateUnit 0 0 wantEWrite 0x80000000 with | .ok _ => false | _ => true))
    (onLanes (fun _ y => y) ({ preempting 1 [0] (.save 5) with lines := (preempting 1 [0] .none).lines ++ [aLine 0x2200 [], aLine 0x2600 []], preempts := [{ aPre 1 [0] with desc := 0x40130000, area := 0x80000000 }] })) = true ∧
    (fun s : State => (s.pre? 5).any (fun p => (s.launches[(0 : Nat)]?).any fun l => decide (p.used + imageSize l.info 1 ≤ p.size)) && (s.blocks[(0 : Nat)]?).any (fun b => b.st == .running && b.pre == .saveAtBarrier 5) && s.canSave 0 && s.warps.all (·.clause.isNone) && ((s.blocks[(0 : Nat)]?).any fun b => (s.launches[(0 : Nat)]?).any fun l =>  cached s ⟨0, 0x110000, 0, true, 0, 1⟩ && hits 0 0 s ⟨0, 0x110000, 0, true, 0, 1⟩ (bytesB 0x40110000 (leBytes 8 l.recAddr ++ leBytes 8 (3 * 2 ^ 32 + 0 * 2 ^ 36) ++ leBytes 8 b.lin ++ leBytes 8 0)) && avoids 0 0 0x2200 s (bytesB 0x40130024 (leBytes 4 1)) && match s.xlateUnit 0 0 wantEWrite 0x80000000 with | .ok _ => false | _ => true))
    (onLanes (fun _ y => { y with st := .waiting .bsync }) ({ preempting 1 [0] (.saveAtBarrier 5) with lines := (preempting 1 [0] .none).lines ++ [aLine 0x2200 [], aLine 0x2600 []], preempts := [{ aPre 1 [0] with desc := 0x40130000, area := 0x80000000, mode := 0 }] })) = true ∧
    (fun s : State => (s.pre? 5).isSome && (s.blocks[(0 : Nat)]?).any (fun b => b.st == .running && b.pre == .flush 5 0) && s.canSave 0 && s.warps.all (·.clause.isNone) && s.regionOf 0 == some 0 && ((s.blocks[(0 : Nat)]?).any fun b => (s.launches[(0 : Nat)]?).any fun l =>  cached s ⟨0, 0x110000, 0, true, 0, 1⟩ && hits 0 0 s ⟨0, 0x110000, 0, true, 0, 1⟩ (bytesB 0x40110000 (leBytes 8 l.recAddr ++ leBytes 8 (1 * 2 ^ 32 + 0 * 2 ^ 36) ++ leBytes 8 b.lin ++ leBytes 8 0)) && avoids 0 0 0x2200 s (bytesB 0x40130024 (leBytes 4 1))))
    ((fun s => { s with lines := s.lines ++ [aLine 0x2300 [(0, 0x1), (18, 0x1), (25, 0x1), (26, 0x1)], aLine 0x2200 []] }) (onInfo (fun r => { r with flags := 1, regions := 0x40118000 }) (preempting 1 [0] (.flush 5 0)))) = true ∧
    (fun s : State => (s.pre? 5).any (fun p => p.mode != 3 && !p.done && p.todo.isEmpty && p.sigAddr == 0x40110008 && p.sigVal == 0x1122) && s.mcasts.isEmpty && s.heldBy.isEmpty && (match s.xlateUnit 0 0 wantStore 0x40110008 with | .ok z => z == ⟨0, 0x110008, 0, true, 0, 1⟩ | _ => false) && cached s ⟨0, 0x110008, 0, true, 0, 1⟩ && hits 0 0 s ⟨0, 0x110008, 0, true, 0, 1⟩ (bytesB 0x40110008 (leBytes 8 0x1122)))
    ({ preempting 0 [] .none with lines := (preempting 0 [] .none).lines ++ [aLine 0x2200 []], preempts := [{ aPre 0 [] with sigAddr := 0x40110008, sigVal := 0x1122 }] }) = true := by
  refine ⟨?_, ?_, ?_, ?_, ?_, ?_, ?_, ?_, ?_, ?_, ?_, ?_, ?_, ?_, ?_, ?_⟩ <;> decide +kernel

def aPos (p : Nat) (m pub : Bool) : Pos := ⟨p, m, false, 0, 0, if m then [] else List.replicate 64 3, pub, 1, 0, none⟩

def ringOf (r : Ring) : State := { bindable (idle nop1) with rings := [r], nextId := 9 }

/-- R298, R299, R307: claims of an element and of an end marker where one position is free, an element and a marker to publish, a full ring with a consumer at Free beside a second one, a ring that nothing uses. -/
theorem witness_RingEvents :
    (fun s : State => (s.ring? 1).any (fun r => r.claims.length == 1 && decide (r.w < r.free - r.echo + r.cap)))
    (ringOf { aRing with w := 3, claims := [⟨false, 1, 7, [4], 0, 512, 1, 0, none⟩] }) = true ∧
    (fun s : State => (s.ring? 1).any (fun r => r.claims.length == 1 && decide (r.w < r.free - r.echo + r.cap)))
    (ringOf { aRing with w := 3, claims := [⟨true, 1, 7, [4], 0, 512, 1, 0, none⟩] }) = true ∧
    (fun s : State => (s.ring? 1).any (fun r => (r.pos? 3).any (fun x => !x.published && x.marker == false) && r.pops.isEmpty && decide (r.low ≤ 3) && !s.unitHeld (s.ctxDie r.ctx) r.ctx (r.base + 3 % r.cap * r.size) 64))
    (ringOf { aRing with w := 4, poss := [aPos 2 true true, aPos 3 false false] }) = true ∧
    (fun s : State => (s.ring? 1).any (fun r => (r.pos? 3).any (fun x => !x.published && x.marker == true) && r.pops.isEmpty && decide (r.low ≤ 3) && !s.unitHeld (s.ctxDie r.ctx) r.ctx (r.base + 3 % r.cap * r.size) 64))
    (ringOf { aRing with w := 4, poss := [aPos 2 true true, aPos 3 true false] }) = true ∧
    (fun s : State => s.reqs.isEmpty && s.forward.isEmpty && s.blocks.length == 1 && (s.ring? 1).any (fun r => (r.pos? 3).any (fun x => !x.published && (x.marker || x.data.length == 64)) && r.pops.all (fun q => q.p == 3 && q.warp == 0 && q.id == 7 && r.cons.any fun c => c.stage == q.stage) && !s.unitHeld (s.ctxDie r.ctx) r.ctx (r.base + 3 % r.cap * r.size) 64))
    (onWarp (fun w => { w with pend := pendTag 0 (.s 8) 7 1 ++ pendTag 0 (.s 9) 7 1 }) (ringOf ({ aRing with w := 4, gone := 2, poss := [aPos 2 true true, aPos 3 false false], cons := [⟨none, 4, false, none, false, false, []⟩], pops := [⟨7, none, 3, 0, 0, 1, [], some 0x80, 64, 1, none⟩] }))) = true ∧
    (fun s : State => s.reqs.isEmpty && s.forward.isEmpty && s.blocks.length == 1 && (s.ring? 1).any (fun r => (r.pos? 3).any (fun x => !x.published && (x.marker || x.data.length == 64)) && r.pops.all (fun q => q.p == 3 && q.warp == 0 && q.id == 7 && r.cons.any fun c => c.stage == q.stage) && !s.unitHeld (s.ctxDie r.ctx) r.ctx (r.base + 3 % r.cap * r.size) 64))
    (onWarp (fun w => { w with pend := pendTag 0 (.s 8) 7 1 ++ pendTag 0 (.s 9) 7 1 }) (ringOf ({ aRing with w := 4, gone := 2, poss := [aPos 2 true true, { aPos 3 true false with producer := 1 }], cons := [⟨none, 4, false, none, false, false, []⟩], pops := [⟨7, none, 3, 0, 0, 1, [], some 0x80, 64, 1, none⟩] }))) = true ∧
    (fun s : State => s.reqs.isEmpty && s.forward.isEmpty && s.blocks.length == 1 && (s.ring? 1).any (fun r => (r.pos? 3).any (fun x => !x.published && (x.marker || x.data.length == 64)) && r.pops.all (fun q => q.p == 3 && q.warp == 0 && q.id == 7 && r.cons.any fun c => c.stage == q.stage) && !s.unitHeld (s.ctxDie r.ctx) r.ctx (r.base + 3 % r.cap * r.size) 64))
    (onWarp (fun w => { w with pend := pendTag 0 (.s 8) 7 1 ++ pendTag 0 (.s 9) 7 1 }) (ringOf ({ aRing with w := 4, gone := 2, poss := [aPos 2 true true, { aPos 3 true false with last := true }], cons := [⟨none, 4, false, none, false, false, []⟩], pops := [⟨7, none, 3, 0, 0, 1, [], some 0x80, 64, 1, none⟩] }))) = true ∧
    (fun s : State => s.reqs.isEmpty && s.forward.isEmpty && s.blocks.length == 1 && (s.ring? 1).any (fun r => (r.pos? 3).any (fun x => !x.published && (x.marker || x.data.length == 64)) && r.pops.all (fun q => q.p == 3 && q.warp == 0 && q.id == 7 && r.cons.any fun c => c.stage == q.stage) && !s.unitHeld (s.ctxDie r.ctx) r.ctx (r.base + 3 % r.cap * r.size) 64))
    (onWarp (fun w => { w with pend := pendTag 0 (.s 8) 7 1 ++ pendTag 0 (.s 9) 7 1 }) (ringOf ({ aRing with w := 4, gone := 2, poss := [aPos 2 true true, { aPos 3 false false with origin := 9 }], cons := [⟨some 5, 4, false, none, false, false, []⟩], pops := [⟨7, some 5, 3, 0, 0, 1, [], some 0x80, 64, 1, none⟩] }))) = true ∧
    (fun s : State => s.reqs.isEmpty && s.forward.isEmpty && s.blocks.length == 1 && (s.ring? 1).any (fun r => (r.pos? 3).any (fun x => !x.published && (x.marker || x.data.length == 64)) && r.pops.all (fun q => q.p == 3 && q.warp == 0 && q.id == 7 && r.cons.any fun c => c.stage == q.stage) && !s.unitHeld (s.ctxDie r.ctx) r.ctx (r.base + 3 % r.cap * r.size) 64) && cached ((s.writeVirt 0 0 (0x40110000 + 192) (List.replicate 64 3))) ⟨0, 0x118000, 0, true, 0, 0⟩ && avoids 0 0 0x2300 s [(0x40110000 + 192, 3), (0x40100010, 4), (0x40100018, 4), (0x40100020, 4), (0x40100028, 0)])
    ((fun s => { s with lines := s.lines ++ [aLine 0x2300 []] }) (onWarp (fun w => { w with pend := pendTag 0 (.s 8) 7 1 ++ pendTag 0 (.s 9) 7 1 }) (ringOf ({ aRing with w := 4, gone := 2, poss := [aPos 2 true true, aPos 3 false false], cons := [⟨none, 4, false, none, false, false, []⟩], pops := [⟨7, none, 3, 0, 0, 1, (List.range 64).map (fun k => ⟨0, 0x118000 + k, 0, true, 0, 0⟩), none, 64, 1, none⟩] })))) = true ∧
    (fun s : State => (s.ring? 1).any (fun r => decide (r.free + r.cap ≤ r.w) && r.seats == 2 && r.echo == 0 && r.claims.length == 1 && r.cons.any fun y => y.live && decide (r.free < y.cursor)))
    (ringOf { aRing with w := 4, claims := [⟨false, 1, 7, [4], 0, 512, 1, 0, none⟩], cons := [⟨none, 0, false, none, false, false, []⟩, ⟨some 8, 3, false, none, false, false, []⟩], poss := [aPos 0 false true, aPos 1 false true, aPos 2 false true, aPos 3 false true] }) = true ∧
    (fun s : State => (s.ring? 1).any (fun r => !r.cons.isEmpty && r.cons.all (fun k => k.final || k.detached) && r.claims.isEmpty && r.pops.isEmpty && r.poss.isEmpty) && s.stages.isEmpty && s.pipes.isEmpty)
    (ringOf { aRing with cons := [⟨none, 4, false, none, true, false, []⟩] }) = true := by
  refine ⟨?_, ?_, ?_, ?_, ?_, ?_, ?_, ?_, ?_, ?_, ?_⟩ <;> decide +kernel

/-- The warp seeks a landing slot at its address, whose home is slice 0 of die 1. -/
def seekingWarp : State :=
  onWarp (fun w => { w with clause := w.clause.map fun k => { k with seek := some (5, 70), waits := true } })
    { mobile (sregs [(8, 0x40010000)] (mapped (put (.migr 1 (.s 8) tl)))) with cur := none }

/-- R365: a core of the address's cluster with room in its last partition, and no room in time. -/
theorem witness_MigrationEvents :
    (fun s : State => (s.seeking 0).any (fun e => e.2.1 == 1 && e.2.2.1.die == 1 && e.2.2.1.slice == 0 && e.2.2.2 == (5, 70)) && (s.launches[(0 : Nat)]?).any (fun l => s.shareRoom 0 l 71 && !s.reserved 0 71) && (s.warps[(0 : Nat)]?).any (fun wp => (s.findSlot 71 7 (s.warpSlots wp) 252 true) == some 252 && s.mayMove wp && !wp.stuck))
    (seekingWarp) = true ∧
    (fun s : State => (s.seeking 0).any (fun e => e.2.1 == 1 && e.2.2.1.die == 1 && e.2.2.1.slice == 0 && e.2.2.2 == (5, 70)) && (s.seeking 0).any (fun e => (s.landingCores e.1 e.2.2.1).isEmpty) && decide (0 < s.clk.coreMHz) && decide (0 < s.clk.uncMHz))
    ({ seekingWarp with coreOwn := (List.range 8).map fun c => (64 + c, .owned 9) }) = true := by
  refine ⟨?_, ?_⟩ <;> decide +kernel

def aColl (k : CollKind) (parts : List (Nat × List Byte)) : Coll :=
  { kind := k, src := windowBase + 0x40, dst := windowBase + 0x100, bytes := 8, warp := 0, word := 0x10008, mask := 1, tag := 6, grp := 1, ctr := none, since := 0,
    parts := parts, views := [], shrunk := false }

def underway (g : Group) : State :=
  onBlock (fun b => b.setBytes 0x40 (leBytes 8 (5 + 3 * 2 ^ 32))) (onWarp (fun w => { w with pend := pendTag 0 (.s 9) 6 2 }) { idle nop1 with groups := [g], nextId := 9 })

/-- R370 to R372: a group that all its members have opened, a sum with every member's part, a member that sends nothing, each message of a member, and an error of this one. -/
theorem witness_CollectiveEvents :
    (fun s : State => (s.group? 3).any (fun g => g.coll.any (·.kind == .opened) && g.live.all fun k => k == g.rank || g.opened.contains k))
    (underway { aGroup with isOpen := false, opened := [1, 0, 2], coll := some (aColl .opened []) }) = true ∧
    (fun s : State => (s.group? 3).any (fun g => g.coll.any (fun k => k.kind == .reduce 0 2 && g.live.all fun r => r == g.rank || ((k.parts.lookup r).isSome && k.views.lookup r == some g.live)) && !g.removed && !g.lost) && (s.blocks[(0 : Nat)]?).any (fun b => s.windowOk b (windowBase + 0x100) 8) && s.warps.all (!·.ended))
    (underway { aGroup with coll := some { aColl (.reduce 0 2) [(0, leBytes 8 1), (2, leBytes 8 2)] with views := [(0, [0, 1, 2]), (2, [0, 1, 2])] } }) = true ∧
    (fun s : State => (s.group? 3).any (fun g => g.coll.any (fun k => k.kind == .reduce 0 2 && (k.parts.lookup 2).isNone) && g.live.contains 2 && g.rank != 2) && decide (0 < s.clk.coreMHz) && decide (0 < s.clk.uncMHz))
    (underway { aGroup with coll := some (aColl (.reduce 0 2) []) }) = true ∧
    (fun s : State => (s.group? 3).any (fun g => !g.opened.contains 2 && g.live.contains 2 && g.peers.length == g.n && s.stations g == [0, 0, 0] && g.tag == 77))
    (underway { aGroup with isOpen := false }) = true ∧
    (fun s : State => (s.group? 3).any (fun g => g.n == 3 && g.rank == 1 && s.stations g == [0, 0, 0]))
    (underway { aGroup with isOpen := false }) = true ∧
    (fun s : State => (s.group? 3).any (fun g => g.coll.isSome && g.live == [0, 1, 2]))
    (underway { aGroup with coll := some (aColl (.reduce 0 2) []) }) = true ∧
    (fun s : State => (s.group? 3).any (fun g => g.coll.isSome && g.rank == 1))
    (underway { aGroup with coll := some (aColl (.reduce 0 2) []) }) = true ∧
    (fun s : State => (s.group? 3).any (fun g => g.coll.any (fun k => (k.parts.lookup 2).isNone && k.bytes == 8)))
    (underway { aGroup with coll := some (aColl (.reduce 0 2) []) }) = true ∧
    (fun s : State => (s.group? 3).any (fun g => g.coll.isNone && g.live.contains 2))
    (underway aGroup) = true ∧
    (fun s : State => (s.group? 3).any (fun g => g.rank == 1))
    (underway aGroup) = true := by
  decide

/-- Function 63 with vector v pending, and fewer events than its count. -/
def msix (v n : Nat) (masked pba : Bool) : State :=
  { State.reset with fns := State.reset.fns.modify 63 fun f => { f with cfg := BitVec.ofNat 64 (2 * 2 ^ 10), vectors := f.vectors.set v ⟨n, 0, masked, pba⟩ } }

/-- Die 0 in a hierarchy of its own, with a MOVECTL and lines copied. -/
def moving (ctl : DWord) (n : Nat) : State :=
  { State.reset with dies := State.reset.dies.modify 0 fun d => { d with hier := some 0, movectl := ctl, moveLine := n } }

/-- R376 to R378: a count that is reached, the error vector below it, a masked one, an unmask with and without its pending bit; a move to the last block, lines in the middle of a grain, a whole move. -/
theorem witness_InterruptsAndMoves :
    (fun s : State => s.answers && s.unitsAccepted && (s.fns[(63 : Nat)]?).any fun f => (f.vectors[(0 : Nat)]?).any fun x => x.pending == 2 && x.masked == false && decide (0 < 3 ∧ (0 = 2 ∨ f.cfg.toNat / 2 ^ 10 % 64 ≤ 2)))
    (msix 0 2 false false) = true ∧
    (fun s : State => s.answers && s.unitsAccepted && (s.fns[(63 : Nat)]?).any fun f => (f.vectors[(2 : Nat)]?).any fun x => x.pending == 1 && x.masked == false && decide (2 < 3 ∧ (2 = 2 ∨ f.cfg.toNat / 2 ^ 10 % 64 ≤ 1)))
    (msix 2 1 false false) = true ∧
    (fun s : State => s.answers && s.unitsAccepted && (s.fns[(63 : Nat)]?).any fun f => (f.vectors[(1 : Nat)]?).any fun x => x.pending == 3 && x.masked == true && decide (1 < 3 ∧ (1 = 2 ∨ f.cfg.toNat / 2 ^ 10 % 64 ≤ 3)))
    (msix 1 3 true false) = true ∧
    (fun s : State => s.answers && (s.fns[(63 : Nat)]?).any fun f => (f.vectors[(3 : Nat)]?).isSome)
    (msix 3 0 true false) = true ∧
    (fun s : State => s.answers && (s.fns[(63 : Nat)]?).any fun f => (f.vectors[(3 : Nat)]?).isSome)
    (msix 3 0 true true) = true ∧
    (fun s : State => (s.dies[(0 : Nat)]?).any (fun d => !d.movectl.getLsbD 63) && (s.diesWith 0) == [0] && decide (383 < hbmBlocks (s.diesWith 0).length) && !s.tenantBlock 0 383)
    (moving 0 0) = true ∧
    (fun s : State => (s.dies[(0 : Nat)]?).any (fun d => moveActive d.movectl && decide (moveDone d.movectl < 4096 ∧ moveDone d.movectl * 512 ≤ d.moveLine ∧ d.moveLine + 8 ≤ moveDone d.movectl * 512 + 512) && moveSrc d.movectl != moveDst d.movectl) && (s.diesWith 0).contains 0 && s.lines.isEmpty && s.heldBy == [])
    ((fun s => { s with mem := [(2 ^ 28 + 1024, 7), (2 ^ 28 + 2047, 9)], heldBy := [] }) (moving (BitVec.ofNat 64 (2 ^ 63 + 1 * 2 ^ 48 + 2 * 2 ^ 36)) 8)) = true ∧
    (fun s : State => (s.dies[(0 : Nat)]?).any (fun d => moveActive d.movectl && decide (moveDone d.movectl < 4096 ∧ moveDone d.movectl * 512 ≤ d.moveLine ∧ d.moveLine + 8 ≤ moveDone d.movectl * 512 + 512) && moveSrc d.movectl != moveDst d.movectl) && (s.diesWith 0).contains 0 && s.lines.isEmpty && s.heldBy == ((List.range 8).flatMap fun k => [HeldLine.mk (2 ^ 21 + 8 + k) (.move 0), HeldLine.mk (2 * 2 ^ 21 + 8 + k) (.move 0)]))
    ((fun s => { s with mem := [(2 ^ 28 + 1024, 7), (2 ^ 28 + 2047, 9)], heldBy := ((List.range 8).flatMap fun k => [HeldLine.mk (2 ^ 21 + 8 + k) (.move 0), HeldLine.mk (2 * 2 ^ 21 + 8 + k) (.move 0)]) }) (moving (BitVec.ofNat 64 (2 ^ 63 + 1 * 2 ^ 48 + 2 * 2 ^ 36)) 8)) = true ∧
    (fun s : State => (s.dies[(0 : Nat)]?).any (fun d => moveActive d.movectl && moveDone d.movectl == 4096) && (s.diesWith 0).contains 0)
    ((fun s => { s with forward := [(1 * 2 ^ 12 + 5, 6)] }) (moving (BitVec.ofNat 64 (2 ^ 63 + 1 * 2 ^ 48 + 2 * 2 ^ 36 + 4096)) 0)) = true := by
  decide

/-- R23 to R26, R386 to R407: power over the limit, a temperature over it, power that is back below it after an excess, and both sides of the thermal hold. -/
theorem witness_PowerAndResets :
    (fun s : State => decide (0 < s.clk.coreMHz) && decide (0 < s.clk.uncMHz) && s.boot.ioReleased && decide (1000 < s.clk.coreMHz))
    (State.reset) = true ∧
    (fun s : State => decide (0 < s.clk.coreMHz) && decide (0 < s.clk.uncMHz) && s.boot.ioReleased && decide (1000 < s.clk.coreMHz))
    (State.reset) = true ∧
    (fun s : State => decide (0 < s.clk.coreMHz) && decide (0 < s.clk.uncMHz) && s.boot.ioReleased && s.excess)
    ({ State.reset with excess := true }) = true ∧
    (fun s : State => !s.thermal)
    ({ put (.nop tl) with mem := [(5, 6)], clk := ⟨9, 7, 0, 4, 0, 2500, 2000⟩ }) = true ∧
    (fun s : State => s.thermal)
    ({ State.reset with thermal := true }) = true ∧
    (fun s : State => true)
    (put (.nop tl)) = true ∧
    (fun s : State => s.boot.ioReleased)
    (put (.nop tl)) = true ∧
    (fun s : State => !s.boot.ioReleased)
    ({ State.reset with boot := { State.reset.boot with ioReleased := false } }) = true ∧
    (fun s : State => (s.dies[(3 : Nat)]?).any (·.failed) && !s.thermal)
    ({ State.reset with dies := State.reset.dies.modify 3 fun d => { d with live := false, failed := true } }) = true ∧
    (fun s : State => true)
    ({ put (.nop tl) with mem := [(5, 6), (2 ^ 53 + 1, 4)], clk := ⟨9, 7, 0, 4, 0, 2500, 2000⟩, thermal := true }) = true ∧
    (fun s : State => true)
    (put (.nop tl)) = true := by
  decide

def zeroing (i : Item) (left : List Nat) : State := { State.reset with journal := [⟨9, i, left⟩], coreOwn := [(5, .scrub 9), (6, .owned 8)], mem := [(0x600000, 7), (0x60FFFF, 8)] }

/-- R357, R381, R400, R402: a function, the last die joining the last hierarchy and leaving one, the last unit of a core, and a frame's unit that is not its last. -/
theorem witness_BindingAndLustration :
    (fun s : State => (s.fns[(63 : Nat)]?).isSome)
    (State.reset) = true ∧
    (fun s : State => s.answers && (s.dies[(3 : Nat)]?).any (·.live) && s.blocks.isEmpty)
    (State.reset) = true ∧
    (fun s : State => s.answers && (s.dies[(3 : Nat)]?).any (·.live) && s.blocks.isEmpty)
    (State.reset) = true ∧
    (fun s : State => (s.zeroNext 0).isNone && (s.dies[(0 : Nat)]?).any (·.live) && s.journal.length == 1 && s.wbs.isEmpty && decide (s.alarm < 3))
    (zeroing (.core 5) [47]) = true ∧
    (fun s : State => (s.zeroNext 0).isNone && (s.dies[(0 : Nat)]?).any (·.live) && s.journal.length == 1 && s.wbs.isEmpty && decide (s.alarm < 3) && s.journal.all fun j => s.unitDie j.item 0 == 0)
    (zeroing (.frame 3) [0, 2]) = true := by
  decide

/-- Die 0 with a window of one block for peers and station 1023 in its fabric map; four bytes of HBM. -/
def outer : State :=
  { State.reset with dies := State.reset.dies.modify 0 (fun d => { d with hier := some 0, window := BitVec.ofNat 64 (2 ^ 63 + 1), fabric := [(7, BitVec.ofNat 64 (2 ^ 63 + 1023))] }),
                     mem := [(0x100, 1), (0x101, 2), (0x102, 3), (0x103, 4)] }

def outerOk (s : State) (ps : Option (List Place)) : Bool := ps.any fun l => l.all fun p => !s.engineHas p && (s.otherSlot p).isNone

/-- R243, R359 to R363: a write of a whole line, its acknowledgement, a read, an addition, a read of a module over CXL, a dirty line of the host's, and a peer's read at the end of its window. -/
theorem witness_HostEvents :
    (fun s : State => s.answers && s.inbound.isEmpty && (s.hostPlace 0x100).isSome && decide (0x100 % 128 + (List.replicate 128 (9 : Byte)).length ≤ 128))
    (outer) = true ∧
    (fun s : State => outerOk s (State.outerPlaces s.hostPlace 0x101 2))
    ({ outer with inbound := [⟨6, 2, true, [(0x101, [8, 9])], true⟩] }) = true ∧
    (fun s : State => s.answers && s.mayPass 2 0x100 4 false && outerOk s (State.outerPlaces s.hostPlace 0x100 4))
    (outer) = true ∧
    (fun s : State => s.answers && s.mayPass 2 0x100 4 false && hostAccepts .add .w32 false && outerOk s (State.outerPlaces s.hostPlace 0x100 4))
    (outer) = true ∧
    (fun s : State => s.answers && outerOk s (State.outerPlaces (s.hbmPlace 0 0) 0x100 4))
    (outer) = true ∧
    (fun s : State => s.answers && s.lines.length == 1 && s.lines.all (fun l => lineTier l.line == 2 && l.rel == some 7) && s.heldBy.isEmpty && s.probes.isEmpty)
    ({ outer with lines := [{ aLine (2 * 2 ^ 45 + 3) [(0, 9)] with rel := some 7 }] }) = true ∧
    (fun s : State => s.answers && s.lines.length == 1 && s.lines.all (fun l => lineTier l.line == 2 && l.rel.isNone && l.dirty == true) && s.heldBy.isEmpty)
    ({ outer with lines := [aLine (2 * 2 ^ 45 + 3) [(0, 9)]] }) = true ∧
    (fun s : State => s.answers && s.lines.length == 1 && s.lines.all (fun l => lineTier l.line == 2 && l.rel.isNone && l.dirty == false) && s.heldBy.isEmpty)
    ({ outer with lines := [{ aLine (2 * 2 ^ 45 + 3) [(0, 9)] with dirty := false }], wbs := [⟨1, 2 * 2 ^ 45 + 3, 4, [7, 8], none⟩] }) = true ∧
    (fun s : State => s.answers && s.lines.length == 1 && s.lines.all (fun l => lineTier l.line == 2 && l.rel.isNone && l.dirty == false) && s.heldBy.isEmpty && s.wbs.isEmpty)
    ({ outer with lines := [{ aLine (2 * 2 ^ 45 + 3) [(0, 9)] with dirty := false }] }) = true ∧
    (fun s : State => s.answers && (s.dies[(0 : Nat)]?).any (fun d => d.window.getLsbD 63 && d.fabric.any (fun e => e.2.getLsbD 63 && e.2.toNat % 2 ^ 16 == 1023) && decide ((2 ^ 28 - 4) / 2 ^ 28 < d.window.toNat % 2 ^ 12)) && (s.diesWith 0).contains 0 && outerOk s (State.outerPlaces (s.hbmPlace 0 0) (2 ^ 28 - 4) 4))
    (outer) = true ∧
    (fun s : State => (s.lineOf? (lineOf 0 0x100)).any (fun l => l.key == 0 && l.data.length == 128) && s.forward.isEmpty)
    ({ outer with lines := [aLine 2 [(0, 9)]] }) = true ∧
    (fun s : State => s.groups.isEmpty && s.reqs.any (fun r => r.place.tier == 3 && r.st == .flight && (s.portOf r).isSome))
    ({ asked { aReq .store .flight with place := ⟨3, 2 ^ 42, 0, false, 0, 0⟩ } with dies := outer.dies.modify 0 fun d => { d with fabric := [(1, BitVec.ofNat 64 (2 ^ 63 + 2 ^ 45 + 9))] } }) = true ∧
    (fun s : State => s.groups.isEmpty && s.peerWrites.all (fun w => w.due == 0 && decide (w.bounces < 63) && s.portAt w.die w.pa == some 13) && s.peerWrites.length == 1)
    ({ outer with peerWrites := [⟨7, .copy 0 4, 0, 2 ^ 42, [1, 2], 0, 0⟩], dies := outer.dies.modify 0 fun d => { d with fabric := [(1, BitVec.ofNat 64 (2 ^ 63 + 2 ^ 45 + 9))] } }) = true := by
  refine ⟨?_, ?_, ?_, ?_, ?_, ?_, ?_, ?_, ?_, ?_, ?_, ?_, ?_⟩ <;> decide +kernel

/-- R391: after reset, and in each state of the exchange. -/
theorem witness_SpdmEvents :
    (fun s : State => s.boot.romOk && !s.spdm.algs)
    (State.reset) = true ∧
    (fun s : State => s.boot.romOk && s.spdm.version && s.spdm.caps && s.spdm.algs && s.spdm.exchanged)
    ({ State.reset with spdm := ⟨true, true, true, true, false⟩ }) = true := by
  decide

/-- A word at issue that breaks no rule and waits for nothing; an event on the agenda; nothing at issue. -/
theorem witness_StepRunsWord :
    (let i : Instr := .iadd .i32 (.v 10) (.v 8) (.v 9) ⟨q7, 0, 4⟩
    holds (put i) i fun s x => s.agenda.isEmpty && s.cur == some 0 && (s.warps[(0 : Nat)]?).any (fun wp => wp == x.wp && wp.pend.isEmpty && decide (wp.nextIssue ≤ s.clk.cyc) && wp.orphans.isEmpty && decide (s.issueFrom wp (Forms.uniform (wp.width == 64) i) ≤ s.clk.cyc) && !wp.wctl.getLsbD 0 &&
      !wp.ctrFull (ctrOfWord i) && !s.octave wp && Forms.launchCodes (s.limitsOf wp) i == []) && x.cl.words.length == 1 && !x.cl.waits && !x.cl.hdr.check &&
      decide (s.clk.tickAcc < s.clk.coreMHz) && decide (s.clk.uAcc < s.clk.coreMHz) && decide (decode x.word = .ok i) && placeCodes x.cl.hdr.cls true i == [] && (x.pipe i).isNone) = true ∧
    (fun s : State => s.agenda == [.frontierCheck 0] && !Forms.isWord (.frontierCheck 0))
    ({ State.reset with agenda := [.frontierCheck 0] }) = true ∧
    (fun s : State => s.agenda.isEmpty && s.cur.isNone)
    (State.reset) = true := by
  decide

/-- A word that decodes and fits. -/
theorem witness_FetchedWordRuns :
    (fun s : State => (decodeTableWord 64 0x0002808024000704).any fun i => Forms.launchCodes ⟨32, 512, 512, 64⟩ i == [])
    (State.reset) = true := by
  decide

end Sys2Proof.Tests
end

section
/-! SUPPORT. `swrite` as the last word of a clause at whose boundary the trap of an earlier command is due (R44, R100): the boundary belongs to
the word's step, so the trap is taken in it and the lane's trap registers change besides the register written (R326). -/

namespace Sys2Proof.Safety

open Sys2Proof.Machine Sys2Proof.Claims

/-- A lane's handler mode (R327). -/
def handlerMode (s : State) (w l : Nat) : Option Bool := (laneOf s w l).map (·.handler)

/-- `Leaves` includes the handler mode of every lane. -/
theorem handlerMode_of_leaves {u t : State} (h : Leaves u t) (w l : Nat) : handlerMode t w l = handlerMode u w l := by
  obtain ⟨-, own, -⟩ := h
  have modes := congrArg (·.bind fun o => (o.2.2[l]?).map (·.2.2.2.2.2)) (own w)
  simpa [handlerMode, laneOf, ownOf, Option.map_bind, Option.bind_map, Function.comp_def] using modes

/-- FLAGS, selector 0x20 (R332), from s8:s9. -/
def flagsWrite : Instr := .swrite 0x20 true (.s 8) ⟨⟨false, 7⟩, 0⟩

/-- What a copy command of lane 0 without a barrier leaves for its warp's next clause boundary when it ends in a program fault: group 4,
code 37, with the opcode of `xcopy`, memory code 9 and the address 0x1000 as its detail (R100). -/
def copyTrap : Due := ⟨1, 4, 37, 0x70 * 2 ^ 24 + 9, 0x1000, 0, 0xFFF8, none⟩

/-- The write of FLAGS is at issue in a warp with a trap handler, the last word of its clause, and that trap is due. -/
def trapDue : State :=
  (State.reset.withFetchWord 64 ((encode flagsWrite).getD 0).toNat).modWarp 0 fun w => { w with due := [copyTrap] }

theorem trapDue_issues : (trapDue.iss flagsWrite).map (fun x => (x.w, (x.acts flagsWrite).getLast?)) = some (0, some 0) := by
  decide

/-- The lane is outside handler mode before the step, whatever the step writes to FLAGS. -/
theorem handlerMode_trapDue (f : Word) :
    handlerMode { trapDue with warps := trapDue.warps.modify 0 fun z => { z with flags := f } } 0 0 = some false := rfl

/-- The step of the write takes the trap at the boundary: the lane is in handler mode behind it. -/
theorem exec_trapDue_entersHandler : Next (exec flagsWrite trapDue) fun t => handlerMode t 0 0 = some true :=
  ⟨_, rfl, by decide⟩

end Sys2Proof.Safety

open Sys2Proof Sys2Proof.Machine Sys2Proof.Safety Sys2Proof.Claims

/-- Refutes O15: the statement does not ask that no trap is due to the warp. In `trapDue` the write of FLAGS ends its clause while the trap of a
copy command waits for the boundary (R100), so lane 0 enters handler mode in the same step (R326), where `Leaves` says that it stays outside. -/
theorem not_specialWrites : ¬ Obligations.SpecialWrites := by
  unfold Obligations.SpecialWrites
  intro h
  obtain ⟨x, issues, at0⟩ := Option.map_eq_some_iff.mp trapDue_issues
  obtain ⟨warp0, last⟩ := Prod.mk.inj at0
  obtain ⟨-, -, writesFlags, -⟩ := (h trapDue x 0x20 0 true (.s 8) ⟨⟨false, 7⟩, 0⟩ 0).1 issues last
  obtain ⟨t, next, leaves⟩ := writesFlags rfl
  obtain ⟨t', next', entered⟩ := exec_trapDue_entersHandler
  obtain rfl : t = t' := Host.Outcome.next.inj (next.symm.trans next')
  have stays := handlerMode_of_leaves leaves 0 0
  rw [warp0, handlerMode_trapDue, entered] at stays
  exact absurd stays (by decide)
end

section
/-! SUPPORT. A power sample while the I/O die is held samples nothing, but time passes to its tick, and THROTTLED of a context with a block
placed counts the core cycles lost until then (R380). -/

namespace Sys2Proof.Safety

open Sys2Proof.Machine

/-- While the I/O die is held, a power sample only lets the time to the next multiple of 1,000 ticks pass. -/
theorem exec_powerSample_of_held {s : State} (held : s.boot.ioReleased = false) (mw : Nat) (js : List Nat) :
    exec (.powerSample mw js) s = .next (s.advance (s.clk.untilT ((s.clk.tick / 1000 + 1) * 1000))) := by
  change execPowerSample mw js s = _
  simp [execPowerSample, held]

/-- THROTTLED of every context (R380). -/
def throttledOf (s : State) : List DWord := s.ctxs.map (·.throttled)

/-- The I/O die is held while a block of the supervisor context is placed, at tick 0 with a core clock of 2,400 MHz. -/
def heldWithBlock : State :=
  { State.reset.withFetchWord 64 0 with
    boot := { State.reset.boot with ioReleased := false }, clk := { State.reset.clk with coreMHz := 2400 } }

theorem throttledOf_heldWithBlock : throttledOf heldWithBlock = [0] := rfl

/-- In the 1,000 ticks to the sample the context loses one core cycle per tick. -/
theorem throttledOf_heldWithBlock_sampled :
    Next (exec (.powerSample 0 []) heldWithBlock) fun t => throttledOf t = [1000] :=
  ⟨_, exec_powerSample_of_held rfl 0 [], by decide⟩

end Sys2Proof.Safety

open Sys2Proof Sys2Proof.Machine Sys2Proof.Safety Sys2Proof.Claims

/-- Refutes O47: the clause that a power sample changes nothing but the clocks while the I/O die is held does not ask that no block is placed.
In `heldWithBlock` the time up to the sample's tick counts in THROTTLED of the supervisor context (R380). -/
theorem not_powerAndResets : ¬ Obligations.PowerAndResets := by
  unfold Obligations.PowerAndResets
  intro h
  obtain ⟨-, -, -, heldSample, -⟩ := h heldWithBlock
  obtain ⟨t, next, onlyClocks⟩ := heldSample 0 [] rfl
  obtain ⟨t', next', counted⟩ := throttledOf_heldWithBlock_sampled
  obtain rfl : t = t' := Host.Outcome.next.inj (next.symm.trans next')
  have stays : throttledOf t = throttledOf heldWithBlock := (congrArg throttledOf onlyClocks).trans rfl
  rw [counted, throttledOf_heldWithBlock] at stays
  exact absurd stays (by decide)
end

section
/-! SUPPORT. Decoding gives back what was encoded, for every step: the lemmas of `Laws/PerInstr` together. -/

namespace Sys2Proof.Laws.RoundTrip

/-- Each canonical word comes back by the lemma of its row. What is left, the other rows of `preempt` and `cmemb` (R342, R370) and the steps of the
units, is not canonical. -/
theorem decode_encode (i : Instr) : Statement i := by
  cases i with
  -- integer arithmetic (R145)
  | iadd => apply iadd | isub => apply isub | imul => apply imul | imulh => apply imulh | imad => apply imad | imadw => apply imadw
  | iaddc => apply iaddc | imin => apply imin | imax => apply imax | iabs => apply iabs | ineg => apply ineg | isad => apply isad
  -- logic, shifts and bit fields (R146 to R150)
  | land => apply land | lor => apply lor | lxor => apply lxor | landn => apply landn | lnot => apply lnot | lsel => apply lsel
  | shl => apply shl | shr => apply shr | sar => apply sar | rot => apply rot | bfx => apply bfx | bfi => apply bfi | popc => apply popc
  | clz => apply clz | ctz => apply ctz | brev => apply brev
  -- moves, selection, addresses and comparisons (R151 to R153)
  | lea => apply lea | icmp => apply icmp | sel => apply sel | mov => apply mov | movi => apply movi | movhi => apply movhi
  -- floating arithmetic (R154 to R159)
  | fadd => apply fadd | fsub => apply fsub | fmul => apply fmul | ffma => apply ffma | fmin => apply fmin | fmax => apply fmax
  | fneg => apply fneg | fabs => apply fabs | fcmp => apply fcmp | fclass => apply fclass | frcp => apply frcp | frsq => apply frsq
  | fsqrt => apply fsqrt | fexp2 => apply fexp2 | flog2 => apply flog2 | fsin => apply fsin | fcos => apply fcos | dadd => apply dadd
  | dmul => apply dmul | dfma => apply dfma | dcmp => apply dcmp | hadd2 => apply hadd2 | hmul2 => apply hmul2 | hfma2 => apply hfma2
  -- conversions (R160 to R164)
  | cvt => apply cvt | cvtq => apply cvtq | cvtd => apply cvtd | trpack => apply trpack | trunpack => apply trunpack
  | pack2 => apply pack2
  -- lane instructions (R165 to R169)
  | shfl => apply shfl | voteBallot => apply voteBallot | voteAny => apply voteAny | voteAll => apply voteAll | voteEq => apply voteEq
  | scan => apply scan | redux => apply redux | lanes => apply lanes
  -- control (R261 to R269)
  | bra => apply bra | brc => apply brc | brx => apply brx | call => apply call | callx => apply callx | ret => apply ret
  | exit => apply exit | yield => apply yield | nop => apply nop | jenter => apply jenter | jquit => apply jquit | jwait => apply jwait
  | jread => apply jread | jwrite => apply jwrite | jclear => apply jclear
  -- memory and cache (R87 to R95)
  | ld => apply ld | st => apply st | ldc => apply ldc | pf => apply pf | cflush => apply cflush | cinval => apply cinval
  | ckeep => apply ckeep | cunkeep => apply cunkeep
  -- barrier objects (R107, R109)
  | binit => apply binit | barrive => apply barrive | bwait => apply bwait | btest => apply btest | bexpect => apply bexpect
  | bsync => apply bsync
  -- copy commands (R97)
  | xcopy => apply xcopy | xgather => apply xgather | xscatter => apply xscatter | xmcast => apply xmcast | xfill => apply xfill
  -- atomics and fences (R198, R223)
  | atom => apply atom | atomx => apply atomx | red => apply red | fence => apply fence | fwait => apply fwait | fpoll => apply fpoll
  -- the matrix engine (R173)
  | macq => apply macq | mrel => apply mrel | mzero => apply mzero | mload => apply mload | mloadRaw => apply mloadRaw | mma => apply mma
  | mmaSet => apply mmaSet | mdrain => apply mdrain | mdrainRaw => apply mdrainRaw | mread => apply mread | mcommit => apply mcommit
  | mwait => apply mwait | mprog => apply mprog | mbtake => apply mbtake | mbpass => apply mbpass
  -- tasks, pipelines and migration (R292, R310, R364)
  | spawn => apply spawn | rpush => apply rpush | rpushRing => apply rpushRing | rpop => apply rpop | rpopRing => apply rpopRing
  | reos => apply reos | reosRing => apply reosRing | pbind => apply pbind | punbind => apply punbind | pquery => apply pquery
  | migr => apply migr
  -- collectives (R369)
  | creduce => apply creduce | cbcast => apply cbcast | cmembOpen => apply cmembOpen
  -- system (R331)
  | sread => apply sread | swrite => apply swrite | trap => apply trap | rte => apply rte | resumeRetry => apply resumeRetry
  | resumeDeliver => apply resumeDeliver | resumeEnd => apply resumeEnd | preemptSliceEnd => apply preemptSliceEnd
  | tlbinvPage => apply tlbinvPage | tlbinvCtx => apply tlbinvCtx | tlbinvAll => apply tlbinvAll | launch => apply launch
  | halt => apply halt
  -- trust (R396)
  | assign => apply assign | kzero => apply kzero | lstart => apply lstart
  -- register steps with an effect of their own: reads and writes of one selector (R284, R285, R382)
  | lqerrRead => apply lqerrRead | ecccntRead => apply ecccntRead | lqtailDoorbell => apply lqtailDoorbell
  -- not canonical
  | _ => exact notCanonical rfl

end Sys2Proof.Laws.RoundTrip

/-- Settles O51, instruction by instruction: a word's format gives back the fields that it was made of (R47), and each field's code its operand
(R48 to R56). -/
theorem encodeDecode : Obligations.EncodeDecode :=
  Sys2Proof.Laws.RoundTrip.decode_encode
end

section
/-! SUPPORT. The word at issue and the state in which it reaches issue: what settling registers and taking a pipe leave of it (R45, R58, R142). -/

namespace Sys2Proof.Safety

open Sys2Proof.Machine Sys2Proof.Forms

/-- The same word stands at issue: of the warp that issues, and of every warp's clause, nothing differs. -/
def SameIssue (s t : State) : Prop :=
  t.cur = s.cur ∧ ∀ w : Nat, (t.warps[w]?).map Warp.clause = (s.warps[w]?).map Warp.clause

theorem SameIssue.refl (s : State) : SameIssue s s := ⟨rfl, fun _ => rfl⟩

theorem SameIssue.trans {s t u : State} (h : SameIssue s t) (k : SameIssue t u) : SameIssue s u :=
  ⟨k.1.trans h.1, fun w => (k.2 w).trans (h.2 w)⟩

theorem sameIssue_modWarp (s : State) (w : Nat) (f : Warp → Warp) (h : ∀ x, (f x).clause = x.clause) :
    SameIssue s (s.modWarp w f) := by
  refine ⟨rfl, fun k => ?_⟩
  simp only [State.modWarp_warps, List.getElem?_modify]
  cases s.warps[k]? with
  | none => rfl
  | some x => by_cases e : w = k <;> simp [e, h]

theorem sameIssue_foldl {α : Type} (g : State → α → State) (h : ∀ s a, SameIssue s (g s a)) (l : List α) (s : State) :
    SameIssue s (l.foldl g s) := by
  induction l generalizing s with
  | nil => exact .refl s
  | cons a l ih => exact (h s a).trans (ih (g s a))

theorem put_clause (w : Warp) (d : Dst) (x : Word) : (w.put d x).clause = w.clause := by
  cases d with
  | v => rfl
  | s | q => simp only [Warp.put]; split <;> rfl

theorem settleList_clause (now : Nat) (ps : List Pend) (late : List Dst) (w : Warp) :
    (settleList now ps late w).1.clause = w.clause := by
  induction ps generalizing late w with
  | nil => rfl
  | cons p ps ih =>
    rw [settleList]
    split
    · split
      · rw [ih, put_clause]
      · exact ih ..
    · exact ih ..

@[simp] theorem settle_clause (now : Nat) (w : Warp) : (w.settle now).clause = w.clause := settleList_clause ..

@[simp] theorem ctrSub_clause (w : Warp) (c : Option Nat) : (w.ctrSub c).clause = w.clause := by cases c <;> rfl

theorem sameIssue_partDone (s : State) (w g : Nat) (c : Option Nat) : SameIssue s (s.partDone w g c) := by
  unfold State.partDone
  split
  · exact .refl s
  · exact sameIssue_modWarp _ _ _ fun x => ctrSub_clause x c

theorem sameIssue_settleAt (s : State) (w now : Nat) : SameIssue s (s.settleAt w now) := by
  unfold State.settleAt
  split
  · exact .refl s
  · exact (sameIssue_modWarp _ _ _ fun x => settle_clause now x).trans (sameIssue_foldl _ (fun _ _ => sameIssue_partDone ..) _ _)

theorem sameIssue_early (s : State) (x : Iss) (i : Instr) : SameIssue s (s.early x i) := by
  unfold State.early
  dsimp only
  split
  · exact .refl s
  · refine (SameIssue.trans ?_ (sameIssue_modWarp _ _ _ fun _ => ?_)).trans (sameIssue_settleAt _ _ _)
    · exact ⟨rfl, fun _ => rfl⟩
    · rfl

theorem sameIssue_takePipe {s t : State} {x : Iss} {i : Instr} (h : s.takePipe x i = some t) : SameIssue s t := by
  unfold State.takePipe at h
  split at h
  · cases h; exact .refl s
  · split at h <;> cases h
    exact ⟨rfl, fun _ => rfl⟩

/-- Which warp issues, with a clause that has a word left, decides whether a word stands at issue; the instruction does not (R45). -/
theorem iss_isSome_iff (s : State) (i : Instr) :
    (s.iss i).isSome = true ↔ ∃ w d ds c, s.cur = some w ∧ (s.warps[w]?).map Warp.clause = some (some c) ∧ c.words = d :: ds := by
  unfold State.iss
  constructor
  · intro h
    split at h
    · cases h
    split at h
    · cases h
    split at h
    · cases h
    split at h
    · cases h
    · rename_i w hcur _ wp hwarp _ cl hclause _ d ds hwords
      exact ⟨w, d, ds, cl, hcur, by rw [hwarp]; exact congrArg some hclause, hwords⟩
  · rintro ⟨w, d, ds, c, hcur, hclause, hwords⟩
    obtain ⟨wp, hwarp, hc⟩ := Option.map_eq_some_iff.mp hclause
    simp only [hcur, hwarp, hc, hwords]
    split <;> rfl

theorem SameIssue.iss_isSome {s t : State} (h : SameIssue s t) {i : Instr} (j : Instr) (k : (s.iss i).isSome = true) :
    (t.iss j).isSome = true := by
  rw [iss_isSome_iff] at k ⊢
  obtain ⟨w, d, ds, c, hcur, hclause, hwords⟩ := k
  exact ⟨w, d, ds, c, h.1.trans hcur, (h.2 w).trans hclause, hwords⟩

/-- The state in which the word of a warp reaches issue: its partition's turn has come, and results that are due are readable (R57, R58, R297). -/
def reached (s : State) (w : Nat) (wp : Warp) : State :=
  let unif := ((wp.clause.bind fun c => c.words.head?).map fun d => uniform (wp.width == 64) (Decode.raw d.toNat).2).getD false
  let s := s.advanceTo wp.nextIssue
  let s := s.advanceTo (s.issueFrom wp unif)
  (s.modWarp w fun y => { y with clause := y.clause.map fun (c : Clause) => { c with waits := false } }).settleAt w s.clk.cyc

/-- Where the word that reaches issue goes on to its meaning, it has passed the checks in that state and taken its pipe (R64, R142). -/
theorem prepare_run {s t : State} {w : Nat} {i : Instr} (h : s.prepare w = .run t i) :
    ∃ wp x j p, s.warps[w]? = some wp ∧ (reached s w wp).iss j = some x ∧ (reached s w wp).takePipe x j = some p ∧
      t = p.early x j ∧ i = p.rowOf x j := by
  unfold State.prepare at h
  split at h
  case h_1 => cases h
  rename_i wp hwp
  refine ⟨wp, ?_⟩
  extract_lets unif s1 s2 u at h
  rw [show reached s w wp = u from rfl]
  clear_value u
  split at h
  · cases h
  split at h
  · cases h
  split at h
  · cases h
  dsimp only at h
  split at h
  · cases h
  · cases h
  split at h
  · cases h
  split at h
  · cases h
  split at h
  · split at h <;> cases h
  split at h
  · cases h
    exact ⟨_, _, _, hwp, ‹_›, ‹_›, rfl, rfl⟩
  · cases h

theorem prepare_run_isSome {s t : State} {w : Nat} {i : Instr} (h : s.prepare w = .run t i) : (t.iss i).isSome = true := by
  obtain ⟨wp, x, j, p, -, hiss, htake, rfl, rfl⟩ := prepare_run h
  exact ((sameIssue_takePipe htake).trans (sameIssue_early p x j)).iss_isSome (i := j) _ (by rw [hiss]; rfl)

end Sys2Proof.Safety
end

section
/-! SUPPORT. No step stops: a word's meaning answers a next state wherever a word stands at issue, an event's meaning always (R45, R46, R329). -/

namespace Sys2Proof.Safety

open Sys2Proof.Machine Sys2Proof.Forms

/-- The scoreboard puts a trap in the place of a word's own next state, and stops nothing (R59). -/
theorem goes_judged (s t : State) (w : Nat) (i : Instr) {r : Res} (h : Goes r) : Goes (s.judged t w i r) := by
  obtain ⟨v, rfl⟩ := h
  unfold State.judged
  split
  · split <;> exact ⟨_, rfl⟩
  · exact ⟨v, rfl⟩

theorem goes_runOwn (s : State) : Goes s.runOwn := by
  unfold State.runOwn
  split <;> exact ⟨_, rfl⟩

/-- A conversion through a format slot is a word's meaning at its issue, whether its slot holds or fails (R128, R161, R162). -/
theorem slotWord_atIssue (s : State) (i : Instr) (u : SlotUse) (slot : Fin 8) (d : Reg) (f : Slot → Iss → Nat → Nat × Nat) :
    ∃ k, s.slotWord i u slot d f = s.atIssue i k := by
  cases h : s.iss i with
  | none => exact ⟨fun _ => s, by simp only [State.slotWord, State.atIssue, h]⟩
  | some x =>
    simp only [State.slotWord, State.regWord, State.atIssue, h]
    split
    · exact ⟨fun _ => _, rfl⟩
    · exact ⟨fun _ => _, rfl⟩

theorem execCvtq_atIssue (slot : Fin 8) (d a b : Reg) (y : VTail) (s : State) :
    ∃ k, execCvtq slot d a b y s = s.atIssue (.cvtq slot d a b y) k := slotWord_atIssue ..

theorem execCvtd_atIssue (slot : Fin 8) (d a b : Reg) (y : VTail) (s : State) :
    ∃ k, execCvtd slot d a b y s = s.atIssue (.cvtd slot d a b y) k := slotWord_atIssue ..

theorem execLanes_atIssue (m : LanesMode) (t : Ty) (d : Reg) (y : VTail) (s : State) :
    ∃ k, execLanes m t d y s = s.atIssue (.lanes m t d y) k := by
  unfold execLanes
  split
  · split <;> exact ⟨_, rfl⟩
  · exact ⟨_, rfl⟩

theorem goes_powerSample (mw : Nat) (js : List Nat) (s : State) : Goes (execPowerSample mw js s) := by
  simp only [execPowerSample, execThermalTrip]
  repeat' split
  all_goals exact ⟨_, rfl⟩

theorem goes_blockRetire (b : Nat) (s : State) : Goes (execBlockRetire b s) := by
  simp only [execBlockRetire]
  repeat' split
  all_goals exact ⟨_, rfl⟩

theorem goes_multicastDelivery (c r : Nat) (s : State) : Goes (execMulticastDelivery c r s) := by
  simp only [execMulticastDelivery]
  repeat' split
  all_goals exact ⟨_, rfl⟩

/-- An event's meaning is a next state in every branch: where its conditions do not hold, the state as it stands (R45, R329). -/
theorem goes_event {s : State} {i : Instr} (h : isWord i = false) : Goes (exec i s) := by
  cases i with
  -- issue, the frontier checker, the watchdog and the octave shadow (R256, R274, R275, R297, R384)
  | issueSelect | frontierCheck | watchdogExpiry | shadowCompare =>
    simp only [exec, execIssueSelect, execFrontierCheck, execWatchdogExpiry, execShadowCompare]
    repeat' split
    all_goals exact ⟨_, rfl⟩
  -- walks, requests, replies and probes (R73, R204 to R222)
  | tableWalk | sliceQueueService | serviceWarpCycle | holdBoundExpiry | bounceTokenReturn | reissue | loadReply | writeAck | atomicReply |
    promotionProbe | promotionAnswer | drainProbe | tier2WritebackAccept | peerResponse | hostPortCompletion =>
    simp only [exec, execTableWalk, execSliceQueueService, execServiceWarpCycle, execHoldBoundExpiry, execBounceTokenReturn, execReissue,
      execLoadReply, execWriteAck, execAtomicReply, execPromotionProbe, execPromotionAnswer, execDrainProbe, execTier2WritebackAccept,
      execPeerResponse, execHostPortCompletion]
    repeat' split
    all_goals exact ⟨_, rfl⟩
  -- the copy engines (R98 to R105)
  | copyCommandStart | copyLineClaim | copyUnitDone | copyCommandComplete | engineLineRelease =>
    simp only [exec, execCopyCommandStart, execCopyLineClaim, execCopyUnitDone, execCopyCommandComplete, execEngineLineRelease]
    repeat' split
    all_goals exact ⟨_, rfl⟩
  -- the matrix engine (R186 to R188)
  | matrixCommandStart | matrixBandEnd | matrixCommandFinish =>
    simp only [exec, execMatrixCommandStart, execMatrixBandEnd, execMatrixCommandFinish]
    repeat' split
    all_goals exact ⟨_, rfl⟩
  -- launches, blocks and tasks (R283 to R296)
  | launchDispatch | blockPlacement | placementHoldExpiry | gangHoldExpiry | launchComplete | launchSignal | taskRingRefill | waveStart | taskBalance
    =>
    simp only [exec, execLaunchDispatch, execBlockPlacement, execPlacementHoldExpiry, execGangHoldExpiry, execLaunchComplete, execLaunchSignal,
      execTaskRingRefill, execWaveStart, execTaskBalance]
    repeat' split
    all_goals exact ⟨_, rfl⟩
  -- pre-emption and posted faults (R329, R342 to R355, R380)
  | graceExpiry | drainBudgetExpiry | barrierStopSave | blockFlush | blockSave | preemptSignal | restorePlacement | sliceExpiry |
    sliceSecondDescriptor | postedFault =>
    simp only [exec, execGraceExpiry, execDrainBudgetExpiry, execBarrierStopSave, execBlockFlush, execBlockSave, execPreemptSignal,
      execRestorePlacement, execSliceExpiry, execSliceSecondDescriptor, execPostedFault]
    repeat' split
    all_goals exact ⟨_, rfl⟩
  -- rings, migration and collectives (R299 to R318, R364 to R374)
  | ringClaim | elementPublish | consumerSpill | ringRelease | migrLanding | migrSlotTimeout | collectiveComplete | collectiveMemberTimeout |
    collectiveMessage =>
    simp only [exec, execRingClaim, execElementPublish, execConsumerSpill, execRingRelease, execMigrLanding, execMigrSlotTimeout,
      execCollectiveComplete, execCollectiveMemberTimeout, execCollectiveMessage]
    repeat' split
    all_goals exact ⟨_, rfl⟩
  -- interrupts, moves, alarms, power, resets and lustration (R24 to R26, R377 to R408)
  | msixVectorFire | msixVectorUnmask | blockMoveLines | movectlStart | movectlEnd | alarmLockWrite | alarmEraseWrite | alarmLogEvent | alarmLockEvent
    | alarmEraseEvent | thermalTrip | powerOn | coldReset | warmReset | hbmTrainingDone | lpddrTrainingDone | lustrationUnit | functionLevelReset |
    functionLevelResetDone | hostBindingChange =>
    simp only [exec, execMsixVectorFire, execMsixVectorUnmask, execBlockMoveLines, execMovectlStart, execMovectlEnd, execAlarmLockWrite,
      execAlarmEraseWrite, execAlarmLogEvent, execAlarmLockEvent, execAlarmEraseEvent, execThermalTrip, execPowerOn, execColdReset, execWarmReset,
      execHbmTrainingDone, execLpddrTrainingDone, execLustrationUnit, execFunctionLevelReset, execFunctionLevelResetDone, execHostBindingChange]
    repeat' split
    all_goals exact ⟨_, rfl⟩
  -- the host and the fabric (R243, R359 to R362)
  | hostPostedWrite | inboundWriteAck | hostNonpostedRead | hostAtomicop | cxlMemRequest | hostBackInvalidation | fabricInboundRequest |
    fabricPortDown | fabricPortUp =>
    simp only [exec, execHostPostedWrite, execInboundWriteAck, execHostNonpostedRead, execHostAtomicop, execCxlMemRequest, execHostBackInvalidation,
      execFabricInboundRequest, execFabricPortDown, execFabricPortUp, State.outerRes]
    repeat' split
    all_goals exact ⟨_, rfl⟩
  -- SPDM (R391)
  | spdmGetVersion | spdmGetCapabilities | spdmNegotiateAlgorithms | spdmGetDigests | spdmGetCertificate | spdmChallenge | spdmGetMeasurements |
    spdmKeyExchange | spdmFinish =>
    simp only [exec, execSpdmGetVersion, execSpdmGetCapabilities, execSpdmNegotiateAlgorithms, execSpdmGetDigests, execSpdmGetCertificate,
      execSpdmChallenge, execSpdmGetMeasurements, execSpdmKeyExchange, execSpdmFinish, State.spdmStep]
    repeat' split
    all_goals exact ⟨_, rfl⟩
  | powerSample => exact goes_powerSample ..
  | blockRetire => exact goes_blockRetire ..
  | multicastDelivery => exact goes_multicastDelivery ..
  -- program words
  | _ => cases h

/-- A program word's meaning is what its issue makes of the state (R45). -/
theorem exec_word {i : Instr} (h : isWord i = true) (s : State) : ∃ k, exec i s = s.atIssue i k := by
  cases i with
  -- integer arithmetic (R145)
  | iadd | isub | imul | imulh | imad | imadw | iaddc | imin | imax | iabs | ineg | isad => exact ⟨_, rfl⟩
  -- logic, shifts and bit fields (R146 to R150)
  | land | lor | lxor | landn | lnot | lsel | shl | shr | sar | rot | bfx | bfi | popc | clz | ctz | brev => exact ⟨_, rfl⟩
  -- moves, selection, addresses and comparisons (R151 to R153)
  | lea | icmp | sel | mov | movi | movhi => exact ⟨_, rfl⟩
  -- floating arithmetic (R154 to R159)
  | fadd | fsub | fmul | ffma | fmin | fmax | fneg | fabs | fcmp | fclass | frcp | frsq | fsqrt | fexp2 | flog2 | fsin | fcos | dadd | dmul | dfma |
    dcmp | hadd2 | hmul2 | hfma2 => exact ⟨_, rfl⟩
  -- conversions (R160 to R164)
  | cvt | trpack | trunpack | pack2 => exact ⟨_, rfl⟩
  -- lane instructions (R165 to R169)
  | shfl | voteBallot | voteAny | voteAll | voteEq | scan | redux => exact ⟨_, rfl⟩
  -- control (R261 to R269)
  | bra | brc | brx | call | callx | ret | exit | yield | nop | jenter | jquit | jwait | jread | jwrite | jclear => exact ⟨_, rfl⟩
  -- memory and cache (R87 to R95)
  | ld | st | ldc | pf | cflush | cinval | ckeep | cunkeep => exact ⟨_, rfl⟩
  -- barrier objects (R107, R109)
  | binit | barrive | bwait | btest | bexpect | bsync => exact ⟨_, rfl⟩
  -- copy commands (R97)
  | xcopy | xgather | xscatter | xmcast | xfill => exact ⟨_, rfl⟩
  -- atomics and fences (R198, R223)
  | atom | atomx | red | fence | fwait | fpoll => exact ⟨_, rfl⟩
  -- the matrix engine (R173)
  | macq | mrel | mzero | mload | mloadRaw | mma | mmaSet | mdrain | mdrainRaw | mread | mcommit | mwait | mprog | mbtake | mbpass => exact ⟨_, rfl⟩
  -- tasks, pipelines and migration (R292, R310, R364)
  | spawn | rpush | rpushRing | rpop | rpopRing | reos | reosRing | pbind | punbind | pquery | migr => exact ⟨_, rfl⟩
  -- collectives (R369)
  | creduce | cbcast | cmembOpen | cmembQuery | cmembClose => exact ⟨_, rfl⟩
  -- system (R331)
  | sread | swrite | trap | rte | resumeRetry | resumeDeliver | resumeEnd | preemptSliceEnd | preemptAdaptive | preemptSave | preemptRestore |
    tlbinvPage | tlbinvCtx | tlbinvAll | launch | halt => exact ⟨_, rfl⟩
  -- trust (R396)
  | assign | kzero | lstart => exact ⟨_, rfl⟩
  -- register steps with an effect of their own: reads and writes of one selector (R284, R285, R382)
  | lqerrRead | ecccntRead | lqtailDoorbell => exact ⟨_, rfl⟩
  -- words with a check before their issue
  | cvtq slot d a b y => exact execCvtq_atIssue slot d a b y s
  | cvtd slot d a b y => exact execCvtd_atIssue slot d a b y s
  | lanes m t d y => exact execLanes_atIssue m t d y s
  -- events
  | _ => cases h

/-- A program word's meaning goes on wherever a word stands at issue. -/
theorem goes_word {s : State} {i : Instr} (h : isWord i = true) (k : (s.iss i).isSome = true) : Goes (exec i s) := by
  obtain ⟨f, hf⟩ := exec_word h s
  obtain ⟨x, hx⟩ := Option.isSome_iff_exists.mp k
  exact ⟨f x, hf.trans (atIssue_some hx f)⟩

/-- The word of a warp acts, waits or traps. -/
theorem goes_runWord (s : State) (w : Nat) : Goes (s.runWord w) := by
  unfold State.runWord
  split
  · exact goes_event (i := .frontierCheck w) rfl
  · split
    · rename_i t i hrun
      cases hword : isWord i with
      | true => exact goes_judged _ _ _ _ (goes_word hword (prepare_run_isSome hrun))
      | false => exact goes_judged _ _ _ _ (goes_event hword)
    · exact ⟨_, rfl⟩

theorem goes_runAgenda (s : State) (i : Instr) (rest : List Instr) : Goes (s.runAgenda i rest) := by
  unfold State.runAgenda
  split
  · exact ⟨_, rfl⟩
  · exact goes_event (Bool.eq_false_iff.mpr ‹_›)

end Sys2Proof.Safety

open Sys2Proof.Machine Sys2Proof.Safety

/-- Settles O56, by what the step takes up: an event of the agenda, the word of the warp that issues, which stands at issue once it has passed its
checks, or a step of the machine's own. -/
theorem stepNeverStops : Obligations.StepNeverStops := by
  intro s
  unfold step
  split
  · exact goes_runAgenda ..
  · split
    · exact goes_runWord ..
    · exact goes_runOwn s
end

section
/-! SUPPORT. A word that reaches issue with nothing in its way: when the state in which it does so is the state as it stands, and when the check before
it lets it go on (R45, R57 to R61, R64, R142, R384). -/

namespace Sys2Proof.Safety

open Sys2Proof.Machine Sys2Proof.Forms

/-! ### Time that has come already (R4) -/

/-- The clocks' remainders are in range, as every advance leaves them. -/
def Whole (c : Clock) : Prop := c.tickAcc < c.coreMHz ∧ c.uAcc < c.coreMHz

theorem clock_advance_zero {c : Clock} (h : Whole c) : c.advance 0 = c := by
  obtain ⟨htick, hunc⟩ := h
  simp [Clock.advance, Nat.mod_eq_of_lt htick, Nat.mod_eq_of_lt hunc, Nat.div_eq_of_lt htick, Nat.div_eq_of_lt hunc]

theorem advance_zero {s : State} (h : Whole s.clk) : s.advance 0 = s := by simp [State.advance, clock_advance_zero h]

theorem advanceTo_of_le {s : State} {n : Nat} (h : Whole s.clk) (le : n ≤ s.clk.cyc) : s.advanceTo n = s := by
  rw [State.advanceTo, Nat.sub_eq_zero_of_le le, advance_zero h]

/-! ### Warps that do not change -/

theorem modWarp_eq_self {s : State} {w : Nat} {f : Warp → Warp} (h : ∀ x, s.warps[w]? = some x → f x = x) : s.modWarp w f = s := by
  have : s.warps.modify w f = s.warps := by
    apply List.ext_getElem?
    intro k
    rw [List.getElem?_modify]
    by_cases e : w = k
    · subst e
      cases hx : s.warps[w]? with
      | none => rfl
      | some x => simp [h x hx]
    · simp [e]
  rw [State.modWarp, this]

@[simp] theorem settle_of_pend_nil {w : Warp} (h : w.pend = []) (now : Nat) : w.settle now = w := by
  simp only [Warp.settle, h, settleList]
  exact congrArg (fun p => { w with pend := p }) h.symm

theorem settleAt_of_pend_nil {s : State} {w : Nat} (h : ∀ x, s.warps[w]? = some x → x.pend = []) (now : Nat) :
    s.settleAt w now = s := by
  unfold State.settleAt
  split
  · rfl
  · rename_i x hx
    simp only [h x hx, List.filterMap_nil, List.filter_nil, List.eraseDups_nil, List.foldl_nil]
    exact modWarp_eq_self fun y hy => settle_of_pend_nil (h y hy) now

/-- A warp without writes on their way, whose time and whose partition's turn have come and whose word has not been held, reaches issue in the
state as it stands. -/
theorem reached_eq_self {s : State} {w : Nat} {wp : Warp} {cl : Clause} {d : DWord} {ds : List DWord} (hw : s.warps[w]? = some wp)
    (hcl : wp.clause = some cl) (hwords : cl.words = d :: ds) (hwaits : cl.waits = false) (hpend : wp.pend = []) (hclk : Whole s.clk)
    (hnext : wp.nextIssue ≤ s.clk.cyc) (hturn : s.issueFrom wp (uniform (wp.width == 64) (Decode.raw d.toNat).2) ≤ s.clk.cyc) :
    reached s w wp = s := by
  have same : ∀ x, s.warps[w]? = some x →
      { x with clause := x.clause.map fun (c : Clause) => { c with waits := false } } = x := by
    intro x hx
    obtain rfl : wp = x := Option.some.inj (hw.symm.trans hx)
    have : ({ cl with waits := false } : Clause) = cl := congrArg (fun b => { cl with waits := b }) hwaits.symm
    rw [hcl, Option.map_some, this, ← hcl]
  simp only [reached, hcl, hwords, Option.bind_some, List.head?_cons, Option.map_some, Option.getD_some]
  rw [advanceTo_of_le hclk hnext, advanceTo_of_le hclk hturn, modWarp_eq_self same]
  exact settleAt_of_pend_nil (fun x hx => by rw [← hpend, Option.some.inj (hw.symm.trans hx)]) _

/-! ### The word at issue -/

/-- The word at issue is the first of its warp's clause; of its warp, the registers alone may be those of an earlier cycle (R45, R58). -/
theorem iss_spec {s : State} {i : Instr} {x : Iss} (h : s.iss i = some x) :
    ∃ wp ds, s.warps[x.w]? = some wp ∧ wp.clause = some x.cl ∧ x.cl.words = x.word :: ds ∧
      x.wp = { wp with v := x.wp.v, s := x.wp.s } := by
  unfold State.iss at h
  split at h
  · cases h
  split at h
  · cases h
  split at h
  · cases h
  split at h
  · cases h
  split at h <;> cases h <;> exact ⟨_, _, ‹_›, ‹_›, ‹_›, rfl⟩

theorem early_of_pend_nil {s : State} {x : Iss} (i : Instr) (h : x.wp.pend = []) : s.early x i = s := by
  unfold State.early
  simp [h]

/-- The scoreboard judges only where it is on, or where the clause asks for its check (R59, R276). -/
theorem undersizedTrap_eq_none {s : State} {w : Nat} {i : Instr}
    (h : ∀ x, s.iss i = some x → x.wp.wctl.getLsbD 0 = false ∧ x.cl.hdr.check = false) : s.undersizedTrap w i = none := by
  unfold State.undersizedTrap
  split
  · rfl
  · rename_i x hx
    obtain ⟨hctl, hcheck⟩ := h x hx
    simp only [hctl, hcheck, Bool.or_self, Bool.not_false, Bool.true_or, if_true]

theorem judged_eq {s t : State} {w : Nat} {i : Instr} {r : Res}
    (h : ({ t with pipes_ := s.pipes_ } : State).undersizedTrap w i = none) : s.judged t w i r = r := by
  unfold State.judged
  rw [h]

/-- A word that breaks no rule, whose counter is not full and whose launch is not compared, goes on to its meaning once its pipe is free
(R61, R64, R142, R384). -/
theorem prepare_eq_run {s p : State} {w : Nat} {wp v : Warp} {cl : Clause} {d : DWord} {ds : List DWord} {x : Iss}
    (hw : s.warps[w]? = some wp) (hv : (reached s w wp).warps[w]? = some v) (hcl : v.clause = some cl) (hwords : cl.words = d :: ds)
    (hcodes : (reached s w wp).issueCodes v cl d = []) (hiss : (reached s w wp).iss (Decode.raw d.toNat).2 = some x)
    (hctr : v.ctrFull (ctrOfWord (Decode.raw d.toNat).2) = false) (hoctave : (reached s w wp).octave v = false)
    (hpipe : (reached s w wp).takePipe x (Decode.raw d.toNat).2 = some p) :
    s.prepare w = .run (p.early x (Decode.raw d.toNat).2) (p.rowOf x (Decode.raw d.toNat).2) := by
  unfold State.prepare
  split
  case h_1 hnone => rw [hnone] at hw; cases hw
  rename_i wp' hw'
  obtain rfl : wp = wp' := Option.some.inj (hw.symm.trans hw')
  extract_lets unif s1 s2 u
  rw [show reached s w wp = u from rfl] at *
  clear_value u
  simp [hv, hcl, hwords, hcodes, hiss, hctr, hoctave, hpipe, lowest]

/-- What decodes breaks no rule of R64, and is the word's row (R65). -/
theorem decode_ok {d : DWord} {i : Instr} (h : decode d = .ok i) : wordCodes d = [] ∧ (Decode.raw d.toNat).2 = i := by
  unfold decode at h
  cases hc : wordCodes d with
  | nil => rw [hc] at h; exact ⟨rfl, Except.ok.inj h⟩
  | cons c cs =>
    rw [hc] at h
    simp only [lowest] at h
    split at h
    · cases h
    · rename_i hnone; split at hnone <;> cases hnone

/-- What breaks no rule of the word, of the launch's limits or of its place in the clause has no code at issue (R43, R64). -/
theorem issueCodes_eq_nil {s : State} {wp : Warp} {cl : Clause} {d : DWord} {ds : List DWord} {i : Instr} (hwords : cl.words = d :: ds)
    (hdec : decode d = .ok i) (hlaunch : launchCodes (s.limitsOf wp) i = []) (hplace : placeCodes cl.hdr.cls (ds == []) i = []) :
    s.issueCodes wp cl d = [] := by
  obtain ⟨hcodes, rfl⟩ := decode_ok hdec
  have hlast : (cl.words.length == 1) = (ds == []) := by rw [hwords]; cases ds <;> simp
  simp only [State.issueCodes, hcodes, hlaunch, hlast, hplace, List.append_nil]

end Sys2Proof.Safety
end

section
/-! SUPPORT. A step is the word at issue, an event of the agenda, or a step of the machine's own (R45, log 5). -/

namespace Sys2Proof.Safety

open Sys2Proof.Machine Sys2Proof.Forms

theorem step_of_agenda {s : State} {i : Instr} {rest : List Instr} (h : s.agenda = i :: rest) : step s = s.runAgenda i rest := by
  simp [step, h]

theorem step_of_cur {s : State} {w : Nat} (h : s.agenda = []) (hcur : s.cur = some w) : step s = s.runWord w := by
  simp [step, h, hcur]

theorem step_of_idle {s : State} (h : s.agenda = []) (hcur : s.cur = none) : step s = s.runOwn := by
  simp [step, h, hcur]

/-- Where no group of the warp is orphaned, the step is what the check before the word lets it be (R274). -/
theorem runWord_eq {s t : State} {w : Nat} {wp : Warp} {i : Instr} (hw : s.warps[w]? = some wp) (horphans : wp.orphans = [])
    (h : s.prepare w = .run t i) : s.runWord w = s.judged t w i (exec i t) := by
  simp [State.runWord, hw, horphans, h]

theorem firstChange_some {s t : State} {is : List Instr} (h : s.firstChange is = some t) :
    ∃ i ∈ is, exec i s = .next t ∧ t ≠ s := by
  induction is with
  | nil => cases h
  | cons i is ih =>
    have later (k : s.firstChange is = some t) : ∃ j ∈ i :: is, exec j s = .next t ∧ t ≠ s := by
      obtain ⟨j, hj, hstep⟩ := ih k
      exact ⟨j, List.mem_cons_of_mem _ hj, hstep⟩
    unfold State.firstChange at h
    split at h
    · rename_i u hu
      split at h
      · exact later h
      · cases h; exact ⟨i, List.mem_cons_self, hu, ‹_›⟩
    · exact later h

end Sys2Proof.Safety

open Sys2Proof Sys2Proof.Machine Sys2Proof.Safety Sys2Proof.Claims

/-- Settles O54: the state in which the word reaches issue is the state as it stands, so its own effect is the step. -/
theorem stepRunsWord : Obligations.StepRunsWord := by
  unfold Obligations.StepRunsWord
  intro s
  refine ⟨?_, ?_, ?_⟩
  · intro w wp cl word rest i x hagenda hcur hw hcl hwords hwaits hpend horphans hnext hturn htick hunc hdec hlaunch hplace hiss hctl hcheck
      hctr hoctave hpipe
    have hcodes := issueCodes_eq_nil (s := s) (wp := wp) hwords hdec hlaunch hplace
    obtain ⟨-, rfl⟩ := decode_ok hdec
    have hreach : reached s w wp = s := reached_eq_self hw hcl hwords hwaits hpend ⟨htick, hunc⟩ hnext hturn
    have htake : s.takePipe x (Decode.raw word.toNat).2 = some s := by unfold State.takePipe; rw [hpipe]
    have unjudged : ∀ (j : Instr) (y : Iss), s.iss j = some y →
        y.wp.wctl.getLsbD 0 = false ∧ y.cl.hdr.check = false ∧ y.wp.pend = [] := by
      intro j y hy
      obtain ⟨wp', -, hw', hcl', -, regs⟩ := iss_spec hy
      obtain rfl : y.w = w := Option.some.inj ((iss_warp hy).1.symm.trans hcur)
      obtain rfl : wp = wp' := Option.some.inj (hw.symm.trans hw')
      obtain rfl : cl = y.cl := Option.some.inj (hcl.symm.trans hcl')
      rw [regs]
      exact ⟨hctl, hcheck, hpend⟩
    have hrun : s.prepare w = .run s (s.rowOf x (Decode.raw word.toNat).2) := by
      have := prepare_eq_run (p := s) (v := wp) (x := x) hw (by rwa [hreach]) hcl hwords (by rwa [hreach]) (by rwa [hreach]) hctr
        (by rwa [hreach]) (by rwa [hreach])
      rwa [early_of_pend_nil _ (unjudged _ x hiss).2.2] at this
    rw [step_of_cur hagenda hcur, runWord_eq hw horphans hrun]
    exact judged_eq (undersizedTrap_eq_none fun y hy => ⟨(unjudged _ y hy).1, (unjudged _ y hy).2.1⟩)
  · intro i rest hagenda hevent
    rw [step_of_agenda hagenda, State.runAgenda, hevent]
    rfl
  · intro hagenda hcur
    rw [step_of_idle hagenda hcur]
    unfold State.runOwn
    split
    · rename_i t ht
      obtain ⟨i, hi, hstep, hne⟩ := firstChange_some ht
      exact .inl ⟨i, hi, t, hstep, hne, rfl⟩
    · exact .inr rfl
end

section
/-! SUPPORT. The state that `withFetchWord` makes of the state after reset (log 16): one warp, with nothing pending, whose clause holds the word alone. -/

namespace Sys2Proof.Safety

open Sys2Proof.Machine Sys2Proof.Forms

/-! ### The word's bits (R3, R42) -/

theorem toNat_wordOfBytes_bytesOfNat (k n : Nat) (h : k ≤ 8) : (wordOfBytes (bytesOfNat k n)).toNat = n % 2 ^ (8 * k) := by
  induction k generalizing n with
  | zero => simp [bytesOfNat, wordOfBytes, Nat.mod_one]
  | succ k ih =>
    have hpow : 2 ^ (8 * (k + 1)) = 256 * 2 ^ (8 * k) := by rw [Nat.mul_add, pow_add, Nat.mul_comm]; rfl
    have hle : 256 * 2 ^ (8 * k) ≤ 2 ^ 64 := hpow ▸ Nat.pow_le_pow_right (by decide) (by omega)
    have hlt : n % (256 * 2 ^ (8 * k)) < 256 * 2 ^ (8 * k) := Nat.mod_lt _ (by positivity)
    simp only [bytesOfNat, wordOfBytes, BitVec.toNat_ofNat, ih (n / 256) (by omega), hpow]
    rw [show (2 : Nat) ^ 8 = 256 from rfl, ← Nat.mod_mul, Nat.mod_eq_of_lt (Nat.lt_of_lt_of_le hlt hle)]

theorem wordOfBytes_bytesOfNat (n : Nat) : wordOfBytes (bytesOfNat 8 n) = BitVec.ofNat 64 n :=
  BitVec.eq_of_toNat_eq (by simpa using toNat_wordOfBytes_bytesOfNat 8 n (Nat.le_refl 8))

theorem decode_of_decodeTableWord {n m : Nat} {i : Instr} (h : decodeTableWord m n = some i) : decode (BitVec.ofNat 64 n) = .ok i := by
  unfold decodeTableWord decodeBytes at h
  rw [show (bytesOfNat 8 n).take 8 = bytesOfNat 8 n from rfl, wordOfBytes_bytesOfNat, show (bytesOfNat 8 n).length = 8 from rfl,
    if_neg (by decide)] at h
  cases hd : decode (BitVec.ofNat 64 n) with
  | error c => rw [hd] at h; cases h
  | ok j => rw [hd] at h; cases h; rfl

/-! ### The state -/

/-- The warp that is placed. -/
def placedWarp (n : Nat) : Warp :=
  { (oneLaunch 0).warp 0 0 0 0 0 0 32 32 0x10000 with clause := some (oneClause (BitVec.ofNat 64 n)) }

/-- The state with the pipes as they are taken. -/
def placed (n : Nat) (p : List (Nat × Nat)) : State := { State.reset.withFetchWord 64 n with pipes_ := p }

theorem placed_nil (n : Nat) : State.reset.withFetchWord 64 n = placed n [] := rfl

theorem placed_warp (n : Nat) (p : List (Nat × Nat)) : (placed n p).warps[0]? = some (placedWarp n) := rfl

theorem placed_die (n : Nat) : (placedWarp n).die = 0 := by
  change ((oneLaunch 0).warp 0 0 0 0 0 0 32 32 0x10000).die = 0
  rfl

theorem placed_wctl (n : Nat) : (placedWarp n).wctl.getLsbD 0 = false := by
  change ((oneLaunch 0).warp 0 0 0 0 0 0 32 32 0x10000).wctl.getLsbD 0 = false
  rfl

theorem placed_ctrFull (n : Nat) (c : Option (Fin 8)) : (placedWarp n).ctrFull c = false := by
  change ((oneLaunch 0).warp 0 0 0 0 0 0 32 32 0x10000).ctrFull c = false
  revert c
  decide

theorem placed_orphans (n : Nat) : (placedWarp n).orphans = [] := rfl

theorem placed_whole (n : Nat) (p : List (Nat × Nat)) : Whole (placed n p).clk := ⟨Nat.zero_lt_succ _, Nat.zero_lt_succ _⟩

theorem placed_issueRate (n : Nat) (p : List (Nat × Nat)) : (placed n p).issueRate (placedWarp n) = 2 := by
  have hmap : (placed n p).lanemap = [] := rfl
  simp [State.issueRate, State.unitOut, hmap, mget]

theorem placed_issueFrom (n : Nat) (p : List (Nat × Nat)) (u : Bool) : (placed n p).issueFrom (placedWarp n) u = 0 := by
  have hissued : (placed n p).issued = [] := rfl
  have hcyc : (placed n p).clk.cyc = 0 := rfl
  simp [State.issueFrom, placed_issueRate, hissued, hcyc, mget]

theorem placed_reached (n : Nat) (p : List (Nat × Nat)) : reached (placed n p) 0 (placedWarp n) = placed n p :=
  reached_eq_self (placed_warp n p) rfl rfl rfl rfl (placed_whole n p) (Nat.zero_le _) (placed_issueFrom n p _).le

/-- The word at issue is that of the warp as it was placed. -/
theorem placed_iss (n : Nat) (p : List (Nat × Nat)) (i : Instr) :
    ∃ m, (placed n p).iss i = some ⟨0, placedWarp n, oneClause (BitVec.ofNat 64 n), BitVec.ofNat 64 n, m, 0, 2⟩ := by
  rw [← placed_issueRate n p]
  exact ⟨_, rfl⟩

theorem placed_takePipe (n : Nat) (x : Iss) (i : Instr) : ∃ p, (placed n []).takePipe x i = some (placed n p) := by
  unfold State.takePipe
  split
  · exact ⟨[], rfl⟩
  · exact ⟨_, if_neg (Nat.not_lt_zero 0)⟩

/-! ### No row but the word's own (R342, R370): the registers hold 0, where no descriptor can be read -/

theorem placed_reg (n l : Nat) (r : Reg) (k : Nat) : (placedWarp n).reg l r k = 0 := by
  cases r with
  | v i => rfl
  | s i =>
    change (placedWarp n).getS (i.val + k) = 0
    unfold Warp.getS
    split <;> rfl

theorem placed_rd (n l : Nat) (r : Reg) (m : Nat) : (placedWarp n).rd l r m = 0 := by
  induction m with
  | zero => rfl
  | succ m ih => simp [Warp.rd, ih, placed_reg]

theorem placed_walk (n : Nat) (p : List (Nat × Nat)) : (placed n p).walk [0] 0 0 = .bad 3 1 4 0 := by
  have hframe : (placed n p).tableFrame [0] 0 = .ok 0 := rfl
  have hentry : (placed n p).viewN 0 0 0 8 = List.replicate 8 0 := rfl
  change (placed n p).walkFrom [0] 0 4 0 5 0 = _
  simp [State.walkFrom, hframe, hentry, fld, leNat]

theorem placed_read64 (n : Nat) (p : List (Nat × Nat)) : (placed n p).read64 0 0 0 = none := by
  have hdies : (placed n p).diesWith 0 = [0] := rfl
  have hwindow : inWindow 0 = false := rfl
  simp [State.read64, State.readPiece, State.xlateUnit, placed_walk, hdies, hwindow, Except.toOption]

theorem placed_rowOf (n : Nat) (p : List (Nat × Nat)) (x : Iss) (i : Instr) (h : x.wp = placedWarp n) : (placed n p).rowOf x i = i := by
  unfold State.rowOf
  split
  · rw [h, placed_rd, placed_die, show (placed n p).ctxOf (placedWarp n) = 0 from rfl, placed_read64]
  · rw [h, placed_reg]
    rfl
  · rfl

end Sys2Proof.Safety

open Sys2Proof Sys2Proof.Machine Sys2Proof.Forms Sys2Proof.Safety

/-- Settles O55: the placed word reaches issue in the state as it stands, and takes its pipe. -/
theorem fetchedWordRuns : Obligations.FetchedWordRuns := by
  unfold Obligations.FetchedWordRuns
  intro n i hword _ hlaunch
  have hdec := decode_of_decodeTableWord hword
  obtain ⟨-, rfl⟩ := decode_ok hdec
  generalize hi : (Decode.raw (BitVec.ofNat 64 n).toNat).2 = i at hdec hlaunch ⊢
  rw [placed_nil]
  have hplace : placeCodes (oneClause (BitVec.ofNat 64 n)).hdr.cls (([] : List DWord) == []) i = [] := by
    have hcls : (oneClause (BitVec.ofNat 64 n)).hdr.cls = Forms.cls i := by rw [← hi]; rfl
    simp [placeCodes, hcls, need]
  have hcodes : (placed n []).issueCodes (placedWarp n) (oneClause (BitVec.ofNat 64 n)) (BitVec.ofNat 64 n) = [] :=
    issueCodes_eq_nil rfl hdec hlaunch hplace
  obtain ⟨m, hiss⟩ := placed_iss n [] i
  obtain ⟨p, hpipe⟩ := placed_takePipe n _ i
  have hrun := prepare_eq_run (placed_warp n []) (by rw [placed_reached, placed_warp]) rfl rfl (by rwa [placed_reached])
    (by rw [placed_reached, hi]; exact hiss) (placed_ctrFull n _) (by rw [placed_reached]; rfl) (by rw [placed_reached, hi]; exact hpipe)
  rw [hi, early_of_pend_nil _ rfl, placed_rowOf n p _ _ rfl] at hrun
  refine ⟨p, ?_⟩
  rw [step_of_cur (w := 0) rfl rfl, runWord_eq (placed_warp n []) (placed_orphans n) hrun]
  exact judged_eq (undersizedTrap_eq_none fun x hx => by
    obtain ⟨m, hx'⟩ := placed_iss n [] i
    cases hx'.symm.trans hx
    exact ⟨placed_wctl n, rfl⟩)
end

section
open Sys2Proof Sys2Proof.Machine Sys2Proof.Forms

/-- Settles O53: each word is decoded as it stands. -/
theorem decodeWords : Obligations.DecodeWords := by
  unfold Obligations.DecodeWords
  decide
end

section
/-! SUPPORT. What the seven formats decode to: a program word always, and code 2 at every opcode that R63 leaves unassigned. -/

namespace Sys2Proof.Decode

open Forms

/-! ### Every row of the tables is a program word (R63) -/

theorem rawV_isWord (n : Nat) : isWord (rawV n).2 = true := by
  simp only [rawV, logic, vote]
  repeat' split
  all_goals rfl

theorem rawC_isWord (n : Nat) : isWord (rawC n).2 = true := by
  simp only [rawC]
  split <;> rfl

theorem rawM_isWord (n : Nat) : isWord (rawM n).2 = true := by
  simp only [rawM]
  split <;> rfl

theorem rawA_isWord (n : Nat) : isWord (rawA n).2 = true := by
  simp only [rawA]
  split <;> rfl

theorem rawX_isWord (n : Nat) : isWord (rawX n).2 = true := by
  simp only [rawX]
  split
  all_goals (repeat' split) <;> rfl

theorem rawT_isWord (n : Nat) : isWord (rawT n).2 = true := by
  simp only [rawT]
  repeat' split
  all_goals rfl

theorem rawS_isWord (n : Nat) : isWord (rawS n).2 = true := by
  simp only [rawS]
  repeat' split
  all_goals rfl

theorem raw_isWord (n : Nat) : isWord (raw n).2 = true := by
  simp only [raw]
  repeat' split
  · exact rawV_isWord n
  · exact rawC_isWord n
  · exact rawM_isWord n
  · exact rawA_isWord n
  · exact rawX_isWord n
  · exact rawT_isWord n
  · exact rawS_isWord n

/-! ### The opcodes that R63 leaves unassigned -/

/-- An opcode without a row. -/
def Unassigned (k : Nat) : Prop :=
  (0x1E ≤ k ∧ k ≤ 0x1F) ∨ (0x38 ≤ k ∧ k ≤ 0x3F) ∨ (0x46 ≤ k ∧ k ≤ 0x47) ∨ (0x4D ≤ k ∧ k ≤ 0x4F) ∨ k = 0x5F ∨ (0x6E ≤ k ∧ k ≤ 0x6F) ∨
    (0x75 ≤ k ∧ k ≤ 0x7F) ∨ (0x83 ≤ k ∧ k ≤ 0x87) ∨ (0x8B ≤ k ∧ k ≤ 0x8F) ∨ (0x9C ≤ k ∧ k ≤ 0x9F) ∨ (0xAB ≤ k ∧ k ≤ 0xAF) ∨ 0xBC ≤ k

/-- What a format answers for an opcode that is none of its rows: code 2. -/
def noRow : Raw := ([2], .nop ⟨always, 0⟩)

theorem rawV_unassigned {n : Nat} (h : Unassigned (n / 2 ^ 56 % 256)) (_lt : n / 2 ^ 56 % 256 < 0x50) : rawV n = noRow := by
  unfold Unassigned at h
  simp only [rawV, vOf]
  split
  case h_66 => rfl
  all_goals omega

theorem rawC_unassigned {n : Nat} (h : Unassigned (n / 2 ^ 56 % 256)) (_ge : 0x50 ≤ n / 2 ^ 56 % 256) (_lt : n / 2 ^ 56 % 256 < 0x60) :
    rawC n = noRow := by
  unfold Unassigned at h
  simp only [rawC, cOf]
  split
  case h_16 => rfl
  all_goals omega

theorem rawA_unassigned {n : Nat} (h : Unassigned (n / 2 ^ 56 % 256)) (_ge : 0x80 ≤ n / 2 ^ 56 % 256) (_lt : n / 2 ^ 56 % 256 < 0x90) :
    rawA n = noRow := by
  unfold Unassigned at h
  simp only [rawA, aOf]
  split
  case h_7 => rfl
  all_goals omega

theorem rawX_unassigned {n : Nat} (h : Unassigned (n / 2 ^ 56 % 256)) (_ge : 0x60 ≤ n / 2 ^ 56 % 256) (_lt : n / 2 ^ 56 % 256 < 0xA0) :
    rawX n = noRow := by
  unfold Unassigned at h
  simp only [rawX, xOf]
  split
  case h_21 => rfl
  all_goals omega

theorem rawT_unassigned {n : Nat} (h : Unassigned (n / 2 ^ 56 % 256)) (_ge : 0xA0 ≤ n / 2 ^ 56 % 256) (_lt : n / 2 ^ 56 % 256 < 0xB0) :
    rawT n = noRow := by
  unfold Unassigned at h
  simp only [rawT, xOf]
  split
  case h_12 => rfl
  all_goals omega

theorem rawS_unassigned {n : Nat} (h : Unassigned (n / 2 ^ 56 % 256)) (_ge : 0xB0 ≤ n / 2 ^ 56 % 256) : rawS n = noRow := by
  unfold Unassigned at h
  simp only [rawS, sOf]
  split
  case h_13 => rfl
  all_goals omega

theorem raw_unassigned {n : Nat} (h : Unassigned (n / 2 ^ 56 % 256)) : raw n = noRow := by
  simp only [raw, Bool.or_eq_true, Bool.and_eq_true, decide_eq_true_eq]
  split
  · exact rawV_unassigned h ‹_›
  split
  · exact rawC_unassigned h (by omega) ‹_›
  split
  · unfold Unassigned at h; omega
  split
  · exact rawA_unassigned h (by omega) (by omega)
  split
  · exact rawX_unassigned h (by omega) ‹_›
  split
  · exact rawT_unassigned h (by omega) ‹_›
  · exact rawS_unassigned h (by omega)

theorem decode_of_noRow {w : DWord} (h : raw w.toNat = noRow) : decode w = .error 2 := by
  have : wordCodes w = [2] := by rw [wordCodes, h]; rfl
  simp [decode, this, lowest]

end Sys2Proof.Decode

open Sys2Proof Sys2Proof.Machine Sys2Proof.Forms Sys2Proof.Decode

/-- Settles O52: what decodes breaks none of the word's own rules, and an unassigned opcode is a row of no format. -/
theorem decodeRefusals : Obligations.DecodeRefusals := by
  unfold Obligations.DecodeRefusals
  constructor
  · intro w i h
    obtain ⟨hcodes, rfl⟩ := Safety.decode_ok h
    rw [wordCodes, List.append_eq_nil_iff] at hcodes
    rw [Instr.wellFormed, raw_isWord, hcodes.2]
    rfl
  · intro w lo hi hrange hlo hhi
    simp only [List.mem_cons, Prod.mk.injEq, List.not_mem_nil, or_false] at hrange
    refine decode_of_noRow (raw_unassigned ?_)
    unfold Unassigned
    omega
end

section
/-! SUPPORT. SHADOW_COMPARE at a word for which lanes are already recorded as unequal (R384): the shadow has produced its word, so the step
leaves the clause as it stands. -/

namespace Sys2Proof.Safety

open Sys2Proof.Machine Sys2Proof.Claims

/-- `st` of lane words, one of the words that R384 compares. -/
def comparedStore : Instr := .st .n32 (.v 6) (.v 2) 0 .dev .rlx .normal ⟨⟨false, 7⟩, none, 0⟩

/-- A warp of an octave launch waits at the store, and lane 0 of its shadow has differed there. -/
def differed : State :=
  ((State.reset.withFetchWord 64 ((encode comparedStore).getD 0).toNat).modLaunch 0 fun l =>
    { l with info := { l.info with flags := 2 } }).modWarp 0 fun y =>
      { y with clause := y.clause.map fun c => { c with waits := true, differ := 1 } }

/-- The shadow's word is the compared one, and the clause waits for it. -/
def atCompared (c : Clause) : Bool :=
  c.waits && (match c.words with | d :: _ => isCompared (Decode.raw d.toNat).2 | [] => false)

/-- `atCompared` as the statement asks for it. -/
theorem words_of_atCompared {c : Clause} (h : atCompared c = true) :
    c.waits = true ∧ ∃ d ds, c.words = d :: ds ∧ isCompared (Decode.raw d.toNat).2 = true := by
  unfold atCompared at h
  obtain ⟨waits, compared⟩ := Bool.and_eq_true_iff.mp h
  split at compared
  next d ds words => exact ⟨waits, d, ds, words, compared⟩
  next => exact absurd compared (by decide)

/-- The unequal lanes that a warp's clause records. -/
def differOf (s : State) (w : Nat) : Option (Option Mask) := (s.warps[w]?).map fun y => y.clause.map (·.differ)

theorem differed_waits : (differed.warps[0]?).any
    (fun y => !y.ended && differed.octave y && y.clause.any atCompared) = true := by
  decide

/-- The step of the shadow does not take the record away. -/
theorem differOf_shadowCompare_differed : Next (exec (.shadowCompare 0 0) differed) fun t => differOf t 0 = some (some 1) :=
  ⟨_, rfl, by decide⟩

end Sys2Proof.Safety

open Sys2Proof Sys2Proof.Machine Sys2Proof.Safety Sys2Proof.Claims

/-- Refutes O31: the clause on SHADOW_COMPARE does not ask that the shadow has still to produce its word. In `differed` lane 0 is already
recorded as unequal, the shadow has passed the word, and its step leaves that record, where the statement says that the clause agrees. -/
theorem not_issueEvents : ¬ Obligations.IssueEvents := by
  unfold Obligations.IssueEvents
  intro h
  obtain ⟨wp, warp0, waiting⟩ := Option.any_eq_true _ _ |>.mp differed_waits
  simp only [Bool.and_eq_true, Bool.not_eq_true'] at waiting
  obtain ⟨⟨running, octave⟩, clause⟩ := waiting
  obtain ⟨c, hclause, compared⟩ := Option.any_eq_true _ _ |>.mp clause
  obtain ⟨waits, d, ds, words, isComp⟩ := words_of_atCompared compared
  obtain ⟨-, -, -, -, -, shadow⟩ := h differed 0 wp warp0 running
  obtain ⟨t, next, -, agrees⟩ := shadow c d ds hclause words waits isComp octave
  obtain ⟨t', next', records⟩ := differOf_shadowCompare_differed
  obtain rfl : t = t' := Host.Outcome.next.inj (next.symm.trans next')
  have cleared : differOf t 0 = some (some 0) := by
    simpa [differOf, Option.map_map, Function.comp_def] using congrArg (Option.map (Option.map (·.differ))) agrees
  rw [records] at cleared
  exact absurd cleared (by decide)
end

section
/-! SUPPORT. LOAD_REPLY of data that the home has found poisoned (R382): the block ends with its error and the registers get nothing. -/

namespace Sys2Proof.Safety

open Sys2Proof.Machine Sys2Proof.Claims

/-- A load of a signed byte into v9 of lane 0 that has its value, 0x85, from a poisoned byte. -/
def poisonedLoad : Req :=
  { id := 3, owner := ⟨0, 0, 0⟩, warp := 0, seq := 1, word := 0x10008, grp := 1, op := .load .i8 (.v 9), scope := .dev, order := .rlx, hint := .normal,
    cls := 0, loc := none, place := ⟨0, 0, 0, true, 0, 0⟩, accs := [⟨0, 0x40000000, 0, 1, [], [some 0x85]⟩], ctr := none, unif := false, mask := 1,
    floor := false, serves := false, bounces := 0, reason := 0, st := .ordered, due := 0, stale := false, fault := none, admitted := true, hops := [],
    waitFrom := none, took := 0, poison := true }

/-- That load is the only request, and its register is owed to it. -/
def poisonedReply : State :=
  ({ State.reset.withFetchWord 64 0 with reqs := [poisonedLoad], nextId := 9 }).modWarp 0 fun y => { y with pend := pendTag 0 (.v 9) 3 1 }

theorem under_poisonedReply : Under poisonedReply poisonedLoad :=
  ⟨List.mem_singleton.mpr rfl, fun _ hq _ => List.mem_singleton.mp hq⟩

/-- What the register of the load holds. -/
def v9Of (s : State) : Option Word := (s.warps[0]?).map fun y => holds y (.v 0 9)

theorem pend_poisonedReply : (poisonedReply.warps[0]?).map (·.pend) = some (pendTag 0 (.v 9) 3 1) := rfl

/-- The reply writes nothing: v9 keeps the 0 of reset. -/
theorem v9Of_loadReply_poisonedReply : Next (exec (.loadReply 3 .clean) poisonedReply) fun t => v9Of t = some 0 :=
  ⟨_, rfl, by decide⟩

end Sys2Proof.Safety

open Sys2Proof Sys2Proof.Machine Sys2Proof.Safety Sys2Proof.Claims

/-- Refutes O32: the clause on LOAD_REPLY does not ask that the data is without poison. In `poisonedReply` the home has read a poisoned byte,
so the reply ends the block and gives v9 no value (R382, R383). -/
theorem not_replyEvents : ¬ Obligations.ReplyEvents := by
  unfold Obligations.ReplyEvents
  intro h
  obtain ⟨wp, warp0, owed⟩ := Option.map_eq_some_iff.mp pend_poisonedReply
  obtain ⟨loads, -, -⟩ := h poisonedReply poisonedLoad wp under_poisonedReply warp0 rfl
  obtain ⟨⟨t, next, -, -, writes⟩, -⟩ := loads .i8 (.v 9) rfl
  obtain ⟨gets, -⟩ := writes (by simp [owed, pendTag, dstOf, inFile]) (.v 0 9) (by simp [inFile])
  obtain ⟨t', next', unchanged⟩ := v9Of_loadReply_poisonedReply
  obtain rfl : t = t' := Host.Outcome.next.inj (next.symm.trans next')
  have delivered : v9Of t = some 0xFFFFFF85 := gets _ (by rw [owed]; rfl) rfl rfl
  rw [unchanged] at delivered
  exact absurd delivered (by decide)
end

section
/-! SUPPORT. What every word of engine class 0 does (R36): it writes its destination register or predicate in lanes that take part, at a fixed
latency, and sets flags; nothing else changes. -/

namespace Sys2Proof.Safety

open Sys2Proof.Machine Sys2Proof.Forms Sys2Proof.Claims

/-! ### Results of a word (R49, R57) -/

/-- A write with its value, of the word's destination register or predicate in a participating lane. -/
def IsResult (x : Iss) (i : Instr) (p : Pend) : Prop :=
  p.tag = none ∧ p.val.isSome = true ∧
    ∃ l ∈ lanesIn x.part, (∃ u ∈ uses x.w64 i, u.dst = true ∧ ∃ k, k < u.n ∧ p.dst = dstOf l u.reg k) ∨ ∃ q, qdOf i = some q ∧ p.dst = .q l q.val

/-- The outcome is a next state in which the word's warp has results of the word and flags, and nothing else has changed. -/
def GivesResults (s : State) (x : Iss) (i : Instr) (o : Res) : Prop :=
  Next o fun t => KeepsOthers s t x.w ∧ ∃ ps fl, Gets s t x.w ps fl ∧ ∀ p ∈ ps, IsResult x i p

theorem mem_pendN {l : Nat} {r : Reg} {v c n : Nat} {p : Pend} (h : p ∈ pendN l r v c n) :
    ∃ k, k < n ∧ p.dst = dstOf l r k ∧ p.tag = none ∧ p.val.isSome = true := by
  induction n with
  | zero => exact absurd h List.not_mem_nil
  | succ n ih =>
    rcases List.mem_append.mp h with earlier | last
    · obtain ⟨k, hk, rest⟩ := ih earlier
      exact ⟨k, Nat.lt_succ_of_lt hk, rest⟩
    · obtain rfl := List.mem_singleton.mp last
      exact ⟨n, Nat.lt_succ_self n, rfl, rfl, rfl⟩

theorem mem_resN {u : Bool} {l : Nat} {r : Reg} {v c n : Nat} {p : Pend} (h : p ∈ resN u l r v c n) : p ∈ pendN l r v c n := by
  unfold resN at h
  split at h
  · exact absurd h List.not_mem_nil
  · exact h

theorem mem_acts {x : Iss} {i : Instr} {l : Nat} (h : l ∈ x.acts i) : l ∈ lanesIn x.part := by
  unfold Iss.acts at h
  split at h
  · exact List.mem_of_mem_take h
  · exact h

theorem mem_once {d : Reg} {ls : List Nat} {l : Nat} (h : l ∈ (if Reg.isS d then ls.take 1 else ls)) : l ∈ ls := by
  split at h
  · exact List.mem_of_mem_take h
  · exact h

theorem isResult_resN {x : Iss} {i : Instr} {d : Reg} {n l v c : Nat} {u : Bool} (hd : dout d n ∈ uses x.w64 i) (hl : l ∈ lanesIn x.part)
    {p : Pend} (h : p ∈ resN u l d v c n) : IsResult x i p := by
  obtain ⟨k, hk, dst, tag, val⟩ := mem_pendN (mem_resN h)
  exact ⟨tag, val, l, hl, .inl ⟨_, hd, rfl, k, hk, dst⟩⟩

theorem isResult_pendQ {x : Iss} {i : Instr} {q : Fin 8} (hq : qdOf i = some q) {l : Nat} (hl : l ∈ lanesIn x.part) (b : Bool) (c : Nat) :
    IsResult x i (pendQ l q b c) :=
  ⟨rfl, rfl, l, hl, .inr ⟨q, hq, rfl⟩⟩

/-! ### The shapes of the words -/

section
variable {s : State} {x : Iss} {i : Instr} (h : s.iss i = some x)
include h

theorem givesResults_regWord {d : Reg} {n : Nat} (hd : dout d n ∈ uses x.w64 i) (lat : Nat) (f : Iss → Nat → Nat × Nat) :
    GivesResults s x i (s.regWord i d n lat f) := by
  obtain ⟨t, next, gets, others⟩ := regWord_spec h d n lat f
  refine ⟨t, next, others, _, _, gets, fun p hp => ?_⟩
  obtain ⟨l, hl, hpl⟩ := List.mem_flatMap.mp hp
  exact isResult_resN hd (mem_acts hl) hpl

theorem givesResults_sharedWord {d : Reg} {n : Nat} (hd : dout d n ∈ uses x.w64 i) (lat : Nat) (f : Iss → Nat × Nat) :
    GivesResults s x i (s.sharedWord i d n lat f) := by
  obtain ⟨t, next, gets, others⟩ := sharedWord_spec h d n lat f
  refine ⟨t, next, others, _, _, gets, fun p hp => ?_⟩
  obtain ⟨l, hl, hpl⟩ := List.mem_flatMap.mp hp
  exact isResult_resN hd (mem_once hl) hpl

theorem givesResults_qWord {q : Fin 8} (hq : qdOf i = some q) (lat : Nat) (f : Iss → Nat → Bool × Nat) :
    GivesResults s x i (s.qWord i q lat f) := by
  obtain ⟨t, next, gets, others⟩ := qWord_spec h q lat f
  refine ⟨t, next, others, _, _, gets, fun p hp => ?_⟩
  obtain ⟨l, hl, rfl⟩ := List.mem_map.mp hp
  exact isResult_pendQ hq hl _ _

/-- A word that retires with results of its own, whatever computes them. -/
theorem givesResults_retire {o : Res} {u : Bool} {ps : List Pend} {fl : Nat} (ho : o = .next (s.retire x u ps fl))
    (hps : ∀ p ∈ ps, IsResult x i p) : GivesResults s x i o := by
  obtain ⟨wp, hw⟩ := (iss_warp h).2
  obtain ⟨gets, others⟩ := retire_spec s x u ps fl hw
  exact ⟨_, ho, others, ps, fl, gets, hps⟩

/-- A conversion whose slot holds a format is a register word (R128). -/
theorem givesResults_slotWord {slot : Fin 8} {d : Reg} {u : SlotUse} (hslot : slotCheck u (s.slotOf x.wp slot.val) = none)
    (hd : dout d 1 ∈ uses x.w64 i) (f : Slot → Iss → Nat → Nat × Nat) : GivesResults s x i (s.slotWord i u slot d f) := by
  have e : s.slotWord i u slot d f = s.regWord i d 1 6 (f (slotRead (s.slotOf x.wp slot.val))) := by
    simp only [State.slotWord, h, hslot]
  exact e ▸ givesResults_regWord h hd 6 _

end

/-- A scan names lanes of its list only (R168). -/
theorem fst_mem_of_mem_scanAll (o : ScanOp) (t : Ty) (val : Nat → Nat) (ls : List Nat) : ∀ e ∈ (scanAll o t val ls).1, e.1 ∈ ls := by
  unfold scanAll
  refine List.foldlRecOn ls _ (motive := fun (acc : List (Nat × Nat) × Option Nat × Nat) => ∀ e ∈ acc.1, e.1 ∈ ls)
    (fun e he => absurd he List.not_mem_nil) fun acc ih l hl e he => ?_
  split at he
  · obtain rfl := List.mem_singleton.mp he
    exact hl
  · rcases List.mem_append.mp he with before | here
    · exact ih e before
    · obtain rfl := List.mem_singleton.mp here
      exact hl

theorem givesResults_scan {s : State} {x : Iss} {o : ScanOp} {t : Ty} {d a : Reg} {y : VTail} (h : s.iss (.scan o t d a y) = some x) :
    GivesResults s x (.scan o t d a y) (execScan o t d a y s) := by
  refine givesResults_retire h (atIssue_some h _) fun p hp => ?_
  obtain ⟨e, he, hpe⟩ := List.mem_flatMap.mp hp
  exact isResult_resN (.head _) (fst_mem_of_mem_scanAll _ _ _ _ e he) hpe

theorem givesResults_cvtq {s : State} {x : Iss} {k : Fin 8} {d a b : Reg} {y : VTail} (h : s.iss (.cvtq k d a b y) = some x)
    (slot : slotCheck .cvtq (s.slotOf x.wp k.val) = none) : GivesResults s x (.cvtq k d a b y) (execCvtq k d a b y s) :=
  givesResults_slotWord h slot (.head _) _

theorem givesResults_cvtd {s : State} {x : Iss} {k : Fin 8} {d a b : Reg} {y : VTail} (h : s.iss (.cvtd k d a b y) = some x)
    (slot : slotCheck .cvtd (s.slotOf x.wp k.val) = none) : GivesResults s x (.cvtd k d a b y) (execCvtd k d a b y s) :=
  givesResults_slotWord h slot (.head _) _

theorem givesResults_lanes {s : State} {x : Iss} {m : LanesMode} {t : Ty} {d : Reg} {y : VTail} (h : s.iss (.lanes m t d y) = some x) :
    GivesResults s x (.lanes m t d y) (execLanes m t d y s) := by
  unfold execLanes
  split
  · split
    · exact givesResults_retire h (atIssue_some h _) fun p hp => absurd hp List.not_mem_nil
    · exact givesResults_regWord h (.head _) 8 _
  · exact givesResults_sharedWord h (.head _) 8 _

/-! ### All of them -/

/-- A word that converts through a format slot has a slot that its check lets pass (R128, R129). -/
def SlotHolds (s : State) (x : Iss) : Instr → Prop
  | .cvtq k _ _ _ _ => slotCheck .cvtq (s.slotOf x.wp k.val) = none
  | .cvtd k _ _ _ _ => slotCheck .cvtd (s.slotOf x.wp k.val) = none
  | _ => True

theorem givesResults_of_isPlain {s : State} {x : Iss} {i : Instr} (plain : isPlain i = true) (h : s.iss i = some x) (slot : SlotHolds s x i) :
    GivesResults s x i (exec i s) := by
  cases i with
  -- integer words (R145 to R153)
  | iadd | isub | imul | imulh | imad | imadw | iaddc | imin | imax | iabs | ineg | isad | land | lor | lxor | landn | lnot | lsel | shl | shr | sar |
    rot | bfx | bfi | popc | clz | ctz | brev | lea | sel | mov | movi | movhi => exact givesResults_regWord h (.head _) _ _
  -- float words, special functions and pairs (R154 to R159)
  | fadd | fsub | fmul | ffma | fmin | fmax | fneg | fabs | fclass | frcp | frsq | fsqrt | fexp2 | flog2 | fsin | fcos | dadd | dmul | dfma | hadd2 |
    hmul2 | hfma2 => exact givesResults_regWord h (.head _) _ _
  -- conversions (R160, R163, R164) and `shfl` (R166)
  | cvt | trpack | trunpack | pack2 | shfl => exact givesResults_regWord h (.head _) _ _
  -- conversions through a slot (R161, R162)
  | cvtq => exact givesResults_cvtq h slot
  | cvtd => exact givesResults_cvtd h slot
  -- comparisons and votes into a predicate (R153, R155, R158, R167)
  | icmp | fcmp | dcmp | voteAny | voteAll | voteEq => exact givesResults_qWord h rfl _ _
  -- one value over the lanes (R167, R168)
  | voteBallot | redux => exact givesResults_sharedWord h (.head _) _ _
  | scan => exact givesResults_scan h
  | lanes => exact givesResults_lanes h
  -- words and events of the other classes
  | _ => cases plain

end Sys2Proof.Safety

open Sys2Proof Sys2Proof.Machine Sys2Proof.Safety Sys2Proof.Claims

/-- Settles O8, by the shape of each word's meaning: results in its acting lanes, a value shared by its lanes, or a predicate per lane. -/
theorem vectorFrame : Obligations.VectorFrame := by
  intro s i x plain issues cvtq cvtd
  refine givesResults_of_isPlain plain issues ?_
  unfold SlotHolds
  split
  · exact cvtq _ _ _ _ _ rfl
  · exact cvtd _ _ _ _ _ rfl
  · trivial
end

section
/-! SUPPORT. The control words that end with `wordDone` change no register, memory, block or special register (R265 to R269). -/

namespace Sys2Proof.Safety

open Sys2Proof.Machine Sys2Proof.Forms Sys2Proof.Claims

/-- The word goes on to the next one, with register writes and flags of its own, and changes nothing else (R49, R57). -/
def Completes (s : State) (x : Iss) (o : Res) : Prop := Next o fun u => (∃ ps fl, Gets s u x.w ps fl) ∧ KeepsOthers s u x.w

theorem completes_of_isPlain {s : State} {x : Iss} {i : Instr} (plain : isPlain i = true) (slot : SlotHolds s x i) (h : s.iss i = some x) :
    Completes s x (exec i s) := by
  obtain ⟨t, next, others, ps, fl, gets, -⟩ := givesResults_of_isPlain plain h slot
  exact ⟨t, next, ⟨ps, fl, gets⟩, others⟩

/-- A word whose meaning at its issue keeps everything completes without a write. -/
theorem completes_of_keepsAll {s : State} {x : Iss} {i : Instr} {f : Iss → State} {o : Res} (h : s.iss i = some x) (ho : o = s.atIssue i f)
    (keeps : KeepsAll s (f x)) : Completes s x o := by
  obtain ⟨wp, hw⟩ := (iss_warp h).2
  exact ⟨_, ho.trans (atIssue_some h f), ⟨[], 0, keeps.gets hw⟩, keeps.keepsOthers _⟩

/-- A change to a warp that keeps its registers, and the word's end. -/
theorem keepsAll_modWarp_wordDone (s : State) (x : Iss) (unif : Bool) (f : Warp → Warp) (hf : ∀ w, regsOf (f w) = regsOf w) :
    KeepsAll s ((s.modWarp x.w f).wordDone x unif) :=
  (keepsAll_modWarp s x.w f hf).trans (keepsAll_wordDone ..)

theorem regsOf_goOnLanes (w : Warp) (m : Mask) : regsOf (w.mapLanes m fun _ y => y.goOn) = regsOf w :=
  regsOf_mapLanes w m _ fun _ _ => rfl

theorem keepsAll_passBaton (s : State) (b n : Nat) : KeepsAll s (s.passBaton b n) := by
  unfold State.passBaton
  dsimp only
  split
  next k _ =>
    refine (keepsAll_modBlk s b (fun y => { y with baton := k }) fun _ => rfl).trans (keepsAll_mapWarps _ _ fun w => ?_)
    split
    · exact regsOf_endWaits ..
    · rfl
  next => exact .refl s

theorem keepsAll_exitWarp (s : State) (w : Nat) (m : Mask) : KeepsAll s (s.exitWarp w m) := by
  unfold State.exitWarp
  refine (keepsAll_modWarp s w (Warp.exitLanes s.clk.cyc m) fun x => regsOf_exitLanes x s.clk.cyc m).trans ?_
  dsimp only
  split
  next => exact .refl _
  next wp _ =>
    refine (keepsAll_bsyncFix _ wp.blk).trans ?_
    split
    · split
      · split
        · exact keepsAll_passBaton ..
        · exact .refl _
      · exact .refl _
    · exact .refl _

/-! ### The words -/

section
variable {s : State} {x : Iss} (e : Tail)

theorem completes_nop (h : s.iss (.nop e) = some x) : Completes s x (execNop e s) :=
  completes_of_keepsAll h rfl (keepsAll_wordDone ..)

theorem completes_yield (h : s.iss (.yield e) = some x) : Completes s x (execYield e s) := by
  refine completes_of_keepsAll h rfl ?_
  split
  · exact keepsAll_wordDone ..
  · exact keepsAll_modWarp_wordDone _ _ _ _ fun _ => rfl

theorem completes_exit (h : s.iss (.exit e) = some x) : Completes s x (execExit e s) :=
  completes_of_keepsAll h rfl
    (((keepsAll_modWarp s x.w _ fun w => regsOf_leaveClause w x.part).trans (keepsAll_exitWarp ..)).trans (keepsAll_wordDone ..))

theorem completes_jenter (j : Fin 12) (h : s.iss (.jenter j e) = some x) : Completes s x (execJenter j e s) :=
  completes_of_keepsAll h rfl (keepsAll_modWarp_wordDone _ _ _ _ fun _ => rfl)

theorem completes_jquit (j : Fin 12) (h : s.iss (.jquit j e) = some x) : Completes s x (execJquit j e s) :=
  completes_of_keepsAll h rfl (keepsAll_modWarp_wordDone _ _ _ _ fun w => by rw [regsOf_wdStart, regsOf_checkSet]; rfl)

theorem completes_jclear (j : Fin 12) (h : s.iss (.jclear j e) = some x) : Completes s x (execJclear j e s) := by
  refine completes_of_keepsAll h rfl ?_
  split
  · exact keepsAll_wordDone ..
  · exact keepsAll_modWarp_wordDone _ _ _ _ fun w => (regsOf_wdStart ..).trans (regsOf_goOnLanes (w.putSet j.val 0 0) _)

theorem completes_jwrite (j : Fin 12) (a : Reg) (h : s.iss (.jwrite j a e) = some x) : Completes s x (execJwrite j a e s) := by
  refine completes_of_keepsAll h rfl ?_
  split
  · exact keepsAll_wordDone ..
  · refine keepsAll_modWarp_wordDone _ _ _ _ fun w => ?_
    rw [regsOf_wdStart, regsOf_checkSet]
    exact regsOf_goOnLanes (w.putSet j.val _ _) _

theorem completes_jread (d : Reg) (j : Fin 12) (h : s.iss (.jread d j e) = some x) : Completes s x (execJread d j e s) := by
  obtain ⟨wp, hw⟩ := (iss_warp h).2
  obtain ⟨gets, others⟩ := retire_spec s x false _ 0 hw
  exact ⟨_, atIssue_some h _, ⟨_, _, gets⟩, others⟩

end

end Sys2Proof.Safety

open Sys2Proof Sys2Proof.Machine Sys2Proof.Safety Sys2Proof.Claims

/-- Settles O9: the words of engine class 0 write their results only, and the control words keep every register but for the result of `jread`. -/
theorem wordsComplete : Obligations.WordsComplete := by
  intro s x t dt st f z r k q p m o lm j d a b c y e completes
  have plain : ∀ is : List Instr, (∀ i ∈ is, isPlain i = true ∧ SlotHolds s x i) → ∀ i ∈ is, completes i :=
    fun is his i hi => completes_of_isPlain (his i hi).1 (his i hi).2
  refine ⟨plain _ ?_, plain _ ?_, plain _ ?_, plain _ ?_, plain _ ?_, fun slot => ?_,
    fun slot => ?_, plain _ ?_, fun _ => ?_⟩
  case refine_6 => exact completes_of_isPlain (i := .cvtq p d a b y) rfl slot
  case refine_7 => exact completes_of_isPlain (i := .cvtd p d a b y) rfl slot
  case refine_9 =>
    simp only [List.forall_mem_cons, List.not_mem_nil, false_imp_iff, implies_true, and_true]
    exact ⟨completes_nop e, completes_yield e, completes_exit e, completes_jenter e j, completes_jquit e j, completes_jclear e j,
      completes_jwrite e j a, completes_jread e d j⟩
  all_goals
    simp only [List.forall_mem_cons, List.not_mem_nil, false_imp_iff, implies_true, and_true]
    and_intros <;> trivial
end

section
/-! SUPPORT. Lanes at the end of a word: a lane outside the clause stays where it stands when the word ends, unless a trap is due to its warp or
its block is ending (R44, R57). -/

namespace Sys2Proof.Safety

open Sys2Proof.Machine Sys2Proof.Forms Sys2Proof.Claims

/-! ### Masks and lists of lanes -/

theorem mem_lanesIn {m : Mask} {l : Nat} : l ∈ lanesIn m ↔ m.getLsbD l = true := by
  simp only [lanesIn, List.mem_filter, List.mem_range, and_iff_right_iff_imp]
  exact fun h => BitVec.lt_of_getLsbD h

theorem getLsbD_bit (k l : Nat) : (1#64 <<< k).getLsbD l = (decide (l < 64) && decide (l = k)) := by
  rw [BitVec.getLsbD_shiftLeft, BitVec.getLsbD_one]
  grind

theorem getLsbD_maskOf (ls : List Nat) (l : Nat) : (maskOf ls).getLsbD l = (decide (l < 64) && decide (l ∈ ls)) := by
  have key : ∀ m : Mask, (ls.foldl (fun m k => m ||| (1#64 <<< k)) m).getLsbD l = (m.getLsbD l || (decide (l < 64) && decide (l ∈ ls))) := by
    induction ls with
    | nil => simp
    | cons k ls ih =>
      intro m
      rw [List.foldl_cons, ih, BitVec.getLsbD_or, getLsbD_bit]
      grind
  rw [maskOf, key]
  simp

theorem getLsbD_lanesWhere (m : Mask) (f : Nat → Bool) (l : Nat) : (lanesWhere m f).getLsbD l = (m.getLsbD l && f l) := by
  rw [lanesWhere, getLsbD_maskOf, Bool.eq_iff_iff]
  simp only [Bool.and_eq_true, decide_eq_true_eq, List.mem_filter, mem_lanesIn]
  exact ⟨fun h => h.2, fun h => ⟨BitVec.lt_of_getLsbD h.1, h⟩⟩

theorem lanesWhere_eq_self {m : Mask} {f : Nat → Bool} (h : ∀ l, m.getLsbD l = true → f l = true) : lanesWhere m f = m := by
  refine BitVec.eq_of_getLsbD_eq fun l _ => ?_
  rw [getLsbD_lanesWhere]
  cases e : m.getLsbD l with
  | true => exact h l e
  | false => rfl

theorem lanesWhere_eq_zero {m : Mask} {f : Nat → Bool} (h : ∀ l, m.getLsbD l = true → f l = false) : lanesWhere m f = 0 := by
  refine BitVec.eq_of_getLsbD_eq fun l _ => ?_
  rw [getLsbD_lanesWhere]
  cases e : m.getLsbD l with
  | true => simp [h l e]
  | false => simp

theorem length_lanesIn_le (m : Mask) : (lanesIn m).length ≤ 64 :=
  (List.length_filter_le _ _).trans_eq (List.length_range ..)

/-! ### Where a warp stands -/

/-- The warp has no trap due, and its block runs: no lane is taken from it when its clause ends (`Calm`, of a state). -/
def Runs (s : State) (w : Nat) : Prop :=
  ∃ wp, s.warps[w]? = some wp ∧ wp.due = [] ∧ (s.blocks[wp.blk]?).map (·.st) = some .running

/-- The lane is not in the clause of its warp. -/
def Left (s : State) (w l : Nat) : Prop := ∀ wp cl, s.warps[w]? = some wp → wp.clause = some cl → cl.set.getLsbD l = false

/-- What `Runs`, `Left` and `laneOf` speak of, for a warp. -/
def standOf (y : Warp) : List Lane × List Due × Nat × Option Clause := (y.lanes, y.due, y.blk, y.clause)

/-- The warp stands as it did, and the blocks are in their states. -/
def SameStand (s t : State) (w : Nat) : Prop :=
  (t.warps[w]?).map standOf = (s.warps[w]?).map standOf ∧ t.blocks.map (·.st) = s.blocks.map (·.st)

theorem SameStand.refl (s : State) (w : Nat) : SameStand s s w := ⟨rfl, rfl⟩

theorem SameStand.trans {s t u : State} {w : Nat} (h : SameStand s t w) (k : SameStand t u w) : SameStand s u w :=
  ⟨k.1.trans h.1, k.2.trans h.2⟩

/-- The warp of the earlier state is one of the later state, that stands as it did. -/
theorem SameStand.warp {s t : State} {w : Nat} (h : SameStand s t w) {y : Warp} (hy : t.warps[w]? = some y) :
    ∃ x, s.warps[w]? = some x ∧ y.lanes = x.lanes ∧ y.due = x.due ∧ y.blk = x.blk ∧ y.clause = x.clause := by
  have e := h.1
  rw [hy, Option.map_some, eq_comm, Option.map_eq_some_iff] at e
  obtain ⟨x, hx, e⟩ := e
  simp only [standOf, Prod.mk.injEq] at e
  obtain ⟨lanes, due, blk, clause⟩ := e
  exact ⟨x, hx, lanes.symm, due.symm, blk.symm, clause.symm⟩

theorem SameStand.symm {s t : State} {w : Nat} (h : SameStand s t w) : SameStand t s w := ⟨h.1.symm, h.2.symm⟩

theorem SameStand.laneOf {s t : State} {w : Nat} (h : SameStand s t w) (l : Nat) : laneOf t w l = laneOf s w l := by
  have e := congrArg (·.bind fun o => o.1[l]?) h.1
  simpa [Safety.laneOf, standOf, Option.bind_map, Function.comp_def] using e

theorem SameStand.runs {s t : State} {w : Nat} (h : SameStand s t w) (runs : Runs s w) : Runs t w := by
  obtain ⟨x, hx, due, st⟩ := runs
  obtain ⟨y, hy, -, hdue, hblk, -⟩ := h.symm.warp hx
  have e := congrArg (·[x.blk]?) h.2
  simp only [List.getElem?_map] at e
  exact ⟨y, hy, hdue.symm.trans due, by rw [← hblk, e, st]⟩

theorem SameStand.left {s t : State} {w l : Nat} (h : SameStand s t w) (left : Left s w l) : Left t w l := by
  intro y cl hy hcl
  obtain ⟨x, hx, -, -, -, hc⟩ := h.warp hy
  exact left x cl hx (hc.symm.trans hcl)

theorem sameStand_modWarp (s : State) (w k : Nat) (f : Warp → Warp) (hf : ∀ y, standOf (f y) = standOf y) : SameStand s (s.modWarp k f) w := by
  refine ⟨?_, rfl⟩
  simp only [State.modWarp_warps, List.getElem?_modify]
  cases s.warps[w]? with
  | none => rfl
  | some y => by_cases e : k = w <;> simp [e, hf]

theorem sameStand_foldl {α : Type} {w : Nat} (g : State → α → State) (h : ∀ s a, SameStand s (g s a) w) (ls : List α) (s : State) :
    SameStand s (ls.foldl g s) w := by
  induction ls generalizing s with
  | nil => exact .refl s w
  | cons a ls ih => exact (h s a).trans (ih (g s a))

theorem sameStand_partDone (s : State) (w k g : Nat) (c : Option Nat) : SameStand s (s.partDone k g c) w := by
  unfold State.partDone
  split
  · exact .refl s w
  · exact sameStand_modWarp s w k _ fun y => by cases c <;> rfl

theorem sameStand_bwaitsEnd (s : State) (w k : Nat) (old : Warp) : SameStand s (s.bwaitsEnd k old) w := by
  unfold State.bwaitsEnd
  split
  · exact .refl s w
  · exact sameStand_foldl _ (fun _ _ => sameStand_partDone ..) _ _

theorem sameStand_barrierMissed (s : State) (w b : Nat) : SameStand s (s.barrierMissed b) w := by
  refine ⟨rfl, List.ext_getElem? fun k => ?_⟩
  simp only [State.barrierMissed, State.modBlk_blocks, List.getElem?_map, List.getElem?_modify]
  cases s.blocks[k]? with
  | none => rfl
  | some y => by_cases e : b = k <;> simp [e]

/-! ### Changes to the warp itself -/

theorem laneOf_modWarp (s : State) (w l : Nat) (f : Warp → Warp) : laneOf (s.modWarp w f) w l = (s.warps[w]?).bind fun y => (f y).lanes[l]? := by
  simp [laneOf, Option.bind_map]

theorem laneOf_modWarp_of_lanes (s : State) (w l : Nat) {f : Warp → Warp} (hf : ∀ y, (f y).lanes[l]? = y.lanes[l]?) :
    laneOf (s.modWarp w f) w l = laneOf s w l := by
  simp only [laneOf_modWarp, hf]
  rfl

theorem runs_modWarp {s : State} {w : Nat} {f : Warp → Warp} (due : ∀ y, (f y).due = y.due) (blk : ∀ y, (f y).blk = y.blk) (h : Runs s w) :
    Runs (s.modWarp w f) w := by
  obtain ⟨x, hx, hdue, st⟩ := h
  exact ⟨f x, by simp [hx], (due x).trans hdue, by rw [blk]; exact st⟩

theorem left_modWarp {s : State} {w l : Nat} {f : Warp → Warp} (hf : ∀ y c, (f y).clause = some c → c.set.getLsbD l = false) :
    Left (s.modWarp w f) w l := by
  intro y c hy hc
  rw [State.modWarp_warps, List.getElem?_modify_eq] at hy
  obtain ⟨x, -, rfl⟩ := Option.map_eq_some_iff.mp hy
  exact hf x c hc

@[simp] theorem mapLanes_lanes_get (y : Warp) (m : Mask) (f : Nat → Lane → Lane) (l : Nat) :
    (y.mapLanes m f).lanes[l]? = (y.lanes[l]?).map fun z => if m.getLsbD l then f l z else z := by
  simp [Warp.mapLanes]

/-- Lanes that have left the clause are not in it. -/
theorem leaveClause_set {y : Warp} {m : Mask} {c : Clause} (h : (y.leaveClause m).clause = some c) {l : Nat} (hl : m.getLsbD l = true) :
    c.set.getLsbD l = false := by
  obtain ⟨d, -, rfl⟩ := Option.map_eq_some_iff.mp h
  simp [hl]

/-! ### The end of a word (R44, R57) -/

theorem deliverDue_of_due_nil {s : State} {w : Nat} {wp : Warp} (hw : s.warps[w]? = some wp) (due : wp.due = []) :
    s.deliverDue w = s.modWarp w fun y => { y with due := [] } := by
  simp [State.deliverDue, hw, due]

/-- The warp of a clause at its boundary: the lanes left in the issuing set stand behind its last word. -/
def behind (s : State) (cl : Clause) (y : Warp) : Warp :=
  { y.mapLanes cl.set (fun _ z => { z with pc := cl.next, hdr := none, via := none }) with
    clause := none, yielded := if cl.hdr.yield then some s.clk.cyc else y.yielded
    cls := ((s.launchOf y).map fun (k : Launch) => k.cls).getD y.cls }

/-- A boundary at which no lane is taken only moves the lanes of the issuing set. -/
theorem boundary_of_runs {s : State} {w : Nat} (cl : Clause) (runs : Runs s w) :
    s.boundary w cl = ({ s with cur := none }.modWarp w (behind s cl)).modWarp w fun y => { y with due := [] } := by
  obtain ⟨wp, hw, due, st⟩ := runs
  obtain ⟨b, hb, run⟩ := Option.map_eq_some_iff.mp st
  have here : ({ s with cur := none }.modWarp w (behind s cl)).warps[w]? = some (behind s cl wp) := by simp [hw]
  simp only [State.boundary]
  split
  next none_ => exact absurd (none_.symm.trans here) (by simp)
  next y some_ =>
    obtain rfl : y = behind s cl wp := Option.some.inj (some_.symm.trans here)
    split
    next c hc =>
      obtain rfl : c = b := Option.some.inj (hc.symm.trans hb)
      rw [if_neg (by rw [run]; decide)]
      exact deliverDue_of_due_nil here due
    next => exact deliverDue_of_due_nil here due

/-- A clause boundary leaves a lane that is not in the issuing set alone. -/
theorem laneOf_boundary {s : State} {w l : Nat} {cl : Clause} (runs : Runs s w) (out : cl.set.getLsbD l = false) :
    laneOf (s.boundary w cl) w l = laneOf s w l := by
  rw [boundary_of_runs cl runs]
  refine (laneOf_modWarp_of_lanes (f := fun y => { y with due := [] }) _ w l fun _ => rfl).trans
    (laneOf_modWarp_of_lanes { s with cur := none } w l fun y => ?_)
  simp [behind, Warp.mapLanes, out]

/-- The state with the word's issues spent, between words (R141, R297). -/
def spent (s : State) (x : Iss) (unif : Bool) : State := { s.useIssue x unif with cur := none }

/-- A word ends with a change to its warp, behind which the clause goes on or is at its boundary. -/
theorem wordDone_cases {s : State} {x : Iss} {wp : Warp} (unif : Bool) (hw : s.warps[x.w]? = some wp) :
    ∃ f : Warp → Warp, (∀ y, (f y).lanes = y.lanes ∧ (f y).due = y.due ∧ (f y).blk = y.blk) ∧
      (s.wordDone x unif = (spent s x unif).modWarp x.w f ∨
        ∃ cl cl', wp.clause = some cl ∧ cl'.set = cl.set ∧ s.wordDone x unif = ((spent s x unif).modWarp x.w f).boundary x.w cl') := by
  unfold State.wordDone
  rw [hw]
  dsimp only
  split
  next =>
    refine ⟨_, ?_, .inl rfl⟩
    exact fun _ => ⟨rfl, rfl, rfl⟩
  next cl hc =>
    split
    · refine ⟨_, ?_, .inr ⟨cl, _, hc, ?_, rfl⟩⟩
      · exact fun _ => ⟨rfl, rfl, rfl⟩
      · rfl
    · refine ⟨_, ?_, .inl rfl⟩
      exact fun _ => ⟨rfl, rfl, rfl⟩

/-- A lane that is not in the clause stays as it is when the word ends. -/
theorem laneOf_wordDone {s : State} {x : Iss} {l : Nat} (unif : Bool) (runs : Runs s x.w) (left : Left s x.w l) :
    laneOf (s.wordDone x unif) x.w l = laneOf s x.w l := by
  obtain ⟨wp, hw, -⟩ := id runs
  obtain ⟨f, hf, goes | ⟨cl, cl', hc, hset, ends⟩⟩ := wordDone_cases unif hw
  · rw [goes]
    exact laneOf_modWarp_of_lanes (spent s x unif) x.w l fun y => by rw [(hf y).1]
  · have runs' : Runs ((spent s x unif).modWarp x.w f) x.w :=
      runs_modWarp (s := spent s x unif) (fun y => (hf y).2.1) (fun y => (hf y).2.2) runs
    rw [ends, laneOf_boundary runs' (hset ▸ left wp cl hw hc)]
    exact laneOf_modWarp_of_lanes (spent s x unif) x.w l fun y => by rw [(hf y).1]

theorem runs_of_calm {s : State} {i : Instr} {x : Iss} (calm : Calm s x) (h : s.iss i = some x) : Runs s x.w := by
  obtain ⟨wp, ds, hw, -, -, hx⟩ := iss_spec h
  obtain ⟨due, b, hb, run⟩ := calm
  rw [hx] at due hb
  exact ⟨wp, hw, due, by rw [show s.blocks[wp.blk]? = some b from hb, Option.map_some, run]⟩

end Sys2Proof.Safety
end

section
/-! SUPPORT. Control transfers (R44, R262, R263): lanes with good targets jump, a lane with a bad one takes the encoding trap at the transfer word. -/

namespace Sys2Proof.Safety

open Sys2Proof.Machine Sys2Proof.Forms Sys2Proof.Claims

/-! ### Good targets -/

/-- The lane of a transfer at its target (R44). -/
def jumped (x : Iss) (target : Nat → Nat) (l : Nat) (y : Lane) : Lane :=
  { y with pc := target l, hdr := none, via := some (x.addr, x.cl.addr) }

/-- The warp of a transfer: its lanes leave the clause for their targets. -/
def leaveFor (x : Iss) (m : Mask) (target : Nat → Nat) (y : Warp) : Warp := (y.leaveClause m).mapLanes m (jumped x target)

theorem and_not_zero (m : Mask) : m &&& ~~~(0 : Mask) = m := by
  rw [show ~~~(0 : Mask) = BitVec.allOnes 64 from rfl, BitVec.and_allOnes]

theorem trapHere_zero (s : State) (x : Iss) (det : Nat → Cause) : s.trapHere x 0 det = s := by
  unfold State.trapHere State.trap
  split
  · rfl
  · rw [if_pos rfl]

theorem transfer_of_good {s : State} {x : Iss} {m : Mask} {f : Nat → Nat} (good : ∀ l, m.getLsbD l = true → s.badTarget x (f l) = false) :
    s.transfer x m f = s.modWarp x.w (leaveFor x m f) := by
  have none_ : lanesWhere m (fun l => s.badTarget x (f l)) = 0 := lanesWhere_eq_zero good
  simp only [State.transfer, none_, trapHere_zero, and_not_zero]
  rfl

theorem regsOf_leaveFor (x : Iss) (m : Mask) (f : Nat → Nat) (y : Warp) : regsOf (leaveFor x m f y) = regsOf y :=
  (regsOf_mapLanes (y.leaveClause m) m (jumped x f) fun _ _ => rfl).trans (regsOf_leaveClause y m)

theorem keepsAll_leaveFor (s : State) (x : Iss) (m : Mask) (f : Nat → Nat) : KeepsAll s (s.modWarp x.w (leaveFor x m f)) :=
  keepsAll_modWarp s x.w _ (regsOf_leaveFor x m f)

/-- The warp of a transfer gets writes besides its lanes' jumps, and the word ends: its lanes stand at their targets (R44, R57). -/
theorem jump_wordDone {s : State} {x : Iss} {m : Mask} {f : Nat → Nat} (runs : Runs s x.w) {g : Warp → Warp}
    (hg : ∀ y, (g y).lanes = y.lanes ∧ (g y).due = y.due ∧ (g y).blk = y.blk ∧ (g y).clause = y.clause) :
    Jump s (((s.modWarp x.w (leaveFor x m f)).modWarp x.w g).wordDone x false) x m f := by
  intro l y hl hy
  have runs' : Runs ((s.modWarp x.w (leaveFor x m f)).modWarp x.w g) x.w :=
    runs_modWarp (fun z => (hg z).2.1) (fun z => (hg z).2.2.1) (runs_modWarp (fun _ => rfl) (fun _ => rfl) runs)
  have left : Left ((s.modWarp x.w (leaveFor x m f)).modWarp x.w g) x.w l := by
    intro z c hz hc
    simp only [State.modWarp_warps, List.getElem?_modify_eq, Option.map_eq_map, Option.map_map, Option.map_eq_some_iff] at hz
    obtain ⟨z', -, rfl⟩ := hz
    exact leaveClause_set (y := z') ((hg (leaveFor x m f z')).2.2.2.symm.trans hc) hl
  rw [laneOf_wordDone false runs' left, laneOf_modWarp_of_lanes _ _ _ fun z => by rw [(hg z).1], laneOf_modWarp]
  obtain ⟨wp, hw, hy⟩ := Option.bind_eq_some_iff.mp hy
  rw [hw, Option.bind_some, leaveFor, mapLanes_lanes_get, show (wp.leaveClause m).lanes[l]? = some y from hy]
  simp [hl, jumped]

/-- A transfer without a result (R262, R263). -/
theorem jumps_of_transfer {s : State} {i : Instr} {x : Iss} {m : Mask} {f : Nat → Nat} {k : Iss → State} {o : Res} (h : s.iss i = some x)
    (ho : o = s.atIssue i k) (hk : k x = (s.transfer x m f).wordDone x false)
    (good : Calm s x ∧ ∀ l, m.getLsbD l = true → s.badTarget x (f l) = false) :
    Next o fun t => Jump s t x m f ∧ Gets s t x.w [] 0 ∧ KeepsOthers s t x.w := by
  obtain ⟨wp, hw⟩ := (iss_warp h).2
  obtain ⟨calm, good⟩ := good
  have keeps := (keepsAll_leaveFor s x m f).trans (keepsAll_wordDone _ x false)
  refine ⟨k x, ho.trans (atIssue_some h k), ?_⟩
  rw [hk, transfer_of_good good]
  refine ⟨?_, keeps.gets hw, keeps.keepsOthers _⟩
  have jump := jump_wordDone (x := x) (m := m) (f := f) (g := id) (runs_of_calm calm h) fun _ => ⟨rfl, rfl, rfl, rfl⟩
  rwa [modWarp_eq_self (f := id) fun _ _ => rfl] at jump

/-! ### Calls (R263) -/

/-- A call whose targets are good, each in a page that can be read. -/
theorem callTo_of_good {s : State} {x : Iss} {r : Reg} {f : Nat → Nat} (good : ∀ l, x.part.getLsbD l = true → s.badTarget x (f l) = false)
    (read : ∀ l ∈ lanesIn x.part, s.targetMiss x (f l) = false) :
    s.callTo x r f = (s.modWarp x.w (leaveFor x x.part f)).retire x false
      ((if Reg.isS r then (lanesIn x.part).take 1 else lanesIn x.part).flatMap fun l =>
        pendN l r (x.addr + 8) (x.lastRow false s.clk.cyc + 4) 2) 0 := by
  have noMiss : (lanesIn x.part).filter (fun l => s.targetMiss x (f l)) = [] := by
    simpa [List.filter_eq_nil_iff] using read
  have all : lanesWhere x.part (fun l => !s.badTarget x (f l)) = x.part :=
    lanesWhere_eq_self fun l hl => by rw [good l hl]; rfl
  simp only [State.callTo, noMiss, all, transfer_of_good good]
  rfl

theorem jumps_of_callTo {s : State} {i : Instr} {x : Iss} {r : Reg} {f : Nat → Nat} {k : Iss → State} {o : Res} (h : s.iss i = some x)
    (ho : o = s.atIssue i k) (hk : k x = s.callTo x r f) (good : Calm s x ∧ ∀ l, x.part.getLsbD l = true → s.badTarget x (f l) = false)
    (read : ∀ l ∈ lanesIn x.part, s.targetMiss x (f l) = false) :
    Next o fun t => Jump s t x x.part f ∧
      Gets s t x.w ((if Reg.isS r then (lanesIn x.part).take 1 else lanesIn x.part).flatMap fun l =>
        pendN l r (x.addr + 8) (x.lastRow false s.clk.cyc + 4) 2) 0 ∧ KeepsOthers s t x.w := by
  obtain ⟨wp, hw⟩ := (iss_warp h).2
  obtain ⟨calm, good⟩ := good
  refine ⟨k x, ho.trans (atIssue_some h k), ?_⟩
  rw [hk, callTo_of_good good read]
  have keeps := keepsAll_leaveFor s x x.part f
  have hw' : (s.modWarp x.w (leaveFor x x.part f)).warps[x.w]? = some (leaveFor x x.part f wp) := by simp [hw]
  obtain ⟨gets, others⟩ := retire_spec (s.modWarp x.w (leaveFor x x.part f)) x false _ 0 hw'
  refine ⟨jump_wordDone (runs_of_calm calm h) fun _ => ⟨rfl, rfl, rfl, rfl⟩, ?_, (keeps.keepsOthers x.w).trans others⟩
  obtain ⟨y, z, hy, hz, pend, flags, held⟩ := gets
  obtain rfl := Option.some.inj (hy.symm.trans hw')
  have same : regsOf (leaveFor x x.part f wp) = regsOf wp := regsOf_leaveFor x x.part f wp
  simp only [regsOf, Prod.mk.injEq] at same
  obtain ⟨v, sregs, fl, wctl, pd, q⟩ := same
  exact ⟨wp, z, hw, hz, by rw [pend, pd], by rw [flags, fl], held.trans (by simp only [heldOf, v, sregs, wctl, q])⟩

/-! ### Bad targets (R44) -/

theorem leaveClause_zero (y : Warp) : y.leaveClause 0 = y := by
  have keep : (fun c : Clause => { c with set := c.set &&& ~~~(0 : Mask) }) = id := funext fun c => by simp only [and_not_zero, id]
  rw [Warp.leaveClause, keep, Option.map_id_fun, id]

theorem mapLanes_zero (y : Warp) (f : Nat → Lane → Lane) : y.mapLanes 0 f = y := by
  have keep : y.lanes.mapIdx (fun l z => if (0 : Mask).getLsbD l then f l z else z) = y.lanes :=
    List.ext_getElem? fun l => by simp
  rw [Warp.mapLanes, keep]

theorem leaveFor_zero (x : Iss) (f : Nat → Nat) (y : Warp) : leaveFor x 0 f y = y := by
  rw [leaveFor, leaveClause_zero, mapLanes_zero]

/-- A transfer all of whose targets are bad is the trap of its lanes. -/
theorem transfer_of_bad {s : State} {x : Iss} {m : Mask} {f : Nat → Nat} (bad : ∀ l, m.getLsbD l = true → s.badTarget x (f l) = true) :
    s.transfer x m f = s.trapHere x m fun _ => encCause 5 x.word := by
  have all : lanesWhere m (fun l => s.badTarget x (f l)) = m := lanesWhere_eq_self bad
  simp only [State.transfer, all, BitVec.and_not_self]
  exact modWarp_eq_self fun y _ => leaveFor_zero x f y

/-- The warp of a trap: its lanes leave the clause for the handler (R326). -/
def takeTrap (h : Nat) (m : Mask) (det : Nat → Cause) (tpc : Nat → Nat) (hdr : Nat → Option Nat) (y : Warp) : Warp :=
  (y.leaveClause m).mapLanes m fun l z => z.trap h (lanesIn m).length (tpc l) (hdr l) (det l)

theorem standOf_wdStart (y : Warp) (n : Nat) : standOf (y.wdStart n) = standOf y := by
  unfold Warp.wdStart
  split
  · split <;> rfl
  · rfl

theorem standOf_wdLeave (y old : Warp) (n : Nat) (m : Mask) : standOf (Warp.wdLeave n old m y) = standOf y := by
  rw [Warp.wdLeave, standOf_wdStart]
  split <;> rfl

theorem sameStand_modWarp_congr (s : State) (w : Nat) {f g : Warp → Warp} (h : ∀ y, standOf (g y) = standOf (f y)) :
    SameStand (s.modWarp w f) (s.modWarp w g) w := by
  refine ⟨?_, rfl⟩
  simp only [State.modWarp_warps, List.getElem?_modify_eq]
  cases s.warps[w]? with
  | none => rfl
  | some y => simp [h]

/-- With a handler, and no lane of the mask in handler mode, the lanes take the trap and the block goes on (R326 to R328). -/
theorem sameStand_trap {s : State} {w : Nat} {m : Mask} {wp : Warp} (det : Nat → Cause) (tpc : Nat → Nat) (hdr : Nat → Option Nat)
    (hw : s.warps[w]? = some wp) (some_ : m ≠ 0) (handler : s.handlerOf wp ≠ 0)
    (outside : ∀ l y, m.getLsbD l = true → wp.lanes[l]? = some y → y.handler = false) :
    SameStand (s.modWarp w (takeTrap (s.handlerOf wp) m det tpc hdr)) (s.trap w m det tpc hdr) w := by
  have noneInside : (lanesIn m).filter (fun l => ((wp.lane? l).map (·.handler)).getD false) = [] := by
    refine List.filter_eq_nil_iff.mpr fun l hl => ?_
    cases hy : wp.lane? l with
    | none => simp
    | some y => simp [outside l y (mem_lanesIn.mp hl) hy]
  simp only [State.trap, hw, if_neg some_, noneInside]
  rw [if_neg (by simpa using handler)]
  exact ((sameStand_modWarp_congr s w fun y => standOf_wdLeave _ wp _ m).trans (sameStand_bwaitsEnd ..)).trans (sameStand_barrierMissed ..)

theorem taken_trap {h n word : Nat} {hdr : Option Nat} {c : Cause} (y : Lane) (hn : n < 2 ^ 16) (hcode : c.code < 2 ^ 11) (hgrp : c.grp < 32) :
    Taken h n word c (y.trap h n word hdr c) := by
  refine ⟨rfl, rfl, rfl, rfl, rfl, ?_, rfl, rfl, rfl⟩
  change tcauseOf n c = _
  rw [tcauseOf, Nat.mod_eq_of_lt hn, Nat.mod_eq_of_lt hcode, Nat.mod_eq_of_lt hgrp]

/-- A trap of all participating lanes at the word that issues, and the word's end (R44, R65, R326). -/
theorem allTrap_trapHere {s : State} {i : Instr} {x : Iss} {m : Mask} (h : s.iss i = some x) (calm : Calm s x) (can : CanTrap s x m) (some_ : m ≠ 0)
    {c : Nat → Cause} (hc : ∀ l, (c l).code < 2 ^ 11 ∧ (c l).grp < 32) : AllTrap s ((s.trapHere x m c).wordDone x false) x m c := by
  obtain ⟨wp, ds, hw, -, -, hx⟩ := iss_spec h
  obtain ⟨handler, outside⟩ := can
  have sameHandler : s.handlerOf x.wp = s.handlerOf wp := by rw [hx]; rfl
  rw [sameHandler] at handler
  have lanes (l : Nat) : laneOf s x.w l = wp.lanes[l]? := by rw [laneOf, hw, Option.bind_some]
  set g := takeTrap (s.handlerOf wp) m c (fun _ => x.addr) (fun _ => some x.cl.addr) with hg
  have stands : SameStand (s.modWarp x.w g) (s.trapHere x m c) x.w :=
    sameStand_trap c _ _ hw some_ handler fun l y hl hy => outside l y hl ((lanes l).trans hy)
  have keeps : KeepsAll s ((s.trapHere x m c).wordDone x false) := (keepsAll_trapHere ..).trans (keepsAll_wordDone ..)
  refine ⟨fun l y hl hy => ?_, keeps.gets hw, keeps.keepsOthers _⟩
  have runs : Runs (s.trapHere x m c) x.w := stands.runs (runs_modWarp (fun _ => rfl) (fun _ => rfl) (runs_of_calm calm h))
  have left : Left (s.trapHere x m c) x.w l := stands.left (left_modWarp fun z d hd => leaveClause_set (y := z) hd hl)
  rw [laneOf_wordDone false runs left, stands.laneOf, laneOf_modWarp, hw, sameHandler]
  refine ⟨y.trap (s.handlerOf wp) (lanesIn m).length x.addr (some x.cl.addr) (c l), ?_, ?_⟩
  · rw [Option.bind_some, hg, takeTrap, mapLanes_lanes_get, show (wp.leaveClause m).lanes[l]? = some y from (lanes l).symm.trans hy]
    simp [hl]
  · exact taken_trap y ((length_lanesIn_le m).trans_lt (by decide)) (hc l).1 (hc l).2

theorem badTarget_of_misplaced {s : State} {x : Iss} {t : Nat} (h : 2 ^ 48 ≤ t ∨ t % 8 ≠ 0) : s.badTarget x t = true := by
  have : (decide (2 ^ 48 ≤ t) || t % 8 != 0) = true := by simpa using h
  rw [State.badTarget, this, Bool.true_or]

end Sys2Proof.Safety

open Sys2Proof Sys2Proof.Machine Sys2Proof.Safety Sys2Proof.Claims

/-- Settles O10: with good targets a transfer moves its lanes and a call writes its links, and the end of the word leaves the lanes there; with
bad ones the lanes are in the handler before the word ends. -/
theorem transfers : Obligations.Transfers := by
  refine ⟨fun s x k r off y => ?_, fun s x r y issues calm can some_ misplaced => ?_⟩
  · refine ⟨fun h good => jumps_of_transfer h rfl rfl good, fun h good => jumps_of_transfer h rfl ?_ good,
      fun h good => jumps_of_transfer h rfl rfl good, fun read h good => jumps_of_callTo h rfl rfl good read,
      fun read h good => jumps_of_callTo h rfl rfl good read, fun h good => jumps_of_transfer h rfl rfl good⟩
    cases k <;> rfl
  · refine ⟨_, atIssue_some issues _, ?_⟩
    have bad (l : Nat) (hl : x.part.getLsbD l = true) : s.badTarget x (x.rd l r 2) = true := badTarget_of_misplaced (misplaced l hl)
    rw [transfer_of_bad bad]
    exact allTrap_trapHere issues calm can some_ fun _ => ⟨show 5 < 2 ^ 11 by decide, show 1 < 32 by decide⟩
end

section
/-! SUPPORT. What leaves memory alone: of each operation of the machine that writes no memory, that its state holds the memory it had. The step
keeps the form of memory through these and the operations that do write (log 1). -/

namespace Sys2Proof.Machine

@[simp] theorem State.foldl_mem {α : Type} (g : State → α → State) (h : ∀ s a, (g s a).mem = s.mem) (l : List α) (s : State) :
    (l.foldl g s).mem = s.mem := by
  induction l generalizing s with
  | nil => rfl
  | cons a l ih => exact (ih (g s a)).trans (h s a)

theorem State.foldl_fst_mem {α β : Type} (g : State × β → α → State × β) (h : ∀ acc a, (g acc a).1.mem = acc.1.mem) (l : List α)
    (acc : State × β) : (l.foldl g acc).1.mem = acc.1.mem := by
  induction l generalizing acc with
  | nil => rfl
  | cons a l ih => exact (ih (g acc a)).trans (h acc a)

@[simp] theorem State.advanceTo_mem (s : State) (cyc : Nat) : (s.advanceTo cyc).mem = s.mem := rfl
@[simp] theorem State.useIssue_mem (s : State) (x : Iss) (unif : Bool) : (s.useIssue x unif).mem = s.mem := rfl

@[simp] theorem State.partDone_mem (s : State) (w : Nat) (g : Nat) (c : Option Nat) : (s.partDone w g c).mem = s.mem := by
  unfold State.partDone
  split <;> simp

@[simp] theorem State.settleAt_mem (s : State) (w now : Nat) : (s.settleAt w now).mem = s.mem := by
  unfold State.settleAt
  split <;> simp

@[simp] theorem State.bwaitsEnd_mem (s : State) (w : Nat) (old : Warp) : (s.bwaitsEnd w old).mem = s.mem := by
  unfold State.bwaitsEnd
  split <;> simp

@[simp] theorem State.passBaton_mem (s : State) (b from_ : Nat) : (s.passBaton b from_).mem = s.mem := by
  unfold State.passBaton
  dsimp only
  repeat' split
  all_goals simp

@[simp] theorem State.releaseBsync_mem (s : State) (b : Nat) : (s.releaseBsync b).mem = s.mem := rfl

@[simp] theorem State.bsyncFix_mem (s : State) (b : Nat) : (s.bsyncFix b).mem = s.mem := by
  unfold State.bsyncFix
  dsimp only
  repeat' split
  all_goals simp

@[simp] theorem State.barrierMissed_mem (s : State) (b : Nat) : (s.barrierMissed b).mem = s.mem := rfl

@[simp] theorem State.exitWarp_mem (s : State) (w : Nat) (m : Mask) : (s.exitWarp w m).mem = s.mem := by
  unfold State.exitWarp
  dsimp only
  repeat' split
  all_goals simp

@[simp] theorem State.post_mem (s : State) (c : Nat) (e : FaultEntry) : (s.post c e).mem = s.mem := rfl
@[simp] theorem State.endLanes_mem (s : State) (b : Nat) : (s.endLanes b).mem = s.mem := rfl
@[simp] theorem State.dropWork_mem (s : State) (b : Nat) : (s.dropWork b).mem = s.mem := rfl

@[simp] theorem State.endQuiet_mem (s : State) (b : Nat) : (s.endQuiet b).mem = s.mem := by
  unfold State.endQuiet
  repeat' split
  all_goals simp

@[simp] theorem State.endBlock_mem (s : State) (w : Warp) (c : Cause) (word : Nat) : (s.endBlock w c word).mem = s.mem := by
  unfold State.endBlock
  repeat' split
  all_goals simp

@[simp] theorem State.trap_mem (s : State) (w : Nat) (m : Mask) (det : Nat → Cause) (tpc : Nat → Nat) (hdr : Nat → Option Nat) :
    (s.trap w m det tpc hdr).mem = s.mem := by
  unfold State.trap
  dsimp only
  repeat' split
  all_goals simp

@[simp] theorem State.trapHere_mem (s : State) (x : Iss) (m : Mask) (det : Nat → Cause) : (s.trapHere x m det).mem = s.mem := by
  simp [State.trapHere]

@[simp] theorem State.park_mem (s : State) (w : Nat) (m : Mask) (kind va word : Nat) (hdr : Option Nat) (det : Nat → Cause) :
    (s.park w m kind va word hdr det).mem = s.mem := by
  unfold State.park
  dsimp only
  repeat' split
  all_goals simp

@[simp] theorem State.deliverDue_mem (s : State) (w : Nat) : (s.deliverDue w).mem = s.mem := by
  unfold State.deliverDue
  split
  · rfl
  · rename_i wp _
    have drop : ∀ t : State, (if wp.due.isEmpty then t else t.bsyncFix wp.blk).mem = t.mem := fun t => by split <;> simp
    refine (drop _).trans ((State.foldl_mem _ (fun s d => ?_) _ _).trans rfl)
    dsimp only
    repeat' split
    all_goals simp

@[simp] theorem State.boundary_mem (s : State) (w : Nat) (cl : Clause) : (s.boundary w cl).mem = s.mem := by
  unfold State.boundary
  dsimp only
  repeat' split
  all_goals simp

@[simp] theorem State.wordDone_mem (s : State) (x : Iss) (unif : Bool) : (s.wordDone x unif).mem = s.mem := by
  unfold State.wordDone
  dsimp only
  repeat' split
  all_goals simp

@[simp] theorem State.waitIssue_mem (s : State) (x : Iss) : (s.waitIssue x).mem = s.mem := rfl
@[simp] theorem State.enterPart_mem (s : State) (x : Iss) (m : Mask) (grp : Nat) : (s.enterPart x m grp).mem = s.mem := rfl

@[simp] theorem State.addDue_mem (s : State) (w : Nat) (d : Due) : (s.addDue w d).mem = s.mem := by
  unfold State.addDue
  dsimp only
  repeat' split
  all_goals simp

@[simp] theorem State.takeWait_mem (s : State) (w : Nat) : (s.takeWait w).mem = s.mem := by
  unfold State.takeWait
  repeat' split
  all_goals simp

@[simp] theorem State.takeBlock_mem (s : State) (b : Nat) : (s.takeBlock b).mem = s.mem := State.foldl_mem _ (fun s a => by split <;> simp) _ _
@[simp] theorem State.tlbPut_mem (s : State) (t : Tlb) : (s.tlbPut t).mem = s.mem := rfl

@[simp] theorem State.tlbUse_mem (s : State) (wp : Warp) (va : Nat) : (s.tlbUse wp va).mem = s.mem := by
  unfold State.tlbUse
  repeat' split
  all_goals simp

@[simp] theorem State.evictProbe_mem (s : State) (l : Line) : (s.evictProbe l).mem = s.mem := by
  unfold State.evictProbe
  repeat' split
  all_goals simp

@[simp] theorem State.spoil_mem (s : State) (tier pa n : Nat) : (s.spoil tier pa n).mem = s.mem := rfl
@[simp] theorem State.ccDropOf_mem (s : State) (p : Nat → Bool) : (s.ccDropOf p).mem = s.mem := rfl
@[simp] theorem State.ccDropCtx_mem (s : State) (p : Nat → Bool) : (s.ccDropCtx p).mem = s.mem := rfl

@[simp] theorem State.sync_mem (s : State) (w : Nat) : (s.sync w).mem = s.mem := by
  unfold State.sync
  split <;> simp

@[simp] theorem State.heads_mem (s : State) : (s.heads).mem = s.mem := rfl
@[simp] theorem State.arrive_mem (s : State) (id : Nat) : (s.arrive id).mem = s.mem := rfl

@[simp] theorem State.takeIn_mem (s : State) (die slice n : Nat) : (s.takeIn die slice n).mem = s.mem := by
  induction n generalizing s with
  | zero => rfl
  | succ n ih =>
    rw [State.takeIn]
    dsimp only
    repeat' split
    all_goals simp [ih]

@[simp] theorem State.leave_mem (s : State) (id : Nat) : (s.leave id).mem = s.mem := by
  unfold State.leave
  split
  · rfl
  · dsimp only
    rw [State.heads_mem]
    split <;> simp

@[simp] theorem State.wake_mem (s : State) (o : Owner) : (s.wake o).mem = s.mem := State.foldl_mem _ (fun s a => by
  repeat' split
  all_goals simp) _ _

@[simp] theorem State.modWalk_mem (s : State) (id : Nat) (f : Walk → Walk) : (s.modWalk id f).mem = s.mem := rfl

@[simp] theorem State.walkIn_mem (s : State) (die cluster n : Nat) : (s.walkIn die cluster n).mem = s.mem := by
  induction n generalizing s with
  | zero => rfl
  | succ n ih =>
    rw [State.walkIn]
    split <;> simp [ih]

@[simp] theorem State.walkFix_mem (s : State) (die cluster : Nat) : (s.walkFix die cluster).mem = s.mem := State.walkIn_mem s die cluster 144

@[simp] theorem State.addWalk_mem (s : State) (core : Nat) (warp : Option Nat) (ctx cls va : Nat) :
    (s.addWalk core warp ctx cls va).mem = s.mem := by
  unfold State.addWalk
  split <;> simp

@[simp] theorem State.fenceProbe_mem (s : State) (w : Nat) : (s.fenceProbe w).mem = s.mem := by
  unfold State.fenceProbe
  split
  · rfl
  · refine State.foldl_mem _ (fun s a => ?_) _ _
    split <;> simp

@[simp] theorem State.fenceFix_mem (s : State) (w : Nat) : (s.fenceFix w).mem = s.mem := by
  unfold State.fenceFix
  dsimp only
  repeat' split
  all_goals simp

@[simp] theorem State.settled_mem (s : State) (o : Owner) : (s.settled o).mem = s.mem := by
  refine (State.foldl_mem _ (fun s w => ?_) _ _).trans (by simp)
  repeat' split
  all_goals simp

@[simp] theorem State.settleAll_mem (s : State) : (s.settleAll).mem = s.mem := by
  simp [State.settleAll]

@[simp] theorem State.count_mem (s : State) (die : Nat) (corr unc : Nat) : (s.count die corr unc).mem = s.mem := rfl

@[simp] theorem State.raise_mem (s : State) (c vec : Nat) : (s.raise_ c vec).mem = s.mem := by
  unfold State.raise_
  repeat' split
  all_goals simp

@[simp] theorem State.endSaved_mem (s : State) (p : Nat → Bool) : (s.endSaved p).mem = s.mem := rfl
@[simp] theorem State.endLaunch_mem (s : State) (l : Nat) : (s.endLaunch l).mem = s.mem := State.foldl_mem _ (fun s b => by split <;> simp) _ _

@[simp] theorem State.poisoned_mem (s : State) (w : Nat) (word : Nat) : (s.poisoned w word).mem = s.mem := by
  unfold State.poisoned
  dsimp only
  repeat' split
  all_goals simp

@[simp] theorem State.orderedAt_mem (s : State) (r : Req) (rel : Option Nat) : (s.orderedAt r rel).mem = s.mem := by
  unfold State.orderedAt
  repeat' split
  all_goals simp

@[simp] theorem State.ordered_mem (s : State) (r : Req) : (s.ordered r).mem = s.mem := by
  simp [State.ordered]

@[simp] theorem State.putHost_mem (s : State) (r : Req) : (s.putHost r).mem = s.mem := by
  simp [State.putHost]

@[simp] theorem State.stopServing_mem (s : State) (r : Req) : (s.stopServing r).mem = s.mem := rfl

@[simp] theorem State.free1_mem (s : State) (r : Req) : (s.free1 r).mem = s.mem := by
  simp [State.free1]

@[simp] theorem State.delivers_mem (s : State) (w tag grp : Nat) (ctr : Option Nat) (val : Dst → Word) :
    (s.delivers w tag grp ctr val).mem = s.mem := by
  unfold State.delivers
  dsimp only
  repeat' split
  all_goals simp

@[simp] theorem State.reply_mem (s : State) (r : Req) : (s.reply r).mem = s.mem := by
  simp [State.reply]

@[simp] theorem State.discard_mem (s : State) (r : Req) : (s.discard r).mem = s.mem := by
  simp [State.discard]

@[simp] theorem State.bounceLimit_mem (s : State) (r : Req) : (s.bounceLimit r).mem = s.mem := by
  unfold State.bounceLimit
  split <;> simp

@[simp] theorem State.refill_mem (s : State) (r : Req) : (s.refill r).mem = s.mem := by
  unfold State.refill
  split <;> simp

@[simp] theorem State.bounced_mem (s : State) (r : Req) (reason : Nat) : (s.bounced r reason).mem = s.mem := by
  unfold State.bounced
  rw [State.refill_mem]
  refine (State.foldl_mem _ (fun s x => ?_) _ _).trans ?_
  · split <;> simp
  · exact State.foldl_mem _ (fun s x => by simp) _ _

@[simp] theorem State.addReq_mem (s : State) (r : Req) : (s.addReq r).mem = s.mem := by
  unfold State.addReq
  dsimp only
  repeat' split
  all_goals simp

@[simp] theorem State.retire_mem (s : State) (x : Iss) (unif : Bool) (ps : List Pend) (fl : Nat) : (s.retire x unif ps fl).mem = s.mem := by
  simp [State.retire]

@[simp] theorem State.trapWord_mem (s : State) (x : Iss) (m : Mask) (det : Nat → Cause) (unif : Bool) :
    (s.trapWord x m det unif).mem = s.mem := by
  simp [State.trapWord]

@[simp] theorem State.memTrapsAnd_mem (s : State) (w kind word : Nat) (hdr : Option Nat) (m : Mask) (det : Nat → Cause) (bads : List Bad) :
    (s.memTrapsAnd w kind word hdr m det bads).mem = s.mem := by
  unfold State.memTrapsAnd
  dsimp only
  repeat' split
  all_goals simp

@[simp] theorem State.memTraps_mem (s : State) (w kind word : Nat) (hdr : Option Nat) (bads : List Bad) :
    (s.memTraps w kind word hdr bads).mem = s.mem := by
  simp [State.memTraps]

@[simp] theorem State.queueWalk_mem (s : State) (w va : Nat) : (s.queueWalk w va).mem = s.mem := by
  unfold State.queueWalk
  split <;> simp

@[simp] theorem State.noHeader_mem (s : State) (w : Nat) (wp : Warp) (set : Mask) (hw : DWord) : (s.noHeader w wp set hw).mem = s.mem := by
  simp [State.noHeader]

@[simp] theorem State.fetchFault_mem (s : State) (w : Nat) (wp : Warp) (set : Mask) (va : Nat) (f : Fetched) :
    (s.fetchFault w wp set va f).mem = s.mem := by
  unfold State.fetchFault
  split <;> simp

@[simp] theorem State.opportunity_mem (s : State) (w : Nat) : (s.opportunity w).mem = s.mem := by
  have passes : ∀ (wp : Warp) (t : State) (f : Fetched), (match f with
      | .bad _ _ _ _ => t.modWarp w fun x => wp
      | _ => t).mem = t.mem := fun wp t f => by split <;> rfl
  unfold State.opportunity
  dsimp only
  repeat' split
  all_goals simp

theorem State.undersizedTrap_mem {s t : State} (w : Nat) (i : Instr) (h : s.undersizedTrap w i = some t) : t.mem = s.mem := by
  unfold State.undersizedTrap at h
  repeat' split at h
  · cases h
  · cases h
  · obtain ⟨e, -, rfl⟩ := Option.map_eq_some_iff.mp h
    simp

@[simp] theorem State.early_mem (s : State) (x : Iss) (i : Instr) : (s.early x i).mem = s.mem := by
  unfold State.early
  dsimp only
  repeat' split
  all_goals simp

@[simp] theorem State.heldWord_mem (s : State) (x : Iss) : (s.heldWord x).mem = s.mem := by
  unfold State.heldWord
  repeat' split
  all_goals simp

theorem State.takePipe_mem {s t : State} (x : Iss) (i : Instr) (h : s.takePipe x i = some t) : t.mem = s.mem := by
  unfold State.takePipe at h
  repeat' split at h
  all_goals cases h
  all_goals rfl

@[simp] theorem State.accessing_mem (s : State) (x : Iss) (unif : Bool) (kind : Nat) (ts : List Tried) (held : Bool) (k : State → State)
    (hk : ∀ t, (k t).mem = t.mem) : (s.accessing x unif kind ts held k).mem = s.mem := by
  unfold State.accessing
  repeat' split
  all_goals simp [hk]

@[simp] theorem State.enterReqs_mem (s : State) (x : Iss) (unif : Bool) (ctr : Option (Fin 8)) (inside : List Nat) (local_ : Nat → State → State)
    (rs : List (Nat → Req)) (regs : Nat → Req → List Pend) (h : ∀ g t, (local_ g t).mem = t.mem) :
    (s.enterReqs x unif ctr inside local_ rs regs).mem = s.mem := by
  unfold State.enterReqs
  dsimp only
  repeat' split
  all_goals simp [h]

@[simp] theorem State.addLocal_mem (s : State) (r : Req) (regs : Nat → List Pend) : (s.addLocal r regs).mem = s.mem := rfl

@[simp] theorem State.loadLocal_mem (s : State) (x : Iss) (r : Req) (d : Reg) (n size : Nat) (e : Nat × Nat × Nat) :
    (s.loadLocal x r d n size e).mem = s.mem := rfl

@[simp] theorem State.loadWith_mem (s : State) (x : Iss) (unif : Bool) (op : ReqOp) (d : Reg) (n size : Nat) (sc : Scope) (o : Order) (h : Hint)
    (ctr : Option (Fin 8)) (ts : List Tried) : (s.loadWith x unif op d n size sc o h ctr ts).mem = s.mem := by
  refine State.accessing_mem _ _ _ _ _ _ _ fun t => State.enterReqs_mem _ _ _ _ _ _ _ _ fun g u => ?_
  dsimp only
  refine (State.foldl_mem _ (fun s e => by simp) _ _).trans ?_
  split <;> simp

@[simp] theorem State.ccHit_mem (s : State) (x : Iss) (r : Req) (d : Reg) (n size : Nat) (g : Nat × Nat × Place) (data : List Byte) :
    (s.ccHit x r d n size g data).mem = s.mem := rfl

@[simp] theorem State.storeLocal_mem (s : State) (x : Iss) (r : Req) (size : Nat) (data : List Byte) (e : Nat × Nat × Nat) :
    (s.storeLocal x r size data e).mem = s.mem := by
  unfold State.storeLocal
  dsimp only
  repeat' split
  all_goals simp

@[simp] theorem State.eccCount_mem (s : State) (die : Nat) (e : Ecc) : (s.eccCount die e).mem = s.mem := by
  unfold State.eccCount
  split <;> simp

@[simp] theorem State.spoilOf_mem (s : State) (r : Req) : (s.spoilOf r).mem = s.mem := State.foldl_mem _ (fun s a => by
  repeat' split
  all_goals simp) _ _

@[simp] theorem State.replyEcc_mem (s : State) (r : Req) (e : Ecc) : (s.replyEcc r e).mem = s.mem := by
  unfold State.replyEcc
  repeat' split
  all_goals simp

@[simp] theorem State.rangeRetry_mem (s : State) : (s.rangeRetry).mem = s.mem := State.foldl_mem _ (fun s a => by
  dsimp only
  repeat' split
  all_goals simp) _ _

@[simp] theorem State.cross_mem (s : State) (die slice : Nat) : (s.cross die slice).mem = s.mem := State.foldl_mem _ (fun s a => by
  repeat' split
  all_goals simp) _ _

@[simp] theorem State.expire_mem (s : State) (r : Req) : (s.expire r).mem = s.mem := by
  unfold State.expire
  repeat' split
  all_goals simp

@[simp] theorem State.expireWalk_mem (s : State) (k : Walk) : (s.expireWalk k).mem = s.mem := by
  unfold State.expireWalk
  repeat' split
  all_goals simp

@[simp] theorem State.walkAgain_mem (s : State) (k : Walk) : (s.walkAgain k).mem = s.mem := by
  simp [State.walkAgain]

@[simp] theorem State.reissueFault_mem (s : State) (r : Req) (grp code lvl ent : Nat) : (s.reissueFault r grp code lvl ent).mem = s.mem := by
  unfold State.reissueFault
  repeat' split
  all_goals simp

@[simp] theorem State.sendAgain_mem (s : State) (r : Req) : (s.sendAgain r).mem = s.mem := by
  unfold State.sendAgain
  dsimp only
  repeat' split
  all_goals simp

@[simp] theorem State.allFences_mem (s : State) : (s.allFences).mem = s.mem := State.foldl_mem _ State.fenceFix_mem _ _

@[simp] theorem State.poisonedOut_mem (s : State) (o : Owner) : (s.poisonedOut o).mem = s.mem := by
  unfold State.poisonedOut
  split <;> simp

@[simp] theorem State.barWake_mem (s : State) (b off : Nat) : (s.barWake b off).mem = s.mem := State.foldl_mem _ (fun s a => by
  dsimp only
  repeat' split
  all_goals simp) _ _

@[simp] theorem State.barPut_mem (s : State) (b off : Nat) (o : BarObj) : (s.barPut b off o).mem = s.mem := by
  unfold State.barPut
  split <;> simp

@[simp] theorem State.barCount_mem (s : State) (b off : Nat) (inbound : Bool) (k : Int) : (s.barCount b off inbound k).mem = s.mem := by
  simp [State.barCount]

@[simp] theorem State.holdWarp_mem (s : State) (w : Nat) : (s.holdWarp w).mem = s.mem := rfl

theorem State.engineWalks_mem {s t : State} (core ctx cls : Nat) (vas : List Nat) (h : s.engineWalks core ctx cls vas = some t)
    : t.mem = s.mem := by
  unfold State.engineWalks at h
  dsimp only at h
  split at h <;> cases h
  exact State.foldl_mem _ (fun s a => by simp) _ _

@[simp] theorem State.faultsTaken_mem (s : State) (core : Nat) : (s.faultsTaken core).mem = s.mem := rfl

theorem State.claimNext_mem {s t : State} (c : Copy) (h : s.claimNext c = some t) : t.mem = s.mem := by
  unfold State.claimNext at h
  dsimp only at h
  repeat' split at h
  all_goals cases h
  all_goals rfl
/-- The state with the lines that a copy command can claim next claimed, or the state as it stands. -/
@[simp] theorem State.claimNext_getD_mem (s : State) (c : Copy) : ((s.claimNext c).getD s).mem = s.mem := by
  cases h : s.claimNext c with
  | none => rfl
  | some t => exact State.claimNext_mem c h

@[simp] theorem State.enterCopy_mem (s : State) (x : Iss) (l grp : Nat) (out : Bool) (ctr : Option (Fin 8)) (a : CopyArgs) :
    (s.enterCopy x l grp out ctr a).mem = s.mem := by
  unfold State.enterCopy
  dsimp only
  repeat' split
  all_goals simp

@[simp] theorem State.enterLanes_mem {α : Type} (s : State) (x : Iss) (unif : Bool) (ctr : Option (Fin 8)) (room : State → α → Bool)
    (enter : State → Nat → Nat → α → State) (args : List (Nat × α)) (h : ∀ t l g a, (enter t l g a).mem = t.mem) :
    (s.enterLanes x unif ctr room enter args).mem = s.mem := by
  unfold State.enterLanes
  split
  · simp
  · extract_lets grp r t
    have hr : r.1.mem = s.mem := State.foldl_fst_mem _ (fun acc e => by split <;> simp [h]) args _
    have ht : t.mem = s.mem := by
      simp only [t]
      split <;> simp [hr]
    split
    · simp
    · split <;> simp [ht]

@[simp] theorem State.enterCopies_mem (s : State) (x : Iss) (unif : Bool) (out : Bool) (ctr : Option (Fin 8)) (args : List (Nat × CopyArgs)) :
    (s.enterCopies x unif out ctr args).mem = s.mem := by
  simp [State.enterCopies]

@[simp] theorem State.enterMcast_mem (s : State) (x : Iss) (l grp : Nat) (ctr : Option (Fin 8)) (e : McastArgs × Option Nat × List Nat) :
    (s.enterMcast x l grp ctr e).mem = s.mem := rfl

@[simp] theorem State.modCopy_mem (s : State) (id : Nat) (f : Copy → Copy) : (s.modCopy id f).mem = s.mem := rfl
@[simp] theorem State.unclaim_mem (s : State) (e : Engine) : (s.unclaim e).mem = s.mem := rfl

@[simp] theorem State.removeCopy_mem (s : State) (c : Copy) : (s.removeCopy c).mem = s.mem := by
  simp [State.removeCopy]

@[simp] theorem State.failCopy_mem (s : State) (c : Copy) (code va op : Nat) : (s.failCopy c code va op).mem = s.mem := by
  unfold State.failCopy
  split <;> simp

@[simp] theorem State.copyFault_mem (s : State) (c : Copy) (kind grp code lvl ent va : Nat) :
    (s.copyFault c kind grp code lvl ent va).mem = s.mem := by
  unfold State.copyFault
  dsimp only
  repeat' split
  all_goals simp

@[simp] theorem State.spotSpoil_mem (s : State) (blk : Nat) (x : Spot) : (s.spotSpoil blk x).mem = s.mem := by
  cases x with
  | loc | bad => rfl
  | mem p => rw [State.spotSpoil]; split <;> simp

@[simp] theorem State.copyWaits_mem (s : State) (c : Copy) : (s.copyWaits c).mem = s.mem := by
  unfold State.copyWaits
  split <;> simp

@[simp] theorem State.copyBounced_mem (s : State) (c : Copy) (kind : Nat) : (s.copyBounced c kind).mem = s.mem := by
  unfold State.copyBounced
  split <;> simp

@[simp] theorem State.modMcast_mem (s : State) (id : Nat) (f : Mcast → Mcast) : (s.modMcast id f).mem = s.mem := rfl

@[simp] theorem State.receiverBar_mem (s : State) (b off : Nat) (f : BarObj → BarObj) : (s.receiverBar b off f).mem = s.mem := by
  unfold State.receiverBar
  split <;> simp

@[simp] theorem State.mcastDone_mem (s : State) (id : Nat) : (s.mcastDone id).mem = s.mem := by
  unfold State.mcastDone
  repeat' split
  all_goals simp

@[simp] theorem State.mcastFail_mem (s : State) (m : Mcast) (b code va : Nat) : (s.mcastFail m b code va).mem = s.mem := by
  unfold State.mcastFail
  repeat' split
  all_goals simp

@[simp] theorem State.mcastEnd_mem (s : State) (m : Mcast) (code va : Nat) : (s.mcastEnd m code va).mem = s.mem := by
  unfold State.mcastEnd
  rw [State.mcastDone_mem]
  exact State.foldl_mem _ (fun s r => by split <;> simp) _ _

@[simp] theorem State.enterMxOne_mem (s : State) (x : Iss) (core l grp : Nat) (op : MxOp) (t : Nat) (slot : DWord) (ctr : Option (Fin 8))
    (batch : Nat) (a : MxArgs) : (s.enterMxOne x core l grp op t slot ctr batch a).mem = s.mem := rfl

@[simp] theorem State.enterMx_mem (s : State) (x : Iss) (unif : Bool) (op : MxOp) (t : Nat) (slot : DWord) (ctr : Option (Fin 8))
    (args : List (Nat × MxArgs)) : (s.enterMx x unif op t slot ctr args).mem = s.mem := by
  unfold State.enterMx
  split
  · rfl
  · exact State.enterLanes_mem _ _ _ _ _ _ _ fun t l g a => by simp

@[simp] theorem State.modMx_mem (s : State) (id : Nat) (f : MxCmd → MxCmd) : (s.modMx id f).mem = s.mem := rfl

@[simp] theorem State.mwaitFault_mem (s : State) (b w l : Nat) : (s.mwaitFault b w l).mem = s.mem := by
  unfold State.mwaitFault
  repeat' split
  all_goals simp

@[simp] theorem State.mxWake_mem (s : State) (b : Nat) : (s.mxWake b).mem = s.mem := State.foldl_mem _ (fun s w => by
  dsimp only
  repeat' split
  all_goals simp) _ _

@[simp] theorem State.mxSettle_mem (s : State) (b : Nat) : (s.mxSettle b).mem = s.mem := by
  simp [State.mxSettle]

@[simp] theorem State.removeMx_mem (s : State) (c : MxCmd) (counts : MxCount) : (s.removeMx c counts).mem = s.mem := by
  unfold State.removeMx
  split <;> simp

@[simp] theorem State.failMx_mem (s : State) (c : MxCmd) (code va : Nat) : (s.failMx c code va).mem = s.mem := by
  simp [State.failMx]

@[simp] theorem State.mxFault_mem (s : State) (c : MxCmd) (kind grp code lvl ent va : Nat) :
    (s.mxFault c kind grp code lvl ent va).mem = s.mem := by
  unfold State.mxFault
  dsimp only
  repeat' split
  all_goals simp

@[simp] theorem State.mxWaits_mem (s : State) (c : MxCmd) : (s.mxWaits c).mem = s.mem := by
  unfold State.mxWaits
  split <;> simp

@[simp] theorem State.recallCopy_mem (s : State) (c : Copy) (line : Nat) : (s.recallCopy c line).mem = s.mem := by
  unfold State.recallCopy
  dsimp only
  repeat' split
  all_goals simp

@[simp] theorem State.mxBounced_mem (s : State) (c : MxCmd) (kind : Nat) : (s.mxBounced c kind).mem = s.mem := by
  unfold State.mxBounced
  split <;> simp

@[simp] theorem State.engineLimit_mem (s : State) (e : Engine) : (s.engineLimit e).mem = s.mem := by
  unfold State.engineLimit
  split
  · cases s.copies.find? _ <;> simp
  · cases s.mx.find? _ <;> simp
  · rfl
  · rfl

@[simp] theorem State.bounceWrite_mem (s : State) (w : PeerWrite) : (s.bounceWrite w).mem = s.mem := by
  unfold State.bounceWrite
  split <;> simp

@[simp] theorem State.sendWrite_mem (s : State) (w : PeerWrite) : (s.sendWrite w).mem = s.mem := by
  unfold State.sendWrite
  dsimp only
  repeat' split
  all_goals simp

@[simp] theorem State.peerWrote_mem (s : State) (w : PeerWrite) (ans : PeerAnswer) : (s.peerWrote w ans).mem = s.mem := by
  unfold State.peerWrote
  repeat' split
  all_goals simp

@[simp] theorem State.placeStart_mem (s : State) (li : Nat) : (s.placeStart li).mem = s.mem := rfl

@[simp] theorem State.placeFix_mem (s : State) : (s.placeFix).mem = s.mem := by
  unfold State.placeFix
  repeat' split
  all_goals simp

@[simp] theorem State.placeIn_mem (s : State) (li : Nat) : (s.placeIn li).mem = s.mem := by
  simp [State.placeIn]

@[simp] theorem State.placeOut_mem (s : State) (li : Nat) : (s.placeOut li).mem = s.mem := by
  simp [State.placeOut]

@[simp] theorem State.addLaunch_mem (s : State) (r : Record) (recAddr c cls : Nat) (queue stage : Option Nat) :
    (s.addLaunch r recAddr c cls queue stage).mem = s.mem := by
  simp [State.addLaunch]

@[simp] theorem State.modQueue_mem (s : State) (q : Nat) (f : LaunchQueue → LaunchQueue) : (s.modQueue q f).mem = s.mem := rfl

@[simp] theorem State.rejectLaunch_mem (s : State) (q c cause index : Nat) : (s.rejectLaunch q c cause index).mem = s.mem := by
  simp [State.rejectLaunch]

@[simp] theorem State.launchStatus_mem (s : State) (d : DevLaunch) (status : Nat) : (s.launchStatus d status).mem = s.mem := by
  simp [State.launchStatus]

theorem State.placeWarps_mem {mk : Nat → Nat → Nat → Nat → Warp} {coreOf : Nat → Nat} {n : Nat} {ps : List (Nat × Nat)} {s t : State}
    (h : s.placeWarps mk coreOf n ps = some t) : t.mem = s.mem := by
  induction ps generalizing s with
  | nil => cases h; rfl
  | cons p ps ih =>
    rw [State.placeWarps] at h
    split at h
    · cases h
    · exact (ih h).trans rfl

@[simp] theorem State.takeCarve_mem (s : State) (li : Nat) (l : Launch) (core : Nat) : (s.takeCarve li l core).mem = s.mem := by
  unfold State.takeCarve
  split <;> simp

@[simp] theorem State.poolGive_mem (s : State) (c core kib : Nat) : (s.poolGive c core kib).mem = s.mem := rfl

theorem State.placeBlock_mem {s t : State} (li : Nat) (l : Launch) (b : Block) (nw : Nat) (parts : List Nat) (mk : Nat → Nat → Nat → Nat → Warp)
    (h : s.placeBlock li l b nw parts mk = some t) : t.mem = s.mem := by
  unfold State.placeBlock at h
  dsimp only at h
  repeat' split at h
  · cases h
  · cases h
  · cases h
  · exact (State.placeWarps_mem h).trans (State.foldl_mem _ (fun s c => by simp) _ _)

@[simp] theorem State.startSlice_mem (s : State) (c : Nat) : (s.startSlice c).mem = s.mem := rfl

@[simp] theorem State.reenter_mem (s : State) (core : Nat) : (s.reenter core).mem = s.mem := by
  simp [State.reenter]

@[simp] theorem State.returnCarves_mem (s : State) (li : Nat) (c : Nat) (cores : List Nat) :
    (s.returnCarves li c cores).mem = s.mem := State.foldl_mem _ (fun s c => by
  dsimp only
  repeat' split
  all_goals simp) _ _

@[simp] theorem State.modRing_mem (s : State) (id : Nat) (f : Ring → Ring) : (s.modRing id f).mem = s.mem := rfl

@[simp] theorem State.trimRing_mem (s : State) (id : Nat) : (s.trimRing id).mem = s.mem := by
  unfold State.trimRing
  split <;> simp

@[simp] theorem State.modCons_mem (s : State) (id : Nat) (st : Option Nat) (f : Consumer → Consumer) : (s.modCons id st f).mem = s.mem := rfl

@[simp] theorem State.popReturn_mem (s : State) (id : Nat) (q : Pop) (kind producer p : Nat) :
    (s.popReturn id q kind producer p).mem = s.mem := by
  unfold State.popReturn
  dsimp only
  repeat' split
  all_goals simp

@[simp] theorem State.holdRing_mem (s : State) (r : Ring) : (s.holdRing r).mem = s.mem := by
  unfold State.holdRing
  split <;> simp

@[simp] theorem State.popKnown_mem (s : State) (x : Iss) (unif : Bool) (l : Nat) (st : Reg) (kind p : Nat) :
    (s.popKnown x unif l st kind p).mem = s.mem := rfl

@[simp] theorem State.modStage_mem (s : State) (id : Nat) (f : Stage → Stage) : (s.modStage id f).mem = s.mem := rfl
@[simp] theorem State.modPipe_mem (s : State) (id : Nat) (f : Pipe → Pipe) : (s.modPipe id f).mem = s.mem := rfl

@[simp] theorem State.stageClass_mem (s : State) (id : Nat) : (s.stageClass id).mem = s.mem := by
  unfold State.stageClass
  repeat' split
  all_goals simp

@[simp] theorem State.modPre_mem (s : State) (op : Nat) (f : Preempt → Preempt) : (s.modPre op f).mem = s.mem := rfl

@[simp] theorem State.outcomeAt_mem (s : State) (p : Preempt) (b : Block) : (s.outcomeAt p b).mem = s.mem := by
  unfold State.outcomeAt
  repeat' split
  all_goals simp

@[simp] theorem State.reportMx_mem (s : State) (blk : Nat) : (s.reportMx blk).mem = s.mem := by
  unfold State.reportMx
  dsimp only
  repeat' split
  all_goals simp

@[simp] theorem State.setPre_mem (s : State) (blk : Nat) (p : PreSt) : (s.setPre blk p).mem = s.mem := rfl

@[simp] theorem State.adaptive_mem (s : State) (op blk : Nat) (flush : Bool) : (s.adaptive op blk flush).mem = s.mem := by
  unfold State.adaptive
  repeat' split
  all_goals simp

@[simp] theorem State.orphanMcasts_mem (s : State) (blk : Nat) : (s.orphanMcasts blk).mem = s.mem := by
  simp [State.orphanMcasts]

@[simp] theorem State.leaveMcasts_mem (s : State) (blk : Nat) : (s.leaveMcasts blk).mem = s.mem := by
  simp [State.leaveMcasts]

@[simp] theorem State.takeOff_mem (s : State) (blk op id size : Nat) (head : List Byte) : (s.takeOff blk op id size head).mem = s.mem := by
  unfold State.takeOff
  split <;> simp

@[simp] theorem State.strip_mem (s : State) (blk : Nat) (e : Live) : (s.strip blk e).mem = s.mem := rfl
@[simp] theorem State.passBsync_mem (s : State) (blk : Nat) : (s.passBsync blk).mem = s.mem := rfl

theorem State.reslot_mem {coreOf : Nat → Nat} {ps : List (Nat × Nat)} {s t : State} (h : s.reslot coreOf ps = some t) : t.mem = s.mem := by
  induction ps generalizing s with
  | nil => cases h; rfl
  | cons p ps ih =>
    rw [State.reslot] at h
    split at h
    · cases h
    · split at h
      · cases h
      · exact (ih h).trans (State.modWarp_mem ..)

@[simp] theorem State.gangWhole_mem (s : State) (li : Nat) : (s.gangWhole li).mem = s.mem := by
  unfold State.gangWhole
  split <;> simp

theorem State.putBack_mem {s t : State} (dies blk : Nat) (image : Option Image) (cores parts : List Nat)
    (h : s.putBack dies blk image cores parts = some t) : t.mem = s.mem := by
  unfold State.putBack at h
  split at h
  · cases h
  · split at h
    · cases h
    · dsimp only at h
      split at h
      · cases h
      · split at h
        · cases h
        · rename_i slots
          have placed := (State.reslot_mem slots).trans ((State.modBlk_mem ..).trans (State.foldl_mem _ (fun s c => by simp) _ _))
          split at h <;> cases h <;> simp [placed]

@[simp] theorem State.restartAt_mem (s : State) (blk start : Nat) : (s.restartAt blk start).mem = s.mem := by
  unfold State.restartAt
  repeat' split
  all_goals simp

@[simp] theorem State.refuse_mem (s : State) (p : Preempt) (e : Entry) : (s.refuse p e).mem = s.mem := by
  unfold State.refuse
  dsimp only
  repeat' split
  all_goals simp

@[simp] theorem State.resumeBlk_mem (s : State) (blk : Nat) (e : FaultEntry) (kind : Nat) : (s.resumeBlk blk e kind).mem = s.mem := by
  unfold State.resumeBlk
  dsimp only
  split
  · refine (State.foldl_mem _ (fun s r => by simp) _ _).trans ?_
    exact (State.foldl_mem _ (fun s x => by simp) _ _).trans (State.foldl_mem _ (fun s x => by simp) _ _)
  · refine (State.foldl_mem _ (fun s x => by simp) _ _).trans ?_
    refine (State.foldl_mem _ (fun s r => by simp) _ _).trans ?_
    refine (State.foldl_mem _ (fun s c => by simp) _ _).trans ?_
    refine (State.foldl_mem _ (fun s m => by simp) _ _).trans ?_
    exact (State.foldl_mem _ (fun s c => by simp) _ _).trans (State.foldl_mem _ (fun s x => by simp) _ _)
  · split <;> simp

@[simp] theorem State.resumeEntry_mem (s : State) (ctx id kind : Nat) : (s.resumeEntry ctx id kind).mem = s.mem := by
  unfold State.resumeEntry
  split
  · rfl
  · dsimp only
    split
    · exact State.foldl_mem _ (fun s b => by split <;> simp) _ _
    · exact (State.modCtx_mem ..).trans (State.foldl_mem _ (fun s b => by split <;> simp) _ _)

@[simp] theorem State.laterResumes_mem (s : State) (ctx blk : Nat) : (s.laterResumes ctx blk).mem = s.mem := by
  unfold State.laterResumes
  split
  · rfl
  · exact State.foldl_mem _ (fun s r => by split <;> simp) _ _

@[simp] theorem State.entryHandled_mem (s : State) (op : Nat) : (s.entryHandled op).mem = s.mem := by
  unfold State.entryHandled
  dsimp only
  repeat' split
  all_goals simp

@[simp] theorem State.migrDone_mem (s : State) (x : Iss) (q : Fin 8) (ok : Bool) : (s.migrDone x q ok).mem = s.mem := by
  simp [State.migrDone]

@[simp] theorem State.modGroup_mem (s : State) (id : Nat) (f : Group → Group) : (s.modGroup id f).mem = s.mem := rfl

@[simp] theorem State.collEnd_mem (s : State) (g : Group) (c : Coll) : (s.collEnd g c).mem = s.mem := by
  simp [State.collEnd]

@[simp] theorem State.collAnswer_mem (s : State) (g : Group) (c : Coll) (lo hi : Nat) : (s.collAnswer g c lo hi).mem = s.mem := by
  simp [State.collAnswer]

@[simp] theorem State.collStart_mem (s : State) (x : Iss) (ctr : Option (Fin 8)) (d : Option (Reg × Nat)) (mk : Nat → Nat → State → State)
    (h : ∀ a b t, (mk a b t).mem = t.mem) : (s.collStart x ctr d mk).mem = s.mem := by
  simp [State.collStart, h]

@[simp] theorem State.tellLive_mem (s : State) (g : Group) : (s.tellLive g).mem = s.mem := rfl
@[simp] theorem State.tell_mem (s : State) (g : Group) (data : List Byte) : (s.tell g data).mem = s.mem := rfl

@[simp] theorem State.dropMember_mem (s : State) (group rank : Nat) : (s.dropMember group rank).mem = s.mem := by
  unfold State.dropMember
  repeat' split
  all_goals simp

@[simp] theorem State.portsFix_mem (s : State) : (s.portsFix).mem = s.mem := by
  simp [State.portsFix]

@[simp] theorem State.collIssue_mem (s : State) (x : Iss) (g : Group) (kind : CollKind) (dst src bytes : Nat) (ctr : Option (Fin 8))
    (d : Option (Reg × Nat)) : (s.collIssue x g kind dst src bytes ctr d).mem = s.mem := State.collStart_mem _ _ _ _ _ fun a b t => by simp

@[simp] theorem State.agree_mem (s : State) (g : Group) : (s.agree g).mem = s.mem := by
  unfold State.agree
  split <;> simp

@[simp] theorem State.transfer_mem (s : State) (x : Iss) (m : Mask) (target : Nat → Nat) : (s.transfer x m target).mem = s.mem := by
  simp [State.transfer]

@[simp] theorem State.callTo_mem (s : State) (x : Iss) (link : Reg) (target : Nat → Nat) : (s.callTo x link target).mem = s.mem := by
  unfold State.callTo
  dsimp only
  repeat' split
  all_goals simp

@[simp] theorem State.trapWaiters_mem (s : State) (w : Nat) (m : Mask) (c : Nat → Cause) : (s.trapWaiters w m c).mem = s.mem := by
  unfold State.trapWaiters
  split <;> simp

@[simp] theorem State.modPart_mem (s : State) (die : Nat) (f : Die → Die) : (s.modPart die f).mem = s.mem := State.foldl_mem _
    (fun s d => by simp) _ _

@[simp] theorem State.writePartcfg_mem (s : State) (die v : Nat) : (s.writePartcfg die v).mem = s.mem := by
  unfold State.writePartcfg
  dsimp only
  split
  · rfl
  · exact State.foldl_mem _ (fun s d => by simp) _ _

@[simp] theorem State.nameCtx_mem (s : State) (c : Nat) : (s.nameCtx c).mem = s.mem := by
  unfold State.nameCtx
  split <;> simp

@[simp] theorem State.writeTenpart_mem (s : State) (n v : Nat) : (s.writeTenpart n v).mem = s.mem := by
  unfold State.writeTenpart
  dsimp only
  repeat' split
  all_goals simp

@[simp] theorem State.writeFncfg_mem (s : State) (n v : Nat) : (s.writeFncfg n v).mem = s.mem := by
  unfold State.writeFncfg
  repeat' split
  all_goals simp

@[simp] theorem State.sreadDone_mem (s : State) (x : Iss) (i : Instr) (d : Reg) (n : Nat) (f : Nat → Nat) :
    (s.sreadDone x i d n f).mem = s.mem := by
  simp [State.sreadDone]

@[simp] theorem State.writeUser_mem (s : State) (x : Iss) (ls : List Nat) (sel v : Nat) : (s.writeUser x ls sel v).mem = s.mem := by
  unfold State.writeUser
  split <;> simp

@[simp] theorem State.writeCtx_mem (s : State) (x : Iss) (sel v : Nat) : (s.writeCtx x sel v).mem = s.mem := by
  unfold State.writeCtx
  split <;> simp

@[simp] theorem State.writeQueue_mem (s : State) (q i v : Nat) : (s.writeQueue q i v).mem = s.mem := by
  unfold State.writeQueue
  split <;> simp

@[simp] theorem State.writeLanemap_mem (s : State) (n v : Nat) : (s.writeLanemap n v).mem = s.mem := by
  unfold State.writeLanemap
  split <;> simp

@[simp] theorem State.follow_mem (s : State) (i : Instr) : (s.follow i).mem = s.mem := rfl

@[simp] theorem State.writeMoveEnd_mem (s : State) (die v : Nat) : (s.writeMoveEnd die v).mem = s.mem := by
  simp [State.writeMoveEnd]

@[simp] theorem State.writeReg_mem (s : State) (x : Iss) (ls : List Nat) (sel v : Nat) : (s.writeReg x ls sel v).mem = s.mem := by
  simp [State.writeReg, apply_ite State.mem]

@[simp] theorem State.tlbDrop_mem (s : State) (x : Iss) (dies : List Nat) (p : Tlb → Bool) (q : Nat → Nat → Bool) :
    (s.tlbDrop x dies p q).mem = s.mem := rfl

@[simp] theorem State.assignTo_mem (s : State) (idx kind ctx : Nat) : (s.assignTo idx kind ctx).mem = s.mem := by
  unfold State.assignTo
  repeat' split
  all_goals simp

@[simp] theorem State.voidSlot_mem (s : State) (n : Nat) : (s.voidSlot n).mem = s.mem := rfl
@[simp] theorem State.enterJournal_mem (s : State) (ctx : Nat) : (s.enterJournal ctx).mem = s.mem := rfl
@[simp] theorem State.setJob_mem (s : State) (ctx : Nat) (f : Job → Job) : (s.setJob ctx f).mem = s.mem := rfl
@[simp] theorem State.journalFix_mem (s : State) : (s.journalFix).mem = s.mem := rfl

@[simp] theorem State.openFix_mem (s : State) : (s.openFix).mem = s.mem := by
  unfold State.openFix
  split
  · rfl
  · split
    · rfl
    · split <;> rfl

@[simp] theorem State.unitDone_mem (s : State) (i : Item) (k : Nat) : (s.unitDone i k).mem = s.mem := by
  unfold State.unitDone
  dsimp only
  split
  · rfl
  · split <;> rfl

@[simp] theorem State.modVector_mem (s : State) (fn vec : Nat) (f : Vector → Vector) : (s.modVector fn vec f).mem = s.mem := rfl

@[simp] theorem State.moveGrain_mem (s : State) (part : Nat) (d : Die) : (s.moveGrain part d).mem = s.mem := by
  unfold State.moveGrain
  dsimp only
  split <;> simp

@[simp] theorem State.loseWork_mem (s : State) : (s.loseWork).mem = s.mem := rfl
@[simp] theorem State.alarmAt_mem (s : State) (level : Nat) : (s.alarmAt level).mem = s.mem := rfl
@[simp] theorem State.scrubAll_mem (s : State) (resumed : Bool) : (s.scrubAll resumed).mem = s.mem := State.foldl_mem _ (fun s c => by simp) _ _

@[simp] theorem State.erase_mem (s : State) : (s.erase).mem = s.mem := by
  unfold State.erase
  rw [State.openFix_mem, State.journalFix_mem]
  refine (State.foldl_mem _ (fun s c => by simp) _ _).trans ((State.foldl_mem _ (fun s n => ?_) _ _).trans (by simp))
  split <;> simp

@[simp] theorem State.bootUp_mem (s : State) (b : BootResult) : (s.bootUp b).mem = s.mem := by
  unfold State.bootUp
  split <;> simp

@[simp] theorem State.sendInbound_mem (s : State) : (s.sendInbound).mem = s.mem := State.foldl_mem _ (fun s e => by split <;> rfl) _ _
@[simp] theorem State.markLane_mem (s : State) (wp : Warp) (k : Nat) : (s.markLane wp k).mem = s.mem := rfl

theorem State.prepare_done_mem {s t : State} {w : Nat} (h : s.prepare w = .done t) : t.mem = s.mem := by
  unfold State.prepare at h
  dsimp only at h
  repeat' split at h
  all_goals cases h
  all_goals simp

theorem State.prepare_run_mem {s t : State} {w : Nat} {i : Instr} (h : s.prepare w = .run t i) : t.mem = s.mem := by
  obtain ⟨wp, x, j, p, -, -, taken, rfl, -⟩ := Safety.prepare_run h
  simp [State.takePipe_mem _ _ taken, Safety.reached]

@[simp] theorem State.residueFail_mem (s : State) (w k : Nat) : (s.residueFail w k).mem = s.mem := by
  unfold State.residueFail
  split
  · exact State.prepare_done_mem ‹_›
  · have := State.prepare_run_mem ‹_›
    repeat' split
    all_goals simpa

@[simp] theorem State.withWord_mem (s : State) (d : DWord) : (s.withWord d).mem = s.mem := rfl
@[simp] theorem State.withFetchWord_mem (s : State) (_nbits w : Nat) : (s.withFetchWord _nbits w).mem = s.mem := rfl
end Sys2Proof.Machine
end

section
/-! SUPPORT. The form of memory through the operations that write it: lines, requests at their home (R208) and the engines. Memory is written
by `Memory.writeN` and by the marks of lines alone. -/

namespace Sys2Proof.Machine
open Sys2Proof.Safety

/-- The canonical form, of a memory (log 1). -/
def Formed (m : Memory) : Prop := Memory.wf m

theorem memOk_iff_formed {s : State} : MemOk s ↔ Formed s.mem := Iff.rfl

variable {s : State}

theorem formed_foldl {α : Type} {g : State → α → State} (hg : ∀ s a, Formed s.mem → Formed (g s a).mem) (l : List α) (h : Formed s.mem) :
    Formed (l.foldl g s).mem := by
  induction l generalizing s with
  | nil => exact h
  | cons a l ih => exact ih (hg s a h)

theorem formed_foldl_fst {α β : Type} {g : State × β → α → State × β} (hg : ∀ acc a, Formed acc.1.mem → Formed (g acc a).1.mem)
    (l : List α) {acc : State × β} (h : Formed acc.1.mem) : Formed (l.foldl g acc).1.mem := by
  induction l generalizing acc with
  | nil => exact h
  | cons a l ih => exact ih (hg acc a h)

/-! ### Lines -/

@[simp] theorem formed_writeN {m : Memory} (h : Formed m) (a : Nat) (bs : List Byte) : Formed (Memory.writeN m a bs) := Memory.wf_writeN h a bs

@[simp] theorem formed_ramWrite (h : Formed s.mem) (ln slot : Nat) (data : List Byte) : Formed (s.ramWrite ln slot data).mem :=
  State.ramWrite_memOk h ln slot data

@[simp] theorem formed_writeBack (h : Formed s.mem) (l : Line) : Formed (s.writeBack l).mem := by
  unfold State.writeBack
  split
  · exact h
  · split <;> simp [h]

@[simp] theorem formed_dropLine (h : Formed s.mem) (ln : Nat) (back : Bool) : Formed (s.dropLine ln back).mem := by
  unfold State.dropLine
  split
  · exact h
  · cases back <;> simp [h]

@[simp] theorem formed_wayAmong (h : Formed s.mem) (inSet : List Line) (ways : List Nat) (chance : Bool) :
    Formed (s.wayAmong inSet ways chance).1.mem := by
  unfold State.wayAmong
  split
  · exact h
  · dsimp only
    split <;> simp [h]

@[simp] theorem formed_allocWay (h : Formed s.mem) (die slice ln : Nat) : Formed (s.allocWay die slice ln).1.mem := by
  unfold State.allocWay
  dsimp only
  split
  · simp [h]
  · split
    · split
      · rename_i found
        have kept := congrArg (fun r : State × Option Nat => Formed r.1.mem) found
        exact kept.mp (formed_wayAmong h _ _ _)
      · simp [h]
    · simp [h]

@[simp] theorem formed_slotMiss (h : Formed s.mem) (p : Place) : Formed (s.slotMiss p).mem := by
  unfold State.slotMiss
  repeat' split
  all_goals simp [h]

@[simp] theorem formed_fill (h : Formed s.mem) (p : Place) (hint : Hint) (write : Bool) : Formed (s.fill p hint write).mem := by
  unfold State.fill
  dsimp only
  split
  · simp [h]
  · split
    · simp [h]
    · have alloc := formed_allocWay (formed_slotMiss h p) p.die p.slice (lineOf p.tier p.pa)
      split
      all_goals
        rename_i found
        simpa [found] using alloc

@[simp] theorem formed_putLine (h : Formed s.mem) (p : Place) (bs : List Byte) (rel : Option Nat) (own : Option Owner) :
    Formed (s.putLine p bs rel own).mem := by
  unfold State.putLine
  dsimp only
  repeat' split
  all_goals simp [h]

@[simp] theorem formed_unitPut (h : Formed s.mem) (p : Place) (b : Byte) : Formed (s.unitPut p b).mem := by
  unfold State.unitPut
  repeat' split
  all_goals simp [h]

@[simp] theorem formed_writeVirt (h : Formed s.mem) (die c va : Nat) (bs : List Byte) : Formed (s.writeVirt die c va bs).mem := by
  induction bs generalizing s va with
  | nil => exact h
  | cons b bs ih =>
    rw [State.writeVirt]
    split <;> simp [h, ih]

@[simp] theorem formed_snapshot (h : Formed s.mem) (w : Nat) (p : Place) : Formed (s.snapshot w p).mem := by
  unfold State.snapshot
  dsimp only
  repeat' split
  all_goals simp [h]

@[simp] theorem formed_cleanLine (h : Formed s.mem) (l : Line) : Formed (s.cleanLine l).mem := by simp [State.cleanLine, h]

@[simp] theorem formed_outerWrite (h : Formed s.mem) (ps : List Place) (data : List Byte) : Formed (s.outerWrite ps data).mem :=
  formed_foldl (fun _ _ k => by simp [k]) _ h

@[simp] theorem formed_outerMiss (h : Formed s.mem) (ps : List Place) : Formed (s.outerMiss ps).mem :=
  formed_foldl (fun s p k => by
    repeat' split
    all_goals simp [k]) _ h

/-! ### Requests at their home (R208) -/

@[simp] theorem formed_headWork (h : Formed s.mem) (r : Req) : Formed (s.headWork r).mem := by
  unfold State.headWork
  repeat' split
  all_goals simp [h]

@[simp] theorem formed_putAll (h : Formed s.mem) (r : Req) : Formed (s.putAll r).mem := by
  unfold State.putAll
  exact formed_foldl (fun _ _ k => by simp [k]) _ (by split <;> exact h)

@[simp] theorem formed_perform (h : Formed s.mem) (r : Req) : Formed (s.perform r).mem := by
  unfold State.perform
  dsimp only
  split
  · simp [h]
  · simp [h]
  · split <;> simp [formed_fill (formed_snapshot h _ _)]
  · split <;> simp [h]
  · split <;> simp [h]
  · simp [h]
  · simp [h]

@[simp] theorem formed_applyAtomic (h : Formed s.mem) (r : Req) : Formed (s.applyAtomic r).mem := by
  unfold State.applyAtomic
  dsimp only
  split
  · split <;> simp [formed_fill (formed_snapshot h _ _)]
  · exact h

section
variable {one : State → Req → State} (hone : ∀ s r, Formed s.mem → Formed (one s r).mem)
include hone

theorem formed_serve (h : Formed s.mem) (rs : List Req) (n : Nat) (taken : List Nat) : Formed (s.serve one rs n taken).mem := by
  induction rs generalizing s n taken with
  | nil => exact h
  | cons r rs ih =>
    cases n with
    | zero => exact h
    | succ n =>
      rw [State.serve]
      split
      · exact h
      · split
        · simp [h]
        · refine ih ?_ _ _
          split
          · exact h
          · exact hone s r h

theorem formed_sliceCycle (h : Formed s.mem) (die slice : Nat) (atomic : Bool) (n : Nat) :
    Formed (s.sliceCycle one die slice atomic n).mem := by
  have filled : ∀ t : State, (if atomic then t.takeIn die slice 256 else t).mem = t.mem := fun t => by split <;> simp
  unfold State.sliceCycle
  extract_lets fill crossed q key served
  have hc : Formed crossed.mem := by simpa [crossed, fill, filled] using h
  clear_value crossed q
  split
  · exact hc
  · split
    · simp [hc]
    · have hs : Formed served.mem := by
        simp only [served]
        repeat' split
        all_goals simp [hc]
      simp only [fill, State.heads_mem, filled]
      refine formed_serve hone ?_ _ _ _
      exact hs

end

/-! ### The engines -/

@[simp] theorem formed_devWrite (h : Formed s.mem) (e : Engine) (w : Nat) (own : Owner) (p : Place) (bs : List Byte) :
    Formed (s.devWrite e w own p bs).mem := by
  unfold State.devWrite
  dsimp only
  repeat' split
  all_goals simp [h, formed_snapshot (formed_fill h _ _ _)]

@[simp] theorem formed_spotWrite (h : Formed s.mem) (e : Engine) (w blk : Nat) (own : Owner) (x : Spot) (v : Byte) :
    Formed (s.spotWrite e w blk own x v).mem := by
  cases x <;> simp [State.spotWrite, h]

@[simp] theorem formed_engineRead (h : Formed s.mem) (xs : List Spot) : Formed (s.engineRead xs).mem :=
  formed_foldl (fun _ _ k => by simp [k]) _ h

@[simp] theorem formed_copyUnit (h : Formed s.mem) (c : Copy) (e : Ecc) : Formed (s.copyUnit c e).mem := by
  unfold State.copyUnit
  split
  · rename_i b wp _ _
    extract_lets ctx
    split
    · exact h
    · split
      · rename_i walks
        rwa [State.engineWalks_mem _ _ _ _ walks]
      · split
        · simp [h]
        · exact h
        · extract_lets ready other read freed written marked
          have hr : Formed read.mem := by simp [read, h]
          have hf : Formed freed.mem := by
            simp only [freed]
            split <;> exact hr
          have hw : Formed written.mem := formed_foldl (fun _ _ k => by simp [k]) _ hf
          have hm : Formed marked.mem := hw
          clear_value marked
          split
          · split <;> simp [h]
          · split
            · simp [h]
            · split
              · simp [h]
              · split <;> simp [hm]
  · exact h
end Sys2Proof.Machine
end

section
/-! SUPPORT. The form of memory through rings, launches, signals, reports, pre-emption, resets and outside accesses. -/

namespace Sys2Proof.Machine
open Sys2Proof.Safety

variable {s : State}

@[simp] theorem formed_mcastRead (h : Formed s.mem) (m : Mcast) : Formed (s.mcastRead m).mem := by
  unfold State.mcastRead
  dsimp only
  split
  · split
    · rename_i walks
      rwa [State.engineWalks_mem _ _ _ _ walks]
    · repeat' split
      all_goals simp [h]
  · exact h

@[simp] theorem formed_bandRead (h : Formed s.mem) (c : MxCmd) (ctx : Nat) (b : Block) (hi : Nat) :
    Formed (s.bandRead c ctx b hi).mem := formed_engineRead h _

@[simp] theorem formed_endBand (h : Formed s.mem) (c : MxCmd) (hi : Nat) (d : Band) : Formed (s.endBand c hi d).mem := by
  unfold State.endBand
  extract_lets lines own claimed held written
  have hw : Formed written.mem := formed_foldl (fun _ _ k => by simp [k]) _ h
  split
  · simp [h]
  · exact hw

/-- An access of a peer's memory is answered (R203). -/
@[simp] theorem formed_peerRequest (h : Formed s.mem) (id : Nat) (ans : PeerAnswer) : Formed (s.peerRequest id ans).mem := by
  unfold State.peerRequest
  split
  · exact h
  · rename_i r _
    split
    · exact h
    · split
      · simp [h]
      · split <;> simp [h]
      · extract_lets base accs written synced
        have hw : Formed written.mem := by
          simp only [written]
          split
          · exact formed_foldl (fun _ _ k => by simp [k]) _ h
          · exact formed_foldl (fun _ _ k => by simp [k]) _ h
          · exact h
        have hs : Formed synced.mem := by
          simp only [synced]
          split <;> simp [hw]
        simp [hs]

/-! ### Launches -/

@[simp] theorem formed_replay (h : Formed s.mem) (li : Nat) (l : Launch) : Formed (s.replay li l).mem := by
  unfold State.replay
  split
  · exact h
  · extract_lets back
    have hb : Formed back.mem := formed_foldl (fun _ _ k => formed_foldl (fun _ _ k => by simp [k]) _ k) _ h
    clear_value back
    split <;> simp [hb]

@[simp] theorem formed_dispatchQueue (h : Formed s.mem) (q : Nat) : Formed (s.dispatchQueue q).mem := by
  unfold State.dispatchQueue
  dsimp only
  repeat' split
  all_goals simp [h]

@[simp] theorem formed_dispatchDevice (h : Formed s.mem) (c : Nat) : Formed (s.dispatchDevice c).mem := by
  unfold State.dispatchDevice
  dsimp only
  repeat' split
  all_goals simp [h]

/-! ### Rings -/

@[simp] theorem formed_storeRing (h : Formed s.mem) (id : Nat) : Formed (s.storeRing id).mem := by
  unfold State.storeRing
  dsimp only
  split
  · exact h
  · refine formed_writeVirt ?_ _ _ _ _
    split <;> simp [h]

@[simp] theorem formed_popWrite (h : Formed s.mem) (q : Pop) (data : List Byte) : Formed (s.popWrite q data).mem := by
  unfold State.popWrite
  split
  · simp [h]
  · exact formed_foldl (fun _ _ k => by simp [k]) _ h

@[simp] theorem formed_popOne (h : Formed s.mem) (id : Nat) (q : Pop) (x : Pos) : Formed (s.popOne id q x).mem := by
  unfold State.popOne
  dsimp only
  repeat' split
  all_goals simp [h]

@[simp] theorem formed_servePops (h : Formed s.mem) (id : Nat) : Formed (s.servePops id).mem := by
  unfold State.servePops
  split
  · exact h
  · refine formed_storeRing ?_ _
    rw [State.trimRing_mem]
    refine formed_foldl (fun _ _ k => ?_) _ h
    dsimp only
    repeat' split
    all_goals simp [k]

@[simp] theorem formed_claimNow (h : Formed s.mem) (id : Nat) (c : Claim) : Formed (s.claimNow id c).mem :=
  formed_storeRing (by exact h) id

@[simp] theorem formed_claim (h : Formed s.mem) (id : Nat) (c : Claim) : Formed (s.claim id c).mem := by
  unfold State.claim
  repeat' split
  all_goals simp [h]

@[simp] theorem formed_claimHead (h : Formed s.mem) (id : Nat) : Formed (s.claimHead id).mem := by
  unfold State.claimHead
  repeat' split
  · exact h
  · exact h
  · exact formed_claimNow (by exact h) _ _
  · exact h

@[simp] theorem formed_pushOne (h : Formed s.mem) (x : Iss) (grp : Nat) (ctr : Option (Fin 8)) (port marker : Bool) (o : RingOp) :
    Formed (s.pushOne x grp ctr port marker o).mem := by
  unfold State.pushOne
  dsimp only
  refine formed_claim ?_ _ _
  split <;> exact h

@[simp] theorem formed_popOneIssue (h : Formed s.mem) (x : Iss) (grp : Nat) (ctr : Option (Fin 8)) (st : Reg) (unif : Bool)
    (consumer : Option Nat) (o : RingOp) : Formed (s.popOneIssue x grp ctr st unif consumer o).mem := by
  unfold State.popOneIssue
  dsimp only
  repeat' split
  · simp [h]
  · simp [h]
  · simp [h]
  · exact formed_servePops (by exact h) _
  · exact formed_servePops (by exact h) _

/-! ### Pipelines -/

@[simp] theorem formed_dropRef (h : Formed s.mem) (pipe stage : Nat) : Formed (s.dropRef pipe stage).mem := by
  unfold State.dropRef
  repeat' split
  · exact h
  · exact h
  · exact formed_servePops (by exact h) _
  · simp [h]

@[simp] theorem formed_dropRefs (h : Formed s.mem) (p : Pipe) : Formed (s.dropRefs p).mem :=
  formed_foldl (fun _ _ k => by simp [k]) _ h

@[simp] theorem formed_pipesEnd (h : Formed s.mem) : Formed s.pipesEnd.mem :=
  formed_foldl (fun _ _ k => by
    dsimp only
    repeat' split
    all_goals simp [k]) _ h

@[simp] theorem formed_unbind (h : Formed s.mem) (p : Pipe) : Formed (s.unbind p).mem := by
  unfold State.unbind
  split <;> simp [h]

@[simp] theorem formed_bindStage (h : Formed s.mem) (ctx cls pipe inRing cursor : Nat) (e : StageRead × Ring) :
    Formed (s.bindStage ctx cls pipe inRing cursor e).1.mem := by
  simp [State.bindStage, h]

@[simp] theorem formed_bind (h : Formed s.mem) (ctx cls : Nat) (b : BindInfo) (es : List (StageRead × Ring)) (sh : List Stage) (d j : Nat) :
    Formed (s.bind ctx cls b es sh d j).1.mem := by
  unfold State.bind
  extract_lets pid numbered held attach size refd handle r src pipe bound
  have hr : Formed r.1.mem := by
    refine formed_foldl_fst (fun acc e k => by simp [k]) es ?_
    have hh : Formed held.mem := by
      simp only [held]
      split <;> simp [numbered, h]
    exact (State.foldl_mem (fun s (x : Stage) => s.modStage x.id fun y => { y with refs := y.refs ++ [pid] }) (fun _ _ => rfl) (sh.take d) held) ▸ hh
  simpa [bound] using hr

/-! ### Signals, reports and tasks -/

@[simp] theorem formed_signal (h : Formed s.mem) (ctx addr : Nat) (val : DWord) (recAddr lin : Nat) :
    Formed (s.signal ctx addr val recAddr lin).mem := by
  unfold State.signal
  dsimp only
  repeat' split
  all_goals simp [h]

@[simp] theorem formed_report (h : Formed s.mem) (op blk outcome info : Nat) : Formed (s.report op blk outcome info).mem := by
  unfold State.report
  dsimp only
  split
  · split <;> simp [formed_writeVirt (formed_writeVirt _ _ _ _ _), h]
  · exact h

@[simp] theorem formed_ringPut (h : Formed s.mem) (ctx base n : Nat) (ts : List Task) : Formed (s.ringPut ctx base n ts).mem :=
  formed_foldl (fun _ _ k => by simp [k]) _ h

/-! ### Pre-emption -/

@[simp] theorem formed_startPre (h : Formed s.mem) (ctx desc : Nat) (d : PreDesc) (slice : Option Nat) :
    Formed (s.startPre ctx desc d slice).mem := by
  unfold State.startPre
  extract_lets op todo pre entered counted held
  have he : Formed entered.mem := h
  split
  · split <;> simp [he]
  · have hh : Formed held.mem := by
      rw [State.placeFix_mem]
      exact formed_writeVirt he _ _ _ _
    refine formed_foldl (fun _ _ k => ?_) _ hh
    split <;> exact k

theorem formed_saveBlock (h : Formed s.mem) (op blk outcome kind : Nat) {strip : State → State} (hs : ∀ t, (strip t).mem = t.mem) :
    Formed (s.saveBlock op blk outcome kind strip).mem := by
  unfold State.saveBlock
  dsimp only
  split
  · split
    · exact h
    · split
      · rw [State.bsyncFix_mem]
        exact formed_report (by exact h) _ _ _ _
      · rw [State.setPre_mem, hs, State.takeOff_mem]
        refine formed_writeVirt ?_ _ _ _ _
        rw [State.modPre_mem]
        exact formed_report (by exact h) _ _ _ _
  · exact h

@[simp] theorem formed_issueSlice (h : Formed s.mem) (ctx va : Nat) (first : Bool) : Formed (s.issueSlice ctx va first).mem := by
  unfold State.issueSlice
  dsimp only
  repeat' split
  all_goals simp [h]

@[simp] theorem formed_haltCtx (h : Formed s.mem) (c : Nat) : Formed (s.haltCtx c).mem := by
  unfold State.haltCtx
  extract_lets isC stopped ended dead clean
  have hc : Formed clean.mem := by
    have he : ended.mem = s.mem := State.foldl_mem _ (fun s b => by split <;> simp) _ _
    simpa [clean, dead, he] using h
  rw [State.placeFix_mem]
  exact formed_foldl (fun _ _ k => by simp [k]) _ hc

@[simp] theorem formed_resetCtx (h : Formed s.mem) (c : Nat) : Formed (s.resetCtx c).mem := formed_haltCtx h c

/-! ### Groups, lustration, block moves and resets -/

@[simp] theorem formed_liveBits (h : Formed s.mem) (g : Group) : Formed (s.liveBits g).mem :=
  formed_foldl (fun _ _ k => by simp [k]) _ h

@[simp] theorem formed_collWrite (h : Formed s.mem) (die ctx blk va : Nat) (bs : List Byte) :
    Formed (s.collWrite die ctx blk va bs).mem := by
  unfold State.collWrite
  repeat' split
  all_goals simp [h]

@[simp] theorem formed_scrubUnit (h : Formed s.mem) (j : JItem) (k : Nat) : Formed (s.scrubUnit j k).mem := by
  unfold State.scrubUnit
  split
  · exact h
  · exact formed_foldl (fun _ _ k => by simp [k]) _ h
  · exact h

@[simp] theorem formed_moveOne (h : Formed s.mem) (a b : Nat) : Formed (s.moveOne a b).mem :=
  formed_writeN (formed_dropLine h _ _) _ _

@[simp] theorem State.atReset_mem (s : State) : s.atReset.mem = s.mem := rfl

@[simp] theorem formed_loseMemory (h : Formed s.mem) : Formed s.loseMemory.mem := State.loseMemory_memOk h

/-! ### Outside accesses (R360) -/

/-- What an outside access makes of memory has the form. -/
def Outer.Keeps : Outer → Prop
  | .wait t | .done t _ => Formed t.mem
  | .refused => True

theorem outerAt_keeps (h : Formed s.mem) (ps : List Place) {k : State → State × List Byte} (hk : ∀ t, Formed t.mem → Formed (k t).1.mem) :
    (s.outerAt ps k).Keeps := by
  unfold State.outerAt
  dsimp only
  split
  · exact h
  · split
    · exact formed_outerMiss h ps
    · exact hk _ (formed_outerMiss h ps)

theorem outerAtomic_keeps (h : Formed s.mem) (place : Nat → Option Place) (pa : Nat) (o : AtomOp) (w : AWidth) (cas : Bool)
    (data : List Byte) : (s.outerAtomic place pa o w cas data).Keeps := by
  unfold State.outerAtomic
  dsimp only
  split
  · trivial
  · split
    · trivial
    · exact outerAt_keeps h _ fun _ k => formed_outerWrite k _ _

theorem outer_keeps (h : Formed s.mem) (place : Nat → Option Place) (pa : Nat) (a : OuterAccess) : (s.outer place pa a).Keeps := by
  unfold State.outer
  split
  · split
    · trivial
    · exact outerAt_keeps h _ fun _ k => k
  · split
    · trivial
    · exact outerAt_keeps h _ fun _ k => formed_outerWrite k _ _
  · exact outerAtomic_keeps h ..

end Sys2Proof.Machine
end

section
/-! SUPPORT. The form of memory through the shapes that words and events share. -/

namespace Sys2Proof.Machine
open Sys2Proof.Safety Sys2Proof.Forms

variable {s : State}

/-- The memory of the next state, if there is one, has the form. -/
structure Keeps (o : Res) : Prop where
  of_next : ∀ t, o = .next t → Formed t.mem

theorem keeps_next {t : State} (h : Formed t.mem) : Keeps (.next t) :=
  ⟨fun _ e => Host.Outcome.next.inj e ▸ h⟩

theorem keeps_when {c : Bool} {t : State} (h : Formed s.mem) (ht : Formed t.mem) : Keeps (when c s t) :=
  keeps_next (by split <;> assumption)

theorem keeps_atIssue {i : Instr} {k : Iss → State} (hk : ∀ x, Formed (k x).mem) : Keeps (s.atIssue i k) := by
  unfold State.atIssue
  split
  · exact ⟨fun _ e => nomatch e⟩
  · exact keeps_next (hk _)

theorem formed_accessing (h : Formed s.mem) (x : Iss) (unif : Bool) (kind : Nat) (ts : List Tried) (held : Bool) {k : State → State}
    (hk : ∀ t, Formed t.mem → Formed (k t).mem) : Formed (s.accessing x unif kind ts held k).mem := by
  unfold State.accessing
  split
  · simp [h]
  · split
    · simp [h]
    · exact hk _ (by simp [h])

section
variable (h : Formed s.mem) (i : Instr)
include h

theorem keeps_atIssue_of_mem {k : Iss → State} (hk : ∀ x, (k x).mem = s.mem) : Keeps (s.atIssue i k) :=
  keeps_atIssue fun x => hk x ▸ h

theorem keeps_regWord (d : Reg) (n lat : Nat) (f : Iss → Nat → Nat × Nat) : Keeps (s.regWord i d n lat f) :=
  keeps_atIssue_of_mem h i fun x => by simp

theorem keeps_sharedWord (d : Reg) (n lat : Nat) (f : Iss → Nat × Nat) : Keeps (s.sharedWord i d n lat f) :=
  keeps_atIssue_of_mem h i fun x => by simp

theorem keeps_qWord (q : Fin 8) (lat : Nat) (f : Iss → Nat → Bool × Nat) : Keeps (s.qWord i q lat f) :=
  keeps_atIssue_of_mem h i fun x => by simp

theorem keeps_slotWord (u : SlotUse) (slot : Fin 8) (d : Reg) (f : Slot → Iss → Nat → Nat × Nat) : Keeps (s.slotWord i u slot d f) := by
  unfold State.slotWord
  split
  · exact ⟨fun _ e => nomatch e⟩
  · split
    · exact keeps_next (by simp [h])
    · exact keeps_regWord h i _ _ _ _

theorem keeps_cacheWord (op : ReqOp) (want : Want) (addr : Reg) (off : BitVec 12) (ctr : Option (Fin 8)) :
    Keeps (s.cacheWord i op want addr off ctr) :=
  keeps_atIssue_of_mem h i fun x => by simp

theorem keeps_atomWord (o : AtomOp) (w : AWidth) (cas : Bool) (d : Option Reg) (addr v : Reg) (sc : Scope) (ord : Order) (hint : Hint)
    (ctr : Option (Fin 8)) : Keeps (s.atomWord i o w cas d addr v sc ord hint ctr) :=
  keeps_atIssue_of_mem h i fun x => by simp

theorem keeps_copyWord (out : Bool) (ctr : Option (Fin 8)) (args : Iss → Nat → CopyArgs) : Keeps (s.copyWord i out ctr args) :=
  keeps_atIssue_of_mem h i fun x => by
    dsimp only
    split
    · rfl
    · split <;> simp

theorem keeps_mxWord (op : MxOp) (t : Fin 64) (slot : Option (SlotUse × Fin 8)) (noScale : Bool) (ctr : Option (Fin 8)) (once : Bool)
    (args : Iss → Nat → MxArgs) : Keeps (s.mxWord i op t slot noScale ctr once args) :=
  keeps_atIssue_of_mem h i fun x => by
    dsimp only
    repeat' split
    all_goals simp

theorem keeps_privWord {k : Iss → State} (hk : ∀ x, Formed (k x).mem) : Keeps (s.privWord i k) :=
  keeps_atIssue fun x => by
    split
    · simp [h]
    · split
      · simp [h]
      · exact hk x

theorem keeps_preemptWord (p : Reg) : Keeps (s.preemptWord i p) :=
  keeps_privWord h i fun x => formed_accessing h _ _ _ _ _ fun t k => by
    dsimp only
    repeat' split
    all_goals simp [k]

theorem keeps_resumeWord (a : Reg) (kind : Nat) : Keeps (s.resumeWord i a kind) :=
  keeps_privWord h i fun x => by split <;> simp [h]

theorem keeps_collWord (r : Reg) (check : Iss → Option Nat) {k : Iss → Group → State} (hk : ∀ x g, (k x g).mem = s.mem) :
    Keeps (s.collWord i r check k) :=
  keeps_atIssue_of_mem h i fun x => by
    repeat' split
    all_goals simp [hk]

theorem keeps_selWord (sel : Nat) {k : Iss → State} (hk : ∀ x, (k x).mem = s.mem) : Keeps (s.selWord i sel k) :=
  keeps_atIssue_of_mem h i fun x => by split <;> simp [hk]

theorem keeps_swriteWord (sel : Nat) {f : State → Iss → Nat → State} (hf : ∀ t x l, (f t x l).mem = t.mem) : Keeps (s.swriteWord i sel f) :=
  keeps_selWord h i sel fun x => by split <;> simp [hf]

theorem keeps_trustWord {k : Iss → State} (hk : ∀ x, (k x).mem = s.mem) : Keeps (s.trustWord i k) :=
  keeps_privWord h i fun x => by split <;> simp [hk, h]

theorem keeps_ringWord (port : Option Nat) (r : Reg) (kind : Nat) (want : Want) (ctr : Option (Fin 8)) (release marker : Bool)
    (prod va : Iss → Nat → Nat) (bytes : Ring → Nat) (codeOf : Ring → Nat → Option Nat) (busy : State → Iss → RingOp → Bool)
    {step : State → Iss → Nat → RingOp → State} (hs : ∀ t x g o, Formed t.mem → Formed (step t x g o).mem) :
    Keeps (s.ringWord i port r kind want ctr release marker prod va bytes codeOf busy step) :=
  keeps_atIssue fun x => by
    have stepped : ∀ (good : List RingOp) (grp : Nat) (t : State), Formed t.mem → Formed (good.foldl (fun s o => step s x grp o) t).mem :=
      fun good grp t k => formed_foldl (fun _ _ k => hs _ _ _ _ k) good k
    dsimp only
    split
    · simp [h]
    · split
      · simp [h]
      · split
        · simp [h]
        · rw [State.partDone_mem, State.wordDone_mem]
          exact stepped _ _ _ (by simp [h])

/-- The lanes of a barrier word act one after another on the block's objects (R107). -/
theorem keeps_barWord (addr : Reg) (off : BitVec 12) (ctr : Option (Fin 8)) (d : Option Reg) (gate : Bool) (operand : Iss → Nat → Nat)
    (f : Nat → Nat → BarObj → BarRes) : Keeps (s.barWord i addr off ctr d gate operand f) :=
  keeps_atIssue_of_mem h i fun x => by
    split
    · rfl
    · extract_lets unif o ls grp entered r lanesOf pick waiting ended
      have hr : r.1.mem = s.mem := by
        refine (State.foldl_fst_mem _ (fun acc l => ?_) ls _).trans (by simp [entered])
        dsimp only
        repeat' split
        all_goals simp
      have he : ended.mem = s.mem := by simp [ended, waiting, hr]
      split
      · simp
      · split <;> simp [he]

theorem keeps_spdmStep (ok : Bool) (answer : List Byte) (f : Spdm → Spdm) : Keeps (s.spdmStep ok answer f) := by
  unfold State.spdmStep
  repeat' split
  all_goals exact keeps_next h

theorem keeps_outerRes {o : Outer} (ho : o.Keeps) (reply : List Byte → Out) : Keeps (s.outerRes o reply) := by
  cases o with
  | refused => exact keeps_next h
  | wait | done => exact keeps_next ho

end

theorem keeps_judged {t : State} {w : Nat} {i : Instr} {r : Res} (ht : Formed t.mem) (hr : Keeps r) : Keeps (s.judged t w i r) := by
  unfold State.judged
  split
  · rename_i early
    split
    · exact hr
    · have same := State.undersizedTrap_mem w i early
      exact keeps_next (same ▸ ht)
  · exact hr

end Sys2Proof.Machine
end

section
/-! SUPPORT. The form of memory through every word, by the engine classes of R36, and through every event. -/

namespace Sys2Proof.Machine
open Sys2Proof.Safety Sys2Proof.Forms Sys2Proof.Claims

section
variable {s : State} (h : Formed s.mem)
include h

/-! ### Plain words (R144 to R168) -/

theorem keeps_execCvtq (slot : Fin 8) (d a b : Reg) (x : VTail) : Keeps (execCvtq slot d a b x s) :=
  keeps_slotWord h _ _ _ _ _

theorem keeps_execCvtd (slot : Fin 8) (d a b : Reg) (x : VTail) : Keeps (execCvtd slot d a b x s) :=
  keeps_slotWord h _ _ _ _ _

theorem keeps_execScan (o : ScanOp) (t : Ty) (d a : Reg) (y : VTail) : Keeps (execScan o t d a y s) :=
  keeps_atIssue_of_mem h _ fun x => by simp

theorem keeps_execLanes (m : LanesMode) (t : Ty) (d : Reg) (y : VTail) : Keeps (execLanes m t d y s) := by
  unfold execLanes
  split
  · split
    · exact keeps_atIssue_of_mem h _ fun x => by simp
    · exact keeps_regWord h _ _ _ _ _
  · exact keeps_sharedWord h _ _ _ _ _

theorem exec_keeps_plain {i : Instr} (hi : cls i = 0) : Keeps (exec i s) := by
  cases i with
  -- integer words (R145 to R153)
  | iadd | isub | imul | imulh | imad | imadw | iaddc | imin | imax | iabs | ineg | isad | land | lor | lxor | landn | lnot | lsel | shl | shr | sar |
    rot | bfx | bfi | popc | clz | ctz | brev | lea | sel | mov | movi | movhi => exact keeps_regWord h _ _ _ _ _
  -- float words, special functions and pairs (R154 to R159)
  | fadd | fsub | fmul | ffma | fmin | fmax | fneg | fabs | fclass | frcp | frsq | fsqrt | fexp2 | flog2 | fsin | fcos | dadd | dmul | dfma | hadd2 |
    hmul2 | hfma2 => exact keeps_regWord h _ _ _ _ _
  -- conversions (R160, R163, R164) and `shfl` (R166)
  | cvt | trpack | trunpack | pack2 | shfl => exact keeps_regWord h _ _ _ _ _
  -- conversions through a slot (R161, R162)
  | cvtq => exact keeps_execCvtq h ..
  | cvtd => exact keeps_execCvtd h ..
  -- comparisons and votes into a predicate (R153, R155, R158, R167)
  | icmp | fcmp | dcmp | voteAny | voteAll | voteEq => exact keeps_qWord h _ _ _ _
  -- one value over the lanes (R167, R168)
  | voteBallot | redux => exact keeps_sharedWord h _ _ _ _ _
  | scan => exact keeps_execScan h ..
  | lanes => exact keeps_execLanes h ..
  | _ => cases hi

/-! ### Memory and barrier words -/

theorem keeps_execLdc (t : MTy) (d addr : Reg) (off : BitVec 12) (x : CTail) : Keeps (execLdc t d addr off x s) :=
  keeps_atIssue_of_mem h _ fun x => State.accessing_mem _ _ _ _ _ _ _ fun t => State.enterReqs_mem _ _ _ _ _ _ _ _ fun g u =>
    (State.foldl_mem _ (fun s e => by simp) _ _).trans (State.foldl_mem _ (fun s e => by simp) _ _)

theorem keeps_execSt (t : MTy) (d addr : Reg) (off : BitVec 12) (sc : Scope) (o : Order) (hn : Hint) (x : CTail) : Keeps
    (execSt t d addr off sc o hn x s) :=
  keeps_atIssue_of_mem h _ fun x => State.accessing_mem _ _ _ _ _ _ _ fun t => State.enterReqs_mem _ _ _ _ _ _ _ _ fun g u =>
    State.foldl_mem _ (fun s e => by simp) _ _

theorem keeps_execBinit (e addr : Reg) (off : BitVec 12) (x : CTail) : Keeps (execBinit e addr off x s) :=
  keeps_barWord h _ _ _ _ _ _ _ _

theorem keeps_execBarrive (d addr : Reg) (off : BitVec 12) (x : CTail) : Keeps (execBarrive d addr off x s) :=
  keeps_barWord h _ _ _ _ _ _ _ _

theorem keeps_execBwait (t addr : Reg) (off : BitVec 12) (x : CTail) : Keeps (execBwait t addr off x s) :=
  keeps_barWord h _ _ _ _ _ _ _ _

theorem keeps_execBtest (d addr : Reg) (off : BitVec 12) (x : CTail) : Keeps (execBtest d addr off x s) :=
  keeps_barWord h _ _ _ _ _ _ _ _

theorem keeps_execBexpect (c addr : Reg) (off : BitVec 12) (x : CTail) : Keeps (execBexpect c addr off x s) :=
  keeps_barWord h _ _ _ _ _ _ _ _

theorem exec_keeps_memory {i : Instr} (hi : cls i = 1) : Keeps (exec i s) := by
  cases i with
  | ld => exact keeps_atIssue_of_mem h _ fun x => by simp
  | pf | ckeep | cunkeep =>
    exact keeps_atIssue_of_mem h _ fun x => by
      dsimp only
      repeat' split
      all_goals simp
  | cflush | cinval => exact keeps_cacheWord h _ _ _ _ _ _
  | bsync =>
    exact keeps_atIssue_of_mem h _ fun x => by
      repeat' split
      all_goals simp
  | ldc => exact keeps_execLdc h ..
  | st => exact keeps_execSt h ..
  | binit => exact keeps_execBinit h ..
  | barrive => exact keeps_execBarrive h ..
  | bwait => exact keeps_execBwait h ..
  | btest => exact keeps_execBtest h ..
  | bexpect => exact keeps_execBexpect h ..
  | _ => cases hi

/-! ### Atomics and fences -/

theorem exec_keeps_sync {i : Instr} (hi : cls i = 2) : Keeps (exec i s) := by
  cases i with
  | atom | atomx | red => exact keeps_atomWord h _ _ _ _ _ _ _ _ _ _ _
  | fence =>
    exact keeps_atIssue_of_mem h _ fun x => by
      dsimp only
      repeat' split
      all_goals simp
  | fwait =>
    exact keeps_atIssue_of_mem h _ fun x => by
      split <;> simp
  | fpoll => exact keeps_atIssue_of_mem h _ fun x => by simp
  | _ => cases hi

/-! ### Copies, matrix words and collectives -/

theorem keeps_execXmcast (d sr n li : Reg) (x : CTail) : Keeps (execXmcast d sr n li x s) :=
  keeps_atIssue_of_mem h _ fun x => by
    dsimp only
    split
    · rfl
    · split
      · simp
      · split
        · simp
        · exact (State.enterLanes_mem _ _ _ _ _ _ _ fun t l g e => by simp).trans (by simp)

theorem keeps_execMzero (t : Fin 64) (x : CTail) : Keeps (execMzero t x s) :=
  keeps_mxWord h _ _ _ _ _ _ _ _

theorem keeps_execMload (t : Fin 64) (src sh : Reg) (slot : Fin 8) (x : CTail) : Keeps (execMload t src sh slot x s) :=
  keeps_mxWord h _ _ _ _ _ _ _ _

theorem keeps_execMloadRaw (t : Fin 64) (src sh : Reg) (x : CTail) : Keeps (execMloadRaw t src sh x s) :=
  keeps_mxWord h _ _ _ _ _ _ _ _

theorem keeps_execMma (t : Fin 64) (a b sh : Reg) (slot : Fin 8) (x : CTail) : Keeps (execMma t a b sh slot x s) :=
  keeps_mxWord h _ _ _ _ _ _ _ _

theorem keeps_execMmaSet (t : Fin 64) (a b sh : Reg) (slot : Fin 8) (x : CTail) : Keeps (execMmaSet t a b sh slot x s) :=
  keeps_mxWord h _ _ _ _ _ _ _ _

theorem keeps_execMdrain (t : Fin 64) (d sc sh : Reg) (slot : Fin 8) (x : CTail) : Keeps (execMdrain t d sc sh slot x s) :=
  keeps_mxWord h _ _ _ _ _ _ _ _

theorem keeps_execMdrainRaw (t : Fin 64) (d sh : Reg) (x : CTail) : Keeps (execMdrainRaw t d sh x s) :=
  keeps_mxWord h _ _ _ _ _ _ _ _

theorem keeps_execMread (d : Reg) (t : Fin 64) (pos sc : Reg) (slot : Fin 8) (x : CTail) : Keeps (execMread d t pos sc slot x s) :=
  keeps_atIssue_of_mem h _ fun x => by
    split
    · rfl
    · extract_lets i unif ls word k z codeOf bad good m rowOf colOf rts cts isBad fs trapped run grp counted read
      split
      · simp
      · split
        · simp
        · split
          · simp
          · have hr : read.mem = counted.mem := State.foldl_mem _ (fun s l => by simp) _ _
            simp [hr, counted, trapped]

theorem keeps_execCmembOpen (d p o hn : Reg) (x : CTail) : Keeps (execCmembOpen d p o hn x s) :=
  keeps_atIssue_of_mem h _ fun x => by
    dsimp only
    split
    · simp
    · split
      · simp
      · split
        · simp
        · refine State.accessing_mem _ _ _ _ _ _ _ fun t => ?_
          split
          · split
            · simp
            · split
              · simp
              · exact State.collStart_mem _ _ _ _ _ fun a b t => by simp
          · simp
          · simp

theorem exec_keeps_engine {i : Instr} (hi : cls i = 3) : Keeps (exec i s) := by
  cases i with
  | xcopy | xgather | xscatter | xfill => exact keeps_copyWord h _ _ _ _
  | macq | mcommit | mwait | cmembClose =>
    exact keeps_atIssue_of_mem h _ fun x => by
      dsimp only
      repeat' split
      all_goals simp
  | mrel | mbtake =>
    exact keeps_atIssue_of_mem h _ fun x => by
      split <;> simp
  | mprog => exact keeps_atIssue_of_mem h _ fun x => by simp
  | mbpass =>
    exact keeps_atIssue_of_mem h _ fun x => by
      repeat' split
      all_goals simp
  | creduce | cbcast => exact keeps_collWord h _ _ _ fun x g => by simp
  | cmembQuery =>
    exact keeps_atIssue fun x => by
      dsimp only
      repeat' split
      all_goals simp [h]
  | xmcast => exact keeps_execXmcast h ..
  | mzero => exact keeps_execMzero h ..
  | mload => exact keeps_execMload h ..
  | mloadRaw => exact keeps_execMloadRaw h ..
  | mma => exact keeps_execMma h ..
  | mmaSet => exact keeps_execMmaSet h ..
  | mdrain => exact keeps_execMdrain h ..
  | mdrainRaw => exact keeps_execMdrainRaw h ..
  | mread => exact keeps_execMread h ..
  | cmembOpen => exact keeps_execCmembOpen h ..
  | _ => cases hi

/-! ### Control words -/

theorem exec_keeps_control {i : Instr} (hi : cls i = 4) : Keeps (exec i s) := by
  cases i with
  | nop | bra | brc | brx | call | callx | ret | exit | jenter | jquit | jwait | jread => exact keeps_atIssue_of_mem h _ fun x => by simp
  | yield | jwrite | jclear =>
    exact keeps_atIssue_of_mem h _ fun x => by
      split <;> simp
  | _ => cases hi

/-! ### System words -/

theorem exec_keeps_system {i : Instr} (hi : cls i = 5) : Keeps (exec i s) := by
  cases i with
  | rte | trap => exact keeps_atIssue_of_mem h _ fun x => by simp
  | sread => exact keeps_selWord h _ _ fun x => by simp
  | swrite | lqtailDoorbell => exact keeps_swriteWord h _ _ fun t x l => by simp
  | resumeRetry | resumeDeliver | resumeEnd => exact keeps_resumeWord h _ _ _
  | preemptSliceEnd | preemptAdaptive | preemptSave | preemptRestore => exact keeps_preemptWord h _ _
  | tlbinvPage | tlbinvCtx | tlbinvAll | halt => exact keeps_privWord h _ fun x => by simp [h]
  | launch =>
    exact keeps_atIssue_of_mem h _ fun x => by
      dsimp only
      repeat' split
      all_goals simp
  | assign | kzero | lstart =>
    exact keeps_trustWord h _ fun x => by
      dsimp only
      repeat' split
      all_goals simp
  | lqerrRead | ecccntRead =>
    exact keeps_selWord h _ _ fun x => by
      split <;> simp
  | _ => cases hi

/-! ### Rings, pipelines, tasks and migration -/

theorem keeps_execRpush (src : Reg) (x : CTail) : Keeps (execRpush src x s) :=
  keeps_ringWord h _ _ _ _ _ _ _ _ _ _ _ _ _ fun t x g o k => by simp [k]

theorem keeps_execRpushRing (r src n : Reg) (x : CTail) : Keeps (execRpushRing r src n x s) :=
  keeps_ringWord h _ _ _ _ _ _ _ _ _ _ _ _ _ fun t x g o k => by simp [k]

theorem keeps_execRpop (dst st : Reg) (x : CTail) : Keeps (execRpop dst st x s) := by
  unfold execRpop
  exact keeps_ringWord h _ _ _ _ _ _ _ _ _ _ _ _ _ fun t x g o k => formed_popOneIssue k _ _ _ _ _ _ _

theorem keeps_execRpopRing (r dst st : Reg) (x : CTail) : Keeps (execRpopRing r dst st x s) := by
  unfold execRpopRing
  exact keeps_ringWord h _ _ _ _ _ _ _ _ _ _ _ _ _ fun t x g o k => formed_popOneIssue k _ _ _ _ _ _ _

theorem keeps_execReos (x : CTail) : Keeps (execReos x s) :=
  keeps_ringWord h _ _ _ _ _ _ _ _ _ _ _ _ _ fun t x g o k => by simp [k]

theorem keeps_execReosRing (r n : Reg) (x : CTail) : Keeps (execReosRing r n x s) :=
  keeps_ringWord h _ _ _ _ _ _ _ _ _ _ _ _ _ fun t x g o k => by simp [k]

theorem keeps_execMigr (q : Fin 8) (a : Reg) (x : Tail) : Keeps (execMigr q a x s) :=
  keeps_atIssue_of_mem h _ fun x => by
    split
    · simp
    · refine State.accessing_mem _ _ _ _ _ _ _ fun t => ?_
      repeat' split
      all_goals simp

theorem exec_keeps_ring {i : Instr} (hi : cls i = 6) : Keeps (exec i s) := by
  cases i with
  | spawn | pbind =>
    exact keeps_atIssue fun x => by
      dsimp only
      repeat' split
      all_goals simp [h]
  | punbind =>
    exact keeps_atIssue fun x => by
      repeat' split
      all_goals simp [h]
  | pquery =>
    exact keeps_atIssue_of_mem h _ fun x => by
      dsimp only
      repeat' split
      all_goals simp
  | rpush => exact keeps_execRpush h ..
  | rpushRing => exact keeps_execRpushRing h ..
  | rpop => exact keeps_execRpop h ..
  | rpopRing => exact keeps_execRpopRing h ..
  | reos => exact keeps_execReos h ..
  | reosRing => exact keeps_execReosRing h ..
  | migr => exact keeps_execMigr h ..
  | _ => cases hi

/-! ### Events -/

theorem keeps_execIssueSelect (warp wait : Nat) (residue : Option Nat) : Keeps (execIssueSelect warp wait residue s) := by
  unfold execIssueSelect
  dsimp only
  repeat' split
  all_goals exact keeps_next (by simp [h])

theorem keeps_execFrontierCheck (w : Nat) : Keeps (execFrontierCheck w s) := by
  unfold execFrontierCheck
  split
  · exact keeps_next h
  · exact keeps_when h (by simp [h])

theorem keeps_execWatchdogExpiry (w : Nat) : Keeps (execWatchdogExpiry w s) := by
  unfold execWatchdogExpiry
  split
  · exact keeps_next h
  · split
    · exact keeps_next h
    · split
      · exact keeps_next h
      · exact keeps_when h (by simp [h])

theorem keeps_execShadowCompare (warp : Nat) (differ : Mask) : Keeps (execShadowCompare warp differ s) := by
  unfold execShadowCompare
  split
  · exact keeps_next h
  · split
    · exact keeps_next h
    · exact keeps_when h (by simp [h])

theorem keeps_execTableWalk (die cluster : Nat) : Keeps (execTableWalk die cluster s) := by
  unfold execTableWalk
  split
  · exact keeps_next h
  · extract_lets root read dropped walked fail
    have hd : Formed dropped.mem := formed_foldl (fun _ _ k => by simp [k]) _ h
    have hw : Formed walked.mem := by simpa [walked] using hd
    clear_value walked
    repeat' split
    all_goals exact keeps_next (by simp [fail, hw])

theorem keeps_execHoldBoundExpiry (w : Waiter) (_reason : Nat) : Keeps (execHoldBoundExpiry w _reason s) := by
  unfold execHoldBoundExpiry
  split
  · split
    · exact keeps_when h (by simp [h])
    · split <;> exact keeps_next (by simp [h])
  · dsimp only
    repeat' split
    all_goals exact keeps_next (by simp [h])
  · dsimp only
    repeat' split
    all_goals exact keeps_next (by simp [h])

theorem keeps_execBounceTokenReturn (id : Nat) : Keeps (execBounceTokenReturn id s) := by
  unfold execBounceTokenReturn
  repeat' split
  all_goals exact keeps_next (by simp [h])

theorem keeps_execReissue (id : Nat) : Keeps (execReissue id s) := by
  unfold execReissue
  split
  · repeat' split
    all_goals exact keeps_next (by simp [h])
  · exact keeps_when h (by simp [h])

theorem keeps_execLoadReply (id : Nat) (e : Ecc) : Keeps (execLoadReply id e s) := by
  unfold execLoadReply
  split
  · exact keeps_next h
  · exact keeps_when h (by simp [h])

theorem keeps_execWriteAck (id : Nat) : Keeps (execWriteAck id s) := by
  unfold execWriteAck
  split
  · exact keeps_next h
  · exact keeps_when h (by simp [h])

theorem keeps_execAtomicReply (id : Nat) (e : Ecc) : Keeps (execAtomicReply id e s) := by
  unfold execAtomicReply
  split
  · exact keeps_next h
  · exact keeps_when h (by simp [h])

theorem keeps_execPromotionAnswer (id : Nat) : Keeps (execPromotionAnswer id s) := by
  unfold execPromotionAnswer
  dsimp only
  repeat' split
  all_goals exact keeps_next (by simp [h])

theorem keeps_execTier2WritebackAccept (line : Nat) : Keeps (execTier2WritebackAccept line s) := by
  unfold execTier2WritebackAccept
  dsimp only
  repeat' split
  all_goals exact keeps_next (by simp [h])

theorem keeps_execPeerResponse (id : Nat) (ans : PeerAnswer) : Keeps (execPeerResponse id ans s) := by
  unfold execPeerResponse
  repeat' split
  all_goals exact keeps_next (by simp [h])

theorem keeps_execHostPortCompletion (id : Nat) (data : List Byte) : Keeps (execHostPortCompletion id data s) := by
  unfold execHostPortCompletion
  dsimp only
  repeat' split
  all_goals exact keeps_next (by simp [h])

theorem keeps_execCopyCommandStart (core : Nat) : Keeps (execCopyCommandStart core s) := by
  unfold execCopyCommandStart
  dsimp only
  split
  · exact keeps_next h
  · split <;> exact keeps_next h
  · exact keeps_when h h

theorem keeps_execCopyLineClaim (core cmd : Nat) : Keeps (execCopyLineClaim core cmd s) := by
  unfold execCopyLineClaim
  dsimp only
  split
  · exact keeps_next h
  · split
    · rename_i t _ _ found
      exact keeps_next (State.claimNext_mem _ found ▸ h)
    · split
      · rename_i walks
        obtain ⟨-, same⟩ := Option.ite_none_right_eq_some.mp walks
        exact keeps_next (State.engineWalks_mem _ _ _ _ same ▸ h)
      · exact keeps_next (by simp [apply_ite State.mem, h])
    · exact keeps_next h

theorem keeps_execCopyUnitDone (core cmd : Nat) (e : Ecc) : Keeps (execCopyUnitDone core cmd e s) := by
  unfold execCopyUnitDone
  repeat' split
  all_goals exact keeps_next (by simp [h])

theorem keeps_execCopyCommandComplete (core cmd : Nat) : Keeps (execCopyCommandComplete core cmd s) := by
  unfold execCopyCommandComplete
  split
  · exact keeps_next h
  · exact keeps_when h (by simp [h])

theorem keeps_execEngineLineRelease (core cmd line : Nat) : Keeps (execEngineLineRelease core cmd line s) := by
  unfold execEngineLineRelease
  dsimp only
  split
  · split <;> exact keeps_next (by simp [h])
  · split
    · exact keeps_when h (by exact h)
    · exact keeps_next h

theorem keeps_execMatrixCommandStart (core : Nat) : Keeps (execMatrixCommandStart core s) := by
  unfold execMatrixCommandStart
  dsimp only
  repeat' split
  all_goals exact keeps_next (by simp [h])

theorem keeps_execMatrixBandEnd (core : Nat) : Keeps (execMatrixBandEnd core s) := by
  unfold execMatrixBandEnd
  dsimp only
  split
  · exact keeps_next h
  · split
    · split
      · exact keeps_next h
      · split
        · rename_i walks
          exact keeps_next (State.engineWalks_mem _ _ _ _ walks ▸ h)
        · repeat' split
          all_goals exact keeps_next (by simp [h])
    · exact keeps_next h

theorem keeps_execMatrixCommandFinish (core : Nat) : Keeps (execMatrixCommandFinish core s) := by
  unfold execMatrixCommandFinish
  split
  · exact keeps_next h
  · split
    · exact keeps_next (by simp [h])
    · exact keeps_when h (by simp [h])

theorem keeps_execLaunchDispatch (src : LaunchSource) : Keeps (execLaunchDispatch src s) := by
  unfold execLaunchDispatch
  split
  · exact keeps_next h
  · exact keeps_when h (by split <;> simp [h])

theorem keeps_execBlockPlacement (li : Nat) (cores parts : List Nat) : Keeps (execBlockPlacement li cores parts s) := by
  unfold execBlockPlacement
  dsimp only
  split
  · exact keeps_next h
  · split
    · exact keeps_next h
    · split
      · exact keeps_next h
      · rename_i placed
        have same := State.placeBlock_mem _ _ _ _ _ _ placed
        exact keeps_next (by split <;> simpa [same] using h)

theorem keeps_execPlacementHoldExpiry (li : Nat) : Keeps (execPlacementHoldExpiry li s) := by
  unfold execPlacementHoldExpiry
  split
  · exact keeps_next h
  · exact keeps_when h (by simp [h])

theorem keeps_execGangHoldExpiry (li : Nat) : Keeps (execGangHoldExpiry li s) := by
  unfold execGangHoldExpiry
  split
  · exact keeps_next h
  · split
    · exact keeps_next h
    · split
      · exact keeps_next h
      · extract_lets waited mine reported cores ended
        have hr : Formed reported.mem := formed_foldl (fun t b k => by
          split
          · exact formed_report (by exact k) _ _ _ _
          · exact k) _ h
        exact keeps_next (by simpa [ended] using hr)

theorem keeps_execLaunchComplete (li : Nat) : Keeps (execLaunchComplete li s) := by
  unfold execLaunchComplete
  split
  · exact keeps_next h
  · exact keeps_when h (formed_pipesEnd (by exact h))

theorem keeps_execLaunchSignal (li : Nat) : Keeps (execLaunchSignal li s) := by
  unfold execLaunchSignal
  split
  · exact keeps_next h
  · exact keeps_when h (by simp [h])

theorem keeps_execTaskRingRefill (ctx die cluster : Nat) : Keeps (execTaskRingRefill ctx die cluster s) := by
  unfold execTaskRingRefill
  dsimp only
  split
  · exact keeps_next h
  · split
    · exact keeps_next h
    · split
      · exact keeps_next h
      · split
        · exact keeps_next (by exact h)
        · exact keeps_when (by exact h) (by exact h)

theorem keeps_execWaveStart (die cluster core part : Nat) : Keeps (execWaveStart die cluster core part s) := by
  unfold execWaveStart
  dsimp only
  repeat' split
  · exact keeps_next h
  · exact keeps_next h
  · exact keeps_next h
  · exact keeps_next h
  · rename_i placed
    have same := State.placeBlock_mem _ _ _ _ _ _ placed
    exact keeps_next (by simpa [same] using h)

theorem keeps_execTaskBalance (die cluster : Nat) : Keeps (execTaskBalance die cluster s) := by
  unfold execTaskBalance
  extract_lets k waited ds marked own
  have hm : Formed marked.mem := by
    simp only [marked, waited]
    split <;> exact h
  exact keeps_next (formed_foldl (fun _ _ k => by dsimp only; split <;> exact k) _ hm)

theorem keeps_execGraceExpiry (op : Nat) : Keeps (execGraceExpiry op s) := by
  unfold execGraceExpiry
  split
  · exact keeps_next h
  · split
    · exact keeps_next h
    · refine keeps_next (formed_foldl (fun _ _ k => ?_) _ (by simpa using h))
      split
      · split <;> simp [k]
      · exact k

theorem keeps_execDrainBudgetExpiry (op blk : Nat) : Keeps (execDrainBudgetExpiry op blk s) := by
  unfold execDrainBudgetExpiry
  repeat' split
  all_goals exact keeps_next (by simp [h])

theorem keeps_execBarrierStopSave (op blk : Nat) : Keeps (execBarrierStopSave op blk s) := by
  unfold execBarrierStopSave
  dsimp only
  repeat' split
  · exact keeps_next h
  · exact keeps_next h
  all_goals exact keeps_next (formed_saveBlock h _ _ _ _ fun _ => by simp)

theorem keeps_execBlockFlush (op blk : Nat) : Keeps (execBlockFlush op blk s) := by
  unfold execBlockFlush
  split
  · exact keeps_next h
  · split
    · exact keeps_when h (by simp [h])
    · dsimp only
      repeat' split
      all_goals exact keeps_next (by simp [h])
    · exact keeps_next h

theorem keeps_execPreemptSignal (op : Nat) : Keeps (execPreemptSignal op s) := by
  unfold execPreemptSignal
  split
  · exact keeps_next h
  · exact keeps_when h (by simp [h])

theorem keeps_execRestorePlacement (op : Nat) (cores parts : List Nat) : Keeps (execRestorePlacement op cores parts s) := by
  unfold execRestorePlacement
  dsimp only
  split
  · exact keeps_next h
  · split
    · exact keeps_next h
    · split
      · exact keeps_next (by simp [h])
      · split
        · exact keeps_next (by simp [h])
        · split
          · split
            · exact keeps_next (by simp [h])
            · split
              · exact keeps_next h
              · rename_i put
                have same := State.putBack_mem _ _ _ _ _ put
                exact keeps_next (by simp [same, h])
          · split
            · exact keeps_next (by simp [h])
            · split
              · exact keeps_next h
              · split
                · exact keeps_next (by simp [h])
                · split
                  · exact keeps_next h
                  · rename_i put
                    have same := State.putBack_mem _ _ _ _ _ put
                    exact keeps_next (by simp [same, h])

theorem keeps_execSliceExpiry (ctx : Nat) : Keeps (execSliceExpiry ctx s) := by
  unfold execSliceExpiry
  split
  · exact keeps_next h
  · split
    · exact keeps_next h
    · split
      · exact keeps_next h
      · extract_lets waited
        exact keeps_next (by rw [State.raise_mem]; exact formed_issueSlice (by exact h) ..)

theorem keeps_execSliceSecondDescriptor (ctx : Nat) : Keeps (execSliceSecondDescriptor ctx s) := by
  unfold execSliceSecondDescriptor
  split
  · exact keeps_next h
  · split
    · exact keeps_next h
    · exact keeps_when h (formed_issueSlice (by exact h) ..)

theorem keeps_execPostedFault (ctx : Nat) : Keeps (execPostedFault ctx s) := by
  unfold execPostedFault
  dsimp only
  split
  · exact keeps_next h
  · split
    · exact keeps_next h
    · split
      · exact keeps_next (by split <;> simp [h])
      · exact keeps_when h (by simp [h])

theorem keeps_execElementPublish (id pos : Nat) : Keeps (execElementPublish id pos s) := by
  unfold execElementPublish
  repeat' split
  all_goals exact keeps_next (by simp [h])

theorem keeps_execConsumerSpill (id : Nat) : Keeps (execConsumerSpill id s) := by
  unfold execConsumerSpill
  repeat' split
  all_goals exact keeps_next (by simp [h])

theorem keeps_execRingRelease (id : Nat) : Keeps (execRingRelease id s) := by
  unfold execRingRelease
  split
  · exact keeps_next h
  · exact keeps_when h (by simp [h])

theorem keeps_execMigrLanding (warp core part : Nat) : Keeps (execMigrLanding warp core part s) := by
  unfold execMigrLanding
  dsimp only
  repeat' split
  all_goals exact keeps_next (by simp [h])

theorem keeps_execMigrSlotTimeout (warp : Nat) : Keeps (execMigrSlotTimeout warp s) := by
  unfold execMigrSlotTimeout
  split
  · exact keeps_next h
  · exact keeps_when h (by simp [h])

theorem keeps_execCollectiveComplete (group : Nat) : Keeps (execCollectiveComplete group s) := by
  unfold execCollectiveComplete
  repeat' split
  all_goals exact keeps_next (by simp [h])

theorem keeps_execCollectiveMemberTimeout (group rank : Nat) : Keeps (execCollectiveMemberTimeout group rank s) := by
  unfold execCollectiveMemberTimeout
  dsimp only
  repeat' split
  all_goals exact keeps_next (by simp [h])

theorem keeps_execCollectiveMessage (group rank : Nat) (m : GroupMessage) : Keeps (execCollectiveMessage group rank m s) := by
  unfold execCollectiveMessage
  split
  · exact keeps_next h
  · split
    · split <;> exact keeps_next h
    · split
      · exact keeps_next h
      · split
        · exact keeps_next (by simp [h])
        · exact keeps_when h (by simp [h])
        · split
          · exact keeps_next h
          · split
            · exact keeps_next h
            · split
              · exact keeps_next (by simp [h])
              · exact keeps_next (by simp [h])
        · split
          · exact keeps_next h
          · exact keeps_when h (by simp [h])

theorem keeps_execMsixVectorFire (fn vec : Nat) : Keeps (execMsixVectorFire fn vec s) := by
  unfold execMsixVectorFire
  split
  · split
    · exact keeps_next h
    · split
      · exact keeps_next h
      · split
        · exact keeps_next (formed_foldl (fun _ _ k => by simp [k]) _ h)
        · extract_lets now waited
          have hw : Formed waited.mem := by
            simp only [waited]
            split <;> exact h
          split <;> exact keeps_next hw
  · exact keeps_next h

theorem keeps_execMsixVectorUnmask (fn vec : Nat) : Keeps (execMsixVectorUnmask fn vec s) := by
  unfold execMsixVectorUnmask
  repeat' split
  all_goals exact keeps_next (by simp [h])

theorem keeps_execBlockMoveLines (part : Nat) : Keeps (execBlockMoveLines part s) := by
  unfold execBlockMoveLines
  split
  · exact keeps_next h
  · split
    · exact keeps_next h
    · dsimp only
      split
      · exact keeps_next (by simp [h])
      · split
        · refine keeps_next ?_
          rw [State.modPart_mem, State.unclaim_mem]
          exact formed_foldl (fun _ _ k => formed_moveOne k _ _) _ h
        · split <;> exact keeps_next (by simpa using h)

theorem keeps_execMovectlStart (die : Nat) (val : DWord) : Keeps (execMovectlStart die val s) := by
  unfold execMovectlStart
  dsimp only
  repeat' split
  all_goals exact keeps_next (by simp [h])

theorem keeps_execMovectlEnd (die : Nat) : Keeps (execMovectlEnd die s) := by
  unfold execMovectlEnd
  repeat' split
  all_goals exact keeps_next (by simp [h])

theorem keeps_execWarmReset (b : BootResult) : Keeps (execWarmReset b s) := by
  unfold execWarmReset
  repeat' split
  all_goals exact keeps_next (by simp [h])

theorem keeps_execLustrationUnit (die : Nat) : Keeps (execLustrationUnit die s) := by
  unfold execLustrationUnit
  dsimp only
  repeat' split
  all_goals exact keeps_next (by simp [h])

theorem keeps_execHostBindingChange (die : Nat) (hierarchy : Option Nat) : Keeps (execHostBindingChange die hierarchy s) := by
  unfold execHostBindingChange
  dsimp only
  repeat' split
  all_goals exact keeps_next (by simp [h])

theorem keeps_execHostPostedWrite (fn pa : Nat) (data : List Byte) (relaxed : Bool) : Keeps (execHostPostedWrite fn pa data relaxed s) := by
  unfold execHostPostedWrite
  dsimp only
  repeat' split
  all_goals exact keeps_next (by simp [h])

theorem keeps_execInboundWriteAck (write : Nat) : Keeps (execInboundWriteAck write s) := by
  unfold execInboundWriteAck
  dsimp only
  split
  · exact keeps_next h
  · split
    · exact keeps_next h
    · rename_i pa data rest _
      split
      · exact keeps_next h
      · rename_i ps _
        split
        · exact keeps_next h
        · have kept := outerAt_keeps h ps (k := fun t => (t.outerWrite ps data, [])) fun _ k => formed_outerWrite k _ _
          split
          · exact keeps_next h
          · rename_i found
            exact keeps_next (by simpa [found, Outer.Keeps] using kept)
          · rename_i found
            exact keeps_next (by simpa [found, Outer.Keeps] using kept)

theorem keeps_execHostNonpostedRead (fn pa len : Nat) (relaxed : Bool) : Keeps (execHostNonpostedRead fn pa len relaxed s) := by
  unfold execHostNonpostedRead
  split
  · exact keeps_next h
  · exact keeps_outerRes h (outer_keeps h ..) _

theorem keeps_execHostAtomicop (fn pa : Nat) (op : AtomOp) (w : AWidth) (cas : Bool) (data : List Byte) (relaxed : Bool) : Keeps
    (execHostAtomicop fn pa op w cas data relaxed s) := by
  unfold execHostAtomicop
  split
  · exact keeps_next h
  · refine keeps_outerRes h ?_ _
    split
    · exact outerAtomic_keeps h ..
    · trivial

theorem keeps_execCxlMemRequest (part pa : Nat) (a : OuterAccess) : Keeps (execCxlMemRequest part pa a s) := by
  unfold execCxlMemRequest
  split
  · exact keeps_next h
  · refine keeps_outerRes h ?_ _
    split
    · trivial
    · exact outer_keeps h ..

theorem keeps_execHostBackInvalidation (line : Nat) : Keeps (execHostBackInvalidation line s) := by
  unfold execHostBackInvalidation
  repeat' split
  all_goals exact keeps_next (by simp [h])

theorem keeps_execFabricInboundRequest (part station addr : Nat) (a : OuterAccess) : Keeps (execFabricInboundRequest part station addr a s) := by
  unfold execFabricInboundRequest
  dsimp only
  split
  · exact keeps_next h
  · split
    · exact keeps_next h
    · refine keeps_outerRes h ?_ _
      split
      · exact outer_keeps h ..
      · trivial

theorem keeps_execSpdmGetVersion (msg : List Byte) : Keeps (execSpdmGetVersion msg s) :=
  keeps_spdmStep h _ _ _

theorem keeps_execSpdmGetCapabilities (msg : List Byte) : Keeps (execSpdmGetCapabilities msg s) :=
  keeps_spdmStep h _ _ _

theorem keeps_execSpdmNegotiateAlgorithms (msg : List Byte) : Keeps (execSpdmNegotiateAlgorithms msg s) :=
  keeps_spdmStep h _ _ _

theorem keeps_execSpdmGetDigests (msg : List Byte) : Keeps (execSpdmGetDigests msg s) :=
  keeps_spdmStep h _ _ _

theorem keeps_execSpdmGetCertificate (msg : List Byte) : Keeps (execSpdmGetCertificate msg s) :=
  keeps_spdmStep h _ _ _

theorem keeps_execSpdmChallenge (msg : List Byte) : Keeps (execSpdmChallenge msg s) :=
  keeps_spdmStep h _ _ _

theorem keeps_execSpdmGetMeasurements (index : Nat) (msg : List Byte) : Keeps (execSpdmGetMeasurements index msg s) :=
  keeps_spdmStep h _ _ _

theorem keeps_execSpdmKeyExchange (msg : List Byte) : Keeps (execSpdmKeyExchange msg s) :=
  keeps_spdmStep h _ _ _

theorem keeps_execSpdmFinish (msg : List Byte) : Keeps (execSpdmFinish msg s) :=
  keeps_spdmStep h _ _ _

theorem keeps_execPowerSample (milliwatts : Nat) (junctions : List Nat) : Keeps (execPowerSample milliwatts junctions s) := by
  unfold execPowerSample
  dsimp only
  repeat' split
  all_goals exact keeps_next (by simp [h])

theorem keeps_execBlockRetire (blk : Nat) : Keeps (execBlockRetire blk s) := by
  unfold execBlockRetire
  dsimp only
  repeat' split
  all_goals exact keeps_next (by simp [h])

theorem keeps_execMulticastDelivery (cmd b : Nat) : Keeps (execMulticastDelivery cmd b s) := by
  unfold execMulticastDelivery
  dsimp only
  repeat' split
  all_goals exact keeps_next (by simp [h])

theorem exec_keeps_event {i : Instr} (hi : cls i = 7) : Keeps (exec i s) := by
  cases i with
  | sliceQueueService | serviceWarpCycle => exact keeps_next (formed_sliceCycle (fun _ _ k => by simp [k]) h ..)
  | promotionProbe | ringClaim | alarmLockWrite | alarmEraseWrite | alarmLogEvent | alarmLockEvent | alarmEraseEvent | thermalTrip |
    hbmTrainingDone | lpddrTrainingDone | functionLevelResetDone | fabricPortDown | fabricPortUp => exact keeps_next (by simp [h])
  | drainProbe => exact keeps_next (formed_foldl (fun _ _ k => by simp [k]) _ h)
  | blockSave => exact keeps_when h (formed_saveBlock (by simp [h]) _ _ _ _ fun _ => rfl)
  | powerOn | coldReset => exact keeps_next (by rw [State.bootUp_mem]; exact formed_loseMemory (by exact h))
  | functionLevelReset => exact keeps_next (formed_foldl (fun _ _ k => formed_resetCtx k _) _ h)
  | issueSelect => exact keeps_execIssueSelect h ..
  | frontierCheck => exact keeps_execFrontierCheck h ..
  | watchdogExpiry => exact keeps_execWatchdogExpiry h ..
  | shadowCompare => exact keeps_execShadowCompare h ..
  | tableWalk => exact keeps_execTableWalk h ..
  | holdBoundExpiry w reason => exact keeps_execHoldBoundExpiry h w reason
  | bounceTokenReturn => exact keeps_execBounceTokenReturn h ..
  | reissue => exact keeps_execReissue h ..
  | loadReply => exact keeps_execLoadReply h ..
  | writeAck => exact keeps_execWriteAck h ..
  | atomicReply => exact keeps_execAtomicReply h ..
  | promotionAnswer => exact keeps_execPromotionAnswer h ..
  | tier2WritebackAccept => exact keeps_execTier2WritebackAccept h ..
  | peerResponse => exact keeps_execPeerResponse h ..
  | hostPortCompletion => exact keeps_execHostPortCompletion h ..
  | copyCommandStart => exact keeps_execCopyCommandStart h ..
  | copyLineClaim => exact keeps_execCopyLineClaim h ..
  | copyUnitDone => exact keeps_execCopyUnitDone h ..
  | copyCommandComplete => exact keeps_execCopyCommandComplete h ..
  | engineLineRelease => exact keeps_execEngineLineRelease h ..
  | matrixCommandStart => exact keeps_execMatrixCommandStart h ..
  | matrixBandEnd => exact keeps_execMatrixBandEnd h ..
  | matrixCommandFinish => exact keeps_execMatrixCommandFinish h ..
  | launchDispatch => exact keeps_execLaunchDispatch h ..
  | blockPlacement => exact keeps_execBlockPlacement h ..
  | placementHoldExpiry => exact keeps_execPlacementHoldExpiry h ..
  | gangHoldExpiry => exact keeps_execGangHoldExpiry h ..
  | launchComplete => exact keeps_execLaunchComplete h ..
  | launchSignal => exact keeps_execLaunchSignal h ..
  | taskRingRefill => exact keeps_execTaskRingRefill h ..
  | waveStart => exact keeps_execWaveStart h ..
  | taskBalance => exact keeps_execTaskBalance h ..
  | graceExpiry => exact keeps_execGraceExpiry h ..
  | drainBudgetExpiry => exact keeps_execDrainBudgetExpiry h ..
  | barrierStopSave => exact keeps_execBarrierStopSave h ..
  | blockFlush => exact keeps_execBlockFlush h ..
  | preemptSignal => exact keeps_execPreemptSignal h ..
  | restorePlacement => exact keeps_execRestorePlacement h ..
  | sliceExpiry => exact keeps_execSliceExpiry h ..
  | sliceSecondDescriptor => exact keeps_execSliceSecondDescriptor h ..
  | postedFault => exact keeps_execPostedFault h ..
  | elementPublish => exact keeps_execElementPublish h ..
  | consumerSpill => exact keeps_execConsumerSpill h ..
  | ringRelease => exact keeps_execRingRelease h ..
  | migrLanding => exact keeps_execMigrLanding h ..
  | migrSlotTimeout => exact keeps_execMigrSlotTimeout h ..
  | collectiveComplete => exact keeps_execCollectiveComplete h ..
  | collectiveMemberTimeout => exact keeps_execCollectiveMemberTimeout h ..
  | collectiveMessage => exact keeps_execCollectiveMessage h ..
  | msixVectorFire => exact keeps_execMsixVectorFire h ..
  | msixVectorUnmask => exact keeps_execMsixVectorUnmask h ..
  | blockMoveLines => exact keeps_execBlockMoveLines h ..
  | movectlStart => exact keeps_execMovectlStart h ..
  | movectlEnd => exact keeps_execMovectlEnd h ..
  | warmReset => exact keeps_execWarmReset h ..
  | lustrationUnit => exact keeps_execLustrationUnit h ..
  | hostBindingChange => exact keeps_execHostBindingChange h ..
  | hostPostedWrite => exact keeps_execHostPostedWrite h ..
  | inboundWriteAck => exact keeps_execInboundWriteAck h ..
  | hostNonpostedRead => exact keeps_execHostNonpostedRead h ..
  | hostAtomicop => exact keeps_execHostAtomicop h ..
  | cxlMemRequest => exact keeps_execCxlMemRequest h ..
  | hostBackInvalidation => exact keeps_execHostBackInvalidation h ..
  | fabricInboundRequest => exact keeps_execFabricInboundRequest h ..
  | spdmGetVersion => exact keeps_execSpdmGetVersion h ..
  | spdmGetCapabilities => exact keeps_execSpdmGetCapabilities h ..
  | spdmNegotiateAlgorithms => exact keeps_execSpdmNegotiateAlgorithms h ..
  | spdmGetDigests => exact keeps_execSpdmGetDigests h ..
  | spdmGetCertificate => exact keeps_execSpdmGetCertificate h ..
  | spdmChallenge => exact keeps_execSpdmChallenge h ..
  | spdmGetMeasurements => exact keeps_execSpdmGetMeasurements h ..
  | spdmKeyExchange => exact keeps_execSpdmKeyExchange h ..
  | spdmFinish => exact keeps_execSpdmFinish h ..
  | powerSample => exact keeps_execPowerSample h ..
  | blockRetire => exact keeps_execBlockRetire h ..
  | multicastDelivery => exact keeps_execMulticastDelivery h ..
  | _ => cases hi

omit h in

theorem cls_le (i : Instr) : cls i ≤ 7 := by
  cases i <;> exact Nat.le_of_ble_eq_true rfl

theorem exec_keeps (i : Instr) : Keeps (exec i s) := by
  have bound := cls_le i
  match hi : cls i with
  | 0 => exact exec_keeps_plain h hi
  | 1 => exact exec_keeps_memory h hi
  | 2 => exact exec_keeps_sync h hi
  | 3 => exact exec_keeps_engine h hi
  | 4 => exact exec_keeps_control h hi
  | 5 => exact exec_keeps_system h hi
  | 6 => exact exec_keeps_ring h hi
  | 7 => exact exec_keeps_event h hi
  | n + 8 => omega

end
end Sys2Proof.Machine
end

section
/-! SUPPORT. The form of memory through a step of the machine. -/

namespace Sys2Proof.Machine
open Sys2Proof.Safety Sys2Proof.Forms

section
variable {s : State} (h : Formed s.mem)
include h

theorem keeps_runAgenda (i : Instr) (rest : List Instr) : Keeps (s.runAgenda i rest) := by
  have taken : Formed { s with agenda := rest }.mem := h
  unfold State.runAgenda
  split
  · exact keeps_next taken
  · exact exec_keeps taken i

theorem keeps_runWord (w : Nat) : Keeps (s.runWord w) := by
  unfold State.runWord
  split
  · exact keeps_execFrontierCheck h w
  · split
    · rename_i found
      have ht := State.prepare_run_mem found ▸ h
      exact keeps_judged ht (exec_keeps ht _)
    · rename_i found
      exact keeps_next (State.prepare_done_mem found ▸ h)

theorem keeps_runOwn : Keeps s.runOwn := by
  unfold State.runOwn
  split
  · rename_i found
    obtain ⟨i, -, ran, -⟩ := firstChange_some found
    exact keeps_next ((exec_keeps h i).of_next _ ran)
  · exact keeps_next (State.advance_mem s 1 ▸ h)

theorem keeps_step : Keeps (step s) := by
  unfold step
  split
  · exact keeps_runAgenda h ..
  · split
    · exact keeps_runWord h _
    · exact keeps_runOwn h

end
end Sys2Proof.Machine

open Sys2Proof Sys2Proof.Machine Sys2Proof.Safety Sys2Proof.Claims

/-- Settles O59: whatever runs, memory is written through `Memory.writeN` and the marks of lines alone, which keep its form. -/
theorem stepKeepsMemoryForm : Obligations.StepKeepsMemoryForm :=
  fun _ t formed ran => (keeps_step formed).of_next t ran
end

section
/-! SUPPORT. The retention words (R83, R94): with their checks passed they change the retention registers of their die, and end. -/

namespace Sys2Proof.Safety
open Sys2Proof.Machine Sys2Proof.Forms Sys2Proof.Claims

/-- With no trap due to its warp and its block running, the end of a word changes what is at issue, and warps, alone. -/
theorem wordDone_of_runs {s : State} {x : Iss} (unif : Bool) (runs : Runs s x.w) :
    ∃ is ws, s.wordDone x unif = { s with cur := none, issued := is, warps := ws } := by
  obtain ⟨wp, hw, -, -⟩ := id runs
  obtain ⟨f, same, ends | ⟨cl, cl', -, -, ends⟩⟩ := wordDone_cases unif hw
  · exact ⟨_, _, ends⟩
  · have still : Runs ((spent s x unif).modWarp x.w f) x.w := runs_modWarp (fun y => (same y).2.1) (fun y => (same y).2.2) runs
    exact ⟨_, _, ends.trans (boundary_of_runs cl' still)⟩

/-- A word that changes one die and ends leaves memory, lines and the other dies, and its warp's registers. -/
theorem modDie_wordDone {s : State} {i : Instr} {x : Iss} (h : s.iss i = some x) (calm : Calm s x) {d : Nat} {v : Die} (hv : s.dies[d]? = some v)
    {f : Die → Die} {u : Die} (hu : f v = u) {t : State} (ht : t = (s.modDie d f).wordDone x true) :
    t.mem = s.mem ∧ t.lines = s.lines ∧ Gets s t x.w [] 0 ∧ t.dies[d]? = some u ∧ ∀ e, e ≠ d → t.dies[e]? = s.dies[e]? := by
  obtain ⟨wp, ds, hw, -⟩ := iss_spec h
  have runs : Runs (s.modDie d f) x.w := runs_of_calm calm h
  have gets : Gets (s.modDie d f) t x.w [] 0 := ht ▸ (keepsAll_wordDone ..).gets (x := wp) hw
  obtain ⟨is, ws, ends⟩ := wordDone_of_runs true runs
  have same := ht.trans ends
  have dies : t.dies = s.dies.modify d f := congrArg State.dies same
  refine ⟨same ▸ rfl, same ▸ rfl, gets, ?_, fun e he => ?_⟩
  · simp [dies, hv, hu]
  · simp [dies, he.symm]

/-- `cunkeep` of the context's own valid register. -/
theorem execCunkeep_of_owner {s : State} {x : Iss} {k : Reg} {y : Tail} (h : s.iss (.cunkeep k y) = some x) (some_ : x.part ≠ 0) {v : Die}
    (hv : s.dies[x.wp.die]? = some v) {u : Keep} (hu : v.keeps[x.rd1 0 k]? = some u) (valid : u.valid = true) (owner : u.owner = s.ctxOf x.wp) :
    exec (.cunkeep k y) s =
      .next ((s.modDie x.wp.die fun d => { d with keeps := d.keeps.modify (x.rd1 0 k) fun z => { z with valid := false } }).wordDone x true) := by
  refine (atIssue_some h _).trans (congrArg _ ?_)
  dsimp only
  rw [if_neg some_]
  simp [hv, hu, valid, owner]

theorem foldl_add_eq_sum {α : Type} (p : α → Bool) (f : α → Nat) (l : List α) (n : Nat) :
    l.foldl (fun a e => if p e then a + f e else a) n = n + ((l.filter p).map f).sum := by
  induction l generalizing n with
  | nil => simp
  | cons e l ih =>
    rw [List.foldl_cons, ih, List.filter_cons]
    split <;> simp [Nat.add_assoc]

/-- The Ways of the registers that a test picks, as `ckeep` counts them and as a sum (R83). -/
theorem ways_eq_sum (ks : List Keep) (p : Nat → Keep → Bool) :
    (ks.mapIdx fun j y => (j, y)).foldl (fun a e => if p e.1 e.2 then a + e.2.ways else a) 0 =
      ((ks.zipIdx.filter fun e => p e.2 e.1).map fun e => e.1.ways).sum := by
  refine (foldl_add_eq_sum (fun e : Nat × Keep => p e.1 e.2) (fun e => e.2.ways) _ 0).trans ?_
  rw [List.mapIdx_eq_zipIdx_map, Nat.zero_add, List.filter_map, List.map_map]
  rfl

/-- The addresses of `ckeep` pass its checks: they name places of one page, in order, and the page is not of tier 3 (R94). -/
structure OnePage (s : State) (x : Iss) (first last : Nat) (f g : Place) : Prop where
  base : s.xlate x.w x.wp wantLoad 1 1 first = .ok f
  limit : s.xlate x.w x.wp wantLoad 1 1 last = .ok g
  tier : f.tier < 3
  ordered : first ≤ last
  page : s.pageOf x first = s.pageOf x last

/-- The register n of a die and the Ways w of `ckeep` pass its checks, with no other valid register of the context (R83, R94). -/
structure WaysFit (s : State) (x : Iss) (v : Die) (c : Context) (n w : Nat) : Prop where
  register : n < 16 ∧ c.keepallot.toNat.testBit n = true
  range : 1 ≤ w ∧ w ≤ 8
  alone : ∀ j u, v.keeps[j]? = some u → j ≠ n → u.valid = true → u.owner ≠ s.ctxOf x.wp
  budget : w ≤ c.keepallot.toNat / 2 ^ (16 + 4 * x.wp.die) % 16
  total : w + ((v.keeps.zipIdx.filter fun e => e.1.valid && e.2 != n).map fun e => e.1.ways).sum ≤ 8

/-- Registers of the context other than the one written have no Ways. -/
theorem WaysFit.others {s : State} {x : Iss} {v : Die} {c : Context} {n w : Nat} (fit : WaysFit s x v c n w) :
    ((v.keeps.zipIdx.filter fun e => e.1.valid && e.1.owner == s.ctxOf x.wp && e.2 != n).map fun e => e.1.ways).sum = 0 := by
  have none_ : v.keeps.zipIdx.filter (fun e => e.1.valid && e.1.owner == s.ctxOf x.wp && e.2 != n) = [] :=
    List.filter_eq_nil_iff.mpr fun e he own => by
      simp only [Bool.and_eq_true, beq_iff_eq, bne_iff_ne, ne_eq] at own
      obtain ⟨⟨valid, owner⟩, other⟩ := own
      exact fit.alone e.2 e.1 (List.mem_zipIdx_iff_getElem?.mp he) other valid owner
  rw [none_]
  rfl

/-- `ckeep` whose checks pass. -/
theorem execCkeep_of_checks {s : State} {x : Iss} {k b l ways : Reg} {y : Tail} (h : s.iss (.ckeep k b l ways y) = some x) (some_ : x.part ≠ 0)
    {f g : Place} {v : Die} {c : Context} (hv : s.dies[x.wp.die]? = some v) (hc : s.ctx? (s.ctxOf x.wp) = some c)
    (one : OnePage s x (x.rd (lowLane x.part) b 2) (x.rd (lowLane x.part) l 2) f g)
    (fit : WaysFit s x v c (x.rd1 (lowLane x.part) k) (x.rd1 (lowLane x.part) ways)) :
    exec (.ckeep k b l ways y) s = .next ((s.modDie x.wp.die fun d =>
      { d with keeps := d.keeps.set (x.rd1 (lowLane x.part) k) ⟨f.pa / 4096, g.pa / 4096, true, 0, s.ctxOf x.wp, x.rd1 (lowLane x.part) ways⟩
      }).wordDone x true) := by
  obtain ⟨n16, allotted⟩ := fit.register
  obtain ⟨w1, w8⟩ := fit.range
  have budget := fit.budget
  have total := fit.total
  refine (atIssue_some h _).trans (congrArg _ ?_)
  dsimp only
  rw [if_neg some_]
  simp only [State.tryLanes, List.map_cons, List.map_nil, one.base, one.limit, List.singleton_append]
  simp only [missing, globals, failing, List.filterMap_cons, List.filterMap_nil, List.filter_cons, List.filter_nil, List.isEmpty_nil,
    Bool.not_true, Bool.false_eq_true, if_false, List.flatMap_nil, hv, hc, Option.map_some, Option.getD_some]
  rw [ways_eq_sum v.keeps fun j e => e.valid && j != _, ways_eq_sum v.keeps fun j e => e.valid && e.owner == _ && j != _, fit.others]
  rw [if_neg, if_neg, if_neg]
  · simp [fld]
    omega
  · simp [one.page, one.tier, one.ordered]
  · simp [n16, allotted]

/-- The number of a scalar register is the same in every lane (R29). -/
theorem rd1_of_isS {k : Reg} (h : Reg.isS k = true) (x : Iss) (l m : Nat) : x.rd1 l k = x.rd1 m k := by
  cases k with
  | s i => rfl
  | v i => cases h

end Sys2Proof.Safety

open Sys2Proof Sys2Proof.Machine Sys2Proof.Safety Sys2Proof.Claims

/-- Settles O22: with its checks passed each word changes the retention registers of its die alone, and ends. -/
theorem retentionWords : Obligations.RetentionWords := by
  intro s x k b l ways y f g v c lane n w die some_ calm hv hc hn
  refine ⟨fun issues hf hg tier ordered page hn16 allotted hw1 hw8 others budget total => ?_, fun issues scalar u hu valid owner => ?_⟩
  · exact ⟨_, execCkeep_of_checks issues some_ hv hc ⟨hf, hg, tier, ordered, page⟩
        ⟨⟨hn16, allotted⟩, ⟨hw1, hw8⟩, others, budget, total⟩,
      modDie_wordDone issues calm hv rfl rfl⟩
  · have same : x.rd1 0 k = n := rd1_of_isS scalar x 0 lane
    have cleared : v.keeps.modify (x.rd1 0 k) (fun z => { z with valid := false }) = v.keeps.set n { u with valid := false } := by
      rw [same, List.modify_eq_set_getElem?, hu]
      rfl
    exact ⟨_, execCunkeep_of_owner issues some_ hv (same ▸ hu) valid owner, modDie_wordDone issues calm hv (by rw [cleared]) rfl⟩
end

section
/-! SUPPORT. Memory words whose lanes all fail the checks on their addresses (R71, R88): the lanes are in the handler, and nothing is accessed. -/

namespace Sys2Proof.Safety
open Sys2Proof.Machine Sys2Proof.Forms Sys2Proof.Claims

variable {s : State} {x : Iss}

/-! ### Traps of lanes outside the handler (R326) -/

theorem partDone_reqs (s : State) (w g : Nat) (c : Option Nat) : (s.partDone w g c).reqs = s.reqs := by
  unfold State.partDone
  split <;> rfl

theorem State.foldl_reqs {α : Type} (g : State → α → State) (h : ∀ s a, (g s a).reqs = s.reqs) (l : List α) (s : State) :
    (l.foldl g s).reqs = s.reqs := by
  induction l generalizing s with
  | nil => rfl
  | cons a l ih => exact (ih (g s a)).trans (h s a)

theorem bwaitsEnd_reqs (s : State) (w : Nat) (old : Warp) : (s.bwaitsEnd w old).reqs = s.reqs := by
  unfold State.bwaitsEnd
  split
  · rfl
  · exact State.foldl_reqs (fun s (e : Nat × Option Nat) => s.partDone w e.1 e.2) (fun _ _ => partDone_reqs ..) _ s

/-- A trap that no lane takes inside its handler ends no block, and drops no request. -/
theorem trapHere_reqs {m : Mask} {c : Nat → Cause} {wp : Warp} (hw : s.warps[x.w]? = some wp) (can : CanTrap s x m)
    (same : s.handlerOf x.wp = s.handlerOf wp) : (s.trapHere x m c).reqs = s.reqs := by
  obtain ⟨handler, outside⟩ := can
  have noneInside : (lanesIn m).filter (fun l => ((wp.lane? l).map (·.handler)).getD false) = [] := by
    refine List.filter_eq_nil_iff.mpr fun l hl => ?_
    cases hy : wp.lane? l with
    | none => simp
    | some y => simp [outside l y (mem_lanesIn.mp hl) (by rw [laneOf, hw]; exact hy)]
  unfold State.trapHere State.trap
  simp only [hw, noneInside]
  split
  · rfl
  · rw [if_neg (by simpa [← same] using handler)]
    exact bwaitsEnd_reqs ..

/-- The lanes of a trap at the word at issue, as `takeTrap` makes them. -/
theorem sameStand_trapHere {m : Mask} {c : Nat → Cause} {wp : Warp} (hw : s.warps[x.w]? = some wp) (can : CanTrap s x m) (some_ : m ≠ 0)
    (same : s.handlerOf x.wp = s.handlerOf wp) :
    SameStand (s.modWarp x.w (takeTrap (s.handlerOf wp) m c (fun _ => x.addr) fun _ => some x.cl.addr)) (s.trapHere x m c) x.w :=
  sameStand_trap c _ _ hw some_ (same ▸ can.1) fun l y hl hy => can.2 l y hl (by rw [laneOf, hw]; exact hy)

theorem runs_trapHere {i : Instr} (h : s.iss i = some x) (calm : Calm s x) {m : Mask} (can : CanTrap s x m) (some_ : m ≠ 0) (c : Nat → Cause) :
    Runs (s.trapHere x m c) x.w := by
  obtain ⟨wp, ds, hw, -, -, hx⟩ := iss_spec h
  have same : s.handlerOf x.wp = s.handlerOf wp := by rw [hx]; rfl
  exact (sameStand_trapHere hw can some_ same).runs (runs_modWarp (fun _ => rfl) (fun _ => rfl) (runs_of_calm calm h))

/-- The lanes of a trap stay in the handler while the word that took it ends. -/
theorem allTrap_wordDone {i : Instr} (h : s.iss i = some x) (calm : Calm s x) {m : Mask} (can : CanTrap s x m) (some_ : m ≠ 0) {c : Nat → Cause}
    (hc : ∀ l, m.getLsbD l = true → (c l).code < 2 ^ 11 ∧ (c l).grp < 32) {t : State} (stands : SameStand (s.trapHere x m c) t x.w)
    (keeps : KeepsAll (s.trapHere x m c) t) (unif : Bool) : AllTrap s (t.wordDone x unif) x m c := by
  obtain ⟨wp, ds, hw, -, -, hx⟩ := iss_spec h
  have same : s.handlerOf x.wp = s.handlerOf wp := by rw [hx]; rfl
  have taken := (sameStand_trapHere (c := c) hw can some_ same).trans stands
  have runs : Runs t x.w := stands.runs (runs_trapHere h calm can some_ c)
  have all : KeepsAll s (t.wordDone x unif) := (keepsAll_trapHere ..).trans (keeps.trans (keepsAll_wordDone ..))
  refine ⟨fun l y hl hy => ?_, all.gets hw, all.keepsOthers _⟩
  have left : Left t x.w l := taken.left (left_modWarp fun z d hd => leaveClause_set (y := z) hd hl)
  have lane : (wp.leaveClause m).lanes[l]? = some y := by
    rw [laneOf, hw] at hy
    exact hy
  obtain ⟨code, grp⟩ := hc l hl
  refine ⟨y.trap (s.handlerOf wp) (lanesIn m).length x.addr (some x.cl.addr) (c l), ?_, ?_⟩
  · rw [laneOf_wordDone unif runs left, taken.laneOf, laneOf_modWarp, hw, Option.bind_some, takeTrap, mapLanes_lanes_get, lane]
    simp [hl]
  · rw [same]
    exact taken_trap y ((length_lanesIn_le m).trans_lt (by decide)) code grp

theorem allTrap_partDone {t : State} {m : Mask} {c : Nat → Cause} (h : AllTrap s t x m c) (g : Nat) (k : Option Nat) :
    AllTrap s (t.partDone x.w g k) x m c := by
  obtain ⟨lanes, gets, others⟩ := h
  have keeps := keepsAll_partDone t x.w g k
  refine ⟨fun l y hl hy => ?_, gets.trans (keeps.2 _), others.trans (keeps.keepsOthers _)⟩
  rw [(sameStand_partDone t x.w x.w g k).laneOf]
  exact lanes l y hl hy

theorem allTrap_congr {t : State} {m : Mask} {c d : Nat → Cause} (h : AllTrap s t x m c) (same : ∀ l, m.getLsbD l = true → c l = d l) :
    AllTrap s t x m d := by
  obtain ⟨lanes, gets, others⟩ := h
  exact ⟨fun l y hl hy => same l hl ▸ lanes l y hl hy, gets, others⟩

/-! ### A memory word all of whose lanes fail (R71, R88) -/

/-- The failures of a word whose participating lanes all fail alike, each at its address. -/
def allBad (x : Iss) (code : Nat) (va : Nat → Nat) : List Bad := (lanesIn x.part).map fun l => ⟨l, va l, 3, code, 7, 0⟩

theorem Warp.rd_of_isS {r : Reg} (h : Reg.isS r = true) (w : Warp) (l m n : Nat) : w.rd l r n = w.rd m r n := by
  cases r with
  | v i => cases h
  | s i =>
    induction n with
    | zero => rfl
    | succ n ih => rw [Warp.rd, Warp.rd, ih]; rfl

theorem va_of_isS {r : Reg} (h : Reg.isS r = true) (x : Iss) (l m : Nat) (off : BitVec 12) (size : Nat)
    : x.va l r off size = x.va m r off size := by
  unfold Iss.va Iss.rd
  rw [Warp.rd_of_isS h]

theorem acts_subset {i : Instr} {l : Nat} (h : l ∈ x.acts i) : l ∈ lanesIn x.part := by
  unfold Iss.acts at h
  split at h
  · exact List.mem_of_mem_take h
  · exact h

theorem failing_tryLanes {i : Instr} {want : Want} {align n code : Nat} {va : Nat → Nat} (unif : uniform x.w64 i = true → ∀ l m, va l = va m)
    (bad : ∀ l ∈ lanesIn x.part, s.xlate x.w x.wp want align n (va l) = .bad 3 code 7 0) :
    failing x (uniform x.w64 i) (s.tryLanes x (x.acts i) want align n va) = allBad x code va := by
  unfold Iss.acts
  split
  next u =>
    rw [u]
    cases hl : lanesIn x.part with
    | nil => simp [failing, State.tryLanes, allBad, hl]
    | cons k ks =>
      have hk := bad k (by simp [hl])
      have same (l : Nat) : va l = va k := unif u l k
      simp [failing, State.tryLanes, allBad, hl, hk, same]
  next u =>
    rw [eq_false_of_ne_true u]
    rw [failing, State.tryLanes, List.flatMap_map, allBad, List.map_eq_flatMap]
    exact List.flatMap_congr fun l hl => by simp [bad l hl]

theorem causeOf_allBad {code kind l : Nat} (va : Nat → Nat) (hl : l ∈ lanesIn x.part) :
    causeOf kind (allBad x code va) l = memCause 3 code 7 kind (va l) 0 := by
  have found : (allBad x code va).find? (fun b => b.lane == l) = some ⟨l, va l, 3, code, 7, 0⟩ := by
    have some_ : ((lanesIn x.part).find? fun k => k == l).isSome = true := List.find?_isSome.mpr ⟨l, hl, beq_self_eq_true l⟩
    obtain ⟨k, hk⟩ := Option.isSome_iff_exists.mp some_
    obtain rfl : k = l := eq_of_beq (List.find?_some (p := fun k => k == l) hk)
    rw [allBad, List.find?_map, Option.map_eq_some_iff]
    exact ⟨k, hk, rfl⟩
  rw [causeOf, found]
  rfl

theorem maskOf_lanesIn (m : Mask) : maskOf (lanesIn m) = m := by
  refine BitVec.eq_of_getLsbD_eq fun l hl => ?_
  rw [getLsbD_maskOf, Bool.eq_iff_iff]
  simp [mem_lanesIn, hl]

/-- Failures that are all program traps take their lanes to the handler (R71). -/
theorem memTraps_allBad (s : State) {code : Nat} (va : Nat → Nat) (kind : Nat) (program : isPosted 3 code = false) :
    ∃ c : Nat → Cause, (∀ l, x.part.getLsbD l = true → c l = memCause 3 code 7 kind (va l) 0) ∧
      s.memTraps x.w kind x.addr (some x.cl.addr) (allBad x code va) =
        { s with wfaults := s.wfaults.filter fun f => f.warp != some x.w }.trapHere x x.part c := by
  have prog : (allBad x code va).filter (fun b => !(isPosted b.grp b.code && s.hasQueue x.w)) = allBad x code va :=
    List.filter_eq_self.mpr fun b hb => by
      obtain ⟨l, -, rfl⟩ := List.mem_map.mp hb
      simp [program]
  have post : (allBad x code va).filter (fun b => isPosted b.grp b.code && s.hasQueue x.w) = [] :=
    List.filter_eq_nil_iff.mpr fun b hb => by
      obtain ⟨l, -, rfl⟩ := List.mem_map.mp hb
      simp [program]
  have lanes : maskOf ((allBad x code va).map (·.lane)) = x.part := by
    rw [allBad, List.map_map]
    exact (congrArg maskOf (List.map_id _)).trans (maskOf_lanesIn _)
  refine ⟨causeOf kind (allBad x code va), fun l hl => causeOf_allBad va (mem_lanesIn.mpr hl), ?_⟩
  unfold State.memTraps State.memTrapsAnd State.trapHere
  simp only [prog, post, lanes]
  simp

theorem tried_allBad {ts : List Tried} (bad : ∀ t ∈ ts, ∃ g c v e, t.2.2 = .bad g c v e)
    : missing ts = [] ∧ locals ts = [] ∧ globals ts = [] := by
  refine ⟨List.filterMap_eq_nil_iff.mpr ?_, List.filterMap_eq_nil_iff.mpr ?_, List.filterMap_eq_nil_iff.mpr ?_⟩ <;>
  · intro t ht
    obtain ⟨g, c, v, e, h⟩ := bad t ht
    simp [h]

/-- A word that has no request to enter and nothing to do in the window counts, and ends (R61). -/
theorem enterReqs_nil (s : State) (x : Iss) (unif : Bool) (ctr : Option (Fin 8)) (inside : List Nat) {local_ : Nat → State → State}
    (none_ : ∀ g t, local_ g t = t) (regs : Nat → Req → List Pend) :
    ∃ t g, SameStand s t x.w ∧ KeepsAll s t ∧ t.reqs = s.reqs ∧
      s.enterReqs x unif ctr inside local_ [] regs = (t.wordDone x unif).partDone x.w g (ctrNat ctr) := by
  unfold State.enterReqs
  by_cases first : x.cl.entered = 0
  · refine ⟨{ s with nextId := s.nextId + 1 }.modWarp x.w fun w => w.ctrAdd (ctrNat ctr), s.nextId, ?_, ?_, rfl, ?_⟩
    · exact sameStand_modWarp _ _ _ _ fun y => by cases ctr <;> rfl
    · exact keepsAll_modWarp { s with nextId := s.nextId + 1 } _ _ fun y => by cases ctr <;> rfl
    · simp [first, none_]
  · exact ⟨s, x.cl.grp, .refl s _, .refl s, rfl, by simp only [if_neg first]; simp⟩

/-- A memory word whose participating lanes all fail with a program trap: they are in the handler when it ends, and nothing is asked of memory. -/
theorem accessing_allBad {i : Instr} (h : s.iss i = some x) (calm : Calm s x) (can : CanTrap s x x.part) (some_ : x.part ≠ 0) {want : Want}
    {align n code : Nat} {va : Nat → Nat} (unif : uniform x.w64 i = true → ∀ l m, va l = va m)
    (bad : ∀ l ∈ lanesIn x.part, s.xlate x.w x.wp want align n (va l) = .bad 3 code 7 0) (program : isPosted 3 code = false) (small : code < 2 ^ 11)
    (kind : Nat) {held : Bool} (free : held = false) {k : State → State} {ctr : Option (Fin 8)}
    (hk : ∀ t, ∃ inside local_ regs, (∀ g u, local_ g u = u) ∧ k t = t.enterReqs x (uniform x.w64 i) ctr inside local_ [] regs) :
    let u := s.accessing x (uniform x.w64 i) kind (s.tryLanes x (x.acts i) want align n va) held k
    AllTrap s u x x.part (fun l => memCause 3 code 7 kind (va l) 0) ∧ u.reqs = s.reqs := by
  intro u
  have allFail : ∀ t ∈ s.tryLanes x (x.acts i) want align n va, ∃ g c v e, t.2.2 = .bad g c v e := fun t ht => by
    obtain ⟨l, hl, rfl⟩ := List.mem_map.mp ht
    exact ⟨_, _, _, _, bad l (acts_subset hl)⟩
  obtain ⟨noMiss, noLocal, noGlobal⟩ := tried_allBad allFail
  obtain ⟨c, hc, traps⟩ := memTraps_allBad s va kind program
  set s' : State := { s with wfaults := s.wfaults.filter fun f => f.warp != some x.w }
  obtain ⟨inside, local_, regs, none_, goes⟩ := hk (s'.trapHere x x.part c)
  obtain ⟨t, g, stands, keeps, reqs, ends⟩ := enterReqs_nil (s'.trapHere x x.part c) x (uniform x.w64 i) ctr inside none_ regs
  have hu : u = (t.wordDone x (uniform x.w64 i)).partDone x.w g (ctrNat ctr) := by
    simp only [u, State.accessing, noMiss, noGlobal, free, failing_tryLanes unif bad, List.foldl_nil, traps, goes, ends]
    rfl
  have bounds (l : Nat) (hl : x.part.getLsbD l = true) : (c l).code < 2 ^ 11 ∧ (c l).grp < 32 := by
    rw [hc l hl]
    exact ⟨small, show 3 < 32 by decide⟩
  have all : AllTrap s' (t.wordDone x (uniform x.w64 i)) x x.part c := allTrap_wordDone (s := s') h calm can some_ bounds stands keeps _
  have runs : Runs t x.w := stands.runs (runs_trapHere (s := s') h calm can some_ c)
  obtain ⟨wp, ds, hw, -, -, hx⟩ := iss_spec h
  obtain ⟨is, ws, done⟩ := wordDone_of_runs (uniform x.w64 i) runs
  have trapped : (s'.trapHere x x.part c).reqs = s.reqs := trapHere_reqs (s := s') hw can (by rw [hx]; rfl)
  refine ⟨hu ▸ allTrap_congr (allTrap_partDone (s := s') all ..) hc, ?_⟩
  rw [hu, partDone_reqs, done]
  exact reqs.trans trapped

theorem xlate_of_preCheck {wi n align va : Nat} {wp : Warp} {w : Want} {b : Block} {r : Tr} (hb : s.blkOf wp = some b)
    (checked : s.preCheck b w align n va = some r) : s.xlate wi wp w align n va = r := by
  unfold State.xlate
  simp only [hb, checked]

theorem preCheck_high {b : Block} {w : Want} {align n va : Nat} (high : 2 ^ 57 ≤ va) : s.preCheck b w align n va = some (.bad 3 9 7 0) := by
  rw [State.preCheck, if_pos high]

theorem preCheck_misaligned {b : Block} {w : Want} {align n va : Nat} (low : va < 2 ^ 57) (outside : inWindow va = false) (odd : va % align ≠ 0)
    :
    s.preCheck b w align n va = some (.bad 3 12 7 0) := by
  rw [State.preCheck, if_neg (Nat.not_le.mpr low), outside]
  simp [odd]

theorem uniform_ld_addr {w64 : Bool} {t : MTy} {d a : Reg} {off : BitVec 12} {sc : Scope} {o : Order} {h : Hint} {y : CTail}
    (u : uniform w64 (.ld t d a off sc o h y) = true) : Reg.isS a = true := by
  have all : ([dout d (mtyRegs t), din a 2] : List Use).all (fun u => Reg.isS u.reg) = true := u
  exact List.all_eq_true.mp all (din a 2) (List.mem_cons_of_mem _ (List.mem_singleton_self _))

theorem uniform_st_addr {w64 : Bool} {t : MTy} {d a : Reg} {off : BitVec 12} {sc : Scope} {o : Order} {h : Hint} {y : CTail}
    (u : uniform w64 (.st t d a off sc o h y) = true) : Reg.isS a = true := by
  have all : ([din d (mtyRegs t), din a 2] : List Use).all (fun u => Reg.isS u.reg) = true := u
  exact List.all_eq_true.mp all (din a 2) (List.mem_cons_of_mem _ (List.mem_singleton_self _))

/-- A load or a store whose lanes fail with one program trap each. -/
theorem next_allBad {i : Instr} {t : MTy} {d a : Reg} {off : BitVec 12} {sc : Scope} {o : Order} {hint : Hint} {y : CTail} (h : s.iss i = some x)
    (calm : Calm s x) (can : CanTrap s x x.part) (some_ : x.part ≠ 0) {code : Nat} (program : isPosted 3 code = false) (small : code < 2 ^ 11)
    (bad : ∀ w, ∀ l ∈ lanesIn x.part, s.xlate x.w x.wp w (mtySize t) (mtySize t) (x.va l a off (mtySize t)) = .bad 3 code 7 0) {kind : Nat}
    (hi : i = .ld t d a off sc o hint y ∧ kind = 0 ∨ i = .st t d a off sc o hint y ∧ kind = 1) :
    Next (exec i s) fun u =>
      AllTrap s u x x.part (fun l => memCause 3 code 7 kind (x.va l a off (mtySize t)) 0) ∧ u.reqs = s.reqs := by
  have allFail (w : Want) : ∀ t' ∈ s.tryLanes x (x.acts i) w (mtySize t) (mtySize t) (fun l => x.va l a off (mtySize t)),
      ∃ g c v e, t'.2.2 = .bad g c v e := fun t' ht => by
    obtain ⟨l, hl, rfl⟩ := List.mem_map.mp ht
    exact ⟨_, _, _, _, bad w l (acts_subset hl)⟩
  obtain ⟨rfl, rfl⟩ | ⟨rfl, rfl⟩ := hi
  · obtain ⟨-, noLocal, noGlobal⟩ := tried_allBad (allFail wantLoad)
    refine ⟨_, atIssue_some h _, accessing_allBad h calm can some_ (fun u l m => va_of_isS (uniform_ld_addr u) x l m off _)
      (bad wantLoad) program small 0 (ctr := y.ctr) ?_ fun u => ?_⟩
    · simp [noLocal, noGlobal, segments, State.noEntry]
    · simp only [noLocal, noGlobal, segments]
      refine ⟨_, _, _, ?_, rfl⟩
      intros
      simp
  · obtain ⟨-, noLocal, noGlobal⟩ := tried_allBad (allFail wantStore)
    refine ⟨_, atIssue_some h _, accessing_allBad h calm can some_ (fun u l m => va_of_isS (uniform_st_addr u) x l m off _)
      (bad wantStore) program small 1 (ctr := y.ctr) ?_ fun u => ?_⟩
    · simp [noLocal, noGlobal, segments, State.noEntry]
    · simp only [noLocal, noGlobal, segments]
      refine ⟨_, _, _, ?_, rfl⟩
      intros
      simp

end Sys2Proof.Safety

open Sys2Proof Sys2Proof.Machine Sys2Proof.Safety Sys2Proof.Claims

/-- Settles O21: every lane fails the checks on its address alone, so none has a request. -/
theorem addressTraps : Obligations.AddressTraps := by
  intro s x i t d a off sc o h y issues calm can some_ va traps
  obtain ⟨-, b, hb, -⟩ := id calm
  have both (kind : Nat) (hi : i = .ld t d a off sc o h y ∧ kind = 0 ∨ i = .st t d a off sc o h y ∧ kind = 1) : traps kind := by
    refine ⟨fun bad => ?_, fun bad => ?_⟩
    · exact next_allBad issues calm can some_ rfl (by decide) (fun w l hl => xlate_of_preCheck hb (preCheck_high (bad l hl))) hi
    · refine next_allBad issues calm can some_ rfl (by decide) (fun w l hl => ?_) hi
      obtain ⟨low, outside, odd⟩ := bad l hl
      exact xlate_of_preCheck hb (preCheck_misaligned low outside odd)
  exact ⟨fun hi => both 0 (.inl ⟨hi, rfl⟩), fun hi => both 1 (.inr ⟨hi, rfl⟩)⟩
end

section
/-! SUPPORT. Accesses of one lane in the local window (R78, R79, R88): the block's scratchpad, and the word that acts on it. -/

namespace Sys2Proof.Safety
open Sys2Proof.Machine Sys2Proof.Forms Sys2Proof.Claims

/-! ### The scratchpad (R78) -/

/-- What a byte of the window that is not written reads as. -/
def unwritten (b : Block) (off : Nat) : Byte :=
  match b.fresh.getD (off / 2 ^ 22) none with
  | none => 0
  | some n => Config.freeByte (n + off)

theorem getByte_eq_mget (b : Block) (off : Nat) : b.getByte off = mget b.spad off (unwritten b off) := by
  unfold Block.getByte mget
  cases b.spad.lookup off <;> rfl

theorem getByte_setByte (b : Block) (a : Nat) (x : Byte) : (b.setByte a x).getByte a = x := by
  rw [getByte_eq_mget]
  exact mget_mput ..

theorem getByte_setByte_ne (b : Block) {a k : Nat} (x : Byte) (h : k ≠ a) : (b.setByte a x).getByte k = b.getByte k := by
  rw [getByte_eq_mget, getByte_eq_mget]
  exact mget_mput_ne _ _ _ h

/-- A write of bytes from a on leaves every byte outside them alone. -/
theorem getByte_setBytes_out {k a : Nat} (xs : List Byte) (b : Block) (out : k < a ∨ a + xs.length ≤ k) :
    (b.setBytes a xs).getByte k = b.getByte k := by
  induction xs generalizing a b with
  | nil => rfl
  | cons x xs ih =>
    rw [List.length_cons] at out
    rw [Block.setBytes, ih _ (by omega), getByte_setByte_ne _ _ (by omega)]

/-- The bytes written from a on read back in order. -/
theorem getBytes_setBytes (xs : List Byte) (b : Block) (a : Nat) : (b.setBytes a xs).getBytes a xs.length = xs := by
  induction xs generalizing a b with
  | nil => rfl
  | cons x xs ih =>
    rw [List.length_cons, Block.getBytes, Block.setBytes, ih, getByte_setBytes_out xs _ (by omega), getByte_setByte]

theorem length_bytesOfNat (n v : Nat) : (bytesOfNat n v).length = n := by
  induction n generalizing v with
  | zero => rfl
  | succ n ih => rw [bytesOfNat, List.length_cons, ih]

theorem setBytes_st (xs : List Byte) (b : Block) (a : Nat) : (b.setBytes a xs).st = b.st := by
  induction xs generalizing a b with
  | nil => rfl
  | cons x xs ih => exact ih ..

/-! ### A word of one lane in the window (R78, R88) -/

variable {s : State} {x : Iss}

/-- The state a word of the window acts on: its failures forgotten, its number given and its counter raised (R61, R88). -/
def counted (s : State) (x : Iss) (ctr : Option (Fin 8)) : State :=
  { s with wfaults := s.wfaults.filter fun f => f.warp != some x.w, nextId := s.nextId + 1 }.modWarp x.w fun w => w.ctrAdd (ctrNat ctr)

theorem regsOf_ctrAdd (w : Warp) (c : Option Nat) : regsOf (w.ctrAdd c) = regsOf w := by cases c <;> rfl

theorem standOf_ctrAdd (w : Warp) (c : Option Nat) : standOf (w.ctrAdd c) = standOf w := by cases c <;> rfl

theorem keepsAll_counted (s : State) (x : Iss) (ctr : Option (Fin 8)) : KeepsAll s (counted s x ctr) :=
  keepsAll_modWarp { s with wfaults := s.wfaults.filter fun f => f.warp != some x.w, nextId := s.nextId + 1 } _ _ fun w => regsOf_ctrAdd w _

theorem sameStand_counted (s : State) (x : Iss) (ctr : Option (Fin 8)) : SameStand s (counted s x ctr) x.w :=
  sameStand_modWarp { s with wfaults := s.wfaults.filter fun f => f.warp != some x.w, nextId := s.nextId + 1 } _ _ _ fun w => standOf_ctrAdd w _

/-- A word whose one access is in the window does its work there at issue, and ends. -/
theorem accessing_local {wp : Warp} (hw : s.warps[x.w]? = some wp) (whole : x.cl.entered = 0) (unif : Bool)
    (kind : Nat) {l va at_ : Nat} {held : Bool}
    (free : held = false) (ctr : Option (Fin 8)) (inside : List Nat) (local_ : Nat → State → State) (regs : Nat → Req → List Pend) :
    s.accessing x unif kind [(l, va, .loc at_)] held (fun s => s.enterReqs x unif ctr inside local_ [] regs) =
      ((local_ s.nextId (counted s x ctr)).wordDone x unif).partDone x.w s.nextId (ctrNat ctr) := by
  have none_ : s.memTraps x.w kind x.addr (some x.cl.addr) [] = { s with wfaults := s.wfaults.filter fun f => f.warp != some x.w } := by
    simp [State.memTraps, State.memTrapsAnd, State.trap, maskOf, hw]
  simp only [State.accessing, missing, globals, failing, free, List.filterMap_cons, List.filterMap_nil, List.flatMap_cons, List.flatMap_nil,
    List.foldl_nil, List.append_nil, none_]
  simp [State.enterReqs, whole, counted]

theorem SameStand.of_blocks {s t : State} {w : Nat} (warps : t.warps = s.warps) (blocks : t.blocks.map (·.st) = s.blocks.map (·.st)) :
    SameStand s t w := ⟨by rw [warps], blocks⟩

/-- A store in the window, which nothing holds up (R78, R79). -/
theorem storeLocal_of_clear {s : State} {r : Req} {size : Nat} {data : List Byte} {e : Nat × Nat × Nat}
    (clear : s.rangeBlocks x.w x.wp.blk e.2.2 size true s.nextId = false) :
    s.storeLocal x r size data e = s.modBlk x.wp.blk fun y => y.setBytes e.2.2 data := by
  simp [State.storeLocal, clear]

/-- The end of a word keeps the blocks of a warp that runs. -/
theorem blocks_wordDone_partDone (unif : Bool) (g : Nat) (c : Option Nat) (runs : Runs s x.w) :
    ((s.wordDone x unif).partDone x.w g c).blocks = s.blocks ∧ ((s.wordDone x unif).partDone x.w g c).reqs = s.reqs := by
  obtain ⟨is, ws, done⟩ := wordDone_of_runs unif runs
  have part : ∀ t : State, (t.partDone x.w g c).blocks = t.blocks ∧ (t.partDone x.w g c).reqs = t.reqs := fun t => by
    unfold State.partDone
    split <;> exact ⟨rfl, rfl⟩
  obtain ⟨blocks, reqs⟩ := part (s.wordDone x unif)
  exact ⟨blocks.trans (by rw [done]), reqs.trans (by rw [done])⟩

theorem blocks_modBlk_setBytes_st (s : State) (b a : Nat) (data : List Byte) :
    (s.modBlk b fun y => y.setBytes a data).blocks.map (·.st) = s.blocks.map (·.st) := by
  refine List.ext_getElem? fun k => ?_
  simp only [State.modBlk_blocks, List.getElem?_map, List.getElem?_modify]
  cases s.blocks[k]? with
  | none => rfl
  | some y => by_cases e : b = k <;> simp [e, setBytes_st]

/-- What a store in the window makes of the state: its bytes in the block, and the word done. -/
theorem next_storeLocal {i : Instr} (h : s.iss i = some x) (calm : Calm s x) (ctr : Option (Fin 8)) (at_ : Nat) {data : List Byte}
    {size : Nat} (hsize : data.length = size) (unif : Bool) {u : State}
    (hu : u = (((counted s x ctr).modBlk x.wp.blk fun y => y.setBytes at_ data).wordDone x unif).partDone x.w s.nextId (ctrNat ctr)) :
    u.windowBytes x.wp.blk at_ size = data ∧
    (∀ k, k < at_ ∨ at_ + size ≤ k → (u.blocks[x.wp.blk]?).map (·.getByte k) = (s.blocks[x.wp.blk]?).map (·.getByte k)) ∧
    (∀ c, c ≠ x.wp.blk → KeepsBlock s u c) ∧ KeepsMemory s u ∧ KeepsSpecial s u ∧ Gets s u x.w [] 0 := by
  subst hsize
  obtain ⟨wp, ds, hw, -⟩ := iss_spec h
  obtain ⟨-, b, hb, -⟩ := id calm
  set t := (counted s x ctr).modBlk x.wp.blk fun y => y.setBytes at_ data with ht
  have still : SameStand (counted s x ctr) t x.w := .of_blocks rfl (blocks_modBlk_setBytes_st ..)
  have runs : Runs t x.w := still.runs ((sameStand_counted s x ctr).runs (runs_of_calm calm h))
  have ends : KeepsAll t u := hu ▸ (keepsAll_wordDone t x unif).trans (keepsAll_partDone ..)
  have blocks : u.blocks = s.blocks.modify x.wp.blk fun y => y.setBytes at_ data :=
    (congrArg State.blocks hu).trans (blocks_wordDone_partDone unif _ _ runs).1
  have here : u.blocks[x.wp.blk]? = some (b.setBytes at_ data) := by
    rw [blocks, List.getElem?_modify_eq, show s.blocks[x.wp.blk]? = some b from hb]
    rfl
  have before : KeepsAll s (counted s x ctr) := keepsAll_counted s x ctr
  refine ⟨?_, fun k out => ?_, fun c hc => ?_, ?_, ?_, ?_⟩
  · rw [State.windowBytes, here]
    exact getBytes_setBytes ..
  · rw [here, show s.blocks[x.wp.blk]? = some b from hb]
    exact congrArg some (getByte_setBytes_out data b out)
  · rw [KeepsBlock, blocks, List.getElem?_modify_ne _ _ hc.symm]
  · exact ends.1.1
  · exact ends.1.2.2
  · exact (before.gets hw).trans (ends.2 x.w)

/-- A change to a warp that leaves its registers, and where it stands. -/
def Still (f : Warp → Warp) : Prop := ∀ y, regsOf (f y) = regsOf y ∧ standOf (f y) = standOf y

theorem sync_of_warp {wp : Warp} (s : State) {w : Nat} (hw : s.warps[w]? = some wp) : ∃ f, Still f ∧ s.sync w = s.modWarp w f := by
  unfold State.sync
  rw [hw]
  refine ⟨_, ?_, rfl⟩
  exact fun y => ⟨rfl, rfl⟩

/-- The state s with word failures forgotten and one number given out. -/
def opened (s : State) (x : Iss) : State := { s with wfaults := s.wfaults.filter fun f => f.warp != some x.w, nextId := s.nextId + 1 }

/-- An acquire begins with its core's stores noted; a load's state is otherwise as `counted` leaves it (R219). -/
theorem synced_counted {wp : Warp} (hw : s.warps[x.w]? = some wp) (ctr : Option (Fin 8)) (acq : Bool) :
    ∃ f, Still f ∧ (if acq then (counted s x ctr).sync x.w else counted s x ctr) = (opened s x).modWarp x.w f := by
  have rises : Still fun w : Warp => w.ctrAdd (ctrNat ctr) := fun y => ⟨regsOf_ctrAdd y _, standOf_ctrAdd y _⟩
  cases acq with
  | false => exact ⟨_, rises, rfl⟩
  | true =>
    have there : (counted s x ctr).warps[x.w]? = some (wp.ctrAdd (ctrNat ctr)) := by simp [counted, hw]
    obtain ⟨f, still, synced⟩ := sync_of_warp _ there
    refine ⟨fun y => f (y.ctrAdd (ctrNat ctr)), fun y => ⟨(still _).1.trans (rises y).1, (still _).2.trans (rises y).2⟩, synced.trans ?_⟩
    simp [counted, opened, State.modWarp, List.modify_modify_eq, Function.comp_def]

/-- The request of a load in the window that nothing holds up: it has its bytes at once (R88). -/
def localReq (s : State) (b : Nat) (r : Req) (size : Nat) (e : Nat × Nat × Nat) : Req :=
  { r with loc := some b, accs := [⟨e.1, e.2.1, e.2.2, size, [], (s.windowBytes b e.2.2 size).map some⟩],
           poison := s.badLocal b e.2.2 size, st := .ordered }

theorem loadLocal_of_clear {s : State} {r : Req} {d : Reg} {n size : Nat} {e : Nat × Nat × Nat}
    (clear : s.rangeBlocks x.w x.wp.blk e.2.2 size false s.nextId = false) :
    s.loadLocal x r d n size e = s.addLocal (localReq s x.wp.blk r size e) fun id => resTag r.unif e.1 d id n := by
  simp [State.loadLocal, clear, localReq]

/-- The writes that a lane's registers are owed, none with a value yet (R61). -/
theorem owed_resTag {unif : Bool} {l tag n : Nat} {d : Reg} (some_ : Reg.isS0 d = false) : Owed [l] d n (resTag unif l d tag n) := by
  have keeps : resTag unif l d tag n = pendTag l d tag n := by simp [resTag, discards, some_]
  have mem : ∀ p, p ∈ pendTag l d tag n ↔ ∃ k, k < n ∧ p = ⟨dstOf l d k, none, 0, some tag, none⟩ := fun p => by
    induction n with
    | zero => simp [pendTag]
    | succ n ih =>
      rw [pendTag, List.mem_append, ih (by simp [resTag, discards, some_]), List.mem_singleton]
      grind
  rw [keeps]
  refine ⟨fun p hp => ?_, fun k hk j hj => ?_⟩
  · obtain ⟨k, hk, rfl⟩ := (mem p).mp hp
    exact ⟨rfl, l, List.mem_singleton_self l, k, hk, rfl⟩
  · obtain rfl := List.mem_singleton.mp hk
    exact ⟨_, (mem _).mpr ⟨j, hj, rfl⟩, rfl, rfl⟩

/-- A request enters with the writes it owes: registers and other warps stay. -/
theorem addLocal_spec {s : State} {wp : Warp} (r : Req) (regs : Nat → List Pend) (hw : s.warps[r.warp]? = some wp) :
    Gets s (s.addLocal r regs) r.warp (regs s.nextId) 0 ∧ KeepsOthers s (s.addLocal r regs) r.warp ∧ SameStand s (s.addLocal r regs) r.warp ∧
      ∃ q ∈ (s.addLocal r regs).reqs, ∃ id seq, q = { r with id := id, seq := seq } := by
  have entered : KeepsAll s { s with
      nextId := s.nextId + 1
      reqs := s.reqs ++ [{ r with id := s.nextId, seq := ((s.warps[r.warp]?).map fun (x : Warp) => x.seq).getD 0 }] } :=
    .of_eq rfl rfl rfl rfl rfl rfl (fun _ => rfl) rfl rfl rfl rfl rfl rfl rfl rfl rfl fun _ => rfl
  refine ⟨⟨wp, { wp with pend := wp.pend ++ regs s.nextId, seq := (wp.seq + 1) % 2 ^ 32 }, hw, ?_, rfl, ?_, rfl⟩, ?_, ?_, ?_⟩
  · simp [State.addLocal, hw]
  · simp
  · exact (entered.keepsOthers _).trans (keepsOthers_modWarp ..)
  · exact sameStand_modWarp _ _ _ _ fun _ => rfl
  · exact ⟨_, List.mem_append_right _ (List.mem_singleton_self _), _, _, rfl⟩

theorem Gets.after {s t u : State} {w : Nat} {ps : List Pend} {f : Nat} (k : KeepsWarp s t w) (h : Gets t u w ps f) : Gets s u w ps f := by
  obtain ⟨x, y, hx, hy, pend, flags, held⟩ := h
  rw [KeepsWarp, hx, Option.map_some, eq_comm, Option.map_eq_some_iff] at k
  obtain ⟨z, hz, e⟩ := k
  simp only [regsOf, Prod.mk.injEq] at e
  obtain ⟨v, sc, fl, wctl, pd, q⟩ := e
  refine ⟨z, y, hz, hy, by rw [pend, pd], by rw [flags, fl], held.trans ?_⟩
  simp only [heldOf, v, sc, wctl, q]

/-- What a load in the window makes of the state: its request with its bytes, the writes it owes, and the word done. -/
theorem next_loadLocal {i : Instr} (h : s.iss i = some x) (calm : Calm s x) {t : State} {f : Warp → Warp} (still : Still f)
    (ht : t = (opened s x).modWarp x.w f) (unif : Bool) (g : Nat) (ctr : Option Nat) {r : Req} (hr : r.warp = x.w) (regs : Nat → List Pend)
    {u : State} (hu : u = ((t.addLocal r regs).wordDone x unif).partDone x.w g ctr) :
    (∃ q ∈ u.reqs, ∃ id seq, q = { r with id := id, seq := seq }) ∧ KeepsOthers s u x.w ∧ Gets s u x.w (regs t.nextId) 0 := by
  obtain ⟨wp, ds, hw, -⟩ := iss_spec h
  have before : KeepsAll s t := ht ▸ KeepsAll.trans (t := opened s x)
    (.of_eq rfl rfl rfl rfl rfl rfl (fun _ => rfl) rfl rfl rfl rfl rfl rfl rfl rfl rfl fun _ => rfl) (keepsAll_modWarp _ _ _ fun y => (still y).1)
  have stands : SameStand s t x.w := ht ▸ sameStand_modWarp (opened s x) _ _ _ fun y => (still y).2
  have there : t.warps[x.w]? = some (f wp) := by
    rw [ht, State.modWarp_warps, List.getElem?_modify_eq, show (opened s x).warps[x.w]? = some wp from hw]
    rfl
  obtain ⟨gets, others, stands', q, hq, made⟩ := addLocal_spec r regs (hr ▸ there)
  rw [hr] at gets others stands'
  have runs : Runs (t.addLocal r regs) x.w := (stands.trans stands').runs (runs_of_calm calm h)
  have ends : KeepsAll (t.addLocal r regs) u := hu ▸ (keepsAll_wordDone ..).trans (keepsAll_partDone ..)
  refine ⟨⟨q, ?_, made⟩, (before.keepsOthers _).trans (others.trans (ends.keepsOthers _)), ?_⟩
  · rw [hu, (blocks_wordDone_partDone unif g ctr runs).2]
    exact hq
  · exact Gets.after (before.2 x.w) (gets.trans (ends.2 x.w))

variable {t : MTy} {d a : Reg} {off : BitVec 12} {sc : Scope} {o : Order} {hint : Hint} {y : CTail} {l at_ : Nat}

/-- A store of one lane in the window, with nothing in its way. -/
theorem exec_st_local (h : s.iss (.st t d a off sc o hint y) = some x) (whole : x.cl.entered = 0)
    (lane : x.acts (.st t d a off sc o hint y) = [l])
    (place : s.xlate x.w x.wp wantStore (mtySize t) (mtySize t) (x.va l a off (mtySize t)) = .loc at_)
    (free : s.acquiring (s.ownerOf x.wp) = false) (clear : s.rangeBlocks x.w x.wp.blk at_ (mtySize t) true (s.nextId + 1) = false)
    (gate : s.localGate x o = true) :
    exec (.st t d a off sc o hint y) s = .next ((((counted s x y.ctr).modBlk x.wp.blk fun b =>
      b.setBytes at_ (leBytes (mtySize t) (x.rd l d (mtyRegs t)))).wordDone x (uniform x.w64 (.st t d a off sc o hint y))).partDone x.w s.nextId
        (ctrNat y.ctr)) := by
  obtain ⟨wp, ds, hw, -⟩ := iss_spec h
  have clear' : (counted s x y.ctr).rangeBlocks x.w x.wp.blk at_ (mtySize t) true (counted s x y.ctr).nextId = false := clear
  refine (atIssue_some h _).trans (congrArg _ ?_)
  dsimp only
  simp only [State.tryLanes, lane, List.map_cons, List.map_nil, place, locals, globals, segments, List.filterMap_cons, List.filterMap_nil,
    List.foldl_nil]
  refine (accessing_local hw whole _ 1 ?_ y.ctr _ _ _).trans ?_
  · simp [free, gate, State.noEntry]
  · rw [List.foldl_cons, List.foldl_nil, storeLocal_of_clear (e := (l, x.va l a off (mtySize t), at_)) clear']

/-- A load of one lane in the window, with nothing in its way. -/
theorem exec_ld_local (h : s.iss (.ld t d a off sc o hint y) = some x) (whole : x.cl.entered = 0)
    (lane : x.acts (.ld t d a off sc o hint y) = [l])
    (place : s.xlate x.w x.wp wantLoad (mtySize t) (mtySize t) (x.va l a off (mtySize t)) = .loc at_)
    (free : s.acquiring (s.ownerOf x.wp) = false) (clear : s.rangeBlocks x.w x.wp.blk at_ (mtySize t) false (s.nextId + 1) = false) :
    ∃ u f r, Still f ∧ u = (opened s x).modWarp x.w f ∧ r.warp = x.w ∧ r.op = .load t d ∧
      exec (.ld t d a off sc o hint y) s = .next (((u.addLocal (localReq s x.wp.blk r (mtySize t) (l, x.va l a off (mtySize t), at_)) fun id =>
        resTag r.unif l d id (mtyRegs t)).wordDone x (uniform x.w64 (.ld t d a off sc o hint y))).partDone x.w s.nextId (ctrNat y.ctr)) := by
  obtain ⟨wp, ds, hw, -⟩ := iss_spec h
  obtain ⟨f, still, begun⟩ := synced_counted hw y.ctr (o == .acq || o == .acqrel)
  have clear' : ((opened s x).modWarp x.w f).rangeBlocks x.w x.wp.blk at_ (mtySize t) false ((opened s x).modWarp x.w f).nextId = false := clear
  refine ⟨_, f,
    ((opened s x).modWarp x.w f).newReq x s.nextId (.load t d) sc o hint y.ctr (uniform x.w64 (.ld t d a off sc o hint y)) noPlace [],
    still, rfl, rfl, rfl, (atIssue_some h _).trans (congrArg _ ?_)⟩
  · dsimp only
    unfold State.loadWith
    simp only [State.tryLanes, lane, List.map_cons, List.map_nil, place, locals, globals, segments, List.filterMap_cons, List.filterMap_nil,
      List.foldl_nil]
    refine (accessing_local hw whole _ 0 ?_ y.ctr _ _ _).trans ?_
    · simp [free, State.noEntry]
    · simp only [List.isEmpty_cons, Bool.not_false, Bool.and_true, begun, List.foldl_cons, List.foldl_nil]
      rw [loadLocal_of_clear (e := (l, x.va l a off (mtySize t), at_)) clear']
      rfl

end Sys2Proof.Safety

open Sys2Proof Sys2Proof.Machine Sys2Proof.Safety Sys2Proof.Claims

/-- Settles O20: nothing holds the access up, so a store puts its bytes in the block and a load takes them, before the word ends. -/
theorem localAccesses : Obligations.LocalAccesses := by
  intro s x t d a off sc o h y l at_ size b here
  refine ⟨fun holds gate => ?_, fun holds => ?_⟩
  · obtain ⟨issues, calm, whole, lane, place, free, clear⟩ := holds
    exact ⟨_, exec_st_local issues whole lane place free clear gate, next_storeLocal issues calm y.ctr at_ (length_bytesOfNat size _) _ rfl⟩
  · obtain ⟨issues, calm, whole, lane, place, free, clear⟩ := holds
    obtain ⟨u, f, r, still, hu, warp, op, ran⟩ := exec_ld_local issues whole lane place free clear
    obtain ⟨⟨q, hq, id, seq, made⟩, others, gets⟩ := next_loadLocal issues calm still hu _ _ _
      (r := localReq s b r size (l, x.va l a off size, at_)) warp _ rfl
    subst made
    exact ⟨_, ran, ⟨_, hq, warp, rfl, op, rfl⟩, others, _, gets, owed_resTag⟩
end

section
/-! SUPPORT. The bytes of a fault-queue entry (R330). -/

namespace Sys2Proof.Safety
open Sys2Proof.Machine Sys2Proof.Forms Sys2Proof.Claims

/-! ### The bytes of a fault-queue entry (R330) -/

theorem leNat_bytesOfNat (k v : Nat) : leNat (bytesOfNat k v) = v % 256 ^ k := by
  induction k generalizing v with
  | zero => simp [bytesOfNat, leNat, Nat.mod_one]
  | succ k ih =>
    have low : (BitVec.ofNat 8 v).toNat = v % 256 := BitVec.toNat_ofNat ..
    rw [bytesOfNat, leNat, ih, low, Nat.pow_succ', Nat.mod_mul]

theorem drop_bytesOfNat (i k v : Nat) : (bytesOfNat (i + k) v).drop i = bytesOfNat k (v / 256 ^ i) := by
  induction i generalizing v with
  | zero => simp
  | succ i ih => rw [Nat.add_right_comm, bytesOfNat, List.drop_succ_cons, ih, Nat.div_div_eq_div_mul, Nat.pow_succ']

theorem take_bytesOfNat (n k v : Nat) : (bytesOfNat (n + k) v).take n = bytesOfNat n v := by
  induction n generalizing v with
  | zero => rfl
  | succ n ih => rw [Nat.add_right_comm, bytesOfNat, List.take_succ_cons, ih]; rfl

/-- A field of n bytes, i bytes into a number of k. -/
theorem leNat_slice {i n k : Nat} (h : i + n ≤ k) (v : Nat) : leNat (((bytesOfNat k v).drop i).take n) = v / 256 ^ i % 256 ^ n := by
  obtain ⟨j, rfl⟩ := Nat.exists_eq_add_of_le h
  rw [Nat.add_assoc, drop_bytesOfNat, take_bytesOfNat, leNat_bytesOfNat]

/-- Fields of n bytes from an offset on. -/
def field (bs : List Byte) (at_ n : Nat) : Nat := leNat ((bs.drop at_).take n)

theorem field_here {k i n : Nat} (h : i + n ≤ k) (v : Nat) (bs : List Byte) : field (bytesOfNat k v ++ bs) i n = v / 256 ^ i % 256 ^ n := by
  have len := length_bytesOfNat k v
  rw [field, List.drop_append_of_le_length (by omega), List.take_append_of_le_length (by rw [List.length_drop]; omega), leNat_slice h]

theorem field_past {k i : Nat} (h : k ≤ i) (v n : Nat) (bs : List Byte) : field (bytesOfNat k v ++ bs) i n = field bs (i - k) n := by
  rw [field, List.drop_append, List.drop_eq_nil_of_le (by rw [length_bytesOfNat]; exact h), List.nil_append, length_bytesOfNat, field]

theorem field_last {k i n : Nat} (h : i + n ≤ k) (v : Nat) : field (bytesOfNat k v) i n = v / 256 ^ i % 256 ^ n := leNat_slice h v

theorem length_faultBytes (e : FaultEntry) : e.bytes.length = 128 := by simp [FaultEntry.bytes, leBytes, length_bytesOfNat]

/-- The numbers in an entry are within their fields. -/
structure EntryFits (e : FaultEntry) : Prop where
  id : e.id < 2 ^ 32
  kind : e.kind < 16
  grp : e.grp < 32
  code : e.code < 2 ^ 11
  va : e.va < 2 ^ 64
  word : e.word < 2 ^ 64
  core : e.core < 2 ^ 16
  rows : e.rows < 64
  d0 : e.d0 < 2 ^ 32
  d1 : e.d1 < 2 ^ 32
  d2 : e.d2 < 2 ^ 32
  recAddr : e.recAddr < 2 ^ 64
  lin : e.lin < 2 ^ 64

/-- Each field of an entry stands where R330 puts it, and the bytes between them are zero. -/
theorem faultBytes_fields {e : FaultEntry} (fits : EntryFits e) :
    let f := field e.bytes
    f 0 4 = e.id ∧ f 4 1 = e.kind ∧ f 5 1 = e.grp ∧ f 6 2 = e.code ∧ f 8 8 = e.va ∧ f 0x10 8 = e.word ∧
      f 0x18 2 = e.core ∧ f 0x1A 1 = e.slot % 256 ∧ f 0x1C 1 = e.rows ∧ f 0x20 8 = e.mask.toNat ∧ f 0x28 4 = e.d0 ∧ f 0x2C 4 = e.d1 ∧
      f 0x30 4 = e.d2 ∧ f 0x38 8 = e.recAddr ∧ f 0x40 8 = e.lin ∧ f 0x1B 1 = 0 ∧ f 0x1D 3 = 0 ∧ f 0x34 4 = 0 ∧ f 0x48 56 = 0 := by
  obtain ⟨id, kind, grp, code, va, word, core, rows, d0, d1, d2, recAddr, lin⟩ := fits
  have mask := e.mask.isLt
  have slot := Nat.mod_lt e.slot (show 0 < 256 by decide)
  simp only [FaultEntry.bytes, leBytes, List.append_assoc]
  simp (disch := decide) only [field_here, field_past, field_last]
  omega

end Sys2Proof.Safety
end

section
/-! SUPPORT. Table walks (R68, R73). -/

namespace Sys2Proof.Safety
open Sys2Proof.Machine Sys2Proof.Forms Sys2Proof.Claims

variable {s : State} {k : Walk}

/-! ### Table walks (R73) -/

theorem walkFix_of_none (none_ : s.walks = []) (die cluster : Nat) : s.walkFix die cluster = s := by
  have empty : s.walksAt die cluster = [] := by simp [State.walksAt, none_]
  have stays : ∀ n, s.walkIn die cluster n = s := fun n => by
    cases n with
    | zero => rfl
    | succ n => simp [State.walkIn, empty, firstWalk]
  obtain ⟨⟩ := s
  subst none_
  simp [State.walkFix, stays]

theorem walkFrom_walks (ws : List Walk) (dies : List Nat) (va lvl frame name by_ : Nat) :
    State.walkFrom { s with walks := ws } dies va lvl frame name by_ = s.walkFrom dies va lvl frame name by_ := by
  induction lvl generalizing frame name by_ with
  | zero =>
    rw [State.walkFrom, State.walkFrom]
    rfl
  | succ lvl ih =>
    rw [State.walkFrom, State.walkFrom]
    simp only [ih]
    rfl

/-- A walk does not read the walks that wait. -/
theorem walk_walks (s : State) (ws : List Walk) (dies : List Nat) (c va : Nat)
    : State.walk { s with walks := ws } dies c va = s.walk dies c va := by
  unfold State.walk
  simp only [walkFrom_walks]
  rfl

/-- A walk that starts alone reads the tables and ends: no line of a table is in L2 under another slot, so none is dropped. -/
theorem execTableWalk_of_alone (alone : s.walks = [k]) (started : k.started = true) (stored : k.stored = false)
    (plain : ∀ l ∈ s.lines, l.key = 0 ∨ 2 ≤ lineTier l.line) :
    exec (.tableWalk k.die k.cluster) s =
      let t : State := { s with walks := [] }
      let fail := fun g c l e => { t with wfaults := t.wfaults ++ [⟨k.core, k.warp, k.va / 4096, g, c, l, e⟩] }
      match s.walk (s.diesWith k.die) k.ctx k.va with
      | .bad g c l e => .next (fail g c l e)
      | .ok size leaf =>
        match s.leafOwn k size leaf with
        | some (g, c) => .next (fail g c (sizeLevel size) (leaf.toNat % 2 ^ 32))
        | none =>
          let e : Tlb := ⟨k.core, k.ctx, k.va / 2 ^ size * 2 ^ size, size, leaf, none⟩
          match k.warp.bind fun w => s.warps[w]? with
          | some w => .next ((t.tlbPut e).tlbPut { e with part := some w.part })
          | none => .next (t.tlbPut e) := by
  have kept (ln : Nat) : ((s.lineOf? ln).map fun l => l.key != 0 && decide (lineTier ln ≤ 1)).getD false = false := by
    cases hl : s.lineOf? ln with
    | none => rfl
    | some l =>
      have hline : l.line = ln := by simpa using List.find?_some hl
      rcases plain l (List.mem_of_find?_eq_some hl) with key | tier
      · simp [key]
      · rw [hline] at tier
        simp; omega
  have here : (s.walksAt k.die k.cluster).find? (fun k => k.started) = some k := by simp [State.walksAt, alone, started, stored]
  change execTableWalk k.die k.cluster s = _
  unfold execTableWalk
  simp only [here, kept, List.filter_false, List.foldl_nil, alone]
  have gone : [k].filter (fun x => x.id != k.id) = [] := by simp
  rw [gone, walkFix_of_none rfl]
  dsimp only
  rw [show State.diesWith { s with walks := [] } k.die = s.diesWith k.die from rfl, walk_walks]
  rfl

theorem keepsAll_tlbPut (s : State) (e : Tlb) : KeepsAll s (s.tlbPut e) :=
  .of_eq rfl rfl rfl rfl rfl rfl (fun _ => rfl) rfl rfl rfl rfl rfl rfl rfl rfl rfl fun _ => rfl

theorem mem_tlbPut (s : State) (e : Tlb) : e ∈ (s.tlbPut e).tlb := List.mem_append_left _ (List.mem_cons_self ..)

theorem keepsAll_walks (s : State) (ws : List Walk) : KeepsAll s { s with walks := ws } :=
  .of_eq rfl rfl rfl rfl rfl rfl (fun _ => rfl) rfl rfl rfl rfl rfl rfl rfl rfl rfl fun _ => rfl

theorem lt_base_add (n m : Nat) : n < n / 2 ^ m * 2 ^ m + 2 ^ m := by
  have := Nat.mod_lt n (Nat.two_pow_pos m)
  have := Nat.div_add_mod' n (2 ^ m)
  omega

/-- A walk that finds a leaf leaves it in the core's TLB (R68, R73). -/
theorem next_walk_ok (alone : s.walks = [k]) (started : k.started = true) (stored : k.stored = false)
    (plain : ∀ l ∈ s.lines, l.key = 0 ∨ 2 ≤ lineTier l.line) {size : Nat} {leaf : DWord}
    (found : s.walk (s.diesWith k.die) k.ctx k.va = .ok size leaf) (owned : s.leafOwn k size leaf = none) :
    Next (exec (.tableWalk k.die k.cluster) s) fun t => KeepsAll s t ∧ t.walks = [] ∧ t.wfaults = s.wfaults ∧
      ∃ e ∈ t.tlb, e.core = k.core ∧ e.ctx = k.ctx ∧ e.base ≤ k.va ∧ k.va < e.base + 2 ^ e.size ∧ e.size = size ∧ e.leaf = leaf := by
  have ran := execTableWalk_of_alone alone started stored plain
  rw [found] at ran
  simp only [owned] at ran
  have within := lt_base_add k.va size
  have below := Nat.div_mul_le_self k.va (2 ^ size)
  have before := keepsAll_walks s []
  split at ran
  · exact ⟨_, ran, before.trans ((keepsAll_tlbPut ..).trans (keepsAll_tlbPut ..)), rfl, rfl, _, mem_tlbPut _ _, rfl, rfl, below, within, rfl, rfl⟩
  · exact ⟨_, ran, before.trans (keepsAll_tlbPut ..), rfl, rfl, _, mem_tlbPut _ _, rfl, rfl, below, within, rfl, rfl⟩

/-- A walk that fails a check is reported (R73). -/
theorem next_walk_bad (alone : s.walks = [k]) (started : k.started = true) (stored : k.stored = false)
    (plain : ∀ l ∈ s.lines, l.key = 0 ∨ 2 ≤ lineTier l.line) {g c l e : Nat} (failed : s.walk (s.diesWith k.die) k.ctx k.va = .bad g c l e) :
    Next (exec (.tableWalk k.die k.cluster) s) fun t => KeepsAll s t ∧ t.walks = [] ∧ t.tlb = s.tlb ∧
      t.wfaults = s.wfaults ++ [⟨k.core, k.warp, k.va / 4096, g, c, l, e⟩] := by
  have ran := execTableWalk_of_alone alone started stored plain
  rw [failed] at ran
  exact ⟨_, ran, .of_eq rfl rfl rfl rfl rfl rfl (fun _ => rfl) rfl rfl rfl rfl rfl rfl rfl rfl rfl fun _ => rfl, rfl, rfl, rfl⟩

end Sys2Proof.Safety
end

section
/-! SUPPORT. Bytes written to a line that is in L2, by a request or by an engine one after another (R80). -/

namespace Sys2Proof.Safety
open Sys2Proof.Machine Sys2Proof.Forms Sys2Proof.Claims

variable {s t : State} {p : Place} {l : Line}

/-! ### Bytes of a line in L2 (R80) -/

theorem length_patch {data bs : List Byte} {off : Nat} (h : off + bs.length ≤ data.length) : (patch data off bs).length = data.length := by
  simp only [patch, List.length_append, List.length_take, List.length_drop]
  omega

theorem getD_patch {data bs : List Byte} {off : Nat} (h : off + bs.length ≤ data.length) (i : Nat) :
    (patch data off bs).getD i 0 = if off ≤ i ∧ i < off + bs.length then bs.getD (i - off) 0 else data.getD i 0 := by
  have len : (data.take off).length = off := by rw [List.length_take]; omega
  simp only [patch, List.getD_eq_getElem?_getD, List.append_assoc, List.getElem?_append, List.length_take, List.getElem?_take, List.getElem?_drop]
  grind

theorem fwdLine_of_none (h : s.forward = []) (ln : Nat) : s.fwdLine ln = ln := by
  unfold State.fwdLine
  split
  · rw [h]; rfl
  · rfl

theorem forwarded_of_none (h : s.forward = []) (p : Place) : s.forwarded p = p := by
  unfold State.forwarded
  split
  · rw [h]; rfl
  · rfl

theorem line_of_lineOf? {ln : Nat} (h : s.lineOf? ln = some l) : l.line = ln := by simpa using List.find?_some h

/-- The bytes of a line in L2 read under its own slot. -/
theorem viewByte_of_cached (h : Cached s p l) {pa : Nat} (same : lineOf p.tier pa = lineOf p.tier p.pa) :
    s.viewByte p.tier pa p.key = l.data.getD (pa % 128) 0 := by
  obtain ⟨found, key, -, -, forward⟩ := h
  simp [State.viewByte, State.viewLine, State.viewAt, fwdLine_of_none forward, same, found, key]

/-- A line reads the same where it is in L2 alike, and RAM and the tables of keys are the same. -/
theorem viewLine_congr {ln : Nat} (line : t.lineOf? ln = s.lineOf? ln) (mem : t.mem = s.mem) (memkey : t.memkey = s.memkey) (wbs : t.wbs = s.wbs)
    (keys : t.keys = s.keys) (hs : s.forward = []) (ht : t.forward = []) (slot : Nat) : t.viewLine ln slot = s.viewLine ln slot := by
  simp only [State.viewLine, State.viewAt, fwdLine_of_none hs, fwdLine_of_none ht, line, State.ramLine, State.keyId, mem, memkey, wbs, keys]

theorem lineOf?_map {g : Line → Line} (hg : ∀ x, (g x).line = x.line) (hl : t.lines = s.lines.map g) (ln : Nat) :
    t.lineOf? ln = (s.lineOf? ln).map g := by
  rw [State.lineOf?, hl, List.find?_map, State.lineOf?]
  simp [hg]

/-- What a write of bytes at a place makes of a line. -/
def patched (p : Place) (bs : List Byte) (rel : Option Nat) (own : Option Owner) (x : Line) : Line :=
  if x.line == lineOf p.tier p.pa then
    { x with data := patch x.data (p.pa % 128) bs, dirty := true, rel := rel, own := if p.tier == 2 then own else none }
  else x

theorem putLine_of_cached (h : Cached s p l) (bs : List Byte) (rel : Option Nat) (own : Option Owner) :
    s.putLine p bs rel own = { s with poison := s.cured p.tier p.pa bs.length, lines := s.lines.map (patched p bs rel own) } := by
  obtain ⟨found, key, -⟩ := h
  have there : State.lineOf? { s with poison := s.cured p.tier p.pa bs.length } (lineOf p.tier p.pa) = some l := found
  unfold State.putLine
  simp only [there, key, beq_self_eq_true, if_true]
  rfl

/-- The line of a place with bytes written at the place. -/
theorem cached_putLine (h : Cached s p l) {bs : List Byte} (fits : p.pa % 128 + bs.length ≤ 128) (rel : Option Nat) (own : Option Owner) :
    Cached (s.putLine p bs rel own) p (patched p bs rel own l) := by
  obtain ⟨found, key, len, tier, forward⟩ := id h
  have at_ := line_of_lineOf? found
  rw [putLine_of_cached h]
  refine ⟨?_, ?_, ?_, tier, forward⟩
  · rw [lineOf?_map (s := s) (g := patched p bs rel own) (fun x => by unfold patched; split <;> rfl) rfl, found]
    rfl
  · simp [patched, at_, key]
  · simp [patched, at_, length_patch, len, fits]

theorem storesAt_putLine (h : Cached s p l) {bs : List Byte} (fits : p.pa % 128 + bs.length ≤ 128) (rel : Option Nat) (own : Option Owner) :
    StoresAt s (s.putLine p bs rel own) p bs := by
  have after := cached_putLine h fits rel own
  obtain ⟨found, key, len, tier, forward⟩ := id h
  have data : (patched p bs rel own l).data = patch l.data (p.pa % 128) bs := by simp [patched, line_of_lineOf? found]
  have reads {pa : Nat} (same : lineOf p.tier pa = lineOf p.tier p.pa) : (s.putLine p bs rel own).viewByte p.tier pa p.key =
      if p.pa % 128 ≤ pa % 128 ∧ pa % 128 < p.pa % 128 + bs.length then bs.getD (pa % 128 - p.pa % 128) 0 else s.viewByte p.tier pa p.key := by
    rw [viewByte_of_cached after same, data, getD_patch (by omega), viewByte_of_cached h same]
  refine ⟨fun i hi => ?_, fun tier pa slot other => ?_, fun pa same out => ?_⟩
  · have same : lineOf p.tier (p.pa + i) = lineOf p.tier p.pa := by simp only [lineOf]; omega
    rw [reads same, if_pos (by omega)]
    congr 1
    omega
  · rw [putLine_of_cached h]
    have same := viewLine_congr (s := s) (t := { s with poison := s.cured p.tier p.pa bs.length, lines := s.lines.map (patched p bs rel own) })
      (ln := lineOf tier pa) ?_ rfl rfl rfl rfl forward forward slot
    · exact congrArg (fun data : List Byte => data.getD (pa % 128) 0) same
    rw [lineOf?_map (s := s) (g := patched p bs rel own) (fun x => by unfold patched; split <;> rfl) rfl]
    cases hx : s.lineOf? (lineOf tier pa) with
    | none => rfl
    | some x => simp [patched, line_of_lineOf? hx, other]
  · have low : pa / 128 = p.pa / 128 := by simp only [lineOf] at same; omega
    rw [reads same, if_neg (by omega)]

/-- A byte written at a place and more behind it in its line are those bytes written there. -/
theorem storesAt_cons {u : State} {b : Byte} {bs : List Byte} (within : p.pa % 128 + 1 < 128) (h : StoresAt s t p [b])
    (k : StoresAt t u { p with pa := p.pa + 1 } bs) : StoresAt s u p (b :: bs) := by
  obtain ⟨here, others, rest⟩ := h
  obtain ⟨here', others', rest'⟩ := k
  have next : lineOf p.tier (p.pa + 1) = lineOf p.tier p.pa := by simp only [lineOf]; omega
  refine ⟨fun i hi => ?_, fun tier pa slot other => ?_, fun pa same out => ?_⟩
  · cases i with
    | zero =>
      have first := here 0 (by simp)
      exact (rest' p.pa next.symm (.inl (Nat.lt_add_one p.pa))).trans first
    | succ i =>
      have := here' i (Nat.lt_of_succ_lt_succ hi)
      rwa [Nat.add_right_comm] at this
  · exact (others' tier pa slot fun e => other (e.trans next)).trans (others tier pa slot other)
  · rw [List.length_cons] at out
    exact (rest' pa (same.trans next.symm) (by simp only; omega)).trans (rest pa same (by simp only [List.length_singleton]; omega))

/-! ### An engine's writes (R180) -/

/-- A byte that an engine puts at a place whose line is in L2 goes to the line. -/
theorem unitPut_of_cached (h : Cached s p l) (b : Byte) : s.unitPut (s.forwarded p) b = s.putLine p [b] none none := by
  obtain ⟨-, -, -, tier, forward⟩ := h
  rw [forwarded_of_none forward, State.unitPut, if_neg (by simp; omega), if_neg (by simp; omega)]

theorem writeVirt_cons (s : State) (die c va : Nat) (b : Byte) (bs : List Byte) :
    s.writeVirt die c va (b :: bs) = (s.writeVirt die c va [b]).writeVirt die c (va + 1) bs := by
  simp only [State.writeVirt]
  split <;> rfl

theorem writeVirt_of_hit {die c va : Nat} (h : Cached s p l) (hit : s.xlateUnit die c wantEWrite va = .ok p) (b : Byte) :
    s.writeVirt die c va [b] = s.putLine p [b] none none := by
  simp only [State.writeVirt, hit]
  exact unitPut_of_cached h b

theorem bytesAt_cons (va : Nat) (b : Byte) (bs : List Byte) : bytesAt va (b :: bs) = (va, b) :: bytesAt (va + 1) bs := by
  simp only [bytesAt, List.zipIdx_cons, List.map_cons, Nat.add_zero, List.cons.injEq, true_and]
  rw [List.zipIdx_succ, List.map_map]
  simp [Function.comp_def, Nat.add_assoc, Nat.add_comm 1]

/-- Bytes written one after another within a line in L2. -/
theorem storesAt_writeVirt {die c va : Nat} {b : Byte} {bs : List Byte} (h : Cached s p l) (fits : p.pa % 128 + (b :: bs).length ≤ 128)
    (hits : Hits die c s p (bytesAt va (b :: bs))) : StoresAt s (s.writeVirt die c va (b :: bs)) p (b :: bs) := by
  induction bs generalizing s p l va b with
  | nil =>
    rw [bytesAt_cons] at hits
    rw [writeVirt_of_hit h hits.1]
    exact storesAt_putLine h fits none none
  | cons b' bs ih =>
    rw [bytesAt_cons] at hits
    obtain ⟨hit, hits⟩ := hits
    simp only [List.length_cons] at fits
    have put := writeVirt_of_hit h hit b
    have after : Cached (s.writeVirt die c va [b]) p _ := put ▸ cached_putLine h (by simp only [List.length_singleton]; omega) none none
    rw [writeVirt_cons]
    have next : lineOf p.tier (p.pa + 1) = lineOf p.tier p.pa := by simp only [lineOf]; omega
    obtain ⟨found, rest⟩ := after
    refine storesAt_cons (by omega) (put ▸ storesAt_putLine h (by simp only [List.length_singleton]; omega) none none)
      (ih (l := patched p [b] none none l) ⟨next ▸ found, rest⟩ ?_ hits)
    simp only [List.length_cons]
    omega

end Sys2Proof.Safety
end

section
/-! SUPPORT. Posted faults (R329). -/

namespace Sys2Proof.Safety
open Sys2Proof.Machine Sys2Proof.Forms Sys2Proof.Claims

/-! ### Posted faults (R329) -/

theorem writeBack_ctxs (s : State) (l : Line) : (s.writeBack l).ctxs = s.ctxs := by
  unfold State.writeBack
  split
  · rfl
  · split <;> rfl

theorem dropLine_ctxs (s : State) (ln : Nat) (back : Bool) : (s.dropLine ln back).ctxs = s.ctxs := by
  unfold State.dropLine
  split
  · rfl
  · cases back with
    | false => rfl
    | true => exact writeBack_ctxs ..

theorem putLine_ctxs (s : State) (p : Place) (bs : List Byte) (rel : Option Nat) (own : Option Owner) :
    (s.putLine p bs rel own).ctxs = s.ctxs := by
  unfold State.putLine
  dsimp only
  split
  · split
    · rfl
    · exact dropLine_ctxs { s with poison := _ } _ _
  · rfl

theorem unitPut_ctxs (s : State) (p : Place) (b : Byte) : (s.unitPut p b).ctxs = s.ctxs := by
  unfold State.unitPut
  split
  · rfl
  · split
    · rfl
    · exact putLine_ctxs ..

theorem writeVirt_ctxs (s : State) (die c va : Nat) (bs : List Byte) : (s.writeVirt die c va bs).ctxs = s.ctxs := by
  induction bs generalizing s va with
  | nil => rfl
  | cons b bs ih =>
    rw [State.writeVirt]
    split
    · exact ih ..
    · exact (ih ..).trans (unitPut_ctxs ..)

theorem raise_of_fns (s : State) (c vec : Nat) : ∃ fns, s.raise_ c vec = { s with fns := fns } := by
  unfold State.raise_
  split
  · split <;> exact ⟨_, rfl⟩
  · exact ⟨_, rfl⟩

theorem ctx?_raise (s : State) (c vec k : Nat) : (s.raise_ c vec).ctx? k = s.ctx? k := by
  obtain ⟨fns, e⟩ := raise_of_fns s c vec
  rw [e]
  rfl

theorem ctx?_modCtx {s : State} {c : Context} {f : Context → Context} (h : s.ctx? c.num = some c) (hf : ∀ x, (f x).num = x.num) :
    (s.modCtx c.num f).ctx? c.num = some (f c) := by
  have find (l : List Context) : (l.map fun x => if x.num == c.num then f x else x).find? (fun x => x.num == c.num) =
      (l.find? fun x => x.num == c.num).map f := by
    induction l with
    | nil => rfl
    | cons x l ih =>
      by_cases hx : x.num == c.num
      · have hfx : ((f x).num == c.num) = true := by rw [hf]; exact hx
        simp only [List.map_cons, List.find?_cons, hx, hfx, if_true, Option.map_some]
      · simp only [List.map_cons, List.find?_cons, hx, ih, Bool.false_eq_true, if_false]
  rw [State.ctx?, State.modCtx, find, show s.ctxs.find? (fun x => x.num == c.num) = some c from h]
  rfl

/-- A posted fault whose queue has a place for it: its entry is written there, and the tail passes it. -/
theorem execPostedFault_of_room {s : State} {c : Context} {e : FaultEntry} {es : List FaultEntry} {n : Nat} (h : s.ctx? c.num = some c)
    (posts : c.posts = e :: es) (count : c.fqCount = some n) (room : (c.fqtail - c.fqhead).toNat < n)
    (free : s.unitHeld (s.ctxDie c.num) c.num (c.fqbase.toNat / 2 ^ 12 % 2 ^ 45 * 4096 + 128 * (c.fqtail.toNat % n)) 128 = false) :
    exec (.postedFault c.num) s = .next
      (((s.writeVirt (s.ctxDie c.num) c.num (c.fqbase.toNat / 2 ^ 12 % 2 ^ 45 * 4096 + 128 * (c.fqtail.toNat % n)) e.bytes).modCtx c.num
        fun x => { x with posts := es, fqtail := x.fqtail + 1 }).raise_ c.num 0) := by
  change execPostedFault c.num s = _
  unfold execPostedFault
  simp only [h, posts, count, fld, free, room, decide_true, Bool.not_false, Bool.and_self]
  rfl

/-- Raising a vector changes no memory. -/
theorem keepsMemory_raise (s : State) (c vec : Nat) : KeepsMemory s (s.raise_ c vec) := by
  obtain ⟨fns, e⟩ := raise_of_fns s c vec
  rw [e]
  exact .of_eq rfl rfl rfl rfl rfl rfl

theorem keepsMemory_modCtx (s : State) (c : Nat) (f : Context → Context) : KeepsMemory s (s.modCtx c f) := .of_eq rfl rfl rfl rfl rfl rfl

theorem storesAt_trans_keeps {s t u : State} {p : Place} {bs : List Byte} (h : StoresAt s t p bs) (k : KeepsMemory t u) : StoresAt s u p bs := by
  obtain ⟨here, others, rest⟩ := h
  exact ⟨fun i hi => (k ..).trans (here i hi), fun tier pa slot other => (k ..).trans (others tier pa slot other),
    fun pa same out => (k ..).trans (rest pa same out)⟩

end Sys2Proof.Safety

open Sys2Proof Sys2Proof.Machine Sys2Proof.Safety Sys2Proof.Claims

/-- Settles O35: a walk alone in its queue reads the tables and ends; an entry's bytes go to the line of their places one after another, and its
fields are where R330 puts them. -/
theorem walkEvents : Obligations.WalkEvents := by
  refine ⟨fun s k alone started stored plain => ⟨fun size leaf => next_walk_ok alone started stored plain,
    fun g c l e => next_walk_bad alone started stored plain⟩, ?_, ?_⟩
  · intro s c e es n die at_ h posts count room free
    set t := s.writeVirt die c.num at_ e.bytes with ht
    have same : t.ctx? c.num = some c := by
      rw [State.ctx?, ht, writeVirt_ctxs]
      exact h
    refine ⟨_, execPostedFault_of_room h posts count room free, ⟨{ c with posts := es, fqtail := c.fqtail + 1 }, ?_, rfl, rfl, rfl⟩,
      fun p l cached hits first => ?_⟩
    · rw [ctx?_raise]
      exact ctx?_modCtx (f := fun x => { x with posts := es, fqtail := x.fqtail + 1 }) same fun _ => rfl
    · have len := length_faultBytes e
      have stores : StoresAt s t p e.bytes := by
        obtain ⟨b, bs, hb⟩ := List.exists_cons_of_length_pos (show 0 < e.bytes.length by omega)
        rw [ht, hb]
        exact storesAt_writeVirt cached (by rw [← hb]; omega) (hb ▸ hits)
      exact storesAt_trans_keeps (storesAt_trans_keeps stores (keepsMemory_modCtx _ _ _)) (keepsMemory_raise _ _ _)
  · intro e id kind grp code va word core rows d0 d1 d2 recAddr lin
    exact ⟨length_faultBytes e, faultBytes_fields ⟨id, kind, grp, code, va, word, core, rows, d0, d1, d2, recAddr, lin⟩⟩
end

section
/-! SUPPORT. What follows a request at its home leaves memory and what has performed (R208, R213). -/

namespace Sys2Proof.Safety
open Sys2Proof.Machine Sys2Proof.Forms Sys2Proof.Claims

variable {s t u : State} {id : Nat}

/-! ### A request that has performed stays so (R208, R213) -/

/-- All that a byte of memory is read from is the same. -/
structure SameBytes (s t : State) : Prop where
  mem : t.mem = s.mem
  memkey : t.memkey = s.memkey
  lines : t.lines = s.lines
  wbs : t.wbs = s.wbs
  keys : t.keys = s.keys
  forward : t.forward = s.forward

theorem SameBytes.keeps (h : SameBytes s t) : KeepsMemory s t := .of_eq h.mem h.memkey h.lines h.wbs h.keys h.forward

/-- The requests with a number have performed, and their accesses are so. -/
def Answered (s : State) (id : Nat) (p : List Access → Prop) : Prop :=
  (∃ q ∈ s.reqs, q.id = id) ∧ ∀ q ∈ s.reqs, q.id = id → q.st = .ordered ∧ p q.accs

/-- What follows a request at its home: memory reads the same, and the requests that have performed keep what they have. -/
structure Follows (id : Nat) (s t : State) : Prop where
  bytes : SameBytes s t
  answered : ∀ p, Answered s id p → Answered t id p

theorem Follows.refl (s : State) : Follows id s s := ⟨⟨rfl, rfl, rfl, rfl, rfl, rfl⟩, fun _ h => h⟩

theorem Follows.trans (h : Follows id s t) (k : Follows id t u) : Follows id s u :=
  ⟨⟨k.bytes.mem.trans h.bytes.mem, k.bytes.memkey.trans h.bytes.memkey, k.bytes.lines.trans h.bytes.lines, k.bytes.wbs.trans h.bytes.wbs,
    k.bytes.keys.trans h.bytes.keys, k.bytes.forward.trans h.bytes.forward⟩, fun p a => k.answered p (h.answered p a)⟩

theorem follows_foldl {α : Type} {g : State → α → State} (h : ∀ s a, Follows id s (g s a)) (l : List α) (s : State) : Follows id s
    (l.foldl g s) := by
  induction l generalizing s with
  | nil => exact .refl s
  | cons a l ih => exact (h s a).trans (ih _)

theorem follows_of_reqs (bytes : SameBytes s t) (reqs : t.reqs = s.reqs) : Follows id s t :=
  ⟨bytes, fun p h => by rwa [Answered, reqs]⟩

theorem follows_modWarp (s : State) (w : Nat) (f : Warp → Warp) : Follows id s (s.modWarp w f) :=
  follows_of_reqs ⟨rfl, rfl, rfl, rfl, rfl, rfl⟩ rfl

/-- A change to each request that leaves those which have performed. -/
theorem follows_map {g : Req → Req} (bytes : SameBytes s t) (reqs : t.reqs = s.reqs.map g)
    (same : ∀ q, (g q).id = q.id ∧ (q.st = .ordered → (g q).st = .ordered ∧ (g q).accs = q.accs)) : Follows id s t := by
  refine ⟨bytes, fun p ⟨⟨q, hq, hid⟩, all⟩ => ⟨⟨g q, ?_, (same q).1.trans hid⟩, fun z hz hzid => ?_⟩⟩
  · rw [reqs]
    exact List.mem_map_of_mem hq
  · rw [reqs] at hz
    obtain ⟨y, hy, rfl⟩ := List.mem_map.mp hz
    obtain ⟨ordered, accs⟩ := all y hy ((same y).1.symm.trans hzid)
    obtain ⟨st, got⟩ := (same y).2 ordered
    exact ⟨st, got ▸ accs⟩

theorem follows_heads (s : State) : Follows id s s.heads := by
  refine follows_map ⟨rfl, rfl, rfl, rfl, rfl, rfl⟩ rfl fun q => ?_
  split <;> split <;> exact ⟨rfl, fun h => ⟨h, rfl⟩⟩

/-- A request that has not performed is not one of those that have. -/
theorem Answered.ne {p : List Access → Prop} (h : Answered s id p) {q : Req} (hq : q ∈ s.reqs) (st : q.st ≠ .ordered) : q.id ≠ id :=
  fun e => st (h.2 q hq e).1

theorem answered_modReq {p : List Access → Prop} (h : Answered s id p) {j : Nat} (other : j ≠ id) (f : Req → Req) (hf : ∀ q, (f q).id = q.id) :
    Answered (s.modReq j f) id p := by
  obtain ⟨⟨q, hq, hid⟩, all⟩ := h
  refine ⟨⟨q, List.mem_map.mpr ⟨q, hq, if_neg (by rw [hid]; simpa using other.symm)⟩, hid⟩, fun z hz hzid => ?_⟩
  obtain ⟨y, hy, rfl⟩ := List.mem_map.mp hz
  split at hzid
  next e => exact absurd ((beq_iff_eq.mp e).symm.trans ((hf y).symm.trans hzid)) other
  next e => rw [if_neg e]; exact all y hy hzid

theorem answered_perm {p : List Access → Prop} (h : Answered s id p) (mem : ∀ q, q.id = id → (q ∈ t.reqs ↔ q ∈ s.reqs)) : Answered t id p := by
  obtain ⟨⟨q, hq, hid⟩, all⟩ := h
  exact ⟨⟨q, (mem q hid).mpr hq, hid⟩, fun z hz hzid => all z ((mem z hzid).mp hz) hzid⟩

theorem follows_arrive (s : State) (j : Nat) : Follows id s (s.arrive j) := by
  refine ⟨⟨rfl, rfl, rfl, rfl, rfl, rfl⟩, fun p h => answered_perm h fun q _ => ?_⟩
  simp only [State.arrive, List.mem_append, List.mem_filter, bne_iff_ne, beq_iff_eq]
  tauto

/-- A request not yet performed is changed. -/
theorem follows_modReq {q : Req} (hq : q ∈ s.reqs) (st : q.st ≠ .ordered) (f : Req → Req) (hf : ∀ q, (f q).id = q.id) :
    Follows id s (s.modReq q.id f) :=
  ⟨⟨rfl, rfl, rfl, rfl, rfl, rfl⟩, fun _ h => answered_modReq h (h.ne hq st) f hf⟩

theorem mem_insertOn {α : Type} {e x : Nat × α} {l : List (Nat × α)} (h : x ∈ insertOn e l) : x = e ∨ x ∈ l := by
  induction l with
  | nil => exact .inl (List.mem_singleton.mp h)
  | cons y l ih =>
    rw [insertOn] at h
    split at h
    · exact List.mem_cons.mp h
    · rcases List.mem_cons.mp h with rfl | h
      · exact .inr (List.mem_cons_self ..)
      · exact (ih h).imp_right (List.mem_cons_of_mem _)

theorem mem_foldl_insertOn {α : Type} {x : Nat × α} {l acc : List (Nat × α)} (h : x ∈ l.foldl (fun acc e => insertOn e acc) acc) :
    x ∈ l ∨ x ∈ acc := by
  induction l generalizing acc with
  | nil => exact .inr h
  | cons e l ih =>
    rcases ih h with inL | inAcc
    · exact .inl (List.mem_cons_of_mem _ inL)
    · rcases mem_insertOn inAcc with rfl | old
      · exact .inl (List.mem_cons_self ..)
      · exact .inr old

theorem mem_of_mem_sortOn {α : Type} {x : Nat × α} {l : List (Nat × α)} (h : x ∈ sortOn l) : x ∈ l :=
  (mem_foldl_insertOn h).resolve_right List.not_mem_nil

/-- One request is admitted (R279). -/
theorem follows_admit {q : Req} (hq : q ∈ s.reqs) (st : q.st = .flight) (f : Req → Req) (hf : ∀ q, (f q).id = q.id) (turns : List (Nat × Nat)) :
    Follows id s { (s.modReq q.id f).arrive q.id with turns := turns } :=
  (follows_modReq hq (by rw [st]; decide) f hf).trans ((follows_arrive _ _).trans (follows_of_reqs ⟨rfl, rfl, rfl, rfl, rfl, rfl⟩ rfl))

theorem follows_takeIn (s : State) (die slice n : Nat) : Follows id s (s.takeIn die slice n) := by
  induction n generalizing s with
  | zero => exact .refl s
  | succ n ih =>
    rw [State.takeIn]
    dsimp only
    split
    · exact .refl s
    · split
      · exact .refl s
      · rename_i first
        refine Follows.trans ?_ (ih _)
        obtain ⟨q, hq, e⟩ := List.mem_map.mp (mem_of_mem_sortOn (List.mem_of_head? first))
        cases e
        obtain ⟨waits, -⟩ := List.mem_filter.mp hq
        obtain ⟨hq, flight⟩ := List.mem_filter.mp waits
        simp only [Bool.and_eq_true, beq_iff_eq] at flight
        obtain ⟨⟨⟨st, -⟩, -⟩, -⟩ := flight
        exact follows_admit hq st (fun x => { x with admitted := true, waitFrom := none }) (fun _ => rfl) _

theorem req?_spec {j : Nat} {q : Req} (h : s.req? j = some q) : q ∈ s.reqs ∧ q.id = j :=
  ⟨List.mem_of_find?_eq_some h, by simpa using List.find?_some h⟩

theorem follows_leave {j : Nat} (held : ∀ q, s.req? j = some q → q.st ≠ .ordered) : Follows id s (s.leave j) := by
  unfold State.leave
  split
  · exact .refl s
  · rename_i q found
    obtain ⟨hq, rfl⟩ := req?_spec found
    dsimp only
    refine Follows.trans ?_ (follows_heads _)
    have sent (f : Req) (hf : f.id = q.id) : Follows id s { s with reqs := s.reqs.filter (fun x => x.id != q.id) ++ [f] } := by
      refine ⟨⟨rfl, rfl, rfl, rfl, rfl, rfl⟩, fun p h => answered_perm h fun z hz => ?_⟩
      have other := h.ne hq (held q found)
      simp only [List.mem_append, List.mem_filter, List.mem_singleton, bne_iff_ne, ne_eq]
      grind
    split
    · refine Follows.trans ?_ (follows_takeIn _ _ _ _)
      exact sent _ rfl
    · exact sent _ rfl

theorem follows_wake (s : State) (o : Owner) : Follows id s (s.wake o) := by
  refine follows_foldl (fun s i => ?_) _ s
  split
  · rename_i q found
    obtain ⟨hq, hid⟩ := req?_spec found
    split
    · rename_i may
      have st : q.st ≠ .ordered := by
        intro e
        simp [e] at may
      split
      · exact follows_modReq hq st _ fun _ => rfl
      · exact follows_leave fun z hz => by rw [hid, found] at hz; cases hz; exact st
    · exact .refl s
  · exact .refl s

theorem follows_sync (s : State) (w : Nat) : Follows id s (s.sync w) := by
  unfold State.sync
  split
  · exact .refl s
  · exact follows_modWarp ..

theorem follows_fenceProbe (s : State) (w : Nat) : Follows id s (s.fenceProbe w) := by
  unfold State.fenceProbe
  split
  · exact .refl s
  · refine follows_foldl (fun s e => ?_) _ s
    split
    · exact follows_of_reqs ⟨rfl, rfl, rfl, rfl, rfl, rfl⟩ rfl
    · exact .refl s

theorem follows_fenceFix (s : State) (w : Nat) : Follows id s (s.fenceFix w) := by
  unfold State.fenceFix
  dsimp only
  split
  · exact follows_fenceProbe ..
  · split
    · exact .refl s
    · split
      · exact follows_fenceProbe ..
      · exact (follows_fenceProbe ..).trans ((follows_sync ..).trans (follows_modWarp ..))

theorem follows_settled (s : State) (o : Owner) : Follows id s (s.settled o) := by
  refine (follows_wake s o).trans ((follows_heads _).trans (follows_foldl (fun s w => ?_) _ _))
  split
  · split
    · exact follows_fenceFix ..
    · exact .refl s
  · exact .refl s

end Sys2Proof.Safety
end

section
/-! SUPPORT. A slice's service of one request (R208, R278). -/

namespace Sys2Proof.Safety
open Sys2Proof.Machine Sys2Proof.Forms Sys2Proof.Claims

variable {s t : State} {r : Req} {a : Access} {l : Line} {die slice : Nat}

/-! ### A slice's service of one request (R208, R278) -/

theorem takeIn_of_arrived (h : Arrived s die slice) (n : Nat) : s.takeIn die slice n = s := by
  cases n with
  | zero => rfl
  | succ n =>
    have none_ : s.reqs.filter (fun r => r.st == .flight && !r.admitted && r.slice == some (die, slice, true) && s.admits die slice r.cls) = [] :=
      List.filter_eq_nil_iff.mpr fun q hq waits => by
        simp only [Bool.and_eq_true, beq_iff_eq, Bool.not_eq_true'] at waits
        obtain ⟨⟨⟨-, waits⟩, at_⟩, -⟩ := waits
        have := (h q hq (by rw [at_]; rfl)).2
        rw [waits] at this
        cases this
    rw [State.takeIn]
    simp [none_]

theorem cross_of_arrived (h : Arrived s die slice) : s.cross die slice = s := by
  have none_ : s.reqs.filter (fun r => r.st == .flight && !r.hops.isEmpty && (r.slice.map fun k => (k.1, k.2.1)) == some (die, slice)) = [] :=
    List.filter_eq_nil_iff.mpr fun q hq waits => by
      simp only [Bool.and_eq_true, beq_iff_eq, Bool.not_eq_true'] at waits
      obtain ⟨⟨-, hops⟩, at_⟩ := waits
      rw [(h q hq at_).1] at hops
      cases hops
  unfold State.cross
  simp [none_]

theorem needsWay_of_there (there : (s.lineOf? r.line).isSome = true) : s.needsWay r = false := by
  obtain ⟨l, hl⟩ := Option.isSome_iff_exists.mp there
  simp [State.needsWay, hl]

/-- The state s at a later time: what a slice notes as it begins to serve. -/
def later (s : State) (clk : Clock) (ctxs : List Context) (sv : List (Nat × Nat)) : State := { s with clk := clk, ctxs := ctxs, served_ := sv }

/-- A request whose line is in L2 can be served at one time as at another. -/
theorem canServe_later (there : (s.lineOf? r.line).isSome = true) (clk : Clock) (ctxs : List Context) (sv : List (Nat × Nat)) :
    (later s clk ctxs sv).canServe r = s.canServe r := by
  unfold State.canServe
  rw [needsWay_of_there there, needsWay_of_there (s := later s clk ctxs sv) there]
  rfl

/-- A slice with one request in its queue, whose line is in L2, serves it. -/
theorem sliceCycle_single {one : State → Req → State} {atomic : Bool} (n : Nat) (arrived : Arrived s die slice)
    (alone : s.queueOf die slice atomic = [r]) (can : s.canServe r = true) (there : (s.lineOf? r.line).isSome = true) (tier : r.place.tier ≤ 1) :
    ∃ clk ctxs sv, s.sliceCycle one die slice atomic (n + 1) =
      (if atomic then (one (later s clk ctxs sv) r).takeIn die slice 256 else one (later s clk ctxs sv) r).heads := by
  have inside (t : State) : t.needsHost r = false := by
    have : (r.place.tier == 2) = false := beq_false_of_ne (by omega)
    rw [State.needsHost, this]
    rfl
  have serves (clk : Clock) (ctxs : List Context) (sv : List (Nat × Nat)) :
      (later s clk ctxs sv).serve one [r] (n + 1) [] = one (later s clk ctxs sv) r := by
    rw [State.serve, canServe_later there, can, inside]
    simp [State.serve]
  unfold State.sliceCycle
  extract_lets fill crossed q key start
  have filled : fill s = s := by
    simp only [fill]
    split
    · exact takeIn_of_arrived arrived 256
    · rfl
  have hc : crossed = s := by rw [show crossed = fill ((fill s).cross die slice) from rfl, filled, cross_of_arrived arrived, filled]
  have hq : q = [r] := by rw [← alone, ← hc]
  have hs : ∃ clk ctxs, start = { s with clk := clk, ctxs := ctxs } := by
    simp only [start, hc]
    split
    · split <;> exact ⟨_, _, rfl⟩
    · exact ⟨_, _, rfl⟩
  obtain ⟨clk, ctxs, hs⟩ := hs
  refine ⟨clk, ctxs, mput key start.clk.ucyc start.served_, ?_⟩
  rw [hq]
  simp only [hc, can, Bool.not_true, Bool.false_eq_true, if_false]
  have same : { start with served_ := mput key start.clk.ucyc start.served_ } = later s clk ctxs (mput key start.clk.ucyc start.served_) := by
    rw [hs]
    rfl
  rw [same, serves]

end Sys2Proof.Safety
end

section
/-! SUPPORT. The line of a request, and a request that has performed (R76, R80, R208). -/

namespace Sys2Proof.Safety
open Sys2Proof.Machine Sys2Proof.Forms Sys2Proof.Claims

variable {s t u : State} {r : Req} {a : Access} {l : Line}

/-! ### The line of a request (R76, R80) -/

theorem cached_of_sameBytes {p : Place} (h : Cached s p l) (k : SameBytes s t) : Cached t p l := by
  obtain ⟨found, key, len, tier, forward⟩ := h
  exact ⟨by rw [State.lineOf?, k.lines]; exact found, key, len, tier, k.forward.trans forward⟩

/-- A line used moves before the others, and each line is found as it was (R81). -/
theorem find?_touch (ls : List Line) (ln k : Nat) :
    (touch .normal ln ls).find? (fun l => l.line == k) = ls.find? fun l => l.line == k := by
  rw [touch, List.find?_append, List.find?_filter, List.find?_filter]
  simp only [Bool.decide_and, Bool.decide_eq_true]
  by_cases e : k = ln
  · have front : (fun l : Line => l.line == ln && l.line == k) = fun l => l.line == k := by
      funext l
      rw [e, Bool.and_self]
    have rest : ls.find? (fun l => l.line != ln && l.line == k) = none := List.find?_eq_none.mpr fun l _ => by simp [e]
    rw [front, rest, Option.or_none]
  · have front : ls.find? (fun l => l.line == ln && l.line == k) = none := List.find?_eq_none.mpr fun l _ => by
      simp only [Bool.and_eq_true, beq_iff_eq]
      exact fun ⟨h, h'⟩ => e (h'.symm.trans h)
    have rest : (fun l : Line => l.line != ln && l.line == k) = fun l => l.line == k := by
      funext l
      by_cases h : l.line = k
      · simp [h, e]
      · simp [h]
    rw [front, rest, Option.none_or]

/-- The state with the line used last (R81). -/
def touched (s : State) (ln : Nat) : State := { s with lines := touch .normal ln s.lines }

theorem lineOf?_touched (s : State) (ln k : Nat) : (touched s ln).lineOf? k = s.lineOf? k := find?_touch ..

theorem fill_of_cached (h : Cached s r.place l) (cached : r.place.cached = true) (write : Bool)
    : s.fill r.place .normal write = touched s r.line := by
  obtain ⟨found, key, -⟩ := h
  have noMiss : s.slotMiss r.place = s := by simp [State.slotMiss, found, key]
  unfold State.fill
  simp only [noMiss, found, cached]
  rfl

theorem cached_touched {p : Place} (h : Cached s p l) (ln : Nat) : Cached (touched s ln) p l := by
  obtain ⟨found, rest⟩ := h
  exact ⟨(lineOf?_touched ..).trans found, rest⟩

theorem viewLine_touched (h : s.forward = []) (ln k slot : Nat) : (touched s ln).viewLine k slot = s.viewLine k slot :=
  viewLine_congr (lineOf?_touched ..) rfl rfl rfl rfl h h slot

theorem keepsMemory_touched (h : s.forward = []) (ln : Nat) : KeepsMemory s (touched s ln) := fun tier pa slot =>
  congrArg (fun data : List Byte => data.getD (pa % 128) 0) (viewLine_touched h ln (lineOf tier pa) slot)

/-! ### What a request has when it has performed -/

theorem sameBytes_later (s : State) (clk : Clock) (ctxs : List Context) (sv : List (Nat × Nat)) : SameBytes s (later s clk ctxs sv) :=
  ⟨rfl, rfl, rfl, rfl, rfl, rfl⟩

theorem sync_reqs_bytes (s : State) (w : Nat) : (s.sync w).reqs = s.reqs ∧ SameBytes s (s.sync w) := by
  unfold State.sync
  split <;> exact ⟨rfl, rfl, rfl, rfl, rfl, rfl, rfl⟩

/-- Each request with a number becomes this one. -/
theorem answered_modReq_const {z f : Req} (there : z ∈ s.reqs) (id : z.id = r.id) (hf : f.id = r.id) (st : f.st = .ordered) :
    Answered (s.modReq r.id fun _ => f) r.id (· = f.accs) := by
  refine ⟨⟨f, List.mem_map.mpr ⟨z, there, if_pos (beq_iff_eq.mpr id)⟩, hf⟩, fun q hq hid => ?_⟩
  obtain ⟨y, -, rfl⟩ := List.mem_map.mp hq
  split at hid
  next h => rw [if_pos h]; exact ⟨st, rfl⟩
  next h => exact absurd (beq_iff_eq.mpr hid) h

/-- A request that performs at its home, but for a fence of a peer, has what it is given. -/
theorem orderedAt_spec {z : Req} (there : z ∈ s.reqs) (id : z.id = r.id) (scope : r.scope ≠ .rmt) (rel : Option Nat) :
    SameBytes s (s.orderedAt r rel) ∧ Answered (s.orderedAt r rel) r.id (· = r.accs) := by
  have begun : ∃ t : State, t.reqs = s.reqs ∧ SameBytes s t ∧ (if r.isAcq then s.sync r.warp else s) = t := by
    split
    · exact ⟨_, (sync_reqs_bytes s r.warp).1, (sync_reqs_bytes s r.warp).2, rfl⟩
    · exact ⟨s, rfl, ⟨rfl, rfl, rfl, rfl, rfl, rfl⟩, rfl⟩
  obtain ⟨t, reqs, bytes, ht⟩ := begun
  have has : Answered (t.modReq r.id fun _ => { r with st := .ordered }) r.id (· = r.accs) :=
    answered_modReq_const (f := { r with st := .ordered }) (reqs ▸ there) id rfl rfl
  have same : SameBytes s (t.modReq r.id fun _ => { r with st := .ordered }) :=
    ⟨bytes.mem, bytes.memkey, bytes.lines, bytes.wbs, bytes.keys, bytes.forward⟩
  have peer : (r.scope == .rmt && r.isAcq) = false := by
    cases h : r.scope <;> simp_all
  unfold State.orderedAt
  simp only [ht, peer, Bool.false_eq_true, if_false]
  split
  · exact ⟨⟨same.mem, same.memkey, same.lines, same.wbs, same.keys, same.forward⟩, has⟩
  · exact ⟨same, has⟩

end Sys2Proof.Safety
end

section
/-! SUPPORT. Loads, stores and atomics at their home (R200, R208). -/

namespace Sys2Proof.Safety
open Sys2Proof.Machine Sys2Proof.Forms Sys2Proof.Claims

variable {s t u : State} {r : Req} {a : Access} {l : Line}

/-! ### Loads, stores and atomics at their home (R200, R208) -/

/-- A request of one access, of a cached line in tier 0 or 1 that is in L2 under its slot. -/
structure AtHome (s : State) (r : Req) (a : Access) (l : Line) : Prop where
  there : r ∈ s.reqs
  accs : r.accs = [a]
  sameLine : lineOf r.place.tier a.pa = lineOf r.place.tier r.place.pa
  line : Cached s r.place l
  cached : r.place.cached = true
  hint : r.hint = .normal
  scope : r.scope ≠ .rmt

theorem AtHome.place (h : AtHome s r a l) : Cached s { r.place with pa := a.pa } l := by
  obtain ⟨found, rest⟩ := h.line
  exact ⟨by rw [h.sameLine]; exact found, rest⟩

theorem AtHome.forward (h : AtHome s r a l) : s.forward = [] := h.line.2.2.2.2

theorem AtHome.fill (h : AtHome s r a l) (write : Bool) : s.fill r.place r.hint write = touched s r.line := by
  rw [h.hint]
  exact fill_of_cached h.line h.cached write

theorem AtHome.later (h : AtHome s r a l) (clk : Clock) (ctxs : List Context) (sv : List (Nat × Nat)) : AtHome (later s clk ctxs sv) r a l :=
  ⟨h.there, h.accs, h.sameLine, cached_of_sameBytes h.line (sameBytes_later ..), h.cached, h.hint, h.scope⟩

/-- The bytes of an access are those of its line from its offset on. -/
theorem viewByte_of_line {tier pa i n : Nat} (fits : pa % 128 + n ≤ 128) (hi : i < n) (slot : Nat) :
    s.viewByte tier (pa + i) slot = (s.viewLine (lineOf tier pa) slot).getD (pa % 128 + i) 0 := by
  have line : lineOf tier (pa + i) = lineOf tier pa := by simp only [lineOf]; omega
  have off : (pa + i) % 128 = pa % 128 + i := by omega
  rw [State.viewByte, line, off]

/-- The launch of a request's warp keeps no snapshots (R299). -/
def NoRollback (s : State) (r : Req) : Prop :=
  ∃ wp b k, s.warps[r.warp]? = some wp ∧ s.blocks[wp.blk]? = some b ∧ s.launches[b.launch]? = some k ∧ k.rollback = false

theorem snapshot_of_noRollback (h : NoRollback s r) (p : Place) : s.snapshot r.warp p = s := by
  obtain ⟨wp, b, k, hw, hb, hk, off⟩ := h
  unfold State.snapshot
  split
  · rfl
  · simp [hw, State.blkOf, hb, hk, off]

/-- What an access takes of its line where it has no byte yet. -/
theorem takeBytes_got {b : Access} (data : List Byte) (same : b.size = a.size ∧ b.pa = a.pa ∧ ∀ i, i < a.size → b.got.getD i none = none) :
    (takeBytes data b).got = (List.range a.size).map fun i => some (data.getD (a.pa % 128 + i) 0) := by
  obtain ⟨size, pa, got⟩ := same
  unfold takeBytes
  rw [size, pa]
  exact List.map_congr_left fun i hi => by rw [got i (List.mem_range.mp hi)]

/-- An access that no earlier store serves has no byte before it takes its line's. -/
theorem takes_of_unserved (fresh : a.got = List.replicate a.size none) (unserved : ∀ i, i < a.size → s.served r (a.pa + i) = none) (ln : Nat) :
    let b := if a.full then a else (touched s ln).servedAccess r a
    b.size = a.size ∧ b.pa = a.pa ∧ ∀ i, i < a.size → b.got.getD i none = none := by
  intro b
  simp only [b]
  split
  · exact ⟨rfl, rfl, fun i hi => by simp [fresh, hi]⟩
  · refine ⟨rfl, rfl, fun i hi => ?_⟩
    have none_ : (touched s ln).served r (a.pa + i) = none := unserved i hi
    simp [State.servedAccess, hi, none_]

/-- A load takes the bytes of its line that no earlier store serves. -/
theorem perform_load (h : AtHome s r a l) {ty : MTy} {d : Reg} (op : r.op = .load ty d) (fits : a.pa % 128 + a.size ≤ 128)
    (fresh : a.got = List.replicate a.size none) (unserved : ∀ i, i < a.size → s.served r (a.pa + i) = none) :
    KeepsMemory s (s.perform r) ∧ Answered (s.perform r) r.id fun accs =>
      accs.map (·.got) = [(List.range a.size).map fun i => some (s.viewByte r.place.tier (a.pa + i) r.place.key)] := by
  have forward := h.forward
  set data := (touched s r.line).viewLine r.line r.place.key
  set taken := if a.full then a else (touched s r.line).servedAccess r a with htaken
  obtain ⟨bad, performed⟩ : ∃ bad, s.perform r = (touched s r.line).ordered { r with accs := [takeBytes data taken], poison := bad } := by
    unfold State.perform
    simp only [op, forwarded_of_none forward, h.accs, List.map_cons, List.map_nil, h.fill]
    exact ⟨_, rfl⟩
  obtain ⟨bytes, answered⟩ := orderedAt_spec (s := touched s r.line) (r := { r with accs := [takeBytes data taken], poison := bad }) h.there rfl h.scope
    (((touched s r.line).lineOf? r.line).bind (·.rel))
  rw [performed]
  refine ⟨fun tier pa slot => (bytes.keeps tier pa slot).trans (keepsMemory_touched forward _ tier pa slot), answered.1, fun q hq hid => ?_⟩
  obtain ⟨st, accs⟩ := answered.2 q hq hid
  refine ⟨st, ?_⟩
  have bytes_ : (takeBytes data taken).got = (List.range a.size).map fun i => some (s.viewByte r.place.tier (a.pa + i) r.place.key) := by
    refine (takeBytes_got data (takes_of_unserved fresh unserved r.line)).trans (List.map_congr_left fun i hi => ?_)
    rw [viewByte_of_line fits (List.mem_range.mp hi), h.sameLine, ← viewLine_touched forward r.line]
    rfl
  rw [accs, ← bytes_]
  rfl

theorem storesAt_of_keeps {p : Place} {bs : List Byte} (k : KeepsMemory s t) (h : StoresAt t u p bs) : StoresAt s u p bs := by
  obtain ⟨here, others, rest⟩ := h
  exact ⟨here, fun tier pa slot other => (others tier pa slot other).trans (k ..), fun pa same out => (rest pa same out).trans (k ..)⟩

/-- A request's one access writes its bytes to its line. -/
theorem putAll_spec (accs : r.accs = [a]) (h : Cached s { r.place with pa := a.pa } l) (fits : a.pa % 128 + a.data.length ≤ 128) :
    StoresAt s (s.putAll r) { r.place with pa := a.pa } a.data ∧ (s.putAll r).reqs = s.reqs := by
  have begun : ∃ probes, (if r.isRel then { s with probes := s.probes.filter fun p => p.line != some r.line } else s) = { s with probes := probes } := by
    split <;> exact ⟨_, rfl⟩
  obtain ⟨probes, begun⟩ := begun
  have place : Cached { s with probes := probes } { r.place with pa := a.pa } l := cached_of_sameBytes h ⟨rfl, rfl, rfl, rfl, rfl, rfl⟩
  have keeps : KeepsMemory s { s with probes := probes } := .of_eq rfl rfl rfl rfl rfl rfl
  unfold State.putAll
  simp only [begun, accs, List.foldl_cons, List.foldl_nil]
  refine ⟨storesAt_of_keeps keeps (storesAt_putLine place fits _ _), ?_⟩
  rw [putLine_of_cached place]

theorem sameBytes_stopServing (s : State) (r : Req) : SameBytes s (s.stopServing r) := ⟨rfl, rfl, rfl, rfl, rfl, rfl⟩

/-- What a store that has performed leaves of another request. -/
theorem stopServing_map (s : State) (r : Req) :
    ∃ g : Req → Req, (s.stopServing r).reqs = s.reqs.map g ∧ ∀ x, (g x).id = x.id ∧ (g x).st = x.st :=
  ⟨_, rfl, fun x => by
    generalize (x.id ≤ r.id && x.owner.core == r.owner.core && x.loc.isNone && x.place.tier == r.place.tier &&
      x.place.key == r.place.key && (match x.op with | .store => true | _ => false)) = c
    cases c <;> exact ⟨rfl, rfl⟩⟩

/-- A store that has performed serves no load any more (R213). -/
theorem answered_stopServing {id : Nat} {p : List Access → Prop} (h : Answered s id p) (q : Req) : Answered
    (s.stopServing q) id fun _ => True := by
  obtain ⟨g, reqs, same⟩ := stopServing_map s q
  obtain ⟨⟨z, hz, hid⟩, all⟩ := h
  rw [Answered, reqs]
  refine ⟨⟨g z, List.mem_map_of_mem hz, (same z).1.trans hid⟩, fun y hy hyid => ?_⟩
  obtain ⟨x, hx, rfl⟩ := List.mem_map.mp hy
  exact ⟨(same x).2.trans (all x hx ((same x).1.symm.trans hyid)).1, trivial⟩

theorem AtHome.touched (h : AtHome s r a l) (ln : Nat) : AtHome (touched s ln) r a l :=
  ⟨h.there, h.accs, h.sameLine, cached_touched h.line ln, h.cached, h.hint, h.scope⟩

/-- A store puts its bytes in its line. -/
theorem perform_store (h : AtHome s r a l) (op : r.op = .store) (off : NoRollback s r) (fits : a.pa % 128 + a.data.length ≤ 128) :
    StoresAt s (s.perform r) { r.place with pa := a.pa } a.data ∧ Answered (s.perform r) r.id fun _ => True := by
  have forward := h.forward
  have performed : s.perform r = (((touched s r.line).putAll r).ordered r).stopServing r := by
    have inside : (r.place.tier == 2) = false := beq_false_of_ne (by have := h.line.2.2.2.1; omega)
    unfold State.perform
    have same : (⟨r.place.tier, r.place.pa, r.place.key, r.place.cached, r.place.die, r.place.slice⟩ : Place) = r.place := rfl
    simp only [op, forwarded_of_none forward, h.accs, List.map_cons, List.map_nil, snapshot_of_noRollback off, h.fill, inside, Bool.false_and,
      Bool.false_eq_true, if_false]
    rw [← h.accs, ← op]
  obtain ⟨stores, reqs⟩ := putAll_spec h.accs (h.touched r.line).place fits
  obtain ⟨bytes, answered⟩ := orderedAt_spec (s := (touched s r.line).putAll r) (reqs ▸ h.there) rfl h.scope
    ((((touched s r.line).putAll r).lineOf? r.line).bind (·.rel))
  rw [performed]
  refine ⟨?_, answered_stopServing answered r⟩
  exact storesAt_trans_keeps (storesAt_trans_keeps (storesAt_of_keeps (keepsMemory_touched forward _) stores) bytes.keeps)
    (sameBytes_stopServing ..).keeps

/-- The bytes of an access within its line, read together (R80). -/
theorem viewN_of_cached {p : Place} (h : Cached s p l) {n : Nat} (fits : p.pa % 128 + n ≤ 128) :
    s.viewN p.tier p.pa p.key n = (List.range n).map fun i => s.viewByte p.tier (p.pa + i) p.key := by
  have bytes : ∀ i ∈ List.range n, s.viewByte p.tier (p.pa + i) p.key = l.data.getD (p.pa % 128 + i) 0 := fun i hi => by
    have hi := List.mem_range.mp hi
    rw [viewByte_of_cached h (by simp only [lineOf]; omega)]
    congr 1
    omega
  rw [List.map_congr_left bytes]
  obtain ⟨found, key, len, -, forward⟩ := h
  have line : s.viewLine (lineOf p.tier p.pa) p.key = l.data := by simp [State.viewLine, State.viewAt, fwdLine_of_none forward, found, key]
  rw [State.viewN, line]
  simp only [fits, if_true]
  refine List.ext_getElem (by simp only [List.length_take, List.length_drop, List.length_map, List.length_range]; omega) fun i hi hi' => ?_
  have hi : i < n := by simpa using hi'
  have within : p.pa % 128 + i < l.data.length := by omega
  simp [List.getElem?_eq_getElem within]

theorem spoil_spec (s : State) (bad : Bool) (tier pa n : Nat) :
    SameBytes s (if bad then s.spoil tier pa n else s) ∧ (if bad then s.spoil tier pa n else s).reqs = s.reqs := by
  cases bad <;> exact ⟨⟨rfl, rfl, rfl, rfl, rfl, rfl⟩, rfl⟩

theorem length_atomBytes (o : AtomOp) (w : AWidth) (cas : Bool) (old data : List Byte) : (atomBytes o w cas old data).length = atomSize w :=
  length_bytesOfNat ..

/-- An atomic leaves its new value in its line, and has the old one. -/
theorem applyAtomic_spec (h : AtHome s r a l) {o : AtomOp} {w : AWidth} {d : Option Reg} (op : r.op = .atomic o false w d) (off : NoRollback s r)
    (size : a.size = atomSize w) (fits : a.pa % 128 + a.size ≤ 128) {old : List Byte}
    (hold : old = (List.range a.size).map fun i => s.viewByte r.place.tier (a.pa + i) r.place.key) :
    StoresAt s (s.applyAtomic r) { r.place with pa := a.pa } (atomBytes o w false old a.data) ∧
      Answered (s.applyAtomic r) r.id fun accs => accs.map (·.got) = [old.map some] := by
  have forward := h.forward
  have keeps := keepsMemory_touched forward r.line
  have read : (touched s r.line).viewN r.place.tier a.pa r.place.key a.size = old := by
    rw [hold]
    exact (viewN_of_cached (h.touched r.line).place fits).trans (List.map_congr_left fun i _ => keeps ..)
  set new : Req := { r with accs := [{ a with data := atomBytes o w false old a.data }] } with hnew
  obtain ⟨bad, rel, applied⟩ : ∃ (bad : Bool) (rel : Option Nat), s.applyAtomic r =
      (if bad then ((touched s r.line).putAll new).spoil r.place.tier a.pa a.size else (touched s r.line).putAll new).orderedAt
        { r with accs := [{ a with got := old.map some }], poison := bad } rel := by
    unfold State.applyAtomic
    simp only [op, forwarded_of_none forward, h.accs, List.map_cons, List.map_nil, List.head?_cons, snapshot_of_noRollback off, h.fill, read]
    rw [← op]
    exact ⟨_, _, rfl⟩
  obtain ⟨stores, reqs⟩ : StoresAt (touched s r.line) ((touched s r.line).putAll new) { r.place with pa := a.pa } (atomBytes o w false old a.data) ∧
      ((touched s r.line).putAll new).reqs = s.reqs :=
    putAll_spec (r := new) (a := { a with data := atomBytes o w false old a.data }) rfl (h.touched r.line).place (by rw [length_atomBytes, ← size]; exact fits)
  obtain ⟨spoiled, reqs'⟩ := spoil_spec ((touched s r.line).putAll new) bad r.place.tier a.pa a.size
  obtain ⟨bytes, answered⟩ := orderedAt_spec (z := r) (r := { r with accs := [{ a with got := old.map some }], poison := bad })
    (reqs'.trans reqs ▸ h.there) rfl h.scope rel
  rw [applied]
  refine ⟨storesAt_trans_keeps (storesAt_trans_keeps (storesAt_of_keeps keeps stores) spoiled.keeps) bytes.keeps,
    answered.1, fun q hq hid => ?_⟩
  obtain ⟨st, accs⟩ := answered.2 q hq hid
  exact ⟨st, by rw [accs]; rfl⟩

/-! ### The events of a slice (R208, R278) -/

/-- What a request answered has, in what it becomes. -/
theorem becomes_of_answered {p : List Access → Prop} (h : Answered s r.id p) : Becomes s r fun q => q.st = .ordered ∧ p q.accs := by
  obtain ⟨⟨q, hq, hid⟩, all⟩ := h
  exact ⟨q, hq, hid, all q hq hid⟩

theorem AtHome.isSome (h : AtHome s r a l) : (s.lineOf? r.line).isSome = true := Option.isSome_iff_exists.mpr ⟨l, h.line.1⟩

/-- A slice whose queue of loads and stores has one request lets it perform; what then follows leaves it so. -/
theorem next_sliceQueueService {die slice : Nat} (h : AtHome s r a l) (arrived : Arrived s die slice) (alone : s.queueOf die slice false = [r])
    (can : s.canServe r = true) : ∃ clk ctxs sv, Next (exec (.sliceQueueService die slice) s) (Follows r.id ((later s clk ctxs sv).perform r)) := by
  obtain ⟨clk, ctxs, sv, e⟩ := sliceCycle_single (one := fun s r => (s.perform r).settled r.owner) 7 arrived alone can h.isSome h.line.2.2.2.1
  rw [if_neg Bool.false_ne_true] at e
  have next : exec (.sliceQueueService die slice) s = .next (((later s clk ctxs sv).perform r).settled r.owner).heads := by
    change execSliceQueueService die slice s = _
    rw [execSliceQueueService, e]
  exact ⟨clk, ctxs, sv, _, next, (follows_settled ..).trans (follows_heads _)⟩

/-- A slice whose queue of atomics has one request applies it; what then follows leaves it so. -/
theorem next_serviceWarpCycle {die slice : Nat} (h : AtHome s r a l) (arrived : Arrived s die slice) (alone : s.queueOf die slice true = [r])
    (can : s.canServe r = true) : ∃ clk ctxs sv, Next (exec (.serviceWarpCycle die slice) s) (Follows r.id ((later s clk ctxs sv).applyAtomic r)) := by
  obtain ⟨clk, ctxs, sv, e⟩ := sliceCycle_single (one := fun s r => (s.applyAtomic r).settled r.owner) 15 arrived alone can h.isSome h.line.2.2.2.1
  rw [if_pos rfl] at e
  have next : exec (.serviceWarpCycle die slice) s = .next ((((later s clk ctxs sv).applyAtomic r).settled r.owner).takeIn die slice 256).heads := by
    change execServiceWarpCycle die slice s = _
    rw [execServiceWarpCycle, e]
  exact ⟨clk, ctxs, sv, _, next, (follows_settled ..).trans ((follows_takeIn ..).trans (follows_heads _))⟩

end Sys2Proof.Safety

open Sys2Proof Sys2Proof.Machine Sys2Proof.Safety Sys2Proof.Claims

/-- Settles O33: the request alone in its queue performs at its line, which is in L2, and what the slice then does leaves memory and the request. -/
theorem homeEvents : Obligations.HomeEvents := by
  intro s r a l die slice k p under accs sameLine fits line cached hint scope arrived can launch
  have home : AtHome s r a l := by
    obtain ⟨found, rest⟩ := line
    exact ⟨under.1, accs, sameLine.symm, ⟨sameLine ▸ found, rest⟩, cached, hint, scope⟩
  obtain ⟨wp, b, launch⟩ := launch
  have off (clk : Clock) (ctxs : List Context) (sv : List (Nat × Nat)) : NoRollback (later s clk ctxs sv) r := ⟨wp, b, k, launch⟩
  refine ⟨fun t d op fresh unserved alone => ?_, fun op size alone => ?_, fun o w d op size alone => ?_⟩
  · obtain ⟨clk, ctxs, sv, u, next, follows⟩ := next_sliceQueueService home arrived alone can
    obtain ⟨keeps, answered⟩ := perform_load (home.later clk ctxs sv) op fits fresh unserved
    exact ⟨u, next, fun tier pa slot => (follows.bytes.keeps tier pa slot).trans (keeps tier pa slot), becomes_of_answered (follows.answered _ answered)⟩
  · obtain ⟨clk, ctxs, sv, u, next, follows⟩ := next_sliceQueueService home arrived alone can
    obtain ⟨stores, answered⟩ := perform_store (home.later clk ctxs sv) op (off ..) (size ▸ fits)
    obtain ⟨q, hq, hid, st, -⟩ := becomes_of_answered (follows.answered _ answered)
    exact ⟨u, next, storesAt_trans_keeps stores follows.bytes.keeps, q, hq, hid, st⟩
  · obtain ⟨clk, ctxs, sv, u, next, follows⟩ := next_serviceWarpCycle home arrived alone can
    obtain ⟨stores, answered⟩ := applyAtomic_spec (home.later clk ctxs sv) op (off ..) size fits rfl
    exact ⟨u, next, storesAt_trans_keeps stores follows.bytes.keeps, becomes_of_answered (follows.answered _ answered)⟩
end

section
/-! SUPPORT. Rounding a magnitude to a multiple of a power of two (R120), and what a pattern of a format that is decoded is rounded to (R116). -/

namespace Sys2Proof.Safety

open Sys2Proof.Machine Sys2Proof.Claims

/-! ### Rounding (R120) -/

section
variable (neg : Bool) (m k : Nat) (e : Int)

/-- A magnitude on a coarser grid is not rounded. -/
theorem roundTo_self (r : Rnd) : roundTo r neg m e e = (m, false) := by simp [roundTo]

/-- A magnitude rounded to a multiple of 2^k of its unit: the quotient, or the next one, and whether a remainder is lost. -/
theorem roundTo_add (r : Rnd) (hk : 0 < k) :
    roundTo r neg m e (e + k) =
      (if roundUp r neg (m / 2 ^ k) (m % 2 ^ k) (2 ^ (k - 1)) then m / 2 ^ k + 1 else m / 2 ^ k, m % 2 ^ k != 0) := by
  have finer : ¬ e + k ≤ e := by omega
  have places : (e + k - e).toNat = k := by omega
  rw [roundTo, if_neg finer, places]

/-- The quotient and the remainder at 2^k. -/
theorem quotient_mul_add (m k : Nat) : m / 2 ^ k * 2 ^ k + m % 2 ^ k = m ∧ m % 2 ^ k < 2 ^ k :=
  ⟨Nat.div_add_mod' m _, Nat.mod_lt _ (by positivity)⟩

/-- A choice that leaves the quotient takes the multiple at or below the magnitude. -/
theorem roundTo_below (r : Rnd) (hk : 0 < k) (down : roundUp r neg (m / 2 ^ k) (m % 2 ^ k) (2 ^ (k - 1)) = false) :
    (roundTo r neg m e (e + k)).1 * 2 ^ k ≤ m ∧ m < ((roundTo r neg m e (e + k)).1 + 1) * 2 ^ k := by
  obtain ⟨split, small⟩ := quotient_mul_add m k
  rw [roundTo_add neg m k e r hk, down, if_neg Bool.false_ne_true, add_one_mul]
  dsimp only
  omega

/-- A choice that goes up unless nothing is lost takes the multiple at or above the magnitude. -/
theorem roundTo_above (r : Rnd) (hk : 0 < k) (up : roundUp r neg (m / 2 ^ k) (m % 2 ^ k) (2 ^ (k - 1)) = (m % 2 ^ k != 0)) :
    m ≤ (roundTo r neg m e (e + k)).1 * 2 ^ k ∧ (roundTo r neg m e (e + k)).1 * 2 ^ k < m + 2 ^ k := by
  obtain ⟨split, small⟩ := quotient_mul_add m k
  rw [roundTo_add neg m k e r hk, up]
  by_cases exact : m % 2 ^ k = 0
  · rw [if_neg (by simp [exact])]
    dsimp only
    omega
  · rw [if_pos (by simp [exact])]
    dsimp only
    rw [add_one_mul]
    omega

/-- To nearest: no multiple is nearer, and of two equally near the even one is taken. -/
theorem roundTo_nearest (hk : 0 < k) :
    2 * (m - (roundTo .rn neg m e (e + k)).1 * 2 ^ k : Int).natAbs ≤ 2 ^ k ∧
      (2 * (m - (roundTo .rn neg m e (e + k)).1 * 2 ^ k : Int).natAbs = 2 ^ k → (roundTo .rn neg m e (e + k)).1 % 2 = 0) := by
  obtain ⟨split, small⟩ := quotient_mul_add m k
  have twice : 2 ^ k = 2 * 2 ^ (k - 1) := by rw [← pow_succ', Nat.sub_add_cancel hk]
  rw [roundTo_add neg m k e .rn hk]
  have cast : ∀ n : Nat, (n : Int) * 2 ^ k = (n * 2 ^ k : Nat) := fun n => by push_cast; rfl
  rw [roundUp]
  split <;> rename_i up <;> simp only [Bool.or_eq_true, Bool.and_eq_true, decide_eq_true_eq, beq_iff_eq] at up
  · dsimp only
    rw [cast, add_one_mul]
    omega
  · dsimp only
    rw [cast]
    omega

/-- Something is lost exactly when the magnitude is no multiple. -/
theorem roundTo_lost_iff (r : Rnd) (hk : 0 < k) : (roundTo r neg m e (e + k)).2 = true ↔ ¬ 2 ^ k ∣ m := by
  rw [roundTo_add neg m k e r hk, Nat.dvd_iff_mod_eq_zero, bne_iff_ne]

end

/-! ### Patterns of a format (R114, R116) -/

theorem infBits_add (f : Fmt) : f.infBits + 2 ^ f.mb = f.signBit := by
  rw [Fmt.infBits, Fmt.signBit, ← add_one_mul, Nat.sub_add_cancel Nat.one_le_two_pow, pow_add]

/-- A value on the grid of its format, below the infinity, is rounded to the pattern that it has there, without a flag (R120, R121): a subnormal with
exponent field 0, or a mantissa with its leading bit at 2^mb. -/
theorem round_of_onGrid (f : Fmt) (r : Rnd) (neg : Bool) {m j : Nat} (mantissa : m < 2 ^ (f.mb + 1)) (normal : j = 0 ∨ 2 ^ f.mb ≤ m)
    (finite : j * 2 ^ f.mb + m < f.infBits) :
    f.round r false neg m (f.qmin + j) = ((if neg then f.signBit else 0) + (j * 2 ^ f.mb + m), 0) := by
  rcases Nat.eq_zero_or_pos m with rfl | pos
  · have none : j = 0 := normal.resolve_right (by simp)
    simp [Fmt.round, none]
  have unit : max (top m (f.qmin + j) - f.mb) f.qmin = f.qmin + j := by
    have high : Nat.log2 m < f.mb + 1 := (Nat.log2_lt pos.ne').mpr mantissa
    rcases normal with rfl | large
    · simp only [top]; omega
    · have low : f.mb ≤ Nat.log2 m := (Nat.le_log2 pos.ne').mpr large
      simp only [top]; omega
  have place : (f.qmin + j - f.qmin).toNat = j := by omega
  simp only [Fmt.round, unit, place, roundTo_self, beq_iff_eq, pos.ne', Bool.false_and, Bool.false_eq_true, if_false, not_le.mpr finite]

/-- A pattern of a format is its sign, its exponent field and its fraction (R114). -/
theorem pattern_eq (f : Fmt) {b : Nat} (fits : b < 2 * f.signBit) :
    b = (if negOf f b then f.signBit else 0) + (expOf f b * 2 ^ f.mb + fracOf f b) := by
  have fields : b % f.signBit = expOf f b * 2 ^ f.mb + fracOf f b := by
    rw [Fmt.signBit, add_comm f.eb, pow_add, Nat.mod_mul, add_comm, mul_comm, expOf, fracOf]
  have split := Nat.div_add_mod' b f.signBit
  have sign : b / f.signBit < 2 := Nat.div_lt_of_lt_mul (mul_comm 2 _ ▸ fits)
  rw [← fields, negOf]
  interval_cases h : b / f.signBit <;> simp only [zero_mul, one_mul] at split
  · simpa using split.symm
  · simpa using split.symm

/-- R116, by the fields of a pattern. -/
theorem decode_eq (f : Fmt) (b : Nat) :
    f.decode b =
      if expOf f b = 2 ^ f.eb - 1 then (if fracOf f b = 0 then .inf (negOf f b) else .nan (fracOf f b / 2 ^ (f.mb - 1) == 0))
      else if expOf f b = 0 then .fin (negOf f b) (fracOf f b) f.qmin
      else .fin (negOf f b) (fracOf f b + 2 ^ f.mb) (f.qmin + (expOf f b - 1 : Nat)) := by
  simp only [Fmt.decode, expOf, fracOf, negOf, beq_iff_eq]
  rfl

/-- A finite or infinite pattern of a format comes back. -/
theorem encode_decode (f : Fmt) (r : Rnd) {b : Nat} (fits : b < 2 * f.signBit) (number : (f.decode b).isNan = false) :
    f.encode r false (f.decode b, 0) = (b, 0) := by
  have pattern := pattern_eq f fits
  have frac : fracOf f b < 2 ^ f.mb := Nat.mod_lt _ (by positivity)
  have exp : expOf f b < 2 ^ f.eb := Nat.mod_lt _ (by positivity)
  have half : 2 ^ (f.mb + 1) = 2 * 2 ^ f.mb := pow_succ' 2 f.mb
  rw [decode_eq] at number ⊢
  split at number
  case isTrue top =>
    split at number
    · rename_i whole
      rw [if_pos top, if_pos whole, Fmt.encode, Fmt.infBits, ← top]
      rw [whole, add_zero] at pattern
      rw [← pattern]
    · cases number
  case isFalse notTop =>
    have below : (expOf f b + 1) * 2 ^ f.mb ≤ f.infBits := Nat.mul_le_mul_right _ (by omega)
    rw [add_one_mul] at below
    rw [if_neg notTop]
    split
    case isTrue subnormal =>
      rw [subnormal, zero_mul, zero_add] at pattern below
      have back := round_of_onGrid f r (negOf f b) (m := fracOf f b) (j := 0) (by omega) (.inl rfl) (by omega)
      simp only [Nat.cast_zero, add_zero, zero_mul, zero_add, ← pattern] at back
      simp only [Fmt.encode, back, Nat.or_zero]
    case isFalse normal =>
      have lead : (expOf f b - 1) * 2 ^ f.mb + 2 ^ f.mb = expOf f b * 2 ^ f.mb := by
        rw [← add_one_mul, Nat.sub_one_add_one normal]
      have back := round_of_onGrid f r (negOf f b) (m := fracOf f b + 2 ^ f.mb) (j := expOf f b - 1) (by omega) (.inr (by omega)) (by omega)
      have bits : (expOf f b - 1) * 2 ^ f.mb + (fracOf f b + 2 ^ f.mb) = expOf f b * 2 ^ f.mb + fracOf f b := by omega
      rw [bits, ← pattern] at back
      simp only [Fmt.encode, back, Nat.or_zero]

end Sys2Proof.Safety
end
section
/-! SUPPORT. Sums, products, order, minimum and maximum of finite values as rational numbers (R119, R154). -/

namespace Sys2Proof.Safety

open Sys2Proof.Machine Sys2Proof.Claims

variable {a b c : Fl} {p q u : ℚ}

/-! ### Finite values (R116) -/

theorem value_fin (neg : Bool) (m : Nat) (e : Int) : value (.fin neg m e) = some ((if neg then -1 else 1) * m * (2 : ℚ) ^ e) := rfl

/-- Only a finite one has a value. -/
theorem eq_fin_of_value (h : value a = some p) : ∃ neg m e, a = .fin neg m e ∧ p = (if neg then -1 else 1) * m * (2 : ℚ) ^ e := by
  cases a with
  | fin neg m e => exact ⟨neg, m, e, rfl, (Option.some.inj h).symm⟩
  | nan | inf => cases h

theorem not_isNan_of_value (h : value a = some p) : a.isNan = false := by
  obtain ⟨_, _, _, rfl, -⟩ := eq_fin_of_value h
  rfl

/-- A finite value is an integer multiple of each power of two at or below its unit. -/
theorem value_eq_toInt (neg : Bool) (m : Nat) {e e₀ : Int} (finer : e₀ ≤ e) :
    value (.fin neg m e) = some ((Fl.fin neg m e).toInt e₀ * (2 : ℚ) ^ e₀) := by
  obtain ⟨k, rfl⟩ : ∃ k : Nat, e = e₀ + k := ⟨(e - e₀).toNat, by omega⟩
  rw [value_fin, Fl.toInt, add_sub_cancel_left, Int.toNat_natCast, zpow_add₀ two_ne_zero, zpow_natCast]
  cases neg <;> push_cast <;> ring_nf

/-- An integer multiple of a power of two. -/
theorem value_ofInt (zeroNeg : Bool) (x e : Int) : value (ofInt zeroNeg x e) = some (x * (2 : ℚ) ^ e) := by
  have signed : (if x < 0 then -1 else 1) * (x.natAbs : ℚ) = x := by
    rw [Nat.cast_natAbs, Int.cast_abs]
    split_ifs with negative
    · rw [abs_of_neg (Int.cast_lt_zero.mpr negative), neg_one_mul, neg_neg]
    · rw [abs_of_nonneg (Int.cast_nonneg (not_lt.mp negative)), one_mul]
  by_cases zero : x = 0
  · simp [ofInt, zero, value_fin]
  · simp only [ofInt, beq_iff_eq, zero, if_false, value_fin, decide_eq_true_eq, signed]

/-! ### Sums and products (R154) -/

theorem value_neg (h : value a = some p) : value a.neg = some (-p) := by
  obtain ⟨neg, m, e, rfl, rfl⟩ := eq_fin_of_value h
  cases neg <;> simp [Fl.neg, value_fin]

/-- A sum of finite values is exact, and raises nothing. -/
theorem value_addFl (r : Rnd) (ha : value a = some p) (hb : value b = some q) : value (addFl r a b).1 = some (p + q) ∧ (addFl r a b).2 = 0 := by
  obtain ⟨x, m, e, rfl, -⟩ := eq_fin_of_value ha
  obtain ⟨y, n, e', rfl, -⟩ := eq_fin_of_value hb
  rw [value_eq_toInt x m (min_le_left e e'), Option.some_inj] at ha
  rw [value_eq_toInt y n (min_le_right e e'), Option.some_inj] at hb
  refine ⟨?_, rfl⟩
  rw [addFl, value_ofInt, ← ha, ← hb, Int.cast_add, add_mul]

/-- A product of finite values is exact, and raises nothing. -/
theorem value_mulFl (ha : value a = some p) (hb : value b = some q) : value (mulFl a b).1 = some (p * q) ∧ (mulFl a b).2 = 0 := by
  obtain ⟨x, m, e, rfl, rfl⟩ := eq_fin_of_value ha
  obtain ⟨y, n, e', rfl, rfl⟩ := eq_fin_of_value hb
  refine ⟨?_, rfl⟩
  rw [mulFl, value_fin, zpow_add₀ two_ne_zero]
  cases x <;> cases y <;> push_cast <;> simp <;> ring

/-- A multiply-add of finite values is exact. -/
theorem value_fmaFl (r : Rnd) (ha : value a = some p) (hb : value b = some q) (hc : value c = some u) :
    value (fmaFl r a b c).1 = some (p * q + u) :=
  (value_addFl r (value_mulFl ha hb).1 hc).1

/-! ### Order (R119, R155) -/

/-- Finite values are in the order of the rational numbers. -/
theorem lt_iff_of_value (ha : value a = some p) (hb : value b = some q) : a.lt b = true ↔ p < q := by
  obtain ⟨x, m, e, rfl, -⟩ := eq_fin_of_value ha
  obtain ⟨y, n, e', rfl, -⟩ := eq_fin_of_value hb
  rw [value_eq_toInt x m (min_le_left e e'), Option.some_inj] at ha
  rw [value_eq_toInt y n (min_le_right e e'), Option.some_inj] at hb
  rw [Fl.lt, decide_eq_true_eq, ← ha, ← hb, mul_lt_mul_iff_of_pos_right (by positivity), Int.cast_lt]

/-! ### Minimum and maximum (R119) -/

theorem minFl_of_numbers (ha : a.isNan = false) (hb : b.isNan = false) :
    minFl a b = if a.lt b || (!b.lt a && a.isNeg) then a else b := by
  rw [minFl, if_neg (ha ▸ Bool.false_ne_true), if_neg (hb ▸ Bool.false_ne_true)]

theorem maxFl_of_numbers (ha : a.isNan = false) (hb : b.isNan = false) :
    maxFl a b = if b.lt a || (!a.lt b && !a.isNeg) then a else b := by
  rw [maxFl, if_neg (ha ▸ Bool.false_ne_true), if_neg (hb ▸ Bool.false_ne_true)]

theorem minFl_of_nans (ha : a.isNan = true) (hb : b.isNan = true) : minFl a b = .nan false := by rw [minFl, if_pos ha, if_pos hb]
theorem maxFl_of_nans (ha : a.isNan = true) (hb : b.isNan = true) : maxFl a b = .nan false := by rw [maxFl, if_pos ha, if_pos hb]

/-- Of a NaN and a number, the number. -/
theorem min_max_of_nan (ha : a.isNan = true) (hb : b.isNan = false) : minFl a b = b ∧ minFl b a = b ∧ maxFl a b = b ∧ maxFl b a = b := by
  simp [minFl, maxFl, ha, hb]

/-- The lesser and the greater of two finite values. -/
theorem value_min_max (ha : value a = some p) (hb : value b = some q) :
    value (minFl a b) = some (min p q) ∧ value (maxFl a b) = some (max p q) := by
  have na := not_isNan_of_value ha
  have nb := not_isNan_of_value hb
  rw [minFl_of_numbers na nb, maxFl_of_numbers na nb]
  have ab := lt_iff_of_value ha hb
  have ba := lt_iff_of_value hb ha
  rcases lt_trichotomy p q with less | equal | greater
  · simp [ab.mpr less, Bool.eq_false_iff.mpr (ba.not.mpr less.asymm), ha, hb, less.le]
  · subst equal
    simp only [min_self, max_self]
    exact ⟨by split <;> assumption, by split <;> assumption⟩
  · simp [ba.mpr greater, Bool.eq_false_iff.mpr (ab.not.mpr greater.asymm), ha, hb, greater.le]

/-- −0 is below +0. -/
theorem min_max_zeros (e e' : Int) :
    minFl (.fin false 0 e) (.fin true 0 e') = .fin true 0 e' ∧ minFl (.fin true 0 e) (.fin false 0 e') = .fin true 0 e ∧
      maxFl (.fin false 0 e) (.fin true 0 e') = .fin false 0 e ∧ maxFl (.fin true 0 e) (.fin false 0 e') = .fin false 0 e' := by
  have equal (x y : Bool) (e e' : Int) : (Fl.fin x 0 e).lt (.fin y 0 e') = false := by simp [Fl.lt, Fl.toInt]
  refine ⟨?_, ?_, ?_, ?_⟩
  · rw [minFl_of_numbers rfl rfl, equal, equal]; rfl
  · rw [minFl_of_numbers rfl rfl, equal, equal]; rfl
  · rw [maxFl_of_numbers rfl rfl, equal, equal]; rfl
  · rw [maxFl_of_numbers rfl rfl, equal, equal]; rfl

/-- −∞ is the lesser of itself and any number, +∞ the greater. -/
theorem min_max_infinities (number : b.isNan = false) :
    minFl (.inf true) b = .inf true ∧ minFl b (.inf true) = .inf true ∧ maxFl (.inf true) b = b ∧ maxFl b (.inf true) = b ∧
      maxFl (.inf false) b = .inf false ∧ maxFl b (.inf false) = .inf false ∧ minFl (.inf false) b = b ∧ minFl b (.inf false) = b := by
  cases b with
  | nan => cases number
  | inf neg => cases neg <;> decide
  | fin neg m e => exact ⟨rfl, rfl, rfl, rfl, rfl, rfl, rfl, rfl⟩

end Sys2Proof.Safety
end
section
/-! SUPPORT. Special functions at their special inputs, and their exact results (R157). -/

namespace Sys2Proof.Safety

open Sys2Proof.Machine Sys2Proof.Claims

/-! ### What a special result is in its format (R118, R157) -/

theorem round_zero (f : Fmt) (r : Rnd) (ftz neg : Bool) (e : Int) : f.round r ftz neg 0 e = (if neg then f.signBit else 0, 0) := by
  simp [Fmt.round]

theorem encode_zero (f : Fmt) (r : Rnd) (ftz neg : Bool) (e : Int) : f.encode r ftz (.fin neg 0 e, 0) = (if neg then f.signBit else 0, 0) := by
  simp [Fmt.encode, round_zero]

theorem encode_one (r : Rnd) (ftz : Bool) : fmtF32.encode r ftz (.fin false 1 0, 0) = (0x3F800000, 0) := by
  cases r <;> cases ftz <;> decide

/-- The zeros and the infinities of F32, flushed or not (R116, R117). -/
theorem decodeZ_zero (ftz : Bool) : fmtF32.decodeZ ftz 0 = .fin false 0 fmtF32.qmin := by cases ftz <;> decide
theorem decodeZ_negZero (ftz : Bool) : fmtF32.decodeZ ftz 0x80000000 = .fin true 0 fmtF32.qmin := by cases ftz <;> decide
theorem decodeZ_inf (ftz : Bool) : fmtF32.decodeZ ftz 0x7F800000 = .inf false := by cases ftz <;> decide
theorem decodeZ_negInf (ftz : Bool) : fmtF32.decodeZ ftz 0xFF800000 = .inf true := by cases ftz <;> decide

/-- A function's rows at the zeros and the infinities, from what it makes of their values. -/
theorem specialRows {g : Fl → Fl × Nat} {r : Rnd} {ftz : Bool} {zero negZero inf negInf : Nat × Nat}
    (hz : fmtF32.encode r ftz (g (.fin false 0 fmtF32.qmin)) = zero) (hnz : fmtF32.encode r ftz (g (.fin true 0 fmtF32.qmin)) = negZero)
    (hi : fmtF32.encode r ftz (g (.inf false)) = inf) (hni : fmtF32.encode r ftz (g (.inf true)) = negInf) :
    ∀ e ∈ [(0, zero), (0x80000000, negZero), (0x7F800000, inf), (0xFF800000, negInf)], fmtF32.encode r ftz (g (fmtF32.decodeZ ftz e.1)) = e.2 := by
  simp only [List.forall_mem_cons, decodeZ_zero, decodeZ_negZero, decodeZ_inf, decodeZ_negInf]
  exact ⟨hz, hnz, hi, hni, List.forall_mem_nil _⟩

/-- A NaN gives the canonical one, and invalid if it is signalling. -/
theorem special_nan (r : Rnd) (ftz : Bool) :
    ∀ g ∈ [rcpFl, rsqFl, sqrtFl, exp2Fl, log2Fl, sinFl, cosFl], ∀ sig,
      fmtF32.encode r ftz (g (.nan sig)) = (fmtF32.nanBits, if sig then fInv else 0) := by
  simp only [List.forall_mem_cons]
  exact ⟨fun _ => rfl, fun _ => rfl, fun _ => rfl, fun _ => rfl, fun _ => rfl, fun _ => rfl, fun _ => rfl, List.forall_mem_nil _⟩

/-- The square roots and the logarithm of what is below 0 are invalid. -/
theorem special_negative (r : Rnd) (ftz : Bool) :
    ∀ g ∈ [rsqFl, sqrtFl, log2Fl], ∀ m e, m ≠ 0 → fmtF32.encode r ftz (g (.fin true m e)) = (fmtF32.nanBits, fInv) := by
  have below {m : Nat} (h : m ≠ 0) : (m == 0) = false := beq_false_of_ne h
  simp only [List.forall_mem_cons]
  refine ⟨fun m e h => ?_, fun m e h => ?_, fun m e h => ?_, List.forall_mem_nil _⟩
  · rw [rsqFl, below h]; rfl
  · rw [sqrtFl, below h]; rfl
  · rw [log2Fl, below h]; rfl

/-! ### Square roots -/

/-- Bit by bit from 2^k down, the square root below 2^(k+1) above what is known of it. -/
theorem isqrt_eq_sqrt (n k r : Nat) (low : r ^ 2 ≤ n) (high : n < (r + 2 ^ (k + 1)) ^ 2) : isqrt n k r = Nat.sqrt n := by
  induction k generalizing r with
  | zero =>
    rw [isqrt, ← pow_two]
    split
    case isTrue next => exact Nat.eq_sqrt'.mpr ⟨next, high⟩
    case isFalse next => exact Nat.eq_sqrt'.mpr ⟨low, not_le.mp next⟩
  | succ k ih =>
    have double : r + 2 ^ (k + 1) + 2 ^ (k + 1) = r + 2 ^ (k + 2) := by rw [add_assoc, ← two_mul, ← pow_succ']
    rw [isqrt, ← pow_two]
    split
    case isTrue bit => exact ih _ bit (double ▸ high)
    case isFalse bit => exact ih _ low (not_le.mp bit)

theorem sqrtN_eq_sqrt (n : Nat) : sqrtN n = Nat.sqrt n := by
  refine isqrt_eq_sqrt n _ 0 (Nat.zero_le _) ?_
  calc n < 2 ^ (Nat.log2 n + 1) := Nat.lt_log2_self
    _ ≤ 2 ^ ((Nat.log2 n / 2 + 1 + 1) * 2) := Nat.pow_le_pow_right two_pos (by omega)
    _ = (0 + 2 ^ (Nat.log2 n / 2 + 1 + 1)) ^ 2 := by rw [zero_add, pow_mul]

theorem sqrtN_pow_two (x : Nat) : sqrtN (x ^ 2) = x := by rw [sqrtN_eq_sqrt, Nat.sqrt_eq']

/-! ### Exact results -/

variable {a : Fl} {k : Int} {q : ℚ}

/-- A result that stands exactly, without its last bit. -/
theorem value_sticky_exact (x : Nat) (e : Int) : value (.fin false (sticky x true) e) = some (x * (2 : ℚ) ^ (e + 1)) := by
  rw [value_fin, sticky, zpow_add_one₀ two_ne_zero]
  push_cast
  simp only [if_true]
  ring_nf

theorem value_sticky_two_pow (n : Nat) (e : Int) : value (.fin false (sticky (2 ^ n) true) e) = some ((2 : ℚ) ^ (n + e + 1)) := by
  rw [value_sticky_exact, add_assoc, zpow_add₀ two_ne_zero (n : Int), zpow_natCast, Nat.cast_pow, Nat.cast_ofNat]

/-- A positive value has no sign. -/
theorem eq_fin_of_value_pos (h : value a = some q) (pos : 0 < q) : ∃ m e, a = .fin false m e ∧ m ≠ 0 ∧ q = m * (2 : ℚ) ^ e := by
  obtain ⟨neg, m, e, rfl, rfl⟩ := eq_fin_of_value h
  cases neg with
  | false => exact ⟨m, e, rfl, by rintro rfl; simp at pos, by simp⟩
  | true =>
    have : (0 : ℚ) ≤ m * 2 ^ e := by positivity
    simp at pos
    linarith

/-- A power of two has a mantissa that is one. -/
theorem eq_fin_of_value_two_zpow (h : value a = some ((2 : ℚ) ^ k)) : ∃ (j : Nat) (e : Int), a = .fin false (2 ^ j) e ∧ e + j = k := by
  obtain ⟨m, e, rfl, nonzero, eq⟩ := eq_fin_of_value_pos h (by positivity)
  have mantissa : (m : ℚ) = 2 ^ (k - e) := by rw [zpow_sub₀ two_ne_zero, eq, mul_div_cancel_right₀ _ (by positivity)]
  have whole : 0 ≤ k - e := by
    rw [← one_le_zpow_iff_right₀ (one_lt_two (α := ℚ)), ← mantissa]
    exact_mod_cast Nat.one_le_iff_ne_zero.mpr nonzero
  obtain ⟨j, hj⟩ := Int.eq_ofNat_of_zero_le whole
  refine ⟨j, e, ?_, by omega⟩
  rw [hj, zpow_natCast] at mantissa
  rw [show m = 2 ^ j by exact_mod_cast mantissa]

/-- 1 ÷ 2^k. -/
theorem value_rcpFl_two_zpow (h : value a = some ((2 : ℚ) ^ k)) : value (rcpFl a).1 = some ((2 : ℚ) ^ (-k)) ∧ (rcpFl a).2 = 0 := by
  obtain ⟨j, e, rfl, rfl⟩ := eq_fin_of_value_two_zpow h
  have nonzero : ((2 : Nat) ^ j == 0) = false := beq_false_of_ne (by positivity)
  have quotient : 2 ^ (j + 80) / 2 ^ j = 2 ^ 80 := by rw [pow_add, Nat.mul_div_cancel_left _ (by positivity)]
  have whole : (2 ^ (j + 80) % 2 ^ j == 0) = true := by rw [pow_add, Nat.mul_mod_right]; rfl
  have unit : ((80 : Nat) : Int) + (-((j + 80 : Nat) : Int) - 1 - e) + 1 = -(e + j) := by push_cast; ring
  simp only [rcpFl, nonzero, Bool.false_eq_true, if_false, Nat.log2_two_pow, quotient, whole, value_sticky_two_pow, unit, and_true]

/-- log2 of 2^k. -/
theorem value_log2Fl_two_zpow (h : value a = some ((2 : ℚ) ^ k)) : value (log2Fl a).1 = some (k : ℚ) ∧ (log2Fl a).2 = 0 := by
  obtain ⟨j, e, rfl, rfl⟩ := eq_fin_of_value_two_zpow h
  have nonzero : ((2 : Nat) ^ j == 0) = false := beq_false_of_ne (by positivity)
  simp only [log2Fl, nonzero, Bool.false_eq_true, if_false, Nat.log2_two_pow, beq_self_eq_true, if_true, value_ofInt, top, zpow_zero, mul_one, and_true]

/-- An even exponent, with the bit taken off it in the mantissa. -/
theorem evenExp_eq (m : Nat) (e : Int) : ∃ (d : Nat) (h : Int), d < 2 ∧ e = d + h * 2 ∧ evenExp m e = (2 ^ d * m, h * 2) := by
  by_cases even : e % 2 = 0
  · refine ⟨0, e / 2, two_pos, by omega, ?_⟩
    rw [evenExp, if_pos (beq_iff_eq.mpr even), pow_zero, one_mul, Int.ediv_mul_cancel (Int.dvd_of_emod_eq_zero even)]
  · refine ⟨1, e / 2, one_lt_two, by omega, ?_⟩
    have below : e - 1 = e / 2 * 2 := by omega
    rw [evenExp, if_neg (beq_iff_eq.not.mpr even), pow_one, below]

/-- √(q²). -/
theorem value_sqrtFl_sq (pos : 0 < q) (ha : value a = some (q ^ 2)) : value (sqrtFl a).1 = some q ∧ (sqrtFl a).2 = 0 := by
  obtain ⟨m, e, rfl, nonzero, eq⟩ := eq_fin_of_value_pos ha (by positivity)
  obtain ⟨d, h, -, rfl, even⟩ := evenExp_eq m e
  have scaled : ((2 ^ d * m * 2 ^ 160 : Nat) : ℚ) = (q * (2 : ℚ) ^ (80 - h)) ^ 2 := by
    rw [mul_pow, eq, ← zpow_natCast, ← zpow_mul, Int.sub_mul, zpow_sub₀ two_ne_zero, zpow_add₀ two_ne_zero]
    push_cast
    field_simp
    norm_num
  obtain ⟨r, hr⟩ : IsSquare (2 ^ d * m * 2 ^ 160) := Rat.isSquare_natCast_iff.mp ⟨_, scaled.trans (pow_two _)⟩
  rw [← pow_two] at hr
  have root : (r : ℚ) = q * (2 : ℚ) ^ (80 - h) := by
    rw [hr, Nat.cast_pow] at scaled
    exact (pow_left_inj₀ (by positivity) (by positivity) two_ne_zero).mp scaled
  have unit : (r : ℚ) * (2 : ℚ) ^ (h - 81 + 1) = q := by
    rw [root, mul_assoc, ← zpow_add₀ two_ne_zero, show 80 - h + (h - 81 + 1) = 0 by ring, zpow_zero, mul_one]
  have half : h * 2 / 2 = h := Int.mul_ediv_cancel h two_ne_zero
  have whole : (r * r == r ^ 2) = true := beq_iff_eq.mpr (pow_two r).symm
  rw [sqrtFl, if_neg (beq_iff_eq.not.mpr nonzero), if_neg Bool.false_ne_true]
  dsimp only
  rw [even, hr, sqrtN_pow_two, whole, half, value_sticky_exact, unit]
  exact ⟨rfl, rfl⟩

/-- The mantissas of a format. -/
theorem mantissa_lt {f : Fmt} {ftz neg : Bool} {b m : Nat} {e : Int} (h : f.decodeZ ftz b = .fin neg m e) : m < 2 ^ (f.mb + 1) := by
  have frac : fracOf f b < 2 ^ f.mb := Nat.mod_lt _ (by positivity)
  have double : 2 ^ (f.mb + 1) = 2 * 2 ^ f.mb := pow_succ' 2 f.mb
  have decoded {neg m e} (h : f.decode b = .fin neg m e) : m < 2 ^ (f.mb + 1) := by
    rw [decode_eq] at h
    split_ifs at h <;> injection h <;> omega
  cases hd : f.decode b with
  | nan | inf => simp only [Fmt.decodeZ, hd, reduceCtorEq] at h
  | fin =>
    have := decoded hd
    simp only [Fmt.decodeZ, hd] at h
    split at h <;> injection h <;> omega

/-- 1 ÷ √(2^2k), of a mantissa of F32. -/
theorem value_rsqFl_two_zpow {ftz : Bool} {b : Nat} (ha : value (fmtF32.decodeZ ftz b) = some ((2 : ℚ) ^ (2 * k))) :
    value (rsqFl (fmtF32.decodeZ ftz b)).1 = some ((2 : ℚ) ^ (-k)) ∧ (rsqFl (fmtF32.decodeZ ftz b)).2 = 0 := by
  obtain ⟨j, e, eq, sum⟩ := eq_fin_of_value_two_zpow ha
  have small : j < 24 := (Nat.pow_lt_pow_iff_right one_lt_two).mp (mantissa_lt eq)
  obtain ⟨d, h, bit, rfl, even⟩ := evenExp_eq (2 ^ j) e
  obtain ⟨i, hi⟩ : ∃ i : Nat, d + j = i * 2 := ⟨(k - h).toNat, by omega⟩
  obtain ⟨n, hn⟩ : ∃ n, n + i = 160 := ⟨160 - i, by omega⟩
  have square : 2 ^ d * 2 ^ j = (2 ^ i) ^ 2 := by rw [← pow_add, hi, pow_mul]
  have product : (2 ^ n) ^ 2 * (2 ^ i) ^ 2 = 2 ^ 320 := by rw [← mul_pow, ← pow_add, hn, ← pow_mul]
  have quotient : 2 ^ 320 / (2 ^ i) ^ 2 = (2 ^ n) ^ 2 := by rw [← product, Nat.mul_div_cancel _ (by positivity)]
  have whole : (2 ^ n * 2 ^ n * (2 ^ i) ^ 2 == 2 ^ 320) = true := by rw [← pow_two, product]; exact beq_self_eq_true _
  have half : h * 2 / 2 = h := Int.mul_ediv_cancel h two_ne_zero
  have unit : (n : Int) + (-h - 161) + 1 = -k := by omega
  rw [eq, rsqFl, if_neg (beq_iff_eq.not.mpr (by positivity)), if_neg Bool.false_ne_true]
  dsimp only
  rw [even, square, quotient, sqrtN_pow_two, whole, half, value_sticky_two_pow, unit]
  exact ⟨rfl, rfl⟩

/-- A magnitude is at least the power of two of its leading bit. -/
theorem two_zpow_top_le {m : Nat} (nonzero : m ≠ 0) (e : Int) : (2 : ℚ) ^ top m e ≤ m * (2 : ℚ) ^ e := by
  rw [top, add_comm, zpow_add₀ two_ne_zero, zpow_natCast]
  gcongr
  exact_mod_cast Nat.log2_self_le nonzero

/-- What is below 256 in magnitude has its leading bit below 2^8. -/
theorem top_lt_of_value {neg : Bool} {m : Nat} {e : Int} (nonzero : m ≠ 0) (low : -256 < q) (high : q < 256)
    (h : value (.fin neg m e) = some q) : top m e < 8 := by
  have magnitude : |q| = m * (2 : ℚ) ^ e := by
    rw [← Option.some_inj.mp h, abs_mul, abs_mul, Nat.abs_cast, abs_of_nonneg (by positivity : (0 : ℚ) ≤ 2 ^ e)]
    cases neg <;> simp
  have below : (2 : ℚ) ^ top m e < 2 ^ (8 : Int) :=
    calc (2 : ℚ) ^ top m e ≤ |q| := magnitude ▸ two_zpow_top_le nonzero e
      _ < 256 := abs_lt.mpr ⟨low, high⟩
      _ = 2 ^ (8 : Int) := by norm_num
  exact (zpow_lt_zpow_iff_right₀ one_lt_two).mp below

/-- An integer, as a multiple of a unit of at most 1. -/
theorem toInt_of_value_int {neg : Bool} {m : Nat} {e : Int} (h : value (.fin neg m e) = some (k : ℚ)) :
    (Fl.fin neg m e).toInt (min e 0) = k * 2 ^ (-(min e 0)).toNat := by
  have places : ((-(min e 0)).toNat : Int) = -(min e 0) := Int.toNat_of_nonneg (by omega)
  rw [value_eq_toInt neg m (min_le_left e 0), Option.some_inj] at h
  have cast : ((Fl.fin neg m e).toInt (min e 0) : ℚ) = k * (2 : ℚ) ^ (-(min e 0)).toNat := by
    rw [← h, ← zpow_natCast, places, mul_assoc, ← zpow_add₀ two_ne_zero, add_neg_cancel, zpow_zero, mul_one]
  exact_mod_cast cast

/-- 2^k. -/
theorem value_exp2Fl_int (low : -256 < k) (high : k < 256) (ha : value a = some (k : ℚ)) :
    value (exp2Fl a).1 = some ((2 : ℚ) ^ k) ∧ (exp2Fl a).2 = 0 := by
  have two_pow (i : Int) : value (.fin false 1 i) = some ((2 : ℚ) ^ i) := by simp [value_fin]
  obtain ⟨neg, m, e, rfl, eq⟩ := eq_fin_of_value ha
  by_cases zero : m = 0
  · subst zero
    have none : k = 0 := by simpa using eq
    rw [none]
    exact ⟨two_pow 0, rfl⟩
  have small : ¬ 8 ≤ top m e := not_le.mpr (top_lt_of_value zero (by exact_mod_cast low) (by exact_mod_cast high) ha)
  have whole : (k * 2 ^ (-(min e 0)).toNat % 2 ^ (-(min e 0)).toNat).toNat = 0 := by rw [Int.mul_emod_left]; rfl
  have quotient : k * 2 ^ (-(min e 0)).toNat / 2 ^ (-(min e 0)).toNat = k := Int.mul_ediv_cancel k (by positivity)
  rw [exp2Fl, if_neg (beq_iff_eq.not.mpr zero), if_neg small]
  dsimp only
  rw [toInt_of_value_int ha, whole, quotient]
  exact ⟨two_pow k, rfl⟩

end Sys2Proof.Safety
end

section
open Sys2Proof Sys2Proof.Machine Sys2Proof.Safety Sys2Proof.Claims

/-- Settles O5: rounding by the quotient and the remainder of a magnitude, values as multiples of one power of two, the pattern of a value that
lies on its format's grid, and square roots that come out whole. -/
theorem floatArithmetic : Obligations.FloatArithmetic := by
  refine ⟨fun neg m k e hk => ⟨roundTo_nearest neg m k e hk, roundTo_below neg m k e .rz hk rfl, ?_, ?_, fun r => roundTo_lost_iff neg m k e r hk⟩,
    fun r a b c p q u ha hb hc => ?_, ⟨fun _ _ _ _ _ => rfl, rfl, rfl, rfl, rfl, rfl⟩,
    fun t r b fits number => encode_decode (fmtOf t) r fits number, fun a b p q e e' => ?_, fun z r => ?_, fun z b k q => ?_⟩
  · cases neg with
    | false => exact roundTo_below false m k e .rd hk rfl
    | true => exact roundTo_above true m k e .rd hk rfl
  · cases neg with
    | false => exact roundTo_above false m k e .ru hk rfl
    | true => exact roundTo_below true m k e .ru hk rfl
  · obtain ⟨sum, noSumFlag⟩ := value_addFl r ha hb
    obtain ⟨product, noProductFlag⟩ := value_mulFl ha hb
    exact ⟨sum, noSumFlag, sub_eq_add_neg p q ▸ (value_addFl r ha (value_neg hb)).1, product, noProductFlag, value_fmaFl r ha hb hc⟩
  · obtain ⟨minLeft, minRight, maxLeft, maxRight⟩ := min_max_zeros e e'
    exact ⟨fun ha hb => ⟨minFl_of_nans ha hb, maxFl_of_nans ha hb⟩, min_max_of_nan, value_min_max, minLeft, minRight, maxLeft, maxRight,
      min_max_infinities⟩
  · have zero (neg : Bool) (e : Int) := encode_zero fmtF32 r z neg e
    exact ⟨specialRows rfl rfl (zero false 0) (zero true 0), specialRows rfl rfl (zero false 0) rfl, specialRows (zero false _) (zero true _) rfl rfl,
      specialRows (encode_one r z) (encode_one r z) rfl (zero false 0), specialRows rfl rfl rfl rfl, specialRows (zero false 0) (zero true 0) rfl rfl,
      specialRows (encode_one r z) (encode_one r z) rfl rfl, special_nan r z, special_negative r z⟩
  · exact ⟨fun ha => ⟨value_rcpFl_two_zpow ha, value_log2Fl_two_zpow ha⟩, value_rsqFl_two_zpow, value_sqrtFl_sq, value_exp2Fl_int⟩
end
